-- ==== Sys2Proof/Word.lean ====
section
/-! DEFINITION. The word types of the H8 and their plainest helpers (R4, R7, R36): widths, sign and zero
extension, bytes of a word, and the sorted association list that every sparse piece of state uses. -/

namespace Sys2Proof

/-- A byte. -/
abbrev Byte := BitVec 8
/-- A 32-bit register or word (n32). -/
abbrev W32 := BitVec 32
/-- A 64-bit value (n64). -/
abbrev W64 := BitVec 64

/-- A sparse table by a natural key. In canonical form its keys rise strictly. -/
abbrev Tbl (α : Type) := List (Nat × α)

namespace Tbl

variable {α : Type}

/-- The entry at a key. -/
def find : Tbl α → Nat → Option α
  | [], _ => none
  | (k, v) :: t, i => if i = k then some v else find t i

/-- Write an entry, keeping the keys rising. -/
def put : Tbl α → Nat → α → Tbl α
  | [], i, x => [(i, x)]
  | (k, v) :: t, i, x =>
    if i < k then (i, x) :: (k, v) :: t
    else if i = k then (i, x) :: t
    else (k, v) :: put t i x

/-- Remove an entry. -/
def del : Tbl α → Nat → Tbl α
  | [], _ => []
  | (k, v) :: t, i => if i = k then t else (k, v) :: del t i

/-- The entry at a key, or a default. -/
def getD (t : Tbl α) (i : Nat) (d : α) : α := (find t i).getD d

/-- Write an entry, where a value equal to the default is not listed. -/
def putD [DecidableEq α] (t : Tbl α) (i : Nat) (d x : α) : Tbl α :=
  if x = d then del t i else put t i x

/-- Change an entry that is present. -/
def upd (t : Tbl α) (i : Nat) (f : α → α) : Tbl α :=
  t.map fun e => if e.1 = i then (e.1, f e.2) else e

/-- The keys of a table. -/
def keys (t : Tbl α) : List Nat := t.map (·.1)

/-- The values of a table. -/
def vals (t : Tbl α) : List α := t.map (·.2)

/-- The keys rise strictly (canonical form). -/
def wf : Tbl α → Bool
  | [] => true
  | [_] => true
  | (k, _) :: (k', v') :: t => decide (k < k') && wf ((k', v') :: t)

end Tbl

end Sys2Proof
end

