-- ==== Sys2Proof/Syntax.lean ====
section
/-! DEFINITION. The syntax of the H8: the operand space (R74), the control fields that every instruction word
carries (R72), and one constructor for each row of spec/opcode_table.json. The first 154 constructors are the
assigned opcodes (R87). The others are the steps that the device, the hub, the links, firmware and the host take
between instructions; they have no instruction word. -/

namespace Sys2Proof

/-- A predicate number, p0 to p15 (R76). -/
abbrev PredNo := BitVec 4

/-- The rounding modes (R38). -/
inductive Rm where
  | rne | rtz | rup | rdn
  deriving DecidableEq, Repr

/-- The operand space (R74). The reserved codes 0xFB to 0xFE have no constructor. -/
inductive Opd where
  | g (n : Fin 192)
  | k (n : Fin 32)
  | h (n : Fin 16)
  | zero | lane | warp | widLo | widHi | vcore | vdie | dtLo | dtHi | cycLo | grp
  | none
  deriving DecidableEq, Repr

/-- The control fields of a word: guards G1, G2 with N1, N2, empty policies FA, FB, FC, cache hint H and the
reuse bit RU (R72). -/
structure Ctl where
  g1 : PredNo
  g2 : PredNo
  n1 : Bool
  n2 : Bool
  fa : Bool
  fb : Bool
  fc : Bool
  h  : BitVec 2
  ru : Bool
  deriving DecidableEq, Repr

/-- One constructor per row of the opcode table. -/
inductive Instr where
  /-- NOP (R138). -/
  | nop (q : Ctl)
  /-- MOV (R138). -/
  | mov (q : Ctl) (d : Opd) (a : Opd) (wide : Bool)
  /-- MOVI (R138). -/
  | movi (q : Ctl) (d : Opd) (imm : BitVec 24)
  /-- MOVK (R138). -/
  | movk (q : Ctl) (d : Opd) (imm : BitVec 32)
  /-- IADD (R139). -/
  | iadd (q : Ctl) (d : Opd) (a : Opd) (b : Opd) (sat : BitVec 2)
  /-- ISUB (R139). -/
  | isub (q : Ctl) (d : Opd) (a : Opd) (b : Opd) (sat : BitVec 2)
  /-- IADDI (R139). -/
  | iaddi (q : Ctl) (d : Opd) (a : Opd) (imm : BitVec 24)
  /-- IMUL (R140). -/
  | imul (q : Ctl) (d : Opd) (a : Opd) (b : Opd)
  /-- IMULH (R140). -/
  | imulh (q : Ctl) (d : Opd) (a : Opd) (b : Opd) (ty : BitVec 2)
  /-- IMAD (R140). -/
  | imad (q : Ctl) (d : Opd) (a : Opd) (b : Opd) (c : Opd)
  /-- IMADW (R140). -/
  | imadw (q : Ctl) (d : Opd) (a : Opd) (b : Opd) (c : Opd) (ty : BitVec 2)
  /-- IDIV (R141). -/
  | idiv (q : Ctl) (d : Opd) (a : Opd) (b : Opd) (uns : Bool)
  /-- IREM (R141). -/
  | irem (q : Ctl) (d : Opd) (a : Opd) (b : Opd) (uns : Bool)
  /-- IMIN (R142). -/
  | imin (q : Ctl) (d : Opd) (a : Opd) (b : Opd) (uns : Bool)
  /-- IMAX (R142). -/
  | imax (q : Ctl) (d : Opd) (a : Opd) (b : Opd) (uns : Bool)
  /-- IABS (R142). -/
  | iabs (q : Ctl) (d : Opd) (a : Opd) (sat : Bool)
  /-- INEG (R142). -/
  | ineg (q : Ctl) (d : Opd) (a : Opd) (sat : Bool)
  /-- SHL (R143). -/
  | shl (q : Ctl) (d : Opd) (a : Opd) (b : Opd)
  /-- SHR (R143). -/
  | shr (q : Ctl) (d : Opd) (a : Opd) (b : Opd) (ar : Bool)
  /-- ROT (R143). -/
  | rot (q : Ctl) (d : Opd) (a : Opd) (b : Opd) (right : Bool)
  /-- IADD64 (R143). -/
  | iadd64 (q : Ctl) (d : Opd) (a : Opd) (b : Opd)
  /-- ISUB64 (R143). -/
  | isub64 (q : Ctl) (d : Opd) (a : Opd) (b : Opd)
  /-- SHL64 (R143). -/
  | shl64 (q : Ctl) (d : Opd) (a : Opd) (b : Opd)
  /-- SHR64 (R143). -/
  | shr64 (q : Ctl) (d : Opd) (a : Opd) (b : Opd) (ar : Bool)
  /-- LOP3 (R144). -/
  | lop3 (q : Ctl) (d : Opd) (a : Opd) (b : Opd) (c : Opd) (lut : Byte)
  /-- BFX (R145). -/
  | bfx (q : Ctl) (d : Opd) (a : Opd) (b : Opd) (sx : Bool)
  /-- BFI (R145). -/
  | bfi (q : Ctl) (d : Opd) (a : Opd) (b : Opd) (c : Opd)
  /-- BREV (R146). -/
  | brev (q : Ctl) (d : Opd) (a : Opd)
  /-- POPC (R146). -/
  | popc (q : Ctl) (d : Opd) (a : Opd)
  /-- CLZ (R146). -/
  | clz (q : Ctl) (d : Opd) (a : Opd)
  /-- CTZ (R146). -/
  | ctz (q : Ctl) (d : Opd) (a : Opd)
  /-- PRMT (R147). -/
  | prmt (q : Ctl) (d : Opd) (a : Opd) (b : Opd) (c : Opd)
  /-- ICMP (R149). -/
  | icmp (q : Ctl) (pd : PredNo) (pq : PredNo) (a : Opd) (b : Opd) (cc : BitVec 3) (uns : Bool) (w64 : Bool)
  /-- ICMPI (R149). -/
  | icmpi (q : Ctl) (pd : PredNo) (pq : PredNo) (a : Opd) (imm : BitVec 16) (cc : BitVec 3) (uns : Bool) (w64 : Bool)
  /-- FCMP (R150). -/
  | fcmp (q : Ctl) (pd : PredNo) (pq : PredNo) (a : Opd) (b : Opd) (cc : BitVec 3)
  /-- HCMP2 (R150). -/
  | hcmp2 (q : Ctl) (plo : PredNo) (phi : PredNo) (a : Opd) (b : Opd) (cc : BitVec 3) (bf : Bool)
  /-- PLOP3 (R151). -/
  | plop3 (q : Ctl) (pd : PredNo) (pq : PredNo) (pa : PredNo) (pb : PredNo) (pc : PredNo) (lut : Byte)
  /-- SEL (R152). -/
  | sel (q : Ctl) (d : Opd) (a : Opd) (b : Opd) (ps : PredNo) (ns : Bool) (wide : Bool)
  /-- PTOG (R153). -/
  | ptog (q : Ctl) (d : Opd)
  /-- GTOP (R153). -/
  | gtop (q : Ctl) (a : Opd) (b : Opd)
  /-- FADD (R154). -/
  | fadd (q : Ctl) (d : Opd) (a : Opd) (b : Opd) (rm : Rm) (na : Bool) (nb : Bool) (sat : Bool)
  /-- FSUB (R154). -/
  | fsub (q : Ctl) (d : Opd) (a : Opd) (b : Opd) (rm : Rm) (na : Bool) (nb : Bool) (sat : Bool)
  /-- FMUL (R154). -/
  | fmul (q : Ctl) (d : Opd) (a : Opd) (b : Opd) (rm : Rm) (na : Bool) (nb : Bool) (sat : Bool)
  /-- FFMA (R154). -/
  | ffma (q : Ctl) (d : Opd) (a : Opd) (b : Opd) (c : Opd) (rm : Rm) (np : Bool) (nc : Bool) (sat : Bool)
  /-- FMIN (R155). -/
  | fmin (q : Ctl) (d : Opd) (a : Opd) (b : Opd)
  /-- FMAX (R155). -/
  | fmax (q : Ctl) (d : Opd) (a : Opd) (b : Opd)
  /-- FCLASS (R156). -/
  | fclass (q : Ctl) (d : Opd) (a : Opd) (fmt : BitVec 2)
  /-- FSCALE (R157). -/
  | fscale (q : Ctl) (d : Opd) (a : Opd) (b : Opd) (rm : Rm)
  /-- FRND (R157). -/
  | frnd (q : Ctl) (d : Opd) (a : Opd) (rm : Rm) (exact : Bool)
  /-- F2I (R158). -/
  | f2i (q : Ctl) (d : Opd) (a : Opd) (rm : Rm) (ty : BitVec 2)
  /-- I2F (R158). -/
  | i2f (q : Ctl) (d : Opd) (a : Opd) (rm : Rm) (ty : BitVec 2)
  /-- HADD2 (R159). -/
  | hadd2 (q : Ctl) (d : Opd) (a : Opd) (b : Opd) (rm : Rm) (bf : Bool) (nb : Bool)
  /-- HMUL2 (R159). -/
  | hmul2 (q : Ctl) (d : Opd) (a : Opd) (b : Opd) (rm : Rm) (bf : Bool) (nb : Bool)
  /-- HFMA2 (R159). -/
  | hfma2 (q : Ctl) (d : Opd) (a : Opd) (b : Opd) (c : Opd) (rm : Rm) (bf : Bool) (nb : Bool) (nc : Bool)
  /-- HMIN2 (R159). -/
  | hmin2 (q : Ctl) (d : Opd) (a : Opd) (b : Opd) (bf : Bool)
  /-- HMAX2 (R159). -/
  | hmax2 (q : Ctl) (d : Opd) (a : Opd) (b : Opd) (bf : Bool)
  /-- HDOT2 (R160). -/
  | hdot2 (q : Ctl) (d : Opd) (a : Opd) (b : Opd) (c : Opd) (rm : Rm) (bf : Bool)
  /-- CVT (R161). -/
  | cvt (q : Ctl) (d : Opd) (a : Opd) (srcF : BitVec 2) (dstF : BitVec 2) (rm : Rm) (elt : BitVec 2)
  /-- CVTPK (R162). -/
  | cvtpk (q : Ctl) (d : Opd) (a : Opd) (b : Opd) (rm : Rm) (bf : Bool)
  /-- CVTX4 (R163). -/
  | cvtx4 (q : Ctl) (d : Opd) (a : Opd) (narrow : Bool) (i8 : Bool) (bf : Bool)
  /-- QDT (R164). -/
  | qdt (q : Ctl) (d : Opd) (a : Opd) (b : Opd) (c : Opd) (dt6 : Bool)
  /-- DQDT (R165). -/
  | dqdt (q : Ctl) (d : Opd) (a : Opd) (b : Opd) (dt6 : Bool) (bf : Bool) (rm : Rm)
  /-- RCP (R166). -/
  | rcp (q : Ctl) (d : Opd) (a : Opd)
  /-- RSQ (R166). -/
  | rsq (q : Ctl) (d : Opd) (a : Opd)
  /-- SQRT (R166). -/
  | sqrt (q : Ctl) (d : Opd) (a : Opd)
  /-- EX2 (R166). -/
  | ex2 (q : Ctl) (d : Opd) (a : Opd)
  /-- LG2 (R166). -/
  | lg2 (q : Ctl) (d : Opd) (a : Opd)
  /-- SINT (R166). -/
  | sint (q : Ctl) (d : Opd) (a : Opd)
  /-- COST (R166). -/
  | cost (q : Ctl) (d : Opd) (a : Opd)
  /-- PHADD (R168). -/
  | phadd (q : Ctl) (d : Opd) (a : Opd) (b : Opd) (pk : Bool)
  /-- PHSUB (R168). -/
  | phsub (q : Ctl) (d : Opd) (a : Opd) (b : Opd) (pk : Bool)
  /-- PHCMP (R169). -/
  | phcmp (q : Ctl) (pp : PredNo) (po : PredNo) (a : Opd) (b : Opd)
  /-- PHFROM (R170). -/
  | phfrom (q : Ctl) (d : Opd) (a : Opd) (rm : Rm)
  /-- PHSC (R171). -/
  | phsc (q : Ctl) (d : Opd) (a : Opd)
  /-- PHCOH (R172). -/
  | phcoh (q : Ctl) (d : Opd) (a : Opd) (b : Opd) (c : Opd)
  /-- BRA (R116). -/
  | bra (q : Ctl) (imm : BitVec 24)
  /-- BRX (R116). -/
  | brx (q : Ctl) (a : Opd)
  /-- CALL (R116). -/
  | call (q : Ctl) (d : Opd) (imm : BitVec 24)
  /-- CALLX (R116). -/
  | callx (q : Ctl) (d : Opd) (a : Opd)
  /-- RET (R116). -/
  | ret (q : Ctl) (a : Opd)
  /-- EXIT (R117). -/
  | exit (q : Ctl)
  /-- SPAWN (R120). -/
  | spawn (q : Ctl) (a : Opd) (b : Opd) (c : Opd) (npay : BitVec 4)
  /-- WCONV (R130). -/
  | wconv (q : Ctl)
  /-- YIELD (R119). -/
  | yield (q : Ctl) (dly : Byte)
  /-- SHFL (R126). -/
  | shfl (q : Ctl) (d : Opd) (a : Opd) (b : Opd) (c : Opd) (mode : BitVec 2) (pv : PredNo)
  /-- VOTE (R127). -/
  | vote (q : Ctl) (d : Opd) (ps : PredNo) (ns : Bool) (mode : BitVec 3)
  /-- WRED (R128). -/
  | wred (q : Ctl) (d : Opd) (a : Opd) (fn : BitVec 4)
  /-- WSCAN (R128). -/
  | wscan (q : Ctl) (d : Opd) (a : Opd) (fn : BitVec 4) (excl : Bool)
  /-- MATCH (R129). -/
  | wmatch (q : Ctl) (d : Opd) (a : Opd) (wide : Bool) (mode : BitVec 2)
  /-- WLIVE (R131). -/
  | wlive (q : Ctl) (d : Opd)
  /-- LD (R208). -/
  | ld (q : Ctl) (d : Opd) (a : Opd) (imm : BitVec 16) (sz : BitVec 3) (lease : BitVec 2) (acq : Bool)
  /-- ST (R209). -/
  | st (q : Ctl) (d : Opd) (a : Opd) (imm : BitVec 16) (sz : BitVec 3) (rel : Bool)
  /-- LDX (R208). -/
  | ldx (q : Ctl) (d : Opd) (a : Opd) (b : Opd) (sz : BitVec 3) (lease : BitVec 2) (acq : Bool) (sc : Bool)
  /-- STX (R209). -/
  | stx (q : Ctl) (d : Opd) (a : Opd) (b : Opd) (sz : BitVec 3) (rel : Bool) (sc : Bool)
  /-- LDS (R210). -/
  | lds (q : Ctl) (d : Opd) (a : Opd) (imm : BitVec 16) (sz : BitVec 3) (tag : BitVec 2) (tt : Bool)
  /-- STS (R210). -/
  | sts (q : Ctl) (d : Opd) (a : Opd) (imm : BitVec 16) (sz : BitVec 3) (tag : BitVec 2) (tt : Bool)
  /-- PFL (R212). -/
  | pfl (q : Ctl) (a : Opd) (imm : BitVec 16) (lease : BitVec 2) (lvl : Bool)
  /-- ATOM (R214). -/
  | atom (q : Ctl) (d : Opd) (a : Opd) (b : Opd) (fn : BitVec 4) (w64 : Bool) (ord : BitVec 2)
  /-- ACAS (R214). -/
  | acas (q : Ctl) (d : Opd) (a : Opd) (b : Opd) (c : Opd) (w64 : Bool) (ord : BitVec 2)
  /-- RED (R215). -/
  | red (q : Ctl) (a : Opd) (b : Opd) (fn : BitVec 4) (w64 : Bool) (ordered : Bool) (scope : BitVec 2)
  /-- FENCE (R216). -/
  | fence (q : Ctl) (kind : BitVec 2) (scope : BitVec 2)
  /-- CWB (R217). -/
  | cwb (q : Ctl) (a : Opd) (b : Opd) (all : Bool)
  /-- CINV (R217). -/
  | cinv (q : Ctl) (a : Opd) (b : Opd) (all : Bool)
  /-- TAGSET (R228). -/
  | tagset (q : Ctl) (a : Opd) (b : Opd) (full : Bool)
  /-- TAGRD (R229). -/
  | tagrd (q : Ctl) (d : Opd) (a : Opd)
  /-- AWINIT (R231). -/
  | awinit (q : Ctl) (a : Opd) (b : Opd) (clr : Bool)
  /-- AWADD (R232). -/
  | awadd (q : Ctl) (a : Opd) (b : Opd)
  /-- AWAIT (R233). -/
  | await (q : Ctl) (d : Opd) (a : Opd) (b : Opd)
  /-- CPY (R239). -/
  | cpy (q : Ctl) (d : Opd) (a : Opd) (b : Opd) (c : Opd) (dir : BitVec 2)
  /-- CPYN (R239). -/
  | cpyn (q : Ctl) (d : Opd) (a : Opd) (b : Opd) (c : Opd) (dir : BitVec 2)
  /-- CPYX (R239). -/
  | cpyx (q : Ctl) (d : Opd) (a : Opd) (b : Opd) (c : Opd) (sp : Bool)
  /-- CPYP (R239). -/
  | cpyp (q : Ctl) (d : Opd) (a : Opd) (b : Opd) (c : Opd) (sp : Bool)
  /-- GATH (R240). -/
  | gath (q : Ctl) (d : Opd) (a : Opd) (b : Opd) (c : Opd) (esz : BitVec 3)
  /-- SCAT (R240). -/
  | scat (q : Ctl) (d : Opd) (a : Opd) (b : Opd) (c : Opd) (esz : BitVec 3)
  /-- CVSIGN (R245). -/
  | cvsign (q : Ctl) (d : Opd) (a : Opd) (cv : BitVec 4) (wait : Bool)
  /-- CVWAIT (R246). -/
  | cvwait (q : Ctl) (a : Opd) (cv : BitVec 4)
  /-- CVRST (R247). -/
  | cvrst (q : Ctl) (cv : BitVec 4)
  /-- WAITC (R250). -/
  | waitc (q : Ctl) (cp : BitVec 4) (mx : BitVec 4) (qu : BitVec 4) (gs : BitVec 4)
  /-- MWAIT (R252). -/
  | mwait (q : Ctl) (a : Opd) (b : Opd) (c : Opd) (w64 : Bool) (acq : Bool)
  /-- PARK (R253). -/
  | park (q : Ctl) (a : Opd)
  /-- THAL (R266). -/
  | thal (q : Ctl) (d : Opd) (a : Opd) (b : Opd) (sf : Bool) (ps : PredNo)
  /-- THREL (R267). -/
  | threl (q : Ctl) (a : Opd)
  /-- THGIVE (R268). -/
  | thgive (q : Ctl) (a : Opd) (b : Opd)
  /-- THINFO (R269). -/
  | thinfo (q : Ctl) (d : Opd) (a : Opd)
  /-- CPYT (R270). -/
  | cpyt (q : Ctl) (d : Opd) (a : Opd) (b : Opd) (sp : Bool)
  /-- THST (R270). -/
  | thst (q : Ctl) (d : Opd) (a : Opd) (b : Opd) (sp : Bool)
  /-- ACCZ (R272). -/
  | accz (q : Ctl) (a : Opd) (b : Opd)
  /-- ACCLD (R273). -/
  | accld (q : Ctl) (d : Opd) (a : Opd) (b : Opd) (c : Opd) (sp : Bool)
  /-- ACCST (R273). -/
  | accst (q : Ctl) (d : Opd) (a : Opd) (b : Opd) (c : Opd) (sp : Bool) (clr : Bool)
  /-- ACCRD (R274). -/
  | accrd (q : Ctl) (d : Opd) (a : Opd) (n : BitVec 2)
  /-- MMA (R286). -/
  | mma (q : Ctl) (cv : BitVec 4) (a : Opd) (b : Opd) (c : Opd) (af : Bool)
  /-- MMAL (R288). -/
  | mmal (q : Ctl) (cv : BitVec 4) (a : Opd) (b : Opd) (c : Opd) (af : Bool) (ks : BitVec 2)
  /-- PHMMA (R289). -/
  | phmma (q : Ctl) (cv : BitVec 4) (a : Opd) (b : Opd) (c : Opd) (conj : Bool)
  /-- PHFIN (R290). -/
  | phfin (q : Ctl) (d : Opd) (a : Opd) (b : Opd) (c : Opd) (clr : Bool)
  /-- QNT (R291). -/
  | qnt (q : Ctl) (d : Opd) (a : Opd) (b : Opd) (c : Opd) (fmt : BitVec 2) (bl : BitVec 2) (ci : Bool) (clr : Bool)
  /-- QOPEN (R344). -/
  | qopen (q : Ctl) (d : Opd) (a : Opd) (sf : Bool) (ps : PredNo)
  /-- QRSV (R345). -/
  | qrsv (q : Ctl) (d : Opd) (a : Opd) (b : Opd) (sf : Bool) (ps : PredNo)
  /-- QPUT (R346). -/
  | qput (q : Ctl) (d : Opd) (a : Opd) (b : Opd) (rel : Bool) (len : BitVec 2) (sf : Bool) (ps : PredNo)
  /-- QPUTS (R347). -/
  | qputs (q : Ctl) (d : Opd) (a : Opd) (b : Opd) (c : Opd) (rel : Bool) (sf : Bool) (ps : PredNo)
  /-- QTAKE (R348). -/
  | qtake (q : Ctl) (d : Opd) (a : Opd) (acq : Bool) (len : BitVec 2) (sf : Bool) (ps : PredNo)
  /-- QTAKES (R349). -/
  | qtakes (q : Ctl) (d : Opd) (a : Opd) (b : Opd) (c : Opd) (acq : Bool) (sf : Bool) (ps : PredNo)
  /-- QPEEK (R350). -/
  | qpeek (q : Ctl) (d : Opd) (a : Opd) (sf : Bool) (ps : PredNo)
  /-- QWAIT (R351). -/
  | qwait (q : Ctl) (a : Opd) (sf : Bool) (ps : PredNo)
  /-- QRESET (R352). -/
  | qreset (q : Ctl) (a : Opd) (sf : Bool) (ps : PredNo)
  /-- QCLOSE (R354). -/
  | qclose (q : Ctl) (a : Opd) (sf : Bool) (ps : PredNo)
  /-- LAUNCH (R328). -/
  | launch (q : Ctl) (a : Opd) (b : Opd) (sf : Bool) (ps : PredNo)
  /-- SIGNAL (R329). -/
  | signal (q : Ctl) (a : Opd) (b : Opd) (fn : BitVec 2) (w64 : Bool) (sf : Bool) (ps : PredNo)
  /-- TRAP (R371). -/
  | trap (q : Ctl) (code : Byte)
  /-- RTH (R370). -/
  | rth (q : Ctl)
  /-- SREAD (R380). -/
  | sread (q : Ctl) (d : Opd) (reg : Byte)
  /-- SWRITE (R380). -/
  | swrite (q : Ctl) (reg : Byte) (a : Opd)
  /-- YIELDPT (R377). -/
  | yieldpt (q : Ctl) (map : BitVec 10)
  /-- BKPT (R371). -/
  | bkpt (q : Ctl) (code : Byte)
  /-- ECALL (R381). -/
  | ecall (q : Ctl) (d : Opd) (a : Opd) (svc : Byte)
  /-- ISSUE_GROUP (R112): the issue table forms an issue group of ready threads at one PC and issues the clause; forms an issue group of the named threads of a core, in their physical lane order. -/
  | issueGroup (die : Nat) (core : Nat) (members : List Nat)
  /-- LONG_LATENCY_WRITEBACK (R79): a long-latency producer's result arrives, is written and marks the destination full; the producer whose result arrives. -/
  | longLatencyWriteback (prod : Nat)
  /-- YIELD_DELAY_END (R119): a yielding thread becomes eligible when its delay expires. -/
  | yieldDelayEnd (thread : Nat)
  /-- CONVSTALL (R132): the warp-point watchdog reaches 2^20 clk and raises CONVSTALL on the arrived members. -/
  | convstall (warp : Nat)
  /-- WAYSTATION_TIMER (R122): a waystation's timer expires and it launches a partial warp. -/
  | waystationTimer (die : Nat) (core : Nat) (slot : Nat)
  /-- WAYSTATION_LAUNCH (R122): a waystation launches a warp into the lowest lane set with free slots. -/
  | waystationLaunch (die : Nat) (core : Nat) (slot : Nat)
  /-- WARP_RETIRE (R118): a warp with an empty roster and zero counters retires and frees its slots. -/
  | warpRetire (warp : Nat)
  /-- TLB_WALK (R178): a walker translates a missed address and sets ACCESSED and DIRTY. -/
  | tlbWalk (walk : Nat)
  /-- H_LOAD_MISS (R195): home recalls partials, reads the sector and grants a lease. -/
  | hLoadMiss (req : Nat)
  /-- H_WRITE_ACCEPT (R196): home accepts an H write and sets its write completion time W. -/
  | hWriteAccept (req : Nat)
  /-- H_WRITE_PERFORM (R196): a pending H write is performed when die time reaches W. -/
  | hWritePerform (wr : Nat)
  /-- RECALL_ANSWER (R203): a holder's recall answer arrives at home, which performs the access once all have answered. -/
  | recallAnswer (die : Nat) (line : Nat) (core : Nat)
  /-- PARTIAL_COMBINE (R203): home combines a pushed partial into the line. -/
  | partialCombine (push : Nat)
  /-- PARTIAL_PUSH_DEADLINE (R215): a die-scope partial is pushed home 1,024 clk after it opened. -/
  | partialPushDeadline (die : Nat) (core : Nat) (line : Nat)
  /-- NEAR_CACHE_EVICT (R199): a near cache evicts a sector, writing back dirty bytes or pushing a partial. -/
  | nearCacheEvict (die : Nat) (core : Nat) (sector : Nat)
  /-- WRITE_BACK_ACCEPT (R192): home accepts written-back dirty S or P bytes. -/
  | writeBackAccept (wb : Nat)
  /-- ENGINE_START (R234): the copy engine starts the next operation in issue order. -/
  | engineStart (die : Nat) (core : Nat)
  /-- ENGINE_CHUNK (R235): a transfer chunk's bytes are performed and its arrival made. -/
  | engineChunk (op : Nat) (transfer : Nat) (block : Nat)
  /-- ENGINE_COMPLETE (R84): an engine operation completes and reports on its counter in issue order. -/
  | engineComplete (op : Nat)
  /-- MATRIX_START (R284): the engine starts the head queued matrix operation while the cluster holds a token. -/
  | matrixStart (die : Nat) (core : Nat)
  /-- MATRIX_COMPLETE (R284): a matrix operation writes its last result, reports MX and ORs flags. -/
  | matrixComplete (die : Nat) (core : Nat)
  /-- TOKEN_CAPTURE (R293): a waiting cluster captures a free token that reaches it. -/
  | tokenCapture (die : Nat) (cluster : Nat)
  /-- TOKEN_RELEASE (R294): a cluster releases its token after 64 idle clk. -/
  | tokenRelease (die : Nat) (cluster : Nat)
  /-- TOKEN_FORCED_RELEASE (R294): a cluster holding a token 65,536 clk while others wait releases it. -/
  | tokenForcedRelease (die : Nat) (cluster : Nat)
  /-- GROUP_PLACE (R301): the die scheduler places the next pending group on a core and makes it resident; the place of the allocation is the device's choice. -/
  | groupPlace (die : Nat) (core : Nat) (spadBase : Nat) (accBase : Nat)
  /-- PARKING (R304): an eligible group writes its watch records, saves its state and returns its resources. -/
  | parking (group : Nat)
  /-- PARK_SAVE_DONE (R304): the save of a parking group finishes and the group becomes PARKED. -/
  | parkSaveDone (group : Nat)
  /-- WATCH_TIMER_FIRE (R256): die time reaches a TIMER watch's deadline and the group becomes WAKING. -/
  | watchTimerFire (watch : Nat)
  /-- MWAIT_TIMEOUT (R252): an MWAIT's timeout expires and the wait ends. -/
  | mwaitTimeout (thread : Nat)
  /-- PARK_DELAY_END (R253): a PARK's delay expires while the group is resident and it ends without parking. -/
  | parkDelayEnd (thread : Nat)
  /-- RELAUNCH (R306): the die scheduler relaunches the head of the relaunch queue on its core. -/
  | relaunch (die : Nat) (spadBase : Nat) (accBase : Nat)
  /-- GROUP_RETIRE (R307): a group with no warps and no continuations retires after its writes are performed. -/
  | groupRetire (group : Nat)
  /-- CSIG_INCREMENT (R321): the hub increments the completion signal once the lead has every report. -/
  | csigIncrement (launch : Nat)
  /-- IRQ_TIMER (R322): the completion interrupt timer reaches IRQT plus 1 µs and sends an MSI-X message. -/
  | irqTimer (lq : Nat)
  /-- LINE_MONITOR_PARSE (R310): the line monitor reads a window line carrying E and enqueues it as a record. -/
  | lineMonitorParse (lq : Nat)
  /-- DELTA_LAUNCH (R316): writes shadow registers and, without HOLD, checks and creates a launch. -/
  | deltaLaunch (lq : Nat)
  /-- FENCE_RECORD (R323): holds the queue until every entry's signal word reaches its threshold. -/
  | fenceRecord (lq : Nat)
  /-- FENCE_RECORD_MET (R323): an update of a signal word meets the waiting FENCE record and the queue goes on. -/
  | fenceRecordMet (lq : Nat)
  /-- SIGNAL_WRITE (R324): applies add, set or max to a signal word. -/
  | signalWrite (lq : Nat)
  /-- QUEUE_PRIORITY (R325): changes the priority of the queue's accepted and active launches. -/
  | queuePriority (lq : Nat)
  /-- NOP_RECORD (R325): a NOP record changes nothing. -/
  | nopRecord (lq : Nat)
  /-- PAGE_MODE (R185): a change-mode record locks the range's leaves and shoots down the TLBs on each named die. -/
  | pageMode (lq : Nat)
  /-- PAGE_INVALIDATE (R185): an invalidate-only record shoots down, drains and takes coherence action without lock or flip. -/
  | pageInvalidate (lq : Nat)
  /-- PAGE_MODE_DRAIN_END (R185): the drain ends and the coherence action for the old mode runs. -/
  | pageModeDrainEnd (lq : Nat) (vdie : Nat)
  /-- PAGE_MODE_RELEASE (R185): after the coherence action, home flips MODE and OWNER, wakes waiters and reports release. -/
  | pageModeRelease (lq : Nat) (vdie : Nat)
  /-- PAGE_MODE_SIGNAL (R185): the hub increments SIGADDR once every named die has released. -/
  | pageModeSignal (lq : Nat)
  /-- HOSTCOPY (R326): the hub checks and moves bytes between host and die memory; moves count bytes from offset start, in the hub's order. -/
  | hostcopy (lq : Nat) (start : Nat) (count : Nat) (hostError : Bool)
  /-- HOSTCOPY_END (R326): a HOSTCOPY completes or stops, and the queue takes its next record. -/
  | hostcopyEnd (lq : Nat)
  /-- QUEUE_STEAL (R331): an idle die scheduler takes a whole launch queue from a neighbour. -/
  | queueSteal (thief : Nat) (lq : Nat)
  /-- HOME_OPEN (R344): home's arbiter checks a QOPEN request and answers the attributes. -/
  | homeOpen (home : Nat) (src : Nat)
  /-- HOME_RESERVE (R345): home's arbiter grants n tickets or answers FULL or VOID. -/
  | homeReserve (home : Nat) (src : Nat)
  /-- HOME_FILL (R346): home writes an element into a reserved ticket and serves a pending take or waiter. -/
  | homeFill (home : Nat) (src : Nat)
  /-- HOME_TAKE (R348): home takes the head element, consumes a VOID ticket, or leaves the take pending. -/
  | homeTake (home : Nat) (src : Nat)
  /-- HOME_PEEK (R350): home answers the queue's occupancy. -/
  | homePeek (home : Nat) (src : Nat)
  /-- HOME_WAIT (R351): home answers a QWAIT at once or enters it in the waiter list. -/
  | homeWait (home : Nat) (src : Nat)
  /-- HOME_RESET (R352): home discards the queue's tickets, answers waiters and returns it to ACTIVE. -/
  | homeReset (home : Nat) (src : Nat)
  /-- HOME_CLOSE (R354): home sets the queue CLOSED. -/
  | homeClose (home : Nat) (src : Nat)
  /-- QUEUE_ANSWER (R342): home's answer reaches the issuing port and writes status, predicate and destination. -/
  | queueAnswer (ans : Nat)
  /-- DIE_RESET_ANNOUNCE (R358): a home voids the reset die's reserved tickets and drops its pending takes. -/
  | dieResetAnnounce (home : Nat) (die : Nat)
  /-- SIGNAL_APPLY (R327): the hub's signal arbiter applies an update to a signal word. -/
  | signalApply (vf : Nat) (die : Nat)
  /-- ECALL_SERVE (R381): the function core answers an ECALL request from its call queue; host is the host's answer to services 0x80 to 0xFF. -/
  | ecallServe (vf : Nat) (die : Nat) (host : W64)
  /-- ECALL_ANSWER (R381): an ECALL answer returns, writes D and releases the thread. -/
  | ecallAnswer (ans : Nat)
  /-- HALT_LINE_ARRIVAL (R372): the halt line reaches a die, stopping issue and finishing or abandoning engine work; finish names the started operations that the engine completes. -/
  | haltLineArrival (ctx : Nat) (vdie : Nat) (finish : List Nat)
  /-- STOP_RECORDS (R374): a die writes its stop records and reports to the hub. -/
  | stopRecords (ctx : Nat) (vdie : Nat)
  /-- PREEMPTION_REQUEST (R377): the root core raises a pre-emption request and sets the cores' pre-emption flags. -/
  | preemptionRequest (ctx : Nat)
  /-- PREEMPTION_DEADLINE (R377): the pre-emption deadline expires and the hub raises the halt line. -/
  | preemptionDeadline (ctx : Nat)
  /-- GROUP_SAVE_BY_MAPS (R378): a group stopped at YIELDPTs is saved into its launch's save area. -/
  | groupSaveByMaps (group : Nat)
  /-- SLICE_END (R330): a virtual function's slice ends and the root core raises pre-emption requests. -/
  | sliceEnd (vf : Nat)
  /-- DATA_FLIT (R387): a receiver takes a DATA flit, accepting it in order or discarding it. -/
  | dataFlit (link : Nat) (bytes : List Byte)
  /-- NAK (R387): a transmitter receives a NAK and goes back to the named SEQ. -/
  | nak (link : Nat) (bytes : List Byte)
  /-- REPLAY_TIMEOUT (R387): 8 µs pass with no ACK advance and the transmitter resends. -/
  | replayTimeout (link : Nat)
  /-- NAK_HOLDOFF_END (R387): 4 µs pass and the receiver may send another NAK. -/
  | nakHoldoffEnd (link : Nat)
  /-- CONTROL_FLIT_REPEAT (R387): an unanswered LOSS, RETRAIN or LPR flit is repeated every 2 µs. -/
  | controlFlitRepeat (link : Nat)
  /-- IDLE (R384): a receiver takes an IDLE flit. -/
  | idle (link : Nat) (bytes : List Byte)
  /-- MARKER (R386): a receiver finds a MARKER and adopts the new lane map. -/
  | marker (link : Nat) (bytes : List Byte)
  /-- STOMPED_FLIT (R393): a receiver accepts a stomped flit's SEQ and drops its packet bytes. -/
  | stompedFlit (link : Nat) (bytes : List Byte)
  /-- RESERVED_FLIT (R384): a flit with reserved TYPE or bits is discarded and recorded. -/
  | reservedFlit (link : Nat) (bytes : List Byte)
  /-- HEADER_CHECK_FAIL (R393): the crossbar stomps a forwarded packet whose header check fails. -/
  | headerCheckFail (ingress : Nat) (egress : Nat) (bytes : List Byte)
  /-- LOSS_OF_LIGHT (R389): a receiver detects loss of light, marks the wavelength dark and sends LOSS. -/
  | lossOfLight (link : Nat) (mask : BitVec 16)
  /-- LOSS (R389): a transmitter receives LOSS, removes dark wavelengths and resends. -/
  | loss (link : Nat) (bytes : List Byte)
  /-- ERROR_RATE_THRESHOLD (R390): a wavelength's error-rate window exceeds the threshold and RETRAIN out is sent; rate is the counted error rate, in errors per 2^32 bits. -/
  | errorRateThreshold (link : Nat) (wave : Nat) (rate : Nat)
  /-- RETRAIN (R390): a transmitter receives RETRAIN out or ready and removes or prepares to return a wavelength. -/
  | retrain (link : Nat) (bytes : List Byte)
  /-- RETRAIN_TIMEOUT (R390): a wavelength not trained within 50 ms stays out. -/
  | retrainTimeout (link : Nat)
  /-- LPR (R392): an LPR flit is taken and compared, agreeing or counting a mismatch. -/
  | lpr (link : Nat) (bytes : List Byte)
  /-- TRAINING_TIMEOUT (R388): 100 ms in TRAINING without agreement makes the link FAILED. -/
  | trainingTimeout (link : Nat)
  /-- LINK_ENABLE (R388): firmware enables a DOWN link or retrains a FAILED one. -/
  | linkEnable (link : Nat)
  /-- LINK_DISABLE (R388): firmware disables a link, which goes DOWN. -/
  | linkDisable (link : Nat)
  /-- SAMPLE_INTERVAL (R396): a sampling interval ends and one slot issue is chosen and recorded; lat gives the measured FETCH, ISSUE, COLLECT, EXEC, WB and LEVEL. -/
  | sampleInterval (die : Nat) (ctx : Nat) (pick : Nat) (lanePick : Nat) (lat : List Nat)
  /-- MARGIN_PLAN (R403): firmware applies a margin plan with new clock, voltage and allotment; budget gives the fixed budget lines in W. -/
  | marginPlan (unit : Nat) (reason : Nat) (fnew : Nat) (vnew : Nat) (budget : List Nat)
  /-- THERMAL_TRIP (R411): a die's temperature monitors exceed the trip point and its clock is lowered. -/
  | thermalTrip (die : Nat) (fnew : Nat) (vnew : Nat)
  /-- DIE_RESET (R408): a core die is reset, halting its contexts and freeing its queues. -/
  | dieReset (die : Nat)
  /-- POWER_ON (R409): power-on or package reset enters ROMCHECK and verifies the firmware image; harvest and spares are what firmware finds at boot. -/
  | powerOn (tests : List (List Byte)) (spares : List Byte)
  /-- HOST_WINDOW_WRITE (R405): a host write through a CXL port reaches a launch window line. -/
  | hostWindowWrite (lq : Nat) (offset : Nat) (bytes : List Byte)
  /-- HOST_SIGNAL_WRITE (R327): a host 8-byte write updates a signal word. -/
  | hostSignalWrite (vf : Nat) (word : Nat) (value : W64)
  /-- HOST_REGISTER_WRITE (R406): a host write to a register with no row of its own, such as CMD, ARGS, PAYLOAD or ERRSIG. -/
  | hostRegisterWrite (fn : Nat) (offset : Nat) (bytes : List Byte)
  /-- CREATE_CONTEXT (R407): mailbox command 0x01 OP 0 creates a context; dies and cores are the root core's choice of bindings. -/
  | createContext (fn : Nat) (dies : List Nat) (cores : List (Nat × Nat × Nat))
  /-- DESTROY_CONTEXT (R407): mailbox command 0x01 OP 1 destroys a context. -/
  | destroyContext (fn : Nat)
  /-- HALT_REQUEST (R407): mailbox command 0x01 OP 2 requests a halt of a context. -/
  | haltRequest (fn : Nat)
  /-- SAVE_CONTEXT (R378): mailbox command 0x01 OP 3 saves a halted context's groups. -/
  | saveContext (fn : Nat)
  /-- RESUME_CONTEXT (R379): mailbox command 0x01 OP 4 binds dies and cores and restores a context. -/
  | resumeContext (fn : Nat) (dies : List Nat) (cores : List (Nat × Nat × Nat))
  /-- WRITE_PAGE_TABLE_ENTRIES (R407): mailbox command 0x02 writes leaf entries. -/
  | writePageTableEntries (fn : Nat)
  /-- CREATE_QUEUE (R407): mailbox command 0x03 OP 0 creates a queue; slot, bases and incarnation are firmware's choice. -/
  | createQueue (fn : Nat) (slot : Nat) (wbase : Nat) (sbase : Nat) (inc : Nat)
  /-- DELETE_QUEUE (R407): mailbox command 0x03 OP 1 deletes a queue. -/
  | deleteQueue (fn : Nat)
  /-- BIND_QIDS (R407): mailbox command 0x04 binds or rebinds QID entries. -/
  | bindQids (fn : Nat)
  /-- READ_HARVEST_MAP (R407): mailbox command 0x05 returns the harvest map and certificate. -/
  | readHarvestMap (fn : Nat)
  /-- READ_EVENT_RING (R407): mailbox command 0x06 SRC 0 returns event ring records. -/
  | readEventRing (fn : Nat)
  /-- READ_ECALL_LOG (R407): mailbox command 0x06 SRC 1 returns ECALL log entries. -/
  | readEcallLog (fn : Nat)
  /-- READ_SAMPLE_BUFFER (R407): mailbox command 0x06 SRC 2 returns sample records. -/
  | readSampleBuffer (fn : Nat)
  /-- READ_ENERGY_BANKS (R401): mailbox command 0x06 SRC 3 returns or clears a unit's energy banks. -/
  | readEnergyBanks (fn : Nat)
  /-- ATTEST (R410): mailbox command 0x07 returns a signed attestation record. -/
  | attest (fn : Nat)
  /-- WRITE_FIRMWARE_IMAGE (R409): mailbox command 0x08 writes a firmware image chunk. -/
  | writeFirmwareImage (fn : Nat)
  /-- SET_POWER_LIMIT (R411): mailbox command 0x09 sets the package power limit. -/
  | setPowerLimit (fn : Nat)
  /-- FREEZE (R402): mailbox command 0x0A stops every clock of the package. -/
  | freeze (fn : Nat)
  /-- RESET_CORE_DIE (R408): mailbox command 0x0B resets a physical core die. -/
  | resetCoreDie (fn : Nat)
  /-- SPURIOUS_WAKEUP (R110): a BLOCKED thread becomes READY at the same PC without its condition holding, and reissues its slot. -/
  | spuriousWakeup (thread : Nat)
  /-- LIGHT_RESTORED (R389): firmware reports that light has returned on a dark wavelength, which starts its hand-back under R392. -/
  | lightRestored (link : Nat) (mask : BitVec 16)
  /-- TRAINING_END (R392): training or retraining of a link or wavelength finishes, and the ends exchange their proposed and trained link-parameter records; trained is the record the receiver trained. -/
  | trainingEnd (link : Nat) (trained : List Byte)
  /-- RESERVED_TYPE_RECORD (R313): the scheduler takes a record of reserved TYPE 0x0 or 0x8 to 0xF and refuses it with REASON 1. -/
  | reservedTypeRecord (lq : Nat)
  /-- UNASSIGNED_COMMAND (R406): a doorbell write with an unassigned command code ends the command REFUSED. -/
  | unassignedCommand (fn : Nat)
  deriving DecidableEq, Repr

end Sys2Proof
end

