-- ==== Sys2Proof/Machine/Numbers.lean ====
section
/-! DEFINITION. The number formats of the H8 and their exact arithmetic (R35 to R65): IEEE formats with one
rounding, HF8, INT8, DT8, DT6, E8 scales, PH16 tables and phasor sums, and the correctly rounded special functions
(R166). Every value is an exact dyadic number until the one rounding step that its rule names. -/

namespace Sys2Proof.Machine

/-- FPSTAT flags (R40). -/
abbrev Flags := BitVec 5
def flagNV : Flags := 1
def flagDZ : Flags := 2
def flagOF : Flags := 4
def flagUF : Flags := 8
def flagNX : Flags := 16

/-- A code together with the flags that making it raised. -/
structure Coded (n : Nat) where
  code  : BitVec n
  flags : Flags
  deriving DecidableEq, Repr

/-- An exact value: a NaN (`sig`: the operation that yields it is invalid), an infinity, or ±mag × 2^e. -/
inductive FVal where
  | nan (sig : Bool)
  | inf (neg : Bool)
  | fin (neg : Bool) (mag : Nat) (e : Int)
  deriving DecidableEq, Repr

/-- An IEEE format (R37): exponent and fraction widths. -/
structure FFmt where
  eb : Nat
  fb : Nat
  deriving DecidableEq, Repr

def f32 : FFmt := ⟨8, 23⟩
def f16 : FFmt := ⟨5, 10⟩
def bf16 : FFmt := ⟨8, 7⟩
/-- The 16-bit format that an FMT bit selects (R159). -/
def half16 (bf : Bool) : FFmt := if bf then bf16 else f16

namespace FFmt
def width (f : FFmt) : Nat := 1 + f.eb + f.fb
def bias (f : FFmt) : Int := 2 ^ (f.eb - 1) - 1
/-- The exponent of the smallest normal value. -/
def emin (f : FFmt) : Int := 1 - f.bias
/-- The canonical quiet NaN (R37). -/
def canon (f : FFmt) : Nat := (2 ^ f.eb - 1) * 2 ^ f.fb + 2 ^ (f.fb - 1)
def infCode (f : FFmt) : Nat := (2 ^ f.eb - 1) * 2 ^ f.fb
def signBit (f : FFmt) : Nat := 2 ^ (f.eb + f.fb)
end FFmt

/-- The value that a code denotes (R37). A signalling NaN has the top fraction bit clear. -/
def fval (f : FFmt) (c : Nat) : FVal :=
  let fr := c % 2 ^ f.fb
  let ex := c / 2 ^ f.fb % 2 ^ f.eb
  let neg := decide (c / f.signBit % 2 = 1)
  if ex = 2 ^ f.eb - 1 then
    if fr = 0 then .inf neg else .nan (decide (fr < 2 ^ (f.fb - 1)))
  else if ex = 0 then .fin neg fr (f.emin - f.fb)
  else .fin neg (2 ^ f.fb + fr) (ex - f.bias - f.fb)

namespace FVal
/-- Flip the sign (R154). -/
def negate : FVal → FVal
  | nan s => nan s
  | inf n => inf (!n)
  | fin n m e => fin (!n) m e
def negIf (b : Bool) (v : FVal) : FVal := if b then v.negate else v
def isNan : FVal → Bool | nan _ => true | _ => false
/-- The exact product (R39, R60): 0 × ∞ is invalid. -/
def mul : FVal → FVal → FVal
  | nan s, nan t => nan (s || t)
  | nan s, _ => nan s
  | _, nan t => nan t
  | inf a, inf b => inf (a != b)
  | inf a, fin b m _ => if m = 0 then nan true else inf (a != b)
  | fin a m _, inf b => if m = 0 then nan true else inf (a != b)
  | fin a m e, fin b n f => fin (a != b) (m * n) (e + f)
/-- A factor times a zero that a zero block or an absent row makes: a finite factor gives +0 (R39); a NaN or an infinity is
invalid as ever (R60). -/
def byAbsent (a : FVal) : FVal :=
  match a.mul (fin false 0 0) with
  | fin _ _ _ => fin false 0 0
  | v => v
/-- Multiply by a power of two. -/
def scale (k : Int) : FVal → FVal
  | fin n m e => fin n m (e + k)
  | v => v
/-- An integer as a value. -/
def ofInt (i : Int) : FVal := fin (decide (i < 0)) i.natAbs 0
end FVal

/-- Magnitude × 2^e as an integer multiple of 2^q, rounded; `sticky` says that the value lies strictly between `mag`
and `mag + 1`. Gives the multiple and whether it is inexact (R38). -/
def roundInt (rm : Rm) (neg : Bool) (mag : Nat) (e q : Int) (sticky : Bool) : Nat × Bool :=
  if q ≤ e then (mag * 2 ^ (e - q).toNat, sticky)
  else
    let s := (q - e).toNat
    let i := mag / 2 ^ s
    let r := mag % 2 ^ s
    let inexact := sticky || decide (r ≠ 0)
    let up := match rm with
      | .rtz => false
      | .rup => inexact && !neg
      | .rdn => inexact && neg
      | .rne => decide (2 ^ s < 2 * r) || (decide (2 * r = 2 ^ s) && (sticky || decide (i % 2 = 1)))
    (if up then i + 1 else i, inexact)

/-- Whether a positive overflow, or a negative one, gives infinity under a mode (R38). -/
def overflowsToInf (rm : Rm) (neg : Bool) : Bool :=
  match rm with
  | .rne => true
  | .rtz => false
  | .rup => !neg
  | .rdn => neg

/-- Round a non-zero magnitude to a format (R38, R39): the code and its flags. -/
def roundMag (f : FFmt) (rm : Rm) (neg : Bool) (mag : Nat) (e : Int) (sticky : Bool) : Nat × Flags :=
  let sg := if neg then f.signBit else 0
  let top : Int := mag.log2 + e
  let q := max (top - f.fb) (f.emin - f.fb)
  let (i, inx) := roundInt rm neg mag e q sticky
  let tiny := decide (top < f.emin) &&
    !(decide (top = f.emin - 1) && decide ((roundInt rm neg mag e (top - f.fb) sticky).1 = 2 ^ (f.fb + 1)))
  let nx : Flags := if inx then flagNX else 0
  let uf : Flags := if tiny && inx then flagUF else 0
  -- biased exponent field of 2^q × 2^fb, joined with the integer: a carry moves into the exponent
  let body := (q + f.fb + f.bias - 1).toNat * 2 ^ f.fb + i
  if f.infCode ≤ body then
    (sg + (if overflowsToInf rm neg then f.infCode else f.infCode - 1), flagOF ||| flagNX)
  else (sg + body, nx ||| uf)

/-- `round_fp` (R41): the code of a format nearest to a value under a mode. -/
def roundFp (f : FFmt) (rm : Rm) (v : FVal) : Nat × Flags :=
  match v with
  | .nan s => (f.canon, if s then flagNV else 0)
  | .inf n => ((if n then f.signBit else 0) + f.infCode, 0)
  | .fin n m e => if m = 0 then ((if n then f.signBit else 0), 0) else roundMag f rm n m e false

/-- The least exponent among the finite terms. -/
def minExp : List FVal → Int
  | [] => 0
  | .fin _ _ e :: t => if t.isEmpty then e else min e (minExp t)
  | _ :: t => minExp t

/-- A finite term as an integer multiple of 2^e. -/
def termAt (e : Int) : FVal → Int
  | .fin n m x => let k : Int := (m * 2 ^ (x - e).toNat : Nat); if n then -k else k
  | _ => 0

/-- The exact sum of terms that is rounded once (R39, R60, R61): the sign of a zero sum is −0 when every term is −0,
+0 when every term is +0, and otherwise +0, or −0 under rdn. -/
def sumExact (rm : Rm) (ts : List FVal) : FVal :=
  if ts.any FVal.isNan then
    .nan (ts.any fun t => match t with | .nan s => s | _ => false)
  else
    let pinf := ts.any (fun t => t == .inf false)
    let ninf := ts.any (fun t => t == .inf true)
    if pinf && ninf then .nan true
    else if pinf then .inf false
    else if ninf then .inf true
    else
      let e := minExp ts
      let s := (ts.map (termAt e)).foldl (· + ·) 0
      if s = 0 then
        let allNeg := ts.all fun t => match t with | .fin n m _ => n && decide (m = 0) | _ => false
        let allPos := ts.all fun t => match t with | .fin n m _ => !n && decide (m = 0) | _ => false
        if allNeg then .fin true 0 0
        else if allPos then .fin false 0 0
        else .fin (decide (rm = .rdn)) 0 0
      else .fin (decide (s < 0)) s.natAbs e

/-- The sum of terms rounded once to F32, as a register word. -/
def sumF32 (rm : Rm) (ts : List FVal) : W32 × Flags :=
  let r := roundFp f32 rm (sumExact rm ts)
  (BitVec.ofNat 32 r.1, r.2)

/-! ## Comparison, minimum and maximum (R41, R150) -/

/-- The order of two finite values or infinities: less, equal or greater. -/
def cmpVal : FVal → FVal → Ordering
  | .inf a, .inf b => if a = b then .eq else if a then .lt else .gt
  | .inf a, _ => if a then .lt else .gt
  | _, .inf b => if b then .gt else .lt
  | .fin a m e, .fin b n f =>
    let x := min e f
    compare (termAt x (.fin a m e)) (termAt x (.fin b n f))
  | _, _ => .eq

def signOf : FVal → Bool
  | .inf n => n
  | .fin n _ _ => n
  | .nan _ => false

/-- minimumNumber or maximumNumber of two codes (R41). -/
def minMaxNum (f : FFmt) (wantMax : Bool) (a b : Nat) : Nat × Flags :=
  let x := fval f a
  let y := fval f b
  let nv : Flags := if x == .nan true || y == .nan true then flagNV else 0
  if x.isNan && y.isNan then (f.canon, nv)
  else if x.isNan then (b, nv)
  else if y.isNan then (a, nv)
  else
    let aLess := match cmpVal x y with
      | .lt => true
      | .gt => false
      | .eq => signOf x || !signOf y
    ((if aLess != wantMax then a else b), nv)

/-- A comparison under a condition code (R148, R150): the truth value and whether NV is set. -/
def fcompare (cc : BitVec 3) (x y : FVal) : Bool × Flags :=
  let unord := x.isNan || y.isNan
  let o := cmpVal x y
  let r := match cc.toNat with
    | 0 => !unord && o == .eq
    | 1 => unord || o != .eq
    | 2 => !unord && o == .lt
    | 3 => !unord && o != .gt
    | 4 => !unord && o == .gt
    | 5 => !unord && o != .lt
    | 6 => unord
    | _ => !unord
  let sig := x == .nan true || y == .nan true
  let signalling := decide (2 ≤ cc.toNat) && decide (cc.toNat ≤ 5)
  (r, if sig || (unord && signalling) then flagNV else 0)

/-! ## Integers nearest to a value -/

/-- The integer nearest to a finite value under a mode (R137 `rnd_rm`), and whether it is inexact. -/
def rndRm (rm : Rm) (neg : Bool) (mag : Nat) (e : Int) : Int × Bool :=
  let r := roundInt rm neg mag e 0 false
  ((if neg then -(r.1 : Int) else r.1), r.2)

/-! ## HF8, INT8, DT8, DT6 and E8 (R42 to R52) -/

/-- `hf8_val` (R42). -/
def hf8Val (c : Byte) : FVal :=
  if c = 0x80 then .nan false
  else
    let s := c.getLsbD 7
    let e := (c.extractLsb' 3 4).toNat
    let m := (c.extractLsb' 0 3).toNat
    if e = 0 then .fin s m (-9) else .fin s (8 + m) ((e : Int) - 10)

/-- |x| compared with an integer bound. -/
def magGt (mag : Nat) (e : Int) (bound : Nat) : Bool :=
  if 0 ≤ e then decide (bound < mag * 2 ^ e.toNat) else decide (bound * 2 ^ (-e).toNat < mag)

/-- `hf8_enc` (R43). -/
def hf8Enc (v : FVal) : Byte × Flags :=
  match v with
  | .nan _ => (0x80, flagNV)
  | .inf n => ((if n then 0xFF else 0x7F), flagOF ||| flagNX)
  | .fin n m e =>
    if m = 0 then (0x00, 0)
    else if magGt m e 480 then ((if n then 0xFF else 0x7F), flagOF ||| flagNX)
    else
      let q := max ((m.log2 : Int) + e - 3) (-9)
      let (i, inx) := roundInt .rne n m e q false
      let fl : Flags := if inx then flagNX else 0
      if i = 0 then (0x00, fl)
      else
        let code := (q + 9).toNat * 8 + i
        (BitVec.ofNat 8 (if n then 128 + code else code), fl)

/-- `i8_enc` (R44). -/
def i8Enc (v : FVal) : Byte × Flags :=
  match v with
  | .nan _ => (0, flagNV)
  | .inf n => ((if n then 0x80 else 0x7F), flagOF ||| flagNX)
  | .fin n m e =>
    let (i, inx) := rndRm .rne n m e
    if 127 < i then (0x7F, flagOF ||| flagNX)
    else if i < -128 then (0x80, flagOF ||| flagNX)
    else (BitVec.ofInt 8 i, if inx then flagNX else 0)

/-- A DT8 term in units of 2^-6 (R45). -/
def dt8Term (s : Bool) (k : Nat) : Int :=
  if k = 7 then 0 else if s then -(2 : Int) ^ (6 - k) else 2 ^ (6 - k)

/-- `dt8_val` in units of 2^-6 (R45). -/
def dt8Units (c : Byte) : Int :=
  dt8Term (c.getLsbD 7) (c.extractLsb' 4 3).toNat + dt8Term (c.getLsbD 3) (c.extractLsb' 0 3).toNat

/-- `dt6_val` in units of 2^-5 (R48). -/
def dt6Units (c : Byte) : Int :=
  let a := (c.extractLsb' 3 2).toNat
  let d := (c.extractLsb' 0 2).toNat
  if a = 3 then 0
  else
    let v : Int := if c.getLsbD 5 then -(2 : Int) ^ (5 - a) else 2 ^ (5 - a)
    if d = 3 then v
    else v + (if c.getLsbD 2 then -(2 : Int) ^ (4 - a - d) else 2 ^ (4 - a - d))

def unitVal (u : Int) (e : Int) : FVal := .fin (decide (u < 0)) u.natAbs e
def dt8Val (c : Byte) : FVal := unitVal (dt8Units c) (-6)
def dt6Val (c : Byte) : FVal := unitVal (dt6Units c) (-5)

/-- The DT8 codes in the order of preference of R46: zero, single terms, two terms of equal sign, of unequal sign. -/
def dt8Order : List Byte :=
  [0x77] ++
  ((List.range 7).flatMap fun a => [BitVec.ofNat 8 (a * 16 + 7), BitVec.ofNat 8 (128 + a * 16 + 7)]) ++
  ((List.range 7).flatMap fun a => ((List.range 7).filter (a ≤ ·)).flatMap fun b =>
    [BitVec.ofNat 8 (a * 16 + b), BitVec.ofNat 8 (128 + a * 16 + 8 + b)]) ++
  ((List.range 7).flatMap fun a => ((List.range 7).filter (a < ·)).flatMap fun b =>
    [BitVec.ofNat 8 (a * 16 + 8 + b), BitVec.ofNat 8 (128 + a * 16 + b)])

/-- The DT6 codes in the order of preference of R49. -/
def dt6Order : List Byte :=
  [0x1B] ++
  ((List.range 3).flatMap fun a => [BitVec.ofNat 8 (a * 8 + 3), BitVec.ofNat 8 (32 + a * 8 + 3)]) ++
  ((List.range 3).flatMap fun a => (List.range 3).flatMap fun d =>
    [BitVec.ofNat 8 (a * 8 + d), BitVec.ofNat 8 (32 + a * 8 + 4 + d)]) ++
  ((List.range 3).flatMap fun a => (List.range 3).flatMap fun d =>
    [BitVec.ofNat 8 (a * 8 + 4 + d), BitVec.ofNat 8 (32 + a * 8 + d)])

/-- The first code of an order that has a value: the canonical one. -/
def canonOf (units : Byte → Int) (order : List Byte) (u : Int) : Byte :=
  ((order.find? fun c => units c == u)).getD 0

/-- The magnitude, among those of an order, nearest to `x` units of 2^-s (both scaled alike); a tie goes to the
smaller magnitude (R47). -/
def nearestMag (units : Byte → Int) (order : List Byte) (x scale : Nat) : Nat :=
  order.foldl (init := 0) fun best c =>
    let u := (units c).natAbs
    let d (k : Nat) : Nat := ((x : Int) - (k * scale : Nat)).natAbs
    if d u < d best ∨ (d u = d best ∧ u < best) then u else best

/-- `dt8_enc` and `dt6_enc` (R47, R49): `ue` is the exponent of a unit, `lim` the largest magnitude in units. -/
def dtEnc (units : Byte → Int) (order : List Byte) (ue : Int) (lim : Nat) (zero satP satN : Byte) (v : FVal) :
    Byte × Flags :=
  match v with
  | .nan _ => (zero, flagNV)
  | .inf n => ((if n then satN else satP), flagOF ||| flagNX)
  | .fin n m e =>
    -- x in units is m × 2^(e - ue); both sides over a common denominator
    let x := if ue ≤ e then m * 2 ^ (e - ue).toNat else m
    let sc := if ue ≤ e then 1 else 2 ^ (ue - e).toNat
    if lim * sc < x then ((if n then satN else satP), flagOF ||| flagNX)
    else
      let u := nearestMag units order x sc
      let s : Int := if n then -(u : Int) else u
      (canonOf units order s, if u * sc = x then 0 else flagNX)

def dt8Enc : FVal → Byte × Flags := dtEnc dt8Units dt8Order (-6) 128 0x77 0x00 0x88
def dt6Enc : FVal → Byte × Flags := dtEnc dt6Units dt6Order (-5) 48 0x1B 0x00 0x24

/-- `e8_val` (R52): none for an invalid block. -/
def e8Val (c : Byte) : Option FVal :=
  if c = 0 then some (.fin false 0 0)
  else if c = 255 then none
  else some (.fin false 1 ((c.toNat : Int) - 127))

/-- The value of a T2 or B1 weight (R51). -/
def t2Val (c : BitVec 2) : Int := match c.toNat with | 1 => 1 | 3 => -1 | _ => 0
def b1Val (b : Bool) : Int := if b then 1 else -1

/-! ## QNT block scaling (R53) -/

/-- The narrow formats of QNT, by its FMT field (R291): fmax as a mantissa and exponent, the zero code, the encoder. -/
def qntMax (fmt : BitVec 2) : Nat × Int :=
  match fmt.toNat with
  | 0 => (2, 0)
  | 1 => (3, -1)
  | 2 => (480, 0)
  | _ => (127, 0)
def qntZero (fmt : BitVec 2) : Byte := match fmt.toNat with | 0 => 0x77 | 1 => 0x1B | _ => 0
def qntEnc (fmt : BitVec 2) (v : FVal) : Byte × Flags :=
  match fmt.toNat with
  | 0 => dt8Enc v
  | 1 => dt6Enc v
  | 2 => hf8Enc v
  | _ => i8Enc v

/-- m1 × 2^e1 ≤ m2 × 2^e2. -/
def leDy (m1 : Nat) (e1 : Int) (m2 : Nat) (e2 : Int) : Bool :=
  let x := min e1 e2
  decide (m1 * 2 ^ (e1 - x).toNat ≤ m2 * 2 ^ (e2 - x).toNat)

/-- The larger magnitude of two. -/
def maxDy (a b : Nat × Int) : Nat × Int := if leDy a.1 a.2 b.1 b.2 then b else a

/-- The smallest e with amax × 2^-e ≤ fmax, clamped to −126 to 127 (R53). -/
def qntExp (amax fmax : Nat × Int) : Int :=
  let e0 := (amax.1.log2 : Int) + amax.2 - ((fmax.1.log2 : Int) + fmax.2)
  let e := if leDy amax.1 (amax.2 - (e0 - 1)) fmax.1 fmax.2 then e0 - 1
    else if leDy amax.1 (amax.2 - e0) fmax.1 fmax.2 then e0 else e0 + 1
  max (-126) (min 127 e)

/-- QNT of one block: the scale byte, the codes and the flags (R53). -/
def qntBlock (fmt : BitVec 2) (xs : List FVal) : Byte × List Byte × Flags :=
  if xs.any (fun v => match v with | .fin _ _ _ => false | _ => true) then
    (255, xs.map (fun _ => qntZero fmt), flagNV)
  else
    let amax := xs.foldl (fun a v => match v with | .fin _ m e => maxDy a (m, e) | _ => a) (0, 0)
    if amax.1 = 0 then (0, xs.map (fun _ => qntZero fmt), 0)
    else
      let e := qntExp amax (qntMax fmt)
      let cs := xs.map fun v => qntEnc fmt (v.scale (-e))
      (BitVec.ofInt 8 (e + 127), cs.map (·.1), cs.foldl (fun f c => f ||| c.2) 0)

/-! ## Roots, quotients and series -/

def isqrtLoop : Nat → Nat → Nat → Nat
  | 0, r, _ => r
  | k + 1, r, n => let t := r + 2 ^ k; isqrtLoop k (if t * t ≤ n then t else r) n
/-- The integer square root. -/
def isqrt (n : Nat) : Nat := isqrtLoop (n.log2 / 2 + 1) 0 n

/-- Fraction bits of the fixed-point series below. -/
def fxP : Nat := 320
/-- floor(ln 2 × 2^320). -/
def fxLn2 : Nat := 0xb17217f7d1cf79abc9e3b39803f2f6af40f343267298b62d8a0d175b8baafa2be7b876206debac98
/-- floor(π × 2^320). -/
def fxPi : Nat := 0x3243f6a8885a308d313198a2e03707344a4093822299f31d0082efa98ec4e6c89452821e638d01377
/-- Bits at the low end of a series value that its truncation errors may reach. -/
def fxGuard : Nat := 16

/-- Σ t^k / k! from k on, with t in fixed point. -/
def expLoop (t : Nat) : Nat → Nat → Nat → Nat → Nat
  | 0, _, _, acc => acc
  | n + 1, k, term, acc => expLoop t n (k + 1) (term * t / 2 ^ fxP / (k + 1)) (acc + term)
/-- e^t for 0 ≤ t < 1 in fixed point. -/
def fxExp (t : Nat) : Nat := expLoop t 90 0 (2 ^ fxP) 0

/-- The alternating series of sine (k odd) or cosine (k even) from its term of degree k. -/
def trigLoop (t2 : Nat) : Nat → Nat → Nat → Int → Int → Int
  | 0, _, _, _, acc => acc
  | n + 1, k, term, sg, acc =>
    trigLoop t2 n (k + 2) (term * t2 / 2 ^ fxP / ((k + 1) * (k + 2))) (-sg) (acc + sg * term)
/-- sin t for 0 ≤ t ≤ 1 in fixed point. -/
def fxSin (t : Nat) : Nat := (trigLoop (t * t / 2 ^ fxP) 45 1 t 1 0).toNat
/-- cos t for 0 ≤ t ≤ 1 in fixed point. -/
def fxCos (t : Nat) : Nat := (trigLoop (t * t / 2 ^ fxP) 45 0 (2 ^ fxP) 1 0).toNat

/-- Σ ± z^(2j+1) / (2j+1); `alt` alternates the signs (arctangent), else it is the series of artanh. -/
def oddLoop (z2 : Nat) (alt : Bool) : Nat → Nat → Nat → Int → Int → Int
  | 0, _, _, _, acc => acc
  | n + 1, k, pw, sg, acc =>
    oddLoop z2 alt n (k + 2) (pw * z2 / 2 ^ fxP) (if alt then -sg else sg) (acc + sg * (pw / k : Nat))
/-- artanh z for 0 ≤ z ≤ 1/3 in fixed point. -/
def fxArtanh (z : Nat) : Nat := (oddLoop (z * z / 2 ^ fxP) false 110 1 z 1 0).toNat
/-- arctan z for 0 ≤ z < 1/2 in fixed point. -/
def fxAtanSmall (z : Nat) : Nat := (oddLoop (z * z / 2 ^ fxP) true 165 1 z 1 0).toNat
/-- arctan (n / d) for 0 ≤ n ≤ d, d > 0, in fixed point. -/
def fxAtan (n d : Nat) : Nat :=
  if 5 * n ≤ 2 * d then fxAtanSmall (n * 2 ^ fxP / d)
  else fxPi / 4 - fxAtanSmall ((d - n) * 2 ^ fxP / (d + n))

/-- Round an irrational fixed-point magnitude: its guard bits are dropped and the rest is known to be exceeded. -/
def roundFx (neg : Bool) (v : Nat) (e : Int) : W32 × Flags :=
  let r := roundMag f32 .rne neg (v / 2 ^ fxGuard) (e - fxP + fxGuard) true
  (BitVec.ofNat 32 r.1, r.2)

def exactF32 (c : Nat) : W32 × Flags := (BitVec.ofNat 32 c, 0)
def nanF32 (nv : Bool) : W32 × Flags := (0x7FC00000, if nv then flagNV else 0)
def infF32 (neg : Bool) (fl : Flags) : W32 × Flags := ((if neg then 0xFF800000 else 0x7F800000), fl)
def zeroF32 (neg : Bool) : W32 × Flags := ((if neg then 0x80000000 else 0), 0)

/-- RCP (R166, R167). -/
def sfRcp (c : W32) : W32 × Flags :=
  match fval f32 c.toNat with
  | .nan s => nanF32 s
  | .inf n => zeroF32 n
  | .fin n m e =>
    if m = 0 then infF32 n flagDZ
    else
      let k := m.log2 + 64
      let r := roundMag f32 .rne n (2 ^ k / m) (-e - k) (decide (2 ^ k % m ≠ 0))
      (BitVec.ofNat 32 r.1, r.2)

/-- SQRT (R166, R167). -/
def sfSqrt (c : W32) : W32 × Flags :=
  match fval f32 c.toNat with
  | .nan s => nanF32 s
  | .inf n => if n then nanF32 true else infF32 false 0
  | .fin n m e =>
    if m = 0 then zeroF32 n
    else if n then nanF32 true
    else
      -- an even exponent, and at least 64 bits of root
      let t := 128 + (e % 2).toNat
      let m' := m * 2 ^ t
      let r := isqrt m'
      let o := roundMag f32 .rne false r ((e - t) / 2) (decide (r * r ≠ m'))
      (BitVec.ofNat 32 o.1, o.2)

/-- RSQ (R166, R167). -/
def sfRsq (c : W32) : W32 × Flags :=
  match fval f32 c.toNat with
  | .nan s => nanF32 s
  | .inf n => if n then nanF32 true else zeroF32 false
  | .fin n m e =>
    if m = 0 then infF32 n flagDZ
    else if n then nanF32 true
    else
      -- 1/√(m·2^e) = √(2^k / m) × 2^-((e + k) / 2), with e + k even
      let k := 192 + (e % 2).toNat
      let r := isqrt (2 ^ k / m)
      let o := roundMag f32 .rne false r (-((e + k) / 2)) (decide (r * r * m ≠ 2 ^ k))
      (BitVec.ofNat 32 o.1, o.2)

/-- EX2 (R166, R167). -/
def sfEx2 (c : W32) : W32 × Flags :=
  match fval f32 c.toNat with
  | .nan s => nanF32 s
  | .inf n => if n then zeroF32 false else infF32 false 0
  | .fin n m e =>
    if m = 0 then exactF32 0x3F800000
    else if !n && magGt m e 200 then infF32 false (flagOF ||| flagNX)
    else if n && magGt m e 300 then (0, flagUF ||| flagNX)
    else
      -- x = ip + fr / 2^fxP with 0 ≤ fr < 2^fxP; every F32 fraction fits
      let x : Int := termAt (-(fxP : Int)) (.fin n m e)
      let ip := x / (2 ^ fxP : Nat)
      let fr := (x % (2 ^ fxP : Nat)).toNat
      if fr = 0 then
        let r := roundMag f32 .rne false 1 ip false
        (BitVec.ofNat 32 r.1, r.2)
      else roundFx false (fxExp (fr * fxLn2 / 2 ^ fxP)) ip

/-- LG2 (R166, R167). -/
def sfLg2 (c : W32) : W32 × Flags :=
  match fval f32 c.toNat with
  | .nan s => nanF32 s
  | .inf n => if n then nanF32 true else infF32 false 0
  | .fin n m e =>
    if m = 0 then infF32 true flagDZ
    else if n then nanF32 true
    else
      let k := m.log2
      let ex : Int := k + e
      if m = 2 ^ k then
        let r := roundFp f32 .rne (FVal.ofInt ex)
        (BitVec.ofNat 32 r.1, r.2)
      else
        -- log2 (m / 2^k) = 2 artanh((m - 2^k) / (m + 2^k)) / ln 2
        let z := (m - 2 ^ k) * 2 ^ fxP / (m + 2 ^ k)
        let fr := 2 * fxArtanh z * 2 ^ fxP / fxLn2
        let s : Int := ex * (2 ^ fxP : Nat) + fr
        roundFx (decide (s < 0)) s.natAbs 0

/-- The magnitude of sin(2π · a / 2^fxP) for 0 < a < 2^fxP / 4. -/
def fxSinTurn (a : Nat) : Nat :=
  if a * 8 ≤ 2 ^ fxP then fxSin (2 * fxPi * a / 2 ^ fxP)
  else fxCos (2 * fxPi * (2 ^ fxP / 4 - a) / 2 ^ fxP)

/-- sin(2πx) for x = t / 2^fxP turns, 0 ≤ t < 2^fxP, away from multiples of a quarter: sign and magnitude. -/
def fxSinQuad (t : Nat) : Bool × Nat :=
  let quarter := 2 ^ fxP / 4
  let a := t % quarter
  match t / quarter with
  | 0 => (false, fxSinTurn a)
  | 1 => (false, fxSinTurn (quarter - a))
  | 2 => (true, fxSinTurn a)
  | _ => (true, fxSinTurn (quarter - a))

/-- SINT (R166, R167). -/
def sfSint (c : W32) : W32 × Flags :=
  match fval f32 c.toNat with
  | .nan s => nanF32 s
  | .inf _ => nanF32 true
  | .fin n m e =>
    let x : Int := termAt (-(fxP : Int)) (.fin n m e)
    let t := (x % (2 ^ fxP : Nat)).toNat
    let quarter := 2 ^ fxP / 4
    if t % (2 * quarter) = 0 then zeroF32 n
    else if t = quarter then exactF32 0x3F800000
    else if t = 3 * quarter then exactF32 0xBF800000
    else
      let r := fxSinQuad t
      roundFx r.1 r.2 0

/-- COST (R166, R167). -/
def sfCost (c : W32) : W32 × Flags :=
  match fval f32 c.toNat with
  | .nan s => nanF32 s
  | .inf _ => nanF32 true
  | .fin n m e =>
    let x : Int := termAt (-(fxP : Int)) (.fin n m e)
    let quarter := 2 ^ fxP / 4
    let t := (x % (2 ^ fxP : Nat)).toNat
    if t = 0 then exactF32 0x3F800000
    else if t = 2 * quarter then exactF32 0xBF800000
    else if t % (2 * quarter) = quarter then zeroF32 false
    else
      let r := fxSinQuad ((t + quarter) % 2 ^ fxP)
      roundFx r.1 r.2 0

/-! ## PH16 (R54 to R58) -/

/-- `rnd_away(16384 sin(2π i / 4096))` (R56). Mark: UNVERIFIED (log 21). -/
def phTS (i : Nat) : Int :=
  let q := i % 4096
  if q % 2048 = 0 then 0
  else if q = 1024 then 16384
  else if q = 3072 then -16384
  else
    let r := fxSinQuad (q * 2 ^ (fxP - 12))
    let v : Int := (2 * 16384 * r.2 + 2 ^ fxP) / 2 ^ (fxP + 1)
    if r.1 then -v else v
/-- `rnd_away(16384 cos(2π i / 4096))` (R56). Mark: UNVERIFIED (log 21). -/
def phTC (i : Nat) : Int := phTS (i + 1024)

/-- The angle of (X, Y) in units of 2^-15 turn, rounded to the nearest (R58). X and Y are not both zero. -/
def phAngle (x y : Int) : Nat :=
  let ax := x.natAbs
  let ay := y.natAbs
  -- the first-octant angle as a fraction of a turn, in fixed point
  let base : Nat := if ay ≤ ax then fxAtan ay ax else fxPi / 2 - fxAtan ax ay
  let ang : Int :=
    if 0 ≤ x then (if 0 ≤ y then (base : Int) else -base)
    else (if 0 ≤ y then (fxPi : Int) - base else (base : Int) - fxPi)
  -- exact multiples of an eighth turn, where the series is only approximate
  if ay = 0 then (if 0 < x then 0 else 16384)
  else if ax = 0 then (if 0 < y then 8192 else 24576)
  else if ax = ay then
    (if 0 < x then (if 0 < y then 4096 else 28672) else (if 0 < y then 12288 else 20480))
  else ((2 * (ang * 32768) + 2 * (fxPi : Int)) / (4 * (fxPi : Int)) % 32768).toNat

/-- rnd_int(65536 √(X² + Y²) / (16384 n)) for n > 0 (R58): the nearest integer to 4√S / n, ties to even. -/
def phCoherence (s n : Nat) : Nat :=
  let r := isqrt (64 * s)
  let k := (r + n) / (2 * n)
  if r * r = 64 * s ∧ (r + n) % (2 * n) = 0 ∧ k % 2 = 1 then k - 1 else k

/-- `ph_fin` (R58): the angle code and the coherence. -/
def phFin (x y : W32) (n : W32) : BitVec 16 × BitVec 16 :=
  if n = 0 ∨ (x = 0 ∧ y = 0) then (0x0001, 0)
  else
    let a := phAngle x.toInt y.toInt
    let s := x.toInt.natAbs ^ 2 + y.toInt.natAbs ^ 2
    (BitVec.ofNat 16 (2 * a), BitVec.ofNat 16 (min 0xFFFF (phCoherence s n.toNat)))

end Sys2Proof.Machine
end

