-- ==== Sys2Proof/Config.lean ====
section
/-! DEFINITION. What the spec leaves to an implementation, and the free values: constants with no body, of which
nothing can be proved. -/

namespace Sys2Proof.Config

/-- The byte that the die scheduler writes at an offset of a save slot, whose layout is its own (R305). Mark: DESIGN CHOICE (log 33). -/
opaque slotByte : Nat → Nat → Byte
/-- A byte of a group's state after a program has written into the group's slot: the layout decides it (R305). Mark: DESIGN CHOICE (log 33). -/
opaque restoredByte : Nat → Nat → Byte
/-- A byte whose value the spec leaves open, by a fresh number (R406). Mark: DESIGN CHOICE (log 53). -/
opaque freeByte : Nat → Byte

/-- The pre-emption deadline that firmware has set for a virtual function, in µs of hub time; 1 to 65,535 of it count
(R377). Mark: DESIGN CHOICE (log 8). -/
opaque deadlineUs : Nat → Nat
/-- The length in hclk of a virtual function's next slice, by a fresh number: the root core's choice (R20, R330). Mark: DESIGN CHOICE (log 8). -/
opaque sliceLen : Nat → Nat

/-- What firmware has set as a virtual function's weight in the placement decisions of every die, less one (R330). Mark: DESIGN CHOICE (log 8). -/
opaque placeWeight : Nat → Nat
/-- The energy weights that firmware writes for a virtual function at a boot, by the boot's fresh number (R397). Mark: DEDUCED (log 59). -/
opaque energyWeight : Nat → Nat → Nat → W32
/-- The weight of an activity of a unit: 0 a DATA flit, 1 a queue packet, 2 an HBM burst, 3 a control flit (R401). Mark: DESIGN CHOICE (log 8). -/
opaque unitWeight : Nat → Nat → Nat
/-- How many HBM bursts an access to a physical address of a die causes, by a fresh number (R24, R401). Mark: DEDUCED (log 57). -/
opaque hbmBursts : Nat → Nat → Nat → Nat
/-- How many refresh bursts a controller of a die makes in the dt that ends at a die time (R24, R401). Mark: DEDUCED (log 57). -/
opaque refreshBursts : Nat → Nat → Nat → Nat
/-- The stack of its die, 0 or 1 by its low bit, that holds a physical address (R28). Mark: DEDUCED (log 57). -/
opaque hbmStack : Nat → Nat
/-- The sampling interval that firmware has set for a context on a die, in clk (R396). Mark: DESIGN CHOICE (log 8). -/
opaque sampleClk : Nat → Nat → Nat
/-- The package identifier (R410). Mark: PRESUMED (log 9). -/
opaque pkgId : BitVec 16
/-- The package at the far end of a link (R391). Mark: PRESUMED (log 9). -/
opaque farPkg : Nat → BitVec 16
/-- Byte `i` of the 57-byte private key of the device (R410). Mark: PRESUMED (log 9). -/
opaque deviceSeed : Nat → Byte
/-- Byte `i` of the 57-byte private key of the maker, which signs the device's certificate (R410). Mark: PRESUMED (log 9). -/
opaque makerSeed : Nat → Byte
/-- Byte `i` of the debug authority's public key, of which the device holds the fused digest (R407). Mark: PRESUMED (log 9). -/
opaque debugKey : Nat → Byte
/-- Byte `i` of the fused root hash (R409). Mark: PRESUMED (log 9). -/
opaque rootHash : Nat → Byte

/-- The links of a link's route set, in the order in which the hub tries them (R389). Mark: DESIGN CHOICE (log 55). -/
opaque routeSet : Nat → List Nat
/-- What firmware has set as the retraining threshold of a link's wavelength, in errors per 2^32 bits (R390). Mark: DESIGN CHOICE (log 8). -/
opaque linkThreshold : Nat → Nat → Nat
/-- The wavelengths that trained at a link's transmitter, by a fresh number (R388, R391). Mark: DEDUCED (log 56). -/
opaque linkMap : Nat → Nat → BitVec 16
/-- Whether a transmitter proposes SPEED 1 on a link, by a fresh number (R382, R391). Mark: DEDUCED (log 56). -/
opaque linkSlow : Nat → Nat → Bool
/-- The 16-bit check of the other 14 bytes of a packet header (R384). Mark: DESIGN CHOICE (log 55). -/
opaque headerCheck : List Byte → BitVec 16
/-- The flow of a packet, the traffic of one source port to one home, whichever link it arrives on (R389). Mark: DESIGN CHOICE (log 55). -/
opaque flowOf : List Byte → Nat

/-- The set of a near cache that a line maps to (R199). Mark: DEDUCED (log 14). -/
opaque nearSet : Nat → Nat
/-- Which of several lines of equal rank a near cache replaces, by a fresh number (R199). Mark: DEDUCED (log 14). -/
opaque victim : Nat → Nat

end Sys2Proof.Config
end

