-- ==== Sys2Proof/WellFormed.lean ====
section
/-! DEFINITION. Which instructions are well formed: the operand kinds and field values that each entry of the opcode
map allows (R74, R204 and the operand limits of each entry). A word that decodes to an ill-formed instruction raises
ILLOP (R72, R74). The limits that a launch sets (R75) are checked when a slot issues. -/

namespace Sys2Proof

namespace Opd

/-- A 32-bit source (R74). -/
def isSrc : Opd → Bool
  | .h _ => false
  | .none => false
  | _ => true

/-- A 64-bit source: an even pair, the zero register, the work identifier or die time (R74). -/
def isSrc64 : Opd → Bool
  | .g n => n.val % 2 == 0
  | .k n => n.val % 2 == 0
  | .zero => true
  | .widLo => true
  | .dtLo => true
  | _ => false

/-- A 32-bit destination (R74): a g register, or the zero register, which discards. -/
def isDst : Opd → Bool
  | .g _ => true
  | .zero => true
  | _ => false

/-- A 64-bit destination (R74). -/
def isDst64 : Opd → Bool
  | .g n => n.val % 2 == 0
  | .zero => true
  | _ => false

/-- A destination of four registers from a multiple of 4 (R204, R274). -/
def isDstQuad : Opd → Bool
  | .g n => n.val % 4 == 0
  | .zero => true
  | _ => false

/-- A source of four registers from a multiple of 4, or zero (R74, R239). -/
def isQuad : Opd → Bool := isDstQuad

/-- An even g pair, with no zero form (R240, R345). -/
def isPair : Opd → Bool
  | .g n => n.val % 2 == 0
  | _ => false

/-- A handle (R74). -/
def isHandle : Opd → Bool
  | .h _ => true
  | _ => false

/-- The A row of a matrix operation: sixteen g registers from a multiple of 4 (R277). -/
def isRow : Opd → Bool
  | .g n => n.val % 4 == 0 && decide (n.val + 15 < 192)
  | _ => false

/-- The payload run of SPAWN: `n` g registers, or no operand for none (R120). -/
def isRun (o : Opd) (n : Nat) : Bool :=
  match o with
  | .g r => decide (1 ≤ n) && decide (r.val + n ≤ 192)
  | .none => n == 0
  | _ => false

/-- A source that may be left out (R126, R239, R252). -/
def isSrcOrNone (o : Opd) : Bool := o == .none || o.isSrc

end Opd

/-- A source of one or two words. -/
def srcW (wide : Bool) (o : Opd) : Bool := if wide then o.isSrc64 else o.isSrc
/-- A destination of one or two words. -/
def dstW (wide : Bool) (o : Opd) : Bool := if wide then o.isDst64 else o.isDst

/-- The destination that a load size allows (R204). -/
def dstSz (sz : BitVec 3) (o : Opd) : Bool :=
  match sz.toNat with
  | 5 => o.isDst64
  | 6 => o.isDstQuad
  | 7 => false
  | _ => o.isDst

/-- The data source that a store size allows (R204): sizes 1, 3 and 7 are load codes only. -/
def srcSz (sz : BitVec 3) (o : Opd) : Bool :=
  match sz.toNat with
  | 0 => o.isSrc
  | 2 => o.isSrc
  | 4 => o.isSrc
  | 5 => o.isSrc64
  | 6 => o.isQuad
  | _ => false

/-- The registers of a queue element (R346, R348): LEN / 4 registers from a multiple of 4, or zero. -/
def srcLen (len : BitVec 2) (o : Opd) : Bool :=
  len != 3 &&
  match o with
  | .g n => n.val % 4 == 0 && decide (n.val + 4 * 2 ^ len.toNat ≤ 192)
  | .zero => true
  | _ => false

/-- An instruction whose operands and fields its entry allows. Steps that have no word are never well formed. -/
def wellFormed : Instr → Bool
  | .nop _ => true
  | .mov _ d a wide => dstW wide d && srcW wide a
  | .movi _ d _ => d.isDst
  | .movk _ d _ => d.isDst
  | .iadd _ d a b sat => d.isDst && a.isSrc && b.isSrc && sat != 3
  | .isub _ d a b sat => d.isDst && a.isSrc && b.isSrc && sat != 3
  | .iaddi _ d a _ => d.isDst && a.isSrc
  | .imul _ d a b => d.isDst && a.isSrc && b.isSrc
  | .imulh _ d a b ty => d.isDst && a.isSrc && b.isSrc && ty != 3
  | .imad _ d a b c => d.isDst && a.isSrc && b.isSrc && c.isSrc
  | .imadw _ d a b c ty => d.isDst64 && a.isSrc && b.isSrc && c.isSrc64 && ty != 3
  | .idiv _ d a b _ => d.isDst && a.isSrc && b.isSrc
  | .irem _ d a b _ => d.isDst && a.isSrc && b.isSrc
  | .imin _ d a b _ => d.isDst && a.isSrc && b.isSrc
  | .imax _ d a b _ => d.isDst && a.isSrc && b.isSrc
  | .iabs _ d a _ => d.isDst && a.isSrc
  | .ineg _ d a _ => d.isDst && a.isSrc
  | .shl _ d a b => d.isDst && a.isSrc && b.isSrc
  | .shr _ d a b _ => d.isDst && a.isSrc && b.isSrc
  | .rot _ d a b _ => d.isDst && a.isSrc && b.isSrc
  | .iadd64 _ d a b => d.isDst64 && a.isSrc64 && b.isSrc64
  | .isub64 _ d a b => d.isDst64 && a.isSrc64 && b.isSrc64
  | .shl64 _ d a b => d.isDst64 && a.isSrc64 && b.isSrc
  | .shr64 _ d a b _ => d.isDst64 && a.isSrc64 && b.isSrc
  | .lop3 _ d a b c _ => d.isDst && a.isSrc && b.isSrc && c.isSrc
  | .bfx _ d a b _ => d.isDst && a.isSrc && b.isSrc
  | .bfi _ d a b c => d.isDst && a.isSrc && b.isSrc && c.isSrc
  | .brev _ d a => d.isDst && a.isSrc
  | .popc _ d a => d.isDst && a.isSrc
  | .clz _ d a => d.isDst && a.isSrc
  | .ctz _ d a => d.isDst && a.isSrc
  | .prmt _ d a b c => d.isDst && a.isSrc && b.isSrc && c.isSrc
  | .icmp _ _ _ a b cc _ w64 => srcW w64 a && srcW w64 b && decide (cc.toNat < 6)
  | .icmpi _ _ _ a _ cc _ w64 => srcW w64 a && decide (cc.toNat < 6)
  | .fcmp _ _ _ a b _ => a.isSrc && b.isSrc
  | .hcmp2 _ _ _ a b _ _ => a.isSrc && b.isSrc
  | .plop3 _ _ _ _ _ _ _ => true
  | .sel _ d a b _ _ wide => dstW wide d && srcW wide a && srcW wide b
  | .ptog _ d => d.isDst
  | .gtop _ a b => a.isSrc && b.isSrc
  | .fadd _ d a b _ _ _ _ => d.isDst && a.isSrc && b.isSrc
  | .fsub _ d a b _ _ _ _ => d.isDst && a.isSrc && b.isSrc
  | .fmul _ d a b _ _ _ _ => d.isDst && a.isSrc && b.isSrc
  | .ffma _ d a b c _ _ _ _ => d.isDst && a.isSrc && b.isSrc && c.isSrc
  | .fmin _ d a b => d.isDst && a.isSrc && b.isSrc
  | .fmax _ d a b => d.isDst && a.isSrc && b.isSrc
  | .fclass _ d a fmt => d.isDst && a.isSrc && fmt != 3
  | .fscale _ d a b _ => d.isDst && a.isSrc && b.isSrc
  | .frnd _ d a _ _ => d.isDst && a.isSrc
  | .f2i _ d a _ ty => dstW (ty.getLsbD 1) d && a.isSrc
  | .i2f _ d a _ ty => d.isDst && srcW (ty.getLsbD 1) a
  | .hadd2 _ d a b _ _ _ => d.isDst && a.isSrc && b.isSrc
  | .hmul2 _ d a b _ _ _ => d.isDst && a.isSrc && b.isSrc
  | .hfma2 _ d a b c _ _ _ _ => d.isDst && a.isSrc && b.isSrc && c.isSrc
  | .hmin2 _ d a b _ => d.isDst && a.isSrc && b.isSrc
  | .hmax2 _ d a b _ => d.isDst && a.isSrc && b.isSrc
  | .hdot2 _ d a b c _ _ => d.isDst && a.isSrc && b.isSrc && c.isSrc
  | .cvt _ d a srcF _ _ elt => d.isDst && a.isSrc && (srcF != 0 || elt == 0) && ((srcF != 1 && srcF != 2) || decide (elt.toNat < 2))
  | .cvtpk _ d a b _ _ => d.isDst && a.isSrc && b.isSrc
  | .cvtx4 _ d a narrow _ _ => dstW (!narrow) d && srcW narrow a
  | .qdt _ d a b c _ => d.isDst && a.isSrc64 && b.isSrc64 && c.isSrc
  | .dqdt _ d a b _ _ _ => d.isDst64 && a.isSrc && b.isSrc
  | .rcp _ d a => d.isDst && a.isSrc
  | .rsq _ d a => d.isDst && a.isSrc
  | .sqrt _ d a => d.isDst && a.isSrc
  | .ex2 _ d a => d.isDst && a.isSrc
  | .lg2 _ d a => d.isDst && a.isSrc
  | .sint _ d a => d.isDst && a.isSrc
  | .cost _ d a => d.isDst && a.isSrc
  | .phadd _ d a b _ => d.isDst && a.isSrc && b.isSrc
  | .phsub _ d a b _ => d.isDst && a.isSrc && b.isSrc
  | .phcmp _ _ _ a b => a.isSrc && b.isSrc
  | .phfrom _ d a _ => d.isDst && a.isSrc
  | .phsc _ d a => d.isDst && a.isSrc
  | .phcoh _ d a b c => d.isDst && a.isSrc && b.isSrc && c.isSrc
  | .bra _ _ => true
  | .brx _ a => a.isSrc64
  | .call _ d _ => d.isDst64
  | .callx _ d a => d.isDst64 && a.isSrc64
  | .ret _ a => a.isSrc64
  | .exit _ => true
  | .spawn _ a b c npay => a.isSrc64 && c.isSrc64 && b.isRun npay.toNat && decide (npay.toNat ≤ 8)
  | .wconv _ => true
  | .yield _ _ => true
  | .shfl _ d a b c _ _ => d.isDst && a.isSrc && b.isSrc && c.isSrcOrNone
  | .vote _ d _ _ mode => d.isDst && decide (mode.toNat < 6)
  | .wred _ d a fn => d.isDst && a.isSrc && decide (fn.toNat < 11)
  | .wscan _ d a fn _ => d.isDst && a.isSrc && decide (fn.toNat < 11)
  | .wmatch _ d a wide mode => d.isDst && srcW wide a && mode != 3
  | .wlive _ d => d.isDst
  | .ld _ d a _ sz _ _ => dstSz sz d && a.isSrc64
  | .st _ d a _ sz _ => srcSz sz d && a.isSrc64
  | .ldx _ d a b sz _ _ _ => dstSz sz d && a.isSrc64 && b.isSrc
  | .stx _ d a b sz _ _ => srcSz sz d && a.isSrc64 && b.isSrc
  | .lds _ d a _ sz tag tt => dstSz sz d && a.isSrc && tag != 3 && (sz != 6 || tag == 0) && (!tt || tag != 0)
  | .sts _ d a _ sz tag tt => srcSz sz d && a.isSrc && tag != 3 && (sz != 6 || tag == 0) && (!tt || tag != 0)
  | .pfl _ a _ _ _ => a.isSrc64
  | .atom _ d a b fn w64 _ => dstW w64 d && a.isSrc64 && srcW w64 b && decide (fn.toNat < 10) && (!w64 || fn != 9)
  | .acas _ d a b c w64 _ => dstW w64 d && a.isSrc64 && srcW w64 b && srcW w64 c
  | .red _ a b fn w64 _ scope => a.isSrc64 && srcW w64 b && fn != 0 && decide (fn.toNat < 10) && (!w64 || fn != 9) && scope != 3
  | .fence _ kind scope => (kind == 1 || kind == 2) && scope != 3
  | .cwb _ a b all => if all then a == .none && b == .none else a.isSrc64 && b.isSrc
  | .cinv _ a b all => if all then a == .none && b == .none else a.isSrc64 && b.isSrc
  | .tagset _ a b _ => a.isSrc && b.isSrc
  | .tagrd _ d a => d.isDst && a.isSrc
  | .awinit _ a b _ => a.isSrc && b.isSrc
  | .awadd _ a b => a.isSrc && b.isSrc
  | .await _ d a b => d.isDst && a.isSrc && b.isSrc
  | .cpy _ d a b c dir => srcW (dir.getLsbD 0) d && srcW (dir == 0 || dir == 3) a && b.isSrc && c.isSrcOrNone
  | .cpyn _ d a b c dir => srcW (dir.getLsbD 0) d && srcW (dir == 0 || dir == 3) a && b.isQuad && c.isSrcOrNone
  | .cpyx _ d a b c sp => d.isSrc && srcW (!sp) a && b.isSrc && c.isSrcOrNone
  | .cpyp _ d a b c sp => srcW (!sp) d && a.isSrc && b.isSrc && c.isSrcOrNone
  | .gath _ d a b c esz => d.isSrc && a.isSrc64 && b.isPair && c.isSrcOrNone && esz != 7
  | .scat _ d a b c esz => d.isSrc64 && a.isSrc && b.isPair && c.isSrcOrNone && esz != 7
  | .cvsign _ d a _ _ => d.isDst && a.isSrc
  | .cvwait _ a _ => a.isSrc
  | .cvrst _ _ => true
  | .waitc _ _ _ _ _ => true
  | .mwait _ a b c w64 _ => a.isSrc64 && srcW w64 b && c.isSrcOrNone
  | .park _ a => a.isSrc
  | .thal _ d a b _ _ => d.isHandle && a.isSrc && b.isSrc
  | .threl _ a => a.isHandle
  | .thgive _ a b => a.isHandle && b.isSrc
  | .thinfo _ d a => d.isDst64 && a.isHandle
  | .cpyt _ d a b sp => d.isHandle && srcW (!sp) a && b.isSrc
  | .thst _ d a b sp => srcW (!sp) d && a.isHandle && b.isSrc
  | .accz _ a b => a.isSrc && b.isSrc
  | .accld _ d a b c sp => d.isSrc && srcW (!sp) a && b.isSrc && c.isSrc
  | .accst _ d a b c sp _ => srcW (!sp) d && a.isSrc && b.isSrc && c.isSrc
  | .accrd _ d a n => a.isSrc && (match n.toNat with | 0 => d.isDst | 1 => d.isDst64 | 2 => d.isDstQuad | _ => false)
  | .mma _ _ a b c _ => a.isRow && b.isHandle && c.isSrc
  | .mmal _ _ a b c _ _ => a.isRow && b.isHandle && c.isSrc
  | .phmma _ _ a b c _ => a.isRow && b.isHandle && c.isSrc
  | .phfin _ d a b c _ => d.isSrc && a.isSrc && b.isSrc && c.isSrc
  | .qnt _ d a b c _ bl _ _ => d.isSrc && a.isSrc && b.isSrc && c.isSrc && bl != 0
  | .qopen _ d a sf ps => d.isDst64 && a.isSrc && (sf || ps == 0)
  | .qrsv _ d a b sf ps => d.isPair && a.isSrc && b.isSrc && (sf || ps == 0)
  | .qput _ d a b _ len sf ps => srcLen len d && a.isSrc && b.isSrc64 && (sf || ps == 0)
  | .qputs _ d a b c _ sf ps => d.isSrc && a.isSrc && b.isSrc64 && c.isSrc && (sf || ps == 0)
  | .qtake _ d a _ len sf ps => srcLen len d && a.isSrc && (sf || ps == 0)
  | .qtakes _ d a b c _ sf ps => d.isDst && a.isSrc && b.isSrc && c.isSrc && (sf || ps == 0)
  | .qpeek _ d a sf ps => d.isDst64 && a.isSrc && (sf || ps == 0)
  | .qwait _ a sf ps => a.isSrc && (sf || ps == 0)
  | .qreset _ a sf ps => a.isSrc && (sf || ps == 0)
  | .qclose _ a sf ps => a.isSrc && (sf || ps == 0)
  | .launch _ a b sf ps => a.isSrc && b.isSrc && (sf || ps == 0)
  | .signal _ a b fn w64 sf ps => a.isSrc64 && srcW w64 b && fn != 3 && (sf || ps == 0)
  | .trap _ _ => true
  | .rth _ => true
  | .sread _ d reg => d.isDst && decide (reg.toNat ≤ 0x1B)
  | .swrite _ reg a => a.isSrc && decide (reg.toNat ≤ 0x1B)
  | .yieldpt _ _ => true
  | .bkpt _ _ => true
  | .ecall _ d a _ => d.isDst64 && a.isSrc64
  | .issueGroup _ _ _ => false
  | .longLatencyWriteback _ => false
  | .yieldDelayEnd _ => false
  | .convstall _ => false
  | .waystationTimer _ _ _ => false
  | .waystationLaunch _ _ _ => false
  | .warpRetire _ => false
  | .tlbWalk _ => false
  | .hLoadMiss _ => false
  | .hWriteAccept _ => false
  | .hWritePerform _ => false
  | .recallAnswer _ _ _ => false
  | .partialCombine _ => false
  | .partialPushDeadline _ _ _ => false
  | .nearCacheEvict _ _ _ => false
  | .writeBackAccept _ => false
  | .engineStart _ _ => false
  | .engineChunk _ _ _ => false
  | .engineComplete _ => false
  | .matrixStart _ _ => false
  | .matrixComplete _ _ => false
  | .tokenCapture _ _ => false
  | .tokenRelease _ _ => false
  | .tokenForcedRelease _ _ => false
  | .groupPlace _ _ _ _ => false
  | .parking _ => false
  | .parkSaveDone _ => false
  | .watchTimerFire _ => false
  | .mwaitTimeout _ => false
  | .parkDelayEnd _ => false
  | .relaunch _ _ _ => false
  | .groupRetire _ => false
  | .csigIncrement _ => false
  | .irqTimer _ => false
  | .lineMonitorParse _ => false
  | .deltaLaunch _ => false
  | .fenceRecord _ => false
  | .fenceRecordMet _ => false
  | .signalWrite _ => false
  | .queuePriority _ => false
  | .nopRecord _ => false
  | .pageMode _ => false
  | .pageInvalidate _ => false
  | .pageModeDrainEnd _ _ => false
  | .pageModeRelease _ _ => false
  | .pageModeSignal _ => false
  | .hostcopy _ _ _ _ => false
  | .hostcopyEnd _ => false
  | .queueSteal _ _ => false
  | .homeOpen _ _ => false
  | .homeReserve _ _ => false
  | .homeFill _ _ => false
  | .homeTake _ _ => false
  | .homePeek _ _ => false
  | .homeWait _ _ => false
  | .homeReset _ _ => false
  | .homeClose _ _ => false
  | .queueAnswer _ => false
  | .dieResetAnnounce _ _ => false
  | .signalApply _ _ => false
  | .ecallServe _ _ _ => false
  | .ecallAnswer _ => false
  | .haltLineArrival _ _ _ => false
  | .stopRecords _ _ => false
  | .preemptionRequest _ => false
  | .preemptionDeadline _ => false
  | .groupSaveByMaps _ => false
  | .sliceEnd _ => false
  | .dataFlit _ _ => false
  | .nak _ _ => false
  | .replayTimeout _ => false
  | .nakHoldoffEnd _ => false
  | .controlFlitRepeat _ => false
  | .idle _ _ => false
  | .marker _ _ => false
  | .stompedFlit _ _ => false
  | .reservedFlit _ _ => false
  | .headerCheckFail _ _ _ => false
  | .lossOfLight _ _ => false
  | .loss _ _ => false
  | .errorRateThreshold _ _ _ => false
  | .retrain _ _ => false
  | .retrainTimeout _ => false
  | .lpr _ _ => false
  | .trainingTimeout _ => false
  | .linkEnable _ => false
  | .linkDisable _ => false
  | .sampleInterval _ _ _ _ _ => false
  | .marginPlan _ _ _ _ _ => false
  | .thermalTrip _ _ _ => false
  | .dieReset _ => false
  | .powerOn _ _ => false
  | .hostWindowWrite _ _ _ => false
  | .hostSignalWrite _ _ _ => false
  | .hostRegisterWrite _ _ _ => false
  | .createContext _ _ _ => false
  | .destroyContext _ => false
  | .haltRequest _ => false
  | .saveContext _ => false
  | .resumeContext _ _ _ => false
  | .writePageTableEntries _ => false
  | .createQueue _ _ _ _ _ => false
  | .deleteQueue _ => false
  | .bindQids _ => false
  | .readHarvestMap _ => false
  | .readEventRing _ => false
  | .readEcallLog _ => false
  | .readSampleBuffer _ => false
  | .readEnergyBanks _ => false
  | .attest _ => false
  | .writeFirmwareImage _ => false
  | .setPowerLimit _ => false
  | .freeze _ => false
  | .resetCoreDie _ => false
  | .spuriousWakeup _ => false
  | .lightRestored _ _ => false
  | .trainingEnd _ _ => false
  | .reservedTypeRecord _ => false
  | .unassignedCommand _ => false

end Sys2Proof
end

