-- ==== Sys2Proof/Decode.lean ====
section
/-! DEFINITION. Decoding and encoding of instruction words (R72, R74, R87 and the encoding of each entry), the
clause header (R70) and dictionary codes (R83). `decodeWord` is total and refuses by name; `encode` is written from
the same tables. `Instr.uses` lists the registers that each operand field names, for R75, R80 and R81. -/

namespace Sys2Proof

/-- The fields of an instruction word (R72), before any of them is given a meaning. -/
structure Raw where
  op : Byte
  q  : Ctl
  d  : Byte
  a  : Byte
  b  : Byte
  c  : Byte
  e  : Byte
  deriving DecidableEq, Repr

/-- Why a word is refused. Every refusal raises ILLOP (R72, R74, R87). -/
inductive DecodeError where
  | reservedOp
  | headerOp
  | reservedOperand
  | usedUnused
  | unassignedE
  | fieldValue
  | illFormed
  deriving DecidableEq, Repr

/-- Split a word into its fields (R72). -/
def Raw.unpack (w : W64) : Raw :=
  { op := w.extractLsb' 56 8
    q := { g1 := w.extractLsb' 52 4, g2 := w.extractLsb' 48 4, n1 := w.getLsbD 47, n2 := w.getLsbD 46,
           fa := w.getLsbD 5, fb := w.getLsbD 4, fc := w.getLsbD 3, h := w.extractLsb' 1 2, ru := w.getLsbD 0 }
    d := w.extractLsb' 38 8, a := w.extractLsb' 30 8, b := w.extractLsb' 22 8, c := w.extractLsb' 14 8,
    e := w.extractLsb' 6 8 }

/-- Join the fields to a word (R72). -/
def Raw.pack (r : Raw) : W64 :=
  (r.op ++ r.q.g1 ++ r.q.g2 ++ BitVec.ofBool r.q.n1 ++ BitVec.ofBool r.q.n2 ++ r.d ++ r.a ++ r.b ++ r.c ++ r.e ++
    BitVec.ofBool r.q.fa ++ BitVec.ofBool r.q.fb ++ BitVec.ofBool r.q.fc ++ r.q.h ++ BitVec.ofBool r.q.ru)

/-- The code of an operand (R74). -/
def Opd.code : Opd → Byte
  | .g n => BitVec.ofNat 8 n.val
  | .k n => BitVec.ofNat 8 (0xC0 + n.val)
  | .h n => BitVec.ofNat 8 (0xE0 + n.val)
  | .zero => 0xF0
  | .lane => 0xF1
  | .warp => 0xF2
  | .widLo => 0xF3
  | .widHi => 0xF4
  | .vcore => 0xF5
  | .vdie => 0xF6
  | .dtLo => 0xF7
  | .dtHi => 0xF8
  | .cycLo => 0xF9
  | .grp => 0xFA
  | .none => 0xFF

/-- The operand of a code (R74); the reserved codes 0xFB to 0xFE have none. -/
def Opd.ofCode (c : Byte) : Except DecodeError Opd :=
  if h : c.toNat < 192 then .ok (.g ⟨c.toNat, h⟩)
  else if h : c.toNat - 0xC0 < 32 then .ok (.k ⟨c.toNat - 0xC0, h⟩)
  else if h : c.toNat - 0xE0 < 16 then .ok (.h ⟨c.toNat - 0xE0, h⟩)
  else match c.toNat with
    | 0xF0 => .ok .zero
    | 0xF1 => .ok .lane
    | 0xF2 => .ok .warp
    | 0xF3 => .ok .widLo
    | 0xF4 => .ok .widHi
    | 0xF5 => .ok .vcore
    | 0xF6 => .ok .vdie
    | 0xF7 => .ok .dtLo
    | 0xF8 => .ok .dtHi
    | 0xF9 => .ok .cycLo
    | 0xFA => .ok .grp
    | 0xFF => .ok .none
    | _ => .error .reservedOperand

/-- The code of a rounding mode (R38). -/
def Rm.code : Rm → BitVec 2
  | .rne => 0
  | .rtz => 1
  | .rup => 2
  | .rdn => 3

/-- The rounding mode of a code (R38). -/
def Rm.ofCode (c : BitVec 2) : Rm :=
  match c.toNat with
  | 0 => .rne
  | 1 => .rtz
  | 2 => .rup
  | _ => .rdn

/-- An operand field that the entry does not use must hold 0xFF (R72). -/
def unused (c : Byte) : Except DecodeError Unit := if c = 0xFF then .ok () else .error .usedUnused
/-- Bits of E that the entry does not assign must be zero (R72). -/
def ezero {n : Nat} (x : BitVec n) : Except DecodeError Unit := if x = 0 then .ok () else .error .unassignedE
/-- A part of a field that must be zero (R134, R277, R377). -/
def fzero {n : Nat} (x : BitVec n) : Except DecodeError Unit := if x = 0 then .ok () else .error .fieldValue

/-- The entries of opcodes 0x00 to 0x1F. -/
def decodeOps0 (r : Raw) : Except DecodeError Instr :=
  match r.op.toNat with
  | 0x00 => do
    unused r.d
    unused r.a
    unused r.b
    unused r.c
    ezero r.e
    .ok (.nop r.q)
  | 0x01 => do
    let d ← Opd.ofCode r.d
    let a ← Opd.ofCode r.a
    unused r.b
    unused r.c
    ezero (r.e.extractLsb' 1 7)
    .ok (.mov r.q d a (r.e.getLsbD 0))
  | 0x02 => do
    let d ← Opd.ofCode r.d
    unused r.a
    .ok (.movi r.q d (r.b ++ r.c ++ r.e))
  | 0x03 => do
    let d ← Opd.ofCode r.d
    .ok (.movk r.q d (r.a ++ r.b ++ r.c ++ r.e))
  | 0x04 => do
    let d ← Opd.ofCode r.d
    let a ← Opd.ofCode r.a
    let b ← Opd.ofCode r.b
    unused r.c
    ezero (r.e.extractLsb' 2 6)
    .ok (.iadd r.q d a b (r.e.extractLsb' 0 2))
  | 0x05 => do
    let d ← Opd.ofCode r.d
    let a ← Opd.ofCode r.a
    let b ← Opd.ofCode r.b
    unused r.c
    ezero (r.e.extractLsb' 2 6)
    .ok (.isub r.q d a b (r.e.extractLsb' 0 2))
  | 0x06 => do
    let d ← Opd.ofCode r.d
    let a ← Opd.ofCode r.a
    .ok (.iaddi r.q d a (r.b ++ r.c ++ r.e))
  | 0x07 => do
    let d ← Opd.ofCode r.d
    let a ← Opd.ofCode r.a
    let b ← Opd.ofCode r.b
    unused r.c
    ezero r.e
    .ok (.imul r.q d a b)
  | 0x08 => do
    let d ← Opd.ofCode r.d
    let a ← Opd.ofCode r.a
    let b ← Opd.ofCode r.b
    unused r.c
    ezero (r.e.extractLsb' 2 6)
    .ok (.imulh r.q d a b (r.e.extractLsb' 0 2))
  | 0x09 => do
    let d ← Opd.ofCode r.d
    let a ← Opd.ofCode r.a
    let b ← Opd.ofCode r.b
    let c ← Opd.ofCode r.c
    ezero r.e
    .ok (.imad r.q d a b c)
  | 0x0A => do
    let d ← Opd.ofCode r.d
    let a ← Opd.ofCode r.a
    let b ← Opd.ofCode r.b
    let c ← Opd.ofCode r.c
    ezero (r.e.extractLsb' 2 6)
    .ok (.imadw r.q d a b c (r.e.extractLsb' 0 2))
  | 0x0B => do
    let d ← Opd.ofCode r.d
    let a ← Opd.ofCode r.a
    let b ← Opd.ofCode r.b
    unused r.c
    ezero (r.e.extractLsb' 1 7)
    .ok (.idiv r.q d a b (r.e.getLsbD 0))
  | 0x0C => do
    let d ← Opd.ofCode r.d
    let a ← Opd.ofCode r.a
    let b ← Opd.ofCode r.b
    unused r.c
    ezero (r.e.extractLsb' 1 7)
    .ok (.irem r.q d a b (r.e.getLsbD 0))
  | 0x0D => do
    let d ← Opd.ofCode r.d
    let a ← Opd.ofCode r.a
    let b ← Opd.ofCode r.b
    unused r.c
    ezero (r.e.extractLsb' 1 7)
    .ok (.imin r.q d a b (r.e.getLsbD 0))
  | 0x0E => do
    let d ← Opd.ofCode r.d
    let a ← Opd.ofCode r.a
    let b ← Opd.ofCode r.b
    unused r.c
    ezero (r.e.extractLsb' 1 7)
    .ok (.imax r.q d a b (r.e.getLsbD 0))
  | 0x0F => do
    let d ← Opd.ofCode r.d
    let a ← Opd.ofCode r.a
    unused r.b
    unused r.c
    ezero (r.e.extractLsb' 1 7)
    .ok (.iabs r.q d a (r.e.getLsbD 0))
  | 0x10 => do
    let d ← Opd.ofCode r.d
    let a ← Opd.ofCode r.a
    unused r.b
    unused r.c
    ezero (r.e.extractLsb' 1 7)
    .ok (.ineg r.q d a (r.e.getLsbD 0))
  | 0x11 => do
    let d ← Opd.ofCode r.d
    let a ← Opd.ofCode r.a
    let b ← Opd.ofCode r.b
    unused r.c
    ezero r.e
    .ok (.shl r.q d a b)
  | 0x12 => do
    let d ← Opd.ofCode r.d
    let a ← Opd.ofCode r.a
    let b ← Opd.ofCode r.b
    unused r.c
    ezero (r.e.extractLsb' 1 7)
    .ok (.shr r.q d a b (r.e.getLsbD 0))
  | 0x13 => do
    let d ← Opd.ofCode r.d
    let a ← Opd.ofCode r.a
    let b ← Opd.ofCode r.b
    unused r.c
    ezero (r.e.extractLsb' 1 7)
    .ok (.rot r.q d a b (r.e.getLsbD 0))
  | 0x14 => do
    let d ← Opd.ofCode r.d
    let a ← Opd.ofCode r.a
    let b ← Opd.ofCode r.b
    unused r.c
    ezero r.e
    .ok (.iadd64 r.q d a b)
  | 0x15 => do
    let d ← Opd.ofCode r.d
    let a ← Opd.ofCode r.a
    let b ← Opd.ofCode r.b
    unused r.c
    ezero r.e
    .ok (.isub64 r.q d a b)
  | 0x16 => do
    let d ← Opd.ofCode r.d
    let a ← Opd.ofCode r.a
    let b ← Opd.ofCode r.b
    unused r.c
    ezero r.e
    .ok (.shl64 r.q d a b)
  | 0x17 => do
    let d ← Opd.ofCode r.d
    let a ← Opd.ofCode r.a
    let b ← Opd.ofCode r.b
    unused r.c
    ezero (r.e.extractLsb' 1 7)
    .ok (.shr64 r.q d a b (r.e.getLsbD 0))
  | 0x18 => do
    let d ← Opd.ofCode r.d
    let a ← Opd.ofCode r.a
    let b ← Opd.ofCode r.b
    let c ← Opd.ofCode r.c
    .ok (.lop3 r.q d a b c r.e)
  | 0x19 => do
    let d ← Opd.ofCode r.d
    let a ← Opd.ofCode r.a
    let b ← Opd.ofCode r.b
    unused r.c
    ezero (r.e.extractLsb' 1 7)
    .ok (.bfx r.q d a b (r.e.getLsbD 0))
  | 0x1A => do
    let d ← Opd.ofCode r.d
    let a ← Opd.ofCode r.a
    let b ← Opd.ofCode r.b
    let c ← Opd.ofCode r.c
    ezero r.e
    .ok (.bfi r.q d a b c)
  | 0x1B => do
    let d ← Opd.ofCode r.d
    let a ← Opd.ofCode r.a
    unused r.b
    unused r.c
    ezero r.e
    .ok (.brev r.q d a)
  | 0x1C => do
    let d ← Opd.ofCode r.d
    let a ← Opd.ofCode r.a
    unused r.b
    unused r.c
    ezero r.e
    .ok (.popc r.q d a)
  | 0x1D => do
    let d ← Opd.ofCode r.d
    let a ← Opd.ofCode r.a
    unused r.b
    unused r.c
    ezero r.e
    .ok (.clz r.q d a)
  | 0x1E => do
    let d ← Opd.ofCode r.d
    let a ← Opd.ofCode r.a
    unused r.b
    unused r.c
    ezero r.e
    .ok (.ctz r.q d a)
  | 0x1F => do
    let d ← Opd.ofCode r.d
    let a ← Opd.ofCode r.a
    let b ← Opd.ofCode r.b
    let c ← Opd.ofCode r.c
    ezero r.e
    .ok (.prmt r.q d a b c)
  | _ => .error .reservedOp

/-- The entries of opcodes 0x20 to 0x2F. -/
def decodeOps2 (r : Raw) : Except DecodeError Instr :=
  match r.op.toNat with
  | 0x20 => do
    let a ← Opd.ofCode r.a
    let b ← Opd.ofCode r.b
    unused r.c
    ezero (r.e.extractLsb' 5 3)
    .ok (.icmp r.q (r.d.extractLsb' 0 4) (r.d.extractLsb' 4 4) a b (r.e.extractLsb' 0 3) (r.e.getLsbD 3) (r.e.getLsbD 4))
  | 0x21 => do
    let a ← Opd.ofCode r.a
    ezero (r.e.extractLsb' 5 3)
    .ok (.icmpi r.q (r.d.extractLsb' 0 4) (r.d.extractLsb' 4 4) a (r.b ++ r.c) (r.e.extractLsb' 0 3) (r.e.getLsbD 3) (r.e.getLsbD 4))
  | 0x22 => do
    let a ← Opd.ofCode r.a
    let b ← Opd.ofCode r.b
    unused r.c
    ezero (r.e.extractLsb' 3 5)
    .ok (.fcmp r.q (r.d.extractLsb' 0 4) (r.d.extractLsb' 4 4) a b (r.e.extractLsb' 0 3))
  | 0x23 => do
    let a ← Opd.ofCode r.a
    let b ← Opd.ofCode r.b
    unused r.c
    ezero (r.e.extractLsb' 4 4)
    .ok (.hcmp2 r.q (r.d.extractLsb' 0 4) (r.d.extractLsb' 4 4) a b (r.e.extractLsb' 0 3) (r.e.getLsbD 3))
  | 0x24 => do
    fzero (r.a.extractLsb' 4 4)
    fzero (r.b.extractLsb' 4 4)
    fzero (r.c.extractLsb' 4 4)
    .ok (.plop3 r.q (r.d.extractLsb' 0 4) (r.d.extractLsb' 4 4) (r.a.extractLsb' 0 4) (r.b.extractLsb' 0 4) (r.c.extractLsb' 0 4) r.e)
  | 0x25 => do
    let d ← Opd.ofCode r.d
    let a ← Opd.ofCode r.a
    let b ← Opd.ofCode r.b
    unused r.c
    ezero (r.e.extractLsb' 6 2)
    .ok (.sel r.q d a b (r.e.extractLsb' 0 4) (r.e.getLsbD 4) (r.e.getLsbD 5))
  | 0x26 => do
    let d ← Opd.ofCode r.d
    unused r.a
    unused r.b
    unused r.c
    ezero r.e
    .ok (.ptog r.q d)
  | 0x27 => do
    unused r.d
    let a ← Opd.ofCode r.a
    let b ← Opd.ofCode r.b
    unused r.c
    ezero r.e
    .ok (.gtop r.q a b)
  | _ => .error .reservedOp

/-- The entries of opcodes 0x30 to 0x3F. -/
def decodeOps3 (r : Raw) : Except DecodeError Instr :=
  match r.op.toNat with
  | 0x30 => do
    let d ← Opd.ofCode r.d
    let a ← Opd.ofCode r.a
    let b ← Opd.ofCode r.b
    unused r.c
    ezero (r.e.extractLsb' 5 3)
    .ok (.fadd r.q d a b (Rm.ofCode (r.e.extractLsb' 0 2)) (r.e.getLsbD 2) (r.e.getLsbD 3) (r.e.getLsbD 4))
  | 0x31 => do
    let d ← Opd.ofCode r.d
    let a ← Opd.ofCode r.a
    let b ← Opd.ofCode r.b
    unused r.c
    ezero (r.e.extractLsb' 5 3)
    .ok (.fsub r.q d a b (Rm.ofCode (r.e.extractLsb' 0 2)) (r.e.getLsbD 2) (r.e.getLsbD 3) (r.e.getLsbD 4))
  | 0x32 => do
    let d ← Opd.ofCode r.d
    let a ← Opd.ofCode r.a
    let b ← Opd.ofCode r.b
    unused r.c
    ezero (r.e.extractLsb' 5 3)
    .ok (.fmul r.q d a b (Rm.ofCode (r.e.extractLsb' 0 2)) (r.e.getLsbD 2) (r.e.getLsbD 3) (r.e.getLsbD 4))
  | 0x33 => do
    let d ← Opd.ofCode r.d
    let a ← Opd.ofCode r.a
    let b ← Opd.ofCode r.b
    let c ← Opd.ofCode r.c
    ezero (r.e.extractLsb' 5 3)
    .ok (.ffma r.q d a b c (Rm.ofCode (r.e.extractLsb' 0 2)) (r.e.getLsbD 2) (r.e.getLsbD 3) (r.e.getLsbD 4))
  | 0x34 => do
    let d ← Opd.ofCode r.d
    let a ← Opd.ofCode r.a
    let b ← Opd.ofCode r.b
    unused r.c
    ezero r.e
    .ok (.fmin r.q d a b)
  | 0x35 => do
    let d ← Opd.ofCode r.d
    let a ← Opd.ofCode r.a
    let b ← Opd.ofCode r.b
    unused r.c
    ezero r.e
    .ok (.fmax r.q d a b)
  | 0x36 => do
    let d ← Opd.ofCode r.d
    let a ← Opd.ofCode r.a
    unused r.b
    unused r.c
    ezero (r.e.extractLsb' 2 6)
    .ok (.fclass r.q d a (r.e.extractLsb' 0 2))
  | 0x37 => do
    let d ← Opd.ofCode r.d
    let a ← Opd.ofCode r.a
    let b ← Opd.ofCode r.b
    unused r.c
    ezero (r.e.extractLsb' 2 6)
    .ok (.fscale r.q d a b (Rm.ofCode (r.e.extractLsb' 0 2)))
  | 0x38 => do
    let d ← Opd.ofCode r.d
    let a ← Opd.ofCode r.a
    unused r.b
    unused r.c
    ezero (r.e.extractLsb' 3 5)
    .ok (.frnd r.q d a (Rm.ofCode (r.e.extractLsb' 0 2)) (r.e.getLsbD 2))
  | 0x39 => do
    let d ← Opd.ofCode r.d
    let a ← Opd.ofCode r.a
    unused r.b
    unused r.c
    ezero (r.e.extractLsb' 4 4)
    .ok (.f2i r.q d a (Rm.ofCode (r.e.extractLsb' 0 2)) (r.e.extractLsb' 2 2))
  | 0x3A => do
    let d ← Opd.ofCode r.d
    let a ← Opd.ofCode r.a
    unused r.b
    unused r.c
    ezero (r.e.extractLsb' 4 4)
    .ok (.i2f r.q d a (Rm.ofCode (r.e.extractLsb' 0 2)) (r.e.extractLsb' 2 2))
  | _ => .error .reservedOp

/-- The entries of opcodes 0x40 to 0x4F. -/
def decodeOps4 (r : Raw) : Except DecodeError Instr :=
  match r.op.toNat with
  | 0x40 => do
    let d ← Opd.ofCode r.d
    let a ← Opd.ofCode r.a
    let b ← Opd.ofCode r.b
    unused r.c
    ezero (r.e.extractLsb' 4 4)
    .ok (.hadd2 r.q d a b (Rm.ofCode (r.e.extractLsb' 0 2)) (r.e.getLsbD 2) (r.e.getLsbD 3))
  | 0x41 => do
    let d ← Opd.ofCode r.d
    let a ← Opd.ofCode r.a
    let b ← Opd.ofCode r.b
    unused r.c
    ezero (r.e.extractLsb' 4 4)
    .ok (.hmul2 r.q d a b (Rm.ofCode (r.e.extractLsb' 0 2)) (r.e.getLsbD 2) (r.e.getLsbD 3))
  | 0x42 => do
    let d ← Opd.ofCode r.d
    let a ← Opd.ofCode r.a
    let b ← Opd.ofCode r.b
    let c ← Opd.ofCode r.c
    ezero (r.e.extractLsb' 5 3)
    .ok (.hfma2 r.q d a b c (Rm.ofCode (r.e.extractLsb' 0 2)) (r.e.getLsbD 2) (r.e.getLsbD 3) (r.e.getLsbD 4))
  | 0x43 => do
    let d ← Opd.ofCode r.d
    let a ← Opd.ofCode r.a
    let b ← Opd.ofCode r.b
    unused r.c
    ezero (r.e.extractLsb' 0 2)
    ezero (r.e.extractLsb' 3 5)
    .ok (.hmin2 r.q d a b (r.e.getLsbD 2))
  | 0x44 => do
    let d ← Opd.ofCode r.d
    let a ← Opd.ofCode r.a
    let b ← Opd.ofCode r.b
    unused r.c
    ezero (r.e.extractLsb' 0 2)
    ezero (r.e.extractLsb' 3 5)
    .ok (.hmax2 r.q d a b (r.e.getLsbD 2))
  | 0x45 => do
    let d ← Opd.ofCode r.d
    let a ← Opd.ofCode r.a
    let b ← Opd.ofCode r.b
    let c ← Opd.ofCode r.c
    ezero (r.e.extractLsb' 3 5)
    .ok (.hdot2 r.q d a b c (Rm.ofCode (r.e.extractLsb' 0 2)) (r.e.getLsbD 2))
  | 0x46 => do
    let d ← Opd.ofCode r.d
    let a ← Opd.ofCode r.a
    unused r.b
    unused r.c
    .ok (.cvt r.q d a (r.e.extractLsb' 0 2) (r.e.extractLsb' 2 2) (Rm.ofCode (r.e.extractLsb' 4 2)) (r.e.extractLsb' 6 2))
  | 0x47 => do
    let d ← Opd.ofCode r.d
    let a ← Opd.ofCode r.a
    let b ← Opd.ofCode r.b
    unused r.c
    ezero (r.e.extractLsb' 3 5)
    .ok (.cvtpk r.q d a b (Rm.ofCode (r.e.extractLsb' 0 2)) (r.e.getLsbD 2))
  | 0x48 => do
    let d ← Opd.ofCode r.d
    let a ← Opd.ofCode r.a
    unused r.b
    unused r.c
    ezero (r.e.extractLsb' 3 5)
    .ok (.cvtx4 r.q d a (r.e.getLsbD 0) (r.e.getLsbD 1) (r.e.getLsbD 2))
  | 0x49 => do
    let d ← Opd.ofCode r.d
    let a ← Opd.ofCode r.a
    let b ← Opd.ofCode r.b
    let c ← Opd.ofCode r.c
    ezero (r.e.extractLsb' 1 7)
    .ok (.qdt r.q d a b c (r.e.getLsbD 0))
  | 0x4A => do
    let d ← Opd.ofCode r.d
    let a ← Opd.ofCode r.a
    let b ← Opd.ofCode r.b
    unused r.c
    ezero (r.e.extractLsb' 4 4)
    .ok (.dqdt r.q d a b (r.e.getLsbD 0) (r.e.getLsbD 1) (Rm.ofCode (r.e.extractLsb' 2 2)))
  | _ => .error .reservedOp

/-- The entries of opcodes 0x50 to 0x5F. -/
def decodeOps5 (r : Raw) : Except DecodeError Instr :=
  match r.op.toNat with
  | 0x50 => do
    let d ← Opd.ofCode r.d
    let a ← Opd.ofCode r.a
    unused r.b
    unused r.c
    ezero r.e
    .ok (.rcp r.q d a)
  | 0x51 => do
    let d ← Opd.ofCode r.d
    let a ← Opd.ofCode r.a
    unused r.b
    unused r.c
    ezero r.e
    .ok (.rsq r.q d a)
  | 0x52 => do
    let d ← Opd.ofCode r.d
    let a ← Opd.ofCode r.a
    unused r.b
    unused r.c
    ezero r.e
    .ok (.sqrt r.q d a)
  | 0x53 => do
    let d ← Opd.ofCode r.d
    let a ← Opd.ofCode r.a
    unused r.b
    unused r.c
    ezero r.e
    .ok (.ex2 r.q d a)
  | 0x54 => do
    let d ← Opd.ofCode r.d
    let a ← Opd.ofCode r.a
    unused r.b
    unused r.c
    ezero r.e
    .ok (.lg2 r.q d a)
  | 0x55 => do
    let d ← Opd.ofCode r.d
    let a ← Opd.ofCode r.a
    unused r.b
    unused r.c
    ezero r.e
    .ok (.sint r.q d a)
  | 0x56 => do
    let d ← Opd.ofCode r.d
    let a ← Opd.ofCode r.a
    unused r.b
    unused r.c
    ezero r.e
    .ok (.cost r.q d a)
  | 0x57 => do
    let d ← Opd.ofCode r.d
    let a ← Opd.ofCode r.a
    let b ← Opd.ofCode r.b
    unused r.c
    ezero (r.e.extractLsb' 1 7)
    .ok (.phadd r.q d a b (r.e.getLsbD 0))
  | 0x58 => do
    let d ← Opd.ofCode r.d
    let a ← Opd.ofCode r.a
    let b ← Opd.ofCode r.b
    unused r.c
    ezero (r.e.extractLsb' 1 7)
    .ok (.phsub r.q d a b (r.e.getLsbD 0))
  | 0x59 => do
    let a ← Opd.ofCode r.a
    let b ← Opd.ofCode r.b
    unused r.c
    ezero r.e
    .ok (.phcmp r.q (r.d.extractLsb' 0 4) (r.d.extractLsb' 4 4) a b)
  | 0x5A => do
    let d ← Opd.ofCode r.d
    let a ← Opd.ofCode r.a
    unused r.b
    unused r.c
    ezero (r.e.extractLsb' 2 6)
    .ok (.phfrom r.q d a (Rm.ofCode (r.e.extractLsb' 0 2)))
  | 0x5B => do
    let d ← Opd.ofCode r.d
    let a ← Opd.ofCode r.a
    unused r.b
    unused r.c
    ezero r.e
    .ok (.phsc r.q d a)
  | 0x5C => do
    let d ← Opd.ofCode r.d
    let a ← Opd.ofCode r.a
    let b ← Opd.ofCode r.b
    let c ← Opd.ofCode r.c
    ezero r.e
    .ok (.phcoh r.q d a b c)
  | _ => .error .reservedOp

/-- The entries of opcodes 0x60 to 0x7F. -/
def decodeOps6 (r : Raw) : Except DecodeError Instr :=
  match r.op.toNat with
  | 0x60 => do
    unused r.d
    unused r.a
    .ok (.bra r.q (r.b ++ r.c ++ r.e))
  | 0x61 => do
    unused r.d
    let a ← Opd.ofCode r.a
    unused r.b
    unused r.c
    ezero r.e
    .ok (.brx r.q a)
  | 0x62 => do
    let d ← Opd.ofCode r.d
    unused r.a
    .ok (.call r.q d (r.b ++ r.c ++ r.e))
  | 0x63 => do
    let d ← Opd.ofCode r.d
    let a ← Opd.ofCode r.a
    unused r.b
    unused r.c
    ezero r.e
    .ok (.callx r.q d a)
  | 0x64 => do
    unused r.d
    let a ← Opd.ofCode r.a
    unused r.b
    unused r.c
    ezero r.e
    .ok (.ret r.q a)
  | 0x65 => do
    unused r.d
    unused r.a
    unused r.b
    unused r.c
    ezero r.e
    .ok (.exit r.q)
  | 0x66 => do
    unused r.d
    let a ← Opd.ofCode r.a
    let b ← Opd.ofCode r.b
    let c ← Opd.ofCode r.c
    ezero (r.e.extractLsb' 4 4)
    .ok (.spawn r.q a b c (r.e.extractLsb' 0 4))
  | 0x67 => do
    unused r.d
    unused r.a
    unused r.b
    unused r.c
    ezero r.e
    .ok (.wconv r.q)
  | 0x68 => do
    unused r.d
    unused r.a
    unused r.b
    unused r.c
    .ok (.yield r.q r.e)
  | 0x70 => do
    let d ← Opd.ofCode r.d
    let a ← Opd.ofCode r.a
    let b ← Opd.ofCode r.b
    let c ← Opd.ofCode r.c
    ezero (r.e.extractLsb' 6 2)
    .ok (.shfl r.q d a b c (r.e.extractLsb' 0 2) (r.e.extractLsb' 2 4))
  | 0x71 => do
    let d ← Opd.ofCode r.d
    unused r.a
    unused r.b
    unused r.c
    .ok (.vote r.q d (r.e.extractLsb' 0 4) (r.e.getLsbD 4) (r.e.extractLsb' 5 3))
  | 0x72 => do
    let d ← Opd.ofCode r.d
    let a ← Opd.ofCode r.a
    unused r.b
    unused r.c
    ezero (r.e.extractLsb' 4 4)
    .ok (.wred r.q d a (r.e.extractLsb' 0 4))
  | 0x73 => do
    let d ← Opd.ofCode r.d
    let a ← Opd.ofCode r.a
    unused r.b
    unused r.c
    ezero (r.e.extractLsb' 5 3)
    .ok (.wscan r.q d a (r.e.extractLsb' 0 4) (r.e.getLsbD 4))
  | 0x74 => do
    let d ← Opd.ofCode r.d
    let a ← Opd.ofCode r.a
    unused r.b
    unused r.c
    ezero (r.e.extractLsb' 3 5)
    .ok (.wmatch r.q d a (r.e.getLsbD 0) (r.e.extractLsb' 1 2))
  | 0x75 => do
    let d ← Opd.ofCode r.d
    unused r.a
    unused r.b
    unused r.c
    ezero r.e
    .ok (.wlive r.q d)
  | _ => .error .reservedOp

/-- The entries of opcodes 0x80 to 0x9F. -/
def decodeOps8 (r : Raw) : Except DecodeError Instr :=
  match r.op.toNat with
  | 0x80 => do
    let d ← Opd.ofCode r.d
    let a ← Opd.ofCode r.a
    ezero (r.e.extractLsb' 6 2)
    .ok (.ld r.q d a (r.b ++ r.c) (r.e.extractLsb' 0 3) (r.e.extractLsb' 3 2) (r.e.getLsbD 5))
  | 0x81 => do
    let d ← Opd.ofCode r.d
    let a ← Opd.ofCode r.a
    ezero (r.e.extractLsb' 3 2)
    ezero (r.e.extractLsb' 6 2)
    .ok (.st r.q d a (r.b ++ r.c) (r.e.extractLsb' 0 3) (r.e.getLsbD 5))
  | 0x82 => do
    let d ← Opd.ofCode r.d
    let a ← Opd.ofCode r.a
    let b ← Opd.ofCode r.b
    unused r.c
    ezero (r.e.extractLsb' 7 1)
    .ok (.ldx r.q d a b (r.e.extractLsb' 0 3) (r.e.extractLsb' 3 2) (r.e.getLsbD 5) (r.e.getLsbD 6))
  | 0x83 => do
    let d ← Opd.ofCode r.d
    let a ← Opd.ofCode r.a
    let b ← Opd.ofCode r.b
    unused r.c
    ezero (r.e.extractLsb' 3 2)
    ezero (r.e.extractLsb' 7 1)
    .ok (.stx r.q d a b (r.e.extractLsb' 0 3) (r.e.getLsbD 5) (r.e.getLsbD 6))
  | 0x84 => do
    let d ← Opd.ofCode r.d
    let a ← Opd.ofCode r.a
    ezero (r.e.extractLsb' 6 2)
    .ok (.lds r.q d a (r.b ++ r.c) (r.e.extractLsb' 0 3) (r.e.extractLsb' 3 2) (r.e.getLsbD 5))
  | 0x85 => do
    let d ← Opd.ofCode r.d
    let a ← Opd.ofCode r.a
    ezero (r.e.extractLsb' 6 2)
    .ok (.sts r.q d a (r.b ++ r.c) (r.e.extractLsb' 0 3) (r.e.extractLsb' 3 2) (r.e.getLsbD 5))
  | 0x86 => do
    unused r.d
    let a ← Opd.ofCode r.a
    ezero (r.e.extractLsb' 0 3)
    ezero (r.e.extractLsb' 5 1)
    ezero (r.e.extractLsb' 7 1)
    .ok (.pfl r.q a (r.b ++ r.c) (r.e.extractLsb' 3 2) (r.e.getLsbD 6))
  | 0x90 => do
    let d ← Opd.ofCode r.d
    let a ← Opd.ofCode r.a
    let b ← Opd.ofCode r.b
    unused r.c
    ezero (r.e.extractLsb' 7 1)
    .ok (.atom r.q d a b (r.e.extractLsb' 0 4) (r.e.getLsbD 4) (r.e.extractLsb' 5 2))
  | 0x91 => do
    let d ← Opd.ofCode r.d
    let a ← Opd.ofCode r.a
    let b ← Opd.ofCode r.b
    let c ← Opd.ofCode r.c
    ezero (r.e.extractLsb' 0 4)
    ezero (r.e.extractLsb' 7 1)
    .ok (.acas r.q d a b c (r.e.getLsbD 4) (r.e.extractLsb' 5 2))
  | 0x92 => do
    unused r.d
    let a ← Opd.ofCode r.a
    let b ← Opd.ofCode r.b
    unused r.c
    .ok (.red r.q a b (r.e.extractLsb' 0 4) (r.e.getLsbD 4) (r.e.getLsbD 5) (r.e.extractLsb' 6 2))
  | 0x93 => do
    unused r.d
    unused r.a
    unused r.b
    unused r.c
    ezero (r.e.extractLsb' 4 4)
    .ok (.fence r.q (r.e.extractLsb' 0 2) (r.e.extractLsb' 2 2))
  | 0x94 => do
    unused r.d
    let a ← Opd.ofCode r.a
    let b ← Opd.ofCode r.b
    unused r.c
    ezero (r.e.extractLsb' 1 7)
    .ok (.cwb r.q a b (r.e.getLsbD 0))
  | 0x95 => do
    unused r.d
    let a ← Opd.ofCode r.a
    let b ← Opd.ofCode r.b
    unused r.c
    ezero (r.e.extractLsb' 1 7)
    .ok (.cinv r.q a b (r.e.getLsbD 0))
  | _ => .error .reservedOp

/-- The entries of opcodes 0xA0 to 0xBF. -/
def decodeOpsA (r : Raw) : Except DecodeError Instr :=
  match r.op.toNat with
  | 0xA0 => do
    unused r.d
    let a ← Opd.ofCode r.a
    let b ← Opd.ofCode r.b
    unused r.c
    ezero (r.e.extractLsb' 1 7)
    .ok (.tagset r.q a b (r.e.getLsbD 0))
  | 0xA1 => do
    let d ← Opd.ofCode r.d
    let a ← Opd.ofCode r.a
    unused r.b
    unused r.c
    ezero r.e
    .ok (.tagrd r.q d a)
  | 0xA2 => do
    unused r.d
    let a ← Opd.ofCode r.a
    let b ← Opd.ofCode r.b
    unused r.c
    ezero (r.e.extractLsb' 1 7)
    .ok (.awinit r.q a b (r.e.getLsbD 0))
  | 0xA3 => do
    unused r.d
    let a ← Opd.ofCode r.a
    let b ← Opd.ofCode r.b
    unused r.c
    ezero r.e
    .ok (.awadd r.q a b)
  | 0xA4 => do
    let d ← Opd.ofCode r.d
    let a ← Opd.ofCode r.a
    let b ← Opd.ofCode r.b
    unused r.c
    ezero r.e
    .ok (.await r.q d a b)
  | 0xA5 => do
    let d ← Opd.ofCode r.d
    let a ← Opd.ofCode r.a
    let b ← Opd.ofCode r.b
    let c ← Opd.ofCode r.c
    ezero (r.e.extractLsb' 2 6)
    .ok (.cpy r.q d a b c (r.e.extractLsb' 0 2))
  | 0xA6 => do
    let d ← Opd.ofCode r.d
    let a ← Opd.ofCode r.a
    let b ← Opd.ofCode r.b
    let c ← Opd.ofCode r.c
    ezero (r.e.extractLsb' 2 6)
    .ok (.cpyn r.q d a b c (r.e.extractLsb' 0 2))
  | 0xA7 => do
    let d ← Opd.ofCode r.d
    let a ← Opd.ofCode r.a
    let b ← Opd.ofCode r.b
    let c ← Opd.ofCode r.c
    ezero (r.e.extractLsb' 1 7)
    .ok (.cpyx r.q d a b c (r.e.getLsbD 0))
  | 0xA8 => do
    let d ← Opd.ofCode r.d
    let a ← Opd.ofCode r.a
    let b ← Opd.ofCode r.b
    let c ← Opd.ofCode r.c
    ezero (r.e.extractLsb' 1 7)
    .ok (.cpyp r.q d a b c (r.e.getLsbD 0))
  | 0xA9 => do
    let d ← Opd.ofCode r.d
    let a ← Opd.ofCode r.a
    let b ← Opd.ofCode r.b
    let c ← Opd.ofCode r.c
    ezero (r.e.extractLsb' 3 5)
    .ok (.gath r.q d a b c (r.e.extractLsb' 0 3))
  | 0xAA => do
    let d ← Opd.ofCode r.d
    let a ← Opd.ofCode r.a
    let b ← Opd.ofCode r.b
    let c ← Opd.ofCode r.c
    ezero (r.e.extractLsb' 3 5)
    .ok (.scat r.q d a b c (r.e.extractLsb' 0 3))
  | 0xB0 => do
    let d ← Opd.ofCode r.d
    let a ← Opd.ofCode r.a
    unused r.b
    unused r.c
    ezero (r.e.extractLsb' 5 3)
    .ok (.cvsign r.q d a (r.e.extractLsb' 0 4) (r.e.getLsbD 4))
  | 0xB1 => do
    unused r.d
    let a ← Opd.ofCode r.a
    unused r.b
    unused r.c
    ezero (r.e.extractLsb' 4 4)
    .ok (.cvwait r.q a (r.e.extractLsb' 0 4))
  | 0xB2 => do
    unused r.d
    unused r.a
    unused r.b
    unused r.c
    ezero (r.e.extractLsb' 4 4)
    .ok (.cvrst r.q (r.e.extractLsb' 0 4))
  | 0xB3 => do
    unused r.d
    unused r.a
    ezero r.e
    .ok (.waitc r.q (r.b.extractLsb' 4 4) (r.b.extractLsb' 0 4) (r.c.extractLsb' 4 4) (r.c.extractLsb' 0 4))
  | 0xB4 => do
    unused r.d
    let a ← Opd.ofCode r.a
    let b ← Opd.ofCode r.b
    let c ← Opd.ofCode r.c
    ezero (r.e.extractLsb' 2 6)
    .ok (.mwait r.q a b c (r.e.getLsbD 0) (r.e.getLsbD 1))
  | 0xB5 => do
    unused r.d
    let a ← Opd.ofCode r.a
    unused r.b
    unused r.c
    ezero r.e
    .ok (.park r.q a)
  | _ => .error .reservedOp

/-- The entries of opcodes 0xC0 to 0xDF. -/
def decodeOpsC (r : Raw) : Except DecodeError Instr :=
  match r.op.toNat with
  | 0xC0 => do
    let d ← Opd.ofCode r.d
    let a ← Opd.ofCode r.a
    let b ← Opd.ofCode r.b
    unused r.c
    ezero (r.e.extractLsb' 5 3)
    .ok (.thal r.q d a b (r.e.getLsbD 0) (r.e.extractLsb' 1 4))
  | 0xC1 => do
    unused r.d
    let a ← Opd.ofCode r.a
    unused r.b
    unused r.c
    ezero r.e
    .ok (.threl r.q a)
  | 0xC2 => do
    unused r.d
    let a ← Opd.ofCode r.a
    let b ← Opd.ofCode r.b
    unused r.c
    ezero r.e
    .ok (.thgive r.q a b)
  | 0xC3 => do
    let d ← Opd.ofCode r.d
    let a ← Opd.ofCode r.a
    unused r.b
    unused r.c
    ezero r.e
    .ok (.thinfo r.q d a)
  | 0xC4 => do
    let d ← Opd.ofCode r.d
    let a ← Opd.ofCode r.a
    let b ← Opd.ofCode r.b
    unused r.c
    ezero (r.e.extractLsb' 1 7)
    .ok (.cpyt r.q d a b (r.e.getLsbD 0))
  | 0xC5 => do
    let d ← Opd.ofCode r.d
    let a ← Opd.ofCode r.a
    let b ← Opd.ofCode r.b
    unused r.c
    ezero (r.e.extractLsb' 1 7)
    .ok (.thst r.q d a b (r.e.getLsbD 0))
  | 0xC6 => do
    unused r.d
    let a ← Opd.ofCode r.a
    let b ← Opd.ofCode r.b
    unused r.c
    ezero r.e
    .ok (.accz r.q a b)
  | 0xC7 => do
    let d ← Opd.ofCode r.d
    let a ← Opd.ofCode r.a
    let b ← Opd.ofCode r.b
    let c ← Opd.ofCode r.c
    ezero (r.e.extractLsb' 1 7)
    .ok (.accld r.q d a b c (r.e.getLsbD 0))
  | 0xC8 => do
    let d ← Opd.ofCode r.d
    let a ← Opd.ofCode r.a
    let b ← Opd.ofCode r.b
    let c ← Opd.ofCode r.c
    ezero (r.e.extractLsb' 2 6)
    .ok (.accst r.q d a b c (r.e.getLsbD 0) (r.e.getLsbD 1))
  | 0xC9 => do
    let d ← Opd.ofCode r.d
    let a ← Opd.ofCode r.a
    unused r.b
    unused r.c
    ezero (r.e.extractLsb' 2 6)
    .ok (.accrd r.q d a (r.e.extractLsb' 0 2))
  | 0xD0 => do
    fzero (r.d.extractLsb' 4 4)
    let a ← Opd.ofCode r.a
    let b ← Opd.ofCode r.b
    let c ← Opd.ofCode r.c
    ezero (r.e.extractLsb' 1 7)
    .ok (.mma r.q (r.d.extractLsb' 0 4) a b c (r.e.getLsbD 0))
  | 0xD1 => do
    fzero (r.d.extractLsb' 4 4)
    let a ← Opd.ofCode r.a
    let b ← Opd.ofCode r.b
    let c ← Opd.ofCode r.c
    ezero (r.e.extractLsb' 3 5)
    .ok (.mmal r.q (r.d.extractLsb' 0 4) a b c (r.e.getLsbD 0) (r.e.extractLsb' 1 2))
  | 0xD2 => do
    fzero (r.d.extractLsb' 4 4)
    let a ← Opd.ofCode r.a
    let b ← Opd.ofCode r.b
    let c ← Opd.ofCode r.c
    ezero (r.e.extractLsb' 1 7)
    .ok (.phmma r.q (r.d.extractLsb' 0 4) a b c (r.e.getLsbD 0))
  | 0xD3 => do
    let d ← Opd.ofCode r.d
    let a ← Opd.ofCode r.a
    let b ← Opd.ofCode r.b
    let c ← Opd.ofCode r.c
    ezero (r.e.extractLsb' 1 7)
    .ok (.phfin r.q d a b c (r.e.getLsbD 0))
  | 0xD4 => do
    let d ← Opd.ofCode r.d
    let a ← Opd.ofCode r.a
    let b ← Opd.ofCode r.b
    let c ← Opd.ofCode r.c
    ezero (r.e.extractLsb' 6 2)
    .ok (.qnt r.q d a b c (r.e.extractLsb' 0 2) (r.e.extractLsb' 2 2) (r.e.getLsbD 4) (r.e.getLsbD 5))
  | _ => .error .reservedOp

/-- The entries of opcodes 0xE0 to 0xFF. -/
def decodeOpsE (r : Raw) : Except DecodeError Instr :=
  match r.op.toNat with
  | 0xE0 => do
    let d ← Opd.ofCode r.d
    let a ← Opd.ofCode r.a
    unused r.b
    unused r.c
    ezero (r.e.extractLsb' 5 3)
    .ok (.qopen r.q d a (r.e.getLsbD 0) (r.e.extractLsb' 1 4))
  | 0xE1 => do
    let d ← Opd.ofCode r.d
    let a ← Opd.ofCode r.a
    let b ← Opd.ofCode r.b
    unused r.c
    ezero (r.e.extractLsb' 5 3)
    .ok (.qrsv r.q d a b (r.e.getLsbD 0) (r.e.extractLsb' 1 4))
  | 0xE2 => do
    let d ← Opd.ofCode r.d
    let a ← Opd.ofCode r.a
    let b ← Opd.ofCode r.b
    unused r.c
    .ok (.qput r.q d a b (r.e.getLsbD 5) (r.e.extractLsb' 6 2) (r.e.getLsbD 0) (r.e.extractLsb' 1 4))
  | 0xE3 => do
    let d ← Opd.ofCode r.d
    let a ← Opd.ofCode r.a
    let b ← Opd.ofCode r.b
    let c ← Opd.ofCode r.c
    ezero (r.e.extractLsb' 6 2)
    .ok (.qputs r.q d a b c (r.e.getLsbD 5) (r.e.getLsbD 0) (r.e.extractLsb' 1 4))
  | 0xE4 => do
    let d ← Opd.ofCode r.d
    let a ← Opd.ofCode r.a
    unused r.b
    unused r.c
    .ok (.qtake r.q d a (r.e.getLsbD 5) (r.e.extractLsb' 6 2) (r.e.getLsbD 0) (r.e.extractLsb' 1 4))
  | 0xE5 => do
    let d ← Opd.ofCode r.d
    let a ← Opd.ofCode r.a
    let b ← Opd.ofCode r.b
    let c ← Opd.ofCode r.c
    ezero (r.e.extractLsb' 6 2)
    .ok (.qtakes r.q d a b c (r.e.getLsbD 5) (r.e.getLsbD 0) (r.e.extractLsb' 1 4))
  | 0xE6 => do
    let d ← Opd.ofCode r.d
    let a ← Opd.ofCode r.a
    unused r.b
    unused r.c
    ezero (r.e.extractLsb' 5 3)
    .ok (.qpeek r.q d a (r.e.getLsbD 0) (r.e.extractLsb' 1 4))
  | 0xE7 => do
    unused r.d
    let a ← Opd.ofCode r.a
    unused r.b
    unused r.c
    ezero (r.e.extractLsb' 5 3)
    .ok (.qwait r.q a (r.e.getLsbD 0) (r.e.extractLsb' 1 4))
  | 0xE8 => do
    unused r.d
    let a ← Opd.ofCode r.a
    unused r.b
    unused r.c
    ezero (r.e.extractLsb' 5 3)
    .ok (.qreset r.q a (r.e.getLsbD 0) (r.e.extractLsb' 1 4))
  | 0xE9 => do
    unused r.d
    let a ← Opd.ofCode r.a
    unused r.b
    unused r.c
    ezero (r.e.extractLsb' 5 3)
    .ok (.qclose r.q a (r.e.getLsbD 0) (r.e.extractLsb' 1 4))
  | 0xEA => do
    unused r.d
    let a ← Opd.ofCode r.a
    let b ← Opd.ofCode r.b
    unused r.c
    ezero (r.e.extractLsb' 5 3)
    .ok (.launch r.q a b (r.e.getLsbD 0) (r.e.extractLsb' 1 4))
  | 0xEB => do
    unused r.d
    let a ← Opd.ofCode r.a
    let b ← Opd.ofCode r.b
    unused r.c
    .ok (.signal r.q a b (r.e.extractLsb' 5 2) (r.e.getLsbD 7) (r.e.getLsbD 0) (r.e.extractLsb' 1 4))
  | 0xF0 => do
    unused r.d
    unused r.a
    unused r.b
    unused r.c
    .ok (.trap r.q r.e)
  | 0xF1 => do
    unused r.d
    unused r.a
    unused r.b
    unused r.c
    ezero r.e
    .ok (.rth r.q)
  | 0xF2 => do
    let d ← Opd.ofCode r.d
    unused r.a
    unused r.b
    unused r.c
    .ok (.sread r.q d r.e)
  | 0xF3 => do
    unused r.d
    let a ← Opd.ofCode r.a
    unused r.b
    unused r.c
    .ok (.swrite r.q r.e a)
  | 0xF4 => do
    unused r.d
    unused r.a
    fzero ((r.b ++ r.c ++ r.e).extractLsb' 10 14)
    .ok (.yieldpt r.q ((r.b ++ r.c ++ r.e).extractLsb' 0 10))
  | 0xF5 => do
    unused r.d
    unused r.a
    unused r.b
    unused r.c
    .ok (.bkpt r.q r.e)
  | 0xF6 => do
    let d ← Opd.ofCode r.d
    let a ← Opd.ofCode r.a
    unused r.b
    unused r.c
    .ok (.ecall r.q d a r.e)
  | _ => .error .reservedOp

/-- The instruction of a split word (R87): header values are refused apart from reserved ones. -/
def Raw.toInstr (r : Raw) : Except DecodeError Instr :=
  let op := r.op.toNat
  if 0xF8 ≤ op ∧ op ≤ 0xFB then .error .headerOp
  else if op < 0x20 then decodeOps0 r
  else if op < 0x30 then decodeOps2 r
  else if op < 0x40 then decodeOps3 r
  else if op < 0x50 then decodeOps4 r
  else if op < 0x60 then decodeOps5 r
  else if op < 0x80 then decodeOps6 r
  else if op < 0xA0 then decodeOps8 r
  else if op < 0xC0 then decodeOpsA r
  else if op < 0xE0 then decodeOpsC r
  else decodeOpsE r

/-- Decode a word: split it, read its entry's fields, and check that the entry allows them. A word that an entry's own limit refuses
raises ILLOP whatever its guard, as R73 has it for R71, R72, R74, R75 and R87. Mark: DESIGN CHOICE (logs 71, 86). -/
def decodeWord (w : W64) : Except DecodeError Instr :=
  match (Raw.unpack w).toInstr with
  | .ok i => if wellFormed i then .ok i else .error .illFormed
  | .error x => .error x

/-- The fields of an instruction's word; a step that has no word has none. -/
def Instr.toRaw : Instr → Option Raw
  | .nop q => some ⟨0x00, q, 0xFF, 0xFF, 0xFF, 0xFF, 0⟩
  | .mov q d a wide => some ⟨0x01, q, d.code, a.code, 0xFF, 0xFF, ((0 : BitVec 7) ++ BitVec.ofBool wide)⟩
  | .movi q d imm => some ⟨0x02, q, d.code, 0xFF, imm.extractLsb' 16 8, imm.extractLsb' 8 8, imm.extractLsb' 0 8⟩
  | .movk q d imm => some ⟨0x03, q, d.code, imm.extractLsb' 24 8, imm.extractLsb' 16 8, imm.extractLsb' 8 8, imm.extractLsb' 0 8⟩
  | .iadd q d a b sat => some ⟨0x04, q, d.code, a.code, b.code, 0xFF, ((0 : BitVec 6) ++ sat)⟩
  | .isub q d a b sat => some ⟨0x05, q, d.code, a.code, b.code, 0xFF, ((0 : BitVec 6) ++ sat)⟩
  | .iaddi q d a imm => some ⟨0x06, q, d.code, a.code, imm.extractLsb' 16 8, imm.extractLsb' 8 8, imm.extractLsb' 0 8⟩
  | .imul q d a b => some ⟨0x07, q, d.code, a.code, b.code, 0xFF, 0⟩
  | .imulh q d a b ty => some ⟨0x08, q, d.code, a.code, b.code, 0xFF, ((0 : BitVec 6) ++ ty)⟩
  | .imad q d a b c => some ⟨0x09, q, d.code, a.code, b.code, c.code, 0⟩
  | .imadw q d a b c ty => some ⟨0x0A, q, d.code, a.code, b.code, c.code, ((0 : BitVec 6) ++ ty)⟩
  | .idiv q d a b uns => some ⟨0x0B, q, d.code, a.code, b.code, 0xFF, ((0 : BitVec 7) ++ BitVec.ofBool uns)⟩
  | .irem q d a b uns => some ⟨0x0C, q, d.code, a.code, b.code, 0xFF, ((0 : BitVec 7) ++ BitVec.ofBool uns)⟩
  | .imin q d a b uns => some ⟨0x0D, q, d.code, a.code, b.code, 0xFF, ((0 : BitVec 7) ++ BitVec.ofBool uns)⟩
  | .imax q d a b uns => some ⟨0x0E, q, d.code, a.code, b.code, 0xFF, ((0 : BitVec 7) ++ BitVec.ofBool uns)⟩
  | .iabs q d a sat => some ⟨0x0F, q, d.code, a.code, 0xFF, 0xFF, ((0 : BitVec 7) ++ BitVec.ofBool sat)⟩
  | .ineg q d a sat => some ⟨0x10, q, d.code, a.code, 0xFF, 0xFF, ((0 : BitVec 7) ++ BitVec.ofBool sat)⟩
  | .shl q d a b => some ⟨0x11, q, d.code, a.code, b.code, 0xFF, 0⟩
  | .shr q d a b ar => some ⟨0x12, q, d.code, a.code, b.code, 0xFF, ((0 : BitVec 7) ++ BitVec.ofBool ar)⟩
  | .rot q d a b right => some ⟨0x13, q, d.code, a.code, b.code, 0xFF, ((0 : BitVec 7) ++ BitVec.ofBool right)⟩
  | .iadd64 q d a b => some ⟨0x14, q, d.code, a.code, b.code, 0xFF, 0⟩
  | .isub64 q d a b => some ⟨0x15, q, d.code, a.code, b.code, 0xFF, 0⟩
  | .shl64 q d a b => some ⟨0x16, q, d.code, a.code, b.code, 0xFF, 0⟩
  | .shr64 q d a b ar => some ⟨0x17, q, d.code, a.code, b.code, 0xFF, ((0 : BitVec 7) ++ BitVec.ofBool ar)⟩
  | .lop3 q d a b c lut => some ⟨0x18, q, d.code, a.code, b.code, c.code, lut⟩
  | .bfx q d a b sx => some ⟨0x19, q, d.code, a.code, b.code, 0xFF, ((0 : BitVec 7) ++ BitVec.ofBool sx)⟩
  | .bfi q d a b c => some ⟨0x1A, q, d.code, a.code, b.code, c.code, 0⟩
  | .brev q d a => some ⟨0x1B, q, d.code, a.code, 0xFF, 0xFF, 0⟩
  | .popc q d a => some ⟨0x1C, q, d.code, a.code, 0xFF, 0xFF, 0⟩
  | .clz q d a => some ⟨0x1D, q, d.code, a.code, 0xFF, 0xFF, 0⟩
  | .ctz q d a => some ⟨0x1E, q, d.code, a.code, 0xFF, 0xFF, 0⟩
  | .prmt q d a b c => some ⟨0x1F, q, d.code, a.code, b.code, c.code, 0⟩
  | .icmp q pd pq a b cc uns w64 => some ⟨0x20, q, (pq ++ pd), a.code, b.code, 0xFF, ((0 : BitVec 3) ++ BitVec.ofBool w64 ++ BitVec.ofBool uns ++ cc)⟩
  | .icmpi q pd pq a imm cc uns w64 => some ⟨0x21, q, (pq ++ pd), a.code, imm.extractLsb' 8 8, imm.extractLsb' 0 8, ((0 : BitVec 3) ++ BitVec.ofBool w64 ++ BitVec.ofBool uns ++ cc)⟩
  | .fcmp q pd pq a b cc => some ⟨0x22, q, (pq ++ pd), a.code, b.code, 0xFF, ((0 : BitVec 5) ++ cc)⟩
  | .hcmp2 q plo phi a b cc bf => some ⟨0x23, q, (phi ++ plo), a.code, b.code, 0xFF, ((0 : BitVec 4) ++ BitVec.ofBool bf ++ cc)⟩
  | .plop3 q pd pq pa pb pc lut => some ⟨0x24, q, (pq ++ pd), ((0 : BitVec 4) ++ pa), ((0 : BitVec 4) ++ pb), ((0 : BitVec 4) ++ pc), lut⟩
  | .sel q d a b ps ns wide => some ⟨0x25, q, d.code, a.code, b.code, 0xFF, ((0 : BitVec 2) ++ BitVec.ofBool wide ++ BitVec.ofBool ns ++ ps)⟩
  | .ptog q d => some ⟨0x26, q, d.code, 0xFF, 0xFF, 0xFF, 0⟩
  | .gtop q a b => some ⟨0x27, q, 0xFF, a.code, b.code, 0xFF, 0⟩
  | .fadd q d a b rm na nb sat => some ⟨0x30, q, d.code, a.code, b.code, 0xFF, ((0 : BitVec 3) ++ BitVec.ofBool sat ++ BitVec.ofBool nb ++ BitVec.ofBool na ++ rm.code)⟩
  | .fsub q d a b rm na nb sat => some ⟨0x31, q, d.code, a.code, b.code, 0xFF, ((0 : BitVec 3) ++ BitVec.ofBool sat ++ BitVec.ofBool nb ++ BitVec.ofBool na ++ rm.code)⟩
  | .fmul q d a b rm na nb sat => some ⟨0x32, q, d.code, a.code, b.code, 0xFF, ((0 : BitVec 3) ++ BitVec.ofBool sat ++ BitVec.ofBool nb ++ BitVec.ofBool na ++ rm.code)⟩
  | .ffma q d a b c rm np nc sat => some ⟨0x33, q, d.code, a.code, b.code, c.code, ((0 : BitVec 3) ++ BitVec.ofBool sat ++ BitVec.ofBool nc ++ BitVec.ofBool np ++ rm.code)⟩
  | .fmin q d a b => some ⟨0x34, q, d.code, a.code, b.code, 0xFF, 0⟩
  | .fmax q d a b => some ⟨0x35, q, d.code, a.code, b.code, 0xFF, 0⟩
  | .fclass q d a fmt => some ⟨0x36, q, d.code, a.code, 0xFF, 0xFF, ((0 : BitVec 6) ++ fmt)⟩
  | .fscale q d a b rm => some ⟨0x37, q, d.code, a.code, b.code, 0xFF, ((0 : BitVec 6) ++ rm.code)⟩
  | .frnd q d a rm exact => some ⟨0x38, q, d.code, a.code, 0xFF, 0xFF, ((0 : BitVec 5) ++ BitVec.ofBool exact ++ rm.code)⟩
  | .f2i q d a rm ty => some ⟨0x39, q, d.code, a.code, 0xFF, 0xFF, ((0 : BitVec 4) ++ ty ++ rm.code)⟩
  | .i2f q d a rm ty => some ⟨0x3A, q, d.code, a.code, 0xFF, 0xFF, ((0 : BitVec 4) ++ ty ++ rm.code)⟩
  | .hadd2 q d a b rm bf nb => some ⟨0x40, q, d.code, a.code, b.code, 0xFF, ((0 : BitVec 4) ++ BitVec.ofBool nb ++ BitVec.ofBool bf ++ rm.code)⟩
  | .hmul2 q d a b rm bf nb => some ⟨0x41, q, d.code, a.code, b.code, 0xFF, ((0 : BitVec 4) ++ BitVec.ofBool nb ++ BitVec.ofBool bf ++ rm.code)⟩
  | .hfma2 q d a b c rm bf nb nc => some ⟨0x42, q, d.code, a.code, b.code, c.code, ((0 : BitVec 3) ++ BitVec.ofBool nc ++ BitVec.ofBool nb ++ BitVec.ofBool bf ++ rm.code)⟩
  | .hmin2 q d a b bf => some ⟨0x43, q, d.code, a.code, b.code, 0xFF, ((0 : BitVec 5) ++ BitVec.ofBool bf ++ (0 : BitVec 2))⟩
  | .hmax2 q d a b bf => some ⟨0x44, q, d.code, a.code, b.code, 0xFF, ((0 : BitVec 5) ++ BitVec.ofBool bf ++ (0 : BitVec 2))⟩
  | .hdot2 q d a b c rm bf => some ⟨0x45, q, d.code, a.code, b.code, c.code, ((0 : BitVec 5) ++ BitVec.ofBool bf ++ rm.code)⟩
  | .cvt q d a srcF dstF rm elt => some ⟨0x46, q, d.code, a.code, 0xFF, 0xFF, (elt ++ rm.code ++ dstF ++ srcF)⟩
  | .cvtpk q d a b rm bf => some ⟨0x47, q, d.code, a.code, b.code, 0xFF, ((0 : BitVec 5) ++ BitVec.ofBool bf ++ rm.code)⟩
  | .cvtx4 q d a narrow i8 bf => some ⟨0x48, q, d.code, a.code, 0xFF, 0xFF, ((0 : BitVec 5) ++ BitVec.ofBool bf ++ BitVec.ofBool i8 ++ BitVec.ofBool narrow)⟩
  | .qdt q d a b c dt6 => some ⟨0x49, q, d.code, a.code, b.code, c.code, ((0 : BitVec 7) ++ BitVec.ofBool dt6)⟩
  | .dqdt q d a b dt6 bf rm => some ⟨0x4A, q, d.code, a.code, b.code, 0xFF, ((0 : BitVec 4) ++ rm.code ++ BitVec.ofBool bf ++ BitVec.ofBool dt6)⟩
  | .rcp q d a => some ⟨0x50, q, d.code, a.code, 0xFF, 0xFF, 0⟩
  | .rsq q d a => some ⟨0x51, q, d.code, a.code, 0xFF, 0xFF, 0⟩
  | .sqrt q d a => some ⟨0x52, q, d.code, a.code, 0xFF, 0xFF, 0⟩
  | .ex2 q d a => some ⟨0x53, q, d.code, a.code, 0xFF, 0xFF, 0⟩
  | .lg2 q d a => some ⟨0x54, q, d.code, a.code, 0xFF, 0xFF, 0⟩
  | .sint q d a => some ⟨0x55, q, d.code, a.code, 0xFF, 0xFF, 0⟩
  | .cost q d a => some ⟨0x56, q, d.code, a.code, 0xFF, 0xFF, 0⟩
  | .phadd q d a b pk => some ⟨0x57, q, d.code, a.code, b.code, 0xFF, ((0 : BitVec 7) ++ BitVec.ofBool pk)⟩
  | .phsub q d a b pk => some ⟨0x58, q, d.code, a.code, b.code, 0xFF, ((0 : BitVec 7) ++ BitVec.ofBool pk)⟩
  | .phcmp q pp po a b => some ⟨0x59, q, (po ++ pp), a.code, b.code, 0xFF, 0⟩
  | .phfrom q d a rm => some ⟨0x5A, q, d.code, a.code, 0xFF, 0xFF, ((0 : BitVec 6) ++ rm.code)⟩
  | .phsc q d a => some ⟨0x5B, q, d.code, a.code, 0xFF, 0xFF, 0⟩
  | .phcoh q d a b c => some ⟨0x5C, q, d.code, a.code, b.code, c.code, 0⟩
  | .bra q imm => some ⟨0x60, q, 0xFF, 0xFF, imm.extractLsb' 16 8, imm.extractLsb' 8 8, imm.extractLsb' 0 8⟩
  | .brx q a => some ⟨0x61, q, 0xFF, a.code, 0xFF, 0xFF, 0⟩
  | .call q d imm => some ⟨0x62, q, d.code, 0xFF, imm.extractLsb' 16 8, imm.extractLsb' 8 8, imm.extractLsb' 0 8⟩
  | .callx q d a => some ⟨0x63, q, d.code, a.code, 0xFF, 0xFF, 0⟩
  | .ret q a => some ⟨0x64, q, 0xFF, a.code, 0xFF, 0xFF, 0⟩
  | .exit q => some ⟨0x65, q, 0xFF, 0xFF, 0xFF, 0xFF, 0⟩
  | .spawn q a b c npay => some ⟨0x66, q, 0xFF, a.code, b.code, c.code, ((0 : BitVec 4) ++ npay)⟩
  | .wconv q => some ⟨0x67, q, 0xFF, 0xFF, 0xFF, 0xFF, 0⟩
  | .yield q dly => some ⟨0x68, q, 0xFF, 0xFF, 0xFF, 0xFF, dly⟩
  | .shfl q d a b c mode pv => some ⟨0x70, q, d.code, a.code, b.code, c.code, ((0 : BitVec 2) ++ pv ++ mode)⟩
  | .vote q d ps ns mode => some ⟨0x71, q, d.code, 0xFF, 0xFF, 0xFF, (mode ++ BitVec.ofBool ns ++ ps)⟩
  | .wred q d a fn => some ⟨0x72, q, d.code, a.code, 0xFF, 0xFF, ((0 : BitVec 4) ++ fn)⟩
  | .wscan q d a fn excl => some ⟨0x73, q, d.code, a.code, 0xFF, 0xFF, ((0 : BitVec 3) ++ BitVec.ofBool excl ++ fn)⟩
  | .wmatch q d a wide mode => some ⟨0x74, q, d.code, a.code, 0xFF, 0xFF, ((0 : BitVec 5) ++ mode ++ BitVec.ofBool wide)⟩
  | .wlive q d => some ⟨0x75, q, d.code, 0xFF, 0xFF, 0xFF, 0⟩
  | .ld q d a imm sz lease acq => some ⟨0x80, q, d.code, a.code, imm.extractLsb' 8 8, imm.extractLsb' 0 8, ((0 : BitVec 2) ++ BitVec.ofBool acq ++ lease ++ sz)⟩
  | .st q d a imm sz rel => some ⟨0x81, q, d.code, a.code, imm.extractLsb' 8 8, imm.extractLsb' 0 8, ((0 : BitVec 2) ++ BitVec.ofBool rel ++ (0 : BitVec 2) ++ sz)⟩
  | .ldx q d a b sz lease acq sc => some ⟨0x82, q, d.code, a.code, b.code, 0xFF, ((0 : BitVec 1) ++ BitVec.ofBool sc ++ BitVec.ofBool acq ++ lease ++ sz)⟩
  | .stx q d a b sz rel sc => some ⟨0x83, q, d.code, a.code, b.code, 0xFF, ((0 : BitVec 1) ++ BitVec.ofBool sc ++ BitVec.ofBool rel ++ (0 : BitVec 2) ++ sz)⟩
  | .lds q d a imm sz tag tt => some ⟨0x84, q, d.code, a.code, imm.extractLsb' 8 8, imm.extractLsb' 0 8, ((0 : BitVec 2) ++ BitVec.ofBool tt ++ tag ++ sz)⟩
  | .sts q d a imm sz tag tt => some ⟨0x85, q, d.code, a.code, imm.extractLsb' 8 8, imm.extractLsb' 0 8, ((0 : BitVec 2) ++ BitVec.ofBool tt ++ tag ++ sz)⟩
  | .pfl q a imm lease lvl => some ⟨0x86, q, 0xFF, a.code, imm.extractLsb' 8 8, imm.extractLsb' 0 8, ((0 : BitVec 1) ++ BitVec.ofBool lvl ++ (0 : BitVec 1) ++ lease ++ (0 : BitVec 3))⟩
  | .atom q d a b fn w64 ord => some ⟨0x90, q, d.code, a.code, b.code, 0xFF, ((0 : BitVec 1) ++ ord ++ BitVec.ofBool w64 ++ fn)⟩
  | .acas q d a b c w64 ord => some ⟨0x91, q, d.code, a.code, b.code, c.code, ((0 : BitVec 1) ++ ord ++ BitVec.ofBool w64 ++ (0 : BitVec 4))⟩
  | .red q a b fn w64 ordered scope => some ⟨0x92, q, 0xFF, a.code, b.code, 0xFF, (scope ++ BitVec.ofBool ordered ++ BitVec.ofBool w64 ++ fn)⟩
  | .fence q kind scope => some ⟨0x93, q, 0xFF, 0xFF, 0xFF, 0xFF, ((0 : BitVec 4) ++ scope ++ kind)⟩
  | .cwb q a b all => some ⟨0x94, q, 0xFF, a.code, b.code, 0xFF, ((0 : BitVec 7) ++ BitVec.ofBool all)⟩
  | .cinv q a b all => some ⟨0x95, q, 0xFF, a.code, b.code, 0xFF, ((0 : BitVec 7) ++ BitVec.ofBool all)⟩
  | .tagset q a b full => some ⟨0xA0, q, 0xFF, a.code, b.code, 0xFF, ((0 : BitVec 7) ++ BitVec.ofBool full)⟩
  | .tagrd q d a => some ⟨0xA1, q, d.code, a.code, 0xFF, 0xFF, 0⟩
  | .awinit q a b clr => some ⟨0xA2, q, 0xFF, a.code, b.code, 0xFF, ((0 : BitVec 7) ++ BitVec.ofBool clr)⟩
  | .awadd q a b => some ⟨0xA3, q, 0xFF, a.code, b.code, 0xFF, 0⟩
  | .await q d a b => some ⟨0xA4, q, d.code, a.code, b.code, 0xFF, 0⟩
  | .cpy q d a b c dir => some ⟨0xA5, q, d.code, a.code, b.code, c.code, ((0 : BitVec 6) ++ dir)⟩
  | .cpyn q d a b c dir => some ⟨0xA6, q, d.code, a.code, b.code, c.code, ((0 : BitVec 6) ++ dir)⟩
  | .cpyx q d a b c sp => some ⟨0xA7, q, d.code, a.code, b.code, c.code, ((0 : BitVec 7) ++ BitVec.ofBool sp)⟩
  | .cpyp q d a b c sp => some ⟨0xA8, q, d.code, a.code, b.code, c.code, ((0 : BitVec 7) ++ BitVec.ofBool sp)⟩
  | .gath q d a b c esz => some ⟨0xA9, q, d.code, a.code, b.code, c.code, ((0 : BitVec 5) ++ esz)⟩
  | .scat q d a b c esz => some ⟨0xAA, q, d.code, a.code, b.code, c.code, ((0 : BitVec 5) ++ esz)⟩
  | .cvsign q d a cv wait => some ⟨0xB0, q, d.code, a.code, 0xFF, 0xFF, ((0 : BitVec 3) ++ BitVec.ofBool wait ++ cv)⟩
  | .cvwait q a cv => some ⟨0xB1, q, 0xFF, a.code, 0xFF, 0xFF, ((0 : BitVec 4) ++ cv)⟩
  | .cvrst q cv => some ⟨0xB2, q, 0xFF, 0xFF, 0xFF, 0xFF, ((0 : BitVec 4) ++ cv)⟩
  | .waitc q cp mx qu gs => some ⟨0xB3, q, 0xFF, 0xFF, (cp ++ mx), (qu ++ gs), 0⟩
  | .mwait q a b c w64 acq => some ⟨0xB4, q, 0xFF, a.code, b.code, c.code, ((0 : BitVec 6) ++ BitVec.ofBool acq ++ BitVec.ofBool w64)⟩
  | .park q a => some ⟨0xB5, q, 0xFF, a.code, 0xFF, 0xFF, 0⟩
  | .thal q d a b sf ps => some ⟨0xC0, q, d.code, a.code, b.code, 0xFF, ((0 : BitVec 3) ++ ps ++ BitVec.ofBool sf)⟩
  | .threl q a => some ⟨0xC1, q, 0xFF, a.code, 0xFF, 0xFF, 0⟩
  | .thgive q a b => some ⟨0xC2, q, 0xFF, a.code, b.code, 0xFF, 0⟩
  | .thinfo q d a => some ⟨0xC3, q, d.code, a.code, 0xFF, 0xFF, 0⟩
  | .cpyt q d a b sp => some ⟨0xC4, q, d.code, a.code, b.code, 0xFF, ((0 : BitVec 7) ++ BitVec.ofBool sp)⟩
  | .thst q d a b sp => some ⟨0xC5, q, d.code, a.code, b.code, 0xFF, ((0 : BitVec 7) ++ BitVec.ofBool sp)⟩
  | .accz q a b => some ⟨0xC6, q, 0xFF, a.code, b.code, 0xFF, 0⟩
  | .accld q d a b c sp => some ⟨0xC7, q, d.code, a.code, b.code, c.code, ((0 : BitVec 7) ++ BitVec.ofBool sp)⟩
  | .accst q d a b c sp clr => some ⟨0xC8, q, d.code, a.code, b.code, c.code, ((0 : BitVec 6) ++ BitVec.ofBool clr ++ BitVec.ofBool sp)⟩
  | .accrd q d a n => some ⟨0xC9, q, d.code, a.code, 0xFF, 0xFF, ((0 : BitVec 6) ++ n)⟩
  | .mma q cv a b c af => some ⟨0xD0, q, ((0 : BitVec 4) ++ cv), a.code, b.code, c.code, ((0 : BitVec 7) ++ BitVec.ofBool af)⟩
  | .mmal q cv a b c af ks => some ⟨0xD1, q, ((0 : BitVec 4) ++ cv), a.code, b.code, c.code, ((0 : BitVec 5) ++ ks ++ BitVec.ofBool af)⟩
  | .phmma q cv a b c conj => some ⟨0xD2, q, ((0 : BitVec 4) ++ cv), a.code, b.code, c.code, ((0 : BitVec 7) ++ BitVec.ofBool conj)⟩
  | .phfin q d a b c clr => some ⟨0xD3, q, d.code, a.code, b.code, c.code, ((0 : BitVec 7) ++ BitVec.ofBool clr)⟩
  | .qnt q d a b c fmt bl ci clr => some ⟨0xD4, q, d.code, a.code, b.code, c.code, ((0 : BitVec 2) ++ BitVec.ofBool clr ++ BitVec.ofBool ci ++ bl ++ fmt)⟩
  | .qopen q d a sf ps => some ⟨0xE0, q, d.code, a.code, 0xFF, 0xFF, ((0 : BitVec 3) ++ ps ++ BitVec.ofBool sf)⟩
  | .qrsv q d a b sf ps => some ⟨0xE1, q, d.code, a.code, b.code, 0xFF, ((0 : BitVec 3) ++ ps ++ BitVec.ofBool sf)⟩
  | .qput q d a b rel len sf ps => some ⟨0xE2, q, d.code, a.code, b.code, 0xFF, (len ++ BitVec.ofBool rel ++ ps ++ BitVec.ofBool sf)⟩
  | .qputs q d a b c rel sf ps => some ⟨0xE3, q, d.code, a.code, b.code, c.code, ((0 : BitVec 2) ++ BitVec.ofBool rel ++ ps ++ BitVec.ofBool sf)⟩
  | .qtake q d a acq len sf ps => some ⟨0xE4, q, d.code, a.code, 0xFF, 0xFF, (len ++ BitVec.ofBool acq ++ ps ++ BitVec.ofBool sf)⟩
  | .qtakes q d a b c acq sf ps => some ⟨0xE5, q, d.code, a.code, b.code, c.code, ((0 : BitVec 2) ++ BitVec.ofBool acq ++ ps ++ BitVec.ofBool sf)⟩
  | .qpeek q d a sf ps => some ⟨0xE6, q, d.code, a.code, 0xFF, 0xFF, ((0 : BitVec 3) ++ ps ++ BitVec.ofBool sf)⟩
  | .qwait q a sf ps => some ⟨0xE7, q, 0xFF, a.code, 0xFF, 0xFF, ((0 : BitVec 3) ++ ps ++ BitVec.ofBool sf)⟩
  | .qreset q a sf ps => some ⟨0xE8, q, 0xFF, a.code, 0xFF, 0xFF, ((0 : BitVec 3) ++ ps ++ BitVec.ofBool sf)⟩
  | .qclose q a sf ps => some ⟨0xE9, q, 0xFF, a.code, 0xFF, 0xFF, ((0 : BitVec 3) ++ ps ++ BitVec.ofBool sf)⟩
  | .launch q a b sf ps => some ⟨0xEA, q, 0xFF, a.code, b.code, 0xFF, ((0 : BitVec 3) ++ ps ++ BitVec.ofBool sf)⟩
  | .signal q a b fn w64 sf ps => some ⟨0xEB, q, 0xFF, a.code, b.code, 0xFF, (BitVec.ofBool w64 ++ fn ++ ps ++ BitVec.ofBool sf)⟩
  | .trap q code => some ⟨0xF0, q, 0xFF, 0xFF, 0xFF, 0xFF, code⟩
  | .rth q => some ⟨0xF1, q, 0xFF, 0xFF, 0xFF, 0xFF, 0⟩
  | .sread q d reg => some ⟨0xF2, q, d.code, 0xFF, 0xFF, 0xFF, reg⟩
  | .swrite q reg a => some ⟨0xF3, q, 0xFF, a.code, 0xFF, 0xFF, reg⟩
  | .yieldpt q map => some ⟨0xF4, q, 0xFF, 0xFF, 0, ((0 : BitVec 6) ++ map.extractLsb' 8 2), map.extractLsb' 0 8⟩
  | .bkpt q code => some ⟨0xF5, q, 0xFF, 0xFF, 0xFF, 0xFF, code⟩
  | .ecall q d a svc => some ⟨0xF6, q, d.code, a.code, 0xFF, 0xFF, svc⟩
  | .issueGroup _ _ _ => none
  | .longLatencyWriteback _ => none
  | .yieldDelayEnd _ => none
  | .convstall _ => none
  | .waystationTimer _ _ _ => none
  | .waystationLaunch _ _ _ => none
  | .warpRetire _ => none
  | .tlbWalk _ => none
  | .hLoadMiss _ => none
  | .hWriteAccept _ => none
  | .hWritePerform _ => none
  | .recallAnswer _ _ _ => none
  | .partialCombine _ => none
  | .partialPushDeadline _ _ _ => none
  | .nearCacheEvict _ _ _ => none
  | .writeBackAccept _ => none
  | .engineStart _ _ => none
  | .engineChunk _ _ _ => none
  | .engineComplete _ => none
  | .matrixStart _ _ => none
  | .matrixComplete _ _ => none
  | .tokenCapture _ _ => none
  | .tokenRelease _ _ => none
  | .tokenForcedRelease _ _ => none
  | .groupPlace _ _ _ _ => none
  | .parking _ => none
  | .parkSaveDone _ => none
  | .watchTimerFire _ => none
  | .mwaitTimeout _ => none
  | .parkDelayEnd _ => none
  | .relaunch _ _ _ => none
  | .groupRetire _ => none
  | .csigIncrement _ => none
  | .irqTimer _ => none
  | .lineMonitorParse _ => none
  | .deltaLaunch _ => none
  | .fenceRecord _ => none
  | .fenceRecordMet _ => none
  | .signalWrite _ => none
  | .queuePriority _ => none
  | .nopRecord _ => none
  | .pageMode _ => none
  | .pageInvalidate _ => none
  | .pageModeDrainEnd _ _ => none
  | .pageModeRelease _ _ => none
  | .pageModeSignal _ => none
  | .hostcopy _ _ _ _ => none
  | .hostcopyEnd _ => none
  | .queueSteal _ _ => none
  | .homeOpen _ _ => none
  | .homeReserve _ _ => none
  | .homeFill _ _ => none
  | .homeTake _ _ => none
  | .homePeek _ _ => none
  | .homeWait _ _ => none
  | .homeReset _ _ => none
  | .homeClose _ _ => none
  | .queueAnswer _ => none
  | .dieResetAnnounce _ _ => none
  | .signalApply _ _ => none
  | .ecallServe _ _ _ => none
  | .ecallAnswer _ => none
  | .haltLineArrival _ _ _ => none
  | .stopRecords _ _ => none
  | .preemptionRequest _ => none
  | .preemptionDeadline _ => none
  | .groupSaveByMaps _ => none
  | .sliceEnd _ => none
  | .dataFlit _ _ => none
  | .nak _ _ => none
  | .replayTimeout _ => none
  | .nakHoldoffEnd _ => none
  | .controlFlitRepeat _ => none
  | .idle _ _ => none
  | .marker _ _ => none
  | .stompedFlit _ _ => none
  | .reservedFlit _ _ => none
  | .headerCheckFail _ _ _ => none
  | .lossOfLight _ _ => none
  | .loss _ _ => none
  | .errorRateThreshold _ _ _ => none
  | .retrain _ _ => none
  | .retrainTimeout _ => none
  | .lpr _ _ => none
  | .trainingTimeout _ => none
  | .linkEnable _ => none
  | .linkDisable _ => none
  | .sampleInterval _ _ _ _ _ => none
  | .marginPlan _ _ _ _ _ => none
  | .thermalTrip _ _ _ => none
  | .dieReset _ => none
  | .powerOn _ _ => none
  | .hostWindowWrite _ _ _ => none
  | .hostSignalWrite _ _ _ => none
  | .hostRegisterWrite _ _ _ => none
  | .createContext _ _ _ => none
  | .destroyContext _ => none
  | .haltRequest _ => none
  | .saveContext _ => none
  | .resumeContext _ _ _ => none
  | .writePageTableEntries _ => none
  | .createQueue _ _ _ _ _ => none
  | .deleteQueue _ => none
  | .bindQids _ => none
  | .readHarvestMap _ => none
  | .readEventRing _ => none
  | .readEcallLog _ => none
  | .readSampleBuffer _ => none
  | .readEnergyBanks _ => none
  | .attest _ => none
  | .writeFirmwareImage _ => none
  | .setPowerLimit _ => none
  | .freeze _ => none
  | .resetCoreDie _ => none
  | .spuriousWakeup _ => none
  | .lightRestored _ _ => none
  | .trainingEnd _ _ => none
  | .reservedTypeRecord _ => none
  | .unassignedCommand _ => none

/-- The word of an instruction (R72). Mark: DESIGN CHOICE (log 71). -/
def encode (i : Instr) : Option W64 := i.toRaw.map Raw.pack

/-- The instruction that the decoder reads from an instruction of `nbits` bits whose bits are `w`: every
instruction is one 64-bit word, stored little-endian (R4, R72), so the word is the low 64 bits. Mark: DEDUCED (log 3). -/
def decodeTableWord (nbits w : Nat) : Option Instr :=
  match decodeWord (BitVec.ofNat 64 (w % 2 ^ nbits)) with
  | .ok i => some i
  | .error _ => none

/-! ## Clause headers and dictionary codes -/

/-- The fields of a clause header (R70). -/
structure Header where
  eng   : Nat
  count : Nat
  dict  : Bool
  yld   : Bool
  wcp   : Nat
  wmx   : Nat
  wqu   : Nat
  wgs   : Nat
  rsv   : BitVec 34
  deriving DecidableEq, Repr

/-- Read a header; none without the marker 0b111110 (R70). Mark: DESIGN CHOICE (log 71). -/
def decodeHeader (w : W64) : Option Header :=
  if w.extractLsb' 58 6 = 0b111110 then
    some { eng := (w.extractLsb' 56 2).toNat, count := (w.extractLsb' 52 4).toNat, dict := w.getLsbD 51,
           yld := w.getLsbD 50, wcp := (w.extractLsb' 46 4).toNat, wmx := (w.extractLsb' 42 4).toNat,
           wqu := (w.extractLsb' 38 4).toNat, wgs := (w.extractLsb' 34 4).toNat, rsv := w.extractLsb' 0 34 }
  else none

/-- The words of a clause's body (R66). -/
def Header.bodyWords (h : Header) : Nat := if h.dict then (h.count + 1 + 3) / 4 else h.count + 1

/-- The fall-through header of the clause whose header stands at `p` (R67). -/
def nextHeader (p : Nat) (h : Header) : Nat := (p + 8 + 8 * h.bodyWords + 15) / 16 * 16

/-- Expand a dictionary code over its dictionary word (R83); none when bit 0 is set. -/
def expandCode (code : BitVec 16) (w : W64) : Option W64 :=
  if code.getLsbD 0 then none
  else
    let w1 := if code.extractLsb' 2 4 = 0xF then w
      else (w &&& ~~~((0xF : W64) <<< 52)) ||| ((code.extractLsb' 2 4).setWidth 64 <<< 52)
    some (w1 ^^^ ((BitVec.ofBool (code.getLsbD 1)).setWidth 64 <<< 47))

/-! ## The registers that an instruction names -/

/-- An operand field. -/
inductive Fld where
  | d | a | b | c
  deriving DecidableEq, Repr

/-- How a field uses its registers. -/
inductive UseKind where
  | src | dst
  /-- Limited by R75 but tested for full only by the instruction itself (R281). -/
  | lim
  deriving DecidableEq, Repr

/-- `n` registers from operand `o`, named by field `f`. -/
structure Use where
  f : Fld
  o : Opd
  n : Nat
  k : UseKind
  deriving DecidableEq, Repr

/-- Registers of a value of one or two words. -/
def rw (wide : Bool) : Nat := if wide then 2 else 1
/-- Registers of a size code (R204). -/
def szRegs (sz : BitVec 3) : Nat := match sz.toNat with | 5 => 2 | 6 => 4 | _ => 1
/-- Registers of a LEN code (R346). -/
def lenRegs (len : BitVec 2) : Nat := 4 * 2 ^ len.toNat
/-- Cells of an N code (R274). -/
def nCells (n : BitVec 2) : Nat := 2 ^ n.toNat

/-- The registers that an instruction's fields name. THAL names B whatever A holds (R266). Mark: DESIGN CHOICE (log 85). -/
def Instr.uses : Instr → List Use
  | .nop _ => []
  | .mov _ d a wide => [⟨.d, d, (rw wide), .dst⟩, ⟨.a, a, (rw wide), .src⟩]
  | .movi _ d _ => [⟨.d, d, 1, .dst⟩]
  | .movk _ d _ => [⟨.d, d, 1, .dst⟩]
  | .iadd _ d a b _ => [⟨.d, d, 1, .dst⟩, ⟨.a, a, 1, .src⟩, ⟨.b, b, 1, .src⟩]
  | .isub _ d a b _ => [⟨.d, d, 1, .dst⟩, ⟨.a, a, 1, .src⟩, ⟨.b, b, 1, .src⟩]
  | .iaddi _ d a _ => [⟨.d, d, 1, .dst⟩, ⟨.a, a, 1, .src⟩]
  | .imul _ d a b => [⟨.d, d, 1, .dst⟩, ⟨.a, a, 1, .src⟩, ⟨.b, b, 1, .src⟩]
  | .imulh _ d a b _ => [⟨.d, d, 1, .dst⟩, ⟨.a, a, 1, .src⟩, ⟨.b, b, 1, .src⟩]
  | .imad _ d a b c => [⟨.d, d, 1, .dst⟩, ⟨.a, a, 1, .src⟩, ⟨.b, b, 1, .src⟩, ⟨.c, c, 1, .src⟩]
  | .imadw _ d a b c _ => [⟨.d, d, 2, .dst⟩, ⟨.a, a, 1, .src⟩, ⟨.b, b, 1, .src⟩, ⟨.c, c, 2, .src⟩]
  | .idiv _ d a b _ => [⟨.d, d, 1, .dst⟩, ⟨.a, a, 1, .src⟩, ⟨.b, b, 1, .src⟩]
  | .irem _ d a b _ => [⟨.d, d, 1, .dst⟩, ⟨.a, a, 1, .src⟩, ⟨.b, b, 1, .src⟩]
  | .imin _ d a b _ => [⟨.d, d, 1, .dst⟩, ⟨.a, a, 1, .src⟩, ⟨.b, b, 1, .src⟩]
  | .imax _ d a b _ => [⟨.d, d, 1, .dst⟩, ⟨.a, a, 1, .src⟩, ⟨.b, b, 1, .src⟩]
  | .iabs _ d a _ => [⟨.d, d, 1, .dst⟩, ⟨.a, a, 1, .src⟩]
  | .ineg _ d a _ => [⟨.d, d, 1, .dst⟩, ⟨.a, a, 1, .src⟩]
  | .shl _ d a b => [⟨.d, d, 1, .dst⟩, ⟨.a, a, 1, .src⟩, ⟨.b, b, 1, .src⟩]
  | .shr _ d a b _ => [⟨.d, d, 1, .dst⟩, ⟨.a, a, 1, .src⟩, ⟨.b, b, 1, .src⟩]
  | .rot _ d a b _ => [⟨.d, d, 1, .dst⟩, ⟨.a, a, 1, .src⟩, ⟨.b, b, 1, .src⟩]
  | .iadd64 _ d a b => [⟨.d, d, 2, .dst⟩, ⟨.a, a, 2, .src⟩, ⟨.b, b, 2, .src⟩]
  | .isub64 _ d a b => [⟨.d, d, 2, .dst⟩, ⟨.a, a, 2, .src⟩, ⟨.b, b, 2, .src⟩]
  | .shl64 _ d a b => [⟨.d, d, 2, .dst⟩, ⟨.a, a, 2, .src⟩, ⟨.b, b, 1, .src⟩]
  | .shr64 _ d a b _ => [⟨.d, d, 2, .dst⟩, ⟨.a, a, 2, .src⟩, ⟨.b, b, 1, .src⟩]
  | .lop3 _ d a b c _ => [⟨.d, d, 1, .dst⟩, ⟨.a, a, 1, .src⟩, ⟨.b, b, 1, .src⟩, ⟨.c, c, 1, .src⟩]
  | .bfx _ d a b _ => [⟨.d, d, 1, .dst⟩, ⟨.a, a, 1, .src⟩, ⟨.b, b, 1, .src⟩]
  | .bfi _ d a b c => [⟨.d, d, 1, .dst⟩, ⟨.a, a, 1, .src⟩, ⟨.b, b, 1, .src⟩, ⟨.c, c, 1, .src⟩]
  | .brev _ d a => [⟨.d, d, 1, .dst⟩, ⟨.a, a, 1, .src⟩]
  | .popc _ d a => [⟨.d, d, 1, .dst⟩, ⟨.a, a, 1, .src⟩]
  | .clz _ d a => [⟨.d, d, 1, .dst⟩, ⟨.a, a, 1, .src⟩]
  | .ctz _ d a => [⟨.d, d, 1, .dst⟩, ⟨.a, a, 1, .src⟩]
  | .prmt _ d a b c => [⟨.d, d, 1, .dst⟩, ⟨.a, a, 1, .src⟩, ⟨.b, b, 1, .src⟩, ⟨.c, c, 1, .src⟩]
  | .icmp _ _ _ a b _ _ w64 => [⟨.a, a, (rw w64), .src⟩, ⟨.b, b, (rw w64), .src⟩]
  | .icmpi _ _ _ a _ _ _ w64 => [⟨.a, a, (rw w64), .src⟩]
  | .fcmp _ _ _ a b _ => [⟨.a, a, 1, .src⟩, ⟨.b, b, 1, .src⟩]
  | .hcmp2 _ _ _ a b _ _ => [⟨.a, a, 1, .src⟩, ⟨.b, b, 1, .src⟩]
  | .plop3 _ _ _ _ _ _ _ => []
  | .sel _ d a b _ _ wide => [⟨.d, d, (rw wide), .dst⟩, ⟨.a, a, (rw wide), .src⟩, ⟨.b, b, (rw wide), .src⟩]
  | .ptog _ d => [⟨.d, d, 1, .dst⟩]
  | .gtop _ a b => [⟨.a, a, 1, .src⟩, ⟨.b, b, 1, .src⟩]
  | .fadd _ d a b _ _ _ _ => [⟨.d, d, 1, .dst⟩, ⟨.a, a, 1, .src⟩, ⟨.b, b, 1, .src⟩]
  | .fsub _ d a b _ _ _ _ => [⟨.d, d, 1, .dst⟩, ⟨.a, a, 1, .src⟩, ⟨.b, b, 1, .src⟩]
  | .fmul _ d a b _ _ _ _ => [⟨.d, d, 1, .dst⟩, ⟨.a, a, 1, .src⟩, ⟨.b, b, 1, .src⟩]
  | .ffma _ d a b c _ _ _ _ => [⟨.d, d, 1, .dst⟩, ⟨.a, a, 1, .src⟩, ⟨.b, b, 1, .src⟩, ⟨.c, c, 1, .src⟩]
  | .fmin _ d a b => [⟨.d, d, 1, .dst⟩, ⟨.a, a, 1, .src⟩, ⟨.b, b, 1, .src⟩]
  | .fmax _ d a b => [⟨.d, d, 1, .dst⟩, ⟨.a, a, 1, .src⟩, ⟨.b, b, 1, .src⟩]
  | .fclass _ d a _ => [⟨.d, d, 1, .dst⟩, ⟨.a, a, 1, .src⟩]
  | .fscale _ d a b _ => [⟨.d, d, 1, .dst⟩, ⟨.a, a, 1, .src⟩, ⟨.b, b, 1, .src⟩]
  | .frnd _ d a _ _ => [⟨.d, d, 1, .dst⟩, ⟨.a, a, 1, .src⟩]
  | .f2i _ d a _ ty => [⟨.d, d, (rw (ty.getLsbD 1)), .dst⟩, ⟨.a, a, 1, .src⟩]
  | .i2f _ d a _ ty => [⟨.d, d, 1, .dst⟩, ⟨.a, a, (rw (ty.getLsbD 1)), .src⟩]
  | .hadd2 _ d a b _ _ _ => [⟨.d, d, 1, .dst⟩, ⟨.a, a, 1, .src⟩, ⟨.b, b, 1, .src⟩]
  | .hmul2 _ d a b _ _ _ => [⟨.d, d, 1, .dst⟩, ⟨.a, a, 1, .src⟩, ⟨.b, b, 1, .src⟩]
  | .hfma2 _ d a b c _ _ _ _ => [⟨.d, d, 1, .dst⟩, ⟨.a, a, 1, .src⟩, ⟨.b, b, 1, .src⟩, ⟨.c, c, 1, .src⟩]
  | .hmin2 _ d a b _ => [⟨.d, d, 1, .dst⟩, ⟨.a, a, 1, .src⟩, ⟨.b, b, 1, .src⟩]
  | .hmax2 _ d a b _ => [⟨.d, d, 1, .dst⟩, ⟨.a, a, 1, .src⟩, ⟨.b, b, 1, .src⟩]
  | .hdot2 _ d a b c _ _ => [⟨.d, d, 1, .dst⟩, ⟨.a, a, 1, .src⟩, ⟨.b, b, 1, .src⟩, ⟨.c, c, 1, .src⟩]
  | .cvt _ d a _ _ _ _ => [⟨.d, d, 1, .dst⟩, ⟨.a, a, 1, .src⟩]
  | .cvtpk _ d a b _ _ => [⟨.d, d, 1, .dst⟩, ⟨.a, a, 1, .src⟩, ⟨.b, b, 1, .src⟩]
  | .cvtx4 _ d a narrow _ _ => [⟨.d, d, (rw (!narrow)), .dst⟩, ⟨.a, a, (rw narrow), .src⟩]
  | .qdt _ d a b c _ => [⟨.d, d, 1, .dst⟩, ⟨.a, a, 2, .src⟩, ⟨.b, b, 2, .src⟩, ⟨.c, c, 1, .src⟩]
  | .dqdt _ d a b _ _ _ => [⟨.d, d, 2, .dst⟩, ⟨.a, a, 1, .src⟩, ⟨.b, b, 1, .src⟩]
  | .rcp _ d a => [⟨.d, d, 1, .dst⟩, ⟨.a, a, 1, .src⟩]
  | .rsq _ d a => [⟨.d, d, 1, .dst⟩, ⟨.a, a, 1, .src⟩]
  | .sqrt _ d a => [⟨.d, d, 1, .dst⟩, ⟨.a, a, 1, .src⟩]
  | .ex2 _ d a => [⟨.d, d, 1, .dst⟩, ⟨.a, a, 1, .src⟩]
  | .lg2 _ d a => [⟨.d, d, 1, .dst⟩, ⟨.a, a, 1, .src⟩]
  | .sint _ d a => [⟨.d, d, 1, .dst⟩, ⟨.a, a, 1, .src⟩]
  | .cost _ d a => [⟨.d, d, 1, .dst⟩, ⟨.a, a, 1, .src⟩]
  | .phadd _ d a b _ => [⟨.d, d, 1, .dst⟩, ⟨.a, a, 1, .src⟩, ⟨.b, b, 1, .src⟩]
  | .phsub _ d a b _ => [⟨.d, d, 1, .dst⟩, ⟨.a, a, 1, .src⟩, ⟨.b, b, 1, .src⟩]
  | .phcmp _ _ _ a b => [⟨.a, a, 1, .src⟩, ⟨.b, b, 1, .src⟩]
  | .phfrom _ d a _ => [⟨.d, d, 1, .dst⟩, ⟨.a, a, 1, .src⟩]
  | .phsc _ d a => [⟨.d, d, 1, .dst⟩, ⟨.a, a, 1, .src⟩]
  | .phcoh _ d a b c => [⟨.d, d, 1, .dst⟩, ⟨.a, a, 1, .src⟩, ⟨.b, b, 1, .src⟩, ⟨.c, c, 1, .src⟩]
  | .bra _ _ => []
  | .brx _ a => [⟨.a, a, 2, .src⟩]
  | .call _ d _ => [⟨.d, d, 2, .dst⟩]
  | .callx _ d a => [⟨.d, d, 2, .dst⟩, ⟨.a, a, 2, .src⟩]
  | .ret _ a => [⟨.a, a, 2, .src⟩]
  | .exit _ => []
  | .spawn _ a b c npay => [⟨.a, a, 2, .src⟩, ⟨.b, b, npay.toNat, .src⟩, ⟨.c, c, 2, .src⟩]
  | .wconv _ => []
  | .yield _ _ => []
  | .shfl _ d a b c _ _ => [⟨.d, d, 1, .dst⟩, ⟨.a, a, 1, .src⟩, ⟨.b, b, 1, .src⟩, ⟨.c, c, 1, .src⟩]
  | .vote _ d _ _ _ => [⟨.d, d, 1, .dst⟩]
  | .wred _ d a _ => [⟨.d, d, 1, .dst⟩, ⟨.a, a, 1, .src⟩]
  | .wscan _ d a _ _ => [⟨.d, d, 1, .dst⟩, ⟨.a, a, 1, .src⟩]
  | .wmatch _ d a wide _ => [⟨.d, d, 1, .dst⟩, ⟨.a, a, (rw wide), .src⟩]
  | .wlive _ d => [⟨.d, d, 1, .dst⟩]
  | .ld _ d a _ sz _ _ => [⟨.d, d, (szRegs sz), .dst⟩, ⟨.a, a, 2, .src⟩]
  | .st _ d a _ sz _ => [⟨.d, d, (szRegs sz), .src⟩, ⟨.a, a, 2, .src⟩]
  | .ldx _ d a b sz _ _ _ => [⟨.d, d, (szRegs sz), .dst⟩, ⟨.a, a, 2, .src⟩, ⟨.b, b, 1, .src⟩]
  | .stx _ d a b sz _ _ => [⟨.d, d, (szRegs sz), .src⟩, ⟨.a, a, 2, .src⟩, ⟨.b, b, 1, .src⟩]
  | .lds _ d a _ sz _ _ => [⟨.d, d, (szRegs sz), .dst⟩, ⟨.a, a, 1, .src⟩]
  | .sts _ d a _ sz _ _ => [⟨.d, d, (szRegs sz), .src⟩, ⟨.a, a, 1, .src⟩]
  | .pfl _ a _ _ _ => [⟨.a, a, 2, .src⟩]
  | .atom _ d a b _ w64 _ => [⟨.d, d, (rw w64), .dst⟩, ⟨.a, a, 2, .src⟩, ⟨.b, b, (rw w64), .src⟩]
  | .acas _ d a b c w64 _ => [⟨.d, d, (rw w64), .dst⟩, ⟨.a, a, 2, .src⟩, ⟨.b, b, (rw w64), .src⟩, ⟨.c, c, (rw w64), .src⟩]
  | .red _ a b _ w64 _ _ => [⟨.a, a, 2, .src⟩, ⟨.b, b, (rw w64), .src⟩]
  | .fence _ _ _ => []
  | .cwb _ a b _ => [⟨.a, a, 2, .src⟩, ⟨.b, b, 1, .src⟩]
  | .cinv _ a b _ => [⟨.a, a, 2, .src⟩, ⟨.b, b, 1, .src⟩]
  | .tagset _ a b _ => [⟨.a, a, 1, .src⟩, ⟨.b, b, 1, .src⟩]
  | .tagrd _ d a => [⟨.d, d, 1, .dst⟩, ⟨.a, a, 1, .src⟩]
  | .awinit _ a b _ => [⟨.a, a, 1, .src⟩, ⟨.b, b, 1, .src⟩]
  | .awadd _ a b => [⟨.a, a, 1, .src⟩, ⟨.b, b, 1, .src⟩]
  | .await _ d a b => [⟨.d, d, 1, .dst⟩, ⟨.a, a, 1, .src⟩, ⟨.b, b, 1, .src⟩]
  | .cpy _ d a b c dir => [⟨.d, d, (rw (dir.getLsbD 0)), .src⟩, ⟨.a, a, (rw (dir == 0 || dir == 3)), .src⟩, ⟨.b, b, 1, .src⟩, ⟨.c, c, 1, .src⟩]
  | .cpyn _ d a b c dir => [⟨.d, d, (rw (dir.getLsbD 0)), .src⟩, ⟨.a, a, (rw (dir == 0 || dir == 3)), .src⟩, ⟨.b, b, 4, .src⟩, ⟨.c, c, 1, .src⟩]
  | .cpyx _ d a b c sp => [⟨.d, d, 1, .src⟩, ⟨.a, a, (rw (!sp)), .src⟩, ⟨.b, b, 1, .src⟩, ⟨.c, c, 1, .src⟩]
  | .cpyp _ d a b c sp => [⟨.d, d, (rw (!sp)), .src⟩, ⟨.a, a, 1, .src⟩, ⟨.b, b, 1, .src⟩, ⟨.c, c, 1, .src⟩]
  | .gath _ d a b c _ => [⟨.d, d, 1, .src⟩, ⟨.a, a, 2, .src⟩, ⟨.b, b, 2, .src⟩, ⟨.c, c, 1, .src⟩]
  | .scat _ d a b c _ => [⟨.d, d, 2, .src⟩, ⟨.a, a, 1, .src⟩, ⟨.b, b, 2, .src⟩, ⟨.c, c, 1, .src⟩]
  | .cvsign _ d a _ _ => [⟨.d, d, 1, .dst⟩, ⟨.a, a, 1, .src⟩]
  | .cvwait _ a _ => [⟨.a, a, 1, .src⟩]
  | .cvrst _ _ => []
  | .waitc _ _ _ _ _ => []
  | .mwait _ a b c w64 _ => [⟨.a, a, 2, .src⟩, ⟨.b, b, (rw w64), .src⟩, ⟨.c, c, 1, .src⟩]
  | .park _ a => [⟨.a, a, 1, .src⟩]
  | .thal _ d a b _ _ => [⟨.d, d, 1, .src⟩, ⟨.a, a, 1, .src⟩, ⟨.b, b, 1, .src⟩]
  | .threl _ a => [⟨.a, a, 1, .src⟩]
  | .thgive _ a b => [⟨.a, a, 1, .src⟩, ⟨.b, b, 1, .src⟩]
  | .thinfo _ d a => [⟨.d, d, 2, .dst⟩, ⟨.a, a, 1, .src⟩]
  | .cpyt _ d a b sp => [⟨.d, d, 1, .src⟩, ⟨.a, a, (rw (!sp)), .src⟩, ⟨.b, b, 1, .src⟩]
  | .thst _ d a b sp => [⟨.d, d, (rw (!sp)), .src⟩, ⟨.a, a, 1, .src⟩, ⟨.b, b, 1, .src⟩]
  | .accz _ a b => [⟨.a, a, 1, .src⟩, ⟨.b, b, 1, .src⟩]
  | .accld _ d a b c sp => [⟨.d, d, 1, .src⟩, ⟨.a, a, (rw (!sp)), .src⟩, ⟨.b, b, 1, .src⟩, ⟨.c, c, 1, .src⟩]
  | .accst _ d a b c sp _ => [⟨.d, d, (rw (!sp)), .src⟩, ⟨.a, a, 1, .src⟩, ⟨.b, b, 1, .src⟩, ⟨.c, c, 1, .src⟩]
  | .accrd _ d a n => [⟨.d, d, (nCells n), .dst⟩, ⟨.a, a, 1, .src⟩]
  | .mma _ _ a b c _ => [⟨.a, a, 16, .lim⟩, ⟨.b, b, 1, .src⟩, ⟨.c, c, 1, .src⟩]
  | .mmal _ _ a b c _ _ => [⟨.a, a, 16, .lim⟩, ⟨.b, b, 1, .src⟩, ⟨.c, c, 1, .src⟩]
  | .phmma _ _ a b c _ => [⟨.a, a, 16, .lim⟩, ⟨.b, b, 1, .src⟩, ⟨.c, c, 1, .src⟩]
  | .phfin _ d a b c _ => [⟨.d, d, 1, .src⟩, ⟨.a, a, 1, .src⟩, ⟨.b, b, 1, .src⟩, ⟨.c, c, 1, .src⟩]
  | .qnt _ d a b c _ _ _ _ => [⟨.d, d, 1, .src⟩, ⟨.a, a, 1, .src⟩, ⟨.b, b, 1, .src⟩, ⟨.c, c, 1, .src⟩]
  | .qopen _ d a _ _ => [⟨.d, d, 2, .dst⟩, ⟨.a, a, 1, .src⟩]
  | .qrsv _ d a b _ _ => [⟨.d, d, 2, .dst⟩, ⟨.a, a, 1, .src⟩, ⟨.b, b, 1, .src⟩]
  | .qput _ d a b _ len _ _ => [⟨.d, d, (lenRegs len), .src⟩, ⟨.a, a, 1, .src⟩, ⟨.b, b, 2, .src⟩]
  | .qputs _ d a b c _ _ _ => [⟨.d, d, 1, .src⟩, ⟨.a, a, 1, .src⟩, ⟨.b, b, 2, .src⟩, ⟨.c, c, 1, .src⟩]
  | .qtake _ d a _ len _ _ => [⟨.d, d, (lenRegs len), .dst⟩, ⟨.a, a, 1, .src⟩]
  | .qtakes _ d a b c _ _ _ => [⟨.d, d, 1, .dst⟩, ⟨.a, a, 1, .src⟩, ⟨.b, b, 1, .src⟩, ⟨.c, c, 1, .src⟩]
  | .qpeek _ d a _ _ => [⟨.d, d, 2, .dst⟩, ⟨.a, a, 1, .src⟩]
  | .qwait _ a _ _ => [⟨.a, a, 1, .src⟩]
  | .qreset _ a _ _ => [⟨.a, a, 1, .src⟩]
  | .qclose _ a _ _ => [⟨.a, a, 1, .src⟩]
  | .launch _ a b _ _ => [⟨.a, a, 1, .src⟩, ⟨.b, b, 1, .src⟩]
  | .signal _ a b _ w64 _ _ => [⟨.a, a, 2, .src⟩, ⟨.b, b, (rw w64), .src⟩]
  | .trap _ _ => []
  | .rth _ => []
  | .sread _ d _ => [⟨.d, d, 1, .dst⟩]
  | .swrite _ _ a => [⟨.a, a, 1, .src⟩]
  | .yieldpt _ _ => []
  | .bkpt _ _ => []
  | .ecall _ d a _ => [⟨.d, d, 2, .dst⟩, ⟨.a, a, 2, .src⟩]
  | .issueGroup _ _ _ => []
  | .longLatencyWriteback _ => []
  | .yieldDelayEnd _ => []
  | .convstall _ => []
  | .waystationTimer _ _ _ => []
  | .waystationLaunch _ _ _ => []
  | .warpRetire _ => []
  | .tlbWalk _ => []
  | .hLoadMiss _ => []
  | .hWriteAccept _ => []
  | .hWritePerform _ => []
  | .recallAnswer _ _ _ => []
  | .partialCombine _ => []
  | .partialPushDeadline _ _ _ => []
  | .nearCacheEvict _ _ _ => []
  | .writeBackAccept _ => []
  | .engineStart _ _ => []
  | .engineChunk _ _ _ => []
  | .engineComplete _ => []
  | .matrixStart _ _ => []
  | .matrixComplete _ _ => []
  | .tokenCapture _ _ => []
  | .tokenRelease _ _ => []
  | .tokenForcedRelease _ _ => []
  | .groupPlace _ _ _ _ => []
  | .parking _ => []
  | .parkSaveDone _ => []
  | .watchTimerFire _ => []
  | .mwaitTimeout _ => []
  | .parkDelayEnd _ => []
  | .relaunch _ _ _ => []
  | .groupRetire _ => []
  | .csigIncrement _ => []
  | .irqTimer _ => []
  | .lineMonitorParse _ => []
  | .deltaLaunch _ => []
  | .fenceRecord _ => []
  | .fenceRecordMet _ => []
  | .signalWrite _ => []
  | .queuePriority _ => []
  | .nopRecord _ => []
  | .pageMode _ => []
  | .pageInvalidate _ => []
  | .pageModeDrainEnd _ _ => []
  | .pageModeRelease _ _ => []
  | .pageModeSignal _ => []
  | .hostcopy _ _ _ _ => []
  | .hostcopyEnd _ => []
  | .queueSteal _ _ => []
  | .homeOpen _ _ => []
  | .homeReserve _ _ => []
  | .homeFill _ _ => []
  | .homeTake _ _ => []
  | .homePeek _ _ => []
  | .homeWait _ _ => []
  | .homeReset _ _ => []
  | .homeClose _ _ => []
  | .queueAnswer _ => []
  | .dieResetAnnounce _ _ => []
  | .signalApply _ _ => []
  | .ecallServe _ _ _ => []
  | .ecallAnswer _ => []
  | .haltLineArrival _ _ _ => []
  | .stopRecords _ _ => []
  | .preemptionRequest _ => []
  | .preemptionDeadline _ => []
  | .groupSaveByMaps _ => []
  | .sliceEnd _ => []
  | .dataFlit _ _ => []
  | .nak _ _ => []
  | .replayTimeout _ => []
  | .nakHoldoffEnd _ => []
  | .controlFlitRepeat _ => []
  | .idle _ _ => []
  | .marker _ _ => []
  | .stompedFlit _ _ => []
  | .reservedFlit _ _ => []
  | .headerCheckFail _ _ _ => []
  | .lossOfLight _ _ => []
  | .loss _ _ => []
  | .errorRateThreshold _ _ _ => []
  | .retrain _ _ => []
  | .retrainTimeout _ => []
  | .lpr _ _ => []
  | .trainingTimeout _ => []
  | .linkEnable _ => []
  | .linkDisable _ => []
  | .sampleInterval _ _ _ _ _ => []
  | .marginPlan _ _ _ _ _ => []
  | .thermalTrip _ _ _ => []
  | .dieReset _ => []
  | .powerOn _ _ => []
  | .hostWindowWrite _ _ _ => []
  | .hostSignalWrite _ _ _ => []
  | .hostRegisterWrite _ _ _ => []
  | .createContext _ _ _ => []
  | .destroyContext _ => []
  | .haltRequest _ => []
  | .saveContext _ => []
  | .resumeContext _ _ _ => []
  | .writePageTableEntries _ => []
  | .createQueue _ _ _ _ _ => []
  | .deleteQueue _ => []
  | .bindQids _ => []
  | .readHarvestMap _ => []
  | .readEventRing _ => []
  | .readEcallLog _ => []
  | .readSampleBuffer _ => []
  | .readEnergyBanks _ => []
  | .attest _ => []
  | .writeFirmwareImage _ => []
  | .setPowerLimit _ => []
  | .freeze _ => []
  | .resetCoreDie _ => []
  | .spuriousWakeup _ => []
  | .lightRestored _ _ => []
  | .trainingEnd _ _ => []
  | .reservedTypeRecord _ => []
  | .unassignedCommand _ => []

/-- The control fields of an instruction; a step that has no word is unguarded. -/
def Instr.ctl : Instr → Ctl
  | .nop q => q
  | .mov q _ _ _ => q
  | .movi q _ _ => q
  | .movk q _ _ => q
  | .iadd q _ _ _ _ => q
  | .isub q _ _ _ _ => q
  | .iaddi q _ _ _ => q
  | .imul q _ _ _ => q
  | .imulh q _ _ _ _ => q
  | .imad q _ _ _ _ => q
  | .imadw q _ _ _ _ _ => q
  | .idiv q _ _ _ _ => q
  | .irem q _ _ _ _ => q
  | .imin q _ _ _ _ => q
  | .imax q _ _ _ _ => q
  | .iabs q _ _ _ => q
  | .ineg q _ _ _ => q
  | .shl q _ _ _ => q
  | .shr q _ _ _ _ => q
  | .rot q _ _ _ _ => q
  | .iadd64 q _ _ _ => q
  | .isub64 q _ _ _ => q
  | .shl64 q _ _ _ => q
  | .shr64 q _ _ _ _ => q
  | .lop3 q _ _ _ _ _ => q
  | .bfx q _ _ _ _ => q
  | .bfi q _ _ _ _ => q
  | .brev q _ _ => q
  | .popc q _ _ => q
  | .clz q _ _ => q
  | .ctz q _ _ => q
  | .prmt q _ _ _ _ => q
  | .icmp q _ _ _ _ _ _ _ => q
  | .icmpi q _ _ _ _ _ _ _ => q
  | .fcmp q _ _ _ _ _ => q
  | .hcmp2 q _ _ _ _ _ _ => q
  | .plop3 q _ _ _ _ _ _ => q
  | .sel q _ _ _ _ _ _ => q
  | .ptog q _ => q
  | .gtop q _ _ => q
  | .fadd q _ _ _ _ _ _ _ => q
  | .fsub q _ _ _ _ _ _ _ => q
  | .fmul q _ _ _ _ _ _ _ => q
  | .ffma q _ _ _ _ _ _ _ _ => q
  | .fmin q _ _ _ => q
  | .fmax q _ _ _ => q
  | .fclass q _ _ _ => q
  | .fscale q _ _ _ _ => q
  | .frnd q _ _ _ _ => q
  | .f2i q _ _ _ _ => q
  | .i2f q _ _ _ _ => q
  | .hadd2 q _ _ _ _ _ _ => q
  | .hmul2 q _ _ _ _ _ _ => q
  | .hfma2 q _ _ _ _ _ _ _ _ => q
  | .hmin2 q _ _ _ _ => q
  | .hmax2 q _ _ _ _ => q
  | .hdot2 q _ _ _ _ _ _ => q
  | .cvt q _ _ _ _ _ _ => q
  | .cvtpk q _ _ _ _ _ => q
  | .cvtx4 q _ _ _ _ _ => q
  | .qdt q _ _ _ _ _ => q
  | .dqdt q _ _ _ _ _ _ => q
  | .rcp q _ _ => q
  | .rsq q _ _ => q
  | .sqrt q _ _ => q
  | .ex2 q _ _ => q
  | .lg2 q _ _ => q
  | .sint q _ _ => q
  | .cost q _ _ => q
  | .phadd q _ _ _ _ => q
  | .phsub q _ _ _ _ => q
  | .phcmp q _ _ _ _ => q
  | .phfrom q _ _ _ => q
  | .phsc q _ _ => q
  | .phcoh q _ _ _ _ => q
  | .bra q _ => q
  | .brx q _ => q
  | .call q _ _ => q
  | .callx q _ _ => q
  | .ret q _ => q
  | .exit q => q
  | .spawn q _ _ _ _ => q
  | .wconv q => q
  | .yield q _ => q
  | .shfl q _ _ _ _ _ _ => q
  | .vote q _ _ _ _ => q
  | .wred q _ _ _ => q
  | .wscan q _ _ _ _ => q
  | .wmatch q _ _ _ _ => q
  | .wlive q _ => q
  | .ld q _ _ _ _ _ _ => q
  | .st q _ _ _ _ _ => q
  | .ldx q _ _ _ _ _ _ _ => q
  | .stx q _ _ _ _ _ _ => q
  | .lds q _ _ _ _ _ _ => q
  | .sts q _ _ _ _ _ _ => q
  | .pfl q _ _ _ _ => q
  | .atom q _ _ _ _ _ _ => q
  | .acas q _ _ _ _ _ _ => q
  | .red q _ _ _ _ _ _ => q
  | .fence q _ _ => q
  | .cwb q _ _ _ => q
  | .cinv q _ _ _ => q
  | .tagset q _ _ _ => q
  | .tagrd q _ _ => q
  | .awinit q _ _ _ => q
  | .awadd q _ _ => q
  | .await q _ _ _ => q
  | .cpy q _ _ _ _ _ => q
  | .cpyn q _ _ _ _ _ => q
  | .cpyx q _ _ _ _ _ => q
  | .cpyp q _ _ _ _ _ => q
  | .gath q _ _ _ _ _ => q
  | .scat q _ _ _ _ _ => q
  | .cvsign q _ _ _ _ => q
  | .cvwait q _ _ => q
  | .cvrst q _ => q
  | .waitc q _ _ _ _ => q
  | .mwait q _ _ _ _ _ => q
  | .park q _ => q
  | .thal q _ _ _ _ _ => q
  | .threl q _ => q
  | .thgive q _ _ => q
  | .thinfo q _ _ => q
  | .cpyt q _ _ _ _ => q
  | .thst q _ _ _ _ => q
  | .accz q _ _ => q
  | .accld q _ _ _ _ _ => q
  | .accst q _ _ _ _ _ _ => q
  | .accrd q _ _ _ => q
  | .mma q _ _ _ _ _ => q
  | .mmal q _ _ _ _ _ _ => q
  | .phmma q _ _ _ _ _ => q
  | .phfin q _ _ _ _ _ => q
  | .qnt q _ _ _ _ _ _ _ _ => q
  | .qopen q _ _ _ _ => q
  | .qrsv q _ _ _ _ _ => q
  | .qput q _ _ _ _ _ _ _ => q
  | .qputs q _ _ _ _ _ _ _ => q
  | .qtake q _ _ _ _ _ _ => q
  | .qtakes q _ _ _ _ _ _ _ => q
  | .qpeek q _ _ _ _ => q
  | .qwait q _ _ _ => q
  | .qreset q _ _ _ => q
  | .qclose q _ _ _ => q
  | .launch q _ _ _ _ => q
  | .signal q _ _ _ _ _ _ => q
  | .trap q _ => q
  | .rth q => q
  | .sread q _ _ => q
  | .swrite q _ _ => q
  | .yieldpt q _ => q
  | .bkpt q _ => q
  | .ecall q _ _ _ => q
  | .issueGroup _ _ _ => ⟨15, 15, false, false, false, false, false, 0, false⟩
  | .longLatencyWriteback _ => ⟨15, 15, false, false, false, false, false, 0, false⟩
  | .yieldDelayEnd _ => ⟨15, 15, false, false, false, false, false, 0, false⟩
  | .convstall _ => ⟨15, 15, false, false, false, false, false, 0, false⟩
  | .waystationTimer _ _ _ => ⟨15, 15, false, false, false, false, false, 0, false⟩
  | .waystationLaunch _ _ _ => ⟨15, 15, false, false, false, false, false, 0, false⟩
  | .warpRetire _ => ⟨15, 15, false, false, false, false, false, 0, false⟩
  | .tlbWalk _ => ⟨15, 15, false, false, false, false, false, 0, false⟩
  | .hLoadMiss _ => ⟨15, 15, false, false, false, false, false, 0, false⟩
  | .hWriteAccept _ => ⟨15, 15, false, false, false, false, false, 0, false⟩
  | .hWritePerform _ => ⟨15, 15, false, false, false, false, false, 0, false⟩
  | .recallAnswer _ _ _ => ⟨15, 15, false, false, false, false, false, 0, false⟩
  | .partialCombine _ => ⟨15, 15, false, false, false, false, false, 0, false⟩
  | .partialPushDeadline _ _ _ => ⟨15, 15, false, false, false, false, false, 0, false⟩
  | .nearCacheEvict _ _ _ => ⟨15, 15, false, false, false, false, false, 0, false⟩
  | .writeBackAccept _ => ⟨15, 15, false, false, false, false, false, 0, false⟩
  | .engineStart _ _ => ⟨15, 15, false, false, false, false, false, 0, false⟩
  | .engineChunk _ _ _ => ⟨15, 15, false, false, false, false, false, 0, false⟩
  | .engineComplete _ => ⟨15, 15, false, false, false, false, false, 0, false⟩
  | .matrixStart _ _ => ⟨15, 15, false, false, false, false, false, 0, false⟩
  | .matrixComplete _ _ => ⟨15, 15, false, false, false, false, false, 0, false⟩
  | .tokenCapture _ _ => ⟨15, 15, false, false, false, false, false, 0, false⟩
  | .tokenRelease _ _ => ⟨15, 15, false, false, false, false, false, 0, false⟩
  | .tokenForcedRelease _ _ => ⟨15, 15, false, false, false, false, false, 0, false⟩
  | .groupPlace _ _ _ _ => ⟨15, 15, false, false, false, false, false, 0, false⟩
  | .parking _ => ⟨15, 15, false, false, false, false, false, 0, false⟩
  | .parkSaveDone _ => ⟨15, 15, false, false, false, false, false, 0, false⟩
  | .watchTimerFire _ => ⟨15, 15, false, false, false, false, false, 0, false⟩
  | .mwaitTimeout _ => ⟨15, 15, false, false, false, false, false, 0, false⟩
  | .parkDelayEnd _ => ⟨15, 15, false, false, false, false, false, 0, false⟩
  | .relaunch _ _ _ => ⟨15, 15, false, false, false, false, false, 0, false⟩
  | .groupRetire _ => ⟨15, 15, false, false, false, false, false, 0, false⟩
  | .csigIncrement _ => ⟨15, 15, false, false, false, false, false, 0, false⟩
  | .irqTimer _ => ⟨15, 15, false, false, false, false, false, 0, false⟩
  | .lineMonitorParse _ => ⟨15, 15, false, false, false, false, false, 0, false⟩
  | .deltaLaunch _ => ⟨15, 15, false, false, false, false, false, 0, false⟩
  | .fenceRecord _ => ⟨15, 15, false, false, false, false, false, 0, false⟩
  | .fenceRecordMet _ => ⟨15, 15, false, false, false, false, false, 0, false⟩
  | .signalWrite _ => ⟨15, 15, false, false, false, false, false, 0, false⟩
  | .queuePriority _ => ⟨15, 15, false, false, false, false, false, 0, false⟩
  | .nopRecord _ => ⟨15, 15, false, false, false, false, false, 0, false⟩
  | .pageMode _ => ⟨15, 15, false, false, false, false, false, 0, false⟩
  | .pageInvalidate _ => ⟨15, 15, false, false, false, false, false, 0, false⟩
  | .pageModeDrainEnd _ _ => ⟨15, 15, false, false, false, false, false, 0, false⟩
  | .pageModeRelease _ _ => ⟨15, 15, false, false, false, false, false, 0, false⟩
  | .pageModeSignal _ => ⟨15, 15, false, false, false, false, false, 0, false⟩
  | .hostcopy _ _ _ _ => ⟨15, 15, false, false, false, false, false, 0, false⟩
  | .hostcopyEnd _ => ⟨15, 15, false, false, false, false, false, 0, false⟩
  | .queueSteal _ _ => ⟨15, 15, false, false, false, false, false, 0, false⟩
  | .homeOpen _ _ => ⟨15, 15, false, false, false, false, false, 0, false⟩
  | .homeReserve _ _ => ⟨15, 15, false, false, false, false, false, 0, false⟩
  | .homeFill _ _ => ⟨15, 15, false, false, false, false, false, 0, false⟩
  | .homeTake _ _ => ⟨15, 15, false, false, false, false, false, 0, false⟩
  | .homePeek _ _ => ⟨15, 15, false, false, false, false, false, 0, false⟩
  | .homeWait _ _ => ⟨15, 15, false, false, false, false, false, 0, false⟩
  | .homeReset _ _ => ⟨15, 15, false, false, false, false, false, 0, false⟩
  | .homeClose _ _ => ⟨15, 15, false, false, false, false, false, 0, false⟩
  | .queueAnswer _ => ⟨15, 15, false, false, false, false, false, 0, false⟩
  | .dieResetAnnounce _ _ => ⟨15, 15, false, false, false, false, false, 0, false⟩
  | .signalApply _ _ => ⟨15, 15, false, false, false, false, false, 0, false⟩
  | .ecallServe _ _ _ => ⟨15, 15, false, false, false, false, false, 0, false⟩
  | .ecallAnswer _ => ⟨15, 15, false, false, false, false, false, 0, false⟩
  | .haltLineArrival _ _ _ => ⟨15, 15, false, false, false, false, false, 0, false⟩
  | .stopRecords _ _ => ⟨15, 15, false, false, false, false, false, 0, false⟩
  | .preemptionRequest _ => ⟨15, 15, false, false, false, false, false, 0, false⟩
  | .preemptionDeadline _ => ⟨15, 15, false, false, false, false, false, 0, false⟩
  | .groupSaveByMaps _ => ⟨15, 15, false, false, false, false, false, 0, false⟩
  | .sliceEnd _ => ⟨15, 15, false, false, false, false, false, 0, false⟩
  | .dataFlit _ _ => ⟨15, 15, false, false, false, false, false, 0, false⟩
  | .nak _ _ => ⟨15, 15, false, false, false, false, false, 0, false⟩
  | .replayTimeout _ => ⟨15, 15, false, false, false, false, false, 0, false⟩
  | .nakHoldoffEnd _ => ⟨15, 15, false, false, false, false, false, 0, false⟩
  | .controlFlitRepeat _ => ⟨15, 15, false, false, false, false, false, 0, false⟩
  | .idle _ _ => ⟨15, 15, false, false, false, false, false, 0, false⟩
  | .marker _ _ => ⟨15, 15, false, false, false, false, false, 0, false⟩
  | .stompedFlit _ _ => ⟨15, 15, false, false, false, false, false, 0, false⟩
  | .reservedFlit _ _ => ⟨15, 15, false, false, false, false, false, 0, false⟩
  | .headerCheckFail _ _ _ => ⟨15, 15, false, false, false, false, false, 0, false⟩
  | .lossOfLight _ _ => ⟨15, 15, false, false, false, false, false, 0, false⟩
  | .loss _ _ => ⟨15, 15, false, false, false, false, false, 0, false⟩
  | .errorRateThreshold _ _ _ => ⟨15, 15, false, false, false, false, false, 0, false⟩
  | .retrain _ _ => ⟨15, 15, false, false, false, false, false, 0, false⟩
  | .retrainTimeout _ => ⟨15, 15, false, false, false, false, false, 0, false⟩
  | .lpr _ _ => ⟨15, 15, false, false, false, false, false, 0, false⟩
  | .trainingTimeout _ => ⟨15, 15, false, false, false, false, false, 0, false⟩
  | .linkEnable _ => ⟨15, 15, false, false, false, false, false, 0, false⟩
  | .linkDisable _ => ⟨15, 15, false, false, false, false, false, 0, false⟩
  | .sampleInterval _ _ _ _ _ => ⟨15, 15, false, false, false, false, false, 0, false⟩
  | .marginPlan _ _ _ _ _ => ⟨15, 15, false, false, false, false, false, 0, false⟩
  | .thermalTrip _ _ _ => ⟨15, 15, false, false, false, false, false, 0, false⟩
  | .dieReset _ => ⟨15, 15, false, false, false, false, false, 0, false⟩
  | .powerOn _ _ => ⟨15, 15, false, false, false, false, false, 0, false⟩
  | .hostWindowWrite _ _ _ => ⟨15, 15, false, false, false, false, false, 0, false⟩
  | .hostSignalWrite _ _ _ => ⟨15, 15, false, false, false, false, false, 0, false⟩
  | .hostRegisterWrite _ _ _ => ⟨15, 15, false, false, false, false, false, 0, false⟩
  | .createContext _ _ _ => ⟨15, 15, false, false, false, false, false, 0, false⟩
  | .destroyContext _ => ⟨15, 15, false, false, false, false, false, 0, false⟩
  | .haltRequest _ => ⟨15, 15, false, false, false, false, false, 0, false⟩
  | .saveContext _ => ⟨15, 15, false, false, false, false, false, 0, false⟩
  | .resumeContext _ _ _ => ⟨15, 15, false, false, false, false, false, 0, false⟩
  | .writePageTableEntries _ => ⟨15, 15, false, false, false, false, false, 0, false⟩
  | .createQueue _ _ _ _ _ => ⟨15, 15, false, false, false, false, false, 0, false⟩
  | .deleteQueue _ => ⟨15, 15, false, false, false, false, false, 0, false⟩
  | .bindQids _ => ⟨15, 15, false, false, false, false, false, 0, false⟩
  | .readHarvestMap _ => ⟨15, 15, false, false, false, false, false, 0, false⟩
  | .readEventRing _ => ⟨15, 15, false, false, false, false, false, 0, false⟩
  | .readEcallLog _ => ⟨15, 15, false, false, false, false, false, 0, false⟩
  | .readSampleBuffer _ => ⟨15, 15, false, false, false, false, false, 0, false⟩
  | .readEnergyBanks _ => ⟨15, 15, false, false, false, false, false, 0, false⟩
  | .attest _ => ⟨15, 15, false, false, false, false, false, 0, false⟩
  | .writeFirmwareImage _ => ⟨15, 15, false, false, false, false, false, 0, false⟩
  | .setPowerLimit _ => ⟨15, 15, false, false, false, false, false, 0, false⟩
  | .freeze _ => ⟨15, 15, false, false, false, false, false, 0, false⟩
  | .resetCoreDie _ => ⟨15, 15, false, false, false, false, false, 0, false⟩
  | .spuriousWakeup _ => ⟨15, 15, false, false, false, false, false, 0, false⟩
  | .lightRestored _ _ => ⟨15, 15, false, false, false, false, false, 0, false⟩
  | .trainingEnd _ _ => ⟨15, 15, false, false, false, false, false, 0, false⟩
  | .reservedTypeRecord _ => ⟨15, 15, false, false, false, false, false, 0, false⟩
  | .unassignedCommand _ => ⟨15, 15, false, false, false, false, false, 0, false⟩

/-- The opcode byte of an instruction, 0 for a step that has no word. -/
def Instr.opcode (i : Instr) : Nat := match i.toRaw with | some r => r.op.toNat | none => 0

/-- A late-slot opcode (R71). -/
def lateSlot (op : Nat) : Bool :=
  op == 0x60 || op == 0x61 || op == 0x62 || op == 0x63 || op == 0x64 || op == 0x65 || op == 0x68 || op == 0xF1

/-- An asynchronous opcode (R71). -/
def asyncOp (op : Nat) : Bool :=
  (decide (0xA5 ≤ op) && decide (op ≤ 0xAA)) || op == 0xC4 || op == 0xC5 || op == 0xC7 || op == 0xC8 ||
    op == 0xE3 || op == 0xE5 || op == 0xEA

/-- Whether a clause of class `eng` allows an opcode in a slot, the last one or an earlier one (R71). -/
def clauseAllows (eng op : Nat) (last : Bool) : Bool :=
  (!lateSlot op || last) &&
  match eng with
  | 0 => !(decide (0xD0 ≤ op) && decide (op ≤ 0xD4))
  | 1 => true
  | _ => decide (op ≤ 0x27) || asyncOp op || lateSlot op

end Sys2Proof
end

