-- ==== Sys2Proof/Machine/State.lean ====
section
/-! DEFINITION. The state of the H8 package: every piece of state that the spec names, as plain data. Sparse
pieces are sorted tables (`Tbl`) or lists of memory cells in canonical form. The fields under "the model's own" at
the end of `State` are not the spec's: they say which agent moves next, which fresh identifier comes next, and
whether the step under way has met a fault of the model. -/

namespace Sys2Proof.Machine

open Host (Cell)

/-- Why the machine stops. -/
inductive Fault where
  /-- An access names a physical address at or above 2^37, which no HBM of a die has (R173). Raised by the table
  walk, by a QID-table read and by the writers of stop records. Safe: the machine stops where nothing exists. -/
  | noSuchPhysical (die addr : Nat)
  deriving DecidableEq, Repr

/-- Why an instruction has no meaning. -/
inductive Refusal where
  /-- Raised by an arm of `exec` whose instruction has no meaning yet. Safe: the machine stops. -/
  | notModelled (mnemonic : String)
  deriving DecidableEq, Repr

/-- The causes (R364). -/
inductive Cause where
  | illop | illhdr | badtarget | pagefault | pageprot | pagemode | misalign | hndrel | hndown | hndfmt
  | mmacoord | accrange | spadrange | qnotbound | qprot | qvoid | qhomelost | qrange | qfull | cvcount
  | convstall | awdisarmed | tagtrap | emptyreg | bkpt | trapsw
  deriving DecidableEq, Repr

/-- A wait of a thread: the WAITK code of R375, the value waited on, and a place (an offset, a register number, a
virtual address or an identifier, by kind). Mark: DEDUCED (log 65). -/
structure Wait where
  kind  : Nat
  val   : W64
  place : Nat
  deriving DecidableEq, Repr

/-- Thread states (R110). HANDLER is `Thread.handler`: a thread in a handler is also ready, issuing or waiting. -/
inductive TState where
  | ready
  /-- READY during a YIELD delay: not eligible before this clk (R119). -/
  | delayed (until_ : Nat)
  | issuing
  | blocked (w : Wait)
  | point
  | parked (w : Option Wait)
  /-- Stopped: the STATE code of R375 and the wait that it was in. -/
  | stopped (was : Nat) (w : Option Wait)
  | exited
  deriving DecidableEq, Repr

/-- How control reached a PC that R68 has still to check. Mark: DEDUCED (log 23). -/
inductive Xfer where
  | slot0 | anySlot
  deriving DecidableEq, Repr

/-- What a failed walk reports (R189), to the accesses of one page. -/
structure WalkFault where
  base   : Nat
  span   : Nat
  cause  : Cause
  reason : Nat
  level  : Nat
  psize  : Nat
  owner  : Nat
  deriving DecidableEq, Repr

/-- A thread (R104). Register numbers not listed hold zero; register numbers not in `empty` are full (R78). -/
structure Thread where
  warp       : Nat
  lane       : Nat
  regs       : Tbl W32
  empty      : List Nat
  preds      : BitVec 16
  fpstat     : BitVec 5
  wct        : W64
  /-- WCT is a time of the die that the thread ran on before a resume: it is compared with no time of this die (R5). -/
  wctAway    : Bool
  workid     : W64
  qstat      : W32
  pc         : W64
  xfer       : Option Xfer
  st         : TState
  readyAt    : Nat
  /-- The last clause of the thread had the yield hint (R70). -/
  yielded    : Bool
  waitFrom   : Nat
  handler    : Option W32
  epc        : W64
  einfo      : W32
  rosterPend : Bool
  latch      : Option (BitVec 512)
  deferred   : List (Cause × W32)
  /-- A class F cause that came when the context's halt was already under way (R363, R375). -/
  late       : Option Cause
  walkFault  : Option WalkFault
  mayFired   : Bool
  waitDone   : Bool
  stopMap    : Option Nat
  allLive    : Bool
  /-- The WAITK code of a shared resource, a tile or engine-queue room, granted to this waiter; 0 for none. -/
  grant      : Nat
  deriving DecidableEq, Repr

/-- One outstanding operation on a counter of a warp, in issue order (R84). `ctr` is 0 CP, 1 MX, 2 QU, 3 GS. Its
completion report hands over the deferred causes of R237 and R342, by thread. -/
structure Outst where
  seq   : Nat
  ctr   : Nat
  op    : Nat
  done  : Bool
  defer : List (Nat × Cause × W32)
  deriving DecidableEq, Repr

/-- An issue group (R111, R112). -/
structure IGroup where
  die     : Nat
  core    : Nat
  launch  : Nat
  hdr     : W64
  eng     : Nat
  count   : Nat
  dict    : Bool
  /-- The header's yield hint (R70). -/
  yld     : Bool
  slot    : Nat
  members : List Nat
  deriving DecidableEq, Repr

/-- A warp point at which members of a warp have arrived (R124): the group and slot that issued it, its word, the clk that its
watchdog has counted, the members that took CONVSTALL there and have not come back (R132), and the die time at which each member
that waits fetched the word (R396). -/
structure PointRec where
  ig      : IGroup
  word    : W64
  count   : Nat
  stalled : List Nat
  fetched : Tbl Nat
  deriving DecidableEq, Repr

/-- A warp (R105 to R107), with the warp points that members have reached. -/
structure Warp where
  group    : Nat
  num      : Nat
  laneSet  : Nat
  width    : Nat
  prio     : Nat
  roster   : BitVec 64
  cp       : Nat
  mx       : Nat
  qu       : Nat
  gs       : Nat
  tokwait  : W32
  wcause   : W32
  outst    : List Outst
  points   : List PointRec
  deriving DecidableEq, Repr

/-- Handle states (R261). -/
inductive HState where
  | free | allocated | loading | ready | busy | released
  deriving DecidableEq, Repr

/-- A handle name (R259): its record, its physical tile, and the tile's contents while the group is not resident. -/
structure Handle where
  fmt   : BitVec 4
  bl    : BitVec 2
  rows  : Byte
  cols  : Byte
  st    : HState
  owner : Nat
  soff  : Nat
  tile  : Option Nat
  saved : List Cell
  deriving DecidableEq, Repr

/-- The matrix operation that a generation of a convergence register gathers (R277), with the handle record at its
first signature. `tag` marks the issue group that is adding signatures, until it has been counted (R276). -/
structure MGen where
  id      : Nat
  op      : Nat
  ebits   : Byte
  tile    : Nat
  coord   : W32
  warp    : Nat
  rows    : Tbl (BitVec 512)
  signers : List Nat
  seqs    : List Nat
  handle  : Nat
  hrec    : Handle
  tag     : Option Nat
  snap    : Option (List Cell)
  pc      : W64
  word    : W64
  deriving DecidableEq, Repr

/-- A convergence register (R242) with the matrix operation that its generation holds. -/
structure Cv where
  gen   : W32
  count : Nat
  sigs  : Nat
  mgen  : Option MGen
  deriving DecidableEq, Repr

/-- A physical tile (R258): bytes that are not zero, the CPYTs writing it and the operations reading it. -/
structure Tile where
  bytes   : List Cell
  writers : List Nat
  readers : List Nat
  deriving DecidableEq, Repr

/-- An LDS or STS that waits on a tag (R210), or an AWAIT that waits on a generation (R233), oldest first. -/
structure TagWait where
  thread : Nat
  word   : Nat
  off    : Nat
  sz     : Nat
  /-- 0 LDS wait, 1 LDS take, 2 STS fill, 3 AWAIT. -/
  kind   : Nat
  dst    : List Nat
  sext   : Bool
  data   : List Byte
  gen    : BitVec 16
  prod   : Nat
  deriving DecidableEq, Repr

/-- Group states (R300). A PENDING group has no record of its own: its launch counts it. -/
inductive GState where
  | resident | parking | parked | waking | stopped | retired
  deriving DecidableEq, Repr

/-- A continuation (R120): `index` counts an initial thread of the group from 0 (R296), and `src` is the thread whose SPAWN made
it, with that slot's PC and word and its place in the order of issue. -/
structure Cont where
  entry : W64
  work  : W64
  pay   : List W32
  index : Option Nat
  src   : Option (Nat × W64 × W64 × Nat)
  deriving DecidableEq, Repr

/-- A waystation (R121): its key, its continuations in arrival order, the clk at which its timer started, and
whether a warp launch is due. -/
structure Station where
  group : Nat
  entry : W64
  conts : List Cont
  since : Nat
  due   : Bool
  /-- The launch met a page cause at its entry and is replayable (R188). -/
  held  : Bool
  deriving DecidableEq, Repr

/-- A group (R296 to R300). -/
structure Group where
  launch    : Nat
  ctx       : Nat
  key       : W64
  die       : Nat
  vdie      : Nat
  core      : Nat
  vcore     : Nat
  num       : Nat
  st        : GState
  ks        : List W32
  spadBase  : Nat
  accBase   : Nat
  spad      : List Cell
  tags      : List Nat
  acc       : Tbl W32
  cvs       : Tbl Cv
  handles   : Tbl Handle
  tagWaits  : List TagWait
  fed       : Nat
  energy    : Nat
  issues    : Nat
  slot      : Option Nat
  wakeBy    : List Nat
  wokeAt    : Nat
  /-- The lane sets of the warp slots reserved for initial warps that have not launched yet, by warp number (R298). -/
  reserved  : Tbl Nat
  /-- The largest WCT of the threads of retired warps, and those warps (R307). -/
  wct       : Nat
  past      : List Nat
  /-- The energy record has been written (R400). -/
  recorded  : Bool
  /-- The waystations of a saved stopped group (R378). -/
  stations  : List Station
  deriving DecidableEq, Repr

/-- A loaded dictionary (R82), by context and address. -/
structure Dict where
  ctx   : Nat
  addr  : W64
  words : Tbl W64
  deriving DecidableEq, Repr

/-- A core (R25): its clk counter, dictionary slots, fetched lines, waystations, and the launches that have issued in this clk
(R302). -/
structure Core where
  clk       : Nat
  dicts     : List Dict
  lines     : Tbl (List Cell)
  stations  : Tbl Station
  issuedNow : List Nat
  /-- The lowest lane of the issue group that last made convergence requests in this clk (R244). -/
  cvLane    : Option Nat
  deriving DecidableEq, Repr

/-- A translation held by a TLB (R180). -/
structure TlbE where
  ctx  : Nat
  base : Nat
  size : Nat
  leaf : W64
  deriving DecidableEq, Repr

/-- A table pointer held by the walk cache (R180): the table of `level` for addresses with this prefix. -/
structure WalkC where
  ctx    : Nat
  level  : Nat
  pfx    : Nat
  table  : Nat
  deriving DecidableEq, Repr

/-- A walk in progress or queued (R181), for the page `[base, base + span)`; each waiting thread with the KIND of its access. -/
structure Walk where
  die     : Nat
  ctx     : Nat
  va      : Nat
  base    : Nat
  span    : Nat
  write   : Bool
  cores   : List Nat
  waiters : List (Nat × Nat)
  deriving DecidableEq, Repr

/-- A near-cache sector (R194, R197): its valid bytes, which are dirty, the lease expiry in H pages, and the cache hint of the
latest access that brought it in (R199). -/
structure Sector where
  ctx    : Nat
  bytes  : List Cell
  dirty  : List Nat
  expiry : Option Nat
  hint   : BitVec 2
  deriving DecidableEq, Repr

/-- An update-only partial (R201): one function and width, the reduced words, the threads whose REDs it holds. -/
structure Partial where
  ctx     : Nat
  fn      : BitVec 4
  w64     : Bool
  words   : Tbl W64
  threads : List Nat
  opened  : Nat
  dieScope : Bool
  deriving DecidableEq, Repr

/-- A partial on its way home (R203). -/
structure Push where
  die  : Nat
  core : Nat
  line : Nat
  part : Partial
  deriving DecidableEq, Repr

/-- What an access asks of home. -/
inductive HKind where
  /-- A load of `size` bytes with this lease in dt, filling the near cache when `keep`. -/
  | load (lease : Nat) (fill : Bool) (prod : Nat) (sext : Bool) (words : Nat)
  | store (bytes : List Byte)
  | atom (fn : BitVec 4) (b : W64) (prod : Option Nat)
  | acas (b c : W64) (prod : Option Nat)
  | redOrd (fn : BitVec 4) (b : W64)
  /-- A partial that home combines: its words by offset in the line. -/
  | part (fn : BitVec 4) (w64 : Bool) (words : Tbl W64)
  deriving DecidableEq, Repr

/-- A load that shares the request of an earlier miss (R200): its producer, address, size and extension. -/
structure Sharer where
  prod : Nat
  pa   : Nat
  size : Nat
  sext : Bool
  deriving DecidableEq, Repr

/-- An access on its way to home, or waiting there for recalls (R195, R202). `ig` and `born` are the issue group and the clk of
its issue, `also` the loads that share it (R200), `after` the writes of combined partials that it follows (R202), and `hint` the
cache hint of a load that brings its sector in (R199). -/
structure HReq where
  die    : Nat
  core   : Nat
  ctx    : Nat
  thread : Option Nat
  op     : Option Nat
  pa     : Nat
  size   : Nat
  kind   : HKind
  mode   : Nat
  recalls : Option (List Nat)
  ig     : Nat
  born   : Nat
  also   : List Sharer
  after  : List Nat
  hint   : BitVec 2
  deriving DecidableEq, Repr

/-- A write that home has accepted and performs at `w` (R196), of these threads: a combined partial holds the REDs of several.
`op` is an engine operation waiting for it. -/
structure PWrite where
  die    : Nat
  pa     : Nat
  size   : Nat
  kind   : HKind
  w      : Nat
  threads : List Nat
  op     : Option Nat
  deriving DecidableEq, Repr

/-- Dirty bytes on their way home (R192, R217): byte address within the die and value; the threads whose CWB, and those whose
CINV, waits for them to be accepted. -/
structure WBack where
  die    : Nat
  core   : Nat
  ctx    : Nat
  bytes  : List Cell
  cwbs   : List Nat
  cinvs  : List Nat
  deriving DecidableEq, Repr

/-- How a long-latency producer's value comes about (R79). -/
inductive PVal where
  /-- The value is known and is on its way. -/
  | val (ws : List W32)
  /-- An S or P load waiting for its fill: physical address, size, sign extension, hint; the producer whose request it shares
  (its own number where it has one of its own), with that request's issue group and clk (R200). -/
  | fill (pa size : Nat) (sext : Bool) (hint : BitVec 2) (leader ig born : Nat)
  | home
  | tagged
  | cvWait (cv : Nat) (gen : W32)
  | queue
  deriving DecidableEq, Repr

/-- A long-latency producer in flight (R79): its thread, destination registers and value. `mem` marks an access to
die memory at this byte range, for R206 and R216. -/
structure Prod where
  thread : Nat
  core   : Nat
  regs   : List Nat
  val    : PVal
  mem    : Option (Nat × Nat)
  /-- Abandoned by a halt, with its destination restored: it starts again at resume (R79, R373). -/
  held   : Bool
  pc     : W64
  word   : W64
  deriving DecidableEq, Repr

/-- An MWAIT of a thread (R252): the sector, its own word's address, its deadline in dt, which counts from its first issue. It is
armed once the word has been read. -/
structure Monitor where
  armed    : Bool
  thread   : Nat
  die      : Nat
  sector   : Nat
  va       : W64
  pa       : Nat
  w64      : Bool
  cmp      : W64
  deadline : Option Nat
  deriving DecidableEq, Repr

/-- A watch record (R254): KIND 1 ADDR, 2 QHEAD, 3 TIMER. -/
structure Watch where
  die      : Nat
  kind     : Nat
  w64      : Bool
  mayFired : Bool
  ctx      : Nat
  group    : Nat
  slot     : Nat
  key      : W64
  value    : W64
  paddr    : Nat
  thread   : Option Nat
  deriving DecidableEq, Repr

/-- A place that an engine reads or writes byte by byte. -/
inductive Place where
  | die | spad | tile | acc
  deriving DecidableEq, Repr

/-- The shape of a transfer (R239, R240, R270, R273). -/
inductive XKind where
  | cpy | cpyn | cpyx | cpyp | gath | scat | cpyt | thst | accld | accst
  deriving DecidableEq, Repr

/-- One transfer of an engine operation (R234): operands captured at issue, progress, arrival bytes added. Mark: DESIGN CHOICE (log 18). -/
structure Transfer where
  thread  : Nat
  lane    : Nat
  kind    : XKind
  dpl     : Place
  spl     : Place
  dst     : Nat
  src     : Nat
  len     : Nat
  rows    : Nat
  sstr    : Int
  dstr    : Int
  esz     : Nat
  tile    : Nat
  fmt     : BitVec 4
  coord   : W32
  clr     : Bool
  aw      : Option Nat
  ix      : Nat
  index   : Option (List Int)
  written : List Nat
  done    : List Nat
  arrived : Nat
  /-- Bytes that a replay does not add again, and bytes added so far (R238). -/
  skip    : Nat
  added   : Nat
  /-- An arrival met a disarmed word (R237). -/
  bad     : Bool
  /-- Cells that ACCST has read and cleared, which a replay writes again (R188). -/
  kept    : Tbl W32
  deriving DecidableEq, Repr

/-- An operation of the copy, gather and scatter engine for one warp (R234). Mark: DESIGN CHOICE (log 18). -/
structure EngOp where
  die       : Nat
  core      : Nat
  ctx       : Nat
  group     : Nat
  warp      : Nat
  ctr       : Nat
  seq       : Nat
  handle    : Option Nat
  word      : W64
  pc        : W64
  lanes     : BitVec 64
  transfers : List Transfer
  started   : Bool
  /-- Abandoned and replayable: it starts again at resume (R373, R379). -/
  held      : Bool
  /-- While its group is saved, the contents of a tile that it uses and that its name no longer has (R261). -/
  snap      : Option (List Cell)
  deriving DecidableEq, Repr

/-- A matrix operation in a core's engine queue (R283): `user` is the name under which it uses its tile, and `snap` the
copy of the tile that an abandoned operation keeps (R417). -/
structure MOp where
  user    : Nat
  die     : Nat
  core    : Nat
  group   : Nat
  warp    : Nat
  op      : Nat
  ebits   : Byte
  tile    : Option Nat
  handle  : Nat
  coord   : W32
  dst     : Nat
  extent  : W32
  cn      : W32
  rows    : Tbl (BitVec 512)
  members : List Nat
  seqs    : List Nat
  running : Bool
  scales  : List Byte
  held    : Bool
  hrec    : Handle
  tag     : Option Nat
  snap    : Option (List Cell)
  pc      : W64
  word    : W64
  deriving DecidableEq, Repr

/-- The token of a cluster (R293, R294). -/
structure Cluster where
  held    : Bool
  /-- Consecutive clk in which no engine of the cluster holds or runs an operation. -/
  idleFor : Nat
  /-- clk for which the token has been held. -/
  heldFor : Nat
  deriving DecidableEq, Repr

/-- Ticket states (R339). TAKEN tickets are not listed. `by_` is the requester's physical die. -/
inductive TkState where
  | reserved (by_ : Nat)
  | filled
  | void
  deriving DecidableEq, Repr

/-- Queue states (R338). -/
inductive QState where
  | free | active | closed | resetting
  deriving DecidableEq, Repr

/-- What a queue request asks of home (R344 to R354, R328). -/
inductive QOp where
  | open_ (rights : BitVec 3)
  | reserve (n : Nat)
  | fill (ticket : Nat) (bytes : List Byte)
  | take (len : Nat)
  | takes (m off : Nat)
  | peek (rights : BitVec 3)
  | wait
  | reset
  | close
  | launch (bytes : List Byte)
  deriving DecidableEq, Repr

/-- A queue request on its way from a port to home, or pending there (R336, R343). -/
structure QReq where
  id     : Nat
  src    : Nat
  home   : Nat
  slot   : Nat
  inc    : BitVec 16
  key    : BitVec 48
  conf   : Bool
  ctx    : Nat
  thread : Nat
  warp   : Nat
  group  : Nat
  qid    : W32
  opcode : Byte
  op     : QOp
  /-- The registers of a destination written as the thread leaves the slot (R344). -/
  regs   : List Nat
  st     : Bool
  ps     : PredNo
  prod   : Option Nat
  eop    : Option Nat
  posted : Bool
  /-- The instruction word and the slot that issued the request (R376). -/
  word   : W64
  pc     : W64
  deriving DecidableEq, Repr

/-- An answer of home, or of the issuing port, on its way to the thread (R342). `served` marks an element that home
has taken for the request (R358). -/
structure QAns where
  req    : QReq
  code   : Nat
  value  : W64
  bytes  : List Byte
  served : Nat
  deriving DecidableEq, Repr

/-- A queue (R333). -/
structure Queue where
  ctx      : Nat
  vf       : Nat
  st       : QState
  esize    : Nat
  conf     : Bool
  lq       : Bool
  window   : Nat
  spilllog : Option Nat
  wbase    : Nat
  inc      : BitVec 16
  sbase    : Nat
  keyp     : BitVec 48
  keyc     : BitVec 48
  keyr     : BitVec 48
  head     : Nat
  tail     : Nat
  rmark    : Nat
  errs     : Nat
  tickets  : Tbl TkState
  byLaunch : List Nat
  takes    : List QReq
  waiters  : List QReq
  /-- The QRESET under way (R352, R353). -/
  resetBy  : Option QReq
  deriving DecidableEq, Repr

/-- An asynchronous queue operation (QPUTS, QTAKES, LAUNCH) outstanding on QU (R342). -/
structure QuOp where
  thread   : Nat
  warp     : Nat
  group    : Nat
  die      : Nat
  ctx      : Nat
  opcode   : Byte
  qid      : W32
  seq      : Nat
  st       : Bool
  ps       : PredNo
  prod     : Option Nat
  first    : Nat
  count    : Nat
  off      : Nat
  esize    : Nat
  answered : Nat
  /-- Tickets of a QPUTS that home has filled: their elements are what it has moved (R397). -/
  filled   : Nat
  code     : Nat
  /-- Tickets of a QPUTS that home has taken. -/
  moved    : Nat
  /-- Abandoned and replayable (R357). -/
  held     : Bool
  pc       : W64
  word     : W64
  deriving DecidableEq, Repr

/-- A QID entry cached by a port (R335, R336). -/
structure QidE where
  ctx  : Nat
  die  : Nat
  qid  : Nat
  bits : BitVec 128
  deriving DecidableEq, Repr

/-- The record that a launch queue has taken and that holds back the next one (R313). -/
inductive CurRec where
  | fence (entries : List (Nat × W32))
  /-- PAGE-MODE: the record's bytes, the old MODE and OWNER of each page by virtual die, the virtual dies still draining
  (each with the first identifier after its shootdown), those whose coherence action is under way, those that have
  released. -/
  | pageMode (bytes : List Byte) (old : Tbl (List (Nat × Nat × Nat))) (drain : Tbl Nat) (release : List Nat) (done : List Nat)
  /-- HOSTCOPY: the record's bytes, the identifier of its writes, the ranges copied so far, whether it stopped. -/
  | hostcopy (bytes : List Byte) (tag : Nat) (copied : List (Nat × Nat)) (stopped : Bool)
  deriving DecidableEq, Repr

/-- A launch queue's window, shadow registers, interrupt state and current record (R310, R311, R315, R322). -/
structure LaunchQ where
  ctx      : Nat
  vf       : Nat
  windex   : Nat
  lines    : List Cell
  expect   : Nat
  consumed : Nat
  refused  : W32
  reason   : Byte
  lasttag  : BitVec 48
  errsig   : Nat
  shadows  : List W32
  pend     : Nat
  timer    : Option Nat
  irqcnt   : Nat
  irqt     : Nat
  vec      : Byte
  run      : Nat
  cur      : Option CurRec
  stopped  : Bool
  deriving DecidableEq, Repr

/-- Launch states (R320). QUEUED and REFUSED launches are records, not launches. -/
inductive LState where
  | accepted | active | complete | killed
  deriving DecidableEq, Repr

/-- A launch (R316 to R321). `next` counts, by virtual die, the groups already placed in group-key order. -/
structure Launch where
  lq       : Nat
  ctx      : Nat
  vf       : Nat
  ls       : List W32
  st       : LState
  prio     : Nat
  lead     : Nat
  tag      : BitVec 48
  order    : Nat
  /-- A die on which it had a group, or which was the home of its queue, has been reset: it never completes (R408). -/
  lost     : Bool
  next     : Tbl Nat
  retired  : Tbl Nat
  /-- By virtual die, die time at which the first group became resident there (R302). -/
  start    : Tbl Int
  reported : List Nat
  /-- By (virtual die, virtual core, phase): BUSY and IDLE (R302). -/
  phases   : Tbl (Nat × Nat)
  /-- The cores, as virtual die × 256 + virtual core, on which a group has been placed. -/
  used     : List Nat
  deriving DecidableEq, Repr

/-- Context states (R363). -/
inductive CState where
  | created | running | halting (preempt : Bool) | halted | saved | resuming | destroyed
  deriving DecidableEq, Repr

/-- A translation record (R362). -/
structure XRec where
  root     : Nat
  qtbase   : Nat
  stopbase : Nat
  deriving DecidableEq, Repr

/-- The class F cause that a die took first (R374). -/
structure DieCause where
  cause  : Cause
  esc    : Bool
  tab    : Bool
  vcore  : Nat
  group  : Nat
  warp   : Nat
  lane   : Nat
  einfo  : W32
  epc    : W64
  faddr  : W64
  /-- The clk of its core, by which causes that a die takes together are ranked. -/
  clk    : Nat
  /-- The thread that raised it; none for a cause of the die scheduler. -/
  thread : Option Nat
  deriving DecidableEq, Repr

/-- The first halt that the hub sees of a context, its primary cause (R373, R408). -/
inductive Primary where
  | cause (vdie : Nat) (c : DieCause)
  | host
  | reset (die : Nat)
  deriving DecidableEq, Repr

/-- Where the halt of a context stands on one die (R372). -/
structure HaltDie where
  cause   : Option DieCause
  arrived : Option Nat
  written : Bool
  deriving DecidableEq, Repr

/-- A context (R361, R363). -/
structure Context where
  vf       : Nat
  st       : CState
  vpkg     : BitVec 16
  qtlen    : Nat
  stoplen  : Nat
  sigbase  : Nat
  sigwords : Nat
  remap    : Tbl Nat
  /-- Queue slots that stand elsewhere since a resume, by virtual die × 65,536 + slot (R379). -/
  slots    : Tbl Nat
  cores    : List (Nat × Nat × Nat)
  xrecs    : Tbl XRec
  halts    : Tbl HaltDie
  primary  : Option Primary
  reason   : Nat
  lineUp   : Bool
  preempt  : Option Nat
  preDies  : List Nat
  weights  : List W32
  dieLost  : Bool
  overflow : Bool
  deriving DecidableEq, Repr

/-- A pending element of a service queue: a SIGNAL update or an ECALL request (R17). -/
structure Service where
  vf     : Nat
  die    : Nat
  vdie   : Nat
  ctx    : Nat
  thread : Nat
  vcore  : Nat
  group  : Nat
  warp   : Nat
  lane   : Nat
  /-- The signal word or the ECALL service. -/
  sel    : Nat
  fn     : Nat
  arg    : W64
  /-- The registers that an ECALL's answer goes to. -/
  regs   : List Nat
  deriving DecidableEq, Repr

/-- An ECALL answer on its way (R381). -/
structure EAns where
  thread : Nat
  ctx    : Nat
  die    : Nat
  vf     : Nat
  value  : W64
  regs   : List Nat
  deriving DecidableEq, Repr

/-- A log entry of ECALL 0x03 (R407). -/
structure LogE where
  a     : W64
  ctx   : Nat
  vdie  : Nat
  vcore : Nat
  group : Nat
  warp  : Nat
  lane  : Nat
  htime : Nat
  deriving DecidableEq, Repr

/-- A core die: its time counter, allotment, ring, clock and supply, and its allocation of firmware memory. -/
structure Die where
  dt       : Nat
  allot    : Nat
  newAllot : Option Nat
  /-- Free tokens, by the cluster at which each stands (R293), and those that a cluster has just released there. -/
  free     : List Nat
  leaving  : List Nat
  /-- The clk since the ring last passed cluster 0 (R30). -/
  ringAt   : Nat
  entering : Nat
  clusters : Tbl Cluster
  mhz      : Nat
  mv       : Nat
  runList  : List Nat
  inReset  : Bool
  /-- Contexts that the die's last reset halted (R407, R408). -/
  lost     : Nat
  /-- Firmware's memory lies from here up, and the frames that it has mapped below `mapTop`. -/
  fwTop    : Nat
  mapTop   : Nat
  deriving DecidableEq, Repr

/-- Link states (R388). -/
inductive LkState where
  | down | training | up | degraded | retraining | failed
  deriving DecidableEq, Repr

/-- A link-parameter record without its HASH (R391). -/
structure LprRec where
  width : Nat
  map   : BitVec 16
  speed : Nat
  epoch : Nat
  deriving DecidableEq, Repr

/-- One direction of a link: its lane map, SPEED and EPOCH as the latest MARKER set them, its last agreed record, the record
that this end proposed or trained, a far proposal that came before this end had trained, whether it has agreed since training
began, the wavelength in training and when that began, and the wavelengths whose light is lost (R382, R386, R389 to R392). -/
structure LinkDir where
  map    : BitVec 16
  speed  : Nat
  epoch  : Nat
  agreed : LprRec
  offer  : Option LprRec
  far    : Option (List Byte)
  done   : Bool
  wave   : Option Nat
  since  : Nat
  dark   : BitVec 16
  /-- A far proposal that this end has echoed, and the echo, while the proposal may be repeated. -/
  echo   : Option (List Byte × List Byte)
  deriving DecidableEq, Repr

/-- A DATA flit in the replay buffer (R387): its payload, whether it was stomped (R393), and the context that caused it
(R401). -/
structure DataFlit where
  seq     : BitVec 12
  payload : List Byte
  stomped : Bool
  ctx     : Option Nat
  deriving DecidableEq, Repr

/-- What a link has still to send: a queue packet or the rest of one (R384), or the payload of one flit as it stands (R389,
R393). -/
structure Chunk where
  bytes   : List Byte
  ctx     : Option Nat
  stomped : Bool
  flit    : Bool
  deriving DecidableEq, Repr

/-- A control flit that is repeated until it is answered, and when it last went out (R387). -/
structure Ask where
  ty      : Nat
  payload : List Byte
  sent    : Nat
  deriving DecidableEq, Repr

/-- A link or bridge (R382 to R394): its state and directions; the transmitter's sequence number, replay buffer, packets that
wait to be sent and time of the last ACK advance; the receiver's expected sequence number and NAK hold-off; control flits
not yet answered; the packets that it has passed upward, the part of a packet that it holds, and how many bytes of a stomped
packet may still come; what it has sent. Mark: DESIGN CHOICE (logs 55, 72). -/
structure Link where
  st        : LkState
  tx        : LinkDir
  rx        : LinkDir
  miss      : Nat
  trainAt   : Nat
  nextSeq   : BitVec 12
  replay    : List DataFlit
  backlog   : List Chunk
  ackAt     : Nat
  heard     : Bool
  expSeq    : BitVec 12
  hunting   : Bool
  nakSent   : Option Nat
  unanswered : List Ask
  upward    : List (List Byte)
  held      : List Byte
  skip      : Nat
  replayed  : Nat
  /-- By receive wavelength: the retraining threshold, and the error rate of the latest window, in errors per 2^32 bits (R383, R390). -/
  thresholds : Tbl Nat
  rates     : Tbl Nat
  beat      : Nat
  /-- Beats received since the latest MARKER (R386). -/
  rxBeat    : Nat
  /-- The link has trained, and the next MARKER gives the SEQ that the receiver expects (R384, R386). -/
  resync    : Bool
  /-- Beats, each with its wavelength (R386). -/
  out       : List (Nat × List Byte)
  deriving DecidableEq, Repr

/-- An event record of the package ring, as its 32 bytes (R394, R395). -/
abbrev EvRec := List Byte

/-- A member of a slot issue that a sampling interval may pick (R396): the die time at which it fetched the word, and the storage that
it reached (LEVEL; 2 where that is home, whose die cache or HBM has answered). -/
structure SampleM where
  thread : Nat
  lane   : Nat
  warp   : Nat
  vcore  : Nat
  group  : Nat
  dt     : Nat
  level  : Nat
  deriving DecidableEq, Repr

/-- A slot issue that a sampling interval may pick (R396); `mark` is the first identifier given after it. -/
structure SampleC where
  members : List SampleM
  pc      : W64
  word    : W64
  caused  : Bool
  mark    : Nat
  deriving DecidableEq, Repr

/-- Sampling of one context on one die (R396). -/
structure Sampling where
  interval : Nat
  start    : Nat
  issues   : List SampleC
  deriving DecidableEq, Repr

/-- A mailbox (R406). -/
structure Mbox where
  cmd     : W32
  status  : W32
  args    : List Cell
  payload : List Cell
  /-- CMD as the doorbell took it. -/
  run     : W32
  /-- A command of several steps has taken its first. -/
  begun   : Bool
  /-- The host has written ARGS or PAYLOAD since the command started (R406). -/
  spoilt  : Bool
  deriving DecidableEq, Repr

/-- Boot states (R409). -/
inductive Boot where
  | romcheck | recovery | loading | ready
  deriving DecidableEq, Repr

/-- A MODE and OWNER in force in a range of virtual addresses, in which another way than a change-mode record has written others
(R186). Mark: DESIGN CHOICE (log 13). -/
structure ModeE where
  base  : Nat
  size  : Nat
  mode  : Nat
  owner : Nat
  deriving DecidableEq, Repr

/-- Which agent moves next. The agenda of the model: what the arbiters, the clocks and the outside world choose. Mark: DESIGN CHOICE (log 1). -/
inductive Turn where
  /-- Die time of a die advances by one dt. -/
  | tickDie (die : Nat)
  /-- The clk of a core advances by one. -/
  | tickCore (die core : Nat)
  /-- The free tokens of a die move one cluster on (R293). -/
  | tickRing (die : Nat)
  /-- The hub clock advances by one hclk. -/
  | tickHub
  /-- A link comes to its next flit boundary: DATA that waits goes out, or an IDLE flit (R384). -/
  | flit (link : Nat)
  /-- The issue group issues its next slot. -/
  | slot (ig : Nat)
  /-- The fetch path of a core drops a line it holds, so that it reads it again (R69). -/
  | dropLine (die core line : Nat)
  /-- A step of the device, firmware or the host. -/
  | act (i : Instr)
  deriving DecidableEq, Repr

/-- The state of the package. -/
structure State where
  -- the package and its dies
  boot      : Boot
  frozen    : Bool
  flash     : List Cell
  committed : Bool
  /-- The running firmware image, as it was loaded (R409, R410). -/
  image     : List Cell
  powerLim  : Nat
  /-- The fixed lines of the power budget, in W (R30). -/
  fixedW    : Nat
  hubMhz    : Nat
  hubMv     : Nat
  hclk      : Nat
  classes   : Tbl (List (BitVec 2))
  spares    : Tbl Byte
  dies      : Tbl Die
  cores     : Tbl Core
  -- die memory (address = die * 2^37 + physical address) and home; what no entry lists reads as 0 (DESIGN CHOICE, log 6)
  mem       : List Cell
  leases    : Tbl Nat
  holders   : Tbl (List Nat)
  hreqs     : Tbl HReq
  pwrites   : Tbl PWrite
  wbacks    : Tbl WBack
  pushes    : Tbl Push
  /-- The recalls that a reader other than a core's request has had home make (R202), by reader and line: the writes of the
  combined partials, which its read follows. -/
  asked     : Tbl (List Nat)
  nc        : Tbl Sector
  partials  : Tbl Partial
  nearTlb   : Tbl (List TlbE)
  dieTlb    : Tbl (List TlbE)
  walkCache : Tbl (List WalkC)
  /-- MODE and OWNER in force, by context × 8 + virtual die, where another way than a change-mode record has written others
  (R186). -/
  modes     : Tbl (List ModeE)
  walks     : Tbl Walk
  -- threads and what they own
  threads   : Tbl Thread
  warps     : Tbl Warp
  groups    : Tbl Group
  igroups   : Tbl IGroup
  prods     : Tbl Prod
  monitors  : Tbl Monitor
  watches   : Tbl Watch
  tiles     : Tbl Tile
  engOps    : Tbl EngOp
  mops      : Tbl MOp
  quOps     : Tbl QuOp
  -- queues
  window    : List Cell
  queues    : Tbl Queue
  qreqs     : List QReq
  /-- Takes that a halt cancelled, to be sent again at resume (R357). -/
  cancelled : List QReq
  answers   : Tbl QAns
  qidCache  : List QidE
  announced : List (Nat × Nat)
  -- the hub
  launchQs  : Tbl LaunchQ
  launches  : Tbl Launch
  contexts  : Tbl Context
  signals   : Tbl W64
  sigTop    : Nat
  sigQueue  : Tbl Service
  callQueue : Tbl Service
  eanswers  : Tbl EAns
  /-- The log of each function, by index, and the next index (R381, R407). -/
  ecallLog  : Tbl (Tbl LogE)
  logNext   : Tbl Nat
  msix      : List (Nat × Byte)
  mailboxes : Tbl Mbox
  /-- The nonce of the latest attest answered on the physical function (R407). -/
  nonce     : Option (List Byte)
  slices    : Tbl Nat
  /-- The energy weight table of each function (R397). -/
  vfWeights : Tbl (List W32)
  host      : List Cell
  /-- The 4 MiB private memories of the function cores, as function × 2^22 + offset (R18); no rule says what they hold. -/
  fnMem     : List Cell
  -- links and observation
  links     : Tbl Link
  /-- The next per-flow sequence of each flow that the hub sends, and the last that a home has accepted of each that arrives (R389). -/
  flows     : Tbl Nat
  accepted  : Tbl Nat
  /-- The package event ring, by index; the next index; records dropped since the ring was full (R395). -/
  ring      : Tbl EvRec
  ringNext  : Nat
  ringDrops : Nat
  sampling  : Tbl Sampling
  /-- The sample buffer of each die, by index, and the next index (R396). -/
  samples   : Tbl (Tbl (List Byte))
  sampleNext : Tbl Nat
  banks     : Tbl Nat
  /-- Placement decisions that each function has had on each die, as die × 16 + function (R330). -/
  decisions : Tbl Nat
  -- the model's own (DESIGN CHOICE, logs 1 and 7)
  agenda    : List Turn
  focus     : Nat
  word      : W64
  nextId    : Nat
  fresh     : Nat
  stuck     : Option Fault
  deriving DecidableEq, Repr

/-- A core die right after reset (R30, R191, R293): time 0, the default allotment of 12 and one free token at each
of clusters 0 to 11. Mark: DESIGN CHOICE (log 5). -/
def Die.reset : Die :=
  { dt := 0, allot := 12, newAllot := none, free := [0, 1, 2, 3, 4, 5, 6, 7, 8, 9, 10, 11], leaving := [], ringAt := 0, entering := 0,
    clusters := [], mhz := 1750, mv := 0, runList := [], inReset := false, lost := 0, fwTop := 2 ^ 37, mapTop := 0 }

/-- A direction of a link right after reset: every wavelength in service (R388). Mark: DESIGN CHOICE (log 5). -/
def LinkDir.reset : LinkDir :=
  { map := 0xFFFF, speed := 0, epoch := 0, agreed := { width := 16, map := 0xFFFF, speed := 0, epoch := 0 }, offer := none, far := none, done := false, wave := none, since := 0, dark := 0, echo := none }

/-- A link right after reset: DOWN (R388). Mark: DESIGN CHOICE (log 5). -/
def Link.reset : Link :=
  { st := .down, tx := LinkDir.reset, rx := LinkDir.reset, miss := 0, trainAt := 0, nextSeq := 0, replay := [], backlog := [], ackAt := 0, heard := false, expSeq := 0, hunting := false, nakSent := none, unanswered := [], upward := [], held := [], skip := 0, replayed := 0, thresholds := [], rates := [], beat := 0, rxBeat := 0, resync := false, out := [] }

/-- The package right after power-on: ROMCHECK, nothing created, no thread anywhere (R409). Tables that list nothing
read as their defaults, which are the reset values of INVENTORY.md. Mark: DESIGN CHOICE (log 5). -/
def State.reset : State :=
  { boot := .romcheck, frozen := false, flash := [], committed := false, image := [], powerLim := 4200, fixedW := 2465, hubMhz := 1500,
    hubMv := 0, hclk := 0, classes := [], spares := [], dies := [], cores := [], mem := [], leases := [],
    holders := [], hreqs := [], pwrites := [], wbacks := [], pushes := [], asked := [], nc := [], partials := [], nearTlb := [],
    dieTlb := [], walkCache := [], modes := [], walks := [], threads := [], warps := [], groups := [], igroups := [], prods := [],
    monitors := [], watches := [], tiles := [], engOps := [], mops := [], quOps := [], window := [], queues := [],
    qreqs := [], cancelled := [], answers := [], qidCache := [], announced := [], launchQs := [], launches := [], contexts := [],
    signals := [], sigTop := 0, sigQueue := [], callQueue := [], eanswers := [], ecallLog := [], logNext := [],
    msix := [], mailboxes := [(16, { cmd := 0, status := 1, args := [], payload := [], run := 0, begun := false, spoilt := false })], nonce := none, slices := [], vfWeights := [], host := [], fnMem := [], links := [], flows := [], accepted := [], ring := [],
    ringNext := 0, ringDrops := 0, sampling := [], samples := [], sampleNext := [], banks := [], decisions := [],
    agenda := [], focus := 0, word := 0, nextId := 1, fresh := 0, stuck := none }

end Sys2Proof.Machine
end

