-- ==== Sys2Proof/Machine/Mem.lean ====
section
/-! DEFINITION. Lists of memory cells in canonical form, little-endian bytes (R4), and the memories of the package:
the HBM of each die (R173), host memory and the window SRAM. A byte that nothing has written reads as zero. -/

namespace Sys2Proof.Machine

open Host (Cell)

/-- The byte at an address; an unlisted byte is zero. -/
def cellGet : List Cell → Nat → Byte
  | [], _ => 0
  | (k, v) :: t, a => if a = k then v else cellGet t a

/-- Write a byte, keeping the addresses rising and listing no zero. -/
def cellSet : List Cell → Nat → Byte → List Cell
  | [], a, x => if x = 0 then [] else [(a, x)]
  | (k, v) :: t, a, x =>
    if a < k then (if x = 0 then (k, v) :: t else (a, x) :: (k, v) :: t)
    else if a = k then (if x = 0 then t else (a, x) :: t)
    else (k, v) :: cellSet t a x

/-- `n` bytes from an address up. -/
def cellsGet (m : List Cell) (a : Nat) : Nat → List Byte
  | 0 => []
  | n + 1 => cellGet m a :: cellsGet m (a + 1) n

/-- Write bytes from an address up. -/
def cellsSet (m : List Cell) (a : Nat) : List Byte → List Cell
  | [] => m
  | b :: bs => cellsSet (cellSet m a b) (a + 1) bs

/-- Canonical form: addresses rise strictly and no listed byte is zero. -/
def Memory.wf : List Cell → Bool
  | [] => true
  | [(_, v)] => v != 0
  | (k, v) :: (k', v') :: t => v != 0 && decide (k < k') && Memory.wf ((k', v') :: t)

/-- The listed cells from `a` up to `a + n`. -/
def cellsIn (m : List Cell) (a n : Nat) : List Cell := m.filter fun c => decide (a ≤ c.1) && decide (c.1 < a + n)

/-- Drop the cells from `a` up to `a + n`: those bytes read as zero. -/
def cellsClear (m : List Cell) (a n : Nat) : List Cell :=
  m.filter fun c => !(decide (a ≤ c.1) && decide (c.1 < a + n))

/-- The value of bytes, lowest first (R4). -/
def leNat : List Byte → Nat
  | [] => 0
  | b :: t => b.toNat + 256 * leNat t

/-- The low `n` bytes of a number, lowest first (R4). -/
def leBytes : Nat → Nat → List Byte
  | 0, _ => []
  | n + 1, v => BitVec.ofNat 8 v :: leBytes n (v / 256)

def zeros (n : Nat) : List Byte := List.replicate n 0
def byteOf (n : Nat) : Byte := BitVec.ofNat 8 n
def flag (b : Bool) (n : Nat) : Nat := if b then n else 0
def w32Bytes (w : W32) : List Byte := leBytes 4 w.toNat
def w64Bytes (w : W64) : List Byte := leBytes 8 w.toNat
def bytesW32 (l : List Byte) : W32 := BitVec.ofNat 32 (leNat l)
def bytesW64 (l : List Byte) : W64 := BitVec.ofNat 64 (leNat l)

/-- Bytes as words of four, for a register run. -/
def bytesWords : Nat → List Byte → List W32
  | 0, _ => []
  | n + 1, l => bytesW32 (l.take 4) :: bytesWords n (l.drop 4)
def wordsBytes (ws : List W32) : List Byte := ws.flatMap w32Bytes

/-! ## Die memory -/

/-- HBM bytes of a die (R173). -/
def dieSpan : Nat := 2 ^ 37
/-- The cell address of a physical byte of a die. -/
def memAddr (die pa : Nat) : Nat := die * dieSpan + pa

namespace State

def memGet (s : State) (die pa : Nat) : Byte := cellGet s.mem (memAddr die pa)
/-- Bytes of a die's memory as home holds them. Mark: DESIGN CHOICE (log 6). -/
def memRead (s : State) (die pa n : Nat) : List Byte := cellsGet s.mem (memAddr die pa) n
def memWrite (s : State) (die pa : Nat) (bs : List Byte) : State :=
  { s with mem := cellsSet s.mem (memAddr die pa) bs }
def memW64 (s : State) (die pa : Nat) : W64 := bytesW64 (s.memRead die pa 8)

end State

end Sys2Proof.Machine
end

