-- ==== Sys2Proof/Machine/Parts.lean ====
section
/-! DEFINITION. What every meaning starts from: named parts of the state, launch parameters (R98, R315), waiting and waking (R110),
and the fields of a leaf (R176). -/

namespace Sys2Proof.Machine

open Host (Cell)

/-- What a step answers. -/
abbrev Res := Host.Outcome State Fault Refusal

/-- The end of a step: the fault that the step met, or the next state. Mark: DESIGN CHOICE (log 2). -/
def finish (s : State) : Res :=
  match s.stuck with
  | some f => .fault f
  | none => .next s

/-- A core right after reset: clk 0, nothing fetched. Mark: DESIGN CHOICE (log 5). -/
def Core.reset : Core := { clk := 0, dicts := [], lines := [], stations := [], issuedNow := [], cvLane := none }
def coreKey (die core : Nat) : Nat := die * 256 + core
def threadKey (warp lane : Nat) : Nat := warp * 64 + lane
def tileKey (die core tile : Nat) : Nat := coreKey die core * 128 + tile

/-- Bits `lo` up to `lo + n` of a number. -/
def bitsOf (x lo n : Nat) : Nat := x / 2 ^ lo % 2 ^ n
/-- Bit `i` of a number. -/
def bitOf (x i : Nat) : Bool := x / 2 ^ i % 2 == 1
/-- The bits set in a 64-bit mask, rising. -/
def maskList (m : BitVec 64) : List Nat := (List.range 64).filter fun i => m.getLsbD i
/-- The mask of a list of bit numbers. -/
def listMask (l : List Nat) : BitVec 64 := l.foldl (fun m i => m ||| (1#64 <<< i)) 0

/-- Insert before the first element that does not stand before it. -/
def insertBy {α : Type} (le : α → α → Bool) (x : α) : List α → List α
  | [] => [x]
  | y :: t => if le x y then x :: y :: t else y :: insertBy le x t
/-- Stable sorting by insertion. -/
def sortBy {α : Type} (le : α → α → Bool) : List α → List α
  | [] => []
  | x :: t => insertBy le x (sortBy le t)

/-! ## Launch parameters (R98, R315) -/

namespace Launch
def word (l : Launch) (n : Nat) : W32 := l.ls.getD n 0
def pair (l : Launch) (n : Nat) : W64 := l.word (n + 1) ++ l.word n
def regs (l : Launch) : Nat := 16 * (bitsOf (l.word 12).toNat 4 4 + 1)
def width (l : Launch) : Nat := match bitsOf (l.word 12).toNat 0 2 with | 0 => 16 | 1 => 32 | _ => 64
def classMask (l : Launch) : Nat := bitsOf (l.word 12).toNat 8 3
def spad (l : Launch) : Nat := (l.word 13).toNat
def rows (l : Launch) : Nat := bitsOf (l.word 14).toNat 0 12
def handles (l : Launch) : Nat := bitsOf (l.word 14).toNat 16 5
def parkAfter (l : Launch) : Nat := bitsOf (l.word 15).toNat 0 24
def stationTimer (l : Launch) : Nat := 256 * (bitsOf (l.word 15).toNat 24 8 + 1)
def args (l : Launch) : W64 := l.pair 16
def csig (l : Launch) : Nat := bitsOf (l.pair 18).toNat 0 48
def trapTab (l : Launch) : W64 := l.pair 24
def dictAddr (l : Launch) : W64 := l.pair 2
def mapTab (l : Launch) : W64 := l.pair 22
/-- The save area: base address and bytes (R305). -/
def saveBase (l : Launch) : Nat := ((l.word 28).toNat * 2 ^ 16 + bitsOf (l.word 27).toNat 16 16) * 2 ^ 16
def saveSize (l : Launch) : Nat := bitsOf (l.word 27).toNat 0 16 * 65536
end Launch

/-! ## Named parts of the state -/

namespace State

def die (s : State) (d : Nat) : Die := s.dies.getD d Die.reset
def setDie (s : State) (d : Nat) (x : Die) : State := { s with dies := s.dies.put d x }
def now (s : State) (d : Nat) : Nat := (s.die d).dt
def core (s : State) (d c : Nat) : Core := s.cores.getD (coreKey d c) Core.reset
def setCore (s : State) (d c : Nat) (x : Core) : State := { s with cores := s.cores.put (coreKey d c) x }
def clk (s : State) (d c : Nat) : Nat := (s.core d c).clk

def setThread (s : State) (k : Nat) (t : Thread) : State := { s with threads := s.threads.put k t }
def updThread (s : State) (k : Nat) (f : Thread → Thread) : State := { s with threads := s.threads.upd k f }
def setWarp (s : State) (k : Nat) (w : Warp) : State := { s with warps := s.warps.put k w }
def updWarp (s : State) (k : Nat) (f : Warp → Warp) : State := { s with warps := s.warps.upd k f }
def setGroup (s : State) (k : Nat) (g : Group) : State := { s with groups := s.groups.put k g }
def updGroup (s : State) (k : Nat) (f : Group → Group) : State := { s with groups := s.groups.upd k f }

/-- A fresh identifier. Mark: DESIGN CHOICE (log 7). -/
def newId (s : State) : Nat × State := (s.nextId, { s with nextId := s.nextId + 1 })
/-- The number of a free value, which the step uses up. Mark: DESIGN CHOICE (log 7). -/
def draw (s : State) : Nat × State := (s.fresh, { s with fresh := s.fresh + 1 })

/-- Charge an activity to a bank of a unit, so many times (R401). Mark: DESIGN CHOICE (log 8), DEDUCED (log 57). -/
def chargeBank (s : State) (unit bank activity : Nat) (times : Nat := 1) : State :=
  { s with banks := s.banks.put (unit * 257 + bank) ((s.banks.getD (unit * 257 + bank) 0 + times * Config.unitWeight unit activity) % 2 ^ 64) }
/-- The HBM bursts of an access to a die's memory, on one of the die's two controllers, for a context or for none (R401). Mark: DEDUCED (log 57). -/
def chargeHbm (s : State) (die pa : Nat) (ctx : Option Nat) : State :=
  s.chargeBank (520 + 2 * die + Config.hbmStack pa % 2) (ctx.getD 256) 2 (Config.hbmBursts die pa s.fresh)

/-- The machine meets what the spec says does not exist. Mark: DESIGN CHOICE (log 10). -/
def fail (s : State) (f : Fault) : State := { s with stuck := s.stuck.or (some f) }

end State

/-- A thread with its warp, group and launch. -/
structure Self where
  k : Nat
  t : Thread
  w : Warp
  g : Group
  l : Launch
  deriving DecidableEq, Repr

def State.self (s : State) (k : Nat) : Option Self :=
  match s.threads.find k with
  | none => none
  | some t =>
    match s.warps.find t.warp with
    | none => none
    | some w =>
      match s.groups.find w.group with
      | none => none
      | some g =>
        match s.launches.find g.launch with
        | none => none
        | some l => some ⟨k, t, w, g, l⟩

namespace Self
/-- The number of the group's record. -/
def gid (m : Self) : Nat := m.w.group
/-- The physical lane (R105). -/
def physLane (m : Self) : Nat := m.w.laneSet * m.w.width + m.t.lane
/-- The physical lane above which 64 lanes count (R105), for comparing lanes within a core. -/
def core (m : Self) : Nat × Nat := (m.g.die, m.g.core)
end Self

/-- The clk count of the core on which a thread runs. -/
def State.clkOf (s : State) (k : Nat) : Nat :=
  match s.self k with
  | some m => s.clk m.g.die m.g.core
  | none => 0

/-! ## Waiting and waking (R110) -/

/-- WAITK codes (R375). -/
def waitReg : Nat := 1
def waitTag : Nat := 2
def waitCv : Nat := 3
def waitArrival : Nat := 4
def waitMonitor : Nat := 5
def waitQueue : Nat := 6
def waitCounters : Nat := 7
def waitLock : Nat := 8
def waitStation : Nat := 9
def waitFence : Nat := 10
def waitOverlap : Nat := 11
def waitTile : Nat := 12
def waitScore : Nat := 13
def waitService : Nat := 14
def waitEngine : Nat := 15
def waitResource : Nat := 16
def waitOther : Nat := 17

namespace State

/-- A thread becomes READY at its PC. -/
def ready (s : State) (k : Nat) : State :=
  let c := s.clkOf k
  s.updThread k fun t => { t with st := .ready, readyAt := c }

/-- A thread becomes BLOCKED at its PC; its wait is counted from here (R303). -/
def block (s : State) (k : Nat) (w : Wait) : State :=
  let c := s.clkOf k
  s.updThread k fun t => { t with st := .blocked w, waitFrom := c }

/-- Wake a thread that is BLOCKED on a wait that satisfies `p`. -/
def wakeIf (s : State) (p : Wait → Bool) (k : Nat) : State :=
  match s.threads.find k with
  | some t => match t.st with
    | .blocked w => if p w then s.ready k else s
    | _ => s
  | none => s

/-- Wake every BLOCKED thread whose wait satisfies `p`, tested with the thread's key. -/
def wakeAll (s : State) (p : Nat → Wait → Bool) : State :=
  s.threads.keys.foldl (fun s k => s.wakeIf (p k) k) s

/-- The threads of a group, by rising key. -/
def groupThreads (s : State) (gid : Nat) : List Nat :=
  (s.threads.filter fun e => match s.warps.find e.2.warp with
    | some w => w.group == gid
    | none => false).map (·.1)

/-- The warps of a group. -/
def groupWarps (s : State) (gid : Nat) : List (Nat × Warp) := s.warps.filter fun e => e.2.group == gid

/-- Whether a thread runs on a core. -/
def onCore (s : State) (die core k : Nat) : Bool :=
  match s.self k with
  | some m => m.g.die == die && m.g.core == core
  | none => false

end State

/-! ## Page tables and translation (R173 to R182) -/

/-- KIND of EINFO (R189). -/
def kindLoad : Nat := 0
def kindStore : Nat := 1
def kindAtomic : Nat := 2
def kindFetch : Nat := 3
def kindRead : Nat := 4
def kindWrite : Nat := 5
def kindWrites (kind : Nat) : Bool := kind == 1 || kind == 2 || kind == 5

/-- REASON of EINFO (R189). -/
def rsnNotValid : Nat := 0
def rsnBadEntry : Nat := 1
def rsnBadFrame : Nat := 2
def rsnNonCanon : Nat := 3
def rsnWrite : Nat := 4
def rsnFetch : Nat := 5
def rsnNotOwner : Nat := 6

/-- EINFO of a page cause (R189). -/
def pageInfo (kind level psize reason owner : Nat) : W32 :=
  BitVec.ofNat 32 (kind + level * 8 + psize * 64 + reason * 256 + owner * 4096)

namespace Leaf
def mode (e : W64) : Nat := bitsOf e.toNat 1 2
def w (e : W64) : Bool := e.getLsbD 3
def x (e : W64) : Bool := e.getLsbD 4
def dirty (e : W64) : Bool := e.getLsbD 6
def owner (e : W64) : Nat := bitsOf e.toNat 8 7
def size (e : W64) : Nat := bitsOf e.toNat 52 4
/-- Page bytes by SIZE (R176). -/
def bytes (e : W64) : Nat := match size e with | 0 => 2 ^ 16 | 1 => 2 ^ 21 | _ => 2 ^ 30
def frame (e : W64) : Nat := bitsOf e.toNat 16 36 * 2 ^ 16
/-- The physical address of a virtual address in the page. -/
def pa (e : W64) (va : Nat) : Nat := frame e + va % bytes e
end Leaf

/-- MODE values (R176). -/
def modeH : Nat := 0
def modeS : Nat := 1
def modeP : Nat := 2
def modeLocked : Nat := 3

end Sys2Proof.Machine
end

