-- ==== Sys2Proof/Machine/Operands.lean ====
section
/-! DEFINITION. The operand space (R74 to R76), the full/empty bits of registers (R78 to R81) and the guards (R73). -/

namespace Sys2Proof.Machine

namespace Thread

/-- A g register (R74). -/
def reg (t : Thread) (n : Nat) : W32 := t.regs.getD n 0
/-- `n` registers from a number up. -/
def regRun (t : Thread) (r n : Nat) : List W32 := (List.range n).map fun i => t.reg (r + i)
/-- Write registers from a number up. -/
def setRegs (t : Thread) (r : Nat) : List W32 → Thread
  | [] => t
  | w :: ws => setRegs { t with regs := t.regs.putD r 0 w } (r + 1) ws

/-- Mark registers empty (R79). Mark: DEDUCED (log 68). -/
def markEmpty (t : Thread) (rs : List Nat) : Thread := { t with empty := t.empty ++ rs.filter fun r => !t.empty.contains r }
/-- Mark registers full (R79). -/
def markFull (t : Thread) (rs : List Nat) : Thread := { t with empty := t.empty.filter fun r => !rs.contains r }

/-- A predicate; p15 reads 1 (R76). -/
def pred (t : Thread) (p : PredNo) : Bool := p == 15 || t.preds.getLsbD p.toNat
/-- Write a predicate; a write to p15 is discarded (R76). -/
def setPred (t : Thread) (p : PredNo) (b : Bool) : Thread :=
  if p = 15 then t
  else { t with preds := if b then t.preds ||| (1#16 <<< p.toNat) else t.preds &&& ~~~(1#16 <<< p.toNat) }

/-- The guard (R73). -/
def guardOk (t : Thread) (q : Ctl) : Bool := (t.pred q.g1 != q.n1) && (t.pred q.g2 != q.n2)

/-- The registers that an operand of `n` words names. -/
def opdRegs (o : Opd) (n : Nat) : List Nat :=
  match o with
  | .g r => (List.range n).map fun i => r.val + i
  | _ => []

/-- The first empty register of an operand of `n` words. -/
def firstEmpty (t : Thread) (o : Opd) (n : Nat) : Option Nat := (opdRegs o n).find? fun r => t.empty.contains r

/-- Write a result to a destination operand; the zero register discards it (R74). -/
def write (t : Thread) (o : Opd) (ws : List W32) : Thread :=
  match o with
  | .g r => t.setRegs r.val ws
  | _ => t

end Thread

/-- A 64-bit value as its two registers (R4). -/
def pairWords (v : W64) : List W32 := [v.extractLsb' 0 32, v.extractLsb' 32 32]
def pairOf (lo hi : W32) : W64 := hi ++ lo

/-- A 32-bit source (R74). -/
def State.src (s : State) (m : Self) : Opd → W32
  | .g n => m.t.reg n.val
  | .k n => m.g.ks.getD n.val 0
  | .h _ => 0
  | .zero => 0
  | .lane => BitVec.ofNat 32 m.t.lane
  | .warp => BitVec.ofNat 32 m.w.num
  | .widLo => m.t.workid.extractLsb' 0 32
  | .widHi => m.t.workid.extractLsb' 32 32
  | .vcore => BitVec.ofNat 32 m.g.vcore
  | .vdie => BitVec.ofNat 32 m.g.vdie
  | .dtLo => BitVec.ofNat 32 (s.now m.g.die)
  | .dtHi => BitVec.ofNat 32 (s.now m.g.die / 2 ^ 32)
  | .cycLo => BitVec.ofNat 32 (s.clk m.g.die m.g.core)
  | .grp => BitVec.ofNat 32 m.g.num
  | .none => 0

/-- A 64-bit source (R74). -/
def State.src64 (s : State) (m : Self) : Opd → W64
  | .g n => pairOf (m.t.reg n.val) (m.t.reg (n.val + 1))
  | .k n => pairOf (m.g.ks.getD n.val 0) (m.g.ks.getD (n.val + 1) 0)
  | .widLo => m.t.workid
  | .dtLo => BitVec.ofNat 64 (s.now m.g.die)
  | _ => 0

/-- A source of one word, zero-extended, or of two. -/
def State.srcWide (s : State) (m : Self) (wide : Bool) (o : Opd) : W64 :=
  if wide then s.src64 m o else (s.src m o).setWidth 64

/-- `n` words from a source run; the zero register supplies zeros (R74). -/
def State.srcRun (_ : State) (m : Self) (o : Opd) (n : Nat) : List W32 :=
  match o with
  | .g r => m.t.regRun r.val n
  | _ => List.replicate n 0

/-- The handle number of an operand. -/
def handleOf : Opd → Nat
  | .h n => n.val
  | _ => 0

end Sys2Proof.Machine
end

