-- ==== Sys2Proof/Machine/Flags.lean ====
section
/-! DEFINITION. The FPSTAT flags (R40) and the flag computations of the integer and comparison instructions. -/

namespace Sys2Proof.Machine

namespace Thread

/-- OR flags into FPSTAT: a flag is never cleared by an operation (R40). -/
def orFlags (t : Thread) (f : Flags) : Thread := { t with fpstat := t.fpstat ||| f }

/-- Write a result and its flags. -/
def writeF (t : Thread) (o : Opd) (r : W32 × Flags) : Thread := (t.write o [r.1]).orFlags r.2

end Thread

/-- A sum or difference narrowed to 32 bits: it wraps, or saturates as i32 or n32 (R139). -/
def satInt (sat : BitVec 2) (v : Int) (uv : Int) : W32 :=
  match sat.toNat with
  | 1 => BitVec.ofInt 32 (max (-2147483648) (min 2147483647 v))
  | 2 => BitVec.ofInt 32 (max 0 (min 4294967295 uv))
  | _ => BitVec.ofInt 32 v

/-- The integer comparisons (R148). -/
def icompare (cc : BitVec 3) (a b : Int) : Bool :=
  match cc.toNat with
  | 0 => a == b
  | 1 => a != b
  | 2 => decide (a < b)
  | 3 => decide (a ≤ b)
  | 4 => decide (b < a)
  | _ => decide (b ≤ a)

/-- A word read as i or n. -/
def asInt {w : Nat} (uns : Bool) (x : BitVec w) : Int := if uns then (x.toNat : Int) else x.toInt

/-- Clamp an F32 result to 0 to 1: −0, negative values and NaN give +0 (R154). -/
def satF32 (r : W32 × Flags) : W32 × Flags :=
  match fval f32 r.1.toNat with
  | .nan _ => (0, r.2)
  | .inf n => ((if n then 0 else 0x3F800000), r.2)
  | .fin n m _ => if n ∨ m = 0 then (0, r.2)
    else if 0x3F800000 ≤ r.1.toNat then (0x3F800000, r.2) else r

end Sys2Proof.Machine
end

