-- ==== Sys2Proof/Machine/Lines.lean ====
section
/-! DEFINITION. The die memory model: what home, the near caches, leases, pending writes, partials and write-backs hold and do, and
what a performed write wakes (R191 to R206, R216, R252, R256). -/

namespace Sys2Proof.Machine

open Host (Cell)

def sectorKey (die pa : Nat) : Nat := die * 2 ^ 31 + pa / 64
def lineKey (die pa : Nat) : Nat := die * 2 ^ 30 + pa / 128
def ncKey (die core pa : Nat) : Nat := coreKey die core * 2 ^ 31 + pa / 64
def partKey (die core pa : Nat) : Nat := coreKey die core * 2 ^ 30 + pa / 128

/-- Whether two byte ranges overlap. -/
def overlaps (a n b m : Nat) : Bool := decide (a < b + m) && decide (b < a + n)

/-! ## Atomic functions (R213) -/

/-- fadd on F32 words: rne, canonical NaN, no flag. -/
def faddWord (x y : W64) : W64 := ((sumF32 .rne [fval f32 (x.toNat % 2 ^ 32), fval f32 (y.toNat % 2 ^ 32)]).1).setWidth 64

/-- The new value of an atomic function at a width (R213). -/
def atomFn (fn : BitVec 4) (w64 : Bool) (old b : W64) : W64 :=
  let cut (x : W64) : W64 := if w64 then x else (x.setWidth 32).setWidth 64
  let i (x : W64) : Int := if w64 then x.toInt else (x.setWidth 32).toInt
  let n (x : W64) : Nat := (cut x).toNat
  cut (match fn.toNat with
    | 0 => b
    | 1 => old + b
    | 2 => old &&& b
    | 3 => old ||| b
    | 4 => old ^^^ b
    | 5 => if i b < i old then b else old
    | 6 => if i old < i b then b else old
    | 7 => if n b < n old then b else old
    | 8 => if n old < n b then b else old
    | _ => faddWord old b)

/-- The identity with which a partial's word starts (R201). -/
def partIdentity (fn : BitVec 4) (w64 : Bool) : W64 :=
  match fn.toNat with
  | 2 => if w64 then 0xFFFFFFFFFFFFFFFF else 0xFFFFFFFF
  | 5 => if w64 then 0x7FFFFFFFFFFFFFFF else 0x7FFFFFFF
  | 6 => if w64 then 0x8000000000000000 else 0x80000000
  | 7 => if w64 then 0xFFFFFFFFFFFFFFFF else 0xFFFFFFFF
  | 9 => 0x80000000
  | _ => 0

/-! ## Loaded values (R204) -/

/-- The register words of loaded bytes: zero- or sign-extended below 4 bytes. -/
def loadWords (sext : Bool) (bs : List Byte) : List W32 :=
  match bs.length with
  | 1 => [if sext then BitVec.ofInt 32 (BitVec.ofNat 8 (leNat bs)).toInt else BitVec.ofNat 32 (leNat bs)]
  | 2 => [if sext then BitVec.ofInt 32 (BitVec.ofNat 16 (leNat bs)).toInt else BitVec.ofNat 32 (leNat bs)]
  | n => bytesWords (n / 4) bs

namespace State

/-! ## What has still to be performed -/

/-- Whether a producer is a load or atomic that has not been performed. -/
def unperformed (p : Prod) : Bool :=
  p.mem.isSome && match p.val with
    | .home => true
    | .fill .. => true
    | .queue => true
    | _ => false

/-- Whether a request writes. -/
def isWrite : HKind → Bool
  | .load _ _ _ _ _ => false
  | _ => true

/-- Every earlier load and atomic of the thread is performed (R216 acq). -/
def loadsDone (s : State) (k : Nat) : Bool :=
  s.prods.vals.all (fun p => !(p.thread == k && unperformed p)) &&
  s.hreqs.vals.all (fun r => match r.kind with
    | .atom _ _ _ => r.thread != some k
    | .acas _ _ _ => r.thread != some k
    | _ => true) &&
  s.pwrites.vals.all (fun w => match w.kind with
    | .atom _ _ _ => !w.threads.contains k
    | .acas _ _ _ => !w.threads.contains k
    | _ => true)

/-- Every earlier store, atomic and RED of the thread is performed (R216 rel, R307). Mark: DEDUCED (log 16). -/
def writesDone (s : State) (k : Nat) : Bool :=
  s.hreqs.vals.all (fun r => !(r.thread == some k && isWrite r.kind)) &&
  s.pwrites.vals.all (fun w => !w.threads.contains k) &&
  s.partials.vals.all (fun p => !p.threads.contains k) &&
  s.pushes.vals.all (fun p => !p.part.threads.contains k) &&
  s.prods.vals.all (fun p => !(p.thread == k && unperformed p))

/-- The condition of a fence (R216): KIND 1 acq, 2 rel; SCOPE 2 die. Mark: DEDUCED (log 16). -/
def fenceOk (s : State) (k die kind scope : Nat) : Bool :=
  s.loadsDone k &&
  (kind != 2 ||
    (s.writesDone k &&
     (scope != 2 || s.wbacks.vals.all fun b => !b.cwbs.contains k) &&
     match s.threads.find k with
     | some t => t.wctAway || decide (t.wct.toNat ≤ s.now die)
     | none => true))

/-- What an access waits for: its thread's earlier loads of the bytes, its writes of them until they are performed, or until home
has accepted them. Mark: DEDUCED (log 15). -/
structure Order where
  loads  : Bool
  writes : Bool
  sent   : Bool
  deriving DecidableEq, Repr

/-- A load waits for writes (R206). -/
def ordLoad : Order := ⟨false, true, false⟩
/-- A store performed at home waits for loads (R206); it follows earlier writes in the order of messages and of acceptance. -/
def ordStore : Order := ⟨true, false, false⟩
/-- ATOM and ACAS wait for both (R206). -/
def ordAtomic : Order := ⟨true, true, false⟩
/-- A write performed in the near cache, and a RED, wait for loads and for writes that home has still to accept, so that they
stand behind them in program order (R206). Mark: DEDUCED (log 15). -/
def ordLocal : Order := ⟨true, false, true⟩

def Order.num (o : Order) : Nat := (if o.loads then 1 else 0) + (if o.writes then 2 else 0) + (if o.sent then 4 else 0)
def Order.ofNum (n : Nat) : Order := ⟨bitOf n 0, bitOf n 1, bitOf n 2⟩

/-- Whether a partial holds a RED of the thread, and a reduced word among some bytes (R206). -/
def redOf (p : Partial) (line k pa size : Nat) : Bool :=
  p.threads.contains k && p.words.any fun e => overlaps (line * 128 + e.1) (if p.w64 then 8 else 4) pa size

/-- An earlier access of the thread that this one waits for, or a CINV under way (R217). A RED in a partial that is still open is
combined before the access, whose arrival has home recall it (R202). Mark: DEDUCED (log 15). -/
def overlapPending (s : State) (k pa size : Nat) (o : Order) : Bool :=
  ((o.writes || o.sent) && s.hreqs.vals.any fun r => r.thread == some k && isWrite r.kind && overlaps r.pa r.size pa size) ||
  (o.writes && s.pwrites.vals.any fun w => w.threads.contains k && overlaps w.pa w.size pa size) ||
  (o.writes && s.pushes.vals.any fun p => redOf p.part p.line k pa size) ||
  (o.loads && s.prods.vals.any fun p => p.thread == k && unperformed p &&
    match p.mem with
    | some (a, n) => overlaps a n pa size
    | none => false) ||
  s.wbacks.vals.any (fun b => b.cinvs.contains k)

/-- The core's earlier requests and write-backs to a line, which a read at home for it follows (R203). -/
def linePending (s : State) (die core pa : Nat) : Bool :=
  s.hreqs.vals.any (fun r => r.die == die && r.core == core && r.pa / 128 == pa / 128) ||
  s.wbacks.vals.any (fun b => b.die == die && b.core == core && b.bytes.any fun c => c.1 / 128 == pa / 128)

/-- The key of a reader's recall of a line. -/
def askKey (who die pa : Nat) : Nat := who * 2 ^ 40 + lineKey die pa
/-- The numbers under which a thread, an engine operation and the hub read, the last for a context. -/
def threadReader (k : Nat) : Nat := 3 * k
def engineReader (id : Nat) : Nat := 3 * id + 1
def hubReader (ctx : Nat) : Nat := 3 * ctx + 2
/-- Whether a recall that a reader has had made still has a combined partial to be performed (R202). -/
def askOpen (s : State) (who die pa : Nat) : Bool :=
  match s.asked.find (askKey who die pa) with
  | some ws => ws.any fun w => (s.pwrites.find w).isSome
  | none => false
/-- A reader has read: its recalls are done with. -/
def readDone (s : State) (who : Nat) : State := { s with asked := s.asked.filter fun e => e.1 / 2 ^ 40 != who }
/-- Threads read no more. -/
def forgetReaders (s : State) (mine : Nat → Bool) : State :=
  { s with asked := s.asked.filter fun e => !(e.1 / 2 ^ 40 % 3 == 0 && mine (e.1 / 2 ^ 40 / 3)) }

/-- The sector requests that a core has outstanding (R200): accesses of its threads on their way to home or waiting there, and the
fills that S and P loads wait for, of which one request serves all that share it. Mark: DEDUCED (log 14). -/
def sectorRequests (s : State) (die core : Nat) : Nat :=
  (s.hreqs.vals.filter fun r => r.die == die && r.core == core && r.op.isNone).length +
  (s.prods.filter fun e => e.2.core == coreKey die core && match e.2.val with | .fill _ _ _ _ leader _ _ => leader == e.1 | _ => false).length
def requestsFull (s : State) (die core : Nat) : Bool := decide (3072 ≤ s.sectorRequests die core)
/-- The wait for a free sector request (R200). -/
def requestWait (va : W64) : Wait := ⟨waitResource, va, 0⟩

/-- Wake the threads whose fence or earlier access is done: fence waits hold KIND and SCOPE, and whether the fence
stands after its instruction; the others hold the byte range. -/
def wakeMemory (s : State) : State :=
  s.wakeAll fun k w =>
    match s.self k with
    | none => false
    | some m =>
      if w.kind == waitFence then s.fenceOk k m.g.die (bitsOf w.val.toNat 0 4) (bitsOf w.val.toNat 4 4)
      else if w.kind == waitOverlap then
        !s.overlapPending k w.place (bitsOf w.val.toNat 0 8) (Order.ofNum (bitsOf w.val.toNat 8 3)) &&
          (!bitOf w.val.toNat 11 || (!s.linePending m.g.die m.g.core w.place && !s.askOpen (threadReader k) m.g.die w.place))
      else if w.kind == waitResource && w.place == 0 then !s.requestsFull m.g.die m.g.core
      else false

/-- The wait of a fence, by its kind and scope; `after`: the instruction has acted and only its order is still owed. Mark: DEDUCED (log 16). -/
def fenceWait (kind scope : Nat) (after : Bool) : Wait :=
  ⟨waitFence, BitVec.ofNat 64 (kind + 16 * scope), if after then 1 else 0⟩

/-! ## Watches and monitors (R252, R256) -/

/-- Every record of a parked group is freed, and the group joins the relaunch queue; while it is still saving, it will
when the save is finished (R256, R304). `by_` is the thread whose own record fired. -/
def wakeGroup (s : State) (gid : Nat) (by_ : Option Nat) : State :=
  let s := { s with watches := s.watches.filter fun e => e.2.group != gid }
  let (t, s) := s.newId
  s.updGroup gid fun g =>
    let by' := match by_ with | some k => k :: g.wakeBy | none => g.wakeBy
    match g.st with
    | .parked => { g with st := .waking, wakeBy := by', wokeAt := t }
    | .parking => { g with wakeBy := by', wokeAt := t }
    | .waking => { g with wakeBy := by' }
    | _ => g

/-- A write performed at home to a sector ends the waits on it (R252) and fires its watches (R256). -/
def touched (s : State) (die pa size : Nat) : State :=
  let first := pa / 64
  let last := (pa + (size - 1)) / 64
  let hit (x : Nat) : Bool := decide (first ≤ x) && decide (x ≤ last)
  let mine (m : Monitor) : Bool := m.armed && m.die == die && hit m.sector
  let ms := s.monitors.filter fun e => mine e.2
  let s := { s with monitors := s.monitors.filter fun e => !mine e.2 }
  let s := ms.foldl (fun s e =>
    (s.updThread e.2.thread fun t => { t with waitDone := true }).wakeIf (fun w => w.kind == waitMonitor) e.2.thread) s
  let ws := s.watches.vals.filter fun w => w.kind == 1 && w.die == die && hit (w.paddr / 64)
  ws.foldl (fun s w => s.wakeGroup w.group w.thread) s

/-! ## Performing at home -/

/-- A producer's value is known (R79). -/
def complete (s : State) (prod : Nat) (ws : List W32) : State :=
  { s with prods := s.prods.upd prod fun p => { p with val := .val ws } }
def completeOpt (s : State) (prod : Option Nat) (ws : List W32) : State :=
  match prod with
  | some p => s.complete p ws
  | none => s

/-- The word of `size` bytes at home. -/
def homeWord (s : State) (die pa size : Nat) : W64 := bytesW64 (s.memRead die pa size)
def wordsOf (size : Nat) (v : W64) : List W32 := if size = 8 then pairWords v else [v.setWidth 32]

/-- A write takes effect at home. -/
def perform (s : State) (die pa size : Nat) (k : HKind) : State :=
  let put (s : State) (pa size : Nat) (v : W64) : State := s.memWrite die pa (leBytes size v.toNat)
  let s := match k with
    | .load _ _ _ _ _ => s
    | .store bs => s.memWrite die pa bs
    | .atom fn b prod =>
      let old := s.homeWord die pa size
      (put s pa size (atomFn fn (size == 8) old b)).completeOpt prod (wordsOf size old)
    | .acas b c prod =>
      let old := s.homeWord die pa size
      (put s pa size (if old = b then c else old)).completeOpt prod (wordsOf size old)
    | .redOrd fn b => put s pa size (atomFn fn (size == 8) (s.homeWord die pa size) b)
    | .part fn w64 words =>
      let n := if w64 then 8 else 4
      words.foldl (fun (s : State) (e : Nat × W64) => put s (pa / 128 * 128 + e.1) n (atomFn fn w64 (s.homeWord die (pa / 128 * 128 + e.1) n) e.2)) s
  s.touched die pa size

/-- Largest W of the writes pending on a sector, 0 if none (R196). -/
def pendingW (s : State) (die pa : Nat) : Nat :=
  s.pwrites.vals.foldl (fun m w => if w.die == die && w.pa / 64 == pa / 64 then max m w.w else m) 0
/-- Earliest W of the writes pending on a sector (R195). -/
def earliestW (s : State) (die pa : Nat) : Option Nat :=
  s.pwrites.vals.foldl (fun m w =>
    if w.die == die && w.pa / 64 == pa / 64 then some (match m with | some x => min x w.w | none => w.w) else m) none

/-- The write completion time of a write accepted now (R196). -/
def writeTime (s : State) (die pa : Nat) : Nat :=
  let e := s.leases.getD (sectorKey die pa) 0
  max (max (s.now die) (if s.now die < e then e else 0)) (s.pendingW die pa) + 1

/-- A thread's WCT rises to W (R196); for a thread whose warp has retired, its group's does (R307). A WCT of another die is not
compared with W (R5). -/
def raiseWct (s : State) (k w : Nat) : State :=
  match s.threads.find k with
  | some t => s.setThread k { t with wct := BitVec.ofNat 64 (if t.wctAway then w else max t.wct.toNat w), wctAway := false }
  | none => { s with groups := s.groups.map fun e => (e.1, if e.2.past.contains (k / 64) then { e.2 with wct := max e.2.wct w } else e.2) }

/-- Home accepts an H write: it takes its W, and waits until then (R196). -/
def acceptH (s : State) (die pa size : Nat) (k : HKind) (op : Option Nat) (threads : List Nat) : State :=
  let w := s.writeTime die pa
  let (id, s) := s.newId
  let s := { s with pwrites := s.pwrites.put id { die := die, pa := pa, size := size, kind := k, w := w, threads := threads, op := op } }
  threads.foldl (fun s t => s.raiseWct t w) s

/-- Home combines a partial, sector by sector, as writes under R196 (R202). -/
def combine (s : State) (die line : Nat) (p : Partial) : State :=
  [0, 1].foldl (fun s half =>
    let ws := p.words.filter fun e => e.1 / 64 == half
    if ws.isEmpty then s
    else s.acceptH die (line * 128 + half * 64) 64 (.part p.fn p.w64 ws) none p.threads) s

/-- The holders of a line (R201). -/
def holdersOf (s : State) (die pa : Nat) : List Nat := s.holders.getD (lineKey die pa) []
/-- A core holds no partial of a line any more. -/
def noHolder (s : State) (die core line : Nat) : State :=
  { s with holders := s.holders.putD (lineKey die (line * 128)) [] ((s.holdersOf die (line * 128)).filter (· != core)) }

/-- Writes of this line's combined partials that have still to be performed. -/
def partsPending (s : State) (die pa : Nat) : Bool :=
  s.pwrites.vals.any fun w => w.die == die && w.pa / 128 == pa / 128 && match w.kind with | .part _ _ _ => true | _ => false

/-- Who stands behind the writes, from number `first` up, of a partial that home has combined: the accesses that wait for the
core's answer about the line (R202), and those of the threads whose REDs it held (R206). Mark: DEDUCED (log 15). -/
def standBehind (s : State) (die core line first : Nat) (threads : List Nat) : State :=
  let waits (r : HReq) : Bool := r.die == die && r.pa / 128 == line &&
    ((match r.recalls with | some l => l.contains core | none => false) ||
      r.core == core && match r.thread with | some k => threads.contains k | none => false)
  let new (r : HReq) : List Nat := (s.pwrites.filter fun e => decide (first ≤ e.1) && e.2.pa / 64 == r.pa / 64).map (·.1)
  { s with hreqs := s.hreqs.map fun e => (e.1, if waits e.2 then { e.2 with after := e.2.after ++ new e.2 } else e.2) }

/-- Home combines a partial that a core has sent (R202, R203). -/
def combineAt (s : State) (die core line : Nat) (p : Partial) : State :=
  ((s.combine die line p).standBehind die core line s.nextId p.threads).chargeHbm die (line * 128) (some p.ctx)

/-- The answer of a holder within the step of a reader (R203): what it has pushed reaches home first, then the partial that it
still holds. -/
def answerNow (s : State) (die line core : Nat) : State :=
  let sent := s.pushes.filter fun e => e.2.die == die && e.2.core == core && e.2.line == line
  let s := sent.foldl (fun s e => { s with pushes := s.pushes.del e.1 }.combineAt die core line e.2.part) s
  let s := match s.partials.find (partKey die core (line * 128)) with
    | some p => { s with partials := s.partials.del (partKey die core (line * 128)) }.combineAt die core line p
    | none => s
  s.noHolder die core line

/-- Home recalls a line for a reader other than a core's request: an engine, the hub, a walker, an MWAIT, the trap hardware (R202).
The recall and its answers take place within the reader's step. The writes of the combined partials, and the state. Mark: DEDUCED (log 11). -/
def recallNow (s : State) (die pa : Nat) : List Nat × State :=
  let first := s.nextId
  let s := (s.holdersOf die pa).foldl (fun s core => s.answerNow die (pa / 128) core) s
  ((s.pwrites.filter fun e => decide (first ≤ e.1)).map (·.1), s)

/-- Whether a reader may read a line at home: the partials of its holders are recalled, once, and performed (R202). Meanwhile other
pending writes leave the earlier value to read (R196). Mark: DEDUCED (log 11). -/
def mayRead (s : State) (who die pa : Nat) : Bool × State :=
  if (s.asked.find (askKey who die pa)).isSome then (!s.askOpen who die pa, s)
  else
    let r := s.recallNow die pa
    if r.1.isEmpty then (true, r.2) else (false, { r.2 with asked := r.2.asked.put (askKey who die pa) r.1 })

/-! ## Order of messages to home -/

/-- Whether a request of a core to a line waits at home for recalls: what the core has sent to the line since waits behind it
there, and a push or write-back among it is taken as it arrives (R203). -/
def recalling (s : State) (die core pa : Nat) : Bool :=
  s.hreqs.vals.any fun r => r.die == die && r.core == core && r.pa / 128 == pa / 128 && r.recalls.isSome

/-- No earlier message of the same core to the same line is still on its way (R203). Requests are served in order; a push or
write-back has arrived when the requests before it have, and they have where the first of them waits for recalls. -/
def inOrder (s : State) (id die core pa : Nat) (req : Bool) : Bool :=
  s.hreqs.all (fun e => !(decide (e.1 < id) && e.2.die == die && e.2.core == core && e.2.pa / 128 == pa / 128 && (req || !s.recalling die core pa))) &&
  s.pushes.all (fun e => !(decide (e.1 < id) && e.2.die == die && e.2.core == core && e.2.line == pa / 128)) &&
  s.wbacks.all (fun e => !(decide (e.1 < id) && e.2.die == die && e.2.core == core &&
    e.2.bytes.any fun c => c.1 / 128 == pa / 128))

/-- A request leaves for home. Mark: DEDUCED (log 14). -/
def request (s : State) (m : Self) (pa size : Nat) (k : HKind) (mode : Nat) (hint : BitVec 2) : State :=
  let (id, s) := s.newId
  { s with hreqs := s.hreqs.put id { die := m.g.die, core := m.g.core, ctx := m.g.ctx, thread := some m.k, op := none, pa := pa, size := size, kind := k, mode := mode, recalls := none, ig := s.focus, born := s.clk m.g.die m.g.core, also := [], after := [], hint := hint } }

/-! ## The near cache -/

/-- The valid bytes of a sector, all of those asked for; an expired lease counts as absent (R195, R197). -/
def ncBytes (s : State) (die core pa size : Nat) (mode : Nat) : Option (List Byte) :=
  match s.nc.find (ncKey die core pa) with
  | none => none
  | some sec =>
    let live := mode != modeH || match sec.expiry with
      | some e => decide (s.now die < e)
      | none => false
    let bs := (List.range size).map fun i => Tbl.find sec.bytes (pa % 64 + i)
    if live && bs.all Option.isSome then some (bs.map fun b => b.getD 0) else none

/-- Send a sector's dirty bytes home, for the CWB and CINV of these threads; the sector is dropped, or kept clean (R197, R217). -/
def flushSector (s : State) (die core sector : Nat) (drop : Bool) (cwbs cinvs : List Nat) : State :=
  let key := coreKey die core * 2 ^ 31 + sector
  match s.nc.find key with
  | none => s
  | some sec =>
    let s := { s with nc := if drop then s.nc.del key else s.nc.put key { sec with dirty := [] } }
    if sec.dirty.isEmpty then s
    else
      let cells := (sec.bytes.filter fun c => sec.dirty.contains c.1).map fun c => (sector * 64 + c.1, c.2)
      let (id, s) := s.newId
      { s with wbacks := s.wbacks.put id { die := die, core := core, ctx := sec.ctx, bytes := cells, cwbs := cwbs, cinvs := cinvs } }

/-- Push a partial home (R203). -/
def pushPartial (s : State) (die core line : Nat) : State :=
  let key := coreKey die core * 2 ^ 30 + line
  match s.partials.find key with
  | none => s
  | some p =>
    let (id, s) := s.newId
    { s with partials := s.partials.del key, pushes := s.pushes.put id { die := die, core := core, line := line, part := p } }

/-- Push every partial of a core that holds a RED of the thread (R216). -/
def pushThread (s : State) (die core k : Nat) : State :=
  (s.partials.filter fun e => e.1 / 2 ^ 30 == coreKey die core && e.2.threads.contains k).foldl
    (fun s e => s.pushPartial die core (e.1 % 2 ^ 30)) s

/-- The rank in which sectors are replaced: `stream` first, `keep` last (R199). Mark: DEDUCED (log 14). -/
def hintRank (h : BitVec 2) : Nat := match h.toNat with | 1 => 0 | 2 => 2 | _ => 1
/-- The hint of a sector after an access: `normal` has no effect (R199). -/
def hintOf (old new : BitVec 2) : BitVec 2 := if new = 0 then old else new
/-- What a core's near cache holds: sectors, and lines with an open partial, with their rank. Mark: DEDUCED (log 14). -/
def cached (s : State) (die core : Nat) : List (Nat × Nat) :=
  (s.nc.filter fun e => e.1 / 2 ^ 31 == coreKey die core).map (fun e => (e.1 % 2 ^ 31, hintRank e.2.hint)) ++
  (s.partials.filter fun e => e.1 / 2 ^ 30 == coreKey die core).map (fun e => (e.1 % 2 ^ 30 * 2, 1))
/-- What stands in the set of a sector, with its rank. Mark: DEDUCED (log 14). -/
def sameSet (l : List (Nat × Nat)) (sector : Nat) : List (Nat × Nat) :=
  l.filter fun e => Config.nearSet (e.1 / 2) == Config.nearSet (sector / 2)
/-- The near cache evicts a sector, writing its dirty bytes back, or a partial, pushing it home (R199, R203). -/
def evict (s : State) (die core sector : Nat) : State := (s.pushPartial die core (sector / 2)).flushSector die core sector true [] []
/-- Room for `n` more sectors: a near cache of 256 KiB that has none (R25) replaces one, of the lowest rank in its set (R199). Mark: DEDUCED (log 14). -/
def replaceOne (s : State) (die core pa n : Nat) : State :=
  let have_ := s.cached die core
  if (s.nc.filter fun e => e.1 / 2 ^ 31 == coreKey die core).length +
      2 * (s.partials.filter fun e => e.1 / 2 ^ 30 == coreKey die core).length + n ≤ 4096 then s
  else
    let pool := if (sameSet have_ (pa / 64)).isEmpty then have_ else sameSet have_ (pa / 64)
    let low := pool.filter fun e => pool.all fun f => decide (e.2 ≤ f.2)
    let (n, s) := s.draw
    match low[Config.victim n % low.length]? with
    | some e => s.evict die core e.1
    | none => s

/-- Room for a sector that the near cache does not hold. Mark: DEDUCED (log 14). -/
def makeRoom (s : State) (die core pa : Nat) : State := if (s.nc.find (ncKey die core pa)).isSome then s else s.replaceOne die core pa 1
/-- Room for a line's partial, which takes both of its sectors (R201). Mark: DEDUCED (log 14). -/
def makeLineRoom (s : State) (die core pa : Nat) : State := (s.replaceOne die core pa 2).replaceOne die core pa 2

/-- A hit gives its hint to the sector (R199). Mark: DEDUCED (log 14). -/
def hintSector (s : State) (die core pa : Nat) (hint : BitVec 2) : State :=
  { s with nc := s.nc.upd (ncKey die core pa) fun sec => { sec with hint := hintOf sec.hint hint } }

/-- Write bytes into the near cache and mark them dirty (R197, R198). -/
def ncWrite (s : State) (die core ctx pa : Nat) (bs : List Byte) (hint : BitVec 2) : State :=
  let key := ncKey die core pa
  let s := s.makeRoom die core pa
  let sec := s.nc.getD key { ctx := ctx, bytes := [], dirty := [], expiry := none, hint := 0 }
  let offs := (List.range bs.length).map fun i => pa % 64 + i
  let bytes := (offs.zip bs).foldl (fun t e => Tbl.put t e.1 e.2) sec.bytes
  { s with nc := s.nc.put key { sec with bytes := bytes, dirty := sec.dirty ++ offs.filter fun o => !sec.dirty.contains o, expiry := none, hint := hintOf sec.hint hint } }

/-- The bytes of a sector as home will hold them once this core's write-backs on their way have been accepted. Mark: DEDUCED (log 15). -/
def homeSector (s : State) (die core sector : Nat) : List Byte :=
  (List.range 64).map fun i =>
    s.wbacks.vals.foldl (fun b w =>
      if w.die == die && w.core == core then (Tbl.find w.bytes (sector * 64 + i)).getD b else b) (s.memGet die (sector * 64 + i))

/-- Fill a sector from home: the merge keeps every dirty byte (R197). Mark: DEDUCED (log 15). -/
def ncFill (s : State) (die core ctx pa : Nat) (hint : BitVec 2) : State :=
  let key := ncKey die core pa
  let s := s.makeRoom die core pa
  let sec := s.nc.getD key { ctx := ctx, bytes := [], dirty := [], expiry := none, hint := 0 }
  let home := s.homeSector die core (pa / 64)
  let bytes := (List.range 64).foldl (fun t i =>
    if sec.dirty.contains i then t else Tbl.put t i (home.getD i 0)) sec.bytes
  { s with nc := s.nc.put key { sec with bytes := bytes, hint := hintOf sec.hint hint, expiry := none } }

/-- The near cache holds the bytes asked for, after a fill from home where one is missing (R192, R197). -/
def ncHold (s : State) (die core ctx pa size : Nat) : State :=
  if (s.ncBytes die core pa size modeS).isSome then s else (s.ncFill die core ctx pa 0).chargeHbm die pa (some ctx)

end State

end Sys2Proof.Machine
end

