-- ==== Sys2Proof/Machine/Ops.lean ====
section
/-! DEFINITION. The operations that every meaning shares: the translation of addresses (R173 to R182), and the taking of a cause
(R364 to R368) with the return from its handler (R370). -/

namespace Sys2Proof.Machine

open Host (Cell)

/-! ## Walks and translation (R173 to R182) -/

/-- The result of a walk (R178): a leaf with its level and where it stands, a fault, or an address beyond the HBM. -/
inductive Walked where
  | leaf (e : W64) (place : Nat)
  | bad (reason level psize : Nat)
  | beyond (addr : Nat)
  deriving DecidableEq, Repr

/-- The index bits of a level (R175): lowest bit and width. -/
def levelBits (level : Nat) : Nat × Nat := if level = 0 then (16, 5) else (21 + 9 * (level - 1), 9)
/-- The SIZE code of the leaf that a level allows (R175). -/
def levelLeaf (level : Nat) : Option Nat := match level with | 2 => some 2 | 1 => some 1 | 0 => some 0 | _ => none

/-- The walk from `level` down, `level + 1` entries at most (R178). -/
def walkFrom (s : State) (die va : Nat) : Nat → Nat → Walked
  | level, t =>
    let ib := levelBits level
    let place := t + 8 * bitsOf va ib.1 ib.2
    if dieSpan ≤ place then .beyond place
    else
      let e := (s.memW64 die place)
      let n := e.toNat
      if !e.getLsbD 0 then .bad rsnNotValid level 0
      else if bitsOf n 52 4 = 0xE then
        if level = 0 ∨ bitsOf n 1 7 ≠ 0 ∨ bitsOf n 56 8 ≠ 0 ∨ (1 < level ∧ bitsOf n 8 4 ≠ 0) then
          .bad rsnBadEntry level 0
        else
          match level with
          | 0 => .bad rsnBadEntry 0 0
          | l + 1 => walkFrom s die va l (bitsOf n 8 44 * 256)
      else if levelLeaf level ≠ some (bitsOf n 52 4) then .bad rsnBadEntry level 0
      else if e.getLsbD 7 ∨ e.getLsbD 15 ∨ bitsOf n 56 8 ≠ 0 then .bad rsnBadEntry level (Leaf.size e)
      else if Leaf.frame e % Leaf.bytes e ≠ 0 ∨ dieSpan < Leaf.frame e + Leaf.bytes e then
        .bad rsnBadFrame level (Leaf.size e)
      else .leaf e place

/-- The table pointers that a walk from `level` down passes: the level and the address of each table that it is led to. -/
def walkTables (s : State) (die va : Nat) : Nat → Nat → List (Nat × Nat)
  | level, t =>
    let ib := levelBits level
    let n := (s.memW64 die (t + 8 * bitsOf va ib.1 ib.2)).toNat
    if n % 2 = 0 ∨ bitsOf n 52 4 ≠ 0xE ∨ bitsOf n 1 7 ≠ 0 ∨ bitsOf n 56 8 ≠ 0 ∨ (1 < level ∧ bitsOf n 8 4 ≠ 0) then []
    else
      match level with
      | 0 => []
      | l + 1 => (l, bitsOf n 8 44 * 256) :: walkTables s die va l (bitsOf n 8 44 * 256)

/-- The places of the entries that a walk reads, from a table on (R175). -/
def walkPlaces (s : State) (die va level table : Nat) : List Nat :=
  ((level, table) :: walkTables s die va level table).map fun t => t.2 + 8 * bitsOf va (levelBits t.1).1 (levelBits t.1).2

/-- Like any reader, a walker has home recall the partials of a line first, and reads the earlier value until they are performed
(R196, R202). Mark: DEDUCED (log 11). -/
def State.recallTables (s : State) (die : Nat) (places : List Nat) : State :=
  places.foldl (fun s p => if (s.holdersOf die p).isEmpty then s else (s.recallNow die p).2) s

/-- The bytes of virtual space that one table of a level translates (R175). -/
def tableSpan (level : Nat) : Nat := 2 ^ (levelBits (level + 1)).1

/-- Where a walker starts (R180): at the deepest table whose pointer the die's walk cache holds, or at the root. Mark: DESIGN CHOICE (log 13). -/
def State.walkStart (s : State) (ctx die va root : Nat) : Nat × Nat :=
  match (List.range 4).filterMap fun l => (s.walkCache.getD die []).find? fun e => e.ctx == ctx && e.level == l && e.pfx == va / tableSpan l with
  | e :: _ => (e.level, e.table)
  | [] => (4, root)

/-- A walk leaves the table pointers that it passed in the walk cache of 1,024 entries (R180). Mark: DESIGN CHOICE (log 13). -/
def State.keepTables (s : State) (ctx die va : Nat) (ts : List (Nat × Nat)) : State :=
  let new : List WalkC := ts.map fun t => { ctx := ctx, level := t.1, pfx := va / tableSpan t.1, table := t.2 }
  let old := (s.walkCache.getD die []).filter fun e => !new.any fun n => n.ctx == e.ctx && n.level == e.level && n.pfx == e.pfx
  { s with walkCache := s.walkCache.put die ((new ++ old).take 1024) }

/-- The leaf check (R178): cause, reason and owner of the first failure. `vcore` is none for the hub and the die
scheduler, to which the owner check does not apply (R187). Mark: DEDUCED (log 12). -/
def leafCheck (e : W64) (kind : Nat) (vcore : Option Nat) : Option (Cause × Nat × Nat) :=
  if kindWrites kind && !Leaf.w e then some (.pageprot, rsnWrite, 0)
  else if kind == kindFetch && !Leaf.x e then some (.pageprot, rsnFetch, 0)
  else match vcore with
    | none => none
    | some v =>
      if Leaf.mode e = modeP ∧ Leaf.owner e ≠ v then
        some (.pagemode, rsnNotOwner, Leaf.owner e)
      else none

/-- The number of a context's address space on a virtual die. -/
def spaceKey (ctx vdie : Nat) : Nat := ctx * 8 + vdie
/-- The leaf of an address with the MODE and OWNER in force: those that firmware has written by another way than a change-mode record
are used only after an invalidate-only record (R186). Mark: DESIGN CHOICE (log 13). -/
def State.inForce (s : State) (ctx vdie va : Nat) (e : W64) : W64 :=
  match (s.modes.getD (spaceKey ctx vdie) []).find? fun m => decide (m.base ≤ va) && decide (va < m.base + m.size) with
  | some m => (e &&& ~~~0x7F06) ||| BitVec.ofNat 64 (m.mode * 2 + m.owner * 256)
  | none => e

/-- The page of an address, as base and bytes; 64 KiB where no leaf is found. Mark: DESIGN CHOICE (log 13). -/
def State.pageOf (s : State) (die ctx vdie va : Nat) : Nat × Nat :=
  let span := match s.contexts.find ctx with
    | none => 65536
    | some c => match c.xrecs.find vdie with
      | none => 65536
      | some x => match walkFrom s die va 4 x.root with
        | .leaf e _ => Leaf.bytes e
        | _ => 65536
  (va / span * span, span)

/-- The translation of one access that walks at once. -/
inductive Trans where
  | hit (leaf : W64) (pa : Nat)
  | locked
  | cause (c : Cause) (info : W32)
  | wait (w : Wait)
  | beyond (addr : Nat)
  deriving DecidableEq, Repr

/-- The context of a number. -/
def State.xrec (s : State) (ctx vdie : Nat) : Option XRec :=
  match s.contexts.find ctx with
  | some c => c.xrecs.find vdie
  | none => none

/-- The virtual die of a context that a physical die serves. -/
def State.vdieOf (s : State) (ctx die : Nat) : Option Nat :=
  match s.contexts.find ctx with
  | some c => (c.remap.find? fun e => e.2 == die).map (·.1)
  | none => none

/-- The leaf check of a found leaf, as a translation. -/
def transLeaf (e : W64) (va kind : Nat) (vcore : Option Nat) : Trans :=
  match leafCheck e kind vcore with
  | some (c, r, o) => .cause c (pageInfo kind 7 (Leaf.size e) r o)
  | none => if Leaf.mode e = modeLocked then .locked else .hit e (Leaf.pa e va)

namespace State

/-- Set ACCESSED, and DIRTY for a write, at home (R179): the leaf, and the state. -/
def markLeaf (s : State) (die place : Nat) (e : W64) (write : Bool) : W64 × State :=
  let e' := e ||| 0x20 ||| (if write then 0x40 else 0)
  (e', s.memWrite die place (w64Bytes e'))

/-- A walk made at once by an engine, the fetch path or the die scheduler: the translation, and the state with
ACCESSED and DIRTY set. Mark: DEDUCED (log 12), DESIGN CHOICE (log 13). -/
def walkNow (s : State) (die ctx vdie : Nat) (va kind : Nat) (vcore : Option Nat) : Trans × State :=
  if 2 ^ 57 ≤ va then (.cause .pagefault (pageInfo kind 4 0 rsnNonCanon 0), s)
  else match s.xrec ctx vdie with
    | none => (.cause .pagefault (pageInfo kind 4 0 rsnNotValid 0), s)
    | some x =>
      let s := s.recallTables die (walkPlaces s die va 4 x.root)
      match walkFrom s die va 4 x.root with
      | .bad r l z => (.cause .pagefault (pageInfo kind l z r 0), s)
      | .beyond a => (.beyond a, s.fail (.noSuchPhysical die a))
      | .leaf e place => match transLeaf (s.inForce ctx vdie va e) va kind vcore with
        | .hit _ _ =>
          let (e', s') := s.markLeaf die place e (kindWrites kind)
          (.hit (s.inForce ctx vdie va e') (Leaf.pa e' va), s')
        | r => (r, s)

/-- The entry of a TLB for a page (R180). -/
def tlbFind (l : List TlbE) (ctx va : Nat) : Option TlbE :=
  l.find? fun e => e.ctx == ctx && decide (e.base ≤ va) && decide (va < e.base + e.size)

/-- The pages that a core has in outstanding misses (R181). -/
def coreMisses (s : State) (die core : Nat) : Nat :=
  (s.walks.filter fun e => e.2.die == die && e.2.cores.contains core).length
def dieWalks (s : State) (die : Nat) : Nat := (s.walks.filter fun e => e.2.die == die).length

/-- The walks that hold the die's 64 walkers: the oldest (R180, R181). -/
def walking (s : State) (die : Nat) : List Nat := ((s.walks.filter fun e => e.2.die == die).map (·.1)).take 64

/-- Send a miss of a thread to the walkers, or attach it to the walk in progress for its page, whose bits it then shares (R181).
Mark: DESIGN CHOICE (log 13). -/
def postWalk (s : State) (m : Self) (va kind : Nat) : State :=
  let die := m.g.die
  let core := m.g.core
  match s.walks.find? fun e => e.2.die == die && e.2.ctx == m.g.ctx && decide (e.2.base ≤ va) && decide (va < e.2.base + e.2.span) with
  | some (id, w) =>
    if w.cores.contains core || decide (s.coreMisses die core < 32) then
      let cores := if w.cores.contains core then w.cores else w.cores ++ [core]
      let waiters := if w.waiters.contains (m.k, kind) then w.waiters else w.waiters ++ [(m.k, kind)]
      { s with walks := s.walks.put id { w with write := w.write || kindWrites kind, cores := cores, waiters := waiters } }
    else s
  | none =>
    if s.coreMisses die core < 32 ∧ s.dieWalks die < 64 + 1024 then
      let (id, s) := s.newId
      let page := s.pageOf die m.g.ctx m.g.vdie va
      let w : Walk := { die := die, ctx := m.g.ctx, va := va, base := page.1, span := page.2, write := kindWrites kind, cores := [core], waiters := [(m.k, kind)] }
      { s with walks := s.walks.put id w }
    else s

/-- The translation of a thread's own data access through the near TLB and the die TLB (R180). A miss, or a first
write through a translation whose DIRTY is clear (R179), goes to a walker, and the thread waits (R181). Mark: DESIGN CHOICE (log 13). -/
def translate (s : State) (m : Self) (va : W64) (kind : Nat) : Trans × State :=
  let a := va.toNat
  if 2 ^ 57 ≤ a then (.cause .pagefault (pageInfo kind 4 0 rsnNonCanon 0), s)
  else
    match m.t.walkFault.filter fun f => decide (f.base ≤ a) && decide (a < f.base + f.span) with
    | some f => (.cause f.cause (pageInfo kind f.level f.psize f.reason f.owner), s)
    | none =>
      let near := s.nearTlb.getD (coreKey m.g.die m.g.core) []
      let found := match tlbFind near m.g.ctx a with
        | some e => some (e, true)
        | none => match tlbFind (s.dieTlb.getD m.g.die []) m.g.ctx a with
          | some e => some (e, false)
          | none => none
      match found with
      | none => (.wait ⟨waitResource, va, a⟩, s.postWalk m a kind)
      | some (e, isNear) =>
        let s := if isNear then s else
          { s with nearTlb := s.nearTlb.put (coreKey m.g.die m.g.core) ((e :: near).take 512) }
        match transLeaf e.leaf a kind (some m.g.vcore) with
        | .hit leaf pa =>
          if kindWrites kind && !Leaf.dirty leaf then
            (.wait ⟨waitResource, va, a⟩, s.postWalk m a kind)
          else (.hit leaf pa, s)
        | r => (r, s)

/-! ## Reads that the device makes for itself -/

/-- What a read that the trap hardware makes comes to. -/
inductive HwRead where
  | bytes (l : List Byte)
  | cause (c : Cause) (info : W32)
  /-- It waits: for the release of a locked page, or for writes that it follows. -/
  | wait (w : Wait)
  deriving DecidableEq, Repr

/-- An n64 entry read by the trap hardware of a core as a load with lease `none`, for the threads `ks` of which `m` is the first
(R368): a page cause or MISALIGN fails it, it stalls on a locked page (R183, R207), follows the threads' own writes (R206), recalls
partials (R202), and reads the near cache where a load would (R197). Mark: DEDUCED (log 11). -/
def readEntry (s : State) (m : Self) (ks : List Nat) (va : Nat) : HwRead × State :=
  match s.walkNow m.g.die m.g.ctx m.g.vdie va kindLoad (some m.g.vcore) with
  | (.hit leaf pa, s) =>
    let die := m.g.die
    let core := m.g.core
    let later : Wait := ⟨waitOverlap, BitVec.ofNat 64 (8 + 256 * (ordLoad.num + 8)), pa⟩
    if va % 8 ≠ 0 then (.cause .misalign (BitVec.ofNat 32 (kindLoad + 8 * 5)), s)
    else if ks.any fun k => s.overlapPending k pa 8 ordLoad then (.wait later, s)
    else if Leaf.mode leaf = modeH then
      match s.mayRead (threadReader m.k) die pa with
      | (true, s) => (.bytes (s.memRead die pa 8), s.readDone (threadReader m.k))
      | (false, s) => (.wait later, s)
    else let s := s.ncHold die core m.g.ctx pa 8; (.bytes ((s.ncBytes die core pa 8 modeS).getD []), s)
  | (.cause c i, s) => (.cause c i, s)
  | (.locked, s) => (.wait ⟨waitLock, BitVec.ofNat 64 va, va⟩, s)
  | (_, s) => (.cause .pagefault (pageInfo kindLoad 4 0 rsnNotValid 0), s)

end State

/-! ## Causes (R364 to R368) -/

namespace Cause

def code : Cause → Byte
  | illop => 0x01 | illhdr => 0x02 | badtarget => 0x03 | pagefault => 0x10 | pageprot => 0x11 | pagemode => 0x13
  | misalign => 0x14 | hndrel => 0x05 | hndown => 0x06 | hndfmt => 0x07 | mmacoord => 0x08 | accrange => 0x09
  | spadrange => 0x40 | qnotbound => 0x20 | qprot => 0x21 | qvoid => 0x22 | qhomelost => 0x23 | qrange => 0x24
  | qfull => 0x25 | cvcount => 0x30 | convstall => 0x31 | awdisarmed => 0x32 | tagtrap => 0x41 | emptyreg => 0x04
  | bkpt => 0x51 | trapsw => 0x50

/-- Priority, 1 the highest (R364). -/
def prio : Cause → Nat
  | illop => 1 | illhdr => 2 | badtarget => 3 | pagefault => 4 | pageprot => 5 | pagemode => 6
  | misalign => 7 | hndrel => 8 | hndown => 9 | hndfmt => 10 | mmacoord => 11 | accrange => 12
  | spadrange => 13 | qnotbound => 14 | qprot => 15 | qvoid => 16 | qhomelost => 17 | qrange => 18
  | qfull => 19 | cvcount => 20 | convstall => 21 | awdisarmed => 22 | tagtrap => 23 | emptyreg => 24
  | bkpt => 25 | trapsw => 26

/-- Class L: a local handler may take it (R364). -/
def isL (c : Cause) : Bool := decide (14 ≤ c.prio)

/-- Whether EPC names the slot after the instruction (R368). -/
def after : Cause → Bool
  | trapsw => true
  | bkpt => true
  | _ => false

end Cause

/-- A cause raised in a thread: its EINFO, the faulting address (R374), and the PC that it names (R368). -/
structure Raised where
  k     : Nat
  c     : Cause
  info  : W32
  faddr : W64
  pc    : W64
  deriving DecidableEq, Repr

/-- What the trap-handler table gives (R368). -/
inductive Handler where
  | absent
  | tabFault
  /-- The read of the table waits. -/
  | wait (w : Wait)
  | entry (pc : W64)
  deriving DecidableEq, Repr

namespace State

/-- Entry `c` of the trap-handler table of threads of one warp, `m` the first (R368). Mark: DEDUCED (log 3), DESIGN CHOICE (log 71).
Mark: DEDUCED (log 11). -/
def handlerOf (s : State) (m : Self) (ks : List Nat) (c : Cause) : Handler × State :=
  if m.l.trapTab = 0 then (.absent, s)
  else match s.readEntry m ks (m.l.trapTab.toNat + 8 * c.code.toNat) with
    | (.bytes bs, s) => (if bytesW64 bs = 0 then .absent else .entry (bytesW64 bs), s)
    | (.cause _ _, s) => (.tabFault, s)
    | (.wait w, s) => (.wait w, s)

def haltOf (c : Context) (vdie : Nat) : HaltDie :=
  c.halts.getD vdie { cause := none, arrived := none, written := false }

/-- Whether `a` comes before `b` among the causes that a die takes: at an earlier clk, or in the same one by priority and then by
virtual core, group, warp and lane (R374). Mark: DEDUCED (log 69). -/
def causeBefore (a b : DieCause) : Bool :=
  let key (x : DieCause) : List Nat := [x.cause.prio, x.vcore, x.group, x.warp, x.lane]
  a.clk == b.clk && decide (key a < key b)

/-- The cause of a die's stop header when one more is taken (R374). Mark: DEDUCED (log 69). -/
def headerCause (old : Option DieCause) (new : DieCause) : DieCause :=
  match old with
  | none => new
  | some x => if causeBefore new x then new else x

/-- A class F cause reaches the context's halt line (R365, R372, R363). In a context that is already halting or halted it starts
nothing new, and is recorded in the stop records: in its die's header if it comes first there, and as the pending cause of its
thread. It turns a pre-emption into a fault halt; while the context resumes it waits until the context is RUNNING. Mark: DEDUCED (logs 45, 69). -/
def raiseHalt (s : State) (ctx vdie : Nat) (dc : DieCause) : State :=
  match s.contexts.find ctx with
  | none => s
  | some c =>
    let h := haltOf c vdie
    let c := { c with halts := c.halts.put vdie { h with cause := some (headerCause h.cause dc) } }
    let up : Context := { c with st := .halting false, reason := 0, lineUp := true, primary := c.primary.or (some (.cause vdie dc)) }
    let late (s : State) : State := match dc.thread with
      | some k => s.updThread k fun t => { t with late := t.late.or (some dc.cause) }
      | none => s
    match c.st with
    | .running => { s with contexts := s.contexts.put ctx up }
    | .halting true => { s with contexts := s.contexts.put ctx up }
    | .resuming => { s with contexts := s.contexts.put ctx c }
    | _ => late { s with contexts := s.contexts.put ctx c }

end State

/-- WCAUSE (R366). -/
def wcauseOf (c : Cause) (esc : Bool) (lane : Nat) : W32 :=
  BitVec.ofNat 32 (c.code.toNat + (if esc then 256 else 0) + lane * 512)

namespace State

/-- A thread enters its handler (R368): EPC, EINFO and the WCAUSE latch are set and the PC is the entry, which is
checked as a branch target when it is reached. -/
def enterHandler (s : State) (r : Raised) (entry : W64) (wcause : W32) : State :=
  (s.updThread r.k fun t =>
    { t with handler := some wcause, epc := r.pc, einfo := r.info, pc := entry, xfer := some .slot0 }).ready r.k

/-- A class F cause stops its thread precisely: EPC and PC name the slot (R365). -/
def stopThread (s : State) (r : Raised) : State :=
  s.updThread r.k fun t =>
    { t with epc := r.pc, einfo := r.info, pc := r.pc, st := .stopped (if t.handler.isSome then 3 else 0) none, walkFault := none }

/-- The stop-header fields of a cause of a thread (R374). Mark: DEDUCED (log 69). -/
def dieCauseOf (s : State) (m : Self) (r : Raised) (esc tab : Bool) : DieCause :=
  { cause := r.c, esc := esc, tab := tab, vcore := m.g.vcore, group := m.g.num, warp := m.w.num, lane := m.t.lane,
    einfo := r.info, epc := r.pc, faddr := r.faddr, clk := s.clk m.g.die m.g.core, thread := some m.k }

/-- TAKING A CAUSE (R365, R366, R368): one member takes it, into the handler `h` or, escalating if its class is L,
by halting the context. -/
def takeOne (s : State) (h : Handler) (wcause : W32) (r : Raised) : State :=
  match s.self r.k with
  | none => s
  | some m =>
    let s := s.updThread r.k fun t => { t with deferred := t.deferred.erase (r.c, r.info) }
    let local_ := r.c.isL && m.t.handler.isNone
    match local_, h with
    | true, .entry e => s.enterHandler r e wcause
    | _, _ =>
      let esc := r.c.isL
      let tab := local_ && h == .tabFault
      (s.stopThread r).raiseHalt m.g.ctx m.g.vdie (s.dieCauseOf m r esc tab)

/-- The order in which causes of one slot are taken (R374): priority, then warp number and lane. Mark: DEDUCED (log 69). -/
def raisedBefore (s : State) (a b : Raised) : Bool :=
  let key (r : Raised) : Nat := match s.self r.k with
    | some m => (r.c.prio * 2 ^ 16 + m.g.vcore * 256 + m.g.num) * 512 * 64 + m.w.num * 64 + m.t.lane
    | none => 0
  decide (key a ≤ key b)

/-- The members of one warp that take the warp's cause of this slot (R366); they wait while the read of the trap-handler table
does (R183, R206). Mark: DEDUCED (log 11). -/
def takeWarp (s : State) (wid : Nat) (rs : List Raised) : State :=
  match rs with
  | [] => s
  | r0 :: _ =>
    match s.self r0.k with
    | none => s
    | some m0 =>
      let (h, s) := if r0.c.isL then s.handlerOf m0 (rs.map (·.k)) r0.c else (.absent, s)
      let lanes := rs.map fun r => r.k % 64
      let low := lanes.foldl min 63
      let esc := r0.c.isL && (match h with | .entry _ => false | _ => true)
        || r0.c.isL && rs.any fun r => match s.threads.find r.k with
          | some t => t.handler.isSome
          | none => false
      let wc := wcauseOf r0.c esc low
      match h with
      | .wait w => rs.foldl (fun s r => s.block r.k w) s
      | _ => rs.foldl (fun s r => s.takeOne h wc r) (s.updWarp wid fun w => { w with wcause := wc })

/-- A cause that an engine or the code fetch of a waystation launch meets is charged to the warp that issued the work (R188). -/
def chargeWarp (s : State) (wid lane : Nat) (c : Cause) (info : W32) (faddr pc : W64) : State :=
  match s.warps.find wid with
  | none => s
  | some w => match s.groups.find w.group with
    | none => s
    | some g =>
      (s.updWarp wid fun w => { w with wcause := wcauseOf c false lane }).raiseHalt g.ctx g.vdie
        { cause := c, esc := false, tab := false, vcore := g.vcore, group := g.num, warp := w.num, lane := lane, einfo := info, epc := pc, faddr := faddr, clk := s.clk g.die g.core, thread := some (threadKey wid lane) }

/-- The causes of one slot, arbitrated warp by warp (R366): in each warp the members that raised the highest cause
take it and the others stay READY with PC at the slot. -/
def takeCauses (s : State) (rs : List Raised) : State :=
  let sorted := sortBy s.raisedBefore rs
  let warps := (sorted.map fun r => r.k / 64).eraseDups
  warps.foldl (fun s wid =>
    let mine := sorted.filter fun r => r.k / 64 == wid
    let best := mine.foldl (fun p r => min p r.c.prio) 27
    let s := (mine.filter fun r => r.c.prio != best).foldl (fun s r => s.ready r.k) s
    s.takeWarp wid (mine.filter fun r => r.c.prio == best)) s

/-- THE RETURN FROM A HANDLER (R370): the PC is EPC, checked when it is reached, and the WCAUSE latch is clear. -/
def leaveHandler (s : State) (k : Nat) : State :=
  (s.updThread k fun t => { t with handler := none, pc := t.epc, xfer := some .anySlot }).ready k

end State

end Sys2Proof.Machine
end

