-- ==== Sys2Proof/Machine/Member.lean ====
section
/-! DEFINITION. How one slot runs on the members of its issue group (R109, R112): the checks that come before every
instruction (deferred causes, R237 and R342; the guard, R73; empty sources and destinations, R80 and R81; a full
counter, R85), the instruction's own body in ascending lane order (R205), and what each member does then. -/

namespace Sys2Proof.Machine

/-- What one member's slot comes to. -/
inductive Verdict where
  /-- The slot takes effect and the PC goes on. -/
  | done
  /-- The guard fails: no effect, and the PC goes on (R73). -/
  | skip
  /-- The member leaves its group BLOCKED with PC at the slot. -/
  | block (w : Wait)
  /-- The member raises a cause; `faddr` is the faulting address of a page cause or MISALIGN. -/
  | cause (c : Cause) (info : W32) (faddr : W64)
  /-- The member goes to a branch target (R116). -/
  | goto (t : W64)
  /-- The body has put the member into its next state. -/
  | left
  /-- The member arrives at a warp point (R124). -/
  | arrive
  /-- The slot takes effect, and the member then waits before its next slot (a fence placed after, R208). -/
  | doneBlock (w : Wait)
  deriving DecidableEq, Repr

/-- A cause with no faulting address. -/
def Verdict.raise (c : Cause) (info : W32) : Verdict := .cause c info 0

/-- An instruction's body for one member. -/
abbrev Body := Self → State → Verdict × State

/-- The empty policy of a field (R72); D has none. -/
def fieldPolicy (q : Ctl) : Fld → Bool
  | .a => q.fa
  | .b => q.fb
  | .c => q.fc
  | .d => false

def fieldNum : Fld → Nat
  | .a => 0
  | .b => 1
  | .c => 2
  | .d => 3

/-- The registers that a slot names when its warp is `w` lanes wide: a roster-wide mask takes a pair at W = 64 (R127,
R129, R131). -/
def slotUses (i : Instr) (w : Nat) : List Use :=
  match i with
  | .vote _ d _ _ mode => [⟨.d, d, if w = 64 ∧ mode = 3 then 2 else 1, .dst⟩]
  | .wmatch _ d a wide mode => [⟨.d, d, if w = 64 ∧ mode = 0 then 2 else 1, .dst⟩, ⟨.a, a, rw wide, .src⟩]
  | .wlive _ d => [⟨.d, d, if w = 64 then 2 else 1, .dst⟩]
  | _ => i.uses

/-- The empty sources of a slot, in field order D, A, B, C: field, operand, register. -/
def emptySources (i : Instr) (m : Self) : List (Fld × Opd × Nat) :=
  (slotUses i m.w.width).filterMap fun u => match u.k with
    | .src => (m.t.firstEmpty u.o u.n).map fun r => (u.f, u.o, r)
    -- the A row of a matrix signature is read only where no latch is held (R281)
    | .lim => if m.t.latch.isNone then (m.t.firstEmpty u.o u.n).map fun r => (u.f, u.o, r) else none
    | _ => none

/-- The first empty destination register of a slot (R81). -/
def emptyDest (i : Instr) (m : Self) : Option Nat :=
  ((slotUses i m.w.width).filterMap fun u => match u.k with
    | .dst => m.t.firstEmpty u.o u.n
    | _ => none).head?

/-- The outstanding counter that an instruction raises (R84): 0 CP, 1 MX, 2 QU, 3 GS. -/
def counterOf (i : Instr) : Option Nat :=
  let op := i.opcode
  if (0xA5 ≤ op ∧ op ≤ 0xA8) ∨ op = 0xC4 ∨ op = 0xC5 ∨ op = 0xC7 ∨ op = 0xC8 then some 0
  else if 0xD0 ≤ op ∧ op ≤ 0xD4 then some 1
  else if op = 0xE3 ∨ op = 0xE5 ∨ op = 0xEA then some 2
  else if op = 0xA9 ∨ op = 0xAA then some 3
  else none

def Warp.ctr (w : Warp) : Nat → Nat
  | 0 => w.cp
  | 1 => w.mx
  | 2 => w.qu
  | _ => w.gs

/-- The deferred cause that a thread raises first: the one of highest priority. -/
def firstDeferred (l : List (Cause × W32)) : Option (Cause × W32) :=
  l.foldl (fun b x => match b with
    | none => some x
    | some y => if x.1.prio < y.1.prio then some x else some y) none

/-- The causes and blocks of R80, R81 and R85 for a member whose guard holds. Mark: DEDUCED (log 78). -/
def sourceCheck (i : Instr) (m : Self) : Option Verdict :=
  match emptySources i m with
  | (f, o, r) :: es =>
    match ((f, o, r) :: es).find? fun e => fieldPolicy i.ctl e.1 with
    | some e => some (.raise .emptyreg (BitVec.ofNat 32 (e.2.1.code.toNat + 256 * fieldNum e.1)))
    | none => some (.block ⟨waitReg, 0, r⟩)
  | [] => none

/-- What holds an instruction back at its slot before it acts: an empty source register (R78), a destination that a
producer still owes, a full counter. Mark: DEDUCED (logs 3, 78). -/
def readyCheck (i : Instr) (m : Self) : Option Verdict :=
  match sourceCheck i m with
  | some v => some v
  | none => match emptyDest i m with
    | some r => some (.block ⟨waitReg, 0, r⟩)
    | none => match counterOf i with
      | some c => if m.w.ctr c = 255 then some (.block ⟨waitCounters, 0xFFFF, c⟩) else none
      | none => none

/-- What an instruction's checks find for certain where some of its source fields are empty (R364). -/
abbrev Probe := List Fld → Body

/-- The fields that name the place an access or a range check is about. -/
def placeFields : Instr → List Fld
  | .ld .. => [.a]
  | .st .. => [.a]
  | .ldx .. => [.a, .b]
  | .stx .. => [.a, .b]
  | .lds .. => [.a]
  | .sts .. => [.a]
  | .pfl .. => [.a]
  | .atom .. => [.a]
  | .acas .. => [.a]
  | .red .. => [.a]
  | .tagset .. => [.a]
  | .tagrd .. => [.a]
  | .awinit .. => [.a]
  | .awadd .. => [.a]
  | .await .. => [.a]
  | .mwait .. => [.a]
  | .thal .. => [.a, .b]
  | .accz .. => [.a, .b]
  | .accrd .. => [.a]
  | .launch .. => [.b]
  | .qputs .. => [.a, .d, .c]
  | .qtakes .. => [.a, .b, .c]
  | .mma .. => [.c]
  | .mmal .. => [.c]
  | .phmma .. => [.c]
  | _ => [.d, .a, .b, .c]

/-- The source fields on which a cause of an instruction depends (R364): where they are full, an empty register of another field
does not hide it. Mark: DEDUCED (log 78). -/
def causeFields (i : Instr) (c : Cause) : List Fld :=
  match c with
  | .illop => []
  | .hndrel => []
  | .hndown => []
  | .hndfmt => match i with | .thal .. => [.a] | _ => []
  | .mmacoord => [.c]
  | .cvcount => match i with | .cvsign .. => [.a] | _ => []
  | .pagefault => placeFields i
  | .pageprot => placeFields i
  | .pagemode => placeFields i
  | .misalign => placeFields i
  | .accrange => placeFields i
  | .spadrange => placeFields i
  | .awdisarmed => placeFields i
  | .tagtrap => placeFields i
  | _ => [.d, .a, .b, .c]

/-- What a body finds for certain: a cause that depends on full fields alone, or the walk of an access whose address is full. Mark: DEDUCED (log 78). -/
def sureOf (i : Instr) (body : Body) : Probe := fun bare m s =>
  let full (fs : List Fld) : Bool := fs.all fun f => !bare.contains f
  match body m s with
  | (.cause c info fa, s') => if full (causeFields i c) then (.cause c info fa, s') else (.done, s)
  | (.block w, s') => if w.kind = waitResource ∧ w.place ≠ 0 ∧ full (placeFields i) = true then (.block w, s') else (.done, s)
  | _ => (.done, s)
/-- The cause that a check has found. -/
def causeOnly : Option Verdict → Verdict
  | some (.cause c info fa) => .cause c info fa
  | _ => .done

/-- EMPTYREG against the causes of higher priority that the instruction meets as well, which are raised instead (R89, R364). Mark: DEDUCED (log 78). -/
def emptyOr (i : Instr) (probe : Probe) (m : Self) (s : State) (v : Verdict) : Verdict × State :=
  match v with
  | .cause .emptyreg _ _ =>
    match probe ((emptySources i m).map (·.1)) m s with
    | (.cause c info fa, s') => if c.prio < Cause.emptyreg.prio then (.cause c info fa, s') else (v, s)
    | (.block w, s') => (.block w, s')
    | _ => (v, s)
  | _ => (v, s)

/-- EINFO of ILLOP for the slot in hand (R367). -/
def State.illopInfo (s : State) (op : Nat) : W32 :=
  BitVec.ofNat 32 (op + 256 * match s.igroups.find s.focus with | some ig => ig.slot | none => 0)

/-- A special register that R77 does not list: ILLOP, which is raised whatever the operands hold. Mark: DEDUCED (log 78). -/
def badSpecial : Instr → Bool
  | .sread _ _ reg => decide (0x1B < reg.toNat)
  | .swrite _ reg _ => decide (0x1B < reg.toNat)
  | _ => false

/-- One member's slot. Mark: DEDUCED (log 67). -/
def runMember (i : Instr) (body : Body) (probe : Probe) (s : State) (k : Nat) : Verdict × State :=
  match s.self k with
  | none => (.left, s)
  | some m =>
    -- a roster edit of an earlier member has ended it, and it does not execute (R133)
    if m.t.st == .exited then (.skip, s)
    -- a slot whose wait has ended takes effect, even where its own answer has cleared its guard (R342)
    else if m.t.waitDone then (if m.t.guardOk i.ctl then body m s else (.done, s.updThread k fun t => { t with waitDone := false }))
    else match firstDeferred m.t.deferred with
    | some (c, info) => (.raise c info, s)
    | none =>
      if !m.t.guardOk i.ctl then (.skip, s)
      else if badSpecial i then (.raise .illop (s.illopInfo i.opcode), s)
      else match readyCheck i m with
        | some v => emptyOr i probe m s v
        | none => body m s

/-- The members' slots, in ascending lane order (R205). -/
def runMembers (i : Instr) (body : Body) (probe : Probe) (s : State) : List Nat → State × List (Nat × Verdict)
  | [] => (s, [])
  | k :: ks =>
    let r := runMember i body probe s k
    let rest := runMembers i body probe r.2 ks
    (rest.1, (k, r.1) :: rest.2)

namespace IGroup

/-- The PC of the slot that the group issues (R67). -/
def pc (ig : IGroup) : W64 := ig.hdr ||| BitVec.ofNat 64 ig.slot
def last (ig : IGroup) : Bool := ig.slot == ig.count
/-- The fall-through header (R67). -/
def nextHdr (ig : IGroup) : W64 :=
  let words := if ig.dict then (ig.count + 1 + 3) / 4 else ig.count + 1
  BitVec.ofNat 64 ((ig.hdr.toNat + 8 + 8 * words + 15) / 16 * 16)
/-- The PC after the slot. -/
def nextPc (ig : IGroup) : W64 := if ig.last then ig.nextHdr else ig.hdr ||| BitVec.ofNat 64 (ig.slot + 1)

end IGroup

/-- What a member does after its slot. -/
def settleOne (ig : IGroup) (s : State) (r : Nat × Verdict) : State :=
  match r.2 with
  | .block w => s.block r.1 w
  | .cause _ _ _ => s.updThread r.1 fun t => { t with walkFault := none }
  | .goto t => (s.updThread r.1 fun x => { x with pc := t, xfer := some .slot0, walkFault := none, yielded := ig.yld }).ready r.1
  | .left => s
  | .doneBlock w =>
    let x : Option Xfer := if ig.last then some .slot0 else none
    (s.updThread r.1 fun t => { t with pc := ig.nextPc, xfer := x, walkFault := none, yielded := ig.last && ig.yld }).block r.1 w
  | .arrive =>
    let c := s.clkOf r.1
    s.updThread r.1 fun t => { t with st := .point, waitFrom := c, walkFault := none }
  | _ =>
    if ig.last then
      (s.updThread r.1 fun t => { t with pc := ig.nextPc, xfer := some .slot0, walkFault := none, yielded := ig.yld }).ready r.1
    else s.updThread r.1 fun t => { t with pc := ig.nextPc, walkFault := none }

/-- The causes among the verdicts of a slot, with the PC that each names (R368). -/
def raisedOf (ig : IGroup) (vs : List (Nat × Verdict)) : List Raised :=
  vs.filterMap fun r => match r.2 with
    | .cause c info fa => some ⟨r.1, c, info, fa, if c.after then ig.nextPc else ig.pc⟩
    | _ => none

/-- The members that stay in the group. -/
def stayers (vs : List (Nat × Verdict)) : List Nat :=
  vs.filterMap fun r => match r.2 with
    | .done => some r.1
    | .skip => some r.1
    | _ => none

/-- The issue group after its slot (R112). -/
def State.advance (s : State) (id : Nat) (ig : IGroup) (members : List Nat) : State :=
  if ig.last || members.isEmpty then { s with igroups := s.igroups.del id }
  else { s with igroups := s.igroups.put id { ig with slot := ig.slot + 1, members := members } }

/-- Whether a thread has not ended. -/
def State.alive (s : State) (k : Nat) : Bool :=
  match s.threads.find k with
  | some t => t.st != .exited
  | none => false

/-- The end of a slot: every member that the slot has not ended moves on, and the causes are taken warp by warp
(R366). -/
def settle (id : Nat) (ig : IGroup) (s : State) (vs : List (Nat × Verdict)) : State :=
  let vs := vs.filter fun v => s.alive v.1
  ((vs.foldl (settleOne ig) s).advance id ig (stayers vs)).takeCauses (raisedOf ig vs)

/-- The energy class of an opcode (R397). -/
def energyClass (op : Nat) : Nat :=
  if op ≤ 0x27 then 0
  else if op ≤ 0x4A then 1
  else if op ≤ 0x5C then 2
  else if op ≤ 0x75 then 3
  else if op = 0x84 ∨ op = 0x85 then 5
  else if op ≤ 0x95 then 4
  else if op ≤ 0xA4 then 5
  else if op ≤ 0xAA then 6
  else if op ≤ 0xB5 then 3
  else if op = 0xC4 ∨ op = 0xC5 ∨ op = 0xC7 ∨ op = 0xC8 then 6
  else if op ≤ 0xC9 then 7
  else if op ≤ 0xD1 then 8
  else if op = 0xD2 then 9
  else if op ≤ 0xD4 then 10
  else if op ≤ 0xEB then 11
  else 3

/-- Charge a quantity to a group: the sum saturates (R398). Mark: DEDUCED (log 59). -/
def State.charge (s : State) (gid cls qty : Nat) : State :=
  match s.groups.find gid with
  | none => s
  | some g =>
    let weight := match s.contexts.find g.ctx with
      | some c => (c.weights.getD cls 0).toNat
      | none => 0
    s.setGroup gid { g with energy := min (2 ^ 64 - 1) (g.energy + weight * qty) }

/-- Charge one thread's execution at issue, for the thread-counted classes (R397, R398, R400). -/
def State.chargeThread (op : Nat) (s : State) (k : Nat) : State :=
  let cls := energyClass op
  if cls = 6 ∨ (8 ≤ cls ∧ cls ≤ 10) then s
  else match s.threads.find k with
    | none => s
    | some t => match s.warps.find t.warp with
      | none => s
      | some w =>
        (s.charge w.group cls 1).updGroup w.group fun g => { g with issues := min (2 ^ 64 - 1) (g.issues + 1) }

/-- The members whose slot took effect, for the energy charge. -/
def executed (vs : List (Nat × Verdict)) : List Nat :=
  vs.filterMap fun v => match v.2 with
    | .done => some v.1
    | .goto _ => some v.1
    | .left => some v.1
    | .doneBlock _ => some v.1
    | _ => none

/-- The deepest storage that an instruction reaches (R396): `away` where its access has left the near cache, whose level is the die
cache's or HBM's. Mark: DESIGN CHOICE (log 58). -/
def levelOf (w : W64) (away : Bool) : Nat :=
  let op := bitsOf w.toNat 56 8
  if op = 0x84 ∨ op = 0x85 ∨ (0xA0 ≤ op ∧ op ≤ 0xA4) then 4
  else if (0x80 ≤ op ∧ op ≤ 0x86) ∨ (0x90 ≤ op ∧ op ≤ 0x92) then (if away then 2 else 1)
  else if op = 0x94 ∨ op = 0x95 then 1
  else if op = 0xB4 then 2
  else if 0xA5 ≤ op ∧ op ≤ 0xAA then (if op ≤ 0xA6 ∧ bitsOf w.toNat 6 2 = 3 then 2 else 4)
  else if op = 0xC0 ∨ (0xC4 ≤ op ∧ op ≤ 0xD4) then 6
  else if 0xE0 ≤ op ∧ op ≤ 0xEB then 5
  else 0

/-- Whether a thread's access from the slot in hand has left the near cache. -/
def State.leftCore (s : State) (m : Self) (pc : W64) : Bool :=
  s.prods.vals.any (fun p => p.thread == m.k && p.pc == pc && State.unperformed p) ||
  s.hreqs.vals.any fun r => r.thread == some m.k && r.ig == s.focus && r.born == s.clk m.g.die m.g.core

/-- Note a slot issue where sampling is enabled (R396); `fetched` gives the die time at which a member that has waited at a warp point
fetched the word. Mark: DESIGN CHOICE (log 58). -/
def State.sampleIssue (s : State) (ig : IGroup) (vs : List (Nat × Verdict)) (fetched : Nat → Option Nat := fun _ => none) : State :=
  match s.launches.find ig.launch with
  | none => s
  | some l =>
    let key := ig.die * 256 + l.ctx
    match s.sampling.find key with
    | none => s
    | some sm =>
      let ran := executed vs
      let bad := vs.filterMap fun v => match v.2 with | .cause _ _ _ => some v.1 | _ => none
      let who (ks : List Nat) : List SampleM := (ks.filterMap s.self).filterMap fun m =>
        if m.g.ctx = l.ctx then some { thread := m.k, lane := m.t.lane, warp := m.w.num, vcore := m.g.vcore, group := m.g.num, dt := (fetched m.k).getD (s.now ig.die), level := levelOf s.word (s.leftCore m ig.pc) }
        else none
      let mk (ks : List Nat) (caused : Bool) : List SampleC :=
        if ks.isEmpty then [] else [{ members := who ks, pc := ig.pc, word := s.word, caused := caused, mark := s.nextId }]
      { s with sampling := s.sampling.put key { sm with issues := sm.issues ++ mk ran false ++ mk bad true } }

/-- RUN A SLOT: the body on every member of the issue group that the step has in hand, then `after` on the members
that took effect, once for all (an operation of the issue group, R84), then the end of the slot. -/
def runSlotBy (i : Instr) (body : Body) (probe : Probe) (after : IGroup → List Nat → State → State) (s : State) : Res :=
  match s.igroups.find s.focus with
  | none => finish s
  | some ig =>
    let r := runMembers i body probe s ig.members
    let did := r.2.filterMap fun v => match v.2 with | .done => some v.1 | .doneBlock _ => some v.1 | _ => none
    let s1 := ((executed r.2).foldl (State.chargeThread i.opcode) (after ig did r.1)).sampleIssue ig r.2
    finish (settle s.focus ig s1 r.2)

def runSlotThen (i : Instr) (body : Body) (after : IGroup → List Nat → State → State) (s : State) : Res :=
  runSlotBy i body (sureOf i body) after s

def runSlot (i : Instr) (body : Body) (s : State) : Res := runSlotThen i body (fun _ _ s => s) s

/-- An instruction that acts on the thread's own registers, predicates and flags only (R134). -/
def runAlu (i : Instr) (f : State → Self → Thread) (s : State) : Res :=
  runSlot i (fun m s => (.done, s.setThread m.k (f s m))) s

/-- A long-latency producer issues (R79): its destination becomes empty, and it is in flight under a new number. -/
def State.produce (s : State) (m : Self) (o : Opd) (n : Nat) (v : PVal) (mem : Option (Nat × Nat)) : Nat × State :=
  let rs := Thread.opdRegs o n
  let (id, s) := s.newId
  let pc := m.t.pc
  let p : Prod := { thread := m.k, core := coreKey m.g.die m.g.core, regs := rs, val := v, mem := mem, held := false, pc := pc, word := s.word }
  (id, { s with prods := s.prods.put id p, threads := s.threads.upd m.k fun t => t.markEmpty rs })

/-- A producer of words that are known at issue. -/
def runProducer (i : Instr) (d : Opd) (f : State → Self → List W32) (s : State) : Res :=
  runSlot i (fun m s => (.done, (s.produce m d (f s m).length (.val (f s m)) none).2)) s

end Sys2Proof.Machine
end

