-- ==== Sys2Proof/Machine/Fetch.lean ====
section
/-! DEFINITION. The issue table (R111 to R115), instruction fetch and the checks of a transfer of control (R66 to R71,
R82, R83), and the step that issues one slot of an issue group. -/

namespace Sys2Proof.Machine

open Host (Cell)

/-! ## The fetch path (R69) -/

/-- The eight bytes at a physical address through the fetch path of a core: the line that it holds, or the line at
home, which it then holds, after HBM bursts for the context (R401). Mark: DEDUCED (logs 12, 26). -/
def State.fetchLine (s : State) (die core ctx pa : Nat) : W64 × State :=
  let line := pa / 128
  let c := s.core die core
  match c.lines.find line with
  | some cells => (bytesW64 (cellsGet cells (pa % 128) 8), s)
  | none =>
    let cells := (cellsIn s.mem (memAddr die (line * 128)) 128).map fun x => (x.1 - memAddr die (line * 128), x.2)
    (bytesW64 (cellsGet cells (pa % 128) 8), (s.setCore die core { c with lines := c.lines.put line cells }).chargeHbm die pa (some ctx))

/-- What a fetch answers. -/
inductive Fetched where
  | word (w : W64)
  | cause (c : Cause) (info : W32)
  | locked
  deriving DecidableEq, Repr

/-- Where code is fetched: the die, core and address space. -/
structure Site where
  die   : Nat
  core  : Nat
  ctx   : Nat
  vdie  : Nat
  vcore : Nat
  deriving DecidableEq, Repr

def Self.site (m : Self) : Site := ⟨m.g.die, m.g.core, m.g.ctx, m.g.vdie, m.g.vcore⟩

/-- Fetch the word at a virtual address. -/
def State.fetch (s : State) (x : Site) (va : Nat) : Fetched × State :=
  match s.walkNow x.die x.ctx x.vdie va kindFetch (some x.vcore) with
  | (.hit _ pa, s) => let r := s.fetchLine x.die x.core x.ctx pa; (.word r.1, r.2)
  | (.cause c i, s) => (.cause c i, s)
  | (.locked, s) => (.locked, s)
  | (_, s) => (.locked, s)

/-! ## The checks of a target (R68) -/

/-- What the checks of a target come to. -/
inductive Entry where
  | ok (h : Header)
  | cause (c : Cause) (info : W32) (faddr : W64)
  | locked
  deriving DecidableEq, Repr

/-- The header address and the slot index of a PC (R67). -/
def hdrOf (pc : W64) : W64 := pc &&& ~~~15
def slotOf (pc : W64) : Nat := bitsOf pc.toNat 0 4

/-- The checks of R68, in order; `slot0` where the transfer takes only slot 0. -/
def State.checkTarget (s : State) (x : Site) (pc : W64) (slot0 : Bool) : Entry × State :=
  let low : W32 := pc.setWidth 32
  if bitsOf pc.toNat 57 7 ≠ 0 then (.cause .badtarget low 0, s)
  else match s.fetch x (hdrOf pc).toNat with
    | (.cause c i, s) => (.cause c i (hdrOf pc), s)
    | (.locked, s) => (.locked, s)
    | (.word w, s) => match decodeHeader w with
      | none => (.cause .badtarget low 0, s)
      | some h =>
        if h.eng = 3 ∨ h.rsv ≠ 0 then (.cause .illhdr low 0, s)
        else if h.count < slotOf pc ∨ (slot0 ∧ slotOf pc ≠ 0) then (.cause .badtarget low 0, s)
        else (.ok h, s)

/-! ## Header WAIT (R86) -/

/-- The thresholds of a header or WAITC, packed CP, MX, QU, GS from the lowest nibble. Mark: DEDUCED (log 65). -/
def packWait (cp mx qu gs : Nat) : W64 := BitVec.ofNat 64 (cp + 16 * mx + 256 * qu + 4096 * gs)
/-- Whether a warp's counters meet packed thresholds; 15 means no wait. -/
def countersOk (w : Warp) (thr : W64) : Bool :=
  let one (n c : Nat) : Bool := n == 15 || decide (c ≤ n)
  one (bitsOf thr.toNat 0 4) w.cp && one (bitsOf thr.toNat 4 4) w.mx && one (bitsOf thr.toNat 8 4) w.qu &&
    one (bitsOf thr.toNat 12 4) w.gs

/-! ## Forming an issue group (R111, R112, R114) -/

/-- A candidate of the issue table. -/
structure Cand where
  m    : Self
  lane : Nat
  age  : Nat
  deriving DecidableEq, Repr

/-- The physical lanes that issue groups of a core hold. -/
def State.busyLanes (s : State) (die core : Nat) : List Nat :=
  (s.igroups.vals.filter fun g => g.die == die && g.core == core).flatMap fun g =>
    g.members.filterMap fun k => (s.self k).map Self.physLane

/-- The threads of a core that are READY, eligible and on a lane that no issue group holds. -/
def State.candidates (s : State) (die core : Nat) : List Cand :=
  let busy := s.busyLanes die core
  let now := s.clk die core
  s.threads.keys.filterMap fun k => match s.self k with
    | none => none
    | some m =>
      if m.g.die == die && m.g.core == core && m.t.st == .ready && m.g.st == .resident
          && !busy.contains m.physLane then
        some ⟨m, m.physLane, now - m.t.readyAt⟩
      else none

/-- Whether `a` is served strictly before `b` (R114). Within a priority, threads whose last clause had the yield hint come after
the others (R70). Mark: DEDUCED (log 24). -/
def servedBefore (a b : Cand) : Bool :=
  let older := decide (b.age < a.age)
  if 2048 ≤ a.age ∨ 2048 ≤ b.age then older
  else decide (b.m.w.prio < a.m.w.prio) ||
    (a.m.w.prio == b.m.w.prio && ((!a.m.t.yielded && b.m.t.yielded) || (a.m.t.yielded == b.m.t.yielded && older)))

/-- A set of threads that the issue table may form into an issue group: of one launch and PC, on distinct lanes, one
of them first in the order of service, and taking every lane that it can (R111, R114). Threads that a branch or return has
brought to a slot that it may not take (R68) raise their cause apart from threads that resume at that slot. Mark: DEDUCED (logs 23, 24). -/
def validGroup (all ms : List Cand) : Bool :=
  match ms with
  | [] => false
  | m0 :: _ =>
    let bad (c : Cand) : Bool := slotOf c.m.t.pc != 0 && c.m.t.xfer == some .slot0
    let same (c : Cand) : Bool := c.m.t.pc == m0.m.t.pc && c.m.g.launch == m0.m.g.launch && bad c == bad m0
    decide (ms.length ≤ 64) && ms.all same &&
    (ms.map (·.lane)).Nodup &&
    (ms.any fun m => all.all fun c => !servedBefore c m) &&
    all.all fun c => !same c || ms.any fun m => m.lane == c.lane

/-- The members go on into the clause: they are ISSUING, and the group's slots follow (R112). -/
def State.enterClause (s : State) (x : Site) (launch : Nat) (pc : W64) (h : Header) (ks : List Nat) : State :=
  if ks.isEmpty then s
  else
    let s := ks.foldl (fun s k => s.updThread k fun t => { t with st := .issuing, xfer := none, yielded := false }) s
    let (id, s) := s.newId
    let ig : IGroup := { die := x.die, core := x.core, launch := launch, hdr := hdrOf pc, eng := h.eng, count := h.count, dict := h.dict, yld := h.yld, slot := slotOf pc, members := ks }
    { s with igroups := s.igroups.put id ig }

/-- The header WAIT of slot 0, warp by warp: the threads of a warp that does not meet it are BLOCKED (R86, R112). -/
def State.headerWait (s : State) (h : Header) (pc : W64) (ms : List Self) : List Nat × State :=
  let thr := packWait h.wcp h.wmx h.wqu h.wgs
  let ok (m : Self) : Bool := slotOf pc != 0 || countersOk m.w thr
  let late := ms.filter fun m => !ok m
  ((ms.filter ok).map (·.k), late.foldl (fun s m => s.block m.k ⟨waitCounters, thr, 16⟩) s)

/-- ISSUE_GROUP (R111, R112): the named threads reach their PC together. The checks of R68 are made, and raise the
same cause in each; the header's WAIT is applied at slot 0; the rest issue the clause. -/
def issueMembers (s : State) (ms : List Cand) : State :=
  let ms := sortBy (fun a b => decide (a.lane ≤ b.lane)) ms
  match ms with
  | [] => s
  | m0 :: _ =>
    let pc := m0.m.t.pc
    let slot0 := ms.any fun m => m.m.t.xfer == some .slot0
    match s.checkTarget m0.m.site pc slot0 with
    | (.cause c i fa, s) => s.takeCauses (ms.map fun m => ⟨m.m.k, c, i, fa, pc⟩)
    | (.locked, s) => ms.foldl (fun s m => s.block m.m.k ⟨waitLock, pc, (hdrOf pc).toNat⟩) s
    | (.ok h, s) =>
      let r := s.headerWait h pc (ms.map (·.m))
      r.2.enterClause m0.m.site m0.m.g.launch pc h r.1

/-- ISSUE_GROUP: a set that the issue table may form. Mark: DEDUCED (logs 3, 23, 24). -/
def execIssueGroup (die core : Nat) (members : List Nat) (s : State) : Res :=
  let all := s.candidates die core
  let ms := members.filterMap fun k => all.find? fun c => c.m.k == k
  if ms.length = members.length ∧ validGroup all ms then finish (issueMembers s ms) else finish s

/-! ## Issuing a slot -/

/-- The checks of the code itself (R71, R34, R74, R75): whether the slot may issue. The first payload register of a SPAWN has no
alignment (R120). -/
def codeOk (ig : IGroup) (l : Launch) (cls : Nat) (i : Instr) : Bool :=
  clauseAllows ig.eng i.opcode ig.last && !(ig.eng == 1 && cls == 1) &&
  (slotUses i l.width).all fun u => match u.o with
    | .g n => decide (n.val + u.n ≤ l.regs) && (u.n != 2 || n.val % 2 == 0 || (i.opcode == 0x66 && u.f == .b))
    | .h n => decide (n.val < l.handles)
    | _ => true

/-- The class of a core position (R31): 0 A, 1 B, 2 C; 3 disabled. -/
def State.classOf (s : State) (die core : Nat) : Nat :=
  match s.classes.find die with
  | some l => (l.getD core 3).toNat
  | none => 3

/-- The word of a loaded dictionary (R82). Mark: DESIGN CHOICE (log 76). -/
def State.dictWord (s : State) (die core ctx : Nat) (addr : W64) (idx : Nat) : W64 :=
  match (s.core die core).dicts.find? fun d => d.ctx == ctx && d.addr == addr with
  | some d => d.words.getD idx 0
  | none => 0

/-- The word of the slot, after dictionary expansion (R66, R83). -/
def State.slotWord (s : State) (x : Site) (l : Launch) (ig : IGroup) : Fetched × Option Byte × State :=
  if !ig.dict then
    let r := s.fetch x (ig.hdr.toNat + 8 + 8 * ig.slot)
    (r.1, none, r.2)
  else match s.fetch x (ig.hdr.toNat + 8 + 8 * (ig.slot / 4)) with
    | (.word w, s) =>
      let code : BitVec 16 := w.extractLsb' (16 * (ig.slot % 4)) 16
      let base := s.dictWord x.die x.core x.ctx l.dictAddr (bitsOf code.toNat 6 10)
      match expandCode code base with
      | some e => (.word e, none, s)
      | none => (.word 0, some (base.extractLsb' 56 8), s)
    | (f, s) => (f, none, s)

/-- What a turn of an issue group comes to: an instruction to execute in a state, or a next state. -/
inductive Turned where
  | exec (i : Instr) (s : State)
  | to (s : State)
  deriving DecidableEq, Repr

/-- Every member stops at the slot, whose word is `w` where it has one, with one cause of the code. -/
def State.slotFault (s : State) (id : Nat) (ig : IGroup) (w : W64) (c : Cause) (info : W32) (fa : W64) : State :=
  let vs := ig.members.map fun k => (k, Verdict.cause c info fa)
  settle id ig ({ s with word := w }.sampleIssue ig vs) vs

/-- Issue the next slot of an issue group: fetch and expand its word, check the code, and give the instruction to
`exec` with the group in focus. Mark: DEDUCED (log 25). -/
def slotTurn (s : State) (id : Nat) : Turned :=
  match s.igroups.find id with
  | none => .to s
  | some ig => match ig.members.filterMap s.self with
    | [] => .to { s with igroups := s.igroups.del id }
    | m :: _ =>
        let c := s.core ig.die ig.core
        let s := s.setCore ig.die ig.core { c with issuedNow := if c.issuedNow.contains ig.launch then c.issuedNow else ig.launch :: c.issuedNow }
        match s.slotWord m.site m.l ig with
        | (.locked, _, s) =>
          .to (settle id ig s (ig.members.map fun k => (k, .block ⟨waitLock, ig.pc, (hdrOf ig.pc).toNat⟩)))
        | (.cause c i, _, s) =>
          .to (s.slotFault id ig 0 c i (ig.hdr + BitVec.ofNat 64 (8 + 8 * if ig.dict then ig.slot / 4 else ig.slot)))
        | (.word w, bad, s) =>
          let ill (op : Nat) : W32 := BitVec.ofNat 32 (op + 256 * ig.slot)
          match bad with
          | some b => .to (s.slotFault id ig w .illop (ill b.toNat) 0)
          | none => match decodeWord w with
            | .error _ => .to (s.slotFault id ig w .illop (ill (bitsOf w.toNat 56 8)) 0)
            | .ok i =>
              if codeOk ig m.l (s.classOf ig.die ig.core) i then .exec i { s with focus := id, word := w }
              else .to (s.slotFault id ig w .illop (ill (bitsOf w.toNat 56 8)) 0)

end Sys2Proof.Machine
end

