-- ==== Sys2Proof/Machine/Warps.lean ====
section
/-! DEFINITION. Branches, the end of threads and warps, SPAWN and waystations, and warp points: opcodes 0x60 to 0x75
(R115 to R133), with the steps of YIELD, the warp-point watchdog, the waystations and warp retirement. -/

namespace Sys2Proof.Machine

/-- The issue group in hand. -/
def State.ig (s : State) : Option IGroup := s.igroups.find s.focus
/-- The fall-through header of the clause in hand (R67). -/
def State.nextHdr (s : State) : W64 := match s.ig with | some ig => ig.nextHdr | none => 0
/-- The PC after the slot in hand. -/
def State.nextPc (s : State) : W64 := match s.ig with | some ig => ig.nextPc | none => 0

/-! ## Branches and calls (R116) -/

/-- The target of a relative branch: P + 16 × imm24, P the clause's header. -/
def relTarget (m : Self) (imm : BitVec 24) : W64 := hdrOf m.t.pc + 16 * imm.signExtend 64

/-- BRA (R116). -/
def execBra (q : Ctl) (imm : BitVec 24) (s : State) : Res :=
  runSlot (.bra q imm) (fun m s => (.goto (relTarget m imm), s)) s

/-- BRX (R116). -/
def execBrx (q : Ctl) (a : Opd) (s : State) : Res :=
  runSlot (.brx q a) (fun m s => (.goto (s.src64 m a), s)) s

/-- CALL: the link is written at issue, even when the target later faults (R116). -/
def execCall (q : Ctl) (d : Opd) (imm : BitVec 24) (s : State) : Res :=
  runSlot (.call q d imm)
    (fun m s => (.goto (relTarget m imm), s.setThread m.k (m.t.write d (pairWords s.nextHdr)))) s

/-- CALLX (R116). -/
def execCallx (q : Ctl) (d a : Opd) (s : State) : Res :=
  runSlot (.callx q d a)
    (fun m s => (.goto (s.src64 m a), s.setThread m.k (m.t.write d (pairWords s.nextHdr)))) s

/-- RET (R116). -/
def execRet (q : Ctl) (a : Opd) (s : State) : Res :=
  runSlot (.ret q a) (fun m s => (.goto (s.src64 m a), s)) s

/-! ## Warp points (R124 to R130) -/

/-- The pending AWAIT of a thread, which its later scratchpad accesses, SPAWN and warp points wait for (R123, R125, R226). Mark: DEDUCED (log 19). -/
def State.pendingAwait (_ : State) (m : Self) : Option TagWait := m.g.tagWaits.find? fun w => w.thread == m.k && w.kind == 3

/-- A slot waits for the thread's pending AWAIT. -/
def awaitWait (w : TagWait) : Verdict := .block ⟨waitArrival, w.gen.setWidth 64, w.off⟩

/-- The live threads of a warp, by lane. -/
def State.rosterThreads (s : State) (wid : Nat) : List (Nat × Thread) :=
  match s.warps.find wid with
  | none => []
  | some w => (maskList w.roster).filterMap fun lane =>
    (s.threads.find (threadKey wid lane)).map fun t => (threadKey wid lane, t)

/-- Whether every roster member waits at one warp point (R124). -/
def State.pointFull (s : State) (wid : Nat) : Bool :=
  match s.rosterThreads wid with
  | [] => false
  | (k, t) :: ts => t.st == .point && ts.all fun e => e.2.st == .point && e.2.pc == t.pc && e.1 != k

/-- The members of a warp that wait at a point. -/
def State.arrivedAt (s : State) (wid : Nat) (pc : W64) : List (Nat × Thread) :=
  (s.rosterThreads wid).filter fun e => e.2.st == .point && e.2.pc == pc

/-- One member reaches a warp point: with its guard failing it arrives without a test of its sources (R124). -/
def reachPoint (i : Instr) (s : State) (k : Nat) : Verdict :=
  match s.self k with
  | none => .left
  | some m => match firstDeferred m.t.deferred with
    | some (c, info) => .raise c info
    | none => if !m.t.guardOk i.ctl then .arrive else (readyCheck i m).getD .arrive

/-- Whether a full warp point may issue: every scratchpad access that its members issued is performed (R125), and no other issue
group holds their lanes (R112). Mark: DEDUCED (log 19). -/
def State.pointClear (s : State) (wid : Nat) : Bool :=
  let ms := (s.rosterThreads wid).filterMap fun e => s.self e.1
  ms.all (fun m => (s.pendingAwait m).isNone) &&
  match ms with
  | [] => true
  | m :: _ => let busy := s.busyLanes m.g.die m.g.core; ms.all fun m => !busy.contains m.physLane

/-- A warp point leaves the warp's record. -/
def State.dropPoint (s : State) (wid : Nat) (pc : W64) : State :=
  match s.warps.find wid with
  | none => s
  | some w => if w.points.isEmpty then s else s.setWarp wid { w with points := w.points.filter fun r => r.ig.pc != pc }

/-- Members have arrived at a warp point that does not issue yet: it is recorded, and the watchdog starts again where one of them
returns after CONVSTALL (R132). Mark: DEDUCED (log 24). -/
def State.notePoint (s : State) (ig : IGroup) (word : W64) (ks : List Nat) (wid : Nat) : State :=
  let mine := ks.filter fun k => k / 64 == wid && match s.threads.find k with | some t => t.st == .point | none => false
  if mine.isEmpty then s
  else s.updWarp wid fun w =>
    let now (t : Tbl Nat) : Tbl Nat := mine.foldl (fun t k => t.put k (s.now ig.die)) t
    if w.points.any fun r => r.ig.pc == ig.pc then
      let f (r : PointRec) : PointRec :=
        if r.ig.pc == ig.pc then
          let r := { r with fetched := now r.fetched }
          if r.stalled.any fun k => mine.contains k then { r with count := 0, stalled := [] } else r
        else r
      { w with points := w.points.map f }
    else { w with points := w.points ++ [{ ig := ig, word := word, count := 0, stalled := [], fetched := now [] }] }

/-- The die time at which a member that waits at a warp point fetched its word (R396). -/
def State.fetchedAt (s : State) (wid : Nat) (pc : W64) (k : Nat) : Option Nat :=
  (s.warps.find wid).bind fun w => (w.points.find? fun r => r.ig.pc == pc).bind fun r => r.fetched.find k

/-- A warp point issues once for its warp: `effect` on the participants, and then every arrived member goes on (R124). Mark: DESIGN CHOICE (log 58). -/
def firePoint (i : Instr) (ig : IGroup) (effect : List Self → State → State) (s : State) (wid : Nat) : State :=
  let ks := (s.rosterThreads wid).map (·.1)
  let parts := (ks.filterMap s.self).filter fun m => m.t.guardOk i.ctl
  let s := effect parts s
  let s := parts.foldl (fun s m => State.chargeThread i.opcode s m.k) s
  let s := s.sampleIssue ig (parts.map fun m => (m.k, .done)) (s.fetchedAt wid ig.pc)
  let s := s.dropPoint wid ig.pc
  if ig.last then
    ks.foldl (fun s k => (s.updThread k fun t => { t with pc := ig.nextPc, xfer := some .slot0, yielded := ig.yld }).ready k) s
  else
    let s := ks.foldl (fun s k => s.updThread k fun t => { t with pc := ig.nextPc, st := .issuing }) s
    let (id, s) := s.newId
    { s with igroups := s.igroups.put id { ig with slot := ig.slot + 1, members := ks } }

/-- After arrivals: the point issues, or waits. -/
def tryPoint (i : Instr) (ig : IGroup) (effect : List Self → State → State) (word : W64) (s : State) (wid : Nat) : State :=
  if s.pointFull wid && !(s.arrivedAt wid ig.pc).isEmpty && s.pointClear wid then firePoint i ig effect s wid else s.notePoint ig word ig.members wid

/-- RUN A WARP POINT: the members arrive, and the point issues in every warp that it completes. -/
def runPoint (i : Instr) (effect : List Self → State → State) (s : State) : Res :=
  match s.ig with
  | none => finish s
  | some ig =>
    let vs := ig.members.map fun k => (k, reachPoint i s k)
    let s := settle s.focus ig (s.sampleIssue ig vs) vs
    let warps := ((ig.members.filter s.alive).map (· / 64)).eraseDups
    finish (warps.foldl (tryPoint i ig effect s.word) s)

/-- The participant on a lane. -/
def partAt (parts : List Self) (lane : Nat) : Option Self := parts.find? fun m => m.t.lane == lane

/-- Write each participant's result. -/
def writeParts (parts : List Self) (f : Self → Thread → Thread) (s : State) : State :=
  parts.foldl (fun s m => s.updThread m.k (f m)) s

/-- The lane that SHFL names (R126); none when it lies outside the warp. -/
def shflLane (mode : BitVec 2) (w i : Nat) (b : W32) : Option Nat :=
  let j : Int := match mode.toNat with
    | 0 => b.toNat
    | 1 => ((i + b.toNat) % w : Nat)
    | 2 => i + b.toInt
    | _ => (i ^^^ b.toNat : Nat)
  if 0 ≤ j ∧ j < w then some j.toNat else none

/-- What SHFL does when it issues (R126). -/
def shflEffect (d a b c : Opd) (mode : BitVec 2) (pv : PredNo) (parts : List Self) (s : State) : State :=
  writeParts parts (fun m t =>
    let src := (shflLane mode m.w.width m.t.lane (s.src m b)).bind (partAt parts)
    let fill := if c = .none then s.src m a else s.src m c
    let v := match src with | some p => s.src p a | none => fill
    (t.write d [v]).setPred pv src.isSome) s

/-- SHFL (R126). -/
def execShfl (q : Ctl) (d a b c : Opd) (mode : BitVec 2) (pv : PredNo) (s : State) : Res :=
  runPoint (.shfl q d a b c mode pv) (shflEffect d a b c mode pv) s

/-- A mask or number as the words of a destination, one or two (R127). -/
def maskWords (wide : Bool) (v : Nat) : List W32 :=
  if wide then pairWords (BitVec.ofNat 64 v) else [BitVec.ofNat 32 v]

/-- The result of VOTE over the participants' lanes and predicate values (R127). -/
def voteOf (mode : BitVec 3) (w : Nat) (vs : List (Nat × Bool)) : Nat :=
  let yes := vs.filter (·.2)
  match mode.toNat with
  | 0 => if yes.length = vs.length then 1 else 0
  | 1 => if yes.isEmpty then 0 else 1
  | 2 => if yes.isEmpty ∨ yes.length = vs.length then 1 else 0
  | 3 => yes.foldl (fun m e => m + 2 ^ e.1) 0
  | 4 => yes.length
  | _ => match yes with | [] => w | e :: es => es.foldl (fun m x => min m x.1) e.1

/-- What VOTE does when it issues (R127). -/
def voteEffect (d : Opd) (ps : PredNo) (ns : Bool) (mode : BitVec 3) (parts : List Self) (s : State) : State :=
  let vs := parts.map fun m => (m.t.lane, m.t.pred ps != ns)
  writeParts parts (fun m t => t.write d (maskWords (m.w.width == 64 && mode == 3) (voteOf mode m.w.width vs))) s

/-- VOTE (R127). -/
def execVote (q : Ctl) (d : Opd) (ps : PredNo) (ns : Bool) (mode : BitVec 3) (s : State) : Res :=
  runPoint (.vote q d ps ns mode) (voteEffect d ps ns mode) s

/-- One step of a reduction (R128): the result and its flags. -/
def redStep (fn : BitVec 4) (x y : W32) : W32 × Flags :=
  match fn.toNat with
  | 0 => (x + y, 0)
  | 1 => (if x.toInt ≤ y.toInt then x else y, 0)
  | 2 => (if x.toInt ≤ y.toInt then y else x, 0)
  | 3 => (if x.toNat ≤ y.toNat then x else y, 0)
  | 4 => (if x.toNat ≤ y.toNat then y else x, 0)
  | 5 => (x &&& y, 0)
  | 6 => (x ||| y, 0)
  | 7 => (x ^^^ y, 0)
  | 8 => sumF32 .rne [fval f32 x.toNat, fval f32 y.toNat]
  | 9 => let r := minMaxNum f32 false x.toNat y.toNat; (BitVec.ofNat 32 r.1, r.2)
  | _ => let r := minMaxNum f32 true x.toNat y.toNat; (BitVec.ofNat 32 r.1, r.2)

/-- The identity that a lane outside the participants supplies (R128); none where it is excluded. -/
def redIdentity (fn : BitVec 4) : Option W32 :=
  match fn.toNat with
  | 0 => some 0 | 1 => some 0x7FFFFFFF | 2 => some 0x80000000 | 3 => some 0xFFFFFFFF | 4 => some 0
  | 5 => some 0xFFFFFFFF | 6 => some 0 | 7 => some 0 | 8 => some 0x80000000 | _ => none

/-- Combine two lane slots, either of which may be excluded. -/
def redOpt (fn : BitVec 4) (x y : Option W32) : Option W32 × Flags :=
  match x, y with
  | some a, some b => let r := redStep fn a b; (some r.1, r.2)
  | some a, none => (some a, 0)
  | none, b => (b, 0)

/-- One level of the pairwise tree of R62: neighbours combine. -/
def treeLevel (fn : BitVec 4) : List (Option W32) → List (Option W32) × Flags
  | x :: y :: t => let r := redOpt fn x y; let u := treeLevel fn t; (r.1 :: u.1, r.2 ||| u.2)
  | l => (l, 0)
/-- The tree of R62 over a power of two of lane slots. -/
def treeFold (fn : BitVec 4) : Nat → List (Option W32) → Flags → Option W32 × Flags
  | 0, l, f => (l.head?.join, f)
  | n + 1, l, f => let r := treeLevel fn l; treeFold fn n r.1 (f ||| r.2)

/-- The value of each lane slot (R128). -/
def laneSlots (fn : BitVec 4) (w : Nat) (vs : List (Nat × W32)) : List (Option W32) :=
  (List.range w).map fun i => match vs.find? fun e => e.1 == i with
    | some e => some e.2
    | none => redIdentity fn

/-- What a fold of floating-point lane slots takes from each: a NaN as the canonical NaN, with NV where it is signalling, so
that a value that meets no step leaves as R39 says. -/
def quietSlots (fn : BitVec 4) (l : List (Option W32)) : List (Option W32) × Flags :=
  let float := fn == 8 || fn == 9 || fn == 10
  let quiet (x : W32) : W32 := if float && (fval f32 x.toNat).isNan then 0x7FC00000 else x
  let nv := float && l.any fun x => match x with | some a => fval f32 a.toNat == .nan true | none => false
  (l.map (Option.map quiet), if nv then flagNV else 0)

/-- WRED (R128, R62): the pairwise tree; every order gives the same integers. A fold of no participant is the
canonical NaN. -/
def wredOf (fn : BitVec 4) (w : Nat) (vs : List (Nat × W32)) : W32 × Flags :=
  let l := quietSlots fn (laneSlots fn w vs)
  let r := treeFold fn 6 l.1 l.2
  (r.1.getD 0x7FC00000, r.2)

/-- WSCAN (R128, R63): the running folds in lane order, with the flags of every step. Mark: DESIGN CHOICE (log 75). -/
def scanGo (fn : BitVec 4) : List (Option W32) → Option W32 → Bool → List (Option W32) × Flags
  | [], _, _ => ([], 0)
  | x :: t, acc, first =>
    let r := if first then (x, 0) else redOpt fn acc x
    let u := scanGo fn t r.1 false
    (r.1 :: u.1, r.2 ||| u.2)
/-- WSCAN of every lane slot. The flags are those of every step, also of the last lane's, whose sum no lane of the exclusive form
receives. Mark: DESIGN CHOICE (log 75). -/
def wscanOf (fn : BitVec 4) (excl : Bool) (w : Nat) (vs : List (Nat × W32)) : List W32 × Flags :=
  let l := quietSlots fn (laneSlots fn w vs)
  let r := scanGo fn l.1 none true
  let incl := r.1.map fun x => x.getD 0x7FC00000
  ((if excl then (redIdentity fn).getD 0x7FC00000 :: incl else incl), l.2 ||| r.2)

/-- What WRED does when it issues (R128). -/
def wredEffect (d a : Opd) (fn : BitVec 4) (parts : List Self) (s : State) : State :=
  let vs := parts.map fun m => (m.t.lane, s.src m a)
  writeParts parts (fun m t => t.writeF d (wredOf fn m.w.width vs)) s

/-- WRED (R128). -/
def execWred (q : Ctl) (d a : Opd) (fn : BitVec 4) (s : State) : Res :=
  runPoint (.wred q d a fn) (wredEffect d a fn) s

/-- What WSCAN does when it issues (R128). -/
def wscanEffect (d a : Opd) (fn : BitVec 4) (excl : Bool) (parts : List Self) (s : State) : State :=
  let vs := parts.map fun m => (m.t.lane, s.src m a)
  writeParts parts (fun m t =>
    let r := wscanOf fn excl m.w.width vs
    t.writeF d (r.1.getD m.t.lane 0, r.2)) s

/-- WSCAN (R128). -/
def execWscan (q : Ctl) (d a : Opd) (fn : BitVec 4) (excl : Bool) (s : State) : Res :=
  runPoint (.wscan q d a fn excl) (wscanEffect d a fn excl) s

/-- MATCH (R129). -/
def matchOf (mode : BitVec 2) (lane : Nat) (peers : List Nat) : Nat :=
  match mode.toNat with
  | 0 => peers.foldl (fun m j => m + 2 ^ j) 0
  | 1 => peers.foldl min lane
  | _ => (peers.filter (· < lane)).length
/-- What MATCH does when it issues. -/
def wmatchEffect (d a : Opd) (wide : Bool) (mode : BitVec 2) (parts : List Self) (s : State) : State :=
  writeParts parts (fun m t =>
    let peers := (parts.filter fun p => s.srcWide p wide a == s.srcWide m wide a).map (·.t.lane)
    t.write d (maskWords (m.w.width == 64 && mode == 0) (matchOf mode m.t.lane peers))) s
/-- MATCH (R129). -/
def execWmatch (q : Ctl) (d a : Opd) (wide : Bool) (mode : BitVec 2) (s : State) : Res :=
  runPoint (.wmatch q d a wide mode) (wmatchEffect d a wide mode) s

/-- WCONV (R130). -/
def execWconv (q : Ctl) (s : State) : Res := runPoint (.wconv q) (fun _ s => s) s

/-- WLIVE (R131): the roster as it stands. -/
def execWlive (q : Ctl) (d : Opd) (s : State) : Res :=
  runAlu (.wlive q d) (fun _ m => m.t.write d (maskWords (m.w.width == 64) m.w.roster.toNat)) s

/-- What a warp point does to its participants when it issues. -/
def pointEffect : Instr → List Self → State → State
  | .shfl _ d a b c mode pv => shflEffect d a b c mode pv
  | .vote _ d ps ns mode => voteEffect d ps ns mode
  | .wred _ d a fn => wredEffect d a fn
  | .wscan _ d a fn excl => wscanEffect d a fn excl
  | .wmatch _ d a wide mode => wmatchEffect d a wide mode
  | _ => fun _ s => s

/-! ## The roster (R107, R117, R133) -/

/-- The waiting warp points of a warp are tested again, after a roster edit and at each clk: one that every remaining member has
reached issues (R124, R133). -/
def State.retestPoint (s : State) (wid : Nat) : State :=
  match s.warps.find wid with
  | none => s
  | some w => w.points.foldl (fun s r =>
      if !(s.arrivedAt wid r.ig.pc).isEmpty && s.pointFull wid && s.pointClear wid then
        match decodeWord r.word with
        | .ok i => { firePoint i r.ig (pointEffect i) { s with word := r.word } wid with word := s.word }
        | .error _ => s
      else s) s

/-- A warp point that nobody waits at any more is forgotten. -/
def State.leavePoint (s : State) (wid : Nat) : State :=
  match s.warps.find wid with
  | none => s
  | some w =>
    if w.points.isEmpty then s
    else s.setWarp wid { w with points := w.points.filter fun r => !(s.arrivedAt wid r.ig.pc).isEmpty || !r.stalled.isEmpty }

/-- A thread ends (R117). -/
def State.endThread (s : State) (k : Nat) : State :=
  let s := s.updThread k fun t => { t with st := .exited, handler := none, latch := none }
  let s := s.updWarp (k / 64) fun w => { w with roster := w.roster &&& ~~~(1#64 <<< (k % 64)) }
  (s.leavePoint (k / 64)).retestPoint (k / 64)

/-- EXIT (R117). -/
def execExit (q : Ctl) (s : State) : Res :=
  runSlot (.exit q) (fun m s => (.left, s.endThread m.k)) s

/-- YIELD (R119). -/
def execYield (q : Ctl) (dly : Byte) (s : State) : Res :=
  runSlot (.yield q dly) (fun m s =>
    let now := s.clk m.g.die m.g.core
    let pc := s.nextHdr
    let next : TState := if dly = 0 then .ready else .delayed (now + 16 * dly.toNat)
    let hint := match s.ig with | some ig => ig.yld | none => false
    (.left, s.updThread m.k fun t => { t with pc := pc, xfer := some .slot0, st := next, readyAt := now, yielded := hint })) s

/-- YIELD_DELAY_END (R119): the thread is eligible, and its age starts. -/
def execYieldDelayEnd (thread : Nat) (s : State) : Res :=
  match s.threads.find thread with
  | none => finish s
  | some t => match t.st with
    | .delayed u => if u ≤ s.clkOf thread then finish (s.ready thread) else finish s
    | _ => finish s

/-- SPURIOUS_WAKEUP (R110): a BLOCKED thread becomes READY at the same PC, and issues its slot again. A fence that is
placed after its instruction has no slot of its own to issue again. -/
def execSpuriousWakeup (thread : Nat) (s : State) : Res :=
  finish (s.wakeIf (fun w => !(w.kind == waitFence && w.place == 1)) thread)

/-! ## Waystations (R120 to R122) -/

/-- The waystation that holds a key. -/
def State.stationOf (s : State) (die core gid : Nat) (entry : W64) : Option (Nat × Station) :=
  (s.core die core).stations.find? fun e => e.2.group == gid && e.2.entry == entry

/-- A continuation enters a waystation (R121); none when it must wait. -/
def State.enterStation (s : State) (die core gid width : Nat) (c : Cont) : Option State :=
  let co := s.core die core
  match s.stationOf die core gid c.entry with
  | some (i, st) =>
    if st.conts.length < width then
      some (s.setCore die core { co with stations := co.stations.put i { st with conts := st.conts ++ [c] } })
    else none
  | none =>
    match (List.range 16).find? fun i => (co.stations.find i).isNone with
    | none => none
    | some i =>
      let st : Station := { group := gid, entry := c.entry, conts := [c], since := co.clk, due := false, held := false }
      some (s.setCore die core { co with stations := co.stations.put i st })

/-- SPAWN (R120, R121): it waits for the scratchpad accesses that its thread has issued (R123). Mark: DEDUCED (log 19). -/
def execSpawn (q : Ctl) (a b c : Opd) (npay : BitVec 4) (s : State) : Res :=
  runSlot (.spawn q a b c npay) (fun m s =>
    let cont : Cont := { entry := s.src64 m a, work := s.src64 m c, pay := s.srcRun m b npay.toNat, index := none, src := some (m.k, m.t.pc, s.word, s.nextId) }
    match s.pendingAwait m with
    | some w => (awaitWait w, s)
    | none => match s.enterStation m.g.die m.g.core m.gid m.w.width cont with
      | some s => (.done, s)
      | none => (.block ⟨waitStation, cont.entry, 0⟩, s)) s

/-- WAYSTATION_TIMER (R122): the timer runs out, and a partial warp is due. -/
def execWaystationTimer (die core slot : Nat) (s : State) : Res :=
  let co := s.core die core
  match co.stations.find slot with
  | none => finish s
  | some st => match s.groups.find st.group with
    | none => finish s
    | some g => match s.launches.find g.launch with
      | none => finish s
      | some l =>
        if st.since + l.stationTimer ≤ co.clk then
          finish (s.setCore die core { co with stations := co.stations.put slot { st with due := true } })
        else finish s

/-- Whether a group holds the resources of R298 on its core: a stopped group does while its state is held in place. -/
def Group.holds (g : Group) : Bool :=
  g.st == .resident || g.st == .parking || (g.st == .stopped && g.slot.isNone)

/-- Lanes of a core by class (R105). -/
def lanesOf (cls : Nat) : Nat := if cls = 2 then 32 else 64

/-- The register entries in use on a physical lane of a core: those of its resident warps and of slots reserved for
initial warps (R106, R298). -/
def State.laneUse (s : State) (die core lane : Nat) : Nat :=
  let one (l : Launch) (set : Nat) : Nat :=
    if set * l.width ≤ lane ∧ lane < set * l.width + l.width then l.regs else 0
  let byWarp := s.warps.vals.foldl (fun n w => match s.groups.find w.group with
    | none => n
    | some g =>
      if g.die == die && g.core == core && g.holds then
        match s.launches.find g.launch with
        | some l => n + one l w.laneSet
        | none => n
      else n) 0
  s.groups.vals.foldl (fun n g =>
    if g.die == die && g.core == core && g.holds then
      match s.launches.find g.launch with
      | some l => g.reserved.vals.foldl (fun n x => n + one l x) n
      | none => n
    else n) byWarp

/-- Whether a lane set has one more free thread slot on every lane (R106). -/
def State.setFree (s : State) (die core : Nat) (l : Launch) (set : Nat) : Bool :=
  decide (set * l.width + l.width ≤ lanesOf (s.classOf die core)) &&
  (List.range l.width).all fun i => decide (s.laneUse die core (set * l.width + i) + l.regs ≤ 2048)

/-- The lowest lane set with a free slot on every lane (R122). -/
def State.freeSet (s : State) (die core : Nat) (l : Launch) : Option Nat :=
  (List.range 4).find? fun set => s.setFree die core l set

/-- The lowest warp number that no warp of the group holds and that waits for no initial warp (R106, R296). Mark: DEDUCED (log 22). -/
def State.freeWarpNum (s : State) (gid : Nat) (g : Group) : Option Nat :=
  let held := (s.groupWarps gid).map (·.2.num)
  (List.range 512).find? fun n => !held.contains n && !g.reserved.keys.contains n

/-- A new thread (R108). Mark: DESIGN CHOICE (log 5). -/
def newThread (wid lane : Nat) (c : Cont) (clk : Nat) : Thread :=
  let t : Thread :=
    { warp := wid, lane := lane, regs := [], empty := [], preds := 0, fpstat := 0, wct := 0, wctAway := false, workid := c.work, qstat := 0, pc := c.entry, xfer := some .slot0, st := .ready, readyAt := clk, yielded := false, waitFrom := clk, handler := none, epc := 0, einfo := 0, rosterPend := false, latch := none, deferred := [], late := none, walkFault := none, mayFired := false, waitDone := false, stopMap := none, allLive := false, grant := 0 }
  t.setRegs 0 c.pay

/-- The identifiers that a launch covers, in ascending order (R317): thread `j` of the group whose key is given. -/
def fieldWidths (l : Launch) : List Nat :=
  let w4 := (l.word 4).toNat
  [bitsOf w4 0 6, bitsOf w4 6 6, bitsOf w4 12 6, bitsOf w4 18 6, bitsOf w4 24 6, bitsOf (l.word 5).toNat 0 6]
def fieldExtents (l : Launch) : List Nat := (List.range 6).map fun i => (l.word (6 + i)).toNat
def groupLevel (l : Launch) : Nat := bitsOf (l.word 5).toNat 8 3
def dieLevel (l : Launch) : Nat := bitsOf (l.word 5).toNat 12 3
/-- The product of extents from level `a` up to, not including, level `b`. -/
def extentProduct (l : Launch) (a b : Nat) : Nat :=
  (((fieldExtents l).take b).drop a).foldl (· * ·) 1
/-- Threads per group, groups and die keys (R296, R317). -/
def groupSize (l : Launch) : Nat := extentProduct l 0 (groupLevel l)
def groupCount (l : Launch) : Nat := extentProduct l (groupLevel l) 6
def dieKeyCount (l : Launch) : Nat := extentProduct l (dieLevel l) 6
/-- The identifier bits of the `j`-th combination of the fields from level `a` up to level `b`, F_a fastest. -/
def fieldsAt (l : Launch) (a b j : Nat) : Nat :=
  let rec go : List (Nat × Nat) → Nat → Nat → Nat → Nat
    | [], _, _, _ => 0
    | (w, e) :: fs, i, sh, j =>
      if i < a then go fs (i + 1) (sh + w) j
      else if b ≤ i then 0
      else (j % e) * 2 ^ sh + go fs (i + 1) (sh + w) (j / e)
  go ((fieldWidths l).zip (fieldExtents l)) 0 0 j

/-- The die scheduler feeds a group's next threads into its waystation, in work-identifier order (R121, R296). Mark: DEDUCED (log 22). -/
def State.feedGroup (s : State) (gid : Nat) : Nat → State
  | 0 => s
  | fuel + 1 =>
    match s.groups.find gid with
    | none => s
    | some g => match s.launches.find g.launch with
      | none => s
      | some l =>
        if g.st == .resident && decide (g.fed < groupSize l) then
          let c : Cont := { entry := l.pair 0, work := g.key + BitVec.ofNat 64 (fieldsAt l 0 (groupLevel l) g.fed), pay := [], index := some g.fed, src := none }
          match s.enterStation g.die g.core gid l.width c with
          | none => s
          | some s => (s.updGroup gid fun g => { g with fed := g.fed + 1 }).feedGroup gid fuel
        else s

/-- Feed every group of a core. -/
def State.feedCore (s : State) (die core : Nat) : State :=
  s.groups.foldl (fun s e => if e.2.die == die && e.2.core == core then s.feedGroup e.1 64 else s) s

/-- The warp number and the lane set that a waystation's warp takes: an initial warp those kept for it (R296, R298), another the
lowest that are free (R106, R122). Mark: DEDUCED (log 22). -/
def State.launchPlace (s : State) (die core : Nat) (gid : Nat) (g : Group) (l : Launch) (st : Station) : Option (Nat × Nat) :=
  match st.conts.head?.bind (·.index) with
  | some i => (g.reserved.find (i / l.width)).map fun set => (i / l.width, set)
  | none => match s.freeWarpNum gid g, s.freeSet die core l with
    | some num, some set => some (num, set)
    | _, _ => none

/-- What the code fetch of a waystation launch comes to (R188). -/
inductive LaunchFetch where
  | ok
  | wait
  /-- A page cause, charged to the warp of the SPAWN whose continuation is the oldest: its thread, its slot, the cause. -/
  | fault (k : Nat) (pc : W64) (c : Cause) (info : W32) (faddr : W64)
  deriving DecidableEq, Repr

/-- The code fetch at the entry of continuations that a SPAWN made. The kernel's own threads, which no warp issued, meet a page
cause in the new warp, as every launch meets the other causes of R68; so does a launch whose SPAWN's warp has retired, of which R188
says nothing. Mark: DEDUCED (log 22), DESIGN CHOICE (log 83). -/
def State.launchFetch (s : State) (g : Group) (st : Station) : LaunchFetch × State :=
  match st.conts.head?.bind (·.src) with
  | none => (.ok, s)
  | some (k, pc, _, _) =>
    if (s.warps.find (k / 64)).isNone then (.ok, s)
    else match s.checkTarget ⟨g.die, g.core, g.ctx, g.vdie, g.vcore⟩ st.entry true with
      | (.cause c i fa, s) => (if c == .pagefault || c == .pageprot || c == .pagemode then .fault k pc c i fa else .ok, s)
      | (.locked, s) => (.wait, s)
      | (.ok _, s) => (.ok, s)

/-- WAYSTATION_LAUNCH (R122): a full or due waystation launches its warp; one whose code fetch meets a page cause is held, to be
launched after a resume (R188). -/
def execWaystationLaunch (die core slot : Nat) (s : State) : Res :=
  let co := s.core die core
  match co.stations.find slot with
  | none => finish s
  | some st => match s.groups.find st.group with
    | none => finish s
    | some g => match s.launches.find g.launch with
      | none => finish s
      | some l =>
        if g.st == .resident && !st.held && (st.due || st.conts.length == l.width) then
          match s.launchPlace die core st.group g l st with
          | none => finish s
          | some (num, set) => match s.launchFetch g st with
            | (.wait, s) => finish s
            | (.fault k pc c info fa, s) =>
              let co := s.core die core
              let s := s.setCore die core { co with stations := co.stations.put slot { st with due := true, held := true } }
              finish (s.chargeWarp (k / 64) (k % 64) c info fa pc)
            | (.ok, s) =>
              let (wid, s) := s.newId
              let m := st.conts.length
              let w : Warp := { group := st.group, num := num, laneSet := set, width := l.width, prio := l.prio, roster := BitVec.ofNat 64 (2 ^ m - 1), cp := 0, mx := 0, qu := 0, gs := 0, tokwait := 0, wcause := 0, outst := [], points := [] }
              let s := s.setWarp wid w
              let s := (List.range m).foldl (fun s i => match st.conts[i]? with
                | some c => s.setThread (threadKey wid i) (newThread wid i c co.clk)
                | none => s) s
              let s := s.updGroup st.group fun g =>
                { g with reserved := if (st.conts.head?.bind (·.index)).isSome then g.reserved.del num else g.reserved }
              let co := s.core die core
              let s := s.setCore die core { co with stations := co.stations.del slot }
              let s := s.wakeAll fun k w => w.kind == waitStation && s.onCore die core k
              finish (s.feedCore die core)
        else finish s

/-- WARP_RETIRE (R118): a warp with an empty roster and zero counters frees its thread slots and its number. -/
def State.warpDone (s : State) (wid : Nat) : Bool :=
  match s.warps.find wid with
  | none => false
  | some w => w.roster == 0 && w.cp == 0 && w.mx == 0 && w.qu == 0 && w.gs == 0

/-- EINFO of CONVSTALL (R132): the lowest missing lane and the number missing. -/
def convstallInfo (missing : List Nat) : W32 :=
  BitVec.ofNat 32 (missing.foldl min 127 + 256 * missing.length)

/-- One clk of the watchdog of a warp point (R132). It counts while a member waits there and none that took CONVSTALL is still to
come back: one in its handler, or at the point's slot. -/
def State.countPoint (s : State) (wid : Nat) (r : PointRec) : Option PointRec :=
  let here := !(s.arrivedAt wid r.ig.pc).isEmpty
  let out := r.stalled.filter fun k => match s.threads.find k with
    | some t => t.st != .exited && (t.handler.isSome || t.pc == r.ig.pc)
    | none => false
  if !out.isEmpty then some { r with stalled := out }
  else if r.stalled.isEmpty then some (if here then { r with count := r.count + 1 } else r)
  else if here then some { r with count := 1, stalled := [] }
  else none

/-- One clk of the warp points of a warp on a core: their watchdogs count, and a point that may now issue does. -/
def State.tickPoint (s : State) (die core wid : Nat) : State :=
  match s.warps.find wid with
  | none => s
  | some w => match s.groups.find w.group with
    | none => s
    | some g =>
      if w.points.isEmpty || !(g.die == die && g.core == core && g.st == .resident) then s
      else (s.setWarp wid { w with points := w.points.filterMap (s.countPoint wid) }).retestPoint wid

/-- The warps on a core whose watchdog has run out. -/
def State.stalledWarps (s : State) (die core : Nat) : List Nat :=
  s.warps.filterMap fun e => match s.groups.find e.2.group with
    | some g =>
      if g.die == die && g.core == core && g.st == .resident && e.2.points.any fun r => decide (2 ^ 20 ≤ r.count) && r.stalled.isEmpty then some e.1
      else none
    | none => none

/-- CONVSTALL (R132): the watchdog of a warp point has counted 2^20 clk, and every arrived member takes the cause; the count
stops. It waits while the read of the trap-handler table does (R183). A point that every member has reached, and that is held by a
pending AWAIT or busy lanes, raises none: no member is missing. Mark: DESIGN CHOICE (log 82). -/
def execConvstall (warp : Nat) (s : State) : Res :=
  match s.warps.find warp with
  | none => finish s
  | some w => match w.points.find? fun r => decide (2 ^ 20 ≤ r.count) && r.stalled.isEmpty with
    | none => finish s
    | some r =>
      let arrived := s.arrivedAt warp r.ig.pc
      let missing := ((s.rosterThreads warp).filter fun e => !(e.2.st == .point && e.2.pc == r.ig.pc)).map fun e => e.2.lane
      let closed := match arrived.head?.bind fun e => s.self e.1 with
        | some m => match (s.handlerOf m (arrived.map (·.1)) .convstall).1 with | .wait _ => true | _ => false
        | none => true
      if closed || missing.isEmpty then finish s
      else
        let f (x : PointRec) : PointRec := if x.ig.pc == r.ig.pc then { x with stalled := arrived.map (·.1) } else x
        finish ((s.updWarp warp fun w => { w with points := w.points.map f }).takeCauses
          (arrived.map fun e => ⟨e.1, .convstall, convstallInfo missing, 0, r.ig.pc⟩))

end Sys2Proof.Machine
end

