-- ==== Sys2Proof/Machine/Home.lean ====
section
/-! DEFINITION. The steps of home and the near caches (R191 to R206), and the arrival of long-latency values (R79). -/

namespace Sys2Proof.Machine

open Host (Cell)

/-! ## The steps of home and the near caches -/

/-- Whether home may go on with a request: in order, and with every holder's answer (R202, R203). Sends the recalls
where they have not been sent. -/
def State.homeReady (s : State) (id : Nat) (r : HReq) : Bool × State :=
  if !s.inOrder id r.die r.core r.pa true || r.after.any fun w => (s.pwrites.find w).isSome then (false, s)
  else match r.recalls with
    | some [] => (true, s)
    | some _ => (false, s)
    | none =>
      match s.holdersOf r.die r.pa with
      | [] => (true, s)
      | hs => (false, { s with hreqs := s.hreqs.put id { r with recalls := some hs } })

/-- H_LOAD_MISS (R195): home recalls partials if the line has any, reads the sector, and grants a lease, capped at the
earliest write completion time pending on the sector. The loads that share the request are performed with it (R200). -/
def execHLoadMiss (req : Nat) (s : State) : Res :=
  match s.hreqs.find req with
  | none => finish s
  | some r => match r.kind with
    | .load lease fill prod sext _ =>
      match s.homeReady req r with
      | (false, s) => finish s
      | (true, s) =>
        let s := { s with hreqs := s.hreqs.del req }
        let bs := s.memRead r.die r.pa r.size
        let s := if prod = 0 then s else s.complete prod (loadWords sext bs)
        let s := r.also.foldl (fun s x => s.complete x.prod (loadWords x.sext (s.memRead r.die x.pa x.size))) s
        let now := s.now r.die
        let s :=
          if lease = 0 ∨ !fill then s
          else
            let e := match s.earliestW r.die r.pa with
              | some w => min (now + lease) w
              | none => now + lease
            let s := { s with leases := s.leases.put (sectorKey r.die r.pa) (max e (s.leases.getD (sectorKey r.die r.pa) 0)) }
            if (s.partials.find (partKey r.die r.core r.pa)).isSome then s
            else
              let s := s.makeRoom r.die r.core r.pa
              let old := match s.nc.find (ncKey r.die r.core r.pa) with | some sec => sec.hint | none => 0
              let sec : Sector := { ctx := r.ctx, bytes := (s.memRead r.die (r.pa / 64 * 64) 64).zipIdx.map fun b => (b.2, b.1), dirty := [], expiry := some e, hint := State.hintOf old r.hint }
              { s with nc := s.nc.put (ncKey r.die r.core r.pa) sec }
        finish (s.wakeMemory.chargeHbm r.die r.pa (some r.ctx))
    | _ => finish s

/-- H_WRITE_ACCEPT (R196): home accepts a write; an H write takes its W, and a write in an S or P page that reached
home is performed when home accepts it (R192, R197). -/
def execHWriteAccept (req : Nat) (s : State) : Res :=
  match s.hreqs.find req with
  | none => finish s
  | some r =>
    if !State.isWrite r.kind then finish s
    else match s.homeReady req r with
      | (false, s) => finish s
      | (true, s) =>
        let s := { s with hreqs := s.hreqs.del req }
        let s := if r.mode = modeH then s.acceptH r.die r.pa r.size r.kind r.op r.thread.toList
          else s.perform r.die r.pa r.size r.kind
        finish (s.wakeMemory.chargeHbm r.die r.pa (some r.ctx))

/-- H_WRITE_PERFORM (R196): die time has reached the W of a pending write. The writes of one sector are performed in
the order of their W. -/
def execHWritePerform (wr : Nat) (s : State) : Res :=
  match s.pwrites.find wr with
  | none => finish s
  | some w =>
    if w.w ≤ s.now w.die ∧ s.earliestW w.die w.pa = some w.w then
      finish (({ s with pwrites := s.pwrites.del wr }.perform w.die w.pa w.size w.kind).wakeMemory)
    else finish s

/-- RECALL_ANSWER (R203): a holder answers a recall, with the partial that it still holds. A push that it sent before
has arrived by then. Home goes on with the accesses whose last answer this is. Mark: DESIGN CHOICE (log 1). -/
def execRecallAnswer (die line core : Nat) (s : State) : Res :=
  let pa := line * 128
  if s.pushes.vals.any (fun p => p.die == die && p.core == core && p.line == line) then finish s
  else if !(s.hreqs.vals.any fun r => r.die == die && r.pa / 128 == line && match r.recalls with | some l => l.contains core | none => false) then
    finish s
  else
    let s := match s.partials.find (partKey die core pa) with
      | some p => { s with partials := s.partials.del (partKey die core pa) }.combineAt die core line p
      | none => s
    let s := s.noHolder die core line
    let mine := s.hreqs.filter fun e => e.2.die == die && e.2.pa / 128 == line && match e.2.recalls with | some l => l.contains core | none => false
    let s := mine.foldl (fun s e =>
      { s with hreqs := s.hreqs.upd e.1 fun r => { r with recalls := r.recalls.map fun l => l.filter (· != core) } }) s
    let go := mine.filter fun e => match e.2.recalls with | some l => (l.filter (· != core)).isEmpty | none => false
    let turns := go.map fun e => Turn.act (if State.isWrite e.2.kind then .hWriteAccept e.1 else .hLoadMiss e.1)
    finish ({ s with agenda := turns ++ s.agenda }.wakeMemory)

/-- PARTIAL_COMBINE (R203): a pushed partial arrives, and home combines it. -/
def execPartialCombine (push : Nat) (s : State) : Res :=
  match s.pushes.find push with
  | none => finish s
  | some p =>
    if !s.inOrder push p.die p.core (p.line * 128) false then finish s
    else
      let s := { s with pushes := s.pushes.del push }.combineAt p.die p.core p.line p.part
      let s := if (s.partials.find (partKey p.die p.core (p.line * 128))).isSome then s else s.noHolder p.die p.core p.line
      finish s.wakeMemory

/-- PARTIAL_PUSH_DEADLINE (R215): 1,024 clk after it opened, a die-scope partial is pushed home. -/
def execPartialPushDeadline (die core line : Nat) (s : State) : Res :=
  match s.partials.find (coreKey die core * 2 ^ 30 + line) with
  | none => finish s
  | some p =>
    if p.dieScope ∧ p.opened + 1024 ≤ s.clk die core then finish (s.pushPartial die core line) else finish s

/-- NEAR_CACHE_EVICT (R199, R203): the near cache evicts a sector or a partial, if nothing in its set comes before it in the order
of `stream` and `keep`. Mark: DEDUCED (log 14). -/
def execNearCacheEvict (die core sector : Nat) (s : State) : Res :=
  let all := s.cached die core
  let mine := all.filter fun e => e.1 == sector || (e.1 / 2 == sector / 2 && (s.partials.find (coreKey die core * 2 ^ 30 + sector / 2)).isSome)
  if mine.any fun e => (State.sameSet all sector).all fun f => decide (e.2 ≤ f.2) then finish (s.evict die core sector) else finish s

/-- WRITE_BACK_ACCEPT (R192): home accepts written-back bytes and performs them. -/
def execWriteBackAccept (wb : Nat) (s : State) : Res :=
  match s.wbacks.find wb with
  | none => finish s
  | some b =>
    if b.bytes.all fun c => s.inOrder wb b.die b.core c.1 false then
      let s := { s with wbacks := s.wbacks.del wb }
      let s := b.bytes.foldl (fun s c => s.memWrite b.die c.1 [c.2]) s
      let s := match b.bytes with
        | [] => s
        | c :: _ => s.touched b.die c.1 1
      finish (s.wakeMemory.chargeHbm b.die ((b.bytes.head?.map (·.1)).getD 0) (some b.ctx))
    else finish s

/-- A producer's value is written to its registers, which become full (R79). A value for an ended thread is discarded
(R117). Mark: DEDUCED (log 68). -/
def State.writeback (s : State) (id : Nat) (p : Prod) (ws : List W32) : State :=
  let s := { s with prods := s.prods.del id }
  let s := s.updThread p.thread fun t =>
    if t.st == .exited then t
    else match p.regs with
      | [] => t
      | r :: _ => (t.setRegs r (ws.take p.regs.length)).markFull p.regs
  s.wakeIf (fun w => w.kind == waitReg && p.regs.contains w.place) p.thread

/-- A producer is abandoned: its registers are full again with the values they held (R79). Mark: DEDUCED (log 68). -/
def State.abandon (s : State) (id : Nat) (p : Prod) : State :=
  let s := { s with prods := s.prods.del id }
  (s.updThread p.thread fun t => t.markFull p.regs).wakeIf (fun w => w.kind == waitReg && p.regs.contains w.place) p.thread

/-- LONG_LATENCY_WRITEBACK (R79): a known value arrives; a load in an S or P page whose fill arrives is performed in
the near cache then (R192, R197), with the core's earlier loads of the sector before it and those that share its request (R200,
R205). Mark: DEDUCED (log 66). -/
def execLongLatencyWriteback (prod : Nat) (s : State) : Res :=
  match s.prods.find prod with
  | none => finish s
  | some p => if p.held then finish s else match p.val with
    | .val ws => finish (s.writeback prod p ws).wakeMemory
    | .fill pa _ _ _ leader _ _ =>
      let die := p.core / 256
      let core := p.core % 256
      match s.self p.thread with
      | none => finish { s with prods := s.prods.del prod }
      | some m =>
        let s := s.ncFill die core m.g.ctx pa 0
        finish (((s.prods.filter fun e => e.2.core == p.core).foldl (fun s e => match e.2.val with
          | .fill a n x h l _ _ =>
            if a / 64 = pa / 64 ∧ l ≤ leader then
              (s.hintSector die core a h).writeback e.1 e.2 (loadWords x ((s.ncBytes die core a n modeS).getD []))
            else s
          | _ => s) s).wakeMemory.chargeHbm die pa (some m.g.ctx))
    | _ => finish s

end Sys2Proof.Machine
end

