-- ==== Sys2Proof/Machine/Memory.lean ====
section
/-! DEFINITION. Loads, stores, prefetch, atomics, RED, fences and cache maintenance: LD, ST, LDX, STX, PFL and opcodes
0x90 to 0x95 (R207 to R217). -/

namespace Sys2Proof.Machine

/-- Bytes of a SZ code (R204). Mark: DEDUCED (log 20). -/
def szBytes (sz : BitVec 3) : Nat := match sz.toNat with | 0 => 1 | 1 => 1 | 2 => 2 | 3 => 2 | 4 => 4 | 5 => 8 | _ => 16
/-- Sign extension by SZ code (R204). -/
def szSext (sz : BitVec 3) : Bool := sz == 1 || sz == 3
/-- Lease classes in dt (R194). -/
def leaseDt (l : BitVec 2) : Nat := match l.toNat with | 0 => 0 | 1 => 64 | 2 => 256 | _ => 1024

/-- EINFO of MISALIGN (R207). Mark: DEDUCED (log 20). -/
def misalignInfo (kind sz : Nat) : W32 := BitVec.ofNat 32 (kind + 8 * sz)

/-- Where an access of a thread arrives: its leaf and physical address, or what the slot comes to instead. -/
inductive Reach where
  | at_ (leaf : W64) (pa : Nat)
  | no (v : Verdict)
  deriving DecidableEq, Repr

/-- The page causes and MISALIGN of one access, in the order of their priority (R207, R364). -/
def State.reach (s : State) (m : Self) (va : W64) (kind size sz : Nat) : Reach × State :=
  match s.translate m va kind with
  | (.hit leaf pa, s) =>
    if va.toNat % size = 0 then (.at_ leaf pa, s) else (.no (.cause .misalign (misalignInfo kind sz) va), s)
  | (.cause c i, s) => (.no (.cause c i va), s)
  | (.wait w, s) => (.no (.block w), s)
  | (.locked, s) => (.no (.block ⟨waitLock, va, va.toNat⟩), s)
  | (.beyond _, s) => (.no .left, s)

/-- A wait for an earlier access to overlapping bytes (R206). -/
def overlapWait (pa size : Nat) (o : State.Order) : Verdict :=
  .block ⟨waitOverlap, BitVec.ofNat 64 (size + 256 * o.num), pa⟩

/-- Go on after an instruction whose fence acq stands behind it (R208, R214). -/
def afterAcq (acq : Bool) (m : Self) (s : State) : Verdict :=
  if acq && !s.fenceOk m.k m.g.die 1 2 then .doneBlock (State.fenceWait 1 2 true) else .done

/-! ## Loads (R208) -/

/-- The request of another issue group whose sector and request a load that misses shares, within 64 clk (R200). Mark: DEDUCED (log 14). -/
def State.sharedLoad (s : State) (m : Self) (pa : Nat) : Option Nat :=
  (s.hreqs.find? fun e => e.2.die == m.g.die && e.2.core == m.g.core && e.2.ctx == m.g.ctx && e.2.pa / 64 == pa / 64 && e.2.ig != s.focus &&
    decide (s.clk m.g.die m.g.core ≤ e.2.born + 64) && match e.2.kind with | .load _ fill _ _ _ => fill | _ => false).map (·.1)
/-- The producer of another issue group whose fill an S or P load shares (R200). Mark: DEDUCED (log 14). -/
def State.sharedFill (s : State) (m : Self) (pa : Nat) : Option Nat :=
  (s.prods.find? fun e => e.2.core == coreKey m.g.die m.g.core && match e.2.val with
    | .fill a _ _ _ leader ig born => a / 64 == pa / 64 && leader == e.1 && ig != s.focus && decide (s.clk m.g.die m.g.core ≤ born + 64)
    | _ => false).map (·.1)

/-- A load whose access has been checked: the place where it is performed, by mode and hint (R192, R195, R197, R199).
False when every sector request of the core is in use (R200). -/
def State.issueLoad (s : State) (m : Self) (d : Opd) (leaf : W64) (pa size : Nat) (sext : Bool) (lease : Nat) (hint : BitVec 2)
    (counted : Bool) : Bool × State :=
  let die := m.g.die
  let core := m.g.core
  let n := if size = 16 then 4 else if size = 8 then 2 else 1
  let mem := if counted then some (pa, size) else none
  let full := s.requestsFull die core
  if Leaf.mode leaf = modeH then
    let lease := if hint = 3 then 0 else lease
    let hit := if lease = 0 ∨ (s.partials.find (partKey die core pa)).isSome then none else s.ncBytes die core pa size modeH
    match hit with
    | some bs => (true, ((s.hintSector die core pa hint).produce m d n (.val (loadWords sext bs)) mem).2)
    | none =>
      match if lease = 0 ∨ (s.partials.find (partKey die core pa)).isSome then none else s.sharedLoad m pa with
      | some req =>
        let (id, s) := s.produce m d n .home mem
        let x : Sharer := { prod := id, pa := pa, size := size, sext := sext }
        (true, { s with hreqs := s.hreqs.upd req fun r => { r with also := r.also ++ [x], hint := hintOf r.hint hint } })
      | none =>
        if full then (false, s)
        else
          let (id, s) := s.produce m d n .home mem
          (true, s.request m pa size (.load lease (lease != 0) id sext n) modeH hint)
  else if hint = 3 then
    if full then (false, s)
    else
      let s := s.flushSector die core (pa / 64) true [] []
      let (id, s) := s.produce m d n .home mem
      (true, s.request m pa size (.load 0 false id sext n) modeS 0)
  else match s.ncBytes die core pa size modeS with
    | some bs => (true, ((s.hintSector die core pa hint).produce m d n (.val (loadWords sext bs)) mem).2)
    | none =>
      let shared := s.sharedFill m pa
      if full && shared.isNone then (false, s)
      else (true, (s.produce m d n (.fill pa size sext hint (shared.getD s.nextId) s.focus (s.clk die core)) mem).2)

def loadBody (d : Opd) (ea : Self → State → W64) (sz : BitVec 3) (lease : BitVec 2) (acq : Bool) (hint : BitVec 2) : Body :=
  fun m s =>
    match s.reach m (ea m s) kindLoad (szBytes sz) sz.toNat with
    | (.no v, s) => (v, s)
    | (.at_ leaf pa, s) =>
      if s.overlapPending m.k pa (szBytes sz) State.ordLoad then (overlapWait pa (szBytes sz) State.ordLoad, s)
      else match s.issueLoad m d leaf pa (szBytes sz) (szSext sz) (leaseDt lease) hint true with
        | (false, s) => (.block (State.requestWait (ea m s)), s)
        | (true, s) => (afterAcq acq m s, s)

/-- The address of LD and ST, and of LDX and STX (R208). -/
def eaImm (a : Opd) (imm : BitVec 16) (m : Self) (s : State) : W64 := s.src64 m a + imm.signExtend 64
def eaIdx (a b : Opd) (sz : BitVec 3) (sc : Bool) (m : Self) (s : State) : W64 :=
  s.src64 m a + (s.src m b).signExtend 64 * BitVec.ofNat 64 (if sc then szBytes sz else 1)

/-- LD (R208). -/
def execLd (q : Ctl) (d a : Opd) (imm : BitVec 16) (sz : BitVec 3) (lease : BitVec 2) (acq : Bool) (s : State) : Res :=
  runSlot (.ld q d a imm sz lease acq) (loadBody d (eaImm a imm) sz lease acq q.h) s

/-- LDX (R208). -/
def execLdx (q : Ctl) (d a b : Opd) (sz : BitVec 3) (lease : BitVec 2) (acq sc : Bool) (s : State) : Res :=
  runSlot (.ldx q d a b sz lease acq sc) (loadBody d (eaIdx a b sz sc) sz lease acq q.h) s

/-! ## Stores (R209) -/

/-- The bytes that a store of SZ writes. -/
def storeBytes (sz : BitVec 3) (m : Self) (s : State) (d : Opd) : List Byte :=
  match sz.toNat with
  | 5 => w64Bytes (s.src64 m d)
  | 6 => wordsBytes (s.srcRun m d 4)
  | _ => leBytes (szBytes sz) (s.src m d).toNat

/-- A fence rel placed before an instruction: the near cache pushes the partials that it waits for (R216). -/
def relFirst (rel : Bool) (m : Self) (s : State) : Option (Verdict × State) :=
  if rel && !s.fenceOk m.k m.g.die 2 2 then some (.block (State.fenceWait 2 2 false), s.pushThread m.g.die m.g.core m.k) else none

def storeBody (d : Opd) (ea : Self → State → W64) (sz : BitVec 3) (rel : Bool) (hint : BitVec 2) : Body :=
  fun m s =>
    match s.reach m (ea m s) kindStore (szBytes sz) sz.toNat with
    | (.no v, s) => (v, s)
    | (.at_ leaf pa, s) =>
      match relFirst rel m s with
      | some r => r
      | none =>
        let bs := storeBytes sz m s d
        let home := Leaf.mode leaf == modeH || hint == 3
        let ord := if home then State.ordStore else State.ordLocal
        if s.overlapPending m.k pa (szBytes sz) ord then (overlapWait pa (szBytes sz) ord, s)
        else if home && s.requestsFull m.g.die m.g.core then (.block (State.requestWait (ea m s)), s)
        else if Leaf.mode leaf = modeH then
          (.done, (s.hintSector m.g.die m.g.core pa (if hint = 3 then 0 else hint)).request m pa (szBytes sz) (.store bs) modeH 0)
        else if hint = 3 then
          (.done, (s.flushSector m.g.die m.g.core (pa / 64) true [] []).request m pa (szBytes sz) (.store bs) modeS 0)
        else (.done, s.ncWrite m.g.die m.g.core m.g.ctx pa bs hint)

/-- ST (R209). -/
def execSt (q : Ctl) (d a : Opd) (imm : BitVec 16) (sz : BitVec 3) (rel : Bool) (s : State) : Res :=
  runSlot (.st q d a imm sz rel) (storeBody d (eaImm a imm) sz rel q.h) s

/-- STX (R209). -/
def execStx (q : Ctl) (d a b : Opd) (sz : BitVec 3) (rel sc : Bool) (s : State) : Res :=
  runSlot (.stx q d a b sz rel sc) (storeBody d (eaIdx a b sz sc) sz rel q.h) s

/-! ## Prefetch (R212) -/

/-- PFL: a load of the sector's first byte that writes nothing and that no fence counts; it is dropped where it fails to
translate, meets a locked page, or finds no free request. It ignores the cache hint (R199). With LVL the near cache is untouched. -/
def execPfl (q : Ctl) (a : Opd) (imm : BitVec 16) (lease : BitVec 2) (lvl : Bool) (s : State) : Res :=
  runSlot (.pfl q a imm lease lvl) (fun m s =>
    match s.walkNow m.g.die m.g.ctx m.g.vdie (eaImm a imm m s).toNat kindLoad (some m.g.vcore) with
    | (.hit leaf pa, s) =>
      let pa := pa / 64 * 64
      if lvl then
        if s.requestsFull m.g.die m.g.core then (.done, s)
        else
          let (id, s) := s.newId
          let r : HReq := { die := m.g.die, core := m.g.core, ctx := m.g.ctx, thread := none, op := none, pa := pa, size := 1, kind := .load 0 false 0 false 1, mode := Leaf.mode leaf, recalls := none, ig := s.focus, born := s.clk m.g.die m.g.core, also := [], after := [], hint := 0 }
          (.done, { s with hreqs := s.hreqs.put id r })
      else (.done, (s.issueLoad m .none leaf pa 1 false (leaseDt lease) 0 false).2)
    | (_, s) => (.done, s)) s

/-! ## Atomics (R214) -/

/-- Where an atomic is performed by mode (R192): at home, after the S write-back and drop of R197, or in the owner's
near cache. `k` is the request with its producer; `local_` gives the new value from the old. Mark: DEDUCED (log 15). -/
def State.issueAtomic (s : State) (m : Self) (d : Opd) (leaf : W64) (pa size : Nat) (k : Option Nat → HKind)
    (new : W64 → W64) : State :=
  let die := m.g.die
  let core := m.g.core
  let mem := some (pa, size)
  if Leaf.mode leaf = modeP then
    let s := s.ncHold die core m.g.ctx pa size
    let old := bytesW64 ((s.ncBytes die core pa size modeP).getD [])
    let s := s.ncWrite die core m.g.ctx pa (leBytes size (new old).toNat) 0
    (s.produce m d (size / 4) (.val (State.wordsOf size old)) mem).2
  else
    let s := if Leaf.mode leaf = modeH then s else s.flushSector die core (pa / 64) true [] []
    match d with
    | .g _ =>
      let (id, s) := s.produce m d (size / 4) .home mem
      s.request m pa size (k (some id)) (Leaf.mode leaf) 0
    | _ => s.request m pa size (k none) (Leaf.mode leaf) 0

def atomicBody (d a : Opd) (w64 : Bool) (ord : BitVec 2) (k : Self → State → Option Nat → HKind)
    (new : Self → State → W64 → W64) : Body :=
  fun m s =>
    let size := if w64 then 8 else 4
    match relFirst (ord.getLsbD 1) m s with
    | some r => r
    | none =>
      match s.reach m (s.src64 m a) kindAtomic size 7 with
      | (.no v, s) => (v, s)
      | (.at_ leaf pa, s) =>
        if s.overlapPending m.k pa size State.ordAtomic then (overlapWait pa size State.ordAtomic, s)
        else if Leaf.mode leaf != modeP && s.requestsFull m.g.die m.g.core then (.block (State.requestWait (s.src64 m a)), s)
        else
          let s' := s.issueAtomic m d leaf pa size (k m s) (new m s)
          (afterAcq (ord.getLsbD 0) m s', s')

/-- ATOM (R214). -/
def execAtom (q : Ctl) (d a b : Opd) (fn : BitVec 4) (w64 : Bool) (ord : BitVec 2) (s : State) : Res :=
  runSlot (.atom q d a b fn w64 ord)
    (atomicBody d a w64 ord (fun m s p => .atom fn (s.srcWide m w64 b) p) (fun m s old => atomFn fn w64 old (s.srcWide m w64 b))) s

/-- ACAS (R214). -/
def execAcas (q : Ctl) (d a b c : Opd) (w64 : Bool) (ord : BitVec 2) (s : State) : Res :=
  runSlot (.acas q d a b c w64 ord)
    (atomicBody d a w64 ord (fun m s p => .acas (s.srcWide m w64 b) (s.srcWide m w64 c) p)
      (fun m s old => if old = s.srcWide m w64 b then s.srcWide m w64 c else old)) s

/-! ## RED (R215) -/

/-- Fold an operand into the core's partial of a line, pushing a partial of another function or width first and opening
a new one where there is none (R201). -/
def State.foldRed (s : State) (m : Self) (pa : Nat) (fn : BitVec 4) (w64 : Bool) (b : W64) (dieScope : Bool) : State :=
  let die := m.g.die
  let core := m.g.core
  let key := partKey die core pa
  let s := match s.partials.find key with
    | some p => if p.fn = fn ∧ p.w64 = w64 then s else s.pushPartial die core (pa / 128)
    | none => s
  let (p, s) := match s.partials.find key with
    | some p => (p, s)
    | none =>
      let lineSec := pa / 128 * 2
      let s := (s.flushSector die core lineSec true [] []).flushSector die core (lineSec + 1) true [] []
      let s := s.makeLineRoom die core pa
      let hs := s.holdersOf die pa
      let s := { s with holders := s.holders.put (lineKey die pa) (if hs.contains core then hs else hs ++ [core]) }
      let p : Partial := { ctx := m.g.ctx, fn := fn, w64 := w64, words := [], threads := [], opened := s.clk die core, dieScope := false }
      (p, s)
  let off := pa % 128
  let old := p.words.getD off (partIdentity fn w64)
  let p := { p with words := p.words.put off (atomFn fn w64 old b), dieScope := p.dieScope || dieScope, threads := if p.threads.contains m.k then p.threads else p.threads ++ [m.k] }
  { s with partials := s.partials.put key p }

/-- RED (R215). Mark: DEDUCED (log 15). -/
def execRed (q : Ctl) (a b : Opd) (fn : BitVec 4) (w64 ordered : Bool) (scope : BitVec 2) (s : State) : Res :=
  runSlot (.red q a b fn w64 ordered scope) (fun m s =>
    let size := if w64 then 8 else 4
    let v := s.srcWide m w64 b
    match s.reach m (s.src64 m a) kindAtomic size 7 with
    | (.no r, s) => (r, s)
    | (.at_ leaf pa, s) =>
      let home := Leaf.mode leaf == modeS || (Leaf.mode leaf == modeH && ordered)
      let ord := if home then State.ordStore else State.ordLocal
      if s.overlapPending m.k pa size ord then (overlapWait pa size ord, s)
      else if home && s.requestsFull m.g.die m.g.core then (.block (State.requestWait (s.src64 m a)), s)
      else if Leaf.mode leaf = modeH then
        if ordered then (.done, s.request m pa size (.redOrd fn v) modeH 0)
        else (.done, s.foldRed m pa fn w64 v (scope == 2))
      else if Leaf.mode leaf = modeS then
        (.done, (s.flushSector m.g.die m.g.core (pa / 64) true [] []).request m pa size (.redOrd fn v) modeS 0)
      else
        let s := s.ncHold m.g.die m.g.core m.g.ctx pa size
        let old := bytesW64 ((s.ncBytes m.g.die m.g.core pa size modeP).getD [])
        (.done, s.ncWrite m.g.die m.g.core m.g.ctx pa (leBytes size (atomFn fn w64 old v).toNat) 0)) s

/-! ## Fences and cache maintenance (R216, R217) -/

/-- FENCE (R216): the thread stays at the fence until its condition holds. -/
def execFence (q : Ctl) (kind scope : BitVec 2) (s : State) : Res :=
  runSlot (.fence q kind scope) (fun m s =>
    if s.fenceOk m.k m.g.die kind.toNat scope.toNat then (.done, s)
    else (.block (State.fenceWait kind.toNat scope.toNat false),
      if kind = 2 then s.pushThread m.g.die m.g.core m.k else s)) s

/-- The physical ranges of the pages that `[a, a + n)` overlaps, 64 KiB at a time; a page that fails to translate is
skipped (R217), and so is a locked one. Mark: DESIGN CHOICE (log 81). -/
def State.rangePieces (s : State) (m : Self) (a n : Nat) : Nat → List (Nat × Nat) × State
  | 0 => ([], s)
  | fuel + 1 =>
    if n = 0 then ([], s)
    else
      let len := min n (65536 - a % 65536)
      let r := s.walkNow m.g.die m.g.ctx m.g.vdie a kindLoad (some m.g.vcore)
      let rest := r.2.rangePieces m (a + len) (n - len) fuel
      match r.1 with
      | .hit _ pa => ((pa, len) :: rest.1, rest.2)
      | _ => rest

/-- The sectors of this context in a core's near cache that a test picks. -/
def State.ncSectors (s : State) (die core ctx : Nat) (pick : Nat → Bool) : List Nat :=
  (s.nc.filter fun e => e.1 / 2 ^ 31 == coreKey die core && e.2.ctx == ctx && pick (e.1 % 2 ^ 31)).map fun e => e.1 % 2 ^ 31
/-- The lines of this context with an open partial that a test picks. -/
def State.partLines (s : State) (die core ctx : Nat) (pick : Nat → Bool) : List Nat :=
  (s.partials.filter fun e => e.1 / 2 ^ 30 == coreKey die core && e.2.ctx == ctx &&
    (pick (e.1 % 2 ^ 30 * 2) || pick (e.1 % 2 ^ 30 * 2 + 1))).map fun e => e.1 % 2 ^ 30

/-- The sectors that a maintenance instruction names: those that overlap the range, or all (R217). -/
def State.maintained (s : State) (m : Self) (a b : Opd) (all : Bool) : (Nat → Bool) × State :=
  if all then (fun _ => true, s)
  else
    let n := (s.src m b).toNat
    let r := s.rangePieces m (s.src64 m a).toNat n (n / 65536 + 2)
    (fun sec => r.1.any fun p => overlaps (sec * 64) 64 p.1 p.2, r.2)

/-- The write-backs of the range that are on their way already, which the thread's CWB or CINV then waits for too (R217, R220).
Mark: DEDUCED (log 16). -/
def State.joinBacks (s : State) (m : Self) (pick : Nat → Bool) (cwbs cinvs : List Nat) : State :=
  let mine (b : WBack) : Bool := b.die == m.g.die && b.core == m.g.core && b.ctx == m.g.ctx && b.bytes.any fun c => pick (c.1 / 64)
  { s with wbacks := s.wbacks.map fun e => (e.1, if mine e.2 then { e.2 with cwbs := cwbs ++ e.2.cwbs, cinvs := cinvs ++ e.2.cinvs } else e.2) }

/-- CWB (R217): dirty bytes are written back and the sectors kept, clean. -/
def execCwb (q : Ctl) (a b : Opd) (all : Bool) (s : State) : Res :=
  runSlot (.cwb q a b all) (fun m s =>
    let r := s.maintained m a b all
    let secs := r.2.ncSectors m.g.die m.g.core m.g.ctx r.1
    (.done, secs.foldl (fun s sec => s.flushSector m.g.die m.g.core sec false [m.k] []) (r.2.joinBacks m r.1 [m.k] []))) s

/-- CINV (R217): dirty bytes are written back, the sectors dropped, and open partials pushed home; later accesses of the thread wait
for the write-backs. Mark: DESIGN CHOICE (log 81). -/
def execCinv (q : Ctl) (a b : Opd) (all : Bool) (s : State) : Res :=
  runSlot (.cinv q a b all) (fun m s =>
    let r := s.maintained m a b all
    let lines := r.2.partLines m.g.die m.g.core m.g.ctx r.1
    let s := lines.foldl (fun s l => s.pushPartial m.g.die m.g.core l) (r.2.joinBacks m r.1 [] [m.k])
    let secs := s.ncSectors m.g.die m.g.core m.g.ctx r.1
    (.done, secs.foldl (fun s sec => s.flushSector m.g.die m.g.core sec true [] [m.k]) s)) s

/-! ## TLB_WALK (R178 to R182) -/

/-- What a locked page's walk gives one waiting access: the failure of its leaf check, or the wait for the release (R178, R183). -/
def State.lockedOut (s : State) (w : Walk) (e : W64) (x : Nat × Nat) : State :=
  match s.self x.1 with
  | none => s
  | some m => match leafCheck e x.2 (some m.g.vcore) with
    | some (c, r, o) =>
      let f : WalkFault := { base := w.va / Leaf.bytes e * Leaf.bytes e, span := Leaf.bytes e, cause := c, reason := r, level := 7, psize := Leaf.size e, owner := o }
      s.updThread x.1 fun t => { t with walkFault := some f }
    | none => s.updThread x.1 fun t => match t.st with
      | .blocked b => if b.kind = waitResource then { t with st := .blocked { b with kind := waitLock } } else t
      | _ => t

/-- TLB_WALK: a walker translates the missed address, sets ACCESSED and DIRTY at home, and installs the whole leaf in the
die TLB and the near TLBs of the cores that wait. A fault is the result of every request attached; a locked page's
requests wait for its release. Like any reader, a walker has home recall the partials of a line first (R202). Mark: DESIGN CHOICE (logs 10, 13). -/
def execTlbWalk (walk : Nat) (s : State) : Res :=
  match s.walks.find walk with
  | none => finish s
  | some w =>
    let wakeRes (s : State) : State := s.wakeAll fun k x => x.kind == waitResource &&
      match s.self k with | some m => m.g.die == w.die | none => false
    let vdie := (s.vdieOf w.ctx w.die).getD 8
    let faulted (f : WalkFault) (s : State) : State := w.waiters.foldl (fun s x => s.updThread x.1 fun t => { t with walkFault := some f }) s
    if !(s.walking w.die).contains walk then finish s
    else match s.xrec w.ctx vdie with
    | none => finish (wakeRes { s with walks := s.walks.del walk })
    | some x =>
      let from_ := s.walkStart w.ctx w.die w.va x.root
      let places := walkPlaces s w.die w.va from_.1 from_.2
      let s := places.foldl (fun s p => s.chargeHbm w.die p (some w.ctx)) (s.recallTables w.die places)
      let s := { s with walks := s.walks.del walk }.keepTables w.ctx w.die w.va (walkTables s w.die w.va from_.1 from_.2)
      match walkFrom s w.die w.va from_.1 from_.2 with
      | .beyond a => finish (s.fail (.noSuchPhysical w.die a))
      | .bad r l z => finish (wakeRes (faulted { base := w.base, span := w.span, cause := .pagefault, reason := r, level := l, psize := z, owner := 0 } s))
      | .leaf e place =>
        let f := s.inForce w.ctx vdie w.va e
        if Leaf.mode f = modeLocked then
          finish (wakeRes (w.waiters.foldl (fun s x => s.lockedOut w f x) s))
        else
          let (e', s) := s.markLeaf w.die place e (w.write && Leaf.w e)
          let e' := s.inForce w.ctx vdie w.va e'
          let size := Leaf.bytes e'
          let ent : TlbE := { ctx := w.ctx, base := w.va / size * size, size := size, leaf := e' }
          let add (n : Nat) (l : List TlbE) : List TlbE := (ent :: l.filter fun o => !(o.ctx == ent.ctx && o.base == ent.base)).take n
          let s := { s with dieTlb := s.dieTlb.put w.die (add 32768 (s.dieTlb.getD w.die [])) }
          let s := w.cores.foldl (fun s c =>
            { s with nearTlb := s.nearTlb.put (coreKey w.die c) (add 512 (s.nearTlb.getD (coreKey w.die c) [])) }) s
          finish (wakeRes s)

end Sys2Proof.Machine
end

