-- ==== Sys2Proof/Machine/Spad.lean ====
section
/-! DEFINITION. The scratchpad, its tags and arrival words: LDS, STS and opcodes 0xA0 to 0xA4 (R210, R211, R223 to
R233). -/

namespace Sys2Proof.Machine

namespace State

/-- A group's scratchpad bytes. -/
def spadRead (s : State) (gid off n : Nat) : List Byte :=
  match s.groups.find gid with
  | some g => cellsGet g.spad off n
  | none => List.replicate n 0
def tagFull (s : State) (gid word : Nat) : Bool :=
  match s.groups.find gid with
  | some g => g.tags.contains word
  | none => false
def setTag (s : State) (gid word : Nat) (full : Bool) : State :=
  s.updGroup gid fun g =>
    { g with tags := if full then (if g.tags.contains word then g.tags else word :: g.tags) else g.tags.filter (· != word) }

/-- GEN of the arrival word at an offset (R230). -/
def arrivalGen (s : State) (gid off : Nat) : BitVec 16 := BitVec.ofNat 16 (leNat ((s.spadRead gid off 8).drop 6))

/-- An access that waited on a tag or a generation is performed (R210, R211, R233). -/
def performWait (s : State) (gid : Nat) (w : TagWait) : State :=
  let s := s.updGroup gid fun g => { g with tagWaits := g.tagWaits.filter fun x => x != w }
  let doneWait (s : State) : State :=
    (s.updThread w.thread fun t => { t with waitDone := true }).wakeIf (fun x => x.kind == waitTag) w.thread
  match w.kind with
  | 3 =>
    (s.complete w.prod [(s.arrivalGen gid w.off).setWidth 32]).wakeIf (fun x => x.kind == waitArrival) w.thread
  | 2 =>
    let s := s.updGroup gid fun g => { g with spad := cellsSet g.spad w.off w.data }
    doneWait (s.setTag gid w.word true)
  | n =>
    let ws := loadWords w.sext (s.spadRead gid w.off w.sz)
    let s := if n = 1 then s.setTag gid w.word false else s
    match s.self w.thread with
    | none => s
    | some m =>
      let (id, s) := s.newId
      let core := coreKey m.g.die m.g.core
      let p : Prod := { thread := m.k, core := core, regs := w.dst, val := .val ws, mem := none, held := false, pc := m.t.pc, word := 0 }
      doneWait ({ s with prods := s.prods.put id p }.updThread m.k fun t => t.markEmpty w.dst)

/-- Whether a waiting access may be performed now; an AWAIT that a halt has abandoned may not (R233). -/
def waitMet (s : State) (gid : Nat) (w : TagWait) : Bool :=
  match w.kind with
  | 3 => s.arrivalGen gid w.off != w.gen && !(match s.prods.find w.prod with | some p => p.held | none => false)
  | 2 => !s.tagFull gid w.word
  | _ => s.tagFull gid w.word

/-- After a change of a word: the oldest waiter that is permitted goes first, until none is (R211). -/
def settleWord (s : State) (gid word : Nat) : Nat → State
  | 0 => s
  | fuel + 1 =>
    match s.groups.find gid with
    | none => s
    | some g => match g.tagWaits.find? fun w => w.word == word && s.waitMet gid w with
      | none => s
      | some w => (s.performWait gid w).settleWord gid word fuel
/-- Test the waits of the words `words` (R211, R233). -/
def settleWords (s : State) (gid : Nat) (words : List Nat) : State :=
  words.foldl (fun s w =>
    match s.groups.find gid with
    | some g => if g.tagWaits.any fun x => x.word == w then s.settleWord gid w (g.tagWaits.length + 1) else s
    | none => s) s

/-- The words that a byte range touches. -/
def wordsIn (off n : Nat) : List Nat := if n = 0 then [] else (List.range ((off + n - 1) / 8 - off / 8 + 1)).map (off / 8 + ·)

/-- A write of scratchpad bytes; arrival waits on the words are tested (R233). -/
def spadWrite (s : State) (gid off : Nat) (bs : List Byte) : State :=
  (s.updGroup gid fun g => { g with spad := cellsSet g.spad off bs }).settleWords gid (wordsIn off bs.length)

/-- `arrive` (R230): none where the word is disarmed. -/
def arrive (s : State) (gid off n : Nat) : Option State :=
  let v := leNat (s.spadRead gid off 8)
  let target := bitsOf v 24 24
  if target = 0 then none
  else
    let x := bitsOf v 0 24 + n
    let steps := x / target
    let v' := x % target + target * 2 ^ 24 + (bitsOf v 48 16 + steps) % 65536 * 2 ^ 48
    let s := s.updGroup gid fun g => { g with spad := cellsSet g.spad off (leBytes 8 v') }
    let s := if steps = 0 then s else s.setTag gid (off / 8) true
    some (s.settleWords gid [off / 8])

end State

/-- A scratchpad cause with the offset at fault (R227). Mark: DEDUCED (log 20). -/
def spadRange (off : Nat) : Verdict := .raise .spadrange (BitVec.ofNat 32 off)
def spadMisalign (kind sz off : Nat) : Verdict := .cause .misalign (misalignInfo kind sz) (BitVec.ofNat 64 off)

/-- The checks of a scratchpad range: alignment first, then the allocation (R210); then a pending AWAIT (R226). Mark: DEDUCED (log 19). -/
def spadCheck (m : Self) (s : State) (off n align kind sz : Nat) : Option Verdict :=
  if off % align ≠ 0 then some (spadMisalign kind sz off)
  else if m.l.spad < off + n then some (spadRange off)
  else match s.pendingAwait m with
    | some w => some (awaitWait w)
    | none => none

def spadOff (a : Opd) (imm : BitVec 16) (m : Self) (s : State) : Nat := (s.src m a + imm.signExtend 32).toNat

/-- The tag of an access that does not permit it: TAGTRAP with TT, else the thread waits (R210). -/
def tagBlocked (tt : Bool) (m : Self) (s : State) (w : TagWait) : Verdict × State :=
  if tt then (.raise .tagtrap (BitVec.ofNat 32 (w.word * 8)), s)
  else
    let known := m.g.tagWaits.any fun x => x.thread == m.k && x.kind != 3
    let s := if known then s else s.updGroup m.gid fun g => { g with tagWaits := g.tagWaits ++ [w] }
    (.block ⟨waitTag, BitVec.ofNat 64 w.off, w.word⟩, s)

/-- A wait that has ended for a reissued slot. -/
def clearDone (m : Self) (s : State) : Verdict × State := (.done, s.updThread m.k fun t => { t with waitDone := false })

/-- LDS (R210). -/
def execLds (q : Ctl) (d a : Opd) (imm : BitVec 16) (sz : BitVec 3) (tag : BitVec 2) (tt : Bool) (s : State) : Res :=
  runSlot (.lds q d a imm sz tag tt) (fun m s =>
    let off := spadOff a imm m s
    let n := szBytes sz
    if m.t.waitDone then clearDone m s
    else match spadCheck m s off n n 0 sz.toNat with
      | some v => (v, s)
      | none =>
        if tag = 0 ∨ s.tagFull m.gid (off / 8) then
          let ws := loadWords (szSext sz) (s.spadRead m.gid off n)
          let s := (s.produce m d ws.length (.val ws) none).2
          let s := if tag = 2 then (s.setTag m.gid (off / 8) false).settleWords m.gid [off / 8] else s
          (.done, s)
        else
          tagBlocked tt m s { thread := m.k, word := off / 8, off := off, sz := n, kind := if tag = 2 then 1 else 0, dst := Thread.opdRegs d (if n = 8 then 2 else 1), sext := szSext sz, data := [], gen := 0, prod := 0 }) s

/-- STS (R210). -/
def execSts (q : Ctl) (d a : Opd) (imm : BitVec 16) (sz : BitVec 3) (tag : BitVec 2) (tt : Bool) (s : State) : Res :=
  runSlot (.sts q d a imm sz tag tt) (fun m s =>
    let off := spadOff a imm m s
    let n := szBytes sz
    let bs := storeBytes sz m s d
    if m.t.waitDone then clearDone m s
    else match spadCheck m s off n n 1 sz.toNat with
      | some v => (v, s)
      | none =>
        if tag = 0 then (.done, s.spadWrite m.gid off bs)
        else if tag = 2 ∨ !s.tagFull m.gid (off / 8) then
          let s := s.updGroup m.gid fun g => { g with spad := cellsSet g.spad off bs }
          (.done, (s.setTag m.gid (off / 8) true).settleWords m.gid [off / 8])
        else
          tagBlocked tt m s { thread := m.k, word := off / 8, off := off, sz := n, kind := 2, dst := [], sext := false, data := bs, gen := 0, prod := 0 }) s

/-- TAGSET (R228). -/
def execTagset (q : Ctl) (a b : Opd) (full : Bool) (s : State) : Res :=
  runSlot (.tagset q a b full) (fun m s =>
    let off := (s.src m a).toNat
    let n := (s.src m b).toNat
    if off % 8 ≠ 0 then (spadMisalign 1 5 off, s)
    else if n ≠ 0 ∧ m.l.spad < off + 8 * n then (spadRange off, s)
    else match (if n = 0 then none else s.pendingAwait m) with
      | some w => (awaitWait w, s)
      | none =>
        let words := (List.range n).map (off / 8 + ·)
        let s := words.foldl (fun s w => s.setTag m.gid w full) s
        (.done, s.settleWords m.gid words)) s

/-- TAGRD (R229): 32 tags, sampled at once. -/
def execTagrd (q : Ctl) (d a : Opd) (s : State) : Res :=
  runSlot (.tagrd q d a) (fun m s =>
    let off := (s.src m a).toNat
    match spadCheck m s off 1 8 0 5 with
    | some v => (v, s)
    | none =>
      let v := (List.range 32).foldl (fun v j =>
        if off + 8 * j < m.l.spad ∧ s.tagFull m.gid (off / 8 + j) then v + 2 ^ j else v) 0
      (.done, (s.produce m d 1 (.val [BitVec.ofNat 32 v]) none).2)) s

/-- AWINIT (R231). -/
def execAwinit (q : Ctl) (a b : Opd) (clr : Bool) (s : State) : Res :=
  runSlot (.awinit q a b clr) (fun m s =>
    let off := (s.src m a).toNat
    match spadCheck m s off 8 8 2 5 with
    | some v => (v, s)
    | none =>
      let gen := if clr then 0 else (s.arrivalGen m.gid off).toNat
      let v := bitsOf (s.src m b).toNat 0 24 * 2 ^ 24 + gen * 2 ^ 48
      let s := s.updGroup m.gid fun g => { g with spad := cellsSet g.spad off (leBytes 8 v) }
      (.done, (s.setTag m.gid (off / 8) false).settleWords m.gid [off / 8])) s

/-- EINFO of AWDISARMED (R227). -/
def disarmedInfo (off : Nat) (engine : Bool) : W32 := BitVec.ofNat 32 (off % 2 ^ 20 + if engine then 2 ^ 20 else 0)

/-- AWADD (R232). -/
def execAwadd (q : Ctl) (a b : Opd) (s : State) : Res :=
  runSlot (.awadd q a b) (fun m s =>
    let off := (s.src m a).toNat
    match spadCheck m s off 8 8 2 5 with
    | some v => (v, s)
    | none => match s.arrive m.gid off (s.src m b).toNat with
      | some s => (.done, s)
      | none => (.raise .awdisarmed (disarmedInfo off false), s)) s

/-- AWAIT (R233): D is written when GEN differs from B[15:0]. -/
def execAwait (q : Ctl) (d a b : Opd) (s : State) : Res :=
  runSlot (.await q d a b) (fun m s =>
    let off := (s.src m a).toNat
    match spadCheck m s off 8 8 0 5 with
    | some v => (v, s)
    | none =>
      let gen : BitVec 16 := (s.src m b).setWidth 16
      let cur := s.arrivalGen m.gid off
      if cur ≠ gen then (.done, (s.produce m d 1 (.val [cur.setWidth 32]) none).2)
      else
        let (id, s) := s.produce m d 1 .tagged none
        let w : TagWait := { thread := m.k, word := off / 8, off := off, sz := 8, kind := 3, dst := [], sext := false, data := [], gen := gen, prod := id }
        (.done, s.updGroup m.gid fun g => { g with tagWaits := g.tagWaits ++ [w] })) s

end Sys2Proof.Machine
end

