-- ==== Sys2Proof/Machine/Waits.lean ====
section
/-! DEFINITION. Waits on the counters, on a monitored address and PARK (R250 to R253), with the end of their timers. -/

namespace Sys2Proof.Machine

/-- WAITC (R250): the header's test at any slot, on the thread's own warp. -/
def execWaitc (q : Ctl) (cp mx qu gs : BitVec 4) (s : State) : Res :=
  runSlot (.waitc q cp mx qu gs) (fun m s =>
    let thr := packWait cp.toNat mx.toNat qu.toNat gs.toNat
    if countersOk m.w thr then (.done, s) else (.block ⟨waitCounters, thr, 16⟩, s)) s

/-- Wake the threads of a warp whose counter wait is over: a threshold wait, or a full counter (R85, R86). -/
def State.wakeCounters (s : State) (wid : Nat) : State :=
  match s.warps.find wid with
  | none => s
  | some w => (List.range 64).foldl (fun s lane =>
      s.wakeIf (fun x => x.kind == waitCounters &&
        (if x.place = 16 then countersOk w x.val else decide (w.ctr x.place < 255))) (threadKey wid lane)) s

/-- The deadline of an MWAIT: `now + C` of its first issue, while it is held back before its read (R252). -/
def mwaitEnd (s : State) (m : Self) (c : Opd) : Option Nat :=
  match s.monitors.find m.k with
  | some mon => mon.deadline
  | none => match c with
    | .none => none
    | o => some (s.now m.g.die + (s.src m o).toNat)

/-- MWAIT (R252): one indivisible read at home that arms a monitor on the sector; the wait ends at the next write to the
sector, or at the timeout. Home recalls the line's partials before it reads (R202), and the read follows the core's earlier messages
(R203). -/
def execMwait (q : Ctl) (a b c : Opd) (w64 acq : Bool) (s : State) : Res :=
  runSlot (.mwait q a b c w64 acq) (fun m s =>
    let size := if w64 then 8 else 4
    let va := s.src64 m a
    let mon (armed : Bool) (pa : Nat) : Monitor :=
      { armed := armed, thread := m.k, die := m.g.die, sector := pa / 64, va := va, pa := pa, w64 := w64, cmp := s.srcWide m w64 b, deadline := mwaitEnd s m c }
    if m.t.waitDone then
      let s := s.updThread m.k fun t => { t with waitDone := false, mayFired := false }
      (afterAcq acq m s, s)
    else match s.reach m va kindLoad size (if w64 then 5 else 4) with
      | (.no (.block w), s) => (.block w, { s with monitors := s.monitors.put m.k (mon false 0) })
      | (.no v, s) => (v, { s with monitors := s.monitors.del m.k })
      | (.at_ leaf pa, s) =>
        let s := if Leaf.mode leaf = modeH then s else s.flushSector m.g.die m.g.core (pa / 64) true [] []
        let late := s.overlapPending m.k pa size State.ordLoad || s.linePending m.g.die m.g.core pa
        match if late then (false, s) else s.mayRead (State.threadReader m.k) m.g.die pa with
        | (false, s) =>
          (.block ⟨waitOverlap, BitVec.ofNat 64 (size + 256 * (State.ordLoad.num + 8)), pa⟩, { s with monitors := s.monitors.put m.k (mon false pa) })
        | (true, s) =>
          let s := s.readDone (State.threadReader m.k)
          if bytesW64 (s.memRead m.g.die pa size) ≠ s.srcWide m w64 b then
            let s := { s with monitors := s.monitors.del m.k }
            (afterAcq acq m s, s)
          else (.block ⟨waitMonitor, s.srcWide m w64 b, va.toNat⟩, { s with monitors := s.monitors.put m.k (mon true pa) })) s

/-- The end of a wait of one thread: it goes on at its slot, which finds the wait over. -/
def State.endWait (s : State) (k : Nat) (kind : Nat) : State :=
  (s.updThread k fun t => { t with waitDone := true }).wakeIf (fun w => w.kind == kind) k

/-- MWAIT_TIMEOUT (R252). -/
def execMwaitTimeout (thread : Nat) (s : State) : Res :=
  match s.monitors.find thread with
  | none => finish s
  | some mon => match mon.deadline with
    | none => finish s
    | some t =>
      if mon.armed ∧ t ≤ s.now mon.die then finish ({ s with monitors := s.monitors.del thread }.endWait thread waitMonitor)
      else finish s

/-- The place of a PARK's wait: its opcode, and its delay above it. Mark: DEDUCED (log 65). -/
def parkPlace (delay : Nat) : Nat := 0xB5 + 256 * delay
def isPark (w : Wait) : Bool := w.kind == waitOther && w.place % 256 == 0xB5

/-- PARK (R253): the thread is BLOCKED, with its end in `val`; the group may park meanwhile. -/
def execPark (q : Ctl) (a : Opd) (s : State) : Res :=
  runSlot (.park q a) (fun m s =>
    if m.t.waitDone then clearDone m s
    else (.block ⟨waitOther, BitVec.ofNat 64 (s.now m.g.die + (s.src m a).toNat), parkPlace (s.src m a).toNat⟩, s)) s

/-- PARK_DELAY_END (R253): the delay is over while the group is resident, and the PARK ends without parking. -/
def execParkDelayEnd (thread : Nat) (s : State) : Res :=
  match s.self thread with
  | none => finish s
  | some m => match m.t.st with
    | .blocked w =>
      if isPark w ∧ w.val.toNat ≤ s.now m.g.die ∧ m.g.st = .resident then
        finish (s.endWait thread waitOther)
      else finish s
    | _ => finish s

end Sys2Proof.Machine
end

