-- ==== Sys2Proof/Machine/Tiles.lean ====
section
/-! DEFINITION. Warp-once instructions (R262), the completion reports of the counters (R84), tile handles and the
accumulator's own instructions: THAL, THREL, THGIVE, THINFO, ACCZ and ACCRD (R258 to R275). -/

namespace Sys2Proof.Machine

open Host (Cell)

/-! ## Warp-once instructions (R262) -/

/-- The checks of a warp-once action that an empty source of a member does not hide (R89, R263). -/
def onceSure (i : Instr) (act : Self → List Nat → State → Verdict × State) : Probe := fun bare m s =>
  ((sureOf i (fun m s => act m [m.k] s) bare m s).1, s)

/-- RUN A WARP-ONCE INSTRUCTION: after the checks of every member, one action for each warp, in ascending order of its
lowest physical lane, with the operands of that member. The action's verdict is that of every participating member. -/
def runWarpOnce (i : Instr) (act : Self → List Nat → State → Verdict × State) (s : State) (probe : Probe := onceSure i act) : Res :=
  match s.igroups.find s.focus with
  | none => finish s
  | some ig =>
    let pre := (runMembers i (fun _ s => (.done, s)) probe s ig.members).2
    let parts := pre.filterMap fun e => match e.2 with | .done => some e.1 | _ => none
    let warps := (parts.map (· / 64)).eraseDups
    let r := warps.foldl (fun (a : State × List (Nat × Verdict)) w =>
      let ks := parts.filter fun k => k / 64 == w
      match ks.head?.bind a.1.self with
      | none => a
      | some m => let x := act m ks a.1; (x.2, a.2 ++ ks.map fun k => (k, x.1))) (s, [])
    let vs := pre.map fun e => match e.2 with | .done => (e.1, (Tbl.find r.2 e.1).getD .left) | v => (e.1, v)
    let s1 := ((executed vs).foldl (State.chargeThread i.opcode) r.1).sampleIssue ig vs
    finish (settle s.focus ig s1 vs)

/-! ## Counters and completion reports (R84) -/

namespace Warp
def addCtr (w : Warp) (c n : Nat) : Warp :=
  match c with
  | 0 => { w with cp := w.cp + n }
  | 1 => { w with mx := w.mx + n }
  | 2 => { w with qu := w.qu + n }
  | _ => { w with gs := w.gs + n }
def subCtr (w : Warp) (c n : Nat) : Warp :=
  match c with
  | 0 => { w with cp := w.cp - n }
  | 1 => { w with mx := w.mx - n }
  | 2 => { w with qu := w.qu - n }
  | _ => { w with gs := w.gs - n }
end Warp

/-- The operations that may be reported, and the others: completions are in issue order within a counter. Mark: DEDUCED (log 27). -/
def popDone : List Outst → List Nat → List Outst × List Outst
  | [], _ => ([], [])
  | o :: t, late =>
    if o.done && !late.contains o.ctr then
      let r := popDone t late
      (o :: r.1, r.2)
    else
      let r := popDone t (o.ctr :: late)
      (r.1, o :: r.2)

namespace State

/-- An operation issues for a warp and is counted (R84). -/
def countOp (s : State) (wid ctr op : Nat) : Nat × State :=
  let (seq, s) := s.newId
  (seq, s.updWarp wid fun w => { w.addCtr ctr 1 with outst := w.outst ++ [{ seq := seq, ctr := ctr, op := op, done := false, defer := [] }] })

/-- Report the completions that are next in issue order: the counters fall, deferred causes pass to their threads, and
waits on the counters end (R84, R237). Mark: DEDUCED (log 27). -/
def reportWarp (s : State) (wid : Nat) : State :=
  match s.warps.find wid with
  | none => s
  | some w =>
    let r := popDone w.outst []
    if r.1.isEmpty then s
    else
      let w' := r.1.foldl (fun w o => w.subCtr o.ctr 1) { w with outst := r.2 }
      let s := s.setWarp wid w'
      let s := (r.1.flatMap (·.defer)).foldl (fun s d =>
        s.updThread d.1 fun t => if t.st == .exited then t else { t with deferred := t.deferred ++ [d.2] }) s
      let s := s.wakeCounters wid
      s.wakeAll fun k x => k / 64 == wid && x.kind == waitOther && x.place == 0xC6 && w'.mx == 0 && w'.cp == 0

/-- Operations complete: they are reported when their turn comes. -/
def completeSeqs (s : State) (wid : Nat) (seqs : List Nat) (defer : List (Nat × Cause × W32)) : State :=
  let f (o : Outst) : Outst := if seqs.contains o.seq then { o with done := true, defer := defer } else o
  (s.updWarp wid fun w => { w with outst := w.outst.map f }).reportWarp wid

/-! ## Grants of a shared resource, oldest waiter first (R266, R283) -/

/-- The threads of a core. -/
def coreThreads (s : State) (die core : Nat) : List Self :=
  (s.threads.keys.filterMap s.self).filter fun m => m.g.die == die && m.g.core == core

/-- Grants of a kind outstanding on a core: one for each warp and slot. Mark: DESIGN CHOICE (log 28). -/
def grantsOut (s : State) (die core kind : Nat) : Nat :=
  (((s.coreThreads die core).filter fun m => m.t.grant == kind && (m.t.st == .ready || m.t.st == .issuing)).map
    fun m => (m.t.warp, m.t.pc)).eraseDups.length

def waitsFor (kind : Nat) (m : Self) : Bool := match m.t.st with | .blocked w => w.kind == kind | _ => false

/-- The oldest waiter of a kind on a core: by the clk at which it began to wait, then by lane. Mark: DESIGN CHOICE (log 28). -/
def oldestWaiter (s : State) (die core kind : Nat) : Option Self :=
  ((s.coreThreads die core).filter (waitsFor kind)).foldl (fun b m => match b with
    | none => some m
    | some x => if m.t.waitFrom < x.t.waitFrom ∨ (m.t.waitFrom = x.t.waitFrom ∧ m.physLane < x.physLane) then some m else b) none

/-- Grant the resource to waiters while some is free. Mark: DESIGN CHOICE (log 28). -/
def grantWaiters (s : State) (die core kind : Nat) (free : State → Nat) : Nat → State
  | 0 => s
  | fuel + 1 =>
    if free s ≤ s.grantsOut die core kind then s
    else match s.oldestWaiter die core kind with
      | none => s
      | some x =>
        let mine := (s.coreThreads die core).filter fun m => waitsFor kind m && m.t.warp == x.t.warp && m.t.pc == x.t.pc
        let s := mine.foldl (fun s m => (s.updThread m.k fun t => { t with grant := kind }).ready m.k) s
        s.grantWaiters die core kind free fuel

/-- A warp's threads at a slot give their grant up. -/
def dropGrant (s : State) (m : Self) : State :=
  let f (e : Nat × Thread) : Nat × Thread :=
    if e.1 / 64 == m.t.warp && e.2.pc == m.t.pc then (e.1, { e.2 with grant := 0 }) else e
  { s with threads := s.threads.map f }

/-! ## Handles and physical tiles (R258 to R261) -/

end State

def Handle.free : Handle :=
  { fmt := 0, bl := 0, rows := 0, cols := 0, st := .free, owner := 0, soff := 0, tile := none, saved := [] }
def HState.code : HState → Nat
  | free => 0 | allocated => 1 | loading => 2 | ready => 3 | busy => 4 | released => 5
/-- Whether a tile is bound to the name. -/
def Handle.bound (h : Handle) : Bool := h.st != .free && h.st != .released

/-- The handle record (R259). -/
def Handle.record (h : Handle) : W64 :=
  BitVec.ofNat 64 (h.fmt.toNat + h.bl.toNat * 16 + h.rows.toNat * 256 + h.cols.toNat * 2 ^ 16 + h.st.code * 2 ^ 24 +
    h.owner * 2 ^ 32 + h.soff * 2 ^ 44)

/-- Element width in bits by format (R260). -/
def fmtBits (fmt : BitVec 4) : Nat :=
  match fmt.toNat with
  | 1 => 16 | 2 => 16 | 7 => 16 | 13 => 1 | 14 => 2 | _ => 8
/-- RB (R260). -/
def rowBytes (fmt : BitVec 4) (cols : Byte) : Nat := ((cols.toNat + 1) * fmtBits fmt + 7) / 8
/-- L by BL (R259). -/
def blockLen (bl : BitVec 2) : Nat := match bl.toNat with | 1 => 16 | 2 => 32 | _ => 64
/-- Scale bytes of a row (R260). -/
def rowScales (bl : BitVec 2) (cols : Byte) : Nat := (cols.toNat + 1 + blockLen bl - 1) / blockLen bl

namespace State

def handle (s : State) (gid h : Nat) : Handle :=
  match s.groups.find gid with
  | some g => g.handles.getD h Handle.free
  | none => Handle.free
def setHandle (s : State) (gid h : Nat) (x : Handle) : State :=
  s.updGroup gid fun g => { g with handles := g.handles.putD h Handle.free x }

def tile (s : State) (die core t : Nat) : Tile := s.tiles.getD (tileKey die core t) { bytes := [], writers := [], readers := [] }
def updTile (s : State) (die core t : Nat) (f : Tile → Tile) : State :=
  { s with tiles := s.tiles.put (tileKey die core t) (f (s.tile die core t)) }

/-- Whether an operation in flight uses a tile (R261). -/
def tileUsed (s : State) (die core t : Nat) : Bool :=
  let x := s.tile die core t
  !(x.writers.isEmpty && x.readers.isEmpty)

/-- Whether a handle of a group on the core names the tile. -/
def tileNamed (s : State) (die core t : Nat) : Bool :=
  s.groups.vals.any fun g => g.die == die && g.core == core && g.holds && g.handles.vals.any fun h => h.tile == some t

/-- The free pool of a core (R258). -/
def freeTiles (s : State) (die core : Nat) : List Nat :=
  (List.range 128).filter fun t => !(s.tileNamed die core t || s.tileUsed die core t)

/-- Waiting THALs take returning tiles, oldest waiter first (R266). Mark: DESIGN CHOICE (log 28). -/
def serveTiles (s : State) (die core : Nat) : State :=
  s.grantWaiters die core waitTile (fun s => (s.freeTiles die core).length) (s.threads.length + 1)

/-- A tile that nothing names or uses is cleared and returns to the pool (R258). -/
def returnTile (s : State) (die core t : Nat) : State :=
  if s.tileNamed die core t || s.tileUsed die core t then s
  else ({ s with tiles := s.tiles.del (tileKey die core t) }).serveTiles die core

/-- The state of a name after its tile's users have changed (R261). -/
def settleHandle (x : Tile) (h : Handle) : Handle :=
  match h.st with
  | .released => if x.writers.isEmpty && x.readers.isEmpty then Handle.free else h
  | .loading => if x.writers.isEmpty then { h with st := .ready } else h
  | .busy => if x.readers.isEmpty then { h with st := .ready } else h
  | _ => h

/-- A name of the core has changed its state: the threads that wait on the handle scoreboard look again (R110, R264). -/
def wakeScore (s : State) (die core : Nat) : State := s.wakeAll fun k w => w.kind == waitScore && s.onCore die core k

/-- An operation ends its use of the tiles of a core (R261). -/
def endUser (s : State) (die core op : Nat) : State :=
  let mine := (List.range 128).filter fun t =>
    let x := s.tile die core t
    x.writers.contains op || x.readers.contains op
  mine.foldl (fun s t =>
    let s := s.updTile die core t fun x => { x with writers := x.writers.filter (· != op), readers := x.readers.filter (· != op) }
    let x := s.tile die core t
    let one (h : Nat × Handle) : Nat × Handle := (h.1, if h.2.tile == some t then settleHandle x h.2 else h.2)
    let f (e : Nat × Group) : Nat × Group :=
      if e.2.die == die && e.2.core == core then
        (e.1, { e.2 with handles := (e.2.handles.map one).filter fun h => h.2 != Handle.free })
      else e
    let s := { s with groups := s.groups.map f }
    (s.returnTile die core t).wakeScore die core) s

/-- Release a name (R267, R275). -/
def releaseName (s : State) (gid h : Nat) : State :=
  match s.groups.find gid with
  | none => s
  | some g =>
    let r := s.handle gid h
    let s := match r.tile with
      | none => s.setHandle gid h Handle.free
      | some t =>
        if s.tileUsed g.die g.core t then s.setHandle gid h { Handle.free with st := .released, tile := some t }
        else (s.setHandle gid h Handle.free).returnTile g.die g.core t
    s.wakeScore g.die g.core

end State

/-- EINFO of the handle causes (R265). -/
def handleInfo (h : Nat) (r : Handle) (reason : Nat) : W32 :=
  BitVec.ofNat 32 (h + r.st.code * 16 + (if r.bound then r.owner else 0) * 128 + reason * 2 ^ 16)

/-- The checks of R263. -/
def handleCheck (m : Self) (s : State) (h : Nat) : Option Verdict :=
  let r := s.handle m.gid h
  if !r.bound then some (.raise .hndrel (handleInfo h r 0))
  else if r.owner ≠ m.w.num then some (.raise .hndown (handleInfo h r 0))
  else none

/-- A wait on the handle scoreboard (R264). -/
def scoreWait (h : Nat) : Verdict := .block ⟨waitScore, 0, h⟩

/-! ## Handle instructions -/

/-- The checks of a THAL descriptor (R266). -/
def descCheck (m : Self) (h : Nat) (r : Handle) (a b : Nat) : Option Verdict :=
  let fmt : BitVec 4 := BitVec.ofNat 4 a
  let bl := bitsOf a 4 2
  let rows := bitsOf a 8 8 + 1
  let cols : Byte := BitVec.ofNat 8 (bitsOf a 16 8)
  if !([1, 2, 3, 4, 5, 6, 7, 13, 14].contains fmt.toNat) then some (.raise .hndfmt (handleInfo h r 0))
  else if bitsOf a 24 8 ≠ 0 ∨ bitsOf a 6 2 ≠ 0 then some (.raise .hndfmt (handleInfo h r 3))
  else if 4096 < rows * rowBytes fmt cols then some (.raise .hndfmt (handleInfo h r 1))
  else if bl ≠ 0 ∧ !([3, 4, 5, 6].contains fmt.toNat) then some (.raise .hndfmt (handleInfo h r 2))
  else if bl ≠ 0 ∧ m.l.spad < b + rows * rowScales (BitVec.ofNat 2 bl) cols then some (spadRange b)
  else none

/-- Write a predicate in every participating member (R262). -/
def setPreds (s : State) (ks : List Nat) (p : PredNo) (b : Bool) : State :=
  ks.foldl (fun s k => s.updThread k fun t => t.setPred p b) s

/-- THAL (R266). -/
def execThal (q : Ctl) (d a b : Opd) (sf : Bool) (ps : PredNo) (s : State) : Res :=
  runWarpOnce (.thal q d a b sf ps) (fun m ks s =>
    let h := handleOf d
    let r := s.handle m.gid h
    let av := (s.src m a).toNat
    let bv := (s.src m b).toNat
    let die := m.g.die
    let core := m.g.core
    let granted := m.t.grant == waitTile
    let stop (v : Verdict) : Verdict × State :=
      (v, if granted then (s.dropGrant m).serveTiles die core else s)
    if r.bound ∧ r.owner ≠ m.w.num then stop (.raise .hndown (handleInfo h r 0))
    else match descCheck m h r av bv with
      | some v => stop v
      | none =>
        let free := s.freeTiles die core
        if granted ∨ s.grantsOut die core waitTile < free.length then
          match free with
          | [] => (.block ⟨waitTile, 0, h⟩, s.dropGrant m)
          | t :: _ =>
            let s := s.dropGrant m
            let bl : BitVec 2 := BitVec.ofNat 2 (bitsOf av 4 2)
            let new : Handle := { fmt := BitVec.ofNat 4 av, bl := bl, rows := BitVec.ofNat 8 (bitsOf av 8 8), cols := BitVec.ofNat 8 (bitsOf av 16 8), st := .allocated, owner := m.w.num, soff := if bl = 0 then 0 else bv, tile := some t, saved := [] }
            let s := (s.setHandle m.gid h new).wakeScore die core
            let s := match r.tile with
              | some old => s.returnTile die core old
              | none => s
            (.done, if sf then setPreds s ks ps true else s)
        else if sf then (.done, setPreds s ks ps false)
        else (.block ⟨waitTile, 0, h⟩, s)) s

/-- THREL (R267). -/
def execThrel (q : Ctl) (a : Opd) (s : State) : Res :=
  runWarpOnce (.threl q a) (fun m _ s =>
    match handleCheck m s (handleOf a) with
    | some v => (v, s)
    | none => (.done, s.releaseName m.gid (handleOf a))) s

/-- THGIVE (R268). -/
def execThgive (q : Ctl) (a b : Opd) (s : State) : Res :=
  runWarpOnce (.thgive q a b) (fun m _ s =>
    let h := handleOf a
    let r := s.handle m.gid h
    let target := (s.src m b).toNat
    match handleCheck m s h with
    | some v => (v, s)
    | none =>
      if r.st = .busy then (scoreWait h, s)
      else if (s.groupWarps m.gid).any fun w => w.2.num == target then (.done, s.setHandle m.gid h { r with owner := target })
      else (.raise .hndown (handleInfo h r 1), s)) s (fun _ m s => (causeOnly (handleCheck m s (handleOf a)), s))

/-- THINFO (R269). -/
def execThinfo (q : Ctl) (d a : Opd) (s : State) : Res :=
  runAlu (.thinfo q d a) (fun s m => m.t.write d (pairWords (s.handle m.gid (handleOf a)).record)) s

/-! ## The accumulator (R271, R272, R274) -/

def cellKey (row col : Nat) : Nat := row * 512 + col
/-- A group's cell. -/
def State.accGet (s : State) (gid row col : Nat) : W32 :=
  match s.groups.find gid with
  | some g => g.acc.getD (cellKey row col) 0
  | none => 0
def State.accSet (s : State) (gid row col : Nat) (v : W32) : State :=
  s.updGroup gid fun g => { g with acc := g.acc.putD (cellKey row col) 0 v }

def coordRow (c : W32) : Nat := bitsOf c.toNat 16 16
def coordCol (c : W32) : Nat := bitsOf c.toNat 0 16

/-- The range check of R271. -/
def accCheck (m : Self) (c : W32) (nr nc : Nat) : Option Verdict :=
  if m.l.rows < coordRow c + nr ∨ 512 < coordCol c + nc then some (.raise .accrange c) else none

/-- ACCZ (R272). -/
def execAccz (q : Ctl) (a b : Opd) (s : State) : Res :=
  runWarpOnce (.accz q a b) (fun m _ s =>
    let c := s.src m a
    let x := s.src m b
    match accCheck m c (coordRow x) (coordCol x) with
    | some v => (v, s)
    | none =>
      if m.w.mx ≠ 0 ∨ m.w.cp ≠ 0 then (.block ⟨waitOther, 0, 0xC6⟩, s)
      else
        let inside (k : Nat) : Bool :=
          decide (coordRow c ≤ k / 512) && decide (k / 512 < coordRow c + coordRow x) &&
          decide (coordCol c ≤ k % 512) && decide (k % 512 < coordCol c + coordCol x)
        (.done, s.updGroup m.gid fun g => { g with acc := g.acc.filter fun e => !inside e.1 })) s

/-- Cells that ACCRD reads (R274). -/
def accCells (n : BitVec 2) : Nat := match n.toNat with | 0 => 1 | 1 => 2 | _ => 4

/-- ACCRD (R274). -/
def execAccrd (q : Ctl) (d a : Opd) (n : BitVec 2) (s : State) : Res :=
  runSlot (.accrd q d a n) (fun m s =>
    let c := s.src m a
    match accCheck m c 1 (accCells n) with
    | some v => (v, s)
    | none =>
      let ws := (List.range (accCells n)).map fun i => s.accGet m.gid (coordRow c) (coordCol c + i)
      (.done, (s.produce m d ws.length (.val ws) none).2)) s

end Sys2Proof.Machine
end

