-- ==== Sys2Proof/Machine/Engine.lean ====
section
/-! DEFINITION. The copy, gather and scatter engine (R234 to R241): CPY, CPYN, CPYX, CPYP, GATH, SCAT, the tile
transfers CPYT and THST (R270), ACCLD and ACCST (R273), and the engine's own steps. -/

namespace Sys2Proof.Machine

open Host (Cell)

/-! ## The bytes of a transfer -/

/-- Where one destination byte comes from: a source byte, one code of a packed DT6 group, or one byte of a group
packed from the first `n` of four codes (R50, R239). -/
inductive Feed where
  | copy (a : Nat)
  | unpack (base j : Nat)
  | pack (base n b : Nat)
  deriving DecidableEq, Repr

namespace Feed
/-- The source addresses that a byte needs. -/
def needs : Feed → List Nat
  | copy a => [a]
  | unpack base _ => [base, base + 1, base + 2]
  | pack base n _ => (List.range n).map (base + ·)
/-- The byte, given its source bytes. -/
def value (rd : Nat → Byte) : Feed → Byte
  | copy a => rd a
  | unpack base j => BitVec.ofNat 8 (bitsOf (leNat [rd base, rd (base + 1), rd (base + 2)]) (6 * j) 6)
  | pack base n b =>
    let code (j : Nat) : Nat := if j < n then (rd (base + j)).toNat % 64 else 0x1B
    BitVec.ofNat 8 (bitsOf (code 0 + code 1 * 2 ^ 6 + code 2 * 2 ^ 12 + code 3 * 2 ^ 18) (8 * b) 8)
end Feed

/-- An address in a place: die addresses are n64. A scratchpad address does not wrap: one below 0 or from 2^32 up lies outside
every allocation, and stays so here. -/
def wrapPlace (p : Place) (x : Int) : Nat :=
  match p with
  | .die => (x % 2 ^ 64).toNat
  | .spad => if x < 0 then 2 ^ 32 + (x % 2 ^ 32).toNat else x.toNat
  | _ => x.toNat

namespace Transfer

/-- DT6 packed bytes of `n` codes (R50). -/
def packedLen (n : Nat) : Nat := 3 * ((n + 3) / 4)
/-- Whether the outside rows of a tile transfer are packed DT6 (R270). -/
def packed (t : Transfer) : Bool := t.fmt == 6 && (t.dpl == .die || t.spl == .die)
/-- The index of element `i` of a gather or scatter. -/
def element (t : Transfer) (i : Nat) : Int := ((t.index.getD [])[i]?).getD 0

/-- The destination address of row `r`. -/
def rowDst (t : Transfer) (r : Nat) : Nat :=
  match t.kind with
  | .cpyt => r * t.len
  | .accld => (coordRow t.coord + r) * 2048 + coordCol t.coord * 4
  | .gath => wrapPlace t.dpl (t.dst + t.esz * r)
  | .scat => wrapPlace t.dpl (t.dst + t.element r * t.esz)
  | _ => wrapPlace t.dpl (t.dst + t.dstr * r)

/-- The source address of row `r`. -/
def rowSrc (t : Transfer) (r : Nat) : Nat :=
  match t.kind with
  | .thst => r * t.len
  | .accst => (coordRow t.coord + r) * 2048 + coordCol t.coord * 4
  | .scat => wrapPlace t.spl (t.src + t.esz * r)
  | .gath => wrapPlace t.spl (t.src + t.element r * t.esz)
  | _ => wrapPlace t.spl (t.src + t.sstr * r)

/-- Destination bytes of a row. -/
def rowLen (t : Transfer) : Nat :=
  match t.kind with
  | .cpyp => packedLen t.len
  | .gath => t.esz
  | .scat => t.esz
  | .thst => if t.packed then packedLen t.len else t.len
  | .accld => 4 * t.len
  | .accst => 4 * t.len
  | _ => t.len

/-- Byte `i` of row `r`. -/
def feed (t : Transfer) (r i : Nat) : Feed :=
  let src := t.rowSrc r
  match t.kind with
  | .cpyx => .unpack (src + 3 * (i / 4)) (i % 4)
  | .cpyp => .pack (src + 4 * (i / 3)) (min 4 (t.len - 4 * (i / 3))) (i % 3)
  | .cpyt => if t.packed then .unpack (src + 3 * (i / 4)) (i % 4) else .copy (src + i)
  | .thst => if t.packed then .pack (src + 4 * (i / 3)) (min 4 (t.len - 4 * (i / 3))) (i % 3) else .copy (src + i)
  | _ => .copy (src + i)

/-- The blocks that a row touches: a gathered element belongs to the block of its first byte. -/
def rowBlocks (t : Transfer) (r : Nat) : List Nat :=
  let d := t.rowDst r
  if t.rowLen = 0 then []
  else if t.kind = .gath then [d / 64]
  else (List.range ((d + t.rowLen - 1) / 64 - d / 64 + 1)).map (d / 64 + ·)

/-- The chunks of a transfer, by 64-byte block of the destination (R235). Mark: DESIGN CHOICE (log 18). -/
def blocks (t : Transfer) : List Nat := ((List.range t.rows).flatMap t.rowBlocks).eraseDups

/-- The bytes of one chunk, in row order: destination address and source. Mark: DESIGN CHOICE (log 18). -/
def chunk (t : Transfer) (b : Nat) : List (Nat × Feed) :=
  (List.range t.rows).flatMap fun r =>
    let d := t.rowDst r
    let n := t.rowLen
    if t.kind = .gath then (if d / 64 = b then (List.range n).map fun i => (d + i, t.feed r i) else [])
    else
      let lo := 64 * b - d
      let hi := min n (64 * b + 64 - d)
      (List.range (hi - lo)).map fun i => (d + lo + i, t.feed r (lo + i))

/-- All destination bytes (R239, R240: the arrival bytes). -/
def total (t : Transfer) : Nat := t.rows * t.rowLen

end Transfer

/-! ## Issue: captured operands and the checks of R236 -/

/-- The arrival word of a transfer (R239). -/
def awOf (c : Opd) (m : Self) (s : State) : Option Nat :=
  match c with
  | .none => none
  | o => some (s.src m o).toNat

/-- The scratchpad ranges of a transfer, in the order source, destination, index list, arrival word: one for each row, and one for
the elements of a gather or scatter, which lie side by side; ranges of no byte are not named (R227, R236). Mark: DEDUCED (log 20). -/
def spadRanges (t : Transfer) : List (Nat × Nat) :=
  let rows := if t.rowLen = 0 then [] else List.range t.rows
  let srcLen := match t.kind with
    | .cpyx => Transfer.packedLen t.len
    | .cpyp => t.len
    | _ => t.rowLen
  let src := if t.spl ≠ .spad then [] else if t.kind = .scat then (if t.rows = 0 then [] else [(t.src, t.esz * t.rows)])
    else rows.map fun r => (t.rowSrc r, srcLen)
  let dst := if t.dpl ≠ .spad then [] else if t.kind = .gath then (if t.rows = 0 then [] else [(t.dst, t.esz * t.rows)])
    else rows.map fun r => (t.rowDst r, t.rowLen)
  let ix := if (t.kind = .gath ∨ t.kind = .scat) ∧ t.rows ≠ 0 then [(t.ix, 4 * t.rows)] else []
  let aw := match t.aw with | some w => [(w, 8)] | none => []
  src ++ dst ++ ix ++ aw

/-- The checks of R236 and the wait for a pending AWAIT (R226). Mark: DEDUCED (log 20). -/
def transferCheck (t : Transfer) (m : Self) (s : State) : Option Verdict :=
  let aw := t.aw.getD 0
  if aw % 8 ≠ 0 then some (spadMisalign 2 5 aw)
  else match (spadRanges t).find? fun r => decide (m.l.spad < r.1 + r.2) with
    | some r => some (spadRange r.1)
    | none =>
      if (spadRanges t).isEmpty then none
      else (s.pendingAwait m).map awaitWait

/-- The part of a transfer that its full fields give: ranges that an empty field would name, or shape, are left out, but for the first
row of one whose stride alone is empty (R89). -/
def Transfer.known (t : Transfer) (bare : List Fld) (dst src count stride : Fld) : Transfer :=
  let out (f : Fld) : Bool := bare.contains f
  { t with
    aw := if out .c then none else t.aw, dpl := if out dst then .die else t.dpl, spl := if out src then .die else t.spl,
    rows := if out count then 0 else if out stride then min t.rows 1 else t.rows }

/-- A transfer with nothing in it. -/
def Transfer.blank (m : Self) (kind : XKind) : Transfer :=
  { thread := m.k, lane := m.t.lane, kind := kind, dpl := .die, spl := .die, dst := 0, src := 0, len := 0, rows := 1,
    sstr := 0, dstr := 0, esz := 1, tile := 0, fmt := 0, coord := 0, clr := false, aw := none, ix := 0, index := none,
    written := [], done := [], arrived := 0, skip := 0, added := 0, bad := false, kept := [] }

/-- An address operand of a place. -/
def addrOf (p : Place) (o : Opd) (m : Self) (s : State) : Nat :=
  if p = .die then (s.src64 m o).toNat else (s.src m o).toNat

/-- Record an operation of one warp (R234). -/
def State.addOp (s : State) (i : Instr) (m : Self) (pc : W64) (lanes : List Nat) (handle : Option Nat) (ts : List Transfer) : Nat × State :=
  let (id, s) := s.newId
  let ctr := (counterOf i).getD 0
  let (seq, s) := s.countOp m.t.warp ctr id
  let op : EngOp := { die := m.g.die, core := m.g.core, ctx := m.g.ctx, group := m.gid, warp := m.t.warp, ctr := ctr, seq := seq, handle := handle, word := s.word, pc := pc, lanes := listMask lanes, transfers := ts, started := false, held := false, snap := none }
  (id, { s with engOps := s.engOps.put id op })

/-- Run a copy, gather or scatter: each member is one transfer, and the members of a warp whose transfers pass their
checks form one operation (R234, R236). Mark: DEDUCED (log 19). -/
def runCopy (i : Instr) (mk : Self → State → Transfer) (s : State) : Res :=
  runSlotBy i (fun m s => ((transferCheck (mk m s) m s).getD .done, s))
    (fun bare m s => (causeOnly (transferCheck ((mk m s).known bare .d .a .b .b) m s), s)) (fun ig did s =>
    (did.map (· / 64)).eraseDups.foldl (fun s w =>
      let ms := (did.filter fun k => k / 64 == w).filterMap s.self
      match ms with
      | [] => s
      | m :: _ => (s.addOp i m ig.pc (ms.map (·.t.lane)) none (ms.map fun m => mk m s)).2) s) s

/-- The places of DIR (R239). -/
def dirDst (dir : BitVec 2) : Place := if dir.getLsbD 0 then .die else .spad
def dirSrc (dir : BitVec 2) : Place := if dir = 0 ∨ dir = 3 then .die else .spad

/-- CPY (R239). -/
def execCpy (q : Ctl) (d a b c : Opd) (dir : BitVec 2) (s : State) : Res :=
  runCopy (.cpy q d a b c dir) (fun m s =>
    let t := Transfer.blank m .cpy
    { t with dpl := dirDst dir, spl := dirSrc dir, dst := addrOf (dirDst dir) d m s, src := addrOf (dirSrc dir) a m s, len := (s.src m b).toNat, aw := awOf c m s }) s

/-- CPYN (R239). -/
def execCpyn (q : Ctl) (d a b c : Opd) (dir : BitVec 2) (s : State) : Res :=
  runCopy (.cpyn q d a b c dir) (fun m s =>
    let t := Transfer.blank m .cpyn
    let f := s.srcRun m b 4
    { t with dpl := dirDst dir, spl := dirSrc dir, dst := addrOf (dirDst dir) d m s, src := addrOf (dirSrc dir) a m s, len := (f.getD 0 0).toNat, rows := (f.getD 1 0).toNat, sstr := (f.getD 2 0).toInt, dstr := (f.getD 3 0).toInt, aw := awOf c m s }) s

/-- CPYX (R239). -/
def execCpyx (q : Ctl) (d a b c : Opd) (sp : Bool) (s : State) : Res :=
  runCopy (.cpyx q d a b c sp) (fun m s =>
    let t := Transfer.blank m .cpyx
    let spl : Place := if sp then .spad else .die
    { t with dpl := .spad, spl := spl, dst := addrOf .spad d m s, src := addrOf spl a m s, len := (s.src m b).toNat, aw := awOf c m s }) s

/-- CPYP (R239). -/
def execCpyp (q : Ctl) (d a b c : Opd) (sp : Bool) (s : State) : Res :=
  runCopy (.cpyp q d a b c sp) (fun m s =>
    let t := Transfer.blank m .cpyp
    let dpl : Place := if sp then .spad else .die
    { t with dpl := dpl, spl := .spad, dst := addrOf dpl d m s, src := addrOf .spad a m s, len := (s.src m b).toNat, aw := awOf c m s }) s

/-- GATH (R240). -/
def execGath (q : Ctl) (d a b c : Opd) (esz : BitVec 3) (s : State) : Res :=
  runCopy (.gath q d a b c esz) (fun m s =>
    let t := Transfer.blank m .gath
    let f := s.srcRun m b 2
    { t with dpl := .spad, spl := .die, dst := addrOf .spad d m s, src := addrOf .die a m s, ix := (f.getD 0 0).toNat, rows := (f.getD 1 0).toNat, esz := 2 ^ esz.toNat, aw := awOf c m s }) s

/-- SCAT (R240). -/
def execScat (q : Ctl) (d a b c : Opd) (esz : BitVec 3) (s : State) : Res :=
  runCopy (.scat q d a b c esz) (fun m s =>
    let t := Transfer.blank m .scat
    let f := s.srcRun m b 2
    { t with dpl := .die, spl := .spad, dst := addrOf .die d m s, src := addrOf .spad a m s, ix := (f.getD 0 0).toNat, rows := (f.getD 1 0).toNat, esz := 2 ^ esz.toNat, aw := awOf c m s }) s

/-! ## Tile transfers (R270) and the accumulator's transfers (R273) -/

/-- The transfer of CPYT (R270). -/
def cpytXfer (d a b : Opd) (sp : Bool) (m : Self) (s : State) : Transfer :=
  let r := s.handle m.gid (handleOf d)
  let spl : Place := if sp then .spad else .die
  { Transfer.blank m .cpyt with dpl := .tile, spl := spl, src := addrOf spl a m s, len := rowBytes r.fmt r.cols, rows := r.rows.toNat + 1, sstr := (s.src m b).toNat, tile := r.tile.getD 0, fmt := r.fmt }
/-- The transfer of THST (R270). -/
def thstXfer (d a b : Opd) (sp : Bool) (m : Self) (s : State) : Transfer :=
  let r := s.handle m.gid (handleOf a)
  let dpl : Place := if sp then .spad else .die
  { Transfer.blank m .thst with dpl := dpl, spl := .tile, dst := addrOf dpl d m s, len := rowBytes r.fmt r.cols, rows := r.rows.toNat + 1, dstr := (s.src m b).toNat, tile := r.tile.getD 0, fmt := r.fmt }
/-- The transfer of ACCLD (R273). -/
def accldXfer (d a b c : Opd) (sp : Bool) (m : Self) (s : State) : Transfer :=
  let x := s.src m b
  let spl : Place := if sp then .spad else .die
  { Transfer.blank m .accld with dpl := .acc, spl := spl, src := addrOf spl a m s, len := coordCol x, rows := coordRow x, sstr := (s.src m c).toNat, coord := s.src m d }
/-- The transfer of ACCST (R273). -/
def accstXfer (d a b c : Opd) (sp clr : Bool) (m : Self) (s : State) : Transfer :=
  let x := s.src m b
  let dpl : Place := if sp then .spad else .die
  { Transfer.blank m .accst with dpl := dpl, spl := .acc, dst := addrOf dpl d m s, len := coordCol x, rows := coordRow x, dstr := (s.src m c).toNat, coord := s.src m a, clr := clr }

/-- The checks of a tile transfer that no empty field hides: its name, and its ranges as far as its full fields give them (R89, R263). -/
def tileSure (h : Nat) (t : Self → State → Transfer) : Probe := fun bare m s =>
  (causeOnly (match handleCheck m s h with
    | some v => some v
    | none => transferCheck ((t m s).known bare .d .a .c .b) m s), s)

/-- CPYT (R270). -/
def execCpyt (q : Ctl) (d a b : Opd) (sp : Bool) (s : State) : Res :=
  runWarpOnce (.cpyt q d a b sp) (fun m ks s =>
    let h := handleOf d
    let r := s.handle m.gid h
    match handleCheck m s h with
    | some v => (v, s)
    | none =>
      let t := cpytXfer d a b sp m s
      match transferCheck t m s with
      | some v => (v, s)
      | none =>
        if r.st = .busy then (scoreWait h, s)
        else
          let (id, s) := s.addOp (.cpyt q d a b sp) m m.t.pc (ks.map (· % 64)) (some h) [t]
          let s := s.updTile m.g.die m.g.core t.tile fun x => { x with writers := x.writers ++ [id] }
          (.done, s.setHandle m.gid h { r with st := .loading })) s (tileSure (handleOf d) (cpytXfer d a b sp))

/-- THST (R270). -/
def execThst (q : Ctl) (d a b : Opd) (sp : Bool) (s : State) : Res :=
  runWarpOnce (.thst q d a b sp) (fun m ks s =>
    let h := handleOf a
    let r := s.handle m.gid h
    match handleCheck m s h with
    | some v => (v, s)
    | none =>
      let t := thstXfer d a b sp m s
      match transferCheck t m s with
      | some v => (v, s)
      | none =>
        if r.st = .loading then (scoreWait h, s)
        else
          let (id, s) := s.addOp (.thst q d a b sp) m m.t.pc (ks.map (· % 64)) (some h) [t]
          let s := s.updTile m.g.die m.g.core t.tile fun x => { x with readers := x.readers ++ [id] }
          (.done, s.setHandle m.gid h { r with st := .busy })) s (tileSure (handleOf a) (thstXfer d a b sp))

/-- The checks of ACCLD and ACCST: MISALIGN comes before ACCRANGE and SPADRANGE in priority (R89, R364). -/
def accXferCheck (t : Transfer) (addr stride : Nat) (kind : Nat) (x : W32) (m : Self) (s : State) : Option Verdict :=
  if addr % 4 ≠ 0 ∨ stride % 4 ≠ 0 then some (.cause .misalign (misalignInfo kind 4) (BitVec.ofNat 64 addr))
  else match accCheck m t.coord (coordRow x) (coordCol x) with
    | some v => some v
    | none => transferCheck t m s

/-- The checks of ACCLD and ACCST that no empty field hides (R89): `addr` and `coord` name the fields of address and coordinate. -/
def accSure (kind : Nat) (addr coord : Fld) (at_ stride : Self → State → Nat) (b : Opd) (t : Self → State → Transfer) : Probe := fun bare m s =>
  let out (f : Fld) : Bool := bare.contains f
  let n := if out .c then 0 else stride m s
  (causeOnly (
    if out addr = false ∧ (at_ m s % 4 ≠ 0 ∨ n % 4 ≠ 0) then some (.cause .misalign (misalignInfo kind 4) (BitVec.ofNat 64 (at_ m s)))
    else match if out coord || out .b then none else accCheck m (t m s).coord (coordRow (s.src m b)) (coordCol (s.src m b)) with
      | some v => some v
      | none => transferCheck { (t m s).known (bare.filter (· != .c)) addr addr .b .b with rows := if out .b then 0 else if out .c then min (t m s).rows 1 else (t m s).rows } m s), s)

/-- ACCLD (R273). -/
def execAccld (q : Ctl) (d a b c : Opd) (sp : Bool) (s : State) : Res :=
  runWarpOnce (.accld q d a b c sp) (fun m ks s =>
    let t := accldXfer d a b c sp m s
    match accXferCheck t (addrOf (if sp then .spad else .die) a m s) (s.src m c).toNat 4 (s.src m b) m s with
    | some v => (v, s)
    | none => (.done, (s.addOp (.accld q d a b c sp) m m.t.pc (ks.map (· % 64)) none [t]).2)) s
    (accSure 4 .a .d (addrOf (if sp then .spad else .die) a) (fun m s => (s.src m c).toNat) b (accldXfer d a b c sp))

/-- ACCST (R273). -/
def execAccst (q : Ctl) (d a b c : Opd) (sp clr : Bool) (s : State) : Res :=
  runWarpOnce (.accst q d a b c sp clr) (fun m ks s =>
    let t := accstXfer d a b c sp clr m s
    match accXferCheck t (addrOf (if sp then .spad else .die) d m s) (s.src m c).toNat 5 (s.src m b) m s with
    | some v => (v, s)
    | none => (.done, (s.addOp (.accst q d a b c sp clr) m m.t.pc (ks.map (· % 64)) none [t]).2)) s
    (accSure 5 .d .a (addrOf (if sp then .spad else .die) d) (fun m s => (s.src m c).toNat) b (accstXfer d a b c sp clr))

/-! ## The engine's steps -/

/-- ENGINE_START (R234): the next operation in issue order; a gather or scatter reads its index lists. -/
def execEngineStart (die core : Nat) (s : State) : Res :=
  match s.engOps.find? fun e => e.2.die == die && e.2.core == core && !e.2.started && !e.2.held with
  | none => finish s
  | some (id, op) =>
    let indexed (t : Transfer) : Transfer :=
      if t.kind = .gath ∨ t.kind = .scat then
        { t with index := some ((bytesWords t.rows (s.spadRead op.group t.ix (4 * t.rows))).map BitVec.toInt) }
      else t
    finish { s with engOps := s.engOps.put id { op with started := true, transfers := op.transfers.map indexed } }

/-- A sector that a chunk reads or writes: its virtual number, its leaf and its physical address. -/
structure Sect where
  va   : Nat
  leaf : W64
  pa   : Nat
  lo   : Nat
  hi   : Nat
  deriving DecidableEq, Repr

/-- What the translation of a chunk's sectors comes to. -/
inductive Sects where
  | ok (l : List Sect)
  | locked
  | fault (c : Cause) (info : W32) (va : Nat)
  | beyond
  deriving DecidableEq, Repr

namespace State

/-- Translate the sectors of a list of virtual byte addresses, in order. -/
def sectors (s : State) (op : EngOp) (vdie vcore kind : Nat) (addrs : List Nat) : List Nat → Sects × State
  | [] => (.ok [], s)
  | v :: vs =>
    let mine := addrs.filter fun a => a / 64 == v
    let lo := mine.foldl min (64 * v + 63)
    let hi := mine.foldl max lo
    match s.walkNow op.die op.ctx vdie lo kind (some vcore) with
    | (.hit leaf pa, s) => match s.sectors op vdie vcore kind addrs vs with
      | (.ok l, s) => (.ok ({ va := v, leaf := leaf, pa := pa / 64 * 64, lo := lo % 64, hi := hi % 64 } :: l), s)
      | r => r
    | (.cause c i, s) => (.fault c i lo, s)
    | (.locked, s) => (.locked, s)
    | (_, s) => (.beyond, s)

/-- Whether home is ready for an engine access to a sector, as an access with `h=bypass` (R199, R234): in an H page the partials of
the line's holders are combined and performed; in an S or P page the issuing core's dirty bytes have been written back. Starts the
recall or the write-back that is missing (R202). -/
def sectorReady (s : State) (id : Nat) (op : EngOp) (k : Nat) (write : Bool) (x : Sect) : Bool × State :=
  let pa := x.pa
  let late := s.overlapPending k (pa + x.lo) (x.hi - x.lo + 1) (if write then ordAtomic else ordLoad)
  if Leaf.mode x.leaf = modeH then
    let r := s.mayRead (engineReader id) op.die pa
    (r.1 && !late, r.2)
  else
    let s := s.flushSector op.die op.core (pa / 64) true [] []
    let coming := s.wbacks.vals.any fun b => b.die == op.die && b.core == op.core && b.bytes.any fun c => c.1 / 64 == pa / 64
    (!(late || coming), s)

def sectorsReady (s : State) (id : Nat) (op : EngOp) (k : Nat) (write : Bool) : List Sect → Bool × State
  | [] => (true, s)
  | x :: xs =>
    let r := s.sectorReady id op k write x
    let rest := r.2.sectorsReady id op k write xs
    (r.1 && rest.1, rest.2)

/-- The engine abandons an operation: it is replayable, and starts again at resume (R188, R238). -/
def holdOp (s : State) (id : Nat) : State :=
  let f (t : Transfer) : Transfer := { t with index := none, written := [], done := [], skip := t.added, arrived := 0 }
  { s with engOps := s.engOps.upd id fun op => { op with started := false, held := true, transfers := op.transfers.map f } }.readDone (engineReader id)

/-- A cause that the engine charges to the issuing warp (R188, R374). -/
def chargeCause (s : State) (id : Nat) (op : EngOp) (c : Cause) (info : W32) (faddr : W64) : State :=
  let lane := (maskList op.lanes).head?.getD 0
  (s.holdOp id).chargeWarp op.warp lane c info faddr op.pc

/-- A source byte of a transfer. -/
def placeByte (s : State) (op : EngOp) (t : Transfer) (secs : List Sect) (a : Nat) : Byte :=
  match t.spl with
  | .die => match secs.find? fun x => x.va == a / 64 with
    | some x => s.memGet op.die (x.pa + a % 64)
    | none => 0
  | .spad => (s.spadRead op.group a 1).head?.getD 0
  | .tile => cellGet (s.tile op.die op.core t.tile).bytes a
  | .acc =>
    let w := (Tbl.find t.kept (a / 4)).getD (s.accGet op.group (a / 2048) (a / 4 % 512))
    BitVec.ofNat 8 (bitsOf w.toNat (8 * (a % 4)) 8)

/-- Bytes in runs of rising addresses. -/
def runsOf : List Cell → List (Nat × List Byte)
  | [] => []
  | (a, b) :: t => match runsOf t with
    | (a', bs) :: r => if a + 1 = a' then (a, b :: bs) :: r else (a, [b]) :: (a', bs) :: r
    | [] => [(a, [b])]

/-- The chunk's bytes are written to their place. In an H page they wait for their W (R196). -/
def placeWrite (s : State) (id : Nat) (op : EngOp) (t : Transfer) (secs : List Sect) (bytes : List Cell) : State :=
  let sorted := bytes.foldl (fun l c => Tbl.put l c.1 c.2) ([] : List Cell)
  match t.dpl with
  | .spad => (runsOf sorted).foldl (fun s r => s.spadWrite op.group r.1 r.2) s
  | .tile => s.updTile op.die op.core t.tile fun x => { x with bytes := sorted.foldl (fun m c => cellSet m c.1 c.2) x.bytes }
  | .acc => (runsOf sorted).foldl (fun s r => (bytesWords (r.2.length / 4) r.2).zipIdx.foldl (fun s w =>
      s.accSet op.group (r.1 / 2048) (r.1 / 4 % 512 + w.2) w.1) s) s
  | .die => (runsOf sorted).foldl (fun s r => match secs.find? fun x => x.va == r.1 / 64 with
    | none => s
    | some x =>
      let pa := x.pa + r.1 % 64
      if Leaf.mode x.leaf = modeH then s.acceptH op.die pa r.2.length (.store r.2) (some id) []
      else s.perform op.die pa r.2.length (.store r.2)) s

/-- The chunk is performed: its arrival is made (R235), but for the bytes that were added before a replay (R238). `added` counts
what has been added to the word, which a dropped arrival is not. Mark: DEDUCED (log 17). -/
def chunkDone (s : State) (id ti : Nat) (op : EngOp) (t : Transfer) (b : Nat) : State :=
  let n := (t.chunk b).length
  let add := (t.arrived + n) - max t.arrived t.skip
  let r : Transfer × State := match t.aw with
    | none => (t, s)
    | some w =>
      if add = 0 then (t, s)
      else match s.arrive op.group w add with
        | some s => ({ t with added := t.added + add }, s)
        | none => ({ t with bad := true }, s)
  let t := { r.1 with done := b :: t.done, arrived := t.arrived + n }
  { r.2 with engOps := r.2.engOps.upd id fun o => { o with transfers := o.transfers.set ti t } }

/-- The cells that ACCST reads are noted, and with CLR cleared, in the same access (R273). -/
def takeCells (s : State) (op : EngOp) (t : Transfer) (needs : List Nat) : Transfer × State :=
  let keys := (needs.map (· / 4)).eraseDups.filter fun k => (Tbl.find t.kept k).isNone
  let kept := keys.foldl (fun l k => Tbl.put l k (s.accGet op.group (k / 512) (k % 512))) t.kept
  ({ t with kept := kept }, if t.clr then keys.foldl (fun s k => s.accSet op.group (k / 512) (k % 512) 0) s else s)

end State

/-- The first element of a gather or scatter, among those with a byte in the chunk, that is misaligned (R240). -/
def misElement (t : Transfer) (b : Nat) : Option Nat :=
  let ea (r : Nat) : Nat := if t.kind = .gath then t.rowSrc r else t.rowDst r
  if t.kind = .gath ∨ t.kind = .scat then
    ((List.range t.rows).find? fun r => (t.rowBlocks r).contains b && ea r % min t.esz 16 != 0).map ea
  else none

/-- SZ of an element's alignment (R207). -/
def eszCode (n : Nat) : Nat := match n with | 1 => 0 | 2 => 2 | 4 => 4 | 8 => 5 | _ => 6

/-- ENGINE_CHUNK (R235): the reads and writes of a chunk are performed at home as accesses with `h=bypass` (R234); when
its writes have been performed, its arrival is made. A chunk that has to wait stays as it is, and its turn comes again.
Mark: DEDUCED (log 17), DESIGN CHOICE (log 18). -/
def execEngineChunk (id transfer block : Nat) (s : State) : Res :=
  match s.engOps.find id with
  | none => finish s
  | some op => match op.transfers[transfer]?, s.groups.find op.group with
    | some t, some g =>
      if !op.started || op.held || t.done.contains block || !t.blocks.contains block then finish s
      else if t.written.contains block then
        if s.pwrites.vals.any fun w => w.op == some id then finish s
        else finish (s.chunkDone id transfer op t block)
      else if t.kind = .cpyt ∧ ((s.tile op.die op.core t.tile).writers.head? ≠ some id ∨ (s.tile op.die op.core t.tile).readers.any fun r => decide (r < id)) then finish s
      else
        let bytes := t.chunk block
        let needs := (bytes.flatMap fun x => x.2.needs).eraseDups
        let dsts := (bytes.map (·.1)).eraseDups
        let secsOf (l : List Nat) : List Nat := (l.map (· / 64)).eraseDups
        let r1 := if t.spl = .die then s.sectors op g.vdie g.vcore kindRead needs (secsOf needs) else (.ok [], s)
        match r1 with
        | (.beyond, s) => finish s
        | (.locked, s) => finish s
        | (.fault c i va, s) => finish (s.chargeCause id op c i (BitVec.ofNat 64 va))
        | (.ok srcs, s) =>
          let r2 := if t.dpl = .die then s.sectors op g.vdie g.vcore kindWrite dsts (secsOf dsts) else (.ok [], s)
          match r2 with
          | (.beyond, s) => finish s
          | (.locked, s) => finish s
          | (.fault c i va, s) => finish (s.chargeCause id op c i (BitVec.ofNat 64 va))
          | (.ok outs, s) =>
            match misElement t block with
            | some ea => finish (s.chargeCause id op .misalign (misalignInfo (if t.kind = .gath then 4 else 5) (eszCode (min t.esz 16))) (BitVec.ofNat 64 ea))
            | none =>
              match s.sectorsReady id op t.thread false srcs with
              | (false, s) => finish s
              | (true, s) => match s.sectorsReady id op t.thread true outs with
                | (false, s) => finish s
                | (true, s) =>
                  let s := s.readDone (State.engineReader id)
                  let (t, s) := if t.kind = .accst then s.takeCells op t needs else (t, s)
                  let vals := bytes.map fun x => (x.1, x.2.value (s.placeByte op t srcs))
                  let s := (srcs ++ outs).foldl (fun s x => s.chargeHbm op.die x.pa (some op.ctx)) (s.placeWrite id op t outs vals).wakeMemory
                  let t := { t with written := block :: t.written }
                  let op := { op with transfers := op.transfers.set transfer t }
                  let s := { s with engOps := s.engOps.put id op }
                  if s.pwrites.vals.any fun w => w.op == some id then finish s
                  else finish (s.chunkDone id transfer op t block)
    | _, _ => finish s

/-- Whether every chunk of an operation is done. -/
def EngOp.allDone (op : EngOp) : Bool := op.transfers.all fun t => t.blocks.all fun b => t.done.contains b

/-- The AWDISARMED causes that follow the completion report (R237). -/
def EngOp.deferred (op : EngOp) : List (Nat × Cause × W32) :=
  op.transfers.filterMap fun t => if t.bad then some (t.thread, .awdisarmed, disarmedInfo (t.aw.getD 0) true) else none

/-- ENGINE_COMPLETE (R84, R234): every transfer has completed; the operation's tile loses its user, its data are charged
(R398), and its completion is reported in issue order. Mark: DEDUCED (log 17). -/
def execEngineComplete (id : Nat) (s : State) : Res :=
  match s.engOps.find id with
  | none => finish s
  | some op =>
    if op.started && !op.held && op.allDone then
      let s := { s with engOps := s.engOps.del id }
      let s := s.endUser op.die op.core id
      let s := op.transfers.foldl (fun s t => s.charge op.group 6 ((t.total + 63) / 64)) s
      finish (s.completeSeqs op.warp [op.seq] op.deferred)
    else finish s

end Sys2Proof.Machine
end

