-- ==== Sys2Proof/Machine/Matrix.lean ====
section
/-! DEFINITION. Convergence registers and the matrix engine: CVSIGN, CVWAIT and CVRST (R242 to R249), MMA, MMAL, PHMMA,
PHFIN and QNT (R276 to R292), and the power tokens (R293 to R295). -/

namespace Sys2Proof.Machine

open Host (Cell)

def Cv.open_ : Cv := { gen := 0, count := 0, sigs := 0, mgen := none }

namespace State

def cv (s : State) (gid c : Nat) : Cv :=
  match s.groups.find gid with
  | some g => g.cvs.getD c Cv.open_
  | none => Cv.open_
def setCv (s : State) (gid c : Nat) (x : Cv) : State :=
  s.updGroup gid fun g => { g with cvs := g.cvs.putD c Cv.open_ x }

/-! ## The engine queue (R283) -/

/-- The operations of a core's engine queue, oldest first. -/
def queued (s : State) (die core : Nat) : List (Nat × MOp) :=
  s.mops.filter fun e => e.2.die == die && e.2.core == core && !e.2.running && !e.2.held
def queueRoom (s : State) (die core : Nat) : Nat := 64 - (s.queued die core).length
/-- The operations that a halt abandoned and that wait, now that their groups run again, for a place in a core's engine queue, oldest
first (R283, R285). -/
def waitingBack (s : State) (die core : Nat) : List (Nat × MOp) :=
  s.mops.filter fun e => e.2.die == die && e.2.core == core && e.2.held && match s.groups.find e.2.group with
    | some g => g.st == .resident && (match s.contexts.find g.ctx with | some c => c.st == .running | none => false)
    | none => false
/-- They return to the queue while it has room. -/
def putBack (s : State) (die core : Nat) : State :=
  ((s.waitingBack die core).take (s.queueRoom die core - s.grantsOut die core waitEngine)).foldl (fun s e =>
    { s with mops := s.mops.upd e.1 fun o => { o with held := false } }) s
/-- Operations that wait to return go first; then instructions that wait for room are served in the core's issue order (R283).
Mark: DESIGN CHOICE (logs 28, 51). -/
def serveRoom (s : State) (die core : Nat) : State :=
  let s := s.putBack die core
  if (s.waitingBack die core).isEmpty then s.grantWaiters die core waitEngine (fun s => s.queueRoom die core) (s.threads.length + 1) else s
/-- Whether a thread's instruction may take room now. -/
def hasRoom (s : State) (m : Self) : Bool :=
  if m.t.grant == waitEngine then decide (0 < s.queueRoom m.g.die m.g.core)
  else (s.waitingBack m.g.die m.g.core).isEmpty && decide (s.grantsOut m.g.die m.g.core waitEngine < s.queueRoom m.g.die m.g.core)
/-- A thread that was granted room has issued: the grant is used up, and room that is left goes to the next. -/
def useRoom (s : State) (m : Self) : State :=
  if m.t.grant == waitEngine then (s.dropGrant m).serveRoom m.g.die m.g.core else s

/-- An operation joins the queue. -/
def enqueueOp (s : State) (op : MOp) : State :=
  let (id, s) := s.newId
  { s with mops := s.mops.put id op }

/-- The operation that a fired generation issues (R283). -/
def opOfGen (g : Group) (gid : Nat) (x : MGen) : MOp :=
  { user := x.id, die := g.die, core := g.core, group := gid, warp := x.warp, op := x.op, ebits := x.ebits, tile := some x.tile, handle := x.handle, coord := x.coord, dst := 0, extent := 0, cn := 0, rows := x.rows, members := x.signers, seqs := x.seqs, running := false, scales := [], held := false, hrec := x.hrec, tag := x.tag, snap := x.snap, pc := x.pc, word := x.word }

/-- The generation passes: CVWAITs whose operand differs end, and pending wait-form destinations are written (R245). -/
def passGen (s : State) (gid c : Nat) (gen : W32) : State :=
  let mine (k : Nat) : Bool := match s.self k with | some m => m.gid == gid | none => false
  let f (e : Nat × Prod) : Nat × Prod := match e.2.val with
    | .cvWait c' g => if c' == c && mine e.2.thread then (e.1, { e.2 with val := .val [g + 1] }) else e
    | _ => e
  let s := { s with prods := s.prods.map f }
  s.wakeAll fun k w => w.kind == waitCv && w.place == c && w.val != gen.setWidth 64 && mine k

/-- FIRE (R245): the generation advances, and a matrix operation that it holds is issued. -/
def fireCv (s : State) (gid c : Nat) : State :=
  let r := s.cv gid c
  let s := s.setCv gid c { Cv.open_ with gen := r.gen + 1 }
  let s := match r.mgen, s.groups.find gid with
    | some x, some g => s.enqueueOp (opOfGen g gid x)
    | _, _ => s
  s.passGen gid c (r.gen + 1)

/-- A signature is counted, and the last one fires (R245). -/
def countSig (s : State) (gid c n : Nat) : State :=
  let r := s.cv gid c
  let r := { r with count := if r.count = 0 then n else r.count, sigs := r.sigs + 1 }
  let s := s.setCv gid c r
  if r.sigs = r.count then s.fireCv gid c else s

end State

/-- EINFO of CVCOUNT (R245). -/
def cvInfo (c : Nat) (range : Bool) (latched : Nat) : W32 := BitVec.ofNat 32 (c + (if range then 16 else 0) + latched * 256)

/-- The count check of a signature (R245). -/
def cvCheck (c n : Nat) (r : Cv) : Option Verdict :=
  if n = 0 ∨ 65535 < n then some (.raise .cvcount (cvInfo c true r.count))
  else if r.count ≠ 0 ∧ n ≠ r.count then some (.raise .cvcount (cvInfo c false r.count))
  else none

/-- Whether one more signature fires the generation. -/
def Cv.fires (r : Cv) (n : Nat) : Bool := r.sigs + 1 == (if r.count = 0 then n else r.count)

/-- CVSIGN (R245): like every signature it follows the scratchpad accesses that its thread has issued (R248). Mark: DEDUCED (log 19). -/
def execCvsign (q : Ctl) (d a : Opd) (cv : BitVec 4) (wait : Bool) (s : State) : Res :=
  runSlot (.cvsign q d a cv wait) (fun m s =>
    let c := cv.toNat
    let n := (s.src m a).toNat
    let r := s.cv m.gid c
    match (cvCheck c n r).or ((s.pendingAwait m).map awaitWait) with
    | some v => (v, s.useRoom m)
    | none =>
      if r.fires n && r.mgen.isSome && !s.hasRoom m then (.block ⟨waitEngine, 0, c⟩, s.dropGrant m)
      else
        let s := (s.produce m d 1 (if wait then .cvWait c r.gen else .val [r.gen]) none).2
        (.done, (s.countSig m.gid c n).useRoom m)) s

/-- CVWAIT (R246). -/
def execCvwait (q : Ctl) (a : Opd) (cv : BitVec 4) (s : State) : Res :=
  runSlot (.cvwait q a cv) (fun m s =>
    if (s.cv m.gid cv.toNat).gen ≠ s.src m a then (.done, s)
    else (.block ⟨waitCv, (s.src m a).setWidth 64, cv.toNat⟩, s)) s

/-- CVRST (R247): the generation's matrix operation is abandoned, and reports completion on MX. -/
def execCvrst (q : Ctl) (cv : BitVec 4) (s : State) : Res :=
  runSlot (.cvrst q cv) (fun m s =>
    let c := cv.toNat
    let r := s.cv m.gid c
    let s := s.setCv m.gid c { Cv.open_ with gen := r.gen + 1 }
    let s := match r.mgen with
      | some x => (s.endUser m.g.die m.g.core x.id).completeSeqs x.warp x.seqs []
      | none => s
    (.done, s.passGen m.gid c (r.gen + 1))) s

/-! ## Matrix signatures (R277) -/

/-- EINFO of MMACOORD (R278). -/
def mmaInfo (c reason warp : Nat) : W32 := BitVec.ofNat 32 (c + reason * 16 + warp * 128)

/-- Count the operations to which this issue group has just added signatures, once each (R276). Mark: DEDUCED (log 27). -/
def countTagged (tag : Nat) (s : State) : State :=
  let inMops := s.mops.filter fun e => e.2.tag == some tag
  let s := inMops.foldl (fun s e =>
    let (seq, s) := s.countOp e.2.warp 1 e.2.user
    { s with mops := s.mops.upd e.1 fun o => { o with tag := none, seqs := o.seqs ++ [seq] } }) s
  s.groups.foldl (fun s e => e.2.cvs.foldl (fun s c => match c.2.mgen with
    | some x =>
      if x.tag == some tag then
        let (seq, s) := s.countOp x.warp 1 x.id
        s.setCv e.1 c.1 { c.2 with mgen := some { x with tag := none, seqs := x.seqs ++ [seq] } }
      else s
    | none => s) s) s

/-- The mark of a slot that an issue group issues. -/
def tagOf (s : State) : Nat := s.focus * 16 + (match s.igroups.find s.focus with | some ig => ig.slot | none => 0)

/-- The operations of a warp to which the slot in hand has added signatures, which the slot's end counts (R276). -/
def taggedOps (tag : Nat) (wid : Nat) (s : State) : Nat :=
  (s.mops.vals.filter fun o => o.tag == some tag && o.warp == wid).length +
  (s.groups.vals.flatMap fun g => g.cvs.vals.filter fun c => c.mgen.any fun x => x.tag == some tag && x.warp == wid).length

/-- A matrix signature (R277): `fmtOk` says which handle formats the opcode accepts, and `wide` that each column takes
two cells (R280). It follows the scratchpad accesses that its thread has issued (R248). Mark: DEDUCED (log 19). -/
def signMatrix (op : Nat) (ebits : Byte) (cv : BitVec 4) (a b c : Opd) (ru : Bool) (fmtOk : BitVec 4 → Bool) (wide : Bool) : Body :=
  fun m s =>
    let cn := cv.toNat
    let h := handleOf b
    let rec_ := s.handle m.gid h
    let coord := s.src m c
    let n := (maskList m.w.roster).length
    let r := s.cv m.gid cn
    let tile := rec_.tile.getD 0
    let cols := if wide then 2 * (rec_.cols.toNat + 1) else rec_.cols.toNat + 1
    let stop (v : Verdict) : Verdict × State := (v, s.useRoom m)
    match handleCheck m s h with
    | some v => stop v
    | none =>
      if rec_.st = .loading then stop (scoreWait h)
      else if !fmtOk rec_.fmt then stop (.raise .hndfmt (handleInfo h rec_ 0))
      else
        let differs : Option (Nat × Nat) := match r.mgen with
          | none => none
          | some x =>
            let num := match s.warps.find x.warp with | some w => w.num | none => 0
            if x.coord ≠ coord then some (0, num)
            else if x.tile ≠ tile then some (1, num)
            else if x.op ≠ op ∨ x.ebits ≠ ebits then some (2, num)
            else if x.warp ≠ m.t.warp then some (3, num)
            else none
        match differs with
        | some d => stop (.raise .mmacoord (mmaInfo cn d.1 d.2))
        | none => match accCheck m coord m.w.width cols with
          | some v => stop v
          | none => match (cvCheck cn n r).or ((s.pendingAwait m).map awaitWait) with
            | some v => stop v
            | none =>
              if r.fires n && !s.hasRoom m then (.block ⟨waitEngine, 0, cn⟩, s.dropGrant m)
              else if !(r.mgen.any fun x => x.tag == some (tagOf s)) && decide (255 ≤ m.w.mx + taggedOps (tagOf s) m.t.warp s) then
                -- the counter would pass 255 when the slot's operations are counted (R85)
                stop (.block ⟨waitCounters, 0xFFFF, 1⟩)
              else
                let row : BitVec 512 := match m.t.latch with
                  | some l => l
                  | none => BitVec.ofNat 512 (leNat (wordsBytes (s.srcRun m a 16)))
                let s := s.updThread m.k fun t => { t with latch := if ru then some row else none }
                let tag := tagOf s
                let (x, s) : MGen × State := match r.mgen with
                  | some x => (x, s)
                  | none =>
                    let (id, s) := s.newId
                    let s := s.updTile m.g.die m.g.core tile fun x => { x with readers := x.readers ++ [id] }
                    let s := s.setHandle m.gid h { rec_ with st := .busy }
                    ({ id := id, op := op, ebits := ebits, tile := tile, coord := coord, warp := m.t.warp, rows := [], signers := [], seqs := [], handle := h, hrec := rec_, tag := none, snap := none, pc := m.t.pc, word := s.word }, s)
                let x := { x with rows := x.rows.put m.t.lane row, signers := x.signers ++ [m.k], tag := some tag }
                let s := s.setCv m.gid cn { r with mgen := some x }
                (.done, (s.countSig m.gid cn n).useRoom m)

/-- Handle formats that an MMA accepts, by AF (R286, R287). -/
def mmaFmt (af : Bool) (f : BitVec 4) : Bool :=
  ((f == 1 || f == 2) && !af) || f == 3 || f == 4 || f == 5 || f == 6

/-- MMA (R286). -/
def execMma (q : Ctl) (cv : BitVec 4) (a b c : Opd) (af : Bool) (s : State) : Res :=
  runSlotThen (.mma q cv a b c af) (signMatrix 0xD0 (BitVec.ofNat 8 af.toNat) cv a b c q.ru (mmaFmt af) false)
    (fun _ _ st => countTagged (tagOf s) st) s

/-- MMAL (R288). -/
def execMmal (q : Ctl) (cv : BitVec 4) (a b c : Opd) (af : Bool) (ks : BitVec 2) (s : State) : Res :=
  runSlotThen (.mmal q cv a b c af ks)
    (signMatrix 0xD1 (BitVec.ofNat 8 (af.toNat + 2 * ks.toNat)) cv a b c q.ru (fun f => f == 13 || f == 14) false)
    (fun _ _ st => countTagged (tagOf s) st) s

/-- PHMMA (R289). -/
def execPhmma (q : Ctl) (cv : BitVec 4) (a b c : Opd) (conj : Bool) (s : State) : Res :=
  runSlotThen (.phmma q cv a b c conj) (signMatrix 0xD2 (BitVec.ofNat 8 conj.toNat) cv a b c q.ru (fun f => f == 7) true)
    (fun _ _ st => countTagged (tagOf s) st) s

/-- A warp-once matrix operation: once its checks pass and the queue has room, it is queued and counted (R283). `check` is given the
fields that are empty, none where all are full (R89). Mark: DEDUCED (log 19). -/
def queueOnce (i : Instr) (op : Nat) (ebits : Byte) (d a b c : Opd) (check : List Fld → Self → State → Option Verdict) (s : State) : Res :=
  runWarpOnce i (fun m ks s =>
    match check [] m s with
    | some v => (v, s.useRoom m)
    | none => match s.pendingAwait m with
      | some w => (awaitWait w, s.useRoom m)
      | none =>
        if !s.hasRoom m then (.block ⟨waitEngine, 0, op⟩, s.dropGrant m)
        else
          let (id, s) := s.newId
          let (seq, s) := s.countOp m.t.warp 1 id
          let x : MOp := { user := id, die := m.g.die, core := m.g.core, group := m.gid, warp := m.t.warp, op := op, ebits := ebits, tile := none, handle := 0, coord := s.src m a, dst := (s.src m d).toNat, extent := s.src m b, cn := s.src m c, rows := [], members := ks, seqs := [seq], running := false, scales := [], held := false, hrec := Handle.free, tag := none, snap := none, pc := m.t.pc, word := s.word }
          (.done, (s.enqueueOp x).useRoom m)) s (fun bare m s => (causeOnly (check bare m s), s))

/-- PHFIN (R290). -/
def execPhfin (q : Ctl) (d a b c : Opd) (clr : Bool) (s : State) : Res :=
  queueOnce (.phfin q d a b c clr) 0xD3 (BitVec.ofNat 8 clr.toNat) d a b c (fun bare m s =>
    let out (f : Fld) : Bool := bare.contains f
    let off := (s.src m d).toNat
    let x := s.src m b
    if out .d = false ∧ off % 4 ≠ 0 then some (spadMisalign 1 4 off)
    else match if out .a || out .b then none else accCheck m (s.src m a) (coordRow x) (2 * coordCol x) with
      | some v => some v
      | none => if (out .d || out .b) = false ∧ m.l.spad < off + 4 * coordRow x * coordCol x then some (spadRange off) else none) s

/-- L of QNT by BL (R291). -/
def qntBlocks (bl : BitVec 2) (nc : Nat) : Nat := (nc + blockLen bl - 1) / blockLen bl

/-- QNT (R291). -/
def execQnt (q : Ctl) (d a b c : Opd) (fmt bl : BitVec 2) (ci clr : Bool) (s : State) : Res :=
  queueOnce (.qnt q d a b c fmt bl ci clr) 0xD4 (BitVec.ofNat 8 (fmt.toNat + 4 * bl.toNat + 16 * ci.toNat + 32 * clr.toNat)) d a b c (fun bare m s =>
    let out (f : Fld) : Bool := bare.contains f
    let off := (s.src m d).toNat
    let sc := (s.src m c).toNat
    let x := s.src m b
    match if out .a || out .b then none else accCheck m (s.src m a) (coordRow x) (coordCol x) with
    | some v => some v
    | none =>
      if (out .d || out .b) = false ∧ m.l.spad < off + coordRow x * coordCol x then some (spadRange off)
      else if (out .c || out .b) = false ∧ m.l.spad < sc + coordRow x * qntBlocks bl (coordCol x) then some (spadRange sc)
      else none) s

/-! ## What a matrix operation computes -/

/-- Element `j` of an A row (R280). -/
def rowHalf (r : BitVec 512) (j : Nat) : Nat := (r.extractLsb' (16 * j) 16).toNat
def rowByte (r : BitVec 512) (j : Nat) : Byte := r.extractLsb' (8 * j) 8

/-- A byte activation: HF8 or I8. -/
def actVal (i8 : Bool) (x : Byte) : FVal := if i8 then FVal.ofInt x.toInt else hf8Val x

/-- The value of tile element (j, c) of an MMA (R287). -/
def tileVal (fmt : BitVec 4) (rb : Nat) (tile : List Cell) (j c : Nat) : FVal :=
  let byte := cellGet tile (j * rb + c)
  let half := leNat (cellsGet tile (j * rb + 2 * c) 2)
  match fmt.toNat with
  | 1 => fval f16 half
  | 2 => fval bf16 half
  | 3 => hf8Val byte
  | 4 => FVal.ofInt byte.toInt
  | 5 => dt8Val byte
  | _ => dt6Val byte

/-- The product of an activation with an element under its block scale (R52, R60): a zero block makes a term of +0 (R39). -/
def scaledTerm (bl : BitVec 2) (scale : Byte) (a v : FVal) : FVal :=
  if bl = 0 then a.mul v
  else match e8Val scale with
    | none => .nan false
    | some x => if scale = 0 then a.byAbsent else a.mul (v.mul x)

/-- One cell update of R60: an exact sum rounded once; every NaN sets NV. -/
def cellSum (cell : W32) (terms : List FVal) : W32 × Flags :=
  let v := sumExact .rne (fval f32 cell.toNat :: terms)
  if v.isNan then (0x7FC00000, flagNV)
  else
    let r := roundFp f32 .rne v
    (BitVec.ofNat 32 r.1, r.2)

/-- The new value of cell (lane, c) under MMA (R286). -/
def mmaCell (o : MOp) (tile : List Cell) (row : BitVec 512) (c : Nat) (cell : W32) : W32 × Flags :=
  let h := o.hrec
  let rb := rowBytes h.fmt h.cols
  let wide := h.fmt == 1 || h.fmt == 2
  let k := if wide then 32 else 64
  let nb := rowScales h.bl h.cols
  let a (j : Nat) : FVal :=
    if wide then fval (half16 (h.fmt == 2)) (rowHalf row j) else actVal (o.ebits.getLsbD 0) (rowByte row j)
  cellSum cell ((List.range k).map fun j =>
    if h.rows.toNat < j then (a j).byAbsent
    else scaledTerm h.bl (o.scales.getD (j * nb + c / blockLen h.bl) 0) (a j) (tileVal h.fmt rb tile j c))

/-- The weight of a B1 or T2 tile element (R51). -/
def weightOf (fmt : BitVec 4) (rb : Nat) (tile : List Cell) (j c : Nat) : Int :=
  if fmt = 13 then b1Val ((cellGet tile (j * rb + c / 8)).getLsbD (c % 8))
  else t2Val ((cellGet tile (j * rb + c / 4)).extractLsb' (2 * (c % 4)) 2)

/-- The new value of a cell under MMAL (R288). -/
def mmalCell (o : MOp) (tile : List Cell) (row : BitVec 512) (c : Nat) (cell : W32) : W32 × Flags :=
  let h := o.hrec
  let rb := rowBytes h.fmt h.cols
  let ks := bitsOf o.ebits.toNat 1 2
  let i8 := o.ebits.getLsbD 0
  let w (j : Nat) : Int := if h.rows.toNat < 64 * ks + j then 0 else weightOf h.fmt rb tile (64 * ks + j) c
  if i8 then
    let t := (List.range 64).foldl (fun acc j => acc + (rowByte row j).toInt * w j) 0
    (cell + BitVec.ofInt 32 t, 0)
  else cellSum cell ((List.range 64).map fun j =>
    let a := actVal false (rowByte row j)
    if h.rows.toNat < 64 * ks + j then a.byAbsent else a.mul (FVal.ofInt (w j)))

/-- The new values of a cell pair under PHMMA (R289). -/
def phmmaPair (o : MOp) (tile : List Cell) (row : BitVec 512) (c : Nat) (x y : W32) : W32 × W32 :=
  let h := o.hrec
  let rb := rowBytes h.fmt h.cols
  let conj := o.ebits.getLsbD 0
  (List.range 32).foldl (fun p j =>
    if h.rows.toNat < j then p
    else
      let a := rowHalf row j
      let b := leNat (cellsGet tile (j * rb + 2 * c) 2)
      if a % 2 = 1 ∨ b % 2 = 1 then p
      else
        let ang := (if conj then a / 2 + 32768 - b / 2 else a / 2 + b / 2) % 32768
        (p.1 + BitVec.ofInt 32 (phTC (ang / 8)), p.2 + BitVec.ofInt 32 (phTS (ang / 8)))) (x, y)

namespace State

/-- The tile that an operation reads: its own copy, or the physical tile that it holds. -/
def opTile (s : State) (o : MOp) : List Cell :=
  match o.snap, o.tile with
  | some l, _ => l
  | none, some t => (s.tile o.die o.core t).bytes
  | none, none => []

/-- The cells of a signed operation, lane by lane (R280): each row that it has is updated in each of its columns. Mark: DESIGN CHOICE (log 29). -/
def runSigned (s : State) (o : MOp) : State × Flags :=
  let tile := s.opTile o
  let row0 := coordRow o.coord
  let col0 := coordCol o.coord
  o.rows.foldl (fun (acc : State × Flags) e =>
    (List.range (o.hrec.cols.toNat + 1)).foldl (fun (acc : State × Flags) c =>
      let r := row0 + e.1
      if o.op = 0xD2 then
        let p := phmmaPair o tile e.2 c (acc.1.accGet o.group r (col0 + 2 * c)) (acc.1.accGet o.group r (col0 + 2 * c + 1))
        ((acc.1.accSet o.group r (col0 + 2 * c) p.1).accSet o.group r (col0 + 2 * c + 1) p.2, acc.2)
      else
        let cell := acc.1.accGet o.group r (col0 + c)
        let v := if o.op = 0xD0 then mmaCell o tile e.2 c cell else mmalCell o tile e.2 c cell
        (acc.1.accSet o.group r (col0 + c) v.1, acc.2 ||| v.2)) acc) (s, 0)

/-- PHFIN (R290). Mark: DESIGN CHOICE (log 29). -/
def runPhfin (s : State) (o : MOp) : State :=
  let row0 := coordRow o.coord
  let col0 := coordCol o.coord
  let nc := coordCol o.extent
  let clr := o.ebits.getLsbD 0
  (List.range (coordRow o.extent)).foldl (fun s r => (List.range nc).foldl (fun s c =>
    let x := s.accGet o.group (row0 + r) (col0 + 2 * c)
    let y := s.accGet o.group (row0 + r) (col0 + 2 * c + 1)
    let f := phFin x y o.cn
    let s := if clr then (s.accSet o.group (row0 + r) (col0 + 2 * c) 0).accSet o.group (row0 + r) (col0 + 2 * c + 1) 0 else s
    s.spadWrite o.group (o.dst + 4 * (r * nc + c)) (w32Bytes (f.2 ++ f.1))) s) s

/-- QNT (R291). Mark: DESIGN CHOICE (log 29). -/
def runQnt (s : State) (o : MOp) : State × Flags :=
  let row0 := coordRow o.coord
  let col0 := coordCol o.coord
  let nc := coordCol o.extent
  let fmt : BitVec 2 := o.ebits.extractLsb' 0 2
  let bl : BitVec 2 := o.ebits.extractLsb' 2 2
  let ci := o.ebits.getLsbD 4
  let clr := o.ebits.getLsbD 5
  let len := blockLen bl
  let nb := qntBlocks bl nc
  (List.range (coordRow o.extent)).foldl (fun (acc : State × Flags) r =>
    (List.range nb).foldl (fun (acc : State × Flags) b =>
      let n := min ((b + 1) * len) nc - b * len
      let cells := (List.range n).map fun i => acc.1.accGet o.group (row0 + r) (col0 + b * len + i)
      let q := qntBlock fmt (cells.map fun w => if ci then FVal.ofInt w.toInt else fval f32 w.toNat)
      let s := if clr then (List.range n).foldl (fun s i => s.accSet o.group (row0 + r) (col0 + b * len + i) 0) acc.1 else acc.1
      let s := s.spadWrite o.group (o.cn.toNat + r * nb + b) [q.1]
      (s.spadWrite o.group (o.dst + r * nc + b * len) q.2.1, acc.2 ||| q.2.2)) acc) (s, 0)

/-! ## Clusters and tokens (R21, R293) -/

/-- The cluster of a core position; a spare belongs to the cluster to which firmware attached it (R21). -/
def clusterOf (s : State) (die core : Nat) : Nat :=
  if core < 128 then core / 8
  else 2 * (core - 128) + (if (s.spares.getD die 0).getLsbD (core - 128) then 1 else 0)
def cluster (s : State) (die cl : Nat) : Cluster := (s.die die).clusters.getD cl { held := false, idleFor := 0, heldFor := 0 }
def setCluster (s : State) (die cl : Nat) (x : Cluster) : State :=
  let d := s.die die
  s.setDie die { d with clusters := d.clusters.put cl x }
/-- The operations of a cluster's cores: those that wait for a start, and those running. -/
def clusterQueued (s : State) (die cl : Nat) : Bool :=
  s.mops.vals.any fun o => o.die == die && s.clusterOf die o.core == cl && !o.running && !o.held
def clusterRuns (s : State) (die cl : Nat) : Bool :=
  s.mops.vals.any fun o => o.die == die && s.clusterOf die o.core == cl && o.running
/-- A cluster that waits for a token (R293). -/
def clusterWaits (s : State) (die cl : Nat) : Bool := !(s.cluster die cl).held && s.clusterQueued die cl

/-- Tokens on a die: free, just released, entering and held. -/
def tokens (s : State) (die : Nat) : Nat :=
  let d := s.die die
  d.free.length + d.leaving.length + d.entering + (d.clusters.vals.filter (·.held)).length

/-- A cluster releases its token, which travels on; a token above the allotment is withdrawn (R294). Mark: DESIGN CHOICE (log 30). -/
def releaseToken (s : State) (die cl : Nat) : State :=
  let above := decide ((s.die die).allot < s.tokens die)
  let s := s.setCluster die cl { held := false, idleFor := 0, heldFor := 0 }
  let d := s.die die
  if above then s else s.setDie die { d with leaving := d.leaving ++ [cl] }

end State

/-- TOKEN_CAPTURE (R293). -/
def execTokenCapture (die cluster : Nat) (s : State) : Res :=
  let d := s.die die
  if s.clusterWaits die cluster && d.free.contains cluster then
    let s := s.setDie die { d with free := d.free.erase cluster }
    finish (s.setCluster die cluster { held := true, idleFor := 0, heldFor := 0 })
  else finish s

/-- TOKEN_RELEASE (R294): 64 idle clk have passed. -/
def execTokenRelease (die cluster : Nat) (s : State) : Res :=
  let c := s.cluster die cluster
  if c.held && decide (64 ≤ c.idleFor) then finish (s.releaseToken die cluster) else finish s

/-- A cluster has held its token for 65,536 clk while another waits: it must let it go when none of its engines runs (R294). -/
def State.tokenSpent (s : State) (die cluster : Nat) : Bool :=
  let c := s.cluster die cluster
  c.held && decide (65536 ≤ c.heldFor) && (List.range 16).any fun x => x != cluster && s.clusterWaits die x

/-- TOKEN_FORCED_RELEASE (R294): after 65,536 clk, while another cluster waits and none of its engines runs. -/
def execTokenForcedRelease (die cluster : Nat) (s : State) : Res :=
  if s.tokenSpent die cluster && !s.clusterRuns die cluster then finish (s.releaseToken die cluster)
  else finish s

/-- MATRIX_START (R284, R293): the head of the queue starts while its cluster holds a token that it need not release (R294); its
scale bytes are read. Mark: DESIGN CHOICE (log 29). -/
def execMatrixStart (die core : Nat) (s : State) : Res :=
  let busy := s.mops.vals.any fun o => o.die == die && o.core == core && o.running
  match s.queued die core with
  | [] => finish s
  | (id, o) :: _ =>
    if busy || !(s.cluster die (s.clusterOf die core)).held || s.tokenSpent die (s.clusterOf die core) then finish s
    else
      let n := if o.hrec.bl = 0 then 0 else (o.hrec.rows.toNat + 1) * rowScales o.hrec.bl o.hrec.cols
      let o := { o with running := true, scales := s.spadRead o.group o.hrec.soff n }
      finish (({ s with mops := s.mops.put id o }).serveRoom die core)

/-- MATRIX_COMPLETE (R284, R276): the operation's cells and results are written, its flags ORed into its signers' or
members' FPSTAT, its tile loses its user, and its completions are reported. Mark: DESIGN CHOICE (log 29). -/
def execMatrixComplete (die core : Nat) (s : State) : Res :=
  match s.mops.find? fun e => e.2.die == die && e.2.core == core && e.2.running with
  | none => finish s
  | some (id, o) =>
    let r : State × Flags :=
      if o.op = 0xD3 then (s.runPhfin o, 0)
      else if o.op = 0xD4 then s.runQnt o
      else s.runSigned o
    let s := o.members.foldl (fun s k => s.updThread k fun t => t.orFlags r.2) r.1
    let s := { s with mops := s.mops.del id }
    let s := s.endUser die core o.user
    let qty := if o.op < 0xD3 then o.rows.length else coordRow o.extent * coordCol o.extent
    finish ((s.charge o.group (energyClass o.op) qty).completeSeqs o.warp o.seqs [])

/-- The engine queue's operations are abandoned, each with a copy of its tile, and are replayable (R285, R417). -/
def State.holdMops (s : State) (mine : MOp → Bool) : State :=
  (s.mops.filter fun e => mine e.2 && !e.2.running && !e.2.held).foldl (fun s e =>
    let o := { e.2 with held := true, snap := e.2.tile.map fun _ => s.opTile e.2 }
    ({ s with mops := s.mops.put e.1 o }).endUser o.die o.core o.user) s

end Sys2Proof.Machine
end

