-- ==== Sys2Proof/Machine/Device.lean ====
section
/-! DEFINITION. Accesses that the hub and the die scheduler make to die memory at home (R187, R298, R305, R400): reads
and writes of virtual ranges, with no owner check, that wait while home recalls partials or a page is locked. -/

namespace Sys2Proof.Machine

open Host (Cell)

/-- A virtual range cut at the 64-byte sectors. -/
def cuts : Nat → Nat → Nat → List (Nat × Nat)
  | 0, _, _ => []
  | fuel + 1, va, n =>
    if n = 0 then []
    else
      let len := min n (64 - va % 64)
      (va, len) :: cuts fuel (va + len) (n - len)
def cutRange (va n : Nat) : List (Nat × Nat) := cuts (n / 64 + 2) va n

/-- What an access of the device to a range comes to. -/
inductive DevRes where
  | bytes (l : List Byte)
  | wait
  | fault (c : Cause) (info : W32) (va : Nat)
  deriving DecidableEq, Repr

/-- A translated piece of a range: leaf, physical address, bytes. -/
structure Piece where
  leaf : W64
  pa   : Nat
  len  : Nat
  deriving DecidableEq, Repr

/-- What the translation of a range comes to. -/
inductive Pieces where
  | ok (l : List Piece)
  | wait
  | fault (c : Cause) (info : W32) (va : Nat)
  deriving DecidableEq, Repr

namespace State

/-- Translate the pieces of a range in order, with the recalls that home makes in H pages (R202). -/
def devPieces (s : State) (die ctx vdie kind : Nat) : List (Nat × Nat) → Pieces × State
  | [] => (.ok [], s)
  | (va, len) :: rest =>
    match s.walkNow die ctx vdie va kind none with
    | (.hit leaf pa, s) =>
      let r := if Leaf.mode leaf = modeH then s.mayRead (hubReader ctx) die pa else (true, s)
      let late := !r.1
      let s := r.2
      match s.devPieces die ctx vdie kind rest with
      | (.ok l, s) => (if late then .wait else .ok ({ leaf := leaf, pa := pa, len := len } :: l), s)
      | r => r
    | (.cause c i, s) => (.fault c i va, s)
    | (_, s) => (.wait, s)

/-- Read a virtual range at home. -/
def devRead (s : State) (die ctx vdie va n : Nat) : DevRes × State :=
  match s.devPieces die ctx vdie kindLoad (cutRange va n) with
  | (.ok l, s) => (.bytes (l.flatMap fun p => s.memRead die p.pa p.len), l.foldl (fun s p => s.chargeHbm die p.pa (some ctx)) (s.readDone (hubReader ctx)))
  | (.wait, s) => (.wait, s)
  | (.fault c i va, s) => (.fault c i va, s)

/-- The writes of translated pieces: an H write waits for its W (R196), another is performed at once. -/
def writePieces (s : State) (die : Nat) (tag : Option Nat) : List Piece → List Byte → State
  | [], _ => s
  | p :: ps, bs =>
    let b := bs.take p.len
    let s := if Leaf.mode p.leaf = modeH then s.acceptH die p.pa p.len (.store b) tag []
      else s.perform die p.pa p.len (.store b)
    s.writePieces die tag ps (bs.drop p.len)

/-- Write a virtual range at home. `tag` names the operation that waits for its H writes. -/
def devWrite (s : State) (die ctx vdie va : Nat) (bs : List Byte) (tag : Option Nat) : DevRes × State :=
  match s.devPieces die ctx vdie kindStore (cutRange va bs.length) with
  | (.ok l, s) => (.bytes [], l.foldl (fun s p => s.chargeHbm die p.pa (some ctx)) ((s.readDone (hubReader ctx)).writePieces die tag l bs))
  | (.wait, s) => (.wait, s)
  | (.fault c i va, s) => (.fault c i va, s)

/-- Whether H writes that were made under a tag have still to be performed. Mark: DEDUCED (log 17). -/
def tagPending (s : State) (tag : Nat) : Bool := s.pwrites.vals.any fun w => w.op == some tag

/-- The clk of a virtual core of a context. -/
def coreClk (s : State) (ctx vdie vcore : Nat) : Nat :=
  match s.contexts.find ctx with
  | none => 0
  | some c => match c.remap.find vdie, c.cores.find? fun x => x.1 == vdie && x.2.1 == vcore with
    | some die, some x => s.clk die x.2.2
    | _, _ => 0

/-- A page cause of an access that the die scheduler makes for a context halts it (R82, R299, R305, R400). No thread is
at fault. Mark: DESIGN CHOICE (log 48). -/
def deviceFault (s : State) (ctx vdie vcore : Nat) (c : Cause) (info : W32) (va : Nat) : State :=
  s.raiseHalt ctx vdie { cause := c, esc := false, tab := false, vcore := vcore, group := 0, warp := 0, lane := 0, einfo := info, epc := 0, faddr := BitVec.ofNat 64 va, clk := s.coreClk ctx vdie vcore, thread := none }

end State

end Sys2Proof.Machine
end

