-- ==== Sys2Proof/Machine/Flits.lean ====
section
/-! DEFINITION. What a link sends (R384 to R387, R389): flits and their CRC, beats on wavelengths, the replay buffer, and
queue packets in DATA flits; the records of the package event ring (R394, R395). Links 0 to 511 are optical, 512 to 519 the
die-to-die bridges, seen from the hub. -/

namespace Sys2Proof.Machine

/-- hclk in one µs of hub time. Mark: DEDUCED (log 43). -/
def usHclk : Nat := 1500
/-- The optical links and the bridges (R18, R382). -/
def linkCount : Nat := 520
/-- A list as a table from 0. -/
def tableOf {α : Type} (l : List α) : Tbl α := (List.range l.length).zip l
/-- The beacon chiplet of an optical link (R382). -/
def chipletOf (n : Nat) : Nat := n / 32
/-- The laser group of a transmit wavelength (R382). -/
def laserGroup (w : Nat) : Nat := w / 4

/-! ## The package event ring (R395) -/

namespace State

def ringAdd (s : State) (r : EvRec) : State := { s with ring := s.ring.put s.ringNext r, ringNext := s.ringNext + 1 }

/-- The ring's arbiter accepts a record, stamping HTIME in bytes 16 to 23, or drops it; the first record that fits after a drop
is a drop record. -/
def ringPut (s : State) (head tail : List Byte) : State :=
  let stamp := leBytes 8 s.hclk
  let r := head ++ stamp ++ tail
  if s.ringDrops = 0 then
    if s.ring.length < 4096 then s.ringAdd r else { s with ringDrops := 1 }
  else if s.ring.length < 4096 then
    let d := [0x21] ++ zeros 7 ++ leBytes 8 s.ringDrops ++ stamp ++ zeros 8
    if s.ring.length < 4095 then { (s.ringAdd d).ringAdd r with ringDrops := 0 } else { s.ringAdd d with ringDrops := 1 }
  else { s with ringDrops := s.ringDrops + 1 }

def link (s : State) (n : Nat) : Link := s.links.getD n Link.reset
def setLink (s : State) (n : Nat) (x : Link) : State := { s with links := s.links.put n x }

end State

def LkState.code : LkState → Nat
  | .down => 0
  | .training => 1
  | .up => 2
  | .degraded => 3
  | .retraining => 4
  | .failed => 5

/-- States in which queue traffic passes. -/
def LkState.passes : LkState → Bool
  | .up => true
  | .degraded => true
  | .retraining => true
  | _ => false

/-- The wavelengths of a map, from the lowest. -/
def wavesOf (m : BitVec 16) : List Nat := (List.range 16).filter fun i => m.getLsbD i
/-- The number of wavelengths in a map. -/
def mapWidth (m : BitVec 16) : Nat := (wavesOf m).length

/-- An event record of a link (R394): kind, direction, the link before and after, and another SEQ where one is given. -/
def linkEventAt (s : State) (n kind : Nat) (rx : Bool) (old : Link) (at_ : Option (BitVec 12)) : State :=
  let x := s.link n
  let dir (l : Link) : LinkDir := if rx then l.rx else l.tx
  let seq := at_.getD (if rx then x.expSeq else x.nextSeq)
  let head := [byteOf kind, byteOf (flag rx 1)] ++ leBytes 2 n ++ [byteOf old.st.code, byteOf x.st.code] ++
    leBytes 2 (dir old).map.toNat ++ leBytes 2 (dir x).map.toNat ++ leBytes 2 seq.toNat ++ [byteOf x.miss] ++ zeros 3
  (s.ringPut head (leBytes 8 x.replayed)).setLink n { x with replayed := 0 }
/-- An event record whose SEQ is the link's own. -/
def linkEvent (s : State) (n kind : Nat) (rx : Bool) (old : Link) : State := linkEventAt s n kind rx old none

/-! ## Flits (R384, R385) -/

/-- One step of CRC-64/XZ: reflected polynomial 0x42F0_E1EB_A9EA_3693. -/
def crcBit (c : W64) : W64 := if c.getLsbD 0 then (c >>> 1) ^^^ 0xC96C5795D7870F42 else c >>> 1
def crcByte (c : W64) (b : Byte) : W64 := (List.range 8).foldl (fun c _ => crcBit c) (c ^^^ b.setWidth 64)
/-- CRC-64/XZ of bytes (R385). -/
def crc64 (bs : List Byte) : W64 := ~~~(bs.foldl crcByte (BitVec.allOnes 64))

def tyIdle : Nat := 0
def tyData : Nat := 1
def tyNak : Nat := 2
def tyMarker : Nat := 3
def tyLpr : Nat := 4
def tyLoss : Nat := 5
def tyRetrain : Nat := 6

/-- A flit of a TYPE: header, payload of 116 bytes and CRC, inverted when stomped. -/
def mkFlit (l : Link) (ty : Nat) (seq : BitVec 12) (payload : List Byte) (stomped : Bool) : List Byte :=
  let ack := if l.heard then (l.expSeq - 1).toNat * 2 ^ 16 + 2 ^ 28 else 0
  let body := leBytes 4 (seq.toNat + ty * 2 ^ 12 + ack) ++ (payload ++ zeros 116).take 116
  let c := crc64 body
  body ++ w64Bytes (if stomped then ~~~c else c)

/-! ## Sending (R386, R387) -/

/-- The wavelength of beat `k` (R386). -/
def waveOf (map : BitVec 16) (k : Nat) : Nat := (wavesOf map).getD (k % mapWidth map) 0
/-- The sixteen beats of a flit, from beat `k` on. -/
def beatsOf (map : BitVec 16) (k : Nat) (bs : List Byte) : List (Nat × List Byte) :=
  (List.range 16).map fun b => (waveOf map (k + b), (bs.drop (8 * b)).take 8)
/-- Flits in beats, from beat `k` on. -/
def stripe (map : BitVec 16) : Nat → List (List Byte) → List (Nat × List Byte)
  | _, [] => []
  | k, f :: fs => beatsOf map k f ++ stripe map (k + 16) fs

namespace Link

/-- Flits go out on the lane map. -/
def sends (l : Link) (fs : List (List Byte)) : Link :=
  { l with out := l.out ++ stripe l.tx.map l.beat fs, beat := l.beat + 16 * fs.length }
/-- The flit of an entry of the replay buffer. -/
def flitOf (l : Link) (d : DataFlit) : List Byte := mkFlit l tyData d.seq d.payload d.stomped
/-- The entries of the replay buffer from a SEQ on. -/
def replayFrom (l : Link) (seq : BitVec 12) : List DataFlit := l.replay.dropWhile fun d => d.seq != seq
/-- Resend the replay buffer from a SEQ on, in order. -/
def resend (l : Link) (seq : BitVec 12) : Link :=
  { l.sends ((l.replayFrom seq).map l.flitOf) with replayed := l.replayed + (l.replayFrom seq).length }

end Link

/-- Bytes of packets, back to back, for what room a flit has left; whether a packet among them is stomped; what remains (R384). The end of
what is sent of a stomped packet ends the flit (R393). -/
def packs : Nat → List Chunk → List Byte × Bool × List Chunk
  | _, [] => ([], false, [])
  | room, c :: cs =>
    if c.flit ∨ room = 0 then ([], false, c :: cs)
    else if room < c.bytes.length then (c.bytes.take room, c.stomped, { c with bytes := c.bytes.drop room } :: cs)
    else if c.stomped then (c.bytes, true, cs)
    else
      let r := packs (room - c.bytes.length) cs
      (c.bytes ++ r.1, r.2.1, r.2.2)
/-- The payload of the next DATA flit, whether it is stomped, and what remains. -/
def nextPayload : List Chunk → List Byte × Bool × List Chunk
  | [] => ([], false, [])
  | c :: cs => if c.flit then (c.bytes, c.stomped, cs) else packs 116 (c :: cs)
/-- Whether a full flit waits, or one that ends before its room does (R393). -/
def fullFlit (cs : List Chunk) : Bool := cs.any (fun c => c.flit || c.stomped) || decide (116 ≤ (cs.map (·.bytes.length)).sum)
/-- No fewer than the flits that a list of chunks fills. -/
def chunkFlits (cs : List Chunk) : Nat := (cs.map fun c => c.bytes.length / 116 + 2).sum

namespace State

/-- An optical link charges a flit to a context's bank, or to the shared one; a bridge has no banks (R401). Mark: DEDUCED (log 57). -/
def chargeFlit (s : State) (n : Nat) (ctx : Option Nat) (activity : Nat) : State :=
  if n < 512 then s.chargeBank n (ctx.getD 256) activity else s

/-- A control flit goes out; its SEQ is that of the next DATA flit that is sent, a new one or `next`, or for a NAK the one expected (R384). -/
def control (s : State) (n ty : Nat) (payload : List Byte) (next : Option (BitVec 12) := none) : State :=
  let l := s.link n
  (s.setLink n (l.sends [mkFlit l ty (if ty = tyNak then l.expSeq else next.getD l.nextSeq) payload false])).chargeFlit n none 3
/-- A LOSS, RETRAIN or LPR flit, which is repeated until it is answered. -/
def ask (s : State) (n ty : Nat) (payload : List Byte) : State :=
  let s := s.control n ty payload
  let l := s.link n
  s.setLink n { l with unanswered := l.unanswered ++ [{ ty := ty, payload := payload, sent := s.hclk }] }
/-- A MARKER announces the transmit map and the agreed SPEED and EPOCH; the beats count from 0 (R386). `from_` is the SEQ from which DATA
is resent after it, if any is. -/
def marker (s : State) (n : Nat) (from_ : Option (BitVec 12)) : State :=
  let l := s.link n
  let next := from_.filter fun q => l.replay.any fun d => d.seq == q
  let p := leBytes 2 l.tx.map.toNat ++ [byteOf l.tx.agreed.speed, byteOf l.tx.agreed.epoch]
  (s.setLink n { l with beat := 0, tx := { l.tx with speed := l.tx.agreed.speed, epoch := l.tx.agreed.epoch } }).control n tyMarker p next

/-- A link goes back to a SEQ; each flit that it replays is charged (R387, R401). Mark: DEDUCED (log 57). -/
def goBack (s : State) (n : Nat) (seq : BitVec 12) : State :=
  let l := s.link n
  (l.replayFrom seq).foldl (fun s d => s.chargeFlit n d.ctx 0) (s.setLink n (l.resend seq))

/-- New DATA leaves while the window has room (R387): full flits, so that packets lie back to back, and with `all` also what does not
fill one (R384). Mark: DESIGN CHOICE (log 55), DEDUCED (log 57). -/
def pump (s : State) (n : Nat) (all : Bool) : Nat → State
  | 0 => s
  | fuel + 1 =>
    let l := s.link n
    match l.backlog with
    | [] => s
    | c :: _ =>
      if !l.st.passes || decide (4095 ≤ l.replay.length) || !(all || fullFlit l.backlog) then s
      else
        let p := nextPayload l.backlog
        let d : DataFlit := { seq := l.nextSeq, payload := p.1, stomped := p.2.1, ctx := c.ctx }
        let x := { l.sends [l.flitOf d] with nextSeq := l.nextSeq + 1, backlog := p.2.2, replay := l.replay ++ [d], ackAt := if l.replay.isEmpty then s.hclk else l.ackAt }
        ((s.setLink n x).chargeFlit n c.ctx 0).pump n all fuel
def pumpAll (s : State) (n : Nat) (all : Bool := false) : State := s.pump n all (chunkFlits (s.link n).backlog)
/-- DATA that waits goes out, and an IDLE flit, with the latest ACK, where none is left (R384). Mark: DESIGN CHOICE (log 55). -/
def fillLink (s : State) (n : Nat) : State :=
  let s := s.pumpAll n true
  if (s.link n).st.passes && (s.link n).backlog.isEmpty then s.control n tyIdle [] else s
/-- A chunk joins what a link has to send. -/
def enqueue (s : State) (n : Nat) (c : Chunk) : State :=
  let l := s.link n
  (s.setLink n { l with backlog := l.backlog ++ [c] }).pumpAll n

end State

/-! ## Queue packets (R384, R389) -/

/-- A global name (R335): virtual package, virtual die and slot. -/
structure GlobalName where
  vpkg : BitVec 16
  vdie : Nat
  slot : Nat
  deriving DecidableEq, Repr

/-- The 16 bytes of a packet header: CONF, the length of the body, the global name of the destination (R335), the per-flow
sequence and the header check (R384). Mark: DESIGN CHOICE (logs 55, 72). -/
def packetHeader (conf : Bool) (len : Nat) (d : GlobalName) (seq : Nat) : List Byte :=
  let h := [byteOf (1 + flag conf 2)] ++ leBytes 4 len ++ leBytes 2 d.vpkg.toNat ++ [byteOf d.vdie] ++ leBytes 2 d.slot ++ leBytes 4 seq
  h ++ leBytes 2 (Config.headerCheck h).toNat
/-- Whether the check of a header of 16 bytes holds. Mark: DESIGN CHOICE (log 55). -/
def headerOk (h : List Byte) : Bool := leNat ((h.drop 14).take 2) == (Config.headerCheck (h.take 14)).toNat

namespace State

/-- The name that a context has for a slot of a die (R335, R379). Mark: DESIGN CHOICE (log 55). -/
def nameOf (s : State) (ctx die slot : Nat) : GlobalName :=
  match s.contexts.find ctx with
  | none => ⟨0, 0, slot⟩
  | some c =>
    let v := (s.vdieOf ctx die).getD 0
    ⟨c.vpkg, v, ((c.slots.find? fun e => e.1 / 65536 == v && e.2 == slot).map (·.1 % 65536)).getD slot⟩

/-- A packet of a flow leaves the hub over the bridge of a die (R19, R384). Mark: DESIGN CHOICE (log 55). -/
def sendTo (s : State) (dst flow : Nat) (conf : Bool) (ctx : Nat) (name : GlobalName) (body : List Byte) : State :=
  let q := s.flows.getD flow 0
  let c : Chunk := { bytes := packetHeader conf body.length name q ++ body, ctx := some ctx, stomped := false, flit := false }
  { s with flows := s.flows.put flow (q + 1) }.enqueue (512 + dst) c

/-- A packet of a flow from one die to another crosses the hub's crossbar and leaves over the bridge of its die (R19, R384).
Mark: DESIGN CHOICE (log 55). -/
def crossTo (s : State) (src dst slot flow : Nat) (conf : Bool) (ctx : Nat) (body : List Byte) : State :=
  if src = dst then s else s.sendTo dst flow conf ctx (s.nameOf ctx dst slot) body

/-- Whether a die's bridge takes queue packets to the die: it passes traffic, and nothing waits for room in its replay buffer.
Mark: DESIGN CHOICE (log 55). -/
def bridgeOpen (s : State) (d : Nat) : Bool := (s.link (512 + d)).st.passes && !fullFlit (s.link (512 + d)).backlog

/-- Whether queue traffic passes from one die to another: within a die, or over both their bridges and the hub's crossbar (R19).
Mark: DESIGN CHOICE (log 55). -/
def reaches (s : State) (a b : Nat) : Bool := a == b || ((s.link (512 + a)).st.passes && s.bridgeOpen b)

/-- Whether one die can no longer be reached from another: a bridge between them has FAILED (R388). Mark: DESIGN CHOICE (log 55). -/
def cutOff (s : State) (a b : Nat) : Bool := a != b && ((s.link (512 + a)).st == .failed || (s.link (512 + b)).st == .failed)

end State

end Sys2Proof.Machine
end

