-- ==== Sys2Proof/Machine/Groups.lean ====
section
/-! DEFINITION. The life of a group: placement (R296 to R301), parking, watch records and relaunch (R253 to R256, R303
to R306), retirement of warps and groups (R118, R275, R307, R400), and the phase records of a launch (R302). -/

namespace Sys2Proof.Machine

open Host (Cell)

/-! ## Die keys and pending groups (R317, R318) -/

/-- Groups of one die key. -/
def groupsPerKey (l : Launch) : Nat := extentProduct l (groupLevel l) (dieLevel l)
/-- Die keys that a virtual die receives: m with (v0 + m) mod 8 = v. -/
def keysOn (l : Launch) (v : Nat) : Nat :=
  let m0 := (v + 8 - l.lead % 8) % 8
  (dieKeyCount l + 7 - m0) / 8
/-- Groups that a virtual die receives. -/
def groupsOn (l : Launch) (v : Nat) : Nat := keysOn l v * groupsPerKey l
/-- The group key of the `j`-th group of a virtual die, in ascending order. -/
def groupKeyOf (l : Launch) (v j : Nat) : W64 :=
  let per := groupsPerKey l
  let m := (v + 8 - l.lead % 8) % 8 + 8 * (j / per)
  BitVec.ofNat 64 (fieldsAt l (groupLevel l) (dieLevel l) (j % per) + fieldsAt l (dieLevel l) 6 m)
/-- The group's index in its launch (R400). -/
def groupIndex (l : Launch) (key : W64) : Nat :=
  let fs := (fieldWidths l).zip (fieldExtents l)
  let r := fs.foldl (fun (a : Nat × Nat × Nat × Nat) f =>
    -- level, shift, index, multiplier
    let v := bitsOf key.toNat a.2.1 f.1
    if a.1 < groupLevel l then (a.1 + 1, a.2.1 + f.1, a.2.2.1, a.2.2.2)
    else (a.1 + 1, a.2.1 + f.1, a.2.2.1 + v * a.2.2.2, a.2.2.2 * f.2)) (0, 0, 0, 1)
  r.2.2.1

namespace State

/-- The virtual core of a physical core of a context's die. -/
def vcoreOf (s : State) (ctx vdie core : Nat) : Option Nat :=
  match s.contexts.find ctx with
  | some c => (c.cores.find? fun x => x.1 == vdie && x.2.2 == core).map (·.2.1)
  | none => none
def ctxRuns (s : State) (ctx : Nat) : Bool :=
  match s.contexts.find ctx with
  | some c => c.st == .running
  | none => false

/-- The launches that have PENDING groups on a die, with its virtual die. -/
def pendingOn (s : State) (die : Nat) : List (Nat × Launch × Nat) :=
  s.launches.filterMap fun e =>
    let l := e.2
    if l.st == .accepted || l.st == .active then
      match s.vdieOf l.ctx die with
      | some v => if l.next.getD v 0 < groupsOn l v then some (e.1, l, v) else none
      | none => none
    else none

/-- The first of a list of launches in the order of placement: highest priority, then the launch whose die keys reached the die
first (R301). -/
def firstPlaced (l : List (Nat × Launch × Nat)) : Option (Nat × Launch × Nat) :=
  l.foldl (fun b x => match b with
    | none => some x
    | some y => if y.2.1.prio < x.2.1.prio ∨ (y.2.1.prio = x.2.1.prio ∧ x.2.1.order < y.2.1.order) then some x else b) none

/-- The weight of a function in the placement decisions of a die (R330). Mark: DESIGN CHOICE (logs 8, 73). -/
def placeWeight (vf : Nat) : Nat := 1 + Config.placeWeight vf

/-- The launch whose group the die scheduler places next (R301): the functions that have pending groups on the die share its
decisions by their weights, and the next one goes to the function that has had the fewest for its weight (R330). Mark: DEDUCED (log 32).
Mark: DESIGN CHOICE (log 73). -/
def nextPending (s : State) (die : Nat) : Option (Nat × Launch × Nat) :=
  let cands := (s.pendingOn die).filter fun x => s.ctxRuns x.2.1.ctx
  let had (vf : Nat) : Nat := s.decisions.getD (die * 16 + vf) 0
  let heads := (List.range 16).filterMap fun vf => firstPlaced (cands.filter fun x => x.2.1.vf == vf)
  heads.foldl (fun b x => match b with
    | none => some x
    | some y => if had x.2.1.vf * placeWeight y.2.1.vf < had y.2.1.vf * placeWeight x.2.1.vf then some x else b) none

/-! ## Resources of a core (R298) -/

/-- The groups that hold resources on a core. -/
def holders_ (s : State) (die core : Nat) : List (Nat × Group) :=
  s.groups.filter fun e => e.2.die == die && e.2.core == core && e.2.holds
/-- A group that stands on no core: a stopped group in its save slot, or a group of a context that has released its units (R378). -/
def awayGroup (s : State) (g : Group) : Bool :=
  (g.st == .stopped && g.slot.isSome) || match s.contexts.find g.ctx with
    | some c => c.st == .saved
    | none => false
/-- The groups placed on a core: resident, parked and what lies between (R297). -/
def placed (s : State) (die core : Nat) : List (Nat × Group) :=
  s.groups.filter fun e => e.2.die == die && e.2.core == core && e.2.st != .retired && !s.awayGroup e.2

/-- Whether a contiguous range is free among used ones. -/
def rangeFree (used : List (Nat × Nat)) (total base n : Nat) : Bool :=
  decide (base + n ≤ total) && used.all fun u => u.2 == 0 || n == 0 || !overlaps u.1 u.2 base n
/-- Whether some contiguous range of `n` is free. -/
def anyFree (used : List (Nat × Nat)) (total n : Nat) : Bool :=
  (0 :: used.map fun u => u.1 + u.2).any fun b => rangeFree used total b n

def spadUsed (s : State) (die core : Nat) : List (Nat × Nat) :=
  (s.holders_ die core).map fun e => (e.2.spadBase, match s.launches.find e.2.launch with | some l => l.spad | none => 0)
def rowsUsed (s : State) (die core : Nat) : List (Nat × Nat) :=
  (s.holders_ die core).map fun e => (e.2.accBase, match s.launches.find e.2.launch with | some l => l.rows | none => 0)

/-- Free warp slots of a core for a launch (R106). -/
def warpSlots (s : State) (die core : Nat) (l : Launch) : Nat :=
  let sets := lanesOf (s.classOf die core) / l.width
  (List.range sets).foldl (fun n set =>
    let most := (List.range l.width).foldl (fun m i => max m (s.laneUse die core (set * l.width + i))) 0
    n + (2048 - most) / l.regs) 0

/-- Whether the kernel's dictionary is loaded, or a slot for it is free (R82). Mark: DESIGN CHOICE (log 76). -/
def dictLoaded (s : State) (die core ctx : Nat) (addr : W64) : Bool :=
  (s.core die core).dicts.any fun d => d.ctx == ctx && d.addr == addr
def dictRoom (s : State) (die core ctx : Nat) (addr : W64) : Bool :=
  addr == 0 || s.dictLoaded die core ctx addr || decide ((s.core die core).dicts.length < 4)

/-- Whether a class is admitted (R33). -/
def admits (l : Launch) (cls : Nat) : Bool :=
  decide (cls ≤ 2) && bitOf l.classMask cls && !(cls == 2 && l.width == 64)

/-- Whether a core meets R298 now for a group of a launch. -/
def coreFits (s : State) (die core : Nat) (l : Launch) : Bool :=
  admits l (s.classOf die core) &&
  decide (groupSize l / l.width ≤ s.warpSlots die core l) &&
  decide (((s.holders_ die core).length) < 64) && decide ((s.placed die core).length < 256) &&
  s.dictRoom die core l.ctx l.dictAddr &&
  anyFree (s.spadUsed die core) 1048576 l.spad && anyFree (s.rowsUsed die core) 1536 l.rows

/-- The core on which the next group goes: most free warp slots, then the lowest virtual core (R301). -/
def bestCore (s : State) (die vdie : Nat) (l : Launch) : Option (Nat × Nat) :=
  match s.contexts.find l.ctx with
  | none => none
  | some c =>
    let mine := (c.cores.filter fun x => x.1 == vdie).map fun x => (x.2.1, x.2.2)
    let fit := mine.filter fun x => s.coreFits die x.2 l
    fit.foldl (fun b x => match b with
      | none => some x
      | some y =>
        let nx := s.warpSlots die x.2 l
        let ny := s.warpSlots die y.2 l
        if ny < nx ∨ (nx = ny ∧ x.1 < y.1) then some x else b) none

/-- Reserve the slots of a group's initial warps, in order of their numbers, in the lowest lane sets that have room (R122, R298).
Mark: DEDUCED (log 22). -/
def reserveSets (s : State) (gid die core : Nat) (l : Launch) (nums : List Nat) : State :=
  nums.foldl (fun s num => match s.freeSet die core l with
    | none => s
    | some set => s.updGroup gid fun g => { g with reserved := g.reserved.put num set }) s

/-- Load the kernel's dictionary where it is not loaded (R82). Mark: DEDUCED (log 11), DESIGN CHOICE (log 71). -/
def loadDict (s : State) (die core ctx vdie : Nat) (addr : W64) : DevRes × State :=
  if addr = 0 ∨ s.dictLoaded die core ctx addr then (.bytes [], s)
  else match s.devRead die ctx vdie addr.toNat 8192 with
    | (.bytes bs, s) =>
      let words := (List.range 1024).foldl (fun t i => Tbl.put t i (bytesW64 ((bs.drop (8 * i)).take 8))) ([] : Tbl W64)
      let c := s.core die core
      (.bytes [], s.setCore die core { c with dicts := c.dicts ++ [{ ctx := ctx, addr := addr, words := words }] })
    | r => r

/-- A kernel's dictionary slot is freed when no group of it is resident on the core (R82). -/
def dropDicts (s : State) (die core : Nat) : State :=
  let used := (s.holders_ die core).filterMap fun e => (s.launches.find e.2.launch).map fun l => (l.ctx, l.dictAddr)
  let c := s.core die core
  s.setCore die core { c with dicts := c.dicts.filter fun d => used.contains (d.ctx, d.addr) }

/-- The lowest group number that no placed group of the core holds (R297). -/
def freeGroupNum (s : State) (die core : Nat) : Option Nat :=
  let held := (s.placed die core).map (·.2.num)
  (List.range 256).find? fun n => !held.contains n

/-- The head of the relaunch queue of a die: highest priority, then the first to become WAKING (R306). Mark: DEDUCED (log 32). -/
def relaunchHead (s : State) (die : Nat) : Option (Nat × Group × Launch) :=
  let cands := s.groups.filterMap fun e =>
    if e.2.die == die && e.2.st == .waking && s.ctxRuns e.2.ctx then (s.launches.find e.2.launch).map fun l => (e.1, e.2, l) else none
  cands.foldl (fun b x => match b with
    | none => some x
    | some y => if y.2.2.prio < x.2.2.prio ∨ (y.2.2.prio = x.2.2.prio ∧ x.2.1.wokeAt < y.2.1.wokeAt) then some x else b) none

/-- The bound tiles of a group. -/
def boundTiles (g : Group) : Nat := (g.handles.filter fun h => h.2.bound).length

/-- Whether the lane sets of a group's warps, and those kept for its initial warps, have their slots free (R306). -/
def setsFree (s : State) (gid : Nat) (g : Group) (l : Launch) : Bool :=
  let sets := (s.groupWarps gid).map (·.2.laneSet) ++ g.reserved.vals
  (List.range (lanesOf (s.classOf g.die g.core))).all fun lane =>
    let need := (sets.filter fun x => decide (x * l.width ≤ lane) && decide (lane < x * l.width + l.width)).length * l.regs
    decide (s.laneUse g.die g.core lane + need ≤ 2048)

/-- Whether a core can grant a group's resources again (R306). -/
def canRelaunch (s : State) (gid : Nat) (g : Group) (l : Launch) : Bool :=
  s.setsFree gid g l &&
  decide ((s.holders_ g.die g.core).length < 64) &&
  s.dictRoom g.die g.core l.ctx l.dictAddr &&
  anyFree (s.spadUsed g.die g.core) 1048576 l.spad && anyFree (s.rowsUsed g.die g.core) 1536 l.rows &&
  decide (boundTiles g ≤ (s.freeTiles g.die g.core).length)

end State

/-! ## Placement -/

/-- GROUP_PLACE (R298, R301, R306): the next pending group becomes resident on the core that R301 names, at a place of the
device's choice in the scratchpad and accumulator. A waking group that can be relaunched, or that outranks every
PENDING one, goes first. Mark: DEDUCED (log 32). -/
def execGroupPlace (die core spadBase accBase : Nat) (s : State) : Res :=
  match s.nextPending die with
  | none => finish s
  | some (lid, l, v) =>
    let held := match s.relaunchHead die with
      | none => false
      | some (gid, g, hl) => s.canRelaunch gid g hl || (s.pendingOn die).all fun x => decide (x.2.1.prio < hl.prio)
    match s.bestCore die v l, s.freeGroupNum die core with
    | some (vcore, best), some num =>
      if held || best != core || !State.rangeFree (s.spadUsed die core) 1048576 spadBase l.spad
          || !State.rangeFree (s.rowsUsed die core) 1536 accBase l.rows then finish s
      else match s.devRead die l.ctx v l.args.toNat 128 with
        | (.wait, s) => finish s
        | (.fault c _ va, s) => finish (s.deviceFault l.ctx v vcore c (l.args.setWidth 32) va)
        | (.bytes bs, s) => match s.loadDict die core l.ctx v l.dictAddr with
          | (.wait, s) => finish s
          | (.fault c _ va, s) => finish (s.deviceFault l.ctx v vcore c (l.dictAddr.setWidth 32) va)
          | (.bytes _, s) =>
            let (gid, s) := s.newId
            let j := l.next.getD v 0
            let g : Group := { launch := lid, ctx := l.ctx, key := groupKeyOf l v j, die := die, vdie := v, core := core, vcore := vcore, num := num, st := .resident, ks := bytesWords 32 bs, spadBase := spadBase, accBase := accBase, spad := [], tags := [], acc := [], cvs := [], handles := [], tagWaits := [], fed := 0, energy := 0, issues := 0, slot := none, wakeBy := [], wokeAt := 0, reserved := [], wct := 0, past := [], recorded := false, stations := [] }
            let s := (s.setGroup gid g).reserveSets gid die core l (List.range (groupSize l / l.width))
            let start := if (l.start.find v).isSome then l.start else l.start.put v (s.now die : Int)
            let used := if l.used.contains (v * 256 + vcore) then l.used else l.used ++ [v * 256 + vcore]
            let l := { l with st := .active, next := l.next.put v (j + 1), start := start, used := used }
            let turn := die * 16 + l.vf
            let s := { s with launches := s.launches.put lid l, decisions := s.decisions.put turn (s.decisions.getD turn 0 + 1) }
            let c := s.core die core
            finish ((s.setCore die core { c with lines := [] }).feedCore die core)
    | _, _ => finish s

/-! ## Parking (R303 to R305) -/

/-- S, the bytes of a save slot (R305): B is taken in units of 1/64 byte, so that spad / 64 is exact. -/
def slotSize (l : Launch) : Nat :=
  let b64 := 64 * (8192 + 4160 * l.handles + 2048 * l.rows + groupSize l * (4 * l.regs + 192)) + 65 * l.spad
  65536 * ((b64 + 64 * 65536 - 1) / (64 * 65536))
/-- Slots of a die's save area (R305). -/
def slotCount (l : Launch) : Nat := (l.saveSize - 65536) / slotSize l
/-- The virtual address of a slot. -/
def slotAddr (l : Launch) (i : Nat) : Nat := l.saveBase + 65536 + i * slotSize l

namespace State

/-- The lowest free slot of a launch's save area on a die (R305). -/
def freeSlot (s : State) (lid : Nat) (l : Launch) (die : Nat) : Option Nat :=
  let used := s.groups.vals.filterMap fun g => if g.launch == lid && g.die == die then g.slot else none
  (List.range (slotCount l)).find? fun i => !used.contains i

/-- What a thread's wait adds to its group's watch records (R255). -/
def watchOf (s : State) (gid : Nat) (g : Group) (slot : Nat) (k : Nat) (t : Thread) : List Watch :=
  let base : Watch := { die := g.die, kind := 3, w64 := false, mayFired := false, ctx := g.ctx, group := gid, slot := slot, key := 0, value := 0, paddr := 0, thread := some k }
  match t.st with
  | .blocked w =>
    if w.kind = waitMonitor then match s.monitors.find k with
      | some m =>
        let a : Watch := { base with kind := 1, w64 := m.w64, key := m.va, value := m.cmp, paddr := m.pa }
        match m.deadline with
        | some d => [a, { base with key := BitVec.ofNat 64 d }]
        | none => [a]
      | none => []
    else if w.kind = waitQueue then [{ base with kind := 2, key := w.val }]
    else if isPark w then [{ base with key := BitVec.ofNat 64 (s.now g.die + w.place / 256), thread := none }]
    else []
  | _ => []

/-- The watch records that a group's waits give. -/
def watchesOf (s : State) (gid : Nat) (g : Group) (slot : Nat) : List Watch :=
  (s.groupThreads gid).flatMap fun k => match s.threads.find k with
    | some t => s.watchOf gid g slot k t
    | none => []

/-- The live threads of a group. -/
def liveThreads (s : State) (gid : Nat) : List (Nat × Thread) :=
  (s.groupThreads gid).filterMap fun k => match s.threads.find k with
    | some t => if t.st == .exited then none else some (k, t)
    | none => none

/-- A group is eligible to park (R303), unless the delay of a PARK of its is over (R253). A pending take and an ECALL give no watch
record and keep the group resident (R348, R381). An MWAIT that still waits to read gives none either, and lets its group park. Mark: DEDUCED (log 32).
Mark: DESIGN CHOICE (log 84). -/
def mayPark (s : State) (gid : Nat) (g : Group) (l : Launch) : Bool :=
  let ts := s.liveThreads gid
  let now := s.clk g.die g.core
  let waiting (t : Thread) : Bool := match t.st with | .blocked _ => true | .point => true | _ => false
  let parked (t : Thread) : Bool := match t.st with | .blocked w => isPark w | _ => false
  let ended (t : Thread) : Bool := match t.st with | .blocked w => isPark w && decide (w.val.toNat ≤ s.now g.die) | _ => false
  let old (t : Thread) : Bool := decide (t.waitFrom + l.parkAfter ≤ now)
  let watches := s.watchesOf gid g 0
  let onDie := (s.watches.vals.filter fun w => w.die == g.die).length
  g.st == .resident && decide (l.saveSize ≠ 0) && ts.all (fun e => waiting e.2 && !ended e.2) &&
  ((decide (l.parkAfter ≠ 0) && ts.all fun e => old e.2) || ts.any fun e => parked e.2) &&
  (s.groupWarps gid).all (fun w => w.2.cp == 0 && w.2.mx == 0 && w.2.qu == 0 && w.2.gs == 0) &&
  g.handles.vals.all (fun h => h.st != .loading && h.st != .busy && h.st != .released) &&
  (s.core g.die g.core).stations.vals.all (fun x => x.group != gid) &&
  decide ((s.groupWarps gid).length ≤ groupSize l / l.width) &&
  !watches.isEmpty && decide (onDie + watches.length ≤ 4096) &&
  -- every producer has its value but for the waits that are saved (R249), and no wait is of a kind that cannot be saved
  s.prods.vals.all (fun p => !(ts.any fun e => e.1 == p.thread) || match p.val with
    | .val _ => true
    | .tagged => true
    | .cvWait _ _ => true
    | _ => false) &&
  ts.all fun e => match e.2.st with
    | .blocked w => w.kind != waitService || w.place != 0xF6
    | _ => true

end State

/-- PARKING (R303, R304): the group's known results are written; unless that has ended a wait, its watch records take over its
monitors and its save begins. -/
def execParking (group : Nat) (s : State) : Res :=
  match s.groups.find group with
  | none => finish s
  | some g => match s.launches.find g.launch with
    | none => finish s
    | some l => match s.freeSlot g.launch l g.die with
      | none => finish s
      | some slot =>
        if !s.mayPark group g l then finish s
        else
          let ts := s.liveThreads group
          let mine := s.prods.filter fun e => ts.any fun t => t.1 == e.2.thread
          let s := mine.foldl (fun s e => match e.2.val with
            | .val ws => s.writeback e.1 e.2 ws
            | _ => s) s
          let waits := (s.liveThreads group).all fun e => match e.2.st with | .blocked _ => true | .point => true | _ => false
          let bytes := (List.range (slotSize l)).map fun i => Config.slotByte group i
          if !waits then finish s
          else match s.devWrite g.die g.ctx g.vdie (slotAddr l slot) bytes (some group) with
          | (.wait, s) => finish s
          | (.fault c i va, s) => finish (s.deviceFault g.ctx g.vdie g.vcore c i va)
          | (.bytes _, s) =>
            let ws := s.watchesOf group g slot
            let s := ws.foldl (fun s w => let (id, s) := s.newId; { s with watches := s.watches.put id w }) s
            let s := { s with monitors := s.monitors.filter fun e => !(ts.any fun t => t.1 == e.1) }.forgetReaders fun k => ts.any fun t => t.1 == k
            finish (s.updGroup group fun g => { g with st := .parking, slot := some slot, wakeBy := [], wokeAt := 0 })

namespace State

/-- A group leaves its core: its threads are parked with their waits, its tiles are kept and the physical ones return. -/
def vacate (s : State) (gid : Nat) : State :=
  match s.groups.find gid with
  | none => s
  | some g =>
    let now := s.clk g.die g.core
    let park (t : Thread) : Thread :=
      match t.st with
      | .blocked w => { t with st := .parked (some w), waitFrom := now - t.waitFrom }
      | .point => { t with st := .parked none, waitFrom := now - t.waitFrom }
      | _ => t
    let s := (s.groupThreads gid).foldl (fun s k => s.updThread k park) s
    let keep (h : Nat × Handle) : Nat × Handle := match h.2.tile with
      | some t => (h.1, { h.2 with tile := none, saved := (s.tile g.die g.core t).bytes })
      | none => h
    let tiles := g.handles.filterMap (·.2.tile)
    let s := s.updGroup gid fun g => { g with handles := g.handles.map keep }
    tiles.foldl (fun s t => s.returnTile g.die g.core t) s

end State

/-- PARK_SAVE_DONE (R304): the save has finished and the resources return; a group whose watch has fired meanwhile is
WAKING at once. Mark: DESIGN CHOICE (log 33). -/
def execParkSaveDone (group : Nat) (s : State) : Res :=
  match s.groups.find group with
  | none => finish s
  | some g =>
    if g.st == .parking && !s.tagPending group then
      let s := s.vacate group
      let (t, s) := s.newId
      let s := s.updGroup group fun g => if g.wokeAt = 0 then { g with st := .parked } else { g with st := .waking, wokeAt := t }
      finish (s.dropDicts g.die g.core)
    else finish s

/-- WATCH_TIMER_FIRE (R256). -/
def execWatchTimerFire (watch : Nat) (s : State) : Res :=
  match s.watches.find watch with
  | none => finish s
  | some w =>
    if w.kind = 3 ∧ w.key.toNat ≤ s.now w.die then finish (s.wakeGroup w.group w.thread) else finish s

/-! ## Relaunch (R256, R306) -/

namespace State

/-- A name of a group has a fresh physical tile with its contents, and a gathering generation of the name follows it (R275, R283). -/
def bindTile (s : State) (gid die core h t : Nat) (x : Handle) (writers readers : List Nat) : State :=
  let s := s.setHandle gid h { x with tile := some t, saved := [] }
  let s := s.updTile die core t fun _ => { bytes := x.saved, writers := writers, readers := readers }
  let cv (e : Nat × Cv) : Nat × Cv := match e.2.mgen with
    | some m => if m.handle = h ∧ m.tile < 128 then (e.1, { e.2 with mgen := some { m with tile := t } }) else e
    | none => e
  s.updGroup gid fun g => { g with cvs := g.cvs.map cv }

/-- Bind fresh physical tiles to a group's bound names (R275). -/
def rebind (s : State) (gid die core : Nat) : State :=
  match s.groups.find gid with
  | none => s
  | some g => g.handles.foldl (fun s h =>
      if !h.2.bound then s
      else match s.freeTiles die core with
        | [] => s
        | t :: _ => s.bindTile gid die core h.1 t h.2 [] []) s

/-- The saved wait of a thread, replaced: a wait of some kind, or the warp point of its PC. Mark: DESIGN CHOICE (log 33). -/
def waitAgain (word : Nat → W32) (at_ : Nat) : TState → TState
  | .parked _ => .parked (wait? word at_)
  | .stopped _ _ => .stopped ((word at_).toNat / 4 % 4) (wait? word at_)
  | x => x
where
  wait? (word : Nat → W32) (at_ : Nat) : Option Wait :=
    if (word at_).getLsbD 0 then some ⟨(word (at_ + 1)).toNat % 18, pairOf (word (at_ + 2)) (word (at_ + 3)), (word (at_ + 4)).toNat⟩ else none

/-- What relaunch finds where a program has written into the slot: the layout decides which byte of the saved state each
written byte replaces (R305), so what R304 has saved there are free values: each thread's registers, which of them are empty, its
predicates and status with its latch and its wait; each warp's roster, counters and TOKWAIT; the scratchpad with its tags, the
accumulator, the convergence registers with what they gather, pending waits on generations and arrival words, and the records and
tiles of bound names. Mark: DESIGN CHOICE (log 33). -/
def replaced (s : State) (gid : Nat) (l : Launch) : State :=
  let (n, s) := s.draw
  let byte (i : Nat) : Byte := Config.restoredByte n i
  let word (i : Nat) : W32 := bytesW32 ((List.range 4).map fun j => byte (4 * i + j))
  let pair (i : Nat) : W64 := pairOf (word i) (word (i + 1))
  let row (i : Nat) : BitVec 512 := BitVec.ofNat 512 (leNat ((List.range 64).map fun j => byte (4 * i + j)))
  let prod (e : Nat × Prod) : Nat × Prod := match e.2.val, s.self e.2.thread with
    | .cvWait _ _, some m => if m.gid = gid then (e.1, { e.2 with val := .cvWait ((word (2 ^ 46 + 2 * e.1)).toNat % 16) (word (2 ^ 46 + 2 * e.1 + 1)) }) else e
    | _, _ => e
  let s := { s with prods := s.prods.map prod }
  let s := (s.groupThreads gid).foldl (fun s k => s.updThread k fun t =>
    let at_ (i : Nat) : Nat := k * 256 + i
    let regs := (List.range l.regs).foldl (fun r i => Tbl.putD r i 0 (word (at_ i))) ([] : Tbl W32)
    { t with st := waitAgain word (at_ 240) t.st, empty := (List.range l.regs).filter fun i => (word (at_ 232 + i / 32)).getLsbD (i % 32), regs := regs, preds := (word (at_ 200)).setWidth 16, fpstat := (word (at_ 201)).setWidth 5, pc := pair (at_ 202), epc := pair (at_ 204), wct := pair (at_ 206), qstat := word (at_ 208), einfo := word (at_ 209), workid := pair (at_ 210), latch := if (byte (4 * at_ 212)).getLsbD 0 then some (row (at_ 216)) else none, xfer := some .anySlot }) s
  let s := (s.groupWarps gid).foldl (fun s w => s.updWarp w.1 fun x =>
    let at_ (i : Nat) : W32 := word (2 ^ 43 + 8 * w.1 + i)
    { x with tokwait := at_ 0, roster := pairOf (at_ 1) (at_ 2) &&& BitVec.ofNat 64 (2 ^ x.width - 1), cp := (at_ 3).toNat % 256, mx := (at_ 4).toNat % 256, qu := (at_ 5).toNat % 256, gs := (at_ 6).toNat % 256 }) s
  let gathers (c : Nat) (x : MGen) : MGen := { x with coord := word (2 ^ 44 + 4 * c + 3), rows := x.rows.map fun e => (e.1, row (2 ^ 47 + (c * 64 + e.1) * 16)) }
  let cv (c : Nat) : Cv := { gen := word (2 ^ 44 + 4 * c), count := (word (2 ^ 44 + 4 * c + 1)).toNat % 65536, sigs := (word (2 ^ 44 + 4 * c + 2)).toNat % 65536, mgen := none }
  let name (h : Nat × Handle) : Nat × Handle :=
    if !h.2.bound then h
    else
      let at_ (i : Nat) : Nat := 2 ^ 45 + h.1 * 8192 + i
      let cells := (List.range 4096).foldl (fun m i => cellSet m i (byte (at_ (16 + i)))) []
      (h.1, { h.2 with fmt := (byte (at_ 0)).setWidth 4, bl := (byte (at_ 1)).setWidth 2, rows := byte (at_ 2), cols := byte (at_ 3), owner := leNat [byte (at_ 4), byte (at_ 5)] % 512, soff := leNat ((List.range 4).map fun j => byte (at_ (6 + j))) % 2 ^ 20, saved := cells })
  s.updGroup gid fun g =>
    { g with spad := (List.range l.spad).foldl (fun m i => cellSet m i (byte (2 ^ 40 + i))) [], tags := (List.range (l.spad / 8)).filter fun i => (byte (2 ^ 42 + i)).getLsbD 0, acc := (List.range (l.rows * 512)).foldl (fun m i => Tbl.putD m i 0 (word (2 ^ 41 + i))) [], cvs := (List.range 16).foldl (fun t c => Tbl.put t c { cv c with mgen := ((g.cvs.find c).bind (·.mgen)).map (gathers c) }) [], handles := g.handles.map name, tagWaits := g.tagWaits.mapIdx fun i w => { w with word := (word (2 ^ 48 + 2 * i)).toNat % 2 ^ 17, gen := (word (2 ^ 48 + 2 * i + 1)).setWidth 16 } }

/-- How a thread of a relaunched group goes on (R256). A wait that an answer has ended while the group was parked stays ended (R342). -/
def resumeThread (s : State) (g : Group) (k : Nat) : State :=
  match s.threads.find k with
  | none => s
  | some t =>
    let now := s.clk g.die g.core
    match t.st with
    | .parked none => s.updThread k fun t => { t with st := .point, waitFrom := now - t.waitFrom }
    | .parked (some w) =>
      let fired := g.wakeBy.contains k
      if w.kind = waitQueue ∧ ¬ fired then s.updThread k fun t => { t with st := .blocked w, waitFrom := now - t.waitFrom }
      else
        let isDone := isPark w || ((w.kind == waitMonitor || w.kind == waitQueue) && fired)
        (s.updThread k fun t => { t with waitDone := t.waitDone || isDone }).ready k
    | _ => s

end State

/-- RELAUNCH (R306): the head of the die's relaunch queue comes back to its core, at a place of the device's choice.
Mark: DEDUCED (log 26), DESIGN CHOICE (logs 33, 48). -/
def execRelaunch (die spadBase accBase : Nat) (s : State) : Res :=
  match s.relaunchHead die with
  | none => finish s
  | some (gid, g, l) => match g.slot with
    | none => finish s
    | some slot =>
      if !s.canRelaunch gid g l || !State.rangeFree (s.spadUsed die g.core) 1048576 spadBase l.spad
          || !State.rangeFree (s.rowsUsed die g.core) 1536 accBase l.rows then finish s
      else match s.devRead die g.ctx g.vdie (slotAddr l slot) (slotSize l) with
        | (.wait, s) => finish s
        | (.fault c i va, s) => finish (s.deviceFault g.ctx g.vdie g.vcore c i va)
        | (.bytes bs, s) => match s.loadDict die g.core g.ctx g.vdie l.dictAddr with
          | (.wait, s) => finish s
          | (.fault c _ va, s) => finish (s.deviceFault g.ctx g.vdie g.vcore c (l.dictAddr.setWidth 32) va)
          | (.bytes _, s) =>
            let same := bs == (List.range (slotSize l)).map fun i => Config.slotByte gid i
            let s := if same then s else s.replaced gid l
            let s := s.updGroup gid fun g => { g with st := .resident, slot := none, spadBase := spadBase, accBase := accBase }
            let s := (s.groupWarps gid).foldl (fun s w => s.updWarp w.1 fun w => { w with prio := l.prio }) s
            let s := s.rebind gid die g.core
            let s := (s.groupThreads gid).foldl (fun s k => s.resumeThread g k) s
            let s := s.updGroup gid fun g => { g with wakeBy := [], wokeAt := 0 }
            -- a pending AWAIT is tested again (R249)
            let s := s.settleWords gid (g.tagWaits.map (·.word)).eraseDups
            let c := s.core die g.core
            finish ((s.setCore die g.core { c with lines := [] }).feedCore die g.core)

/-! ## Retirement -/

/-- WARP_RETIRE (R118, R275): the warp's slots and number are free, and each handle that it owns is released. -/
def execWarpRetire (warp : Nat) (s : State) : Res :=
  match s.warps.find warp with
  | none => finish s
  | some w => match s.groups.find w.group with
    | none => finish s
    | some g =>
      if s.warpDone warp && g.st == .resident then
        let owned := (g.handles.filter fun h => h.2.bound && h.2.owner == w.num).map (·.1)
        let s := owned.foldl (fun s h => s.releaseName w.group h) s
        let ts := (List.range 64).map fun i => threadKey warp i
        let wct := ts.foldl (fun m k => match s.threads.find k with | some t => if t.wctAway then m else max m t.wct.toNat | none => m) 0
        let s := { s with threads := s.threads.filter fun e => e.1 / 64 != warp, warps := s.warps.del warp }
        finish (s.updGroup w.group fun g => { g with wct := max g.wct wct, past := g.past ++ [warp] })
      else finish s

namespace State

/-- A thread's key belongs to a retired warp of the group. -/
def pastThread (g : Group) (k : Nat) : Bool := g.past.contains (k / 64)

/-- Every store, atomic and RED of the group's threads has been performed (R307). -/
def groupWritesDone (s : State) (g : Group) : Bool :=
  let mine (o : Option Nat) : Bool := match o with | some k => pastThread g k | none => false
  s.hreqs.vals.all (fun r => !(mine r.thread && isWrite r.kind)) && s.pwrites.vals.all (fun w => !w.threads.any (pastThread g)) &&
  s.partials.vals.all (fun p => !p.threads.any (pastThread g)) && s.pushes.vals.all (fun p => !p.part.threads.any (pastThread g))

/-- Push the partials that hold REDs of the group's threads. -/
def pushGroup (s : State) (g : Group) : State :=
  (s.partials.filter fun e => e.1 / 2 ^ 30 == coreKey g.die g.core && e.2.threads.any (pastThread g)).foldl
    (fun s e => s.pushPartial g.die g.core (e.1 % 2 ^ 30)) s

/-- The energy record (R400). -/
def energyRecord (g : Group) : List Byte :=
  w64Bytes g.key ++ leBytes 8 g.energy ++ leBytes 8 g.issues ++ [BitVec.ofNat 8 g.vdie, BitVec.ofNat 8 g.vcore] ++ List.replicate 6 0

/-- The phase records of a launch on a virtual die, and the zeros of the placement region (R302, R305). Mark: DEDUCED (log 34). -/
def phaseRecords (l : Launch) (v : Nat) : List Byte :=
  ((List.range 128).flatMap fun vc => (List.range 16).flatMap fun j =>
    let x := if l.used.contains (v * 256 + vc) then l.phases.getD ((v * 128 + vc) * 16 + j) (0, 0) else (0, 0)
    leBytes 4 (min (2 ^ 32 - 1) x.1) ++ leBytes 4 (min (2 ^ 32 - 1) x.2)) ++ List.replicate 49152 0

/-- A group's record ends, and its resources return. -/
def dropGroup (s : State) (gid : Nat) : State :=
  match s.groups.find gid with
  | none => s
  | some g =>
    let tiles := g.handles.filterMap (·.2.tile)
    let s := { s with groups := s.groups.del gid }
    let s := if g.holds then tiles.foldl (fun s t => s.returnTile g.die g.core t) s else s
    s.dropDicts g.die g.core

/-- The launch's next group of the die has retired; the last one writes the phase records, and the die reports (R302,
R321). None where the write has to wait. Mark: DEDUCED (log 34). -/
def reportRetired (s : State) (lid : Nat) (g : Group) : DevRes × State :=
  match s.launches.find lid with
  | none => (.bytes [], s)
  | some l =>
    let n := l.retired.getD g.vdie 0 + 1
    let last := decide (groupsOn l g.vdie ≤ n)
    let r : DevRes × State :=
      if last && decide (l.saveSize ≠ 0) then s.devWrite g.die g.ctx g.vdie l.saveBase (phaseRecords l g.vdie) none
      else (.bytes [], s)
    match r with
    | (.bytes _, s) =>
      let l := { l with retired := l.retired.put g.vdie n, reported := if last then l.reported ++ [g.vdie] else l.reported }
      (.bytes [], { s with launches := s.launches.put lid l })
    | r => r

end State

/-- GROUP_RETIRE (R307, R400): no warp and no continuation is left, every write has been performed and die time has
reached the largest WCT; the energy record is written before the retirement finishes. -/
def execGroupRetire (group : Nat) (s : State) : Res :=
  match s.groups.find group with
  | none => finish s
  | some g => match s.launches.find g.launch with
    | none => finish s
    | some l =>
      let idle := (s.groupWarps group).isEmpty && (s.core g.die g.core).stations.vals.all (fun x => x.group != group) && g.fed == groupSize l
      if !(idle && g.st == .resident) then finish s
      else
        let s := s.pushGroup g
        if !s.groupWritesDone g || decide (s.now g.die < g.wct) then finish s
        else
          let energy := l.pair 20
          if energy ≠ 0 ∧ l.st ≠ .killed ∧ g.recorded = false then
            match s.devWrite g.die g.ctx g.vdie (energy.toNat + 32 * groupIndex l g.key) (State.energyRecord g) (some group) with
            | (.wait, s) => finish s
            | (.fault c i va, s) => finish (s.deviceFault g.ctx g.vdie g.vcore c i va)
            | (.bytes _, s) => finish (s.updGroup group fun g => { g with recorded := true })
          else if s.tagPending group then finish s
          else match s.reportRetired g.launch g with
            | (.wait, s) => finish s
            | (.fault c i va, s) => finish (s.deviceFault g.ctx g.vdie g.vcore c i va)
            | (.bytes _, s) => finish (s.dropGroup group)

end Sys2Proof.Machine
end

