-- ==== Sys2Proof/Machine/Queues.lean ====
section
/-! DEFINITION. Queues: names, rights and translation at the port (R332 to R337), the queue instructions QOPEN to QCLOSE
and LAUNCH (R328, R340 to R354), home's arbiter (R334, R344 to R354, R358), and the answers (R342, R346 to R351). -/

namespace Sys2Proof.Machine

open Host (Cell)

/-! ## Status codes (R340) -/

def qOk : Nat := 0
def qEmpty : Nat := 1
def qFull : Nat := 2
def qVoid : Nat := 3
def qHomelost : Nat := 4
def qProt : Nat := 5
def qNotbound : Nat := 6
def qReset : Nat := 7
def qRange : Nat := 8

/-- The cause of a status without the status form (R340). Mark: DEDUCED (log 39). -/
def qCause : Nat → Option Cause
  | 2 => some .qfull
  | 3 => some .qvoid
  | 4 => some .qhomelost
  | 5 => some .qprot
  | 6 => some .qnotbound
  | 8 => some .qrange
  | _ => none

/-- QSTAT (R341). -/
def qstatOf (code : Nat) (opcode : Byte) : W32 := BitVec.ofNat 32 (code % 16 + 16 * opcode.toNat)

/-! ## Queues at home (R332, R334) -/

def quKey (home slot : Nat) : Nat := home * 65536 + slot
def quHome (key : Nat) : Nat := key / 65536
/-- Bytes of an element (R332). -/
def elemSize (esize : Nat) : Nat := 16 * 2 ^ esize
/-- Elements that a queue holds (R332). -/
def Queue.capacity (q : Queue) : Nat := q.window + match q.spilllog with | some n => 2 ^ n | none => 0
/-- The head ticket is FILLED or VOID. -/
def Queue.headReady (q : Queue) : Bool :=
  match q.tickets.find q.head with
  | some .filled => true
  | some .void => true
  | _ => false
/-- A CLOSED queue whose granted tickets are all taken. -/
def Queue.drained (q : Queue) : Bool := q.st == .closed && q.head == q.tail
/-- Consecutive FILLED tickets from the head, at most `n`. -/
def Queue.run (q : Queue) : Nat → Nat → Nat
  | 0, _ => 0
  | n + 1, t => match q.tickets.find t with
    | some .filled => q.run n (t + 1) + 1
    | _ => 0

/-- Where the spill region holds a ticket's element (R334). -/
def Queue.spillAt (q : Queue) (t : Nat) : Nat := q.sbase + elemSize q.esize * (t % 2 ^ (q.spilllog.getD 0))

namespace State

def setQueue (s : State) (key : Nat) (q : Queue) : State := { s with queues := s.queues.put key q }

/-- The bytes of a ticket's element: in its window slot, or in the spill region (R334). -/
def elemRead (s : State) (key : Nat) (q : Queue) (t : Nat) : List Byte :=
  let n := elemSize q.esize
  if t < q.head + q.window then cellsGet s.window (quHome key * 2 ^ 26 + q.wbase + n * (t % q.window)) n
  else s.memRead (quHome key) (q.spillAt t) n

def elemWrite (s : State) (key : Nat) (q : Queue) (t : Nat) (bs : List Byte) : State :=
  let n := elemSize q.esize
  if t < q.head + q.window then
    { s with window := cellsSet s.window (quHome key * 2 ^ 26 + q.wbase + n * (t % q.window)) bs }
  else (s.memWrite (quHome key) (q.spillAt t) bs).chargeHbm (quHome key) (q.spillAt t) (some q.ctx)

/-- The head ticket is TAKEN: H goes on, and a spilled ticket that now falls in the window moves into its slot (R334). -/
def stepHead (s : State) (key : Nat) : State :=
  match s.queues.find key with
  | none => s
  | some q =>
    let q' := { q with head := q.head + 1, tickets := q.tickets.del q.head, byLaunch := q.byLaunch.filter (· != q.head) }
    let t := q.head + q.window
    let s := if t < q.tail then (s.elemWrite key q' t (s.elemRead key q t)).chargeHbm (quHome key) (q.spillAt t) (some q.ctx) else s
    s.setQueue key q'

def stepHeads (s : State) (key : Nat) : Nat → State
  | 0 => s
  | n + 1 => (s.stepHead key).stepHeads key n

/-- Home or a port answers a request. `served` counts the elements taken for it (R358). -/
def answer (s : State) (r : QReq) (code : Nat) (value : W64) (bytes : List Byte) (served : Nat) : State :=
  let (id, s) := s.newId
  { s with answers := s.answers.put id { req := r, code := code, value := value, bytes := bytes, served := served } }

/-- A take is served from a takeable head (R348, R349). -/
def serveTake (s : State) (key : Nat) (r : QReq) : State :=
  match s.queues.find key with
  | none => s
  | some q => match q.tickets.find q.head with
    | some .filled => match r.op with
      | .takes m _ =>
        let k := q.run m q.head
        let bs := (List.range k).flatMap fun i => s.elemRead key q (q.head + i)
        (s.stepHeads key k).answer r qOk (BitVec.ofNat 64 k) bs k
      | _ =>
        let bs := s.elemRead key q q.head
        (s.stepHead key).answer r qOk 1 bs 1
    | _ => (s.stepHead key).answer r qVoid 0 [] 0

/-- Every pending take and waiter of a queue that is CLOSED and drained gets VOID (R348, R351). -/
def serveDrained (s : State) (key : Nat) : State :=
  match s.queues.find key with
  | none => s
  | some q =>
    if q.drained then
      let s := s.setQueue key { q with takes := [], waiters := [] }
      (q.takes ++ q.waiters).foldl (fun s r => s.answer r qVoid 0 [] 0) s
    else s

/-- The head has become FILLED or VOID, or H has advanced: pending takes are served first, and then one waiter (R348,
R351). -/
def onHead (s : State) (key : Nat) : Nat → State
  | 0 => s
  | fuel + 1 =>
    match s.queues.find key with
    | none => s
    | some q =>
      if !q.headReady then s.serveDrained key
      else match q.takes with
        | r :: rs => ((s.setQueue key { q with takes := rs }).serveTake key r).onHead key fuel
        | [] => match q.waiters with
          | w :: ws => (s.setQueue key { q with waiters := ws }).answer w qOk 0 [] 0
          | [] => s
def headMoved (s : State) (key : Nat) : State :=
  s.onHead key (match s.queues.find key with | some q => q.takes.length + 1 | none => 0)

/-- One more failure that is raised on no thread (R333, R346). -/
def countErr (s : State) (key n : Nat) : State :=
  match s.queues.find key with
  | some q => s.setQueue key { q with errs := min (2 ^ 64 - 1) (q.errs + n) }
  | none => s

/-! ## Translation at the port (R335, R336) -/

end State

/-- What a QID names, and the rights that its entry grants. -/
structure Bind where
  home   : Nat
  slot   : Nat
  inc    : BitVec 16
  key    : BitVec 48
  conf   : Bool
  rights : BitVec 3
  esize  : Nat
  deriving DecidableEq, Repr

/-- The right that an instruction needs (R337): 0 produce, 1 consume, 2 reset, 3 any one. -/
def hasRight (rights : BitVec 3) (need : Nat) : Bool := if need = 3 then rights != 0 else rights.getLsbD need

/-- The slot at a queue's home that a context's remap table gives (R379). -/
def Context.slotOf (c : Context) (v slot : Nat) : Nat := c.slots.getD (v * 65536 + slot) slot

namespace State

/-- The QID entry of a context on a virtual die, as the port of that die sees it: cached, or read from the table (R335,
R336); none beyond the table. Mark: DESIGN CHOICE (log 10). -/
def qidEntry (s : State) (ctx vdie die qid : Nat) : Option (BitVec 128) × State :=
  match s.contexts.find ctx, s.xrec ctx vdie with
  | some c, some x =>
    if c.qtlen ≤ qid then (none, s)
    else match s.qidCache.find? fun e => e.ctx == ctx && e.die == die && e.qid == qid with
      | some e => (some e.bits, s)
      | none =>
        let pa := x.qtbase + 16 * qid
        if dieSpan < pa + 16 then (none, s.fail (.noSuchPhysical die pa))
        else
          let bits : BitVec 128 := BitVec.ofNat 128 (leNat (s.memRead die pa 16))
          (some bits, { s with qidCache := { ctx := ctx, die := die, qid := qid, bits := bits } :: s.qidCache }.chargeHbm die pa (some ctx))
  | _, _ => (none, s)

/-- The translation of a QID, or the status that ends the request (R336). Mark: DEDUCED (log 40), DESIGN CHOICE (log 72). -/
def bindQ (s : State) (ctx vdie die qid need : Nat) : Except Nat Bind × State :=
  match s.qidEntry ctx vdie die qid with
  | (none, s) => (.error qNotbound, s)
  | (some e, s) =>
    let rights : BitVec 3 := e.extractLsb' 1 3
    if !e.getLsbD 0 then (.error qNotbound, s)
    else if !hasRight rights need then (.error qProt, s)
    else match s.contexts.find ctx with
      | none => (.error qNotbound, s)
      | some c => match c.remap.find (e.extractLsb' 32 3).toNat with
        | none => (.error qNotbound, s)
        | some home =>
          if e.extractLsb' 48 16 ≠ c.vpkg then (.error qNotbound, s)
          else (.ok { home := home, slot := c.slotOf (e.extractLsb' 32 3).toNat (e.extractLsb' 16 16).toNat, inc := e.extractLsb' 64 16, key := e.extractLsb' 80 48, conf := e.getLsbD 4, rights := rights, esize := (e.extractLsb' 5 3).toNat }, s)

/-- The element size of a QID whose binding holds, with no test of rights (R343). -/
def bindSize (s : State) (ctx vdie die qid : Nat) : Option Nat × State :=
  match s.bindQ ctx vdie die qid 3 with
  | (.ok b, s) => (some b.esize, s)
  | (.error n, s) =>
    if n = qNotbound then (none, s)
    else match s.qidEntry ctx vdie die qid with
      | (some e, s) => match s.contexts.find ctx with
        | some c =>
          if (c.remap.find (e.extractLsb' 32 3).toNat).isNone ∨ e.extractLsb' 48 16 ≠ c.vpkg then (none, s)
          else (some (e.extractLsb' 5 3).toNat, s)
        | none => (none, s)
      | (none, s) => (none, s)

/-- QSTAT, and with the status form the predicate, are written (R341, R342). -/
def setStatus (s : State) (k : Nat) (opcode : Byte) (code : Nat) (st : Bool) (ps : PredNo) : State :=
  s.updThread k fun t =>
    if t.st == .exited then t
    else
      let t := { t with qstat := qstatOf code opcode }
      if st then t.setPred ps (code == qOk) else t

/-- A thread's cause that is raised at its next slot (R342). -/
def deferCause (s : State) (k : Nat) (c : Cause) (info : W32) : State :=
  s.updThread k fun t => if t.st == .exited then t else { t with deferred := t.deferred ++ [(c, info)] }

/-- A request leaves the port (R336). -/
def sendQ (s : State) (r : QReq) : State := { s with qreqs := s.qreqs ++ [{ r with word := s.word }] }

/-- A thread's request that holds it at its slot is under way (R342). -/
def heldQ (s : State) (k : Nat) : Bool :=
  let mine (r : QReq) : Bool := r.thread == k && r.prod.isNone && r.eop.isNone && !r.posted
  s.qreqs.any mine || s.answers.vals.any (fun a => mine a.req) ||
  s.queues.vals.any fun q => q.waiters.any mine || (match q.resetBy with | some r => mine r | none => false)

end State

/-- A request of a member. -/
def mkReq (m : Self) (b : Bind) (id : Nat) (qid : W32) (opcode : Byte) (op : QOp) (st : Bool) (ps : PredNo) : QReq :=
  { id := id, src := m.g.die, home := b.home, slot := b.slot, inc := b.inc, key := b.key, conf := b.conf, ctx := m.g.ctx, thread := m.k, warp := m.t.warp, group := m.gid, qid := qid, opcode := opcode, op := op, regs := [], st := st, ps := ps, prod := none, eop := none, posted := false, word := 0, pc := m.t.pc }

/-! ## The three ways in which an instruction reports (R342) -/

/-- The wait of a thread that is held at its slot until home answers. Mark: DEDUCED (log 65). -/
def heldWait (opcode : Byte) (qid : W32) : Wait :=
  if opcode = 0xE7 then ⟨waitQueue, qid.setWidth 64, 0xE7⟩ else ⟨waitOther, 0, opcode.toNat⟩

/-- An instruction that is held at its slot (R342). -/
def heldBody (opcode : Byte) (need : Nat) (a : Opd) (st : Bool) (ps : PredNo) (mk : Self → State → QReq → QReq) (op : Bind → QOp) : Body :=
  fun m s =>
    let qid := s.src m a
    if m.t.waitDone then clearDone m s
    else if s.heldQ m.k then (.block (heldWait opcode qid), s)
    else match s.bindQ m.g.ctx m.g.vdie m.g.die qid.toNat need with
      | (.error code, s) =>
        let s := s.setStatus m.k opcode code st ps
        if st then (.done, s)
        else match qCause code with
          | some c => (.raise c qid, s)
          | none => (.done, s)
      | (.ok b, s) =>
        let (id, s) := s.newId
        (.block (heldWait opcode qid), s.sendQ (mk m s (mkReq m b id qid opcode (op b) st ps)))

/-- A long-latency producer (R342): `early` is a status that the port itself gives, `acq` a fence behind it (R348). Mark: DEDUCED (log 39). -/
def lateBody (opcode : Byte) (need : Nat) (d a : Opd) (words : Nat) (st : Bool) (ps : PredNo) (acq : Bool) (early : Self → State → Option Nat) (op : Self → State → Bind → QOp) : Body :=
  fun m s =>
    let qid := s.src m a
    let s0 := if st then s.updThread m.k fun t => t.setPred ps false else s
    let lost (code : Nat) (s : State) : Verdict × State :=
      let s := s.setStatus m.k opcode code st ps
      match st, qCause code with
      | false, some c => (.done, s.deferCause m.k c qid)
      | _, _ => (.done, s)
    match early m s with
    | some code => lost code s0
    | none => match s0.bindQ m.g.ctx m.g.vdie m.g.die qid.toNat need with
      | (.error code, s) => lost code s
      | (.ok b, s) =>
        let (p, s) := s.produce m d words .queue (if acq then some (0, 0) else none)
        let (id, s) := s.newId
        let r := mkReq m b id qid opcode (op m s b) st ps
        let s := s.sendQ { r with prod := some p }
        (afterAcq acq m s, s)

/-! ## Asynchronous operations (R84, R342) -/

namespace State

/-- A member's asynchronous operation has ended (R342): status, deferred cause, charge (R398), and with the last member
of the issue group the completion. Mark: DEDUCED (log 59). -/
def finishQu (s : State) (e code bytes : Nat) : State :=
  match s.quOps.find e with
  | none => s
  | some u =>
    let s := { s with quOps := s.quOps.del e }
    let s := s.setStatus u.thread u.opcode code u.st u.ps
    let live : Bool := match s.threads.find u.thread with | some t => t.st != .exited | none => false
    let d : List (Nat × Cause × W32) := match u.st, qCause code with
      | false, some c => if live then [(u.thread, c, u.qid)] else []
      | _, _ => []
    let s := s.charge u.group 11 ((bytes + 63) / 64)
    let last := s.quOps.vals.all fun x => x.seq != u.seq
    let f (o : Outst) : Outst := if o.seq = u.seq then { o with done := last, defer := o.defer ++ d } else o
    (s.updWarp u.warp fun w => { w with outst := w.outst.map f }).reportWarp u.warp

end State

/-- What a member's asynchronous operation asks of home; none where it ends at the port with a status. -/
inductive Async where
  | ends (code : Nat)
  | sends (b : Bind) (op : QOp) (first count off : Nat)
  deriving DecidableEq, Repr

/-- Start one member's asynchronous operation under the completion `seq` of its issue group. -/
def startAsync (opcode : Byte) (a d : Opd) (st : Bool) (ps : PredNo) (go : Self → State → Async × State) (seq : Nat) (s : State) (m : Self) : State :=
  let qid := s.src m a
  let s := if st then s.updThread m.k fun t => t.setPred ps false else s
  let (act, s) := go m s
  let (e, s) := s.newId
  let wantsD := opcode == 0xE5 && (match d with | .g _ => true | _ => false)
  let u : QuOp := { thread := m.k, warp := m.t.warp, group := m.gid, die := m.g.die, ctx := m.g.ctx, opcode := opcode, qid := qid, seq := seq, st := st, ps := ps, prod := none, first := 0, count := 0, off := 0, esize := 0, answered := 0, filled := 0, code := qOk, moved := 0, held := false, pc := m.t.pc, word := s.word }
  match act with
  | .ends code =>
    let s := if code = qOk ∧ wantsD then s.updThread m.k fun t => t.write d [0] else s
    ({ s with quOps := s.quOps.put e u }).finishQu e code 0
  | .sends b op first count off =>
    let (prod, s) : Option Nat × State :=
      if wantsD then let r := s.produce m d 1 .queue none; (some r.1, r.2) else (none, s)
    let u := { u with prod := prod, first := first, count := count, off := off, esize := b.esize }
    let (id, s) := s.newId
    let r := mkReq m b id qid opcode op st ps
    ({ s with quOps := s.quOps.put e u }).sendQ { r with prod := prod, eop := some e }

/-- The members of an issue group start their operations, one completion for each warp (R84). -/
def startAsyncs (opcode : Byte) (a d : Opd) (st : Bool) (ps : PredNo) (go : Self → State → Async × State) (did : List Nat) (s : State) : State :=
  (did.map (· / 64)).eraseDups.foldl (fun s w =>
    let ms := did.filter fun k => k / 64 == w
    let (seq, s) := s.countOp w 2 w
    -- a mark keeps the completion open while the members start
    let (mark, s) := s.newId
    let s := { s with quOps := s.quOps.put mark (pendingOp seq w) }
    let s := ms.foldl (fun s k => match s.self k with
      | some m => startAsync opcode a d st ps go seq s m
      | none => s) s
    let s := { s with quOps := s.quOps.del mark }
    let last := s.quOps.vals.all fun x => x.seq != seq
    let f (o : Outst) : Outst := if o.seq = seq then { o with done := last } else o
    (s.updWarp w fun w => { w with outst := w.outst.map f }).reportWarp w) s
where
  /-- A mark that keeps the completion open while the members start. -/
  pendingOp (seq w : Nat) : QuOp :=
    { thread := w * 64, warp := w, group := 0, die := 0, ctx := 0, opcode := 0, qid := 0, seq := seq, st := false, ps := 0, prod := none, first := 0, count := 0, off := 0, esize := 0, answered := 0, filled := 0, code := 0, moved := 0, held := false, pc := 0, word := 0 }

/-! ## The instructions -/

/-- The registers of an operand of `n` words. -/
def regsOf (o : Opd) (n : Nat) : List Nat := Thread.opdRegs o n
/-- LEN in bytes (R346). -/
def lenBytes (len : BitVec 2) : Nat := match len.toNat with | 0 => 16 | 1 => 32 | _ => 64

/-- QOPEN (R344). -/
def execQopen (q : Ctl) (d a : Opd) (sf : Bool) (ps : PredNo) (s : State) : Res :=
  runSlot (.qopen q d a sf ps)
    (heldBody 0xE0 3 a sf ps (fun _ _ r => { r with regs := regsOf d 2 }) fun b => .open_ b.rights) s

/-- QRSV (R345). -/
def execQrsv (q : Ctl) (d a b : Opd) (sf : Bool) (ps : PredNo) (s : State) : Res :=
  runSlot (.qrsv q d a b sf ps)
    (lateBody 0xE1 0 d a 2 sf ps false
      (fun m s => let n := (s.src m b).toNat; if n = 0 ∨ 65535 < n then some qRange else none)
      fun m s _ => .reserve (s.src m b).toNat) s

/-- The bytes of an element that QPUT sends (R346). -/
def putBytes (m : Self) (s : State) (d : Opd) (len : BitVec 2) (esize : Nat) : List Byte :=
  let bs := wordsBytes (s.srcRun m d (lenBytes len / 4))
  (bs ++ List.replicate (elemSize esize) 0).take (elemSize esize)

/-- QPUT (R346): held at the slot with the status form, posted without it. -/
def execQput (q : Ctl) (d a b : Opd) (rel : Bool) (len : BitVec 2) (sf : Bool) (ps : PredNo) (s : State) : Res :=
  runSlot (.qput q d a b rel len sf ps) (fun m s =>
    match if m.t.waitDone then none else relFirst rel m s with
    | some r => r
    | none =>
      let fill (x : Bind) : QOp := .fill (s.src64 m b).toNat (putBytes m s d len x.esize)
      if sf then heldBody 0xE2 0 a sf ps (fun _ _ r => r) fill m s
      else
        let qid := s.src m a
        match s.bindQ m.g.ctx m.g.vdie m.g.die qid.toNat 0 with
        | (.error code, s) =>
          let s := s.setStatus m.k 0xE2 code false ps
          match qCause code with
          | some c => (.done, s.deferCause m.k c qid)
          | none => (.done, s)
        | (.ok x, s) =>
          let (id, s) := s.newId
          let r := mkReq m x id qid 0xE2 (fill x) false ps
          (.done, s.sendQ { r with posted := true })) s

/-- The checks of QPUTS and QTAKES at issue (R343, R347, R349): a pending AWAIT (R226), and SPADRANGE with the element
size of the QID entry. Mark: DEDUCED (log 19). -/
def runCheck (a off cnt : Opd) : Body := fun m s =>
  match s.bindSize m.g.ctx m.g.vdie m.g.die (s.src m a).toNat with
  | (none, s) => (.done, s)
  | (some e, s) =>
    let n := (s.src m cnt).toNat
    let o := (s.src m off).toNat
    if 65535 < n ∨ n = 0 then (.done, s)
    else if m.l.spad < o + n * elemSize e then (spadRange o, s)
    else match s.pendingAwait m with
      | some w => (awaitWait w, s)
      | none => (.done, s)

/-- What QPUTS and QTAKES ask of home. Mark: DEDUCED (log 39). -/
def runAsync (need : Nat) (a cnt off : Opd) (first : Self → State → Nat) (op : Nat → Nat → QOp) (m : Self) (s : State) : Async × State :=
  let n := (s.src m cnt).toNat
  match s.bindSize m.g.ctx m.g.vdie m.g.die (s.src m a).toNat with
  | (none, s) => (.ends qNotbound, s)
  | (some _, s) =>
    if 65535 < n then (.ends qRange, s)
    else match s.bindQ m.g.ctx m.g.vdie m.g.die (s.src m a).toNat need with
      | (.error code, s) => (.ends code, s)
      | (.ok b, s) =>
        if n = 0 then (.ends qOk, s)
        else (.sends b (op n (s.src m off).toNat) (first m s) n (s.src m off).toNat, s)

/-- QPUTS (R347). -/
def execQputs (q : Ctl) (d a b c : Opd) (rel sf : Bool) (ps : PredNo) (s : State) : Res :=
  runSlotThen (.qputs q d a b c rel sf ps) (fun m s =>
      match relFirst rel m s with
      | some r => r
      | none => runCheck a d c m s)
    (fun _ did s => startAsyncs 0xE3 a d sf ps (runAsync 0 a c d (fun m s => (s.src64 m b).toNat) fun _ _ => .fill 0 []) did s) s

/-- QTAKE (R348). -/
def execQtake (q : Ctl) (d a : Opd) (acq : Bool) (len : BitVec 2) (sf : Bool) (ps : PredNo) (s : State) : Res :=
  runSlot (.qtake q d a acq len sf ps)
    (lateBody 0xE4 1 d a (lenBytes len / 4) sf ps acq (fun _ _ => none) fun _ _ _ => .take (lenBytes len)) s

/-- QTAKES (R349). -/
def execQtakes (q : Ctl) (d a b c : Opd) (acq sf : Bool) (ps : PredNo) (s : State) : Res :=
  runSlotThen (.qtakes q d a b c acq sf ps) (runCheck a b c)
    (fun _ did s => startAsyncs 0xE5 a d sf ps (runAsync 1 a c b (fun _ _ => 0) .takes) did s) s

/-- QPEEK (R350). -/
def execQpeek (q : Ctl) (d a : Opd) (sf : Bool) (ps : PredNo) (s : State) : Res :=
  runSlot (.qpeek q d a sf ps)
    (lateBody 0xE6 3 d a 2 sf ps false (fun _ _ => none) fun _ _ b => .peek b.rights) s

/-- QWAIT (R351). -/
def execQwait (q : Ctl) (a : Opd) (sf : Bool) (ps : PredNo) (s : State) : Res :=
  runSlot (.qwait q a sf ps) (heldBody 0xE7 1 a sf ps (fun _ _ r => r) fun _ => .wait) s

/-- QRESET (R352). -/
def execQreset (q : Ctl) (a : Opd) (sf : Bool) (ps : PredNo) (s : State) : Res :=
  runSlot (.qreset q a sf ps) (heldBody 0xE8 2 a sf ps (fun _ _ r => r) fun _ => .reset) s

/-- QCLOSE (R354). -/
def execQclose (q : Ctl) (a : Opd) (sf : Bool) (ps : PredNo) (s : State) : Res :=
  runSlot (.qclose q a sf ps) (heldBody 0xE9 2 a sf ps (fun _ _ r => r) fun _ => .close) s

/-- LAUNCH (R328). Mark: DEDUCED (log 37). -/
def execLaunch (q : Ctl) (a b : Opd) (sf : Bool) (ps : PredNo) (s : State) : Res :=
  runSlotThen (.launch q a b sf ps) (fun m s =>
      let off := (s.src m b).toNat
      if off % 8 ≠ 0 then (spadMisalign 4 5 off, s)
      else if m.l.spad < off + 128 then (spadRange off, s)
      else match s.pendingAwait m with
        | some w => (awaitWait w, s)
        | none => (.done, s))
    (fun _ did s => startAsyncs 0xEA a .none sf ps (fun m s =>
      match s.bindQ m.g.ctx m.g.vdie m.g.die (s.src m a).toNat 0 with
      | (.error code, s) => (.ends code, s)
      | (.ok x, s) => (.sends x (.launch []) 0 1 (s.src m b).toNat, s)) did s) s

/-! ## Home's arbiter -/

/-- The key of the right that a request uses (R337). -/
def keyOk (q : Queue) (r : QReq) : Bool :=
  let is (k : BitVec 48) : Bool := k != 0 && r.key == k
  let any (rights : BitVec 3) : Bool := (rights.getLsbD 0 && is q.keyp) || (rights.getLsbD 1 && is q.keyc) || (rights.getLsbD 2 && is q.keyr)
  match r.op with
  | .open_ rights => any rights
  | .peek rights => any rights
  | .reserve _ => is q.keyp
  | .fill _ _ => is q.keyp
  | .launch _ => is q.keyp
  | .take _ => is q.keyc
  | .takes _ _ => is q.keyc
  | .wait => is q.keyc
  | .reset => is q.keyr
  | .close => is q.keyr

/-- The checks that home makes before its arbiter takes a request (R337). -/
def homeStatus (q : Queue) (r : QReq) : Nat :=
  if q.st = .free ∨ r.inc ≠ q.inc then qHomelost
  else if r.conf ≠ q.conf then qProt
  else if !keyOk q r then qProt
  else qOk

namespace State

/-- Whether a take or wait would stay pending at home. -/
def pends (q : Queue) (r : QReq) : Bool :=
  match r.op with
  | .take _ => !r.st && !q.headReady && !q.drained
  | .takes _ _ => !r.st && !q.headReady && !q.drained
  | .wait => !q.headReady && !q.drained
  | _ => false

/-- Whether home's arbiter may take a request now: a RESETTING queue takes only QPEEKs and fills of stale tickets (R352),
and 4,096 takes and waiters at most are pending (R343). Mark: DEDUCED (log 38). -/
def mayArrive (s : State) (r : QReq) : Bool :=
  match s.queues.find (quKey r.home r.slot) with
  | none => true
  | some q =>
    if homeStatus q r ≠ qOk then true
    else if q.st = .resetting then match r.op with
      | .peek _ => true
      | .fill t _ => match r.eop.bind s.quOps.find with
        | some u => decide (u.first + u.moved < q.rmark)
        | none => decide (t < q.rmark)
      | _ => false
    else !(pends q r && decide (4096 ≤ q.takes.length + q.waiters.length))

/-- A request that has arrived and that home holds while its queue is RESETTING: QPEEKs and stale fills behind it are answered
(R350, R352). Mark: DEDUCED (log 38). -/
def heldByReset (s : State) (r : QReq) : Bool :=
  !s.mayArrive r && match s.queues.find (quKey r.home r.slot) with
    | some q => q.st == .resetting
    | none => false

/-- The next request of one kind from a port to a home. The requests of one thread to one queue keep their order
(R343). Mark: DEDUCED (log 38). -/
def nextReq (s : State) (home src : Nat) (want : QOp → Bool) : List QReq → List (Nat × Nat) → Option QReq
  | [], _ => none
  | r :: rs, late =>
    if r.home ≠ home ∨ r.src ≠ src ∨ !(s.reaches src home || s.cutOff src home) then s.nextReq home src want rs late
    else if !late.contains (r.thread, r.slot) && want r.op && s.mayArrive r then some r
    else s.nextReq home src want rs (if s.heldByReset r then late else (r.thread, r.slot) :: late)

def dropReq (s : State) (id : Nat) : State := { s with qreqs := s.qreqs.filter fun r => r.id != id }

/-- The element size and the bytes that an asynchronous producer reads from its scratchpad (R347, R328). Mark: DEDUCED (log 37). -/
def sourceBytes (s : State) (u : QuOp) (i n : Nat) : List Byte := s.spadRead u.group (u.off + i * n) n
/-- The body of a request's packet: the bytes that it carries to home (R384). -/
def reqBody (s : State) (r : QReq) : List Byte :=
  match r.op, r.eop.bind s.quOps.find with
  | .launch _, some u => s.sourceBytes u 0 128
  | .fill _ _, some u => s.sourceBytes u u.moved (elemSize u.esize)
  | .fill _ bs, none => bs
  | _, _ => []
/-- A request's packet goes from the port's die to home (R19). Mark: DESIGN CHOICE (log 55). -/
def crossReq (s : State) (r : QReq) (body : List Byte) : State := s.crossTo r.src r.home r.slot (r.src * 8 + r.home) r.conf r.ctx body
/-- An answer's packet goes from home to the port's die (R19). Mark: DESIGN CHOICE (log 55). -/
def crossAns (s : State) (a : QAns) : State :=
  s.crossTo a.req.home a.req.src a.req.slot (64 + a.req.home * 8 + a.req.src) a.req.conf a.req.ctx a.bytes

/-- The status of a fill of a ticket (R346). -/
def fillStatus (q : Queue) (t : Nat) : Nat :=
  if t < q.rmark then qReset
  else if q.tail ≤ t ∨ t < q.head then qRange
  else match q.tickets.find t with
    | some .void => qVoid
    | some (.reserved _) => qOk
    | _ => qRange

/-- Fill a RESERVED ticket. -/
def fillTicket (s : State) (key : Nat) (q : Queue) (t : Nat) (bs : List Byte) : State :=
  let q' := { q with tickets := q.tickets.put t .filled }
  let s := (s.elemWrite key q t bs).setQueue key q'
  if t = q.head then s.headMoved key else s

/-- Grant tickets to a requester's die (R345). -/
def grant (s : State) (key : Nat) (q : Queue) (n src : Nat) : State :=
  let ts := (List.range n).foldl (fun l i => Tbl.put l (q.tail + i) (TkState.reserved src)) q.tickets
  s.setQueue key { q with tail := q.tail + n, tickets := ts }

/-- QOPEN's answer (R344). -/
def openValue (s : State) (q : Queue) (r : QReq) (rights : BitVec 3) : W64 :=
  let vpkg := match s.contexts.find r.ctx with | some c => c.vpkg.toNat | none => 0
  BitVec.ofNat 64 (q.esize + (if q.conf then 8 else 0) + rights.toNat * 16 + (if q.lq then 128 else 0) +
    q.spilllog.getD 255 * 2 ^ 8 + q.window * 2 ^ 16 + (s.vdieOf r.ctx r.home).getD 0 * 2 ^ 32 + vpkg * 2 ^ 48)

def qstateCode : QState → Nat
  | .free => 0
  | .active => 1
  | .closed => 2
  | .resetting => 3

/-- QPEEK's answer (R350). -/
def peekValue (q : Queue) : W64 :=
  let v := match q.tickets.find q.head with | some .void => 1 | _ => 0
  BitVec.ofNat 64 (min (q.tail - q.head) (2 ^ 32 - 1) + q.run 65535 q.head * 2 ^ 32 + qstateCode q.st * 2 ^ 48 + v * 2 ^ 50)

end State

/-- Home's arbiter takes the next request of one kind: `act` has its effect once the checks of R337 have passed. A request to a home that
can no longer be reached gets HOMELOST (R388). Mark: DEDUCED (logs 38, 57). -/
def homeTurn (home src : Nat) (want : QOp → Bool) (act : Nat → Queue → QReq → State → State) (s : State) : Res :=
  match s.nextReq home src want s.qreqs [] with
  | none => finish s
  | some r =>
    let key := quKey home r.slot
    let out (s' : State) : Res := finish (s'.crossReq r (s.reqBody r))
    if s.cutOff src home then finish ((s.dropReq r.id).answer r qHomelost 0 [] 0)
    else match s.queues.find key with
    | none => out ((s.dropReq r.id).answer r qHomelost 0 [] 0)
    | some q =>
      if homeStatus q r ≠ qOk then out ((s.dropReq r.id).answer r (homeStatus q r) 0 [] 0)
      else out (act key q r ((s.dropReq r.id).chargeBank (512 + home) r.ctx 1))

/-- HOME_OPEN (R344). -/
def execHomeOpen (home src : Nat) (s : State) : Res :=
  homeTurn home src (fun o => match o with | .open_ _ => true | _ => false)
    (fun _ q r s => match r.op with
      | .open_ rights => s.answer r qOk (s.openValue q r rights) [] 0
      | _ => s) s

/-- HOME_RESERVE (R345, R328): a grant is all or nothing; a LAUNCH's slot is reserved and filled in one step. Mark: DEDUCED (log 37). -/
def execHomeReserve (home src : Nat) (s : State) : Res :=
  homeTurn home src (fun o => match o with | .reserve _ => true | .launch _ => true | _ => false)
    (fun key q r s =>
      let n := match r.op with | .reserve n => n | _ => 1
      if q.st = .closed then s.answer r qVoid 0 [] 0
      else if q.capacity < q.tail - q.head + n then s.answer r qFull 0 [] 0
      else match r.op with
        | .launch _ =>
          let bs := match r.eop.bind s.quOps.find with | some u => s.sourceBytes u 0 128 | none => []
          let bs := (bs ++ List.replicate (elemSize q.esize) 0).take (elemSize q.esize)
          let q' := { q with tail := q.tail + 1, tickets := q.tickets.put q.tail (.reserved src), byLaunch := q.byLaunch ++ [q.tail] }
          (s.fillTicket key q' q.tail bs).answer r qOk 0 [] 0
        | _ => (s.grant key q n src).answer r qOk (BitVec.ofNat 64 q.tail) [] 0) s

/-- HOME_FILL (R346, R347): a fill of one ticket. A QPUTS goes on to its next ticket until all have been taken. Mark: DEDUCED (logs 37, 39). -/
def execHomeFill (home src : Nat) (s : State) : Res :=
  match s.nextReq home src (fun o => match o with | .fill _ _ => true | _ => false) s.qreqs [] with
  | none => finish s
  | some r =>
    let key := quKey home r.slot
    let own : Option (Nat × QuOp) := match r.eop with
      | some e => (s.quOps.find e).map fun u => (e, u)
      | none => none
    let t := match own, r.op with
      | some (_, u), _ => u.first + u.moved
      | none, .fill t _ => t
      | none, _ => 0
    let more := match own with | some (_, u) => decide (u.moved + 1 < u.count) | none => false
    let s1 := if more then s else s.dropReq r.id
    let s1 := match own with
      | some (e, u) => { s1 with quOps := s1.quOps.put e { u with moved := u.moved + 1 } }
      | none => s1
    let body := s.reqBody r
    let reply (code : Nat) (s : State) : State := (s.answer r code (BitVec.ofNat 64 t) [] 0).crossReq r body
    if s.cutOff src home then finish (s1.answer r qHomelost (BitVec.ofNat 64 t) [] 0)
    else match s.queues.find key with
    | none => finish (reply qHomelost s1)
    | some q =>
      if homeStatus q r ≠ qOk then finish (reply (homeStatus q r) s1)
      else
        let s1 := s1.chargeBank (512 + home) r.ctx 1
        let code := State.fillStatus q t
        if code = qOk then
          let bs := match own, r.op with
            | some (_, u), _ => s.sourceBytes u u.moved (elemSize q.esize)
            | none, .fill _ bs => bs
            | none, _ => []
          finish (reply qOk (s1.fillTicket key q t bs))
        else
          -- a RESET that nothing reports is dropped, and counted at home (R346, R347)
          finish (reply code (if (r.posted ∨ (own.isSome ∧ !r.st)) ∧ code = qReset then s1.countErr key 1 else s1))

/-- HOME_TAKE (R348, R349). -/
def execHomeTake (home src : Nat) (s : State) : Res :=
  homeTurn home src (fun o => match o with | .take _ => true | .takes _ _ => true | _ => false)
    (fun key q r s =>
      if q.drained then s.answer r qVoid 0 [] 0
      else if q.headReady then (s.serveTake key r).headMoved key
      else if r.st then s.answer r qEmpty 0 [] 0
      else s.setQueue key { q with takes := q.takes ++ [r] }) s

/-- HOME_PEEK (R350). -/
def execHomePeek (home src : Nat) (s : State) : Res :=
  homeTurn home src (fun o => match o with | .peek _ => true | _ => false)
    (fun _ q r s => s.answer r qOk (State.peekValue q) [] 0) s

/-- HOME_WAIT (R351). -/
def execHomeWait (home src : Nat) (s : State) : Res :=
  homeTurn home src (fun o => match o with | .wait => true | _ => false)
    (fun key q r s =>
      if q.headReady then s.answer r qOk 0 [] 0
      else if q.drained then s.answer r qVoid 0 [] 0
      else s.setQueue key { q with waiters := q.waiters ++ [r] }) s

/-- HOME_CLOSE (R354). -/
def execHomeClose (home src : Nat) (s : State) : Res :=
  homeTurn home src (fun o => match o with | .close => true | _ => false)
    (fun key q r s => ((s.setQueue key { q with st := .closed }).serveDrained key).answer r qOk 0 [] 0) s

/-! ## Answers at the port (R342) -/

namespace State

/-- The answer of a held instruction: a resident thread ends its wait. In a parked group the record of a QWAIT fires (R351, R256); any
other wait is over when the group's relaunch tests it. -/
def endHeld (s : State) (r : QReq) : State :=
  match s.self r.thread with
  | none => s
  | some m =>
    if m.g.st == .parked || m.g.st == .parking then (if r.opcode = 0xE7 then s.wakeGroup m.gid (some r.thread) else s)
    else if m.g.st == .waking then s.updGroup m.gid fun g => { g with wakeBy := r.thread :: g.wakeBy }
    else s.wakeIf (fun w => w.place == r.opcode.toNat && (w.kind == waitQueue || w.kind == waitOther)) r.thread

/-- The answer of an instruction that is held at its slot. Mark: DEDUCED (log 59). -/
def deliverHeld (s : State) (a : QAns) : State :=
  let r := a.req
  let s := s.setStatus r.thread r.opcode a.code r.st r.ps
  match a.code == qOk || r.st, qCause a.code with
  | false, some c => (s.deferCause r.thread c r.qid).endHeld r
  | _, _ =>
    let s := match r.regs with
      | x :: _ => if a.code = qOk then s.updThread r.thread fun t => t.setRegs x (pairWords a.value) else s
      | [] => s
    let s := s.charge r.group 11 (match r.op with | .fill _ bs => if a.code = qOk then (bs.length + 63) / 64 else 0 | _ => 0)
    (s.updThread r.thread fun t => { t with waitDone := true }).endHeld r

/-- The answer of a long-latency producer: D is written, or full again with its former value, in the same step (R79,
R342). Mark: DEDUCED (log 59). -/
def deliverLate (s : State) (a : QAns) (p : Nat) : State :=
  let r := a.req
  let s := s.setStatus r.thread r.opcode a.code r.st r.ps
  let ws := match r.op with
    | .take len => bytesWords (len / 4) (a.bytes ++ List.replicate len 0)
    | _ => pairWords a.value
  let s := match s.prods.find p with
    | none => s
    | some x => if a.code = qOk then s.writeback p x ws else s.abandon p x
  let s := s.charge r.group 11 ((a.bytes.length + 63) / 64)
  let s := match r.st, qCause a.code with
    | false, some c => s.deferCause r.thread c r.qid
    | _, _ => s
  s.wakeMemory

/-- The answer of a posted QPUT (R346). Mark: DEDUCED (log 39). -/
def deliverPosted (s : State) (a : QAns) : State :=
  let r := a.req
  let live : Bool := match s.threads.find r.thread with | some t => t.st != .exited | none => false
  let s := s.setStatus r.thread r.opcode a.code false r.ps
  if a.code = qOk then
    s.charge r.group 11 (match r.op with | .fill _ bs => (bs.length + 63) / 64 | _ => 0)
  else match qCause a.code with
    | some c => if live then s.deferCause r.thread c r.qid else s.countErr (quKey r.home r.slot) 1
    | none => s

/-- Whether home has served a QTAKES: D then receives the number taken, 0 with EMPTY and VOID (R349); after any other failure it is
restored (R79). Mark: DEDUCED (log 39). -/
def takesServed (code : Nat) : Bool := code == qOk || code == qEmpty || code == qVoid

/-- The answer of an asynchronous operation: one ticket of a QPUTS, the elements of a QTAKES, or a LAUNCH. -/
def deliverAsync (s : State) (a : QAns) (e : Nat) : State :=
  match s.quOps.find e with
  | none => s
  | some u =>
    if u.opcode = 0xE3 then
      -- a failure that comes after the thread has ended is dropped, and counted (R346, R347)
      let s := if !s.alive u.thread ∧ !u.st ∧ a.code ≠ qOk ∧ a.code ≠ qReset then s.countErr (quKey a.req.home a.req.slot) 1 else s
      let u := { u with answered := u.answered + 1, filled := if a.code = qOk then u.filled + 1 else u.filled, code := if u.code = qOk then a.code else u.code }
      let s := { s with quOps := s.quOps.put e u }
      if u.answered < u.count then s else s.finishQu e u.code (u.filled * elemSize u.esize)
    else if u.opcode = 0xE5 then
      let k := a.value.toNat
      let s := if a.code = qOk then s.spadWrite u.group u.off a.bytes else s
      let s := match u.prod with
        | none => s
        | some p => match s.prods.find p with
          | some x => if takesServed a.code then s.writeback p x [BitVec.ofNat 32 k] else s.abandon p x
          | none => s
      s.finishQu e a.code a.bytes.length
    else s.finishQu e a.code (if a.code = qOk then 128 else 0)

/-- An answer arrives at the issuing port (R342). -/
def deliver (s : State) (a : QAns) : State :=
  match a.req.eop, a.req.prod with
  | some e, _ => s.deliverAsync a e
  | none, some p => s.deliverLate a p
  | none, none => if a.req.posted then s.deliverPosted a else s.deliverHeld a

/-- An answer that waits: one whose thread is stopped is kept for the resume (R357); the answers of one QPUTS arrive in
ticket order. Mark: DEDUCED (log 45). -/
def answerWaits (s : State) (id : Nat) (a : QAns) : Bool :=
  let stopped := match s.threads.find a.req.thread with
    | some t => match t.st with | .stopped _ _ => true | _ => false
    | none => false
  (stopped && !a.req.posted && a.req.opcode != 0xE3) || !(s.reaches a.req.home a.req.src || s.cutOff a.req.home a.req.src) || s.announced.contains (a.req.home, a.req.src) ||
  (a.req.eop.isSome && s.answers.any fun e => decide (e.1 < id) && e.2.req.eop == a.req.eop)

end State

/-- DIE_RESET_ANNOUNCE (R358); what was kept for a context that is saved is part of its state (R357). Mark: DEDUCED (log 61). -/
def execDieResetAnnounce (home die : Nat) (s : State) : Res :=
  if !s.announced.contains (home, die) then finish s
  else
    let s := { s with announced := s.announced.erase (home, die) }
    let keys := (s.queues.filter fun e => quHome e.1 == home).map (·.1)
    finish (keys.foldl (fun s key =>
      match s.queues.find key with
      | none => s
      | some q =>
        let kept (ctx : Nat) : Bool := match s.contexts.find ctx with | some c => c.st == .saved || c.st == .resuming | none => false
        let lost (a : QAns) : Bool := a.req.src == die && quKey a.req.home a.req.slot == key && !kept a.req.ctx
        let n := (s.answers.vals.filter lost).foldl (fun n a => n + a.served) 0
        let s := { s with answers := s.answers.filter fun e => !lost e.2 }
        let void (e : Nat × TkState) : Nat × TkState := match e.2 with
          | .reserved b => if b = die then (e.1, .void) else e
          | _ => e
        let was := q.headReady
        let q := { q with tickets := q.tickets.map void, takes := q.takes.filter fun r => r.src != die, waiters := q.waiters.filter fun r => r.src != die }
        let s := (s.setQueue key q).countErr key n
        if was then s else s.headMoved key) s)

end Sys2Proof.Machine
end

