-- ==== Sys2Proof/Machine/Records.lean ====
section
/-! DEFINITION. The hub: signal memory and SIGNAL (R327, R329), launch windows and the line monitor (R309 to R311), the
records of a launch queue (R312 to R326) but for PAGE-MODE and HOSTCOPY, launches and their completion (R318 to R322),
and stealing (R331). -/

namespace Sys2Proof.Machine

open Host (Cell)

/-! ## Signals (R327) -/

/-- A signal address that is required. -/
def sigOk (c : Context) (a : Nat) : Bool :=
  a % 8 == 0 && decide (a < 8 * c.sigwords) && decide (a < 2 ^ 24) && a != 0
/-- A signal address of which 0 means none. -/
def sigOpt (c : Context) (a : Nat) : Bool := a == 0 || sigOk c a

/-- FN of a signal update (R329). -/
def sigFn (fn : Nat) (old b : W64) : W64 :=
  match fn with
  | 0 => old + b
  | 1 => b
  | _ => if old.toNat < b.toNat then b else old

namespace State

def sigRead (s : State) (c : Context) (a : Nat) : W64 := s.signals.getD (c.sigbase + a / 8) 0

/-- Whether every entry of a FENCE is met (R323). -/
def fenceMet (s : State) (c : Context) (entries : List (Nat × W32)) : Bool :=
  entries.all fun e => e.1 == 0 || decide (e.2.toNat ≤ (s.sigRead c e.1).toNat)

/-- The hub tests the waiting FENCE records; those that are met go on at once (R323). Mark: DESIGN CHOICE (log 1), DEDUCED (log 35). -/
def testFences (s : State) : State :=
  let met := s.launchQs.filterMap fun e => match e.2.cur, s.contexts.find e.2.ctx with
    | some (.fence es), some c => if s.fenceMet c es then some (Turn.act (.fenceRecordMet e.1)) else none
    | _, _ => none
  { s with agenda := met ++ s.agenda }

/-- An update of a word of signal memory (R327). -/
def sigWord (s : State) (w : Nat) (f : W64 → W64) : State :=
  { s with signals := s.signals.putD w 0 (f (s.signals.getD w 0)) }.testFences

/-- An update of a context's signal word; address 0 means none. -/
def sigUpdate (s : State) (c : Context) (a : Nat) (f : W64 → W64) : State :=
  if sigOk c a then s.sigWord (c.sigbase + a / 8) f else s

/-- The elements that a port has in a service queue (R17). -/
def portElems (q : Tbl Service) (vf die : Nat) : List (Nat × Service) := q.filter fun e => e.2.vf == vf && e.2.die == die

def svcWait (opcode : Nat) : Wait := ⟨waitService, 0, opcode⟩

end State

/-- SIGNAL (R329). -/
def execSignal (q : Ctl) (a b : Opd) (fn : BitVec 2) (w64 sf : Bool) (ps : PredNo) (s : State) : Res :=
  runSlot (.signal q a b fn w64 sf ps) (fun m s =>
    match s.contexts.find m.g.ctx with
    | none => (.done, s)
    | some c =>
      let addr := s.src64 m a
      if !sigOk c addr.toNat then
        let s := s.setStatus m.k 0xEB qRange sf ps
        (if sf then .done else .raise .qrange (addr.setWidth 32), s)
      else if 64 ≤ (State.portElems s.sigQueue c.vf m.g.die).length then (.block (State.svcWait 0xEB), s)
      else
        let s := s.setStatus m.k 0xEB qOk sf ps
        let (id, s) := s.newId
        let x : Service := { vf := c.vf, die := m.g.die, vdie := m.g.vdie, ctx := m.g.ctx, thread := m.k, vcore := m.g.vcore, group := m.g.num, warp := m.w.num, lane := m.t.lane, sel := c.sigbase + addr.toNat / 8, fn := fn.toNat, arg := s.srcWide m w64 b, regs := [] }
        (.done, { s with sigQueue := s.sigQueue.put id x })) s

/-- SIGNAL_APPLY (R17, R327): the hub's arbiter applies the next update from a port, whose place returns; it has crossed the bridge of the
port's die. Mark: DESIGN CHOICE (log 55). -/
def execSignalApply (vf die : Nat) (s : State) : Res :=
  if !(s.link (512 + die)).st.passes then finish s
  else match State.portElems s.sigQueue vf die with
  | [] => finish s
  | (id, x) :: _ =>
    let s := { s with sigQueue := s.sigQueue.del id }.sigWord x.sel (sigFn x.fn · x.arg)
    finish (s.wakeAll fun k w => w.kind == waitService && w.place == 0xEB && (match s.self k with | some m => m.g.die == die | none => false))

/-- A host write of a signal word: one to word 0 of a range, or outside every range of the function, is discarded (R327). -/
def State.hostSignal (s : State) (vf word : Nat) (value : W64) : State :=
  let ok := s.contexts.vals.any fun c => c.vf == vf && c.st != .destroyed && decide (c.sigbase < word) && decide (word < c.sigbase + c.sigwords)
  if ok then s.sigWord word fun _ => value else s

/-- HOST_SIGNAL_WRITE (R327). Mark: DESIGN CHOICE (log 44). -/
def execHostSignalWrite (vf word : Nat) (value : W64) (s : State) : Res := finish (s.hostSignal vf word value)

/-! ## Windows and the line monitor (R310) -/

/-- LINE_MONITOR_PARSE (R310): the watched line carries E and the queue grants a ticket: the record is enqueued. -/
def execLineMonitorParse (lq : Nat) (s : State) : Res :=
  match s.launchQs.find lq, s.queues.find lq with
  | some x, some q =>
    let line := cellsGet x.lines (x.consumed % 64 * 128) 128
    if x.stopped || q.st != .active || (line.getD 127 0).toNat != x.expect || decide (q.capacity < q.tail - q.head + 1) then finish s
    else
      let q' := { q with tail := q.tail + 1, tickets := q.tickets.put q.tail (.reserved (quHome lq)) }
      let s := s.fillTicket lq q' q.tail line
      finish { s with launchQs := s.launchQs.put lq { x with consumed := x.consumed + 1, expect := x.expect % 255 + 1 } }
  | _, _ => finish s

/-- Host bytes reach the lines of a window that has a queue and is not being reset (R310, R405). -/
def State.hostLines (s : State) (lq offset : Nat) (bytes : List Byte) : State :=
  match s.launchQs.find lq with
  | none => s
  | some x =>
    if x.stopped then s
    else
      let bs := bytes.take (0x2000 - offset)
      { s with launchQs := s.launchQs.put lq { x with lines := cellsSet x.lines offset bs } }

/-- HOST_WINDOW_WRITE (R405, R310). Mark: DESIGN CHOICE (log 44). -/
def execHostWindowWrite (lq offset : Nat) (bytes : List Byte) (s : State) : Res := finish (s.hostLines lq offset bytes)

/-! ## Taking a record (R313, R330) -/

/-- The first ticket from the head that is not VOID, with the number of VOID tickets passed (R339). -/
def skipVoids (q : Queue) : Nat → Nat → Nat
  | 0, n => n
  | fuel + 1, n => match q.tickets.find (q.head + n) with
    | some .void => skipVoids q fuel (n + 1)
    | _ => n

/-- The bits of a record's header (R312). -/
def recType (bs : List Byte) : Nat := bitsOf (bs.getD 0 0).toNat 0 4
def recArg (bs : List Byte) : Nat := bitsOf (bs.getD 0 0).toNat 4 4
def recField (bs : List Byte) (lo n : Nat) : Nat := leNat ((bs.drop lo).take n)
def recTag (bs : List Byte) : BitVec 48 := BitVec.ofNat 48 (recField bs 1 6)

/-- A record about to be taken: its bytes, whether LAUNCH enqueued it, and the tickets that taking it passes. -/
structure Rec where
  bytes  : List Byte
  launch : Bool
  passes : Nat
  deriving DecidableEq, Repr

/-- States of a context in which its launch queues' records are taken. Mark: DEDUCED (log 35). -/
def takesRecords (st : CState) : Bool :=
  match st with
  | .created => true
  | .running => true
  | .halting _ => true
  | .halted => true
  | _ => false

namespace State

def lqCtx (s : State) (x : LaunchQ) : Option Context := s.contexts.find x.ctx

/-- The record that a launch queue's scheduler may take: nothing holds the queue back (R313). Mark: DEDUCED (log 35). -/
def nextRecord (s : State) (lq : Nat) : Option Rec :=
  match s.launchQs.find lq, s.queues.find lq with
  | some x, some q =>
    let live := match s.lqCtx x with | some c => takesRecords c.st | none => false
    if live && !x.stopped && x.cur.isNone && (q.st == .active || q.st == .closed) then
      let n := skipVoids q q.tickets.length 0
      match q.tickets.find (q.head + n) with
      | some .filled => some ⟨s.elemRead lq q (q.head + n), q.byLaunch.contains (q.head + n), n + 1⟩
      | _ => none
    else none
  | _, _ => none

/-- The physical die whose run list holds a launch queue (R330). -/
def runDie (s : State) (x : LaunchQ) : Option Nat := (s.lqCtx x).bind fun c => c.remap.find x.run

/-- The launch queue whose turn it is on a die: the first of its run list that has a record to take (R330). -/
def runNext (s : State) (die : Nat) : Option Nat := (s.die die).runList.find? fun lq => (s.nextRecord lq).isSome

def updLq (s : State) (lq : Nat) (f : LaunchQ → LaunchQ) : State := { s with launchQs := s.launchQs.upd lq f }

/-- A record is refused (R314). -/
def refuse (s : State) (lq : Nat) (bs : List Byte) (reason : Nat) : State :=
  match s.launchQs.find lq with
  | none => s
  | some x =>
    let s := s.updLq lq fun x => { x with refused := x.refused + 1, reason := BitVec.ofNat 8 reason, lasttag := recTag bs }
    match s.lqCtx x with
    | some c => s.sigUpdate c x.errsig (· + 1)
    | none => s

end State

/-- TAKE A RECORD of one type: the queue's turn goes to the end of the run list, and `act` gives the record its effect
with the queue, its context and the virtual die of its scheduler. -/
def recordTurn (lq : Nat) (ty : List Byte → Bool) (act : LaunchQ → Context → Rec → State → State) (s : State) : Res :=
  match s.launchQs.find lq, s.nextRecord lq with
  | some x, some r => match s.lqCtx x, s.runDie x with
    | some c, some die =>
      if !ty r.bytes || s.runNext die != some lq then finish s
      else
        let d := s.die die
        let s := s.setDie die { d with runList := d.runList.filter (· != lq) ++ [lq] }
        finish (act x c r (s.stepHeads lq r.passes))
    | _, _ => finish s
  | _, _ => finish s

/-- RESERVED_TYPE_RECORD (R313). -/
def execReservedTypeRecord (lq : Nat) (s : State) : Res :=
  recordTurn lq (fun b => recType b == 0 || decide (8 ≤ recType b)) (fun _ _ r s => s.refuse lq r.bytes 1) s

/-- NOP_RECORD (R325). -/
def execNopRecord (lq : Nat) (s : State) : Res :=
  recordTurn lq (fun b => recType b == 5) (fun _ _ r s => if recArg r.bytes ≠ 0 then s.refuse lq r.bytes 1 else s) s

/-- SIGNAL_WRITE (R324). -/
def execSignalWrite (lq : Nat) (s : State) : Res :=
  recordTurn lq (fun b => recType b == 3) (fun _ c r s =>
    let fn := recField r.bytes 13 1
    let addr := recField r.bytes 7 6
    if recArg r.bytes ≠ 0 ∨ 2 < fn then s.refuse lq r.bytes 1
    else if !sigOk c addr then s.refuse lq r.bytes 3
    else s.sigUpdate c addr fun old => sigFn fn old (BitVec.ofNat 64 (recField r.bytes 16 8))) s

/-- The entries of a FENCE record (R323). -/
def fenceEntries (bs : List Byte) (n : Nat) : List (Nat × W32) :=
  (List.range n).map fun j => (recField bs (7 + 10 * j) 6, BitVec.ofNat 32 (recField bs (13 + 10 * j) 4))

/-- FENCE_RECORD (R323). -/
def execFenceRecord (lq : Nat) (s : State) : Res :=
  recordTurn lq (fun b => recType b == 2) (fun _ c r s =>
    let n := recArg r.bytes
    let es := fenceEntries r.bytes n
    if 12 < n then s.refuse lq r.bytes 4
    else if es.any fun e => !sigOpt c e.1 then s.refuse lq r.bytes 3
    else if s.fenceMet c es then s
    else s.updLq lq fun x => { x with cur := some (.fence es) }) s

/-- FENCE_RECORD_MET (R323): every entry's word has reached its threshold, and the queue goes on. -/
def execFenceRecordMet (lq : Nat) (s : State) : Res :=
  match s.launchQs.find lq with
  | none => finish s
  | some x => match x.cur, s.lqCtx x with
    | some (.fence es), some c =>
      if s.fenceMet c es then finish (s.updLq lq fun x => { x with cur := none }) else finish s
    | _, _ => finish s

/-- The launches of a queue that are ACCEPTED or ACTIVE. -/
def openLaunch (l : Launch) : Bool := l.st == .accepted || l.st == .active

/-- Set bits 14:12 of ls12. -/
def setPrio (w : W32) (p : Nat) : W32 := (w &&& ~~~0x7000) ||| BitVec.ofNat 32 (p * 4096)

/-- QUEUE_PRIORITY (R325, R308). -/
def execQueuePriority (lq : Nat) (s : State) : Res :=
  recordTurn lq (fun b => recType b == 4) (fun _ _ r s =>
    if recArg r.bytes ≠ 0 then s.refuse lq r.bytes 1
    else
      let p := bitsOf (recField r.bytes 7 1) 0 3
      let f (e : Nat × Launch) : Nat × Launch := if e.2.lq == lq && openLaunch e.2 then (e.1, { e.2 with prio := p }) else e
      let s := { s with launches := s.launches.map f }
      s.updLq lq fun x => { x with shadows := x.shadows.set 12 (setPrio (x.shadows.getD 12 0) p) }) s

/-! ## DELTA-LAUNCH (R315 to R319) -/

/-- The register numbers of a mask, rising (R316). -/
def maskRegs (mask : Nat) : List Nat := (List.range 32).filter fun i => bitOf mask i
/-- The shadow registers after a record's writes (R316). -/
def deltaShadows (bs : List Byte) (shadows : List W32) : List W32 :=
  ((maskRegs (recField bs 7 4)).zipIdx).foldl (fun l e => l.set e.1 (BitVec.ofNat 32 (recField bs (11 + 4 * e.2) 4))) shadows

/-- Whether a group of a launch fits on an empty core of a class (R299, R106). Mark: DEDUCED (log 31). -/
def fitsEmpty (l : Launch) (cls : Nat) : Bool :=
  State.admits l cls && decide (groupSize l / l.width ≤ lanesOf cls / l.width * (2048 / l.regs))

/-- The virtual dies that receive a die key (R318). -/
def diesOf (l : Launch) : List Nat := (List.range 8).filter fun v => keysOn l v != 0

/-- The conditions of R319 that refuse a launch with REASON 2. Mark: DEDUCED (log 31). -/
def launchBad (s : State) (c : Context) (l : Launch) : Bool :=
  let w12 := (l.word 12).toNat
  let ws := fieldWidths l
  let es := fieldExtents l
  let badExtent := (ws.zip es).any fun f => f.2 == 0 || (decide (f.1 < 32) && decide (2 ^ f.1 < f.2))
  bitsOf w12 0 2 == 3 || decide (11 < bitsOf w12 4 4) || decide (64 < ws.foldl (· + ·) 0) || badExtent ||
  decide (dieLevel l < groupLevel l) || decide (6 < dieLevel l) || groupSize l % l.width != 0 ||
  -- class mask and fit (R33, R299)
  !([0, 1, 2].any fun cls => fitsEmpty l cls) || decide (1048576 < l.spad) || decide (1536 < l.rows) ||
  decide (16 < l.handles) || (l.parkAfter != 0 && l.saveSize == 0) ||
  (bitOf (l.word 26).toNat 16 && bitsOf (l.word 19).toNat 16 16 == 0) ||
  (diesOf l).any fun v => match c.remap.find v with
    | none => true
    | some die => !(c.cores.any fun x => x.1 == v && State.admits l (s.classOf die x.2.2))

/-- DELTA_LAUNCH (R316): the shadow writes take effect; without HOLD a launch is checked and created, holding a copy. -/
def execDeltaLaunch (lq : Nat) (s : State) : Res :=
  recordTurn lq (fun b => recType b == 1) (fun x c r s =>
    let arg := recArg r.bytes
    if 1 < arg ∨ 29 < (maskRegs (recField r.bytes 7 4)).length then s.refuse lq r.bytes 1
    else
      let ls := deltaShadows r.bytes x.shadows
      let s := s.updLq lq fun x => { x with shadows := ls }
      if arg = 1 then s
      else
        let (id, s) := s.newId
        let l : Launch := { lq := lq, ctx := x.ctx, vf := x.vf, ls := ls, st := .accepted, prio := bitsOf (ls.getD 12 0).toNat 12 3, lead := x.run, tag := recTag r.bytes, order := id, lost := false, next := [], retired := [], start := [], reported := [], phases := [], used := [] }
        if launchBad s c l then s.refuse lq r.bytes 2
        else if !sigOpt c l.csig then s.refuse lq r.bytes 3
        else
          let c := if c.st = .created then { c with st := .running } else c
          { s with launches := s.launches.put id l, contexts := s.contexts.put x.ctx c }) s

/-! ## Completion (R321, R322) -/

/-- One MSI-X message of a launch queue, and PEND starts again (R322). -/
def State.sendIrq (s : State) (lq : Nat) : State :=
  match s.launchQs.find lq with
  | none => s
  | some x => { s with msix := s.msix ++ [(x.vf, x.vec)], launchQs := s.launchQs.put lq { x with pend := 0, timer := none } }

/-- The deadline of a launch queue's timer has passed (R322). Mark: DEDUCED (log 43). -/
def irqDue (x : LaunchQ) (hclk : Nat) : Bool :=
  match x.timer with
  | some t => decide (t + (x.irqt + 1) * 1500 ≤ hclk)
  | none => false

/-- The interrupt side of a completion (R322). Mark: DEDUCED (log 43). -/
def State.countIrq (s : State) (l : Launch) : State :=
  if !bitOf (l.word 26).toNat 16 then s
  else match s.launchQs.find l.lq with
    | none => s
    | some x =>
      let x := { x with pend := x.pend + 1, timer := if x.pend = 0 then some s.hclk else x.timer, irqcnt := bitsOf (l.word 19).toNat 16 16, irqt := bitsOf (l.word 26).toNat 0 16, vec := BitVec.ofNat 8 (bitsOf (l.word 26).toNat 20 8) }
      let s := { s with launchQs := s.launchQs.put l.lq x }
      if x.irqcnt ≤ x.pend ∨ irqDue x s.hclk then s.sendIrq l.lq else s

/-- CSIG_INCREMENT (R321): the lead has every report. -/
def execCsigIncrement (launch : Nat) (s : State) : Res :=
  match s.launches.find launch with
  | none => finish s
  | some l => match s.contexts.find l.ctx with
    | none => finish s
    | some c =>
      if openLaunch l && !l.lost && (diesOf l).all fun v => l.reported.contains v then
        let s := { s with launches := s.launches.put launch { l with st := .complete } }
        finish ((s.sigUpdate c l.csig (· + 1)).countIrq l)
      else finish s

/-- IRQ_TIMER (R322). -/
def execIrqTimer (lq : Nat) (s : State) : Res :=
  match s.launchQs.find lq with
  | none => finish s
  | some x => if x.pend ≠ 0 ∧ irqDue x s.hclk then finish (s.sendIrq lq) else finish s

/-! ## Stealing (R331) -/

/-- The launches of a queue that have been taken and have not ended. -/
def State.openLaunches (s : State) (lq : Nat) : List (Nat × Launch) := s.launches.filter fun e => e.2.lq == lq && openLaunch e.2

/-- Whether a neighbour gives a launch queue to a thief whose virtual die is `v` (R331). -/
def State.givable (s : State) (lq v : Nat) : Bool :=
  match s.launchQs.find lq with
  | none => false
  | some x => match s.lqCtx x with
    | none => false
    | some c =>
      x.cur.isNone && !x.stopped && (s.openLaunches lq).all fun e =>
        e.2.st == .accepted && bitOf (e.2.word 26).toNat 17 &&
        (diesOf { e.2 with lead := v }).all fun u => (c.remap.find u).isSome

/-- An idle die scheduler (R331). -/
def State.idleDie (s : State) (die : Nat) : Bool :=
  (s.die die).runList.isEmpty && (s.pendingOn die).isEmpty && s.groups.vals.all fun g => !(g.die == die && g.st == .waking)

/-- A launch is assigned its die keys again: its list reaches the dies now (R301, R331). -/
def State.reassign (s : State) (v id : Nat) : State :=
  let (n, s) := s.newId
  { s with launches := s.launches.upd id fun l => { l with lead := v, order := n } }

/-- QUEUE_STEAL (R331): virtual die v + 1 is asked first, and then v − 1. -/
def execQueueSteal (thief lq : Nat) (s : State) : Res :=
  match s.launchQs.find lq with
  | none => finish s
  | some x => match s.vdieOf x.ctx thief, s.runDie x with
    | some v, some victim =>
      let up := (v + 1) % 8
      let upGives := (s.launchQs.filter fun e => e.2.ctx == x.ctx && e.2.run == up).any fun e => s.givable e.1 v
      let asked := x.run == up || (x.run == (v + 7) % 8 && !upGives)
      if s.idleDie thief && asked && s.givable lq v then
        let dv := s.die victim
        let s := s.setDie victim { dv with runList := dv.runList.filter (· != lq) }
        let dt := s.die thief
        let s := s.setDie thief { dt with runList := dt.runList ++ [lq] }
        let s := ((s.openLaunches lq).map (·.1)).foldl (fun s id => s.reassign v id) s
        finish (s.updLq lq fun x => { x with run := v })
      else finish s
    | _, _ => finish s

end Sys2Proof.Machine
end

