-- ==== Sys2Proof/Machine/Transitions.lean ====
section
/-! DEFINITION. Page-mode transitions (R183 to R186), HOSTCOPY (R187, R326), and the reset of a queue with the end of its
launches (R352, R353). -/

namespace Sys2Proof.Machine

open Host (Cell)

/-! ## PAGE-MODE records (R184) -/

namespace PageRec
def vbase (bs : List Byte) : Nat := recField bs 8 8
def npage (bs : List Byte) : Nat := recField bs 16 4
def dies (bs : List Byte) : List Nat := (List.range 8).filter fun v => bitOf (recField bs 20 1) v
def op (bs : List Byte) : Nat := recField bs 21 1
def nmode (bs : List Byte) : Nat := recField bs 22 1
def nowner (bs : List Byte) : Nat := recField bs 23 1
def sigaddr (bs : List Byte) : Nat := recField bs 24 6
end PageRec

/-- A page of a range: its leaf and where the leaf stands. -/
structure PageLeaf where
  leaf  : W64
  place : Nat
  deriving DecidableEq, Repr

/-- Leaf of a valid page, whatever its mode. -/
def State.leafAt (s : State) (ctx vdie die va : Nat) : Option PageLeaf :=
  if 2 ^ 57 ≤ va then none
  else match s.xrec ctx vdie with
    | none => none
    | some x => match walkFrom s die va 4 x.root with
      | .leaf e place => some ⟨e, place⟩
      | _ => none

/-- The leaves of `n` pages of one size from `va` up; none where a page is missing, unaligned or of another size. -/
def State.rangeLeaves (s : State) (ctx vdie die size : Nat) : Nat → Nat → Option (List PageLeaf)
  | _, 0 => some []
  | va, n + 1 => match s.leafAt ctx vdie die va with
    | none => none
    | some p =>
      if Leaf.bytes p.leaf ≠ size ∨ va % size ≠ 0 then none
      else (s.rangeLeaves ctx vdie die size (va + size) n).map (p :: ·)

/-- The leaves of a record's range on a virtual die. -/
def State.recLeaves (s : State) (ctx : Nat) (c : Context) (bs : List Byte) (v : Nat) : Option (List PageLeaf) :=
  match c.remap.find v with
  | none => none
  | some die => match s.leafAt ctx v die (PageRec.vbase bs) with
    | none => none
    | some p => s.rangeLeaves ctx v die (Leaf.bytes p.leaf) (PageRec.vbase bs) (PageRec.npage bs)

/-- The pages of a transition that still have their leaf, with what the transition holds of each: its bytes, MODE and OWNER. A page that
was unmapped or mapped with another size meanwhile is left out. Mark: DESIGN CHOICE (log 80). -/
def State.leavesNow (s : State) (ctx vdie die : Nat) : Nat → List (Nat × Nat × Nat) → List (PageLeaf × Nat × Nat)
  | _, [] => []
  | va, x :: xs =>
    let rest := s.leavesNow ctx vdie die (va + x.1) xs
    match s.leafAt ctx vdie die va with
    | some p => if Leaf.bytes p.leaf = x.1 then (p, x.2) :: rest else rest
    | none => rest

/-- The bytes of virtual addresses that the pages of a transition take up. -/
def spanOf (l : List (Nat × Nat × Nat)) : Nat := (l.map (·.1)).foldl (· + ·) 0

/-- Whether a record is refused with REASON 5 (R184); so is an invalidate-only record over a page whose V firmware has cleared, which
is no valid leaf. Mark: DEDUCED (log 36), DESIGN CHOICE (log 80). -/
def pageBad (s : State) (ctx : Nat) (c : Context) (bs : List Byte) : Bool :=
  let sizes := (PageRec.dies bs).map fun v => (s.recLeaves ctx c bs v).bind fun l => l.head?.map fun p => Leaf.size p.leaf
  decide (1 < PageRec.op bs) || (PageRec.op bs == 0 && decide (2 < PageRec.nmode bs)) || decide (127 < PageRec.nowner bs) ||
  (PageRec.dies bs).isEmpty || PageRec.npage bs == 0 || decide (65536 < PageRec.npage bs) ||
  sizes.any Option.isNone || decide (1 < sizes.eraseDups.length)

/-- Physical byte ranges. -/
def rangesOf (l : List PageLeaf) : List (Nat × Nat) := l.map fun p => (Leaf.frame p.leaf, Leaf.bytes p.leaf)
def inRanges (rs : List (Nat × Nat)) (pa n : Nat) : Bool := rs.any fun r => overlaps r.1 r.2 pa n

namespace State

/-- SHOOTDOWN (R185): the near TLBs and the die TLB drop the context's entries for a virtual range, and so does the walk cache,
through which no former translation may outlast the record (R186). Mark: DESIGN CHOICE (log 13). -/
def shootdown (s : State) (ctx die va n : Nat) : State :=
  let keep (e : TlbE) : Bool := !(e.ctx == ctx && overlaps e.base e.size va n)
  let near := s.nearTlb.map fun x => (x.1, if x.1 / 256 = die then x.2.filter keep else x.2)
  let dieT := s.dieTlb.map fun x => (x.1, if x.1 = die then x.2.filter keep else x.2)
  let away (e : WalkC) : Bool := !(e.ctx == ctx && overlaps (e.pfx * tableSpan e.level) (tableSpan e.level) va n)
  let walkC := s.walkCache.map fun x => (x.1, if x.1 = die then x.2.filter away else x.2)
  let forget (e : Nat × Thread) : Nat × Thread := match e.2.walkFault, s.self e.1 with
    | some f, some m => if m.g.ctx = ctx ∧ m.g.die = die ∧ overlaps f.base f.span va n = true then (e.1, { e.2 with walkFault := none }) else e
    | _, _ => e
  { s with nearTlb := near, dieTlb := dieT, walkCache := walkC, threads := s.threads.map forget }

/-- In a range of virtual addresses the MODE and OWNER of the leaves as they stand in memory are in force (R186). -/
def settleModes (s : State) (ctx vdie va n : Nat) : State :=
  let outside (m : ModeE) : List ModeE :=
    if overlaps m.base m.size va n then
      (if m.base < va then [{ m with size := va - m.base }] else []) ++
      (if va + n < m.base + m.size then [{ m with base := va + n, size := m.base + m.size - (va + n) }] else [])
    else [m]
  let l := (s.modes.getD (spaceKey ctx vdie) []).flatMap outside
  { s with modes := if l.isEmpty then s.modes.del (spaceKey ctx vdie) else s.modes.put (spaceKey ctx vdie) l }

/-- LOCK (R185): MODE 3 in every leaf. -/
def lockLeaves (s : State) (die : Nat) (l : List PageLeaf) : State :=
  l.foldl (fun s p => s.memWrite die p.place (w64Bytes (p.leaf ||| 6))) s

/-- FLIP (R185): MODE and OWNER in every leaf. -/
def flipLeaves (s : State) (die mode owner : Nat) (l : List PageLeaf) : State :=
  l.foldl (fun s p => s.memWrite die p.place
    (w64Bytes ((p.leaf &&& ~~~0x7F06) ||| BitVec.ofNat 64 (mode * 2 + owner * 256)))) s

/-- Whether an access of a die that was translated before the shootdown has still to be performed (R185). -/
def draining (s : State) (die marker : Nat) (rs : List (Nat × Nat)) : Bool :=
  s.hreqs.any (fun e => decide (e.1 < marker) && e.2.die == die && inRanges rs e.2.pa e.2.size) ||
  s.pwrites.vals.any (fun w => w.die == die && inRanges rs w.pa w.size) ||
  s.pushes.any (fun e => e.2.die == die && inRanges rs (e.2.line * 128) 128) ||
  s.wbacks.any (fun e => e.2.die == die && e.2.bytes.any fun c => inRanges rs c.1 1) ||
  s.prods.any fun e => decide (e.1 < marker) && e.2.core / 256 == die && match e.2.val with
    | .fill pa _ _ _ _ _ _ => inRanges rs (pa / 64 * 64) 64
    | _ => false

/-- Start the coherence action of one page for its mode (R185): from H home recalls the partials and every near cache
drops its copies; from S every near cache, and from P the owner's, writes back its dirty bytes and drops the lines. -/
def coherePage (s : State) (c : Context) (v die : Nat) (r : Nat × Nat) (mode owner : Nat) : State :=
  let mine (core : Nat) : Bool := mode != modeP || c.cores.any fun x => x.1 == v && x.2.1 == owner && x.2.2 == core
  let secs := s.nc.keys.filter fun k => k / 2 ^ 31 / 256 == die && overlaps r.1 r.2 (k % 2 ^ 31 * 64) 64 && mine (k / 2 ^ 31 % 256)
  let parts := s.partials.keys.filter fun k => k / 2 ^ 30 / 256 == die && overlaps r.1 r.2 (k % 2 ^ 30 * 128) 128
  let s := if mode = modeH then parts.foldl (fun s k => s.pushPartial die (k / 2 ^ 30 % 256) (k % 2 ^ 30)) s else s
  secs.foldl (fun s k => s.flushSector die (k / 2 ^ 31 % 256) (k % 2 ^ 31) true [] []) s

def cohere (s : State) (c : Context) (v die : Nat) (l : List (PageLeaf × Nat × Nat)) : State :=
  l.foldl (fun s x => s.coherePage c v die (Leaf.frame x.1.leaf, Leaf.bytes x.1.leaf) x.2.1 x.2.2) s

/-- Whether the coherence action of a range has still to finish. -/
def cohering (s : State) (die : Nat) (rs : List (Nat × Nat)) : Bool :=
  s.pushes.any (fun e => e.2.die == die && inRanges rs (e.2.line * 128) 128) ||
  s.wbacks.any (fun e => e.2.die == die && e.2.bytes.any fun c => inRanges rs c.1 1) ||
  s.pwrites.vals.any (fun w => w.die == die && inRanges rs w.pa w.size && match w.kind with | .part _ _ _ => true | _ => false)

end State

/-- A PAGE-MODE record of one OP is taken (R184): each named die locks the range where the record changes the mode, shoots
down its TLBs and drains (R185). Over a page that another queue's record has LOCKED, LOCKED is the former mode, and the first release
unlocks the page. Mark: DEDUCED (log 36), DESIGN CHOICE (log 80). -/
def takePageMode (lq : Nat) (lock : Bool) (s : State) : Res :=
  recordTurn lq (fun b => recType b == 6 && (PageRec.op b != 1) == lock) (fun x c r s =>
    let bs := r.bytes
    if r.launch then s.refuse lq bs 7
    else if recArg bs ≠ 0 then s.refuse lq bs 1
    else if !sigOpt c (PageRec.sigaddr bs) then s.refuse lq bs 3
    else if pageBad s x.ctx c bs then s.refuse lq bs 5
    else
      let each := (PageRec.dies bs).filterMap fun v => match c.remap.find v, s.recLeaves x.ctx c bs v with
        | some die, some l => some (v, die, l)
        | _, _ => none
      -- the mode that is in force; an invalidate-only record acts on the mode that stands in the leaf (R186)
      let pageNow (v : Nat) (p : PageLeaf × Nat) : Nat × Nat × Nat :=
        let n := Leaf.bytes p.1.leaf
        let e := if lock then s.inForce x.ctx v (PageRec.vbase bs + p.2 * n) p.1.leaf else p.1.leaf
        (n, Leaf.mode e, Leaf.owner e)
      let old := each.foldl (fun t e => Tbl.put t e.1 (e.2.2.zipIdx.map (pageNow e.1))) ([] : Tbl (List (Nat × Nat × Nat)))
      let s := each.foldl (fun s e =>
        let n := spanOf (old.getD e.1 [])
        let s := if lock then (s.lockLeaves e.2.1 e.2.2).settleModes x.ctx e.1 (PageRec.vbase bs) n else s
        s.shootdown x.ctx e.2.1 (PageRec.vbase bs) n) s
      let drain := each.foldl (fun t e => Tbl.put t e.1 s.nextId) ([] : Tbl Nat)
      s.updLq lq fun x => { x with cur := some (.pageMode bs old drain [] []) }) s

/-- PAGE_MODE (R185): a change-mode record, or one with a reserved OP, which is refused. -/
def execPageMode (lq : Nat) (s : State) : Res := takePageMode lq true s

/-- PAGE_INVALIDATE (R185): an invalidate-only record. -/
def execPageInvalidate (lq : Nat) (s : State) : Res := takePageMode lq false s

/-- PAGE_MODE_DRAIN_END (R185): every access translated before the shootdown is performed, and the coherence action of
the old mode starts. Mark: DEDUCED (log 36), DESIGN CHOICE (log 80). -/
def execPageModeDrainEnd (lq vdie : Nat) (s : State) : Res :=
  match s.launchQs.find lq with
  | none => finish s
  | some x => match x.cur, s.lqCtx x with
    | some (.pageMode bs old drain release done), some c =>
      match drain.find vdie, c.remap.find vdie with
      | some marker, some die =>
        let l := s.leavesNow x.ctx vdie die (PageRec.vbase bs) (old.getD vdie [])
        if s.draining die marker (rangesOf (l.map (·.1))) then finish s
        else
          let s := s.cohere c vdie die l
          finish (s.updLq lq fun x => { x with cur := some (.pageMode bs old (drain.del vdie) (vdie :: release) done) })
      | _, _ => finish s
    | _, _ => finish s

/-- The end of an invalidate-only record on a die: modes that another way has written over these leaves are used from now on, and
no former translation outlasts it (R186). -/
def State.useModes (s : State) (ctx vdie die va n : Nat) : State :=
  if (s.modes.getD (spaceKey ctx vdie) []).any fun m => overlaps m.base m.size va n then
    (s.shootdown ctx die va n).settleModes ctx vdie va n
  else s

/-- PAGE_MODE_RELEASE (R185): the coherence action has finished; a change-mode record flips the leaves and wakes the
waiters, and the die reports. Mark: DEDUCED (log 36), DESIGN CHOICE (log 80). -/
def execPageModeRelease (lq vdie : Nat) (s : State) : Res :=
  match s.launchQs.find lq with
  | none => finish s
  | some x => match x.cur, s.lqCtx x with
    | some (.pageMode bs old drain release done), some c =>
      match release.contains vdie, c.remap.find vdie with
      | true, some die =>
        let l := (s.leavesNow x.ctx vdie die (PageRec.vbase bs) (old.getD vdie [])).map (·.1)
        if s.cohering die (rangesOf l) then finish s
        else
          let s := if PageRec.op bs = 0 then
              (s.flipLeaves die (PageRec.nmode bs) (PageRec.nowner bs) l).wakeAll fun k w => w.kind == waitLock &&
                (match s.self k with | some m => m.g.die == die | none => false)
            else s.useModes x.ctx vdie die (PageRec.vbase bs) (spanOf (old.getD vdie []))
          finish (s.updLq lq fun x => { x with cur := some (.pageMode bs old drain (release.filter (· != vdie)) (vdie :: done)) })
      | _, _ => finish s
    | _, _ => finish s

/-- A record that ran has ended. A launch queue that was deleted, or whose home was reset, while its record ran ends with it (R408). -/
def State.endRecord (s : State) (lq : Nat) : State :=
  match s.queues.find lq with
  | some q => if q.st = .free then { s with launchQs := s.launchQs.del lq } else s.updLq lq fun x => { x with cur := none }
  | none => s.updLq lq fun x => { x with cur := none }

/-- PAGE_MODE_SIGNAL (R185): every named die has reported. -/
def execPageModeSignal (lq : Nat) (s : State) : Res :=
  match s.launchQs.find lq with
  | none => finish s
  | some x => match x.cur, s.lqCtx x with
    | some (.pageMode bs _ drain release done), some c =>
      if drain.isEmpty && release.isEmpty && (PageRec.dies bs).all fun v => done.contains v then
        finish ((s.endRecord lq).sigUpdate c (PageRec.sigaddr bs) (· + 1))
      else finish s
    | _, _ => finish s

/-! ## HOSTCOPY (R326) -/

namespace CopyRec
def dir (bs : List Byte) : Nat := recField bs 7 1
def vdie (bs : List Byte) : Nat := recField bs 8 1
def sigaddr (bs : List Byte) : Nat := recField bs 9 6
def haddr (bs : List Byte) : Nat := recField bs 16 8
def daddr (bs : List Byte) : Nat := recField bs 24 8
def len (bs : List Byte) : Nat := recField bs 32 4
end CopyRec

/-- The copy stops and its record is refused (R326). -/
def State.stopCopy (s : State) (lq : Nat) (bs : List Byte) (tag : Nat) (copied : List (Nat × Nat)) : State :=
  (s.updLq lq fun x => { x with cur := some (.hostcopy bs tag copied true) }).refuse lq bs 6

/-- Move `n` bytes of a copy from offset `start`. -/
def State.moveCopy (s : State) (lq : Nat) (x : LaunchQ) (bs : List Byte) (tag : Nat) (copied : List (Nat × Nat)) (die start n : Nat) : State :=
  let h := (CopyRec.haddr bs + start) % 2 ^ 64
  let d := (CopyRec.daddr bs + start) % 2 ^ 64
  let did (s : State) : State := s.updLq lq fun x => { x with cur := some (.hostcopy bs tag ((start, n) :: copied) false) }
  if CopyRec.dir bs = 0 then
    match s.devWrite die x.ctx (CopyRec.vdie bs) d (cellsGet s.host h n) (some tag) with
    | (.bytes _, s) => did s
    | (.wait, s) => s
    | (.fault _ _ _, s) => s.stopCopy lq bs tag copied
  else
    match s.devRead die x.ctx (CopyRec.vdie bs) d n with
    | (.bytes l, s) => did { s with host := cellsSet s.host h l }
    | (.wait, s) => s
    | (.fault _ _ _, s) => s.stopCopy lq bs tag copied

/-- HOSTCOPY (R326): the record is checked and taken; while it runs, the hub moves bytes in an order of its choosing. -/
def execHostcopy (lq start count : Nat) (hostError : Bool) (s : State) : Res :=
  match s.launchQs.find lq with
  | none => finish s
  | some x => match x.cur, s.lqCtx x with
    | some (.hostcopy bs tag copied false), some c =>
      if hostError then finish (s.stopCopy lq bs tag copied)
      else if count = 0 ∨ CopyRec.len bs < start + count ∨ copied.any (fun r => overlaps r.1 r.2 start count) then finish s
      else match c.remap.find (CopyRec.vdie bs) with
        | some die => finish (s.moveCopy lq x bs tag copied die start count)
        | none => finish s
    | _, _ => recordTurn lq (fun b => recType b == 7) (fun _ c r s =>
        let bs := r.bytes
        if r.launch then s.refuse lq bs 7
        else if recArg bs ≠ 0 then s.refuse lq bs 1
        else if !sigOpt c (CopyRec.sigaddr bs) then s.refuse lq bs 3
        else if 1 < CopyRec.dir bs ∨ 7 < CopyRec.vdie bs ∨ (c.remap.find (CopyRec.vdie bs)).isNone ∨ 2 ^ 30 < CopyRec.len bs then s.refuse lq bs 6
        else
          let (tag, s) := s.newId
          s.updLq lq fun x => { x with cur := some (.hostcopy bs tag [] false) }) s

/-- HOSTCOPY_END (R326): every byte has been copied and performed, or the copy has stopped. -/
def execHostcopyEnd (lq : Nat) (s : State) : Res :=
  match s.launchQs.find lq with
  | none => finish s
  | some x => match x.cur, s.lqCtx x with
    | some (.hostcopy bs tag copied stopped), some c =>
      let all := (copied.map (·.2)).foldl (· + ·) 0 == CopyRec.len bs
      if s.tagPending tag then finish s
      else if stopped then finish (s.endRecord lq)
      else if all then finish ((s.endRecord lq).sigUpdate c (CopyRec.sigaddr bs) (· + 1))
      else finish s
    | _, _ => finish s

/-! ## The end of a group without a save (R353, R363) -/

namespace State

/-- The queue operations of threads are dropped: a fill that has left its port goes on (R357). -/
def dropQueueOps (s : State) (mine : Nat → Bool) : State :=
  let keep (r : QReq) : Bool := !(mine r.thread) || (r.posted || (r.eop.isNone && match r.op with | .fill _ _ => true | _ => false))
  let drop (e : Nat × Queue) : Nat × Queue := (e.1, { e.2 with takes := e.2.takes.filter fun r => !mine r.thread, waiters := e.2.waiters.filter fun r => !mine r.thread })
  let qs := s.queues.map drop
  { s with qreqs := s.qreqs.filter keep, cancelled := s.cancelled.filter fun r => !mine r.thread, queues := qs, quOps := s.quOps.filter fun e => !mine e.2.thread, answers := s.answers.filter fun e => !(mine e.2.req.thread) || e.2.req.posted }

/-- A group stops issuing, its engines abandon their work, and it retires without a save (R353): its record stays until
the writes that it issued have been acknowledged. Mark: DEDUCED (log 42). -/
def killGroup (s : State) (gid : Nat) : State :=
  match s.groups.find gid with
  | none => s
  | some g =>
    let warps := (s.groupWarps gid).map (·.1)
    let mine (k : Nat) : Bool := warps.contains (k / 64)
    let part (e : Nat × IGroup) : Nat × IGroup := (e.1, { e.2 with members := e.2.members.filter fun k => !mine k })
    let s := { s with igroups := (s.igroups.map part).filter fun e => !e.2.members.isEmpty }
    let s := s.dropQueueOps mine
    let users := (s.engOps.filter fun e => e.2.group == gid).map (·.1) ++ (s.mops.vals.filter fun o => o.group == gid).map (·.user) ++ (g.cvs.vals.filterMap fun c => c.mgen.map (·.id))
    let hold (e : Nat × EngOp) : Nat × EngOp := if e.2.group == gid then (e.1, { e.2 with held := true }) else e
    let s := { s with engOps := s.engOps.map hold, mops := s.mops.filter fun e => e.2.group != gid }
    let s := users.foldl (fun s u => s.endUser g.die g.core u) s
    let c := s.core g.die g.core
    let s := s.setCore g.die g.core { c with stations := c.stations.filter fun e => e.2.group != gid }
    let s := { s.forgetReaders mine with prods := s.prods.filter fun e => !mine e.2.thread, monitors := s.monitors.filter fun e => !mine e.1, watches := s.watches.filter fun e => e.2.group != gid, threads := s.threads.filter fun e => !mine e.1, warps := s.warps.filter fun e => e.2.group != gid }
    let tiles := if g.holds then g.handles.filterMap (·.2.tile) else []
    let s := s.updGroup gid fun g => { g with st := .retired, handles := [], tagWaits := [], past := g.past ++ warps }
    let s := tiles.foldl (fun s t => s.returnTile g.die g.core t) s
    let s := match s.groups.find gid with | some g => s.pushGroup g | none => s
    -- its operations have left the engine queue, and its waiters their places (R283)
    (s.dropDicts g.die g.core).serveRoom g.die g.core

/-- The groups of launches. -/
def groupsOf (s : State) (p : Nat → Bool) : List Nat := (s.groups.filter fun e => p e.2.launch).map (·.1)

/-- Whether every write, and every signal update, of retired groups has been acknowledged, with what their cores had on the way
home (R353). Mark: DEDUCED (log 42). -/
def quiet (s : State) (gids : List Nat) : Bool :=
  gids.all fun gid => match s.groups.find gid with
    | none => true
    | some g => s.groupWritesDone g && !s.tagPending gid &&
      s.engOps.all (fun e => e.2.group != gid || !s.tagPending e.1) &&
      s.wbacks.vals.all (fun b => !(b.ctx == g.ctx && b.die == g.die && b.core == g.core)) &&
      s.sigQueue.vals.all fun x => !g.past.contains (x.thread / 64)

/-- The records of retired groups end. Mark: DEDUCED (log 42). -/
def forgetGroups (s : State) (gids : List Nat) : State :=
  { s with groups := s.groups.filter fun e => !gids.contains e.1, engOps := s.engOps.filter fun e => !gids.contains e.2.group }

/-- Every launch of a queue that is ACCEPTED or ACTIVE becomes KILLED, and its groups retire (R353). -/
def killLaunches (s : State) (lq : Nat) : State :=
  let ids := (s.openLaunches lq).map (·.1)
  let kill (e : Nat × Launch) : Nat × Launch := if ids.contains e.1 then (e.1, { e.2 with st := .killed }) else e
  let s := { s with launches := s.launches.map kill }
  (s.groupsOf ids.contains).foldl (fun s gid => s.killGroup gid) s

/-- The retired groups of a queue's killed launches. -/
def killedGroups (s : State) (lq : Nat) : List Nat :=
  s.groupsOf fun l => match s.launches.find l with | some x => x.lq == lq && x.st == .killed | none => false

end State

/-! ## QRESET at home (R352, R353) -/

/-- The discard of a reset: every ticket goes, the waiters are answered RESET, and takes without the status form stay
pending (R352). -/
def State.discardTickets (s : State) (key : Nat) (q : Queue) : State :=
  let s := s.setQueue key { q with head := q.tail, rmark := q.tail, tickets := [], byLaunch := [], waiters := [] }
  q.waiters.foldl (fun s r => s.answer r qReset 0 [] 0) s

/-- Step 1 and 2 of the reset of a launch queue (R353). -/
def State.startLqReset (s : State) (lq : Nat) : State :=
  let stop (x : LaunchQ) : LaunchQ :=
    { x with stopped := true, cur := match x.cur with | some (.hostcopy bs t l _) => some (.hostcopy bs t l true) | some (.fence _) => none | r => r }
  (s.updLq lq stop).killLaunches lq

/-- Whether the waits of steps 2 and 3 are over (R353). -/
def State.lqResetDone (s : State) (lq : Nat) : Bool :=
  s.quiet (s.killedGroups lq) && match s.launchQs.find lq with
    | none => true
    | some x => match x.cur with
      | none => true
      | some (.hostcopy _ tag _ _) => !s.tagPending tag
      | some _ => false

/-- Step 4, and the return to ACTIVE (R353). -/
def State.endLqReset (s : State) (lq : Nat) : State :=
  (s.forgetGroups (s.killedGroups lq)).updLq lq fun x =>
    { x with lines := [], expect := 1, consumed := 0, shadows := List.replicate 32 0, pend := 0, timer := none, cur := none, stopped := false }

/-- HOME_RESET (R352, R353): a reset under way is finished when its waits are over; otherwise the next QRESET is taken. A
queue that is no launch queue is reset in one step. Mark: DEDUCED (log 42). -/
def execHomeReset (home src : Nat) (s : State) : Res :=
  let ready := s.queues.find? fun e => quHome e.1 == home && e.2.st == .resetting && s.lqResetDone e.1 &&
    (match e.2.resetBy with | some r => r.src == src | none => false)
  match ready with
  | some (key, q) =>
    let s := (s.endLqReset key).setQueue key { q with st := .active, resetBy := none }
    finish (match q.resetBy with | some r => s.answer r qOk 0 [] 0 | none => s)
  | none =>
    homeTurn home src (fun o => match o with | .reset => true | _ => false)
      (fun key q r s =>
        if q.lq then (s.discardTickets key { q with st := .resetting, resetBy := some r }).startLqReset key
        else (s.discardTickets key { q with st := .active }).answer r qOk 0 [] 0) s

end Sys2Proof.Machine
end

