-- ==== Sys2Proof/Machine/Contexts.lean ====
section
/-! DEFINITION. The special registers (R77, R380), traps and the return from a handler (R370, R371), YIELDPT (R377) and
ECALL with the function core's call queue (R17, R381). -/

namespace Sys2Proof.Machine

/-! ## Traps and the return from a handler -/

/-- TRAP (R371). -/
def execTrap (q : Ctl) (code : Byte) (s : State) : Res :=
  runSlot (.trap q code) (fun _ s => (.raise .trapsw (code.setWidth 32), s)) s

/-- BKPT (R371). -/
def execBkpt (q : Ctl) (code : Byte) (s : State) : Res :=
  runSlot (.bkpt q code) (fun _ s => (.raise .bkpt (code.setWidth 32), s)) s

/-- RTH (R370): the thread leaves its handler; one whose own roster bit the handler has cleared ends instead (R133). Mark: DEDUCED (log 67). -/
def execRth (q : Ctl) (s : State) : Res :=
  runSlot (.rth q) (fun m s =>
    if m.t.handler.isNone then (.raise .illop (s.illopInfo 0xF1), s)
    else if m.t.rosterPend then (.left, s.endThread m.k)
    else (.left, s.leaveHandler m.k)) s

/-! ## Special registers (R77) -/

def loHalf (v : W64) : W32 := v.extractLsb' 0 32
def hiHalf (v : W64) : W32 := v.extractLsb' 32 32

/-- The outstanding counters as SREAD OCNT returns them (R77). -/
def Warp.ocnt (w : Warp) : W32 := BitVec.ofNat 32 (w.cp + 2 ^ 8 * w.mx + 2 ^ 16 * w.qu + 2 ^ 24 * w.gs)

/-- A special register by its code; none where R77 lists no such code. -/
def specialReg (s : State) (m : Self) (code : Nat) : Option W32 :=
  let dt : W64 := BitVec.ofNat 64 (s.now m.g.die)
  let cyc : W64 := BitVec.ofNat 64 (s.clk m.g.die m.g.core)
  let vpkg := match s.contexts.find m.g.ctx with | some c => c.vpkg | none => 0
  match code with
  | 0x00 => some (BitVec.ofNat 32 m.t.lane)
  | 0x01 => some (BitVec.ofNat 32 m.w.num)
  | 0x02 => some (BitVec.ofNat 32 m.g.num)
  | 0x03 => some (loHalf m.t.workid)
  | 0x04 => some (hiHalf m.t.workid)
  | 0x05 => some (BitVec.ofNat 32 m.g.vcore)
  | 0x06 => some (BitVec.ofNat 32 m.g.vdie)
  | 0x07 => some (vpkg.setWidth 32)
  | 0x08 => some (loHalf dt)
  | 0x09 => some (hiHalf dt)
  | 0x0A => some (loHalf cyc)
  | 0x0B => some (hiHalf cyc)
  | 0x0C => some (loHalf m.t.wct)
  | 0x0D => some (hiHalf m.t.wct)
  | 0x0E => some (m.t.fpstat.setWidth 32)
  | 0x0F => some m.t.qstat
  | 0x10 => some (m.t.handler.getD m.w.wcause)
  | 0x11 => some (loHalf m.t.epc)
  | 0x12 => some (hiHalf m.t.epc)
  | 0x13 => some m.t.einfo
  | 0x14 => some (loHalf m.w.roster)
  | 0x15 => some (hiHalf m.w.roster)
  | 0x16 => some m.w.ocnt
  | 0x17 => some m.w.tokwait
  | 0x18 => some (BitVec.ofNat 32 m.g.energy)
  | 0x19 => some (BitVec.ofNat 32 (m.g.energy / 2 ^ 32))
  | 0x1A => some (BitVec.ofNat 32 (s.classOf m.g.die m.g.core))
  | 0x1B => some (BitVec.ofNat 32 m.w.width)
  | _ => none

/-- SREAD (R380). -/
def execSread (q : Ctl) (d : Opd) (reg : Byte) (s : State) : Res :=
  runSlot (.sread q d reg) (fun m s =>
    match specialReg s m reg.toNat with
    | some v => (.done, s.setThread m.k (m.t.write d [v]))
    | none => (.raise .illop (s.illopInfo 0xF2), s)) s

/-- A 64-bit register with one half replaced. -/
def withHalf (v : W64) (hi : Bool) (h : W32) : W64 := if hi then pairOf (loHalf v) h else pairOf h (hiHalf v)

/-- A roster edit ends a thread as EXIT does, whatever it is waiting for (R133). Mark: DEDUCED (log 67). -/
def State.endByEdit (s : State) (k : Nat) : State :=
  let gid := match s.self k with | some m => m.gid | none => 0
  let s := { s with monitors := s.monitors.del k }
  let s := s.updGroup gid fun g => { g with tagWaits := g.tagWaits.filter fun w => w.thread != k || w.kind == 3 }
  (s.updThread k fun t => { t with grant := 0 }).endThread k

/-- ROSTER := ROSTER & mask, from the handler of the thread that `m` was at the slot (R133). The thread's own bit stays set until its
RTH. Mark: DEDUCED (log 67). -/
def State.editRoster (s : State) (m : Self) (mask : W64) : State :=
  let gone := (maskList (m.w.roster &&& ~~~mask)).filter fun lane => lane != m.t.lane
  let s := gone.foldl (fun s lane => s.endByEdit (threadKey m.t.warp lane)) s
  let own := m.w.roster.getLsbD m.t.lane && !mask.getLsbD m.t.lane
  (s.updThread m.k fun t => { t with rosterPend := t.rosterPend || own }).retestPoint m.t.warp

/-- The roster edits of a slot (R133): of every member that has executed it in its handler, also of one that another member's edit in
this slot ends, for it ends at the boundary of its slot. -/
def rosterEdits (mask : Self → State → W64) (_ : IGroup) (did : List Nat) (s : State) : State :=
  ((did.filterMap s.self).filter fun m => m.t.handler.isSome).foldl (fun t m => t.editRoster m (mask m s)) s

/-- SWRITE (R380). A register that the thread may not write is left as it is (R8). -/
def execSwrite (q : Ctl) (reg : Byte) (a : Opd) (s : State) : Res :=
  runSlotThen (.swrite q reg a) (fun m s =>
    let v := s.src m a
    let inHandler := m.t.handler.isSome
    match reg.toNat with
    | 0x0E => (.done, s.setThread m.k { m.t with fpstat := v.setWidth 5 })
    | 0x11 => (.done, if inHandler then s.setThread m.k { m.t with epc := withHalf m.t.epc false v } else s)
    | 0x12 => (.done, if inHandler then s.setThread m.k { m.t with epc := withHalf m.t.epc true v } else s)
    | n => if n ≤ 0x1B then (.done, s) else (.raise .illop (s.illopInfo 0xF3), s))
    (match reg.toNat with
      | 0x14 => rosterEdits fun m s => pairOf (s.src m a) (BitVec.allOnes 32)
      | 0x15 => rosterEdits fun m s => pairOf (BitVec.allOnes 32) (s.src m a)
      | _ => fun _ _ s => s) s

/-! ## YIELDPT (R377) -/

/-- YIELDPT (R377): with the pre-emption flag of the thread's core set, the thread stops with its map. -/
def execYieldpt (q : Ctl) (map : BitVec 10) (s : State) : Res :=
  runSlot (.yieldpt q map) (fun m s =>
    match s.contexts.find m.g.ctx, s.ig with
    | some c, some ig =>
      if c.preDies.contains m.g.vdie then
        let x : Xfer := if ig.last then .slot0 else .anySlot
        (.left, s.updThread m.k fun t => { t with pc := ig.nextPc, xfer := some x, st := .stopped 4 none, stopMap := some map.toNat })
      else (.done, s)
    | _, _ => (.done, s)) s

/-! ## ECALL (R381) -/

namespace State

/-- Whether a thread's ECALL is at the function core or its answer under way. -/
def ecalled (s : State) (k : Nat) : Bool := s.callQueue.vals.any (fun x => x.thread == k) || s.eanswers.vals.any fun x => x.thread == k
/-- Places of a port's reservation in a call queue that are in use (R17). Mark: DEDUCED (log 64). -/
def callPlaces (s : State) (vf die : Nat) : Nat :=
  (portElems s.callQueue vf die).length + (s.eanswers.filter fun e => e.2.vf == vf && e.2.die == die).length
/-- A place has returned to a port: the threads that wait for one issue their slots again. -/
def wakeCallers (s : State) (die : Nat) : State :=
  s.wakeAll fun k w => w.kind == waitService && w.place == 0xF6 && (match s.self k with | some m => m.g.die == die | none => false)

end State

/-- ECALL (R381): the thread is held at the slot until the answer has written D. Mark: DEDUCED (log 64). -/
def execEcall (q : Ctl) (d a : Opd) (svc : Byte) (s : State) : Res :=
  runSlot (.ecall q d a svc) (fun m s =>
    if m.t.waitDone then clearDone m s
    else match s.contexts.find m.g.ctx with
      | none => (.done, s)
      | some c =>
        if s.ecalled m.k || decide (64 ≤ s.callPlaces c.vf m.g.die) then (.block (State.svcWait 0xF6), s)
        else
          let (id, s) := s.newId
          let x : Service := { vf := c.vf, die := m.g.die, vdie := m.g.vdie, ctx := m.g.ctx, thread := m.k, vcore := m.g.vcore, group := m.g.num, warp := m.w.num, lane := m.t.lane, sel := svc.toNat, fn := 0, arg := s.src64 m a, regs := regsOf d 2 }
          (.block (State.svcWait 0xF6), { s with callQueue := s.callQueue.put id x })) s

/-- The harvest count of a virtual die (R32). -/
def harvestCount (s : State) (ctx vdie : Nat) : W64 :=
  match (s.contexts.find ctx).bind fun c => c.remap.find vdie with
  | none => 0
  | some die =>
    let l := (s.classes.find die).getD []
    let n (c : BitVec 2) : Nat := (l.filter fun x => x == c).length
    BitVec.ofNat 64 (n 0 + 2 ^ 8 * n 1 + 2 ^ 16 * n 2)

/-- The function core's answer to a service, and the log (R381). -/
def serve (x : Service) (host : W64) (s : State) : W64 × State :=
  if x.sel = 0 then (x.arg, s)
  else if x.sel = 1 then (harvestCount s x.ctx (bitsOf x.arg.toNat 0 3), s)
  else if x.sel = 2 then (BitVec.ofNat 64 ((s.slices.getD x.vf 0 - s.hclk) / 1500), s)
  else if x.sel = 3 then
    let e : LogE := { a := x.arg, ctx := x.ctx, vdie := x.vdie, vcore := x.vcore, group := x.group, warp := x.warp, lane := x.lane, htime := s.hclk }
    let n := s.logNext.getD x.vf 0
    (0, { s with ecallLog := s.ecallLog.put x.vf ((s.ecallLog.getD x.vf []).put n e), logNext := s.logNext.put x.vf (n + 1) })
  else if x.sel < 0x80 then (BitVec.allOnes 64, s)
  else (host, s)

/-- ECALL_SERVE (R381): the function core answers the next request from a port, which crosses the bridge of its die (R17).
Mark: DESIGN CHOICE (logs 8, 55), DEDUCED (log 64). -/
def execEcallServe (vf die : Nat) (host : W64) (s : State) : Res :=
  if !(s.link (512 + die)).st.passes then finish s
  else match State.portElems s.callQueue vf die with
  | [] => finish s
  | (id, x) :: _ =>
    let (v, s) := serve x host s
    let a : EAns := { thread := x.thread, ctx := x.ctx, die := x.die, vf := x.vf, value := v, regs := x.regs }
    finish { s with callQueue := s.callQueue.del id, eanswers := s.eanswers.put id a }

/-- ECALL_ANSWER (R381): the answer returns to the port as a queue packet, writes D and releases the thread; the element's place returns
to the port (R17). Mark: DESIGN CHOICE (log 55), DEDUCED (log 64). -/
def execEcallAnswer (ans : Nat) (s : State) : Res :=
  match s.eanswers.find ans with
  | none => finish s
  | some a =>
    if !s.bridgeOpen a.die then finish s
    else
    let s := { s with eanswers := s.eanswers.del ans }.sendTo a.die (128 + a.die) false a.ctx (s.nameOf a.ctx a.die 0) (w64Bytes a.value)
    let s := if s.alive a.thread then
        let s := s.updThread a.thread fun t => match a.regs with
          | r :: _ => t.setRegs r (pairWords a.value)
          | [] => t
        s.endWait a.thread waitService
      else s
    finish (s.wakeCallers a.die)

end Sys2Proof.Machine
end

