-- ==== Sys2Proof/Machine/IntArith.lean ====
section
/-! DEFINITION. Moves, integer and bit instructions, comparisons and predicates: opcodes 0x00 to 0x27 (R138 to
R153). -/

namespace Sys2Proof.Machine

/-- NOP (R138). -/
def execNop (q : Ctl) (s : State) : Res := runAlu (.nop q) (fun _ m => m.t) s

/-- MOV (R138). -/
def execMov (q : Ctl) (d a : Opd) (wide : Bool) (s : State) : Res :=
  runAlu (.mov q d a wide) (fun s m => m.t.write d (if wide then pairWords (s.src64 m a) else [s.src m a])) s

/-- MOVI (R138). -/
def execMovi (q : Ctl) (d : Opd) (imm : BitVec 24) (s : State) : Res :=
  runAlu (.movi q d imm) (fun _ m => m.t.write d [imm.signExtend 32]) s

/-- MOVK (R138). -/
def execMovk (q : Ctl) (d : Opd) (imm : W32) (s : State) : Res :=
  runAlu (.movk q d imm) (fun _ m => m.t.write d [imm]) s

/-- IADD (R139). -/
def addSat (sat : BitVec 2) (a b : W32) : W32 := satInt sat (a.toInt + b.toInt) (a.toNat + b.toNat)
def execIadd (q : Ctl) (d a b : Opd) (sat : BitVec 2) (s : State) : Res :=
  runAlu (.iadd q d a b sat) (fun s m => m.t.write d [addSat sat (s.src m a) (s.src m b)]) s

/-- ISUB (R139). -/
def subSat (sat : BitVec 2) (a b : W32) : W32 := satInt sat (a.toInt - b.toInt) ((a.toNat : Int) - b.toNat)
def execIsub (q : Ctl) (d a b : Opd) (sat : BitVec 2) (s : State) : Res :=
  runAlu (.isub q d a b sat) (fun s m => m.t.write d [subSat sat (s.src m a) (s.src m b)]) s

/-- IADDI (R139). -/
def execIaddi (q : Ctl) (d a : Opd) (imm : BitVec 24) (s : State) : Res :=
  runAlu (.iaddi q d a imm) (fun s m => m.t.write d [s.src m a + imm.signExtend 32]) s

/-- IMUL (R140). -/
def execImul (q : Ctl) (d a b : Opd) (s : State) : Res :=
  runAlu (.imul q d a b) (fun s m => m.t.write d [s.src m a * s.src m b]) s

/-- The exact product under TY (R140): 0 both i32, 1 both n32, 2 A i32 and B n32. -/
def mulTy (ty : BitVec 2) (a b : W32) : Int := asInt (ty == 1) a * asInt (ty != 0) b

/-- IMULH (R140). -/
def execImulh (q : Ctl) (d a b : Opd) (ty : BitVec 2) (s : State) : Res :=
  runAlu (.imulh q d a b ty)
    (fun s m => m.t.write d [BitVec.ofInt 32 (mulTy ty (s.src m a) (s.src m b) / 4294967296)]) s

/-- IMAD (R140). -/
def execImad (q : Ctl) (d a b c : Opd) (s : State) : Res :=
  runAlu (.imad q d a b c) (fun s m => m.t.write d [s.src m a * s.src m b + s.src m c]) s

/-- IMADW (R140). -/
def execImadw (q : Ctl) (d a b c : Opd) (ty : BitVec 2) (s : State) : Res :=
  runAlu (.imadw q d a b c ty)
    (fun s m => m.t.write d (pairWords (BitVec.ofInt 64 (mulTy ty (s.src m a) (s.src m b)) + s.src64 m c))) s

/-- Quotient and remainder, truncated toward zero (R141). -/
def divRem (uns : Bool) (a b : W32) : W32 × W32 :=
  if b = 0 then (0xFFFFFFFF, a)
  else (BitVec.ofInt 32 ((asInt uns a).tdiv (asInt uns b)), BitVec.ofInt 32 ((asInt uns a).tmod (asInt uns b)))

/-- IDIV (R141), a long-latency producer. -/
def execIdiv (q : Ctl) (d a b : Opd) (uns : Bool) (s : State) : Res :=
  runProducer (.idiv q d a b uns) d (fun s m => [(divRem uns (s.src m a) (s.src m b)).1]) s

/-- IREM (R141), a long-latency producer. -/
def execIrem (q : Ctl) (d a b : Opd) (uns : Bool) (s : State) : Res :=
  runProducer (.irem q d a b uns) d (fun s m => [(divRem uns (s.src m a) (s.src m b)).2]) s

/-- IMIN (R142). -/
def execImin (q : Ctl) (d a b : Opd) (uns : Bool) (s : State) : Res :=
  runAlu (.imin q d a b uns)
    (fun s m => m.t.write d [if asInt uns (s.src m a) ≤ asInt uns (s.src m b) then s.src m a else s.src m b]) s

/-- IMAX (R142). -/
def execImax (q : Ctl) (d a b : Opd) (uns : Bool) (s : State) : Res :=
  runAlu (.imax q d a b uns)
    (fun s m => m.t.write d [if asInt uns (s.src m a) ≤ asInt uns (s.src m b) then s.src m b else s.src m a]) s

/-- |x| narrowed to 32 bits; with SAT the most negative number gives the most positive (R142). -/
def narrowMag (sat : Bool) (x : Int) : W32 :=
  if sat && decide (x = 2147483648) then 0x7FFFFFFF else BitVec.ofInt 32 x

/-- IABS (R142). -/
def execIabs (q : Ctl) (d a : Opd) (sat : Bool) (s : State) : Res :=
  runAlu (.iabs q d a sat) (fun s m => m.t.write d [narrowMag sat (s.src m a).toInt.natAbs]) s

/-- INEG (R142). -/
def execIneg (q : Ctl) (d a : Opd) (sat : Bool) (s : State) : Res :=
  runAlu (.ineg q d a sat) (fun s m => m.t.write d [narrowMag sat (-(s.src m a).toInt)]) s

/-- SHL (R143). -/
def execShl (q : Ctl) (d a b : Opd) (s : State) : Res :=
  runAlu (.shl q d a b)
    (fun s m => m.t.write d [if (s.src m b).toNat < 32 then s.src m a <<< (s.src m b).toNat else 0]) s

/-- A right shift of `w` bits by `n`, logical or arithmetic (R143). -/
def shrBy {w : Nat} (ar : Bool) (x : BitVec w) (n : Nat) : BitVec w :=
  if ar then x.sshiftRight (min n (w - 1)) else if n < w then x >>> n else 0

/-- SHR (R143). -/
def execShr (q : Ctl) (d a b : Opd) (ar : Bool) (s : State) : Res :=
  runAlu (.shr q d a b ar) (fun s m => m.t.write d [shrBy ar (s.src m a) (s.src m b).toNat]) s

/-- ROT (R143). -/
def execRot (q : Ctl) (d a b : Opd) (right : Bool) (s : State) : Res :=
  runAlu (.rot q d a b right)
    (fun s m =>
      let n := (s.src m b).toNat % 32
      m.t.write d [if right then (s.src m a).rotateRight n else (s.src m a).rotateLeft n]) s

/-- IADD64 (R143). -/
def execIadd64 (q : Ctl) (d a b : Opd) (s : State) : Res :=
  runAlu (.iadd64 q d a b) (fun s m => m.t.write d (pairWords (s.src64 m a + s.src64 m b))) s

/-- ISUB64 (R143). -/
def execIsub64 (q : Ctl) (d a b : Opd) (s : State) : Res :=
  runAlu (.isub64 q d a b) (fun s m => m.t.write d (pairWords (s.src64 m a - s.src64 m b))) s

/-- SHL64 (R143). -/
def execShl64 (q : Ctl) (d a b : Opd) (s : State) : Res :=
  runAlu (.shl64 q d a b)
    (fun s m => m.t.write d (pairWords (if (s.src m b).toNat < 64 then s.src64 m a <<< (s.src m b).toNat else 0))) s

/-- SHR64 (R143). -/
def execShr64 (q : Ctl) (d a b : Opd) (ar : Bool) (s : State) : Res :=
  runAlu (.shr64 q d a b ar) (fun s m => m.t.write d (pairWords (shrBy ar (s.src64 m a) (s.src m b).toNat))) s

/-- Bit `i` of a three-input truth table's result (R144). -/
def lutBit (lut : Byte) (a b c : Bool) : Bool := lut.getLsbD (a.toNat + 2 * b.toNat + 4 * c.toNat)
def lop3 (lut : Byte) (a b c : W32) : W32 :=
  BitVec.ofNat 32 ((List.range 32).foldl
    (fun x i => x + (lutBit lut (a.getLsbD i) (b.getLsbD i) (c.getLsbD i)).toNat * 2 ^ i) 0)

/-- LOP3 (R144). -/
def execLop3 (q : Ctl) (d a b c : Opd) (lut : Byte) (s : State) : Res :=
  runAlu (.lop3 q d a b c lut) (fun s m => m.t.write d [lop3 lut (s.src m a) (s.src m b) (s.src m c)]) s

/-- Position and length of a field, clipped to the register (R145). -/
def fieldOf (b : W32) : Nat × Nat :=
  let pos := min 32 (bitsOf b.toNat 0 8)
  (pos, min (32 - pos) (bitsOf b.toNat 8 8))

def bfx (sx : Bool) (a b : W32) : W32 :=
  let f := fieldOf b
  let v := bitsOf a.toNat f.1 f.2
  if sx && decide (0 < f.2) && bitOf v (f.2 - 1) then BitVec.ofInt 32 ((v : Int) - 2 ^ f.2) else BitVec.ofNat 32 v

/-- BFX (R145). -/
def execBfx (q : Ctl) (d a b : Opd) (sx : Bool) (s : State) : Res :=
  runAlu (.bfx q d a b sx) (fun s m => m.t.write d [bfx sx (s.src m a) (s.src m b)]) s

def bfi (a b c : W32) : W32 :=
  let f := fieldOf b
  let mask : W32 := BitVec.ofNat 32 ((2 ^ f.2 - 1) * 2 ^ f.1)
  (a &&& ~~~mask) ||| ((c <<< f.1) &&& mask)

/-- BFI (R145). -/
def execBfi (q : Ctl) (d a b c : Opd) (s : State) : Res :=
  runAlu (.bfi q d a b c) (fun s m => m.t.write d [bfi (s.src m a) (s.src m b) (s.src m c)]) s

/-- BREV (R146). -/
def execBrev (q : Ctl) (d a : Opd) (s : State) : Res :=
  runAlu (.brev q d a) (fun s m => m.t.write d [(s.src m a).reverse]) s

def popCount (x : W32) : Nat := (List.range 32).countP fun i => x.getLsbD i

/-- POPC (R146). -/
def execPopc (q : Ctl) (d a : Opd) (s : State) : Res :=
  runAlu (.popc q d a) (fun s m => m.t.write d [BitVec.ofNat 32 (popCount (s.src m a))]) s

/-- CLZ (R146). -/
def execClz (q : Ctl) (d a : Opd) (s : State) : Res :=
  runAlu (.clz q d a)
    (fun s m => m.t.write d [BitVec.ofNat 32 (if s.src m a = 0 then 32 else 31 - (s.src m a).toNat.log2)]) s

/-- CTZ (R146). -/
def execCtz (q : Ctl) (d a : Opd) (s : State) : Res :=
  runAlu (.ctz q d a)
    (fun s m => m.t.write d [BitVec.ofNat 32 (((List.range 32).find? fun i => (s.src m a).getLsbD i).getD 32)]) s

/-- The byte that a selector makes of eight source bytes (R147). -/
def prmtByte (ba : W64) (sel : Byte) : Byte :=
  let b : Byte := ba.extractLsb' (8 * bitsOf sel.toNat 0 3) 8
  match bitsOf sel.toNat 3 2 with
  | 0 => b
  | 1 => 0
  | 2 => if b.getLsbD 7 then 0xFF else 0
  | _ => ~~~b

def prmt (a b c : W32) : W32 :=
  bytesW32 ((List.range 4).map fun i => prmtByte (b ++ a) (c.extractLsb' (8 * i) 8))

/-- PRMT (R147). -/
def execPrmt (q : Ctl) (d a b c : Opd) (s : State) : Res :=
  runAlu (.prmt q d a b c) (fun s m => m.t.write d [prmt (s.src m a) (s.src m b) (s.src m c)]) s

/-- Write a truth value to a predicate and its complement to another (R148). -/
def Thread.setPreds (t : Thread) (pd pq : PredNo) (r : Bool) : Thread := (t.setPred pd r).setPred pq (!r)

/-- ICMP (R149). -/
def execIcmp (q : Ctl) (pd pq : PredNo) (a b : Opd) (cc : BitVec 3) (uns w64 : Bool) (s : State) : Res :=
  runAlu (.icmp q pd pq a b cc uns w64)
    (fun s m => m.t.setPreds pd pq
      (if w64 then icompare cc (asInt uns (s.src64 m a)) (asInt uns (s.src64 m b))
       else icompare cc (asInt uns (s.src m a)) (asInt uns (s.src m b)))) s

/-- ICMPI (R149). -/
def execIcmpi (q : Ctl) (pd pq : PredNo) (a : Opd) (imm : BitVec 16) (cc : BitVec 3) (uns w64 : Bool) (s : State) :
    Res :=
  runAlu (.icmpi q pd pq a imm cc uns w64)
    (fun s m => m.t.setPreds pd pq
      (icompare cc (if w64 then asInt uns (s.src64 m a) else asInt uns (s.src m a)) (asInt uns imm))) s

/-- FCMP (R150): where PD and PQ name one predicate, the complement stays. Mark: DESIGN CHOICE (log 77). -/
def execFcmp (q : Ctl) (pd pq : PredNo) (a b : Opd) (cc : BitVec 3) (s : State) : Res :=
  runAlu (.fcmp q pd pq a b cc)
    (fun s m =>
      let r := fcompare cc (fval f32 (s.src m a).toNat) (fval f32 (s.src m b).toNat)
      (m.t.setPreds pd pq r.1).orFlags r.2) s

/-- Half `i` of a word as a code. -/
def half (x : W32) (i : Nat) : Nat := bitsOf x.toNat (16 * i) 16
def halves (lo hi : Nat) : W32 := BitVec.ofNat 32 (lo % 65536 + 65536 * (hi % 65536))

/-- HCMP2 (R150): of two results for one predicate, that of element 1 stays. Mark: DESIGN CHOICE (log 77). -/
def execHcmp2 (q : Ctl) (plo phi : PredNo) (a b : Opd) (cc : BitVec 3) (bf : Bool) (s : State) : Res :=
  runAlu (.hcmp2 q plo phi a b cc bf)
    (fun s m =>
      let f := half16 bf
      let r (i : Nat) := fcompare cc (fval f (half (s.src m a) i)) (fval f (half (s.src m b) i))
      ((m.t.setPred plo (r 0).1).setPred phi (r 1).1).orFlags ((r 0).2 ||| (r 1).2)) s

/-- PLOP3 (R151). -/
def execPlop3 (q : Ctl) (pd pq pa pb pc : PredNo) (lut : Byte) (s : State) : Res :=
  runAlu (.plop3 q pd pq pa pb pc lut)
    (fun _ m => m.t.setPreds pd pq (lutBit lut (m.t.pred pa) (m.t.pred pb) (m.t.pred pc))) s

/-- SEL (R152). -/
def execSel (q : Ctl) (d a b : Opd) (ps : PredNo) (ns wide : Bool) (s : State) : Res :=
  runAlu (.sel q d a b ps ns wide)
    (fun s m =>
      let o := if m.t.pred ps != ns then a else b
      m.t.write d (if wide then pairWords (s.src64 m o) else [s.src m o])) s

/-- PTOG (R153). -/
def execPtog (q : Ctl) (d : Opd) (s : State) : Res :=
  runAlu (.ptog q d) (fun _ m => m.t.write d [0x8000 ||| m.t.preds.setWidth 32]) s

/-- GTOP (R153). -/
def execGtop (q : Ctl) (a b : Opd) (s : State) : Res :=
  runAlu (.gtop q a b)
    (fun s m => (List.range 15).foldl (fun t i =>
      if (s.src m b).getLsbD i then t.setPred (BitVec.ofNat 4 i) ((s.src m a).getLsbD i) else t) m.t) s

end Sys2Proof.Machine
end

