-- ==== Sys2Proof/Machine/FloatArith.lean ====
section
/-! DEFINITION. FP32, packed halves, conversions, special functions and scalar phasors: opcodes 0x30 to 0x5C (R154 to
R172). -/

namespace Sys2Proof.Machine

/-- The F32 value of a word. -/
def fw (x : W32) : FVal := fval f32 x.toNat
/-- A rounded F32 result as a word. -/
def f32Word (r : Nat × Flags) : W32 × Flags := (BitVec.ofNat 32 r.1, r.2)

/-- FADD: one rounding of the exact sum (R154). -/
def faddF (rm : Rm) (na nb sat : Bool) (a b : W32) : W32 × Flags :=
  let r := sumF32 rm [(fw a).negIf na, (fw b).negIf nb]
  if sat then satF32 r else r
def execFadd (q : Ctl) (d a b : Opd) (rm : Rm) (na nb sat : Bool) (s : State) : Res :=
  runAlu (.fadd q d a b rm na nb sat) (fun s m => m.t.writeF d (faddF rm na nb sat (s.src m a) (s.src m b))) s

/-- FSUB (R154). -/
def execFsub (q : Ctl) (d a b : Opd) (rm : Rm) (na nb sat : Bool) (s : State) : Res :=
  runAlu (.fsub q d a b rm na nb sat) (fun s m => m.t.writeF d (faddF rm na (!nb) sat (s.src m a) (s.src m b))) s

/-- FMUL (R154). -/
def fmulF (rm : Rm) (na nb sat : Bool) (a b : W32) : W32 × Flags :=
  let r := f32Word (roundFp f32 rm (((fw a).negIf na).mul ((fw b).negIf nb)))
  if sat then satF32 r else r
def execFmul (q : Ctl) (d a b : Opd) (rm : Rm) (na nb sat : Bool) (s : State) : Res :=
  runAlu (.fmul q d a b rm na nb sat) (fun s m => m.t.writeF d (fmulF rm na nb sat (s.src m a) (s.src m b))) s

/-- FFMA: the exact product, one rounding (R154). -/
def ffmaF (rm : Rm) (np nc sat : Bool) (a b c : W32) : W32 × Flags :=
  let r := sumF32 rm [((fw a).mul (fw b)).negIf np, (fw c).negIf nc]
  if sat then satF32 r else r
def execFfma (q : Ctl) (d a b c : Opd) (rm : Rm) (np nc sat : Bool) (s : State) : Res :=
  runAlu (.ffma q d a b c rm np nc sat)
    (fun s m => m.t.writeF d (ffmaF rm np nc sat (s.src m a) (s.src m b) (s.src m c))) s

/-- FMIN (R155). -/
def execFmin (q : Ctl) (d a b : Opd) (s : State) : Res :=
  runAlu (.fmin q d a b)
    (fun s m => m.t.writeF d (f32Word (minMaxNum f32 false (s.src m a).toNat (s.src m b).toNat))) s

/-- FMAX (R155). -/
def execFmax (q : Ctl) (d a b : Opd) (s : State) : Res :=
  runAlu (.fmax q d a b)
    (fun s m => m.t.writeF d (f32Word (minMaxNum f32 true (s.src m a).toNat (s.src m b).toNat))) s

/-- The class bit of a code (R156). -/
def fclass (f : FFmt) (c : Nat) : Nat :=
  match fval f c with
  | .inf n => if n then 0 else 7
  | .nan sig => if sig then 8 else 9
  | .fin n m _ =>
    if m = 0 then (if n then 3 else 4)
    else if m < 2 ^ f.fb then (if n then 2 else 5)
    else (if n then 1 else 6)

/-- The format that FCLASS names (R156). -/
def classFmt (fmt : BitVec 2) : FFmt := match fmt.toNat with | 0 => f32 | 1 => f16 | _ => bf16

/-- FCLASS (R156). -/
def execFclass (q : Ctl) (d a : Opd) (fmt : BitVec 2) (s : State) : Res :=
  runAlu (.fclass q d a fmt)
    (fun s m =>
      let f := classFmt fmt
      m.t.write d [BitVec.ofNat 32 (2 ^ fclass f ((s.src m a).toNat % 2 ^ f.width))]) s

/-- FSCALE (R157). A scale beyond ±600 gives what ±600 gives: every F32 value has left the range by then. -/
def fscaleF (rm : Rm) (a b : W32) : W32 × Flags :=
  f32Word (roundFp f32 rm ((fw a).scale (max (-600) (min 600 b.toInt))))
def execFscale (q : Ctl) (d a b : Opd) (rm : Rm) (s : State) : Res :=
  runAlu (.fscale q d a b rm) (fun s m => m.t.writeF d (fscaleF rm (s.src m a) (s.src m b))) s

/-- FRND (R157). -/
def frndF (rm : Rm) (exact : Bool) (a : W32) : W32 × Flags :=
  match fw a with
  | .nan sig => nanF32 sig
  | .inf _ => (a, 0)
  | .fin n m e =>
    let k := rndRm rm n m e
    ((f32Word (roundFp f32 .rne (.fin n k.1.natAbs 0))).1, if exact && k.2 then flagNX else 0)
def execFrnd (q : Ctl) (d a : Opd) (rm : Rm) (exact : Bool) (s : State) : Res :=
  runAlu (.frnd q d a rm exact) (fun s m => m.t.writeF d (frndF rm exact (s.src m a))) s

/-- The limits of an integer type (R158): 0 i32, 1 n32, 2 i64, 3 n64. -/
def tyLo (ty : BitVec 2) : Int := match ty.toNat with | 0 => -2147483648 | 2 => -9223372036854775808 | _ => 0
def tyHi (ty : BitVec 2) : Int :=
  match ty.toNat with | 0 => 2147483647 | 1 => 4294967295 | 2 => 9223372036854775807 | _ => 18446744073709551615

/-- F2I (R158). -/
def f2iF (rm : Rm) (ty : BitVec 2) (a : W32) : Int × Flags :=
  let clamp (k : Int) (inx : Bool) : Int × Flags :=
    if k < tyLo ty then (tyLo ty, flagNV)
    else if tyHi ty < k then (tyHi ty, flagNV)
    else (k, if inx then flagNX else 0)
  match fw a with
  | .nan _ => (0, flagNV)
  | .inf n => if n then (tyLo ty, flagNV) else (tyHi ty, flagNV)
  | .fin n m e => let k := rndRm rm n m e; clamp k.1 k.2
/-- An integer as the register words of its type. -/
def tyWords (ty : BitVec 2) (k : Int) : List W32 :=
  if ty.getLsbD 1 then pairWords (BitVec.ofInt 64 k) else [BitVec.ofInt 32 k]
def execF2i (q : Ctl) (d a : Opd) (rm : Rm) (ty : BitVec 2) (s : State) : Res :=
  runAlu (.f2i q d a rm ty)
    (fun s m =>
      let r := f2iF rm ty (s.src m a)
      (m.t.write d (tyWords ty r.1)).orFlags r.2) s

/-- I2F (R158). -/
def execI2f (q : Ctl) (d a : Opd) (rm : Rm) (ty : BitVec 2) (s : State) : Res :=
  runAlu (.i2f q d a rm ty)
    (fun s m =>
      let x := if ty.getLsbD 1 then asInt (ty.getLsbD 0) (s.src64 m a) else asInt (ty.getLsbD 0) (s.src m a)
      m.t.writeF d (f32Word (roundFp f32 rm (FVal.ofInt x)))) s

/-- A packed-half instruction: one rounding per element, the flags ORed (R159). -/
def packed (f : Nat → Nat × Flags) : W32 × Flags := (halves (f 0).1 (f 1).1, (f 0).2 ||| (f 1).2)
/-- The value of half `i` of a word. -/
def hv (bf : Bool) (x : W32) (i : Nat) : FVal := fval (half16 bf) (half x i)

/-- HADD2 (R159). -/
def execHadd2 (q : Ctl) (d a b : Opd) (rm : Rm) (bf nb : Bool) (s : State) : Res :=
  runAlu (.hadd2 q d a b rm bf nb)
    (fun s m => m.t.writeF d (packed fun i =>
      roundFp (half16 bf) rm (sumExact rm [hv bf (s.src m a) i, (hv bf (s.src m b) i).negIf nb]))) s

/-- HMUL2 (R159). -/
def execHmul2 (q : Ctl) (d a b : Opd) (rm : Rm) (bf nb : Bool) (s : State) : Res :=
  runAlu (.hmul2 q d a b rm bf nb)
    (fun s m => m.t.writeF d (packed fun i =>
      roundFp (half16 bf) rm ((hv bf (s.src m a) i).mul ((hv bf (s.src m b) i).negIf nb)))) s

/-- HFMA2 (R159). -/
def execHfma2 (q : Ctl) (d a b c : Opd) (rm : Rm) (bf nb nc : Bool) (s : State) : Res :=
  runAlu (.hfma2 q d a b c rm bf nb nc)
    (fun s m => m.t.writeF d (packed fun i =>
      roundFp (half16 bf) rm (sumExact rm
        [((hv bf (s.src m a) i).mul (hv bf (s.src m b) i)).negIf nb, (hv bf (s.src m c) i).negIf nc]))) s

/-- HMIN2 (R159). -/
def execHmin2 (q : Ctl) (d a b : Opd) (bf : Bool) (s : State) : Res :=
  runAlu (.hmin2 q d a b bf)
    (fun s m => m.t.writeF d (packed fun i => minMaxNum (half16 bf) false (half (s.src m a) i) (half (s.src m b) i))) s

/-- HMAX2 (R159). -/
def execHmax2 (q : Ctl) (d a b : Opd) (bf : Bool) (s : State) : Res :=
  runAlu (.hmax2 q d a b bf)
    (fun s m => m.t.writeF d (packed fun i => minMaxNum (half16 bf) true (half (s.src m a) i) (half (s.src m b) i))) s

/-- HDOT2: one exact sum, rounded once; a NaN sum sets NV as in R60 (R160, R61). -/
def hdot2F (rm : Rm) (bf : Bool) (a b c : W32) : W32 × Flags :=
  let v := sumExact rm [(hv bf a 0).mul (hv bf b 0), (hv bf a 1).mul (hv bf b 1), fw c]
  if v.isNan then nanF32 true else f32Word (roundFp f32 rm v)
def execHdot2 (q : Ctl) (d a b c : Opd) (rm : Rm) (bf : Bool) (s : State) : Res :=
  runAlu (.hdot2 q d a b c rm bf) (fun s m => m.t.writeF d (hdot2F rm bf (s.src m a) (s.src m b) (s.src m c))) s

/-- Byte `i` of a word. -/
def wordByte (x : W32) (i : Nat) : Byte := x.extractLsb' (8 * i) 8

/-- CVT (R161): the source element's value, then the destination's code. -/
def cvtSrc (srcF elt : BitVec 2) (a : W32) : FVal :=
  match srcF.toNat with
  | 0 => fw a
  | 1 => fval f16 (half a elt.toNat)
  | 2 => fval bf16 (half a elt.toNat)
  | _ => hf8Val (wordByte a elt.toNat)
def cvtDst (dstF : BitVec 2) (rm : Rm) (v : FVal) : W32 × Flags :=
  match dstF.toNat with
  | 0 => f32Word (roundFp f32 rm v)
  | 1 => f32Word (roundFp f16 rm v)
  | 2 => f32Word (roundFp bf16 rm v)
  | _ => let r := hf8Enc v; (r.1.setWidth 32, r.2)
def execCvt (q : Ctl) (d a : Opd) (srcF dstF : BitVec 2) (rm : Rm) (elt : BitVec 2) (s : State) : Res :=
  runAlu (.cvt q d a srcF dstF rm elt) (fun s m => m.t.writeF d (cvtDst dstF rm (cvtSrc srcF elt (s.src m a)))) s

/-- CVTPK (R162). -/
def execCvtpk (q : Ctl) (d a b : Opd) (rm : Rm) (bf : Bool) (s : State) : Res :=
  runAlu (.cvtpk q d a b rm bf)
    (fun s m => m.t.writeF d (packed fun i => roundFp (half16 bf) rm (fw (if i = 0 then s.src m a else s.src m b)))) s

/-- CVTX4 (R163). -/
def cvtx4Wide (i8 bf : Bool) (b : Byte) : Nat :=
  (roundFp (half16 bf) .rne (if i8 then FVal.ofInt b.toInt else hf8Val b)).1
def cvtx4Byte (i8 bf : Bool) (c : Nat) : Byte × Flags :=
  if i8 then i8Enc (fval (half16 bf) c) else hf8Enc (fval (half16 bf) c)
/-- Four bytes with their flags, as one word. -/
def packBytes (f : Nat → Byte × Flags) : W32 × Flags :=
  (bytesW32 ((List.range 4).map fun i => (f i).1), (List.range 4).foldl (fun x i => x ||| (f i).2) 0)
/-- Element `i` of four halves in a pair (R163). -/
def half64 (x : W64) (i : Nat) : Nat := bitsOf x.toNat (16 * i) 16
def halves4 (f : Nat → Nat) : List W32 := [halves (f 0) (f 1), halves (f 2) (f 3)]
def execCvtx4 (q : Ctl) (d a : Opd) (narrow i8 bf : Bool) (s : State) : Res :=
  runAlu (.cvtx4 q d a narrow i8 bf)
    (fun s m =>
      if narrow then m.t.writeF d (packBytes fun i => cvtx4Byte i8 bf (half64 (s.src64 m a) i))
      else m.t.write d (halves4 fun i => cvtx4Wide i8 bf (wordByte (s.src m a) i))) s

/-- QDT of one element under a scale code (R164). -/
def qdtOne (dt6 : Bool) (sc : Byte) (x : W32) : Byte × Flags :=
  let z : Byte := if dt6 then 0x1B else 0x77
  if sc = 0 then (z, 0)
  else if sc = 255 then (z, flagNV)
  else
    let v := (fw x).scale (127 - (sc.toNat : Int))
    if dt6 then dt6Enc v else dt8Enc v
def execQdt (q : Ctl) (d a b c : Opd) (dt6 : Bool) (s : State) : Res :=
  runAlu (.qdt q d a b c dt6)
    (fun s m =>
      let xs := pairWords (s.src64 m a) ++ pairWords (s.src64 m b)
      m.t.writeF d (packBytes fun i => qdtOne dt6 (wordByte (s.src m c) 0) (xs.getD i 0))) s

/-- DQDT of one element under a scale code (R165). -/
def dqdtOne (dt6 bf : Bool) (rm : Rm) (sc c : Byte) : Nat × Flags :=
  match e8Val sc with
  | none => ((half16 bf).canon, flagNV)
  | some (.fin _ 0 _) => (0, 0)
  | some e => roundFp (half16 bf) rm ((if dt6 then dt6Val c else dt8Val c).mul e)
def execDqdt (q : Ctl) (d a b : Opd) (dt6 bf : Bool) (rm : Rm) (s : State) : Res :=
  runAlu (.dqdt q d a b dt6 bf rm)
    (fun s m =>
      let r (i : Nat) := dqdtOne dt6 bf rm (wordByte (s.src m b) 0) (wordByte (s.src m a) i)
      (m.t.write d (halves4 fun i => (r i).1)).orFlags ((List.range 4).foldl (fun x i => x ||| (r i).2) 0)) s

/-- RCP (R166, R167). -/
def execRcp (q : Ctl) (d a : Opd) (s : State) : Res :=
  runAlu (.rcp q d a) (fun s m => m.t.writeF d (sfRcp (s.src m a))) s

/-- RSQ (R166, R167). -/
def execRsq (q : Ctl) (d a : Opd) (s : State) : Res :=
  runAlu (.rsq q d a) (fun s m => m.t.writeF d (sfRsq (s.src m a))) s

/-- SQRT (R166, R167). -/
def execSqrt (q : Ctl) (d a : Opd) (s : State) : Res :=
  runAlu (.sqrt q d a) (fun s m => m.t.writeF d (sfSqrt (s.src m a))) s

/-- EX2 (R166, R167). -/
def execEx2 (q : Ctl) (d a : Opd) (s : State) : Res :=
  runAlu (.ex2 q d a) (fun s m => m.t.writeF d (sfEx2 (s.src m a))) s

/-- LG2 (R166, R167). -/
def execLg2 (q : Ctl) (d a : Opd) (s : State) : Res :=
  runAlu (.lg2 q d a) (fun s m => m.t.writeF d (sfLg2 (s.src m a))) s

/-- SINT (R166, R167). -/
def execSint (q : Ctl) (d a : Opd) (s : State) : Res :=
  runAlu (.sint q d a) (fun s m => m.t.writeF d (sfSint (s.src m a))) s

/-- COST (R166, R167). -/
def execCost (q : Ctl) (d a : Opd) (s : State) : Res :=
  runAlu (.cost q d a) (fun s m => m.t.writeF d (sfCost (s.src m a))) s

/-- The sum or difference of two PH16 codes (R55, R168). -/
def phAdd (a b : Nat) : Nat := if a % 2 = 1 ∨ b % 2 = 1 then 1 else (a / 2 + b / 2) % 32768 * 2
def phSub (a b : Nat) : Nat := if a % 2 = 1 ∨ b % 2 = 1 then 1 else (a / 2 + 32768 - b / 2) % 32768 * 2
/-- One or both halves (R168). -/
def phHalves (pk : Bool) (f : Nat → Nat) : W32 := halves (f 0) (if pk then f 1 else 0)

/-- PHADD (R168). -/
def execPhadd (q : Ctl) (d a b : Opd) (pk : Bool) (s : State) : Res :=
  runAlu (.phadd q d a b pk)
    (fun s m => m.t.write d [phHalves pk fun i => phAdd (half (s.src m a) i) (half (s.src m b) i)]) s

/-- PHSUB (R168). -/
def execPhsub (q : Ctl) (d a b : Opd) (pk : Bool) (s : State) : Res :=
  runAlu (.phsub q d a b pk)
    (fun s m => m.t.write d [phHalves pk fun i => phSub (half (s.src m a) i) (half (s.src m b) i)]) s

/-- PHCMP: "precedes" and "opposite" (R55, R169). -/
def phCmp (a b : Nat) : Bool × Bool :=
  if a % 2 = 1 ∨ b % 2 = 1 then (false, false)
  else
    let d := (b / 2 + 32768 - a / 2) % 32768
    (decide (1 ≤ d ∧ d ≤ 16383), decide (d = 16384))
/-- PHCMP (R169): of two results for one predicate, the relation opposite is the one that stays. Mark: DESIGN CHOICE (log 77). -/
def execPhcmp (q : Ctl) (pp po : PredNo) (a b : Opd) (s : State) : Res :=
  runAlu (.phcmp q pp po a b)
    (fun s m =>
      let r := phCmp (half (s.src m a) 0) (half (s.src m b) 0)
      (m.t.setPred pp r.1).setPred po r.2) s

/-- PHFROM (R170). -/
def phFrom (rm : Rm) (a : W32) : W32 × Flags :=
  match fw a with
  | .fin n m e =>
    let k := rndRm rm n m (e + 15)
    (BitVec.ofInt 32 (k.1 % 32768 * 2), if k.2 then flagNX else 0)
  | _ => (1, flagNV)
def execPhfrom (q : Ctl) (d a : Opd) (rm : Rm) (s : State) : Res :=
  runAlu (.phfrom q d a rm) (fun s m => m.t.writeF d (phFrom rm (s.src m a))) s

/-- The table pair of a PH16 code (R56, R171). -/
def phPair (c : Nat) : Int × Int := if c % 2 = 1 then (0, 0) else (phTC (c / 16), phTS (c / 16))

/-- PHSC (R171). -/
def execPhsc (q : Ctl) (d a : Opd) (s : State) : Res :=
  runAlu (.phsc q d a)
    (fun s m =>
      let p := phPair (half (s.src m a) 0)
      m.t.write d [BitVec.ofInt 16 p.2 ++ BitVec.ofInt 16 p.1]) s

/-- PHCOH (R172). -/
def execPhcoh (q : Ctl) (d a b c : Opd) (s : State) : Res :=
  runAlu (.phcoh q d a b c)
    (fun s m =>
      let r := phFin (s.src m a) (s.src m b) (s.src m c)
      m.t.write d [r.2 ++ r.1]) s

end Sys2Proof.Machine
end

