-- ==== Sys2Proof/Machine/Halts.lean ====
section
/-! DEFINITION. The halt line and what it stops (R372, R373), stop records (R374 to R376), pre-emption and the saving of
stopped groups (R377, R378, R330). -/

namespace Sys2Proof.Machine

open Host (Cell)

def isHalting : CState → Bool
  | .halting _ => true
  | _ => false

namespace State

def updContext (s : State) (ctx : Nat) (f : Context → Context) : State := { s with contexts := s.contexts.upd ctx f }

/-- The groups of a context on a virtual die that satisfy `p`. -/
def ctxGroups (s : State) (ctx vdie : Nat) (p : Group → Bool) : List (Nat × Group) :=
  s.groups.filter fun e => e.2.ctx == ctx && e.2.vdie == vdie && p e.2

/-- Whether a thread belongs to a context on a virtual die. -/
def ofCtx (s : State) (ctx vdie k : Nat) : Bool :=
  match s.self k with
  | some m => m.g.ctx == ctx && m.g.vdie == vdie
  | none => false

end State

/-! ## Stopping threads and their operations (R357, R373) -/

/-- A thread whose issue has stopped (R373, R375). -/
def Thread.stop (t : Thread) : Thread :=
  let was (n : Nat) : Nat := if t.handler.isSome then 3 else n
  match t.st with
  | .exited => t
  | .stopped _ _ => t
  | .parked _ => t
  | .blocked w => { t with st := .stopped (was 1) (some w), grant := 0, walkFault := none }
  | .point => { t with st := .stopped (was 2) none, grant := 0, walkFault := none }
  | _ => { t with st := .stopped (was 0) none, grant := 0, walkFault := none }

/-- Requests that a halt takes back while home has not served them (R357). -/
def QReq.cancels (r : QReq) : Bool :=
  match r.op with
  | .take _ => true
  | .takes _ _ => true
  | .wait => true
  | .launch _ => true
  | .fill _ _ => r.eop.isSome
  | _ => false

namespace State

/-- A cancelled QWAIT ends once, with OK, at resume (R351, R357). -/
def endCancelled (s : State) (r : QReq) : State :=
  let s := s.setStatus r.thread r.opcode qOk r.st r.ps
  let s := s.updThread r.thread fun t => { t with waitDone := true, mayFired := true }
  let mark (e : Nat × Watch) : Nat × Watch := if e.2.thread = some r.thread then (e.1, { e.2 with mayFired := true }) else e
  { s with watches := s.watches.map mark }

/-- The queue requests of threads are cancelled: each goes to the list that a resume sends again, and the answers of
tickets that home has taken are counted at once (R357). Mark: DEDUCED (log 45). -/
def cancelQueue (s : State) (mine : Nat → Bool) : State :=
  let hit (r : QReq) : Bool := mine r.thread && r.cancels
  let atHome := s.queues.vals.flatMap fun q => (q.takes ++ q.waiters).filter hit
  let gone := sortBy (fun a b => decide (a.id ≤ b.id)) (s.qreqs.filter hit ++ atHome)
  let drop (e : Nat × Queue) : Nat × Queue := (e.1, { e.2 with takes := e.2.takes.filter fun r => !hit r, waiters := e.2.waiters.filter fun r => !hit r })
  let qs := s.queues.map drop
  let s := { s with qreqs := s.qreqs.filter fun r => !hit r, queues := qs, cancelled := s.cancelled ++ gone }
  let s := gone.foldl (fun s r => match r.op, r.eop with
    | .wait, _ => s.endCancelled r
    | _, some e => { s with quOps := s.quOps.upd e fun u => { u with held := true } }
    | _, none => s) s
  let late := s.answers.filter fun e => mine e.2.req.thread && e.2.req.opcode == 0xE3
  late.foldl (fun s e => ({ s with answers := s.answers.del e.1 }).deliver e.2) s

/-- The monitored addresses of stopped threads are no longer watched: each wait ends once at resume (R256). An MWAIT that has not read
its word yet is issued again (R379). -/
def endMonitors (s : State) (ks : List Nat) : State :=
  let armed := ks.filter fun k => match s.monitors.find k with | some m => m.armed | none => false
  let s := armed.foldl (fun s k => s.updThread k fun t => { t with waitDone := true, mayFired := true }) s
  { s with monitors := s.monitors.filter fun e => !ks.contains e.1 }.forgetReaders ks.contains

/-- A producer that a halt abandons: a pending AWAIT (R233), and an IDIV or IREM that its unit does not finish (R141). Mark: DEDUCED (log 45). -/
def abandons (fin : List Nat) (id : Nat) (p : Prod) : Bool :=
  match p.val with
  | .tagged => true
  | .val _ => (p.word.extractLsb' 56 8 == 0x0B || p.word.extractLsb' 56 8 == 0x0C) && !fin.contains id
  | _ => false

/-- The producers of threads that a halt abandons: each destination is full again with the value it held (R79). Mark: DEDUCED (log 45). -/
def holdProds (s : State) (ks : List Nat) (fin : List Nat) : State :=
  (s.prods.filter fun e => ks.contains e.2.thread && !e.2.held && abandons fin e.1 e.2).foldl (fun s e =>
    { s with prods := s.prods.put e.1 { e.2 with held := true } }.updThread e.2.thread fun t => t.markFull e.2.regs) s

/-- The instructions of threads that a halt stops before their result or their completion report: the thread, the PC, and an
identifier that the slot issue gave. Mark: DESIGN CHOICE (log 58). -/
def stoppedIssues (s : State) (ctx vdie : Nat) : List (Nat × W64 × Nat) :=
  let gs := (s.ctxGroups ctx vdie fun _ => true).map (·.1)
  ((s.prods.filter fun e => e.2.held && s.ofCtx ctx vdie e.2.thread).map fun e => (e.2.thread, e.2.pc, e.1)) ++
  ((s.engOps.filter fun e => e.2.held && gs.contains e.2.group).flatMap fun e => (maskList e.2.lanes).map fun i => (e.2.warp * 64 + i, e.2.pc, e.1)) ++
  ((s.mops.vals.filter fun o => o.held && gs.contains o.group).flatMap fun o => o.members.map fun k => (k, o.pc, o.user)) ++
  ((s.quOps.filter fun e => gs.contains e.2.group).map fun e => (e.2.thread, e.2.pc, e.1)) ++
  ((s.cancelled.filter fun r => gs.contains r.group).map fun r => (r.thread, r.pc, r.id))

/-- A noted slot issue is dropped for the members whose result or operation a halt has stopped (R396): the issue of that PC in which the
member took part, the first to end after the identifier was given. Mark: DESIGN CHOICE (log 58). -/
def cutSamples (s : State) (ctx vdie die : Nat) : State :=
  let key := die * 256 + ctx
  let cut (l : List SampleC) (x : Nat × W64 × Nat) : List SampleC :=
    let here (e : SampleC) : Bool := e.pc == x.2.1 && decide (x.2.2 < e.mark) && e.members.any fun m => m.thread == x.1
    match ((l.filter here).map (·.mark)).min? with
    | some n => l.map fun e => if here e ∧ e.mark = n then { e with members := e.members.filter fun m => m.thread != x.1 } else e
    | none => l
  match s.sampling.find key with
  | some sm => { s with sampling := s.sampling.put key { sm with issues := ((s.stoppedIssues ctx vdie).foldl cut sm.issues).filter fun e => !e.members.isEmpty } }
  | none => s

/-- A group that a halt finds PARKING stays in place: its watch records are freed, and the threads that they watch for end their
waits once at resume (R256, R300). Mark: DEDUCED (log 45). -/
def unpark (s : State) (gid : Nat) : State :=
  match s.groups.find gid with
  | none => s
  | some g =>
    if g.st != .parking then s
    else
      let ks := (s.watches.vals.filter fun w => w.group == gid).filterMap (·.thread) ++ g.wakeBy
      let s := ks.eraseDups.foldl (fun s k => s.updThread k fun t => { t with waitDone := true, mayFired := true }) s
      let s := { s with watches := s.watches.filter fun e => e.2.group != gid }
      s.updGroup gid fun g => { g with slot := none, wakeBy := [], wokeAt := 0 }

/-- A group's issue stops: its threads, their waits, its queue requests, and the operations that its engines abandon;
an operation that has started goes on if `fin` names it (R373). Mark: DEDUCED (log 45). -/
def stopGroup (s : State) (gid : Nat) (fin : List Nat) : State :=
  match s.groups.find gid with
  | none => s
  | some g =>
    let ks := s.groupThreads gid
    let part (e : Nat × IGroup) : Nat × IGroup := (e.1, { e.2 with members := e.2.members.filter fun k => !ks.contains k })
    let s := { s with igroups := (s.igroups.map part).filter fun e => !e.2.members.isEmpty }
    let s := ((s.unpark gid).endMonitors ks).cancelQueue fun k => ks.contains k
    let s := (ks.foldl (fun s k => s.updThread k Thread.stop) s).holdProds ks fin
    let call (e : Nat × Service) : Nat × Service := if ks.contains e.2.thread then (e.1, { e.2 with thread := 0 }) else e
    let ans (e : Nat × EAns) : Nat × EAns := if ks.contains e.2.thread then (e.1, { e.2 with thread := 0 }) else e
    let s := { s with callQueue := s.callQueue.map call, eanswers := s.eanswers.map ans }
    let ops := (s.engOps.filter fun e => e.2.group == gid && !e.2.held && !(e.2.started && fin.contains e.1)).map (·.1)
    let s := ops.foldl holdOp s
    let s := s.holdMops fun o => o.group == gid
    let s := s.updGroup gid fun g => { g with st := .stopped }
    (s.serveTiles g.die g.core).serveRoom g.die g.core

/-- Push every partial of a context on a die home (R373). -/
def pushContext (s : State) (ctx die : Nat) : State :=
  (s.partials.filter fun e => e.1 / 2 ^ 30 / 256 == die && e.2.ctx == ctx).foldl
    (fun s e => s.pushPartial die (e.1 / 2 ^ 30 % 256) (e.1 % 2 ^ 30)) s

end State

/-- HALT_LINE_ARRIVAL (R372, R373, R357). Mark: DEDUCED (log 45). -/
def execHaltLineArrival (ctx vdie : Nat) (finish_ : List Nat) (s : State) : Res :=
  match s.contexts.find ctx with
  | none => finish s
  | some c => match c.remap.find vdie with
    | none => finish s
    | some die =>
      if !(isHalting c.st && c.lineUp && (State.haltOf c vdie).arrived.isNone) then finish s
      else
        let s := (s.ctxGroups ctx vdie fun g => g.st == .resident || g.st == .parking).foldl (fun s e => s.stopGroup e.1 finish_) s
        let s := ((s.cancelQueue (s.ofCtx ctx vdie)).pushContext ctx die).cutSamples ctx vdie die
        let now := s.now die
        finish (s.updContext ctx fun c => { c with halts := c.halts.put vdie { State.haltOf c vdie with arrived := some now } })

/-! ## Stop records (R374 to R376) -/

/-- The save-area offset of a group's slot, 0 while its state is held in place (R375). -/
def saveOff (g : Group) (l : Launch) : Nat := match g.slot with | some i => 65536 + i * slotSize l | none => 0

/-- The header record (R374). -/
def headerRecord (c : Context) (vdie nrec : Nat) (cut : Bool) : List Byte :=
  let h := State.haltOf c vdie
  let tail := w64Bytes (BitVec.ofNat 64 (h.arrived.getD 0)) ++ leBytes 4 nrec ++ zeros 20
  let rest (flags : Nat) : Nat := flags + flag cut 4 + flag c.dieLost 8
  match h.cause with
  | none => [1, byteOf c.reason, 0, byteOf (rest 0), 0, 0, 0, 0, 0, byteOf vdie] ++ zeros 22 ++ tail
  | some x =>
    [1, byteOf c.reason, x.cause.code, byteOf (rest (flag x.esc 1 + flag x.tab 2)), byteOf x.vcore, byteOf x.group] ++
    leBytes 2 x.warp ++ [byteOf x.lane, byteOf vdie, 0, 0] ++ w32Bytes x.einfo ++ w64Bytes x.epc ++ w64Bytes x.faddr ++ tail

/-- WAITV: the generation or compare value of a wait. Mark: DEDUCED (log 46). -/
def waitValue (w : Wait) : W64 := if w.kind = waitCv ∨ w.kind = waitArrival ∨ w.kind = waitMonitor then w.val else 0

/-- The pending cause of a thread: one that came while its context was halting, or else the first that is deferred (R363, R375). -/
def Thread.pendingCause (t : Thread) : Option Cause := t.late.or ((firstDeferred t.deferred).map (·.1))

/-- A lane record (R375). Mark: DEDUCED (logs 46, 65). -/
def laneRecord (m : Self) : List Byte :=
  let x : Nat × Option Wait := match m.t.st with | .stopped n w => (n, w) | _ => (0, none)
  let pend := m.t.pendingCause
  let flags := flag m.t.latch.isSome 1 + flag m.t.mayFired 2 + flag m.t.allLive 4 + flag pend.isSome 8
  let cause : Nat := match m.t.late, m.t.handler, pend with
    | some c, _, _ => c.code.toNat
    | none, some wc, _ => wc.toNat % 256
    | none, none, some c => c.code.toNat
    | none, none, none => 0
  [2, byteOf x.1, byteOf ((x.2.map (·.kind)).getD 0), byteOf flags, byteOf m.g.vcore, byteOf m.g.num] ++ leBytes 2 m.w.num ++
  [byteOf m.t.lane, byteOf cause] ++ leBytes 2 (if x.1 = 4 then m.t.stopMap.getD 0 else 0) ++ zeros 4 ++ w64Bytes m.t.pc ++
  w64Bytes m.t.epc ++ w64Bytes ((x.2.map waitValue).getD 0) ++ leBytes 8 (saveOff m.g m.l) ++ zeros 16

/-- An operation that a stop record lists (R376), with its place in issue order. -/
structure OpRec where
  order    : Nat
  disp     : Nat
  ctr      : Nat
  warp     : Nat
  seq      : Option Nat
  word     : W64
  pc       : W64
  progress : Nat
  lanes    : BitVec 64
  deriving DecidableEq, Repr

/-- An operation record (R376); `earlier` are the warp's listed operations before it, which give the place of one that no
counter holds. Mark: DEDUCED (log 46). -/
def opRecord (g : Group) (l : Launch) (w : Warp) (earlier : List OpRec) (o : OpRec) : List Byte :=
  let place := match o.seq with
    | some q => ((w.outst.filter fun x => x.ctr == o.ctr).map (·.seq)).findIdx (· == q)
    | none => (earlier.filter fun x => x.ctr == o.ctr).length
  [3, byteOf o.disp, byteOf o.ctr, byteOf place, byteOf g.vcore, byteOf g.num] ++ leBytes 2 w.num ++ w64Bytes o.word ++
  w64Bytes o.pc ++ leBytes 8 o.progress ++ leBytes 8 (saveOff g l) ++ w64Bytes o.lanes ++ zeros 16

namespace State

/-- The asynchronous queue operations of a group, one for each warp and completion. -/
def quRecs (s : State) (gid : Nat) : List OpRec :=
  let us := s.quOps.vals.filter fun u => u.group == gid
  (us.map (·.seq)).eraseDups.filterMap fun q => match us.filter fun u => u.seq == q with
    | [] => none
    | u :: rest => some { order := q, disp := if (u :: rest).all (·.held) then 0 else 1, ctr := 2, warp := u.warp, seq := some q, word := u.word, pc := u.pc, progress := (u :: rest).foldl (fun n x => n + x.answered) 0, lanes := listMask ((u :: rest).map fun x => x.thread % 64) }

/-- The warp launches that met a page cause at their entry, each under the SPAWN of its first continuation (R188). -/
def launchRecs (s : State) (gid : Nat) : List OpRec :=
  (s.cores.vals.flatMap (·.stations.vals)).filterMap fun x =>
    if x.group != gid || !x.held then none
    else match x.conts.findSome? (·.src) with
      | some (k, pc, word, order) => some { order := order, disp := 0, ctr := 4, warp := k / 64, seq := none, word := word, pc := pc, progress := 0, lanes := listMask [k % 64] }
      | none => none

/-- The abandoned and pending operations of a stopped group, in issue order (R376, R249, R357). Mark: DEDUCED (log 46). -/
def opRecs (s : State) (gid : Nat) : List OpRec :=
  let launches := s.launchRecs gid
  let eng := (s.engOps.filter fun e => e.2.group == gid && e.2.held).map fun (e : Nat × EngOp) =>
    ({ order := e.2.seq, disp := 0, ctr := e.2.ctr, warp := e.2.warp, seq := some e.2.seq, word := e.2.word, pc := e.2.pc, progress := e.2.transfers.foldl (fun n t => n + t.added) 0, lanes := e.2.lanes } : OpRec)
  let mat := (s.mops.filter fun e => e.2.group == gid && e.2.held).map fun (e : Nat × MOp) =>
    ({ order := e.2.seqs.head?.getD e.1, disp := 0, ctr := 1, warp := e.2.warp, seq := e.2.seqs.head?, word := e.2.word, pc := e.2.pc, progress := 0, lanes := listMask ((e.2.members.filter fun k => k / 64 == e.2.warp).map (· % 64)) } : OpRec)
  let ks := s.groupThreads gid
  let sync := s.prods.filterMap fun e =>
    let one (disp : Nat) : Option OpRec := some { order := e.1, disp := disp, ctr := 4, warp := e.2.thread / 64, seq := none, word := e.2.word, pc := e.2.pc, progress := 0, lanes := listMask [e.2.thread % 64] }
    if !ks.contains e.2.thread then none
    else if e.2.held then one 0
    else match e.2.val with
      | .cvWait _ _ => one 1
      | .tagged => one 1
      | .queue =>
        if s.quOps.vals.any fun u => u.prod == some e.1 then none
        else one (if s.cancelled.any fun r => r.prod == some e.1 then 0 else 1)
      | _ => none
  let waits := (s.cancelled.filter fun r => r.group == gid && (match r.op with | .wait => true | _ => false)).map fun (r : QReq) =>
    ({ order := r.id, disp := 1, ctr := 4, warp := r.warp, seq := none, word := r.word, pc := r.pc, progress := 0, lanes := listMask [r.thread % 64] } : OpRec)
  sortBy (fun a b => decide (a.order ≤ b.order)) (launches ++ eng ++ mat ++ s.quRecs gid ++ sync ++ waits)

/-- The stopped groups of a context on a virtual die, by virtual core and number. -/
def stoppedGroups (s : State) (ctx vdie : Nat) : List (Nat × Group) :=
  sortBy (fun a b => decide (a.2.vcore * 512 + a.2.num ≤ b.2.vcore * 512 + b.2.num)) (s.ctxGroups ctx vdie fun g => g.st == .stopped)

/-- The warps of a group by number. -/
def warpsByNum (s : State) (gid : Nat) : List (Nat × Warp) := sortBy (fun a b => decide (a.2.num ≤ b.2.num)) (s.groupWarps gid)

/-- The lane records and the operation records of a die (R375, R376). -/
def recordsOf (s : State) (ctx vdie : Nat) : List (List Byte) :=
  let gs := s.stoppedGroups ctx vdie
  let lanes := gs.flatMap fun e => (s.warpsByNum e.1).flatMap fun w =>
    (List.range 64).filterMap fun i => match s.self (threadKey w.1 i) with
      | some m => if m.t.st == .exited then none else some (laneRecord m)
      | none => none
  let ops := gs.flatMap fun e => match s.launches.find e.2.launch with
    | none => []
    | some l => let rs := s.opRecs e.1; (s.warpsByNum e.1).flatMap fun w => let os := rs.filter fun o => o.warp == w.1; os.mapIdx fun i o => opRecord e.2 l w.2 (os.take i) o
  lanes ++ ops

/-- The die writes its records, as many as its stop area holds (R374). Mark: DESIGN CHOICE (log 10). -/
def writeStop (s : State) (ctx vdie die : Nat) : State :=
  match s.contexts.find ctx with
  | none => s
  | some c =>
  let recs := s.recordsOf ctx vdie
  let room := c.stoplen / 64
  let cut := decide (room < recs.length + 1)
  let bytes := ((headerRecord c vdie recs.length cut :: recs).take room).flatten
  let base := ((c.xrecs.find vdie).map (·.stopbase)).getD 0
  let s := if dieSpan < base + bytes.length then s.fail (.noSuchPhysical die (base + bytes.length)) else s.memWrite die base bytes
  s.updContext ctx fun c => { c with overflow := c.overflow || cut, halts := c.halts.put vdie { haltOf c vdie with written := true } }

/-- A cause that reaches a stopped thread whose die has written its records is recorded in them (R363). -/
def recordLate (s : State) (k : Nat) (before : Option Cause) : State :=
  match s.self k with
  | none => s
  | some m => match s.contexts.find m.g.ctx with
    | none => s
    | some c => if (haltOf c m.g.vdie).written ∧ m.t.pendingCause ≠ before then s.writeStop m.g.ctx m.g.vdie m.g.die else s

/-! ## Saving stopped groups (R378) -/

/-- The tile that a name of a group has. -/
def tileOf (s : State) (gid h : Nat) : Option Nat := (s.handle gid h).tile

/-- The engine operations of a group that use tiles which their names no longer have: each keeps a copy of its tile (R261). -/
def keepOrphans (s : State) (gid : Nat) : State :=
  let keep (e : Nat × EngOp) : Nat × EngOp :=
    match e.2.handle, e.2.transfers with
    | some h, t :: _ =>
      if e.2.group == gid && e.2.snap.isNone && s.tileOf gid h != some t.tile then (e.1, { e.2 with snap := some (s.tile e.2.die e.2.core t.tile).bytes }) else e
    | _, _ => e
  { s with engOps := s.engOps.map keep }

/-- A stopped group leaves its units: what its engines would still read is copied, its waystations and tiles are kept with
it, and its physical resources return. A generation that gathers on a tile which its name no longer has agrees with no later
signature (R277). -/
def unload (s : State) (gid : Nat) : State :=
  match s.groups.find gid with
  | none => s
  | some g =>
    let snap (s : State) (e : Nat × Cv) : State := match e.2.mgen with
      | none => s
      | some x =>
        let cells := match x.snap with | some l => l | none => (s.tile g.die g.core x.tile).bytes
        let tile := if s.tileOf gid x.handle = some x.tile then x.tile else 128
        (s.updGroup gid fun g => { g with cvs := g.cvs.put e.1 { e.2 with mgen := some { x with snap := some cells, tile := tile } } }).endUser g.die g.core x.id
    let s := (g.cvs.foldl snap s).keepOrphans gid
    let mine := (s.engOps.filter fun e => e.2.group == gid).map (·.1)
    let free (e : Nat × Tile) : Nat × Tile :=
      if e.1 / 128 = coreKey g.die g.core then (e.1, { e.2 with writers := e.2.writers.filter fun u => !mine.contains u, readers := e.2.readers.filter fun u => !mine.contains u }) else e
    let used := (s.engOps.filter fun e => e.2.group == gid && e.2.snap.isSome).flatMap fun e => e.2.transfers.map (·.tile)
    let s := { s with tiles := s.tiles.map free }
    let s := used.eraseDups.foldl (fun s t => s.returnTile g.die g.core t) s
    let co := s.core g.die g.core
    let st := (co.stations.filter fun e => e.2.group == gid).map (·.2)
    let s := s.setCore g.die g.core { co with stations := co.stations.filter fun e => e.2.group != gid }
    (s.updGroup gid fun g => { g with stations := st }).vacate gid

/-- Save a stopped group into the lowest free slot of its launch's save area; true where the write has to wait. A group that
finds no slot, or whose save faults, stays in place (R378, R305). Mark: DESIGN CHOICE (logs 33, 48). -/
def saveGroup (s : State) (gid : Nat) : Bool × State :=
  match s.groups.find gid with
  | none => (false, s)
  | some g => match s.launches.find g.launch with
    | none => (false, s)
    | some l => match s.freeSlot g.launch l g.die with
      | none => (false, s)
      | some slot =>
        match s.devWrite g.die g.ctx g.vdie (slotAddr l slot) ((List.range (slotSize l)).map fun i => Config.slotByte gid i) (some gid) with
        | (.wait, s) => (true, s)
        | (.fault c i va, s) => (false, s.deviceFault g.ctx g.vdie g.vcore c i va)
        | (.bytes _, s) => (false, ((s.unload gid).updGroup gid fun g => { g with slot := some slot }).dropDicts g.die g.core)

/-- A liveness map of a stopped thread (R99). -/
structure LiveMap where
  glive  : Nat
  hlive  : Nat
  ranges : List (Nat × Nat)
  deriving DecidableEq, Repr

/-- The record of 64 bytes of a liveness map (R99): one that gives more than four ranges names its first four. Mark: DESIGN CHOICE (log 79). -/
def liveMapOf (bs : List Byte) : LiveMap :=
  let word (i n : Nat) : Nat := leNat ((bs.drop i).take n)
  { glive := word 0 24, hlive := word 24 2, ranges := (List.range (min 4 (word 26 1))).map fun j => (word (32 + 8 * j) 4, word (36 + 8 * j) 4) }

/-- What the maps of a group's threads come to. -/
inductive Maps where
  | wait
  | allLive
  | maps (l : List (Nat × Option LiveMap))
  deriving DecidableEq, Repr

/-- The maps of threads, in order: none for a thread that is saved all-live. A fault makes the group all-live (R378). -/
def readMaps (s : State) (g : Group) (l : Launch) : List (Nat × Thread) → Maps × State
  | [] => (.maps [], s)
  | (k, t) :: rest =>
    let r : Maps × State := match t.st, t.stopMap with
      | .stopped 4 _, some n =>
        match s.devRead g.die g.ctx g.vdie (l.mapTab.toNat + 64 * n) 64 with
        | (.bytes bs, s) => (.maps [(k, some (liveMapOf bs))], s)
        | (.wait, s) => (.wait, s)
        | (.fault _ _ _, s) => (.allLive, s)
      | _, _ => (.maps [(k, none)], s)
    match r with
    | (.maps x, s) => match s.readMaps g l rest with
      | (.maps y, s) => (.maps (x ++ y), s)
      | q => q
    | q => q

/-- The registers that a map keeps; a pending producer keeps its own. -/
def keepRegs (s : State) (k : Nat) (mp : LiveMap) : State :=
  let pend := (s.prods.vals.filter fun p => p.thread == k).flatMap (·.regs)
  s.updThread k fun t =>
    { t with regs := t.regs.filter fun e => bitOf mp.glive e.1, empty := t.empty.filter fun r => bitOf mp.glive r || pend.contains r }

/-- Every live thread of a group is saved all-live. -/
def markAllLive (s : State) (gid : Nat) : State :=
  (s.liveThreads gid).foldl (fun s e => s.updThread e.1 fun t => { t with allLive := true }) s

/-- The parts of a group's state that its maps name stay; the rest reads as it does after a resume, and a name whose HLIVE bit is clear
is FREE (R378, R275): its physical tile is no tile that a later signature could name. What a range names beyond the group's scratchpad
is ignored. Mark: DEDUCED (log 47), DESIGN CHOICE (log 79). -/
def applyMaps (s : State) (gid : Nat) (ms : List (Nat × Option LiveMap)) : State :=
  let s := ms.foldl (fun s e => match e.2 with
    | some mp => s.keepRegs e.1 mp
    | none => s.updThread e.1 fun t => { t with allLive := true }) s
  if ms.any fun e => e.2.isNone then s
  else
    let mps := ms.filterMap (·.2)
    let inRange (a : Nat) : Bool := mps.any fun mp => mp.ranges.any fun r => decide (r.1 ≤ a) && decide (a < r.1 + r.2)
    let live (h : Nat) : Bool := mps.any fun mp => bitOf mp.hlive h
    match s.groups.find gid with
    | none => s
    | some g =>
      let dead := g.handles.filter fun h => !live h.1 && h.2.st != .free
      -- an operation that is replayed on a tile whose name is free keeps a copy of it (R261, R275)
      let own (e : Nat × EngOp) : Nat × EngOp := match e.2.handle with
        | some h => match Tbl.find dead h with
          | some x => if e.2.group == gid && e.2.snap.isNone then (e.1, { e.2 with snap := some x.saved }) else e
          | none => e
        | none => e
      let s := { s with engOps := s.engOps.map own }
      let s := s.updGroup gid fun g =>
        let cvs := g.cvs.map fun e => (e.1, { e.2 with mgen := e.2.mgen.map fun x => if dead.any fun h => h.1 == x.handle then { x with tile := 128 } else x })
        { g with cvs := cvs, spad := g.spad.filter fun c => inRange c.1, tags := g.tags.filter fun w => inRange (8 * w) }
      dead.foldl (fun s h => s.setHandle gid h.1 Handle.free) s

/-- Whether a group's engines and producers are still at work for slots that it has issued, but for those that a halt has
abandoned (R141, R373). -/
def working (s : State) (p : Nat → Bool) : Bool :=
  s.mops.vals.any (fun o => p o.group && o.running) || s.engOps.vals.any (fun o => p o.group && o.started && !o.held) ||
  s.prods.vals.any fun x => !x.held && (match s.self x.thread with | some m => p m.gid | none => false) && match x.val with
    | .val _ => true
    | .fill .. => true
    | .home => true
    | _ => false

/-- Save groups in turn, each by its threads' maps or all-live; true where one has to wait. Mark: DEDUCED (log 47). -/
def saveGroups (s : State) (byMaps : Bool) : List Nat → Bool × State
  | [] => (false, s)
  | gid :: rest =>
    let r : Bool × State := match s.groups.find gid with
      | none => (false, s)
      | some g => match s.launches.find g.launch with
        | none => (false, s)
        | some l =>
          if (s.freeSlot g.launch l g.die).isNone then (false, s)
          else if !byMaps || l.mapTab == 0 then (s.markAllLive gid).saveGroup gid
          else match s.readMaps g l (s.liveThreads gid) with
            | (.wait, s) => (true, s)
            | (.allLive, s) => (s.markAllLive gid).saveGroup gid
            | (.maps ms, s) => match s.saveGroup gid with
              | (false, s1) => (false, if (s1.groups.find gid).any fun g => g.slot.isSome then s1.applyMaps gid ms else s1)
              | r => r
    match r with
    | (true, s) => (true, s)
    | (false, s) => s.saveGroups byMaps rest

/-- The stopped groups of a context, on one virtual die or on all, that are held in place. -/
def unsaved (s : State) (ctx : Nat) (vdie : Option Nat) : List Nat :=
  (s.groups.filter fun e => e.2.ctx == ctx && vdie.all (· == e.2.vdie) && e.2.st == .stopped && e.2.slot.isNone).map (·.1)

/-- The units of a context that is SAVED are released: parked groups' watch records go to the save area with MAYFIRED
set (R256), dirty sectors are written back, and nothing of the context stays in a TLB or a port's cache (R378). Mark: DESIGN CHOICE (log 49). -/
def releaseUnits (s : State) (ctx : Nat) : State :=
  let ws := s.watches.vals.filter fun w => w.ctx == ctx
  let s := (ws.filterMap (·.thread)).foldl (fun s k => s.updThread k fun t => { t with mayFired := true }) s
  let s := { s with watches := s.watches.filter fun e => e.2.ctx != ctx }
  let secs := (s.nc.filter fun e => e.2.ctx == ctx).map (·.1)
  let s := secs.foldl (fun s k => s.flushSector (k / 2 ^ 31 / 256) (k / 2 ^ 31 % 256) (k % 2 ^ 31) true [] []) s
  let keep (x : Nat × List TlbE) : Nat × List TlbE := (x.1, x.2.filter fun e => e.ctx != ctx)
  let near := s.nearTlb.map keep
  let dieT := s.dieTlb.map keep
  let away (x : Nat × List WalkC) : Nat × List WalkC := (x.1, x.2.filter fun e => e.ctx != ctx)
  let walkC := s.walkCache.map away
  { s with nearTlb := near, dieTlb := dieT, walkCache := walkC, qidCache := s.qidCache.filter fun e => e.ctx != ctx }

/-- Every die of the context has written its stop records: the end of the halt (R363, R378). -/
def endHalt (s : State) (ctx : Nat) : State :=
  match s.contexts.find ctx with
  | none => s
  | some c =>
    if !(isHalting c.st && c.remap.keys.all fun v => (haltOf c v).written) then s
    else
      let all := s.groups.vals.all fun g => g.ctx != ctx || g.slot.isSome || g.st == .retired
      let done (st : CState) (s : State) : State := s.updContext ctx fun c => { c with st := st, preempt := none, preDies := [], lineUp := false }
      match c.st with
      | .halting true => if all then done .saved (s.releaseUnits ctx) else done .halted s
      | _ => done .halted s

end State

/-- STOP_RECORDS (R372, R374, R378): the work that the die finishes is done; in a pre-emption the remaining groups are saved
first; then the records are written and the die reports. -/
def execStopRecords (ctx vdie : Nat) (s : State) : Res :=
  match s.contexts.find ctx with
  | none => finish s
  | some c => match c.remap.find vdie with
    | none => finish s
    | some die =>
      let h := State.haltOf c vdie
      let busy := s.working (fun gid => (s.ctxGroups ctx vdie fun _ => true).any fun e => e.1 == gid) ||
        s.pushes.vals.any (fun p => p.die == die && p.part.ctx == ctx) ||
        s.partials.any (fun e => e.1 / 2 ^ 30 / 256 == die && e.2.ctx == ctx)
      if !(isHalting c.st) || h.arrived.isNone || h.written || busy then finish s
      else
        let r : Bool × State := match c.st with
          | .halting true => s.saveGroups true (s.unsaved ctx (some vdie))
          | _ => (false, s)
        if r.1 then finish r.2
        else finish ((r.2.writeStop ctx vdie die).endHalt ctx)

/-- QUEUE_ANSWER (R342, R363). Where home can no longer be reached, HOMELOST is what arrives (R388). -/
def execQueueAnswer (ans : Nat) (s : State) : Res :=
  match s.answers.find ans with
  | none => finish s
  | some a =>
    if s.answerWaits ans a then finish s
    else
      let before := (s.threads.find a.req.thread).bind Thread.pendingCause
      let cut := s.cutOff a.req.home a.req.src
      let a := if cut then { a with code := qHomelost, value := 0, bytes := [] } else a
      let s := { s with answers := s.answers.del ans }.deliver a
      finish ((if cut then s else s.crossAns a).recordLate a.req.thread before)

/-! ## Pre-emption (R377, R378, R330) -/

namespace State

/-- No group of the context is left on a core with threads that issue (R378). -/
def allStopped (s : State) (ctx : Nat) : Bool := s.groups.vals.all fun g => g.ctx != ctx || (g.st != .resident && g.st != .parking)

/-- The hub raises the halt line when every group is stopped by maps or parked (R378). Mark: DEDUCED (log 47). -/
def raiseEarly (s : State) (ctx : Nat) : State :=
  if s.allStopped ctx then s.updContext ctx fun c => match c.st with | .halting true => { c with lineUp := true } | _ => c
  else s

/-- The root core raises a pre-emption request (R377): each bound die's cores set their flags, and the deadline runs.
Mark: DESIGN CHOICE (log 8), DEDUCED (log 47). -/
def requestPreempt (s : State) (ctx : Nat) : State :=
  match s.contexts.find ctx with
  | none => s
  | some c => match c.st with
    | .running =>
      let us := 1 + Config.deadlineUs c.vf % 65535
      let c := { c with st := .halting true, reason := 1, lineUp := false, preempt := some (s.hclk + us * 1500), preDies := c.remap.keys }
      { s with contexts := s.contexts.put ctx c }.raiseEarly ctx
    | _ => s

end State

/-- PREEMPTION_REQUEST (R377). -/
def execPreemptionRequest (ctx : Nat) (s : State) : Res := finish (s.requestPreempt ctx)

/-- PREEMPTION_DEADLINE (R377, R378): the deadline has come, or every group is stopped, and the hub raises the halt line. -/
def execPreemptionDeadline (ctx : Nat) (s : State) : Res :=
  match s.contexts.find ctx with
  | none => finish s
  | some c => match c.st, c.preempt with
    | .halting true, some t =>
      if t ≤ s.hclk ∨ s.allStopped ctx then finish (s.updContext ctx fun c => { c with lineUp := true }) else finish s
    | _, _ => finish s

/-- GROUP_SAVE_BY_MAPS (R378): every live thread of the group has stopped at a YIELDPT; the group is stopped and saved. Mark: DEDUCED (log 47). -/
def execGroupSaveByMaps (group : Nat) (s : State) : Res :=
  match s.groups.find group with
  | none => finish s
  | some g => match s.contexts.find g.ctx with
    | none => finish s
    | some c =>
      let ts := s.liveThreads group
      let ready := !ts.isEmpty && ts.all fun e => match e.2.st with | .stopped 4 _ => true | _ => false
      let here := g.st == .resident || (g.st == .stopped && g.slot.isNone)
      if c.st != .halting true || !ready || !here || s.working (· == group) then finish s
      else
        let r := (s.stopGroup group []).saveGroups true [group]
        finish (if r.1 then r.2 else r.2.raiseEarly g.ctx)

/-- SLICE_END (R330, R20): the root core raises pre-emption requests for the function's contexts, and its next slice
begins. Mark: DESIGN CHOICE (log 8). -/
def execSliceEnd (vf : Nat) (s : State) : Res :=
  if s.hclk < s.slices.getD vf 0 then finish s
  else
    let ids := (s.contexts.filter fun e => e.2.vf == vf && e.2.st == .running).map (·.1)
    let s := ids.foldl (fun s ctx => s.requestPreempt ctx) s
    let (n, s) := s.draw
    finish { s with slices := s.slices.put vf (s.hclk + Config.sliceLen n) }

end Sys2Proof.Machine
end

