-- ==== Sys2Proof/Machine/Mailbox.lean ====
section
/-! DEFINITION. Mailboxes (R405 to R407): their registers, how a command runs and ends, and the memory that firmware takes
for its tables. Function 0 to 15 is a virtual function; 16 is the physical function. -/

namespace Sys2Proof.Machine

open Host (Cell)

/-- The number of the physical function. -/
def pfn : Nat := 16

/-- A mailbox right after reset: IDLE. Mark: DESIGN CHOICE (log 5). -/
def Mbox.reset : Mbox := { cmd := 0, status := 0, args := [], payload := [], run := 0, begun := false, spoilt := false }

/-- STATUS codes (R406). -/
def stBusy : Nat := 1
def stDone : Nat := 2
def stRefused : Nat := 3
def stDenied : Nat := 4

namespace Mbox

/-- A little-endian field of ARGS or PAYLOAD, by its mailbox offset. -/
def arg (m : Mbox) (off n : Nat) : Nat := leNat (cellsGet m.args off n)
def pay (m : Mbox) (off n : Nat) : List Byte := cellsGet m.payload off n
def busy (m : Mbox) : Bool := bitsOf m.status.toNat 0 8 == stBusy
def code (m : Mbox) : Nat := bitsOf m.run.toNat 0 8
/-- The command ends: STATUS with the tag that the doorbell took. -/
def ends (m : Mbox) (st : Nat) : Mbox := { m with status := BitVec.ofNat 32 (st + bitsOf m.run.toNat 8 24 * 256) }

end Mbox

/-- A response: bytes at offsets; every byte that is not named is zero (R407). -/
def response (l : List (Nat × List Byte)) : List Cell := l.foldl (fun m e => cellsSet m e.1 e.2) []
/-- Bytes whose content is undefined, by a fresh number (R406). Mark: DESIGN CHOICE (log 53). -/
def freeCells (n len at_ : Nat) : List Cell := cellsSet [] at_ ((List.range len).map fun i => Config.freeByte (n + i))

namespace State

def mbox (s : State) (fn : Nat) : Mbox := s.mailboxes.getD fn Mbox.reset
def setMbox (s : State) (fn : Nat) (m : Mbox) : State := { s with mailboxes := s.mailboxes.put fn m }
/-- A command ends REFUSED or DENIED, with no other effect (R407). Mark: DESIGN CHOICE (log 52). -/
def endCmd (s : State) (fn st : Nat) : State := s.setMbox fn ((s.mbox fn).ends st)
/-- A command ends DONE with its response, whose content is undefined where the host has written ARGS or PAYLOAD since (R406). -/
def doneCmd (s : State) (fn : Nat) (l : List (Nat × List Byte)) : State :=
  let m := s.mbox fn
  if m.spoilt then ({ s with fresh := s.fresh + 4032 }).setMbox fn { m.ends stDone with payload := freeCells s.fresh 4032 0x40, spoilt := false }
  else s.setMbox fn { m.ends stDone with payload := response l }

end State

/-- Where a command is served (R406). -/
inductive Served where
  | vf | pf | any
  deriving DecidableEq, Repr

/-- RUN A COMMAND: the mailbox of the function is BUSY with the command, one of whose forms `form` is. In READY the command
runs where it is served; in RECOVERY the physical function's mailbox takes 0x08 only (R406, R409). Mark: DESIGN CHOICE (log 52). -/
def command (fn code : Nat) (served : Served) (form : Mbox → Bool) (act : Mbox → State → State) (s : State) : Res :=
  let m := s.mbox fn
  if !(m.busy && m.code == code && form m) then finish s
  else match s.boot with
    | .ready => match served, decide (fn = pfn) with
      | .pf, false => finish (s.endCmd fn stDenied)
      | .vf, true => finish (s.endCmd fn stRefused)
      | _, _ => finish (act m s)
    | .recovery => if fn = pfn then finish (if code = 8 then act m s else s.endCmd fn stRefused) else finish s
    | _ => finish s

/-- A command that names a context (R407): none such is REFUSED, one of another function DENIED. Mark: DESIGN CHOICE (log 52). -/
def ctxCommand (fn code at_ : Nat) (form : Mbox → Bool) (act : Mbox → Nat → Context → State → State) (s : State) : Res :=
  command fn code .vf form (fun m s =>
    let ctx := m.arg at_ 1
    match s.contexts.find ctx with
    | none => s.endCmd fn stRefused
    | some c => if c.vf = fn then act m ctx c s else s.endCmd fn stDenied) s

/-- UNASSIGNED_COMMAND (R406). -/
def execUnassignedCommand (fn : Nat) (s : State) : Res :=
  let m := s.mbox fn
  let served : Bool := match s.boot with
    | .ready => true
    | .recovery => fn == pfn
    | _ => false
  if m.busy && served && (m.code == 0 || decide (0x0B < m.code)) then finish (s.endCmd fn stRefused) else finish s

/-! ## Host writes to registers (R405, R406, R311) -/

/-- Bytes written over a map of cells, where only `ok` addresses take them. -/
def cellsMask (cs : List Cell) (off : Nat) (bs : List Byte) (ok : Nat → Bool) : List Cell :=
  ((List.range bs.length).zip bs).foldl (fun m e => if ok (off + e.1) then cellSet m (off + e.1) e.2 else m) cs

/-- A little-endian register of `n` bytes at `base` with written bytes in place. -/
def overlayReg (old base n off : Nat) (bs : List Byte) : Nat :=
  leNat ((List.range n).map fun i => if off ≤ base + i ∧ base + i < off + bs.length then bs.getD (base + i - off) 0 else byteOf (old / 256 ^ i))

/-- A host write to a mailbox: CMD, ARGS and PAYLOAD are written; a write to ARGS or PAYLOAD while a command is BUSY leaves
its request and response undefined in content; a doorbell write starts CMD (R406). Mark: DESIGN CHOICE (log 53). -/
def mboxWrite (s : State) (fn off : Nat) (bs : List Byte) : State :=
  let m := s.mbox fn
  let hits (lo hi : Nat) : Bool := decide (off < hi) && decide (lo < off + bs.length)
  let m := { m with cmd := BitVec.ofNat 32 (overlayReg m.cmd.toNat 0 4 off bs) }
  if m.busy then
    if hits 0x10 0x1000 then
      ({ s with fresh := s.fresh + 4096 }).setMbox fn { m with args := freeCells s.fresh 48 0x10, payload := freeCells (s.fresh + 48) 4032 0x40, spoilt := true }
    else s.setMbox fn m
  else
    let m := { m with args := cellsMask m.args off bs fun a => decide (0x10 ≤ a) && decide (a < 0x40), payload := cellsMask m.payload off bs fun a => decide (0x40 ≤ a) && decide (a < 0x1000) }
    s.setMbox fn (if hits 0x0C 0x10 then { m with run := m.cmd, begun := false, spoilt := false, status := BitVec.ofNat 32 (stBusy + bitsOf m.cmd.toNat 8 24 * 256) } else m)

/-- HOST_REGISTER_WRITE (R405, R406, R311): a host write into a function's space: mailbox registers, the lines and ERRSIG of its launch
windows, and its signal range. A write to a window whose queue is RESETTING, or whose home was reset, is discarded (R310, R408). Every
other register is read-only. Mark: DESIGN CHOICE (log 44). -/
def execHostRegisterWrite (fn offset : Nat) (bytes : List Byte) (s : State) : Res :=
  if s.boot = .romcheck ∨ pfn < fn then finish s
  else if offset < 0x1000 then finish (mboxWrite s fn offset (bytes.take (0x1000 - offset)))
  else if 0x40000000 ≤ offset then
    if offset % 8 = 0 ∧ bytes.length = 8 then finish (s.hostSignal fn ((offset - 0x40000000) / 8) (bytesW64 bytes)) else finish s
  else
    let w := (offset - 0x100000) / 0x3000
    let o := (offset - 0x100000) % 0x3000
    if offset < 0x100000 then finish s
    else match s.launchQs.find? fun e => e.2.vf == fn && e.2.windex == w with
      | some (lq, x) =>
        if o < 0x2000 then finish (s.hostLines lq o bytes)
        else if x.stopped then finish s
        else finish (s.updLq lq fun y => { y with errsig := overlayReg x.errsig 0x2018 6 o bytes })
      | none => finish s

/-! ## Memory of firmware -/

namespace State

/-- Firmware takes zeroed memory from the top of a die's HBM down, above the frames that it has mapped; none where too little is left.
Mark: DESIGN CHOICE (log 51). -/
def fwAlloc (s : State) (die n align : Nat) : Option (Nat × State) :=
  let d := s.die die
  let base := (d.fwTop - n) / align * align
  if d.fwTop < n ∨ base < d.mapTop then none
  else
    let s := s.setDie die { d with fwTop := base }
    some (base, { s with mem := cellsClear s.mem (memAddr die base) n })

/-- Copy physical bytes from one die to another. -/
def copyMem (s : State) (src a dst b n : Nat) : State :=
  let cells := cellsIn s.mem (memAddr src a) n
  cells.foldl (fun s c => { s with mem := cellSet s.mem (memAddr dst b + (c.1 - memAddr src a)) c.2 }) s

end State

end Sys2Proof.Machine
end

