-- ==== Sys2Proof/Machine/Resume.lean ====
section
/-! DEFINITION. The life of a context by mailbox command 0x01 (R361 to R363, R378, R379, R407): its creation, destruction,
halt, save and resume, with the move of a virtual die's memory and queues to another physical die. -/

namespace Sys2Proof.Machine

open Host (Cell)

/-- Command 0x01 with one OP (R407). -/
def opForm (op : Nat) (m : Mbox) : Bool := m.arg 0x10 1 == op
/-- The virtual dies that DIES names. Mark: DEDUCED (log 50). -/
def diesArg (m : Mbox) : List Nat := (List.range 8).filter fun v => bitOf (m.arg 0x20 1) v

/-! ## Bindings (R22, R361) -/

/-- Whether the root core may bind virtual dies to these physical dies: one each, distinct, and none in reset. -/
def diesOk (s : State) (vs dies : List Nat) : Bool :=
  dies.length == vs.length && dies.Nodup && dies.all fun d => decide (d < 8) && !(s.die d).inReset

/-- Whether the root core may bind these virtual cores (virtual die, virtual core, physical core): distinct enabled cores,
at most 128 on a die. -/
def coresOk (s : State) (remap : Tbl Nat) (cores : List (Nat × Nat × Nat)) : Bool :=
  (cores.map fun x => (x.1, x.2.1)).Nodup && (cores.map fun x => (x.1, x.2.2)).Nodup &&
  cores.all fun x => match remap.find x.1 with
    | some die => decide (x.2.1 < 128) && decide (s.classOf die x.2.2 < 3)
    | none => false

def bindDies (vs dies : List Nat) : Tbl Nat := (vs.zip dies).foldl (fun t e => Tbl.put t e.1 e.2) []

/-! ## Creation (R361, R362) -/

/-- The translation records of a new context: on each die a root table, a QID table and a stop area of zeros; none where
firmware has no memory for them. -/
def newXrecs (qtlen stoplen : Nat) : List (Nat × Nat) → State → Option (Tbl XRec × State)
  | [], s => some ([], s)
  | (v, die) :: rest, s => match s.fwAlloc die 4096 4096 with
    | none => none
    | some (root, s) => match s.fwAlloc die (16 * qtlen) 16 with
      | none => none
      | some (qt, s) => match s.fwAlloc die stoplen 64 with
        | none => none
        | some (stop, s) => match newXrecs qtlen stoplen rest s with
          | none => none
          | some (t, s) => some (t.put v { root := root, qtbase := qt, stopbase := stop }, s)

/-- CREATE_CONTEXT (R361, R407); an OP that the table does not give is REFUSED. Mark: DESIGN CHOICE (log 8), DEDUCED (log 63). -/
def execCreateContext (fn : Nat) (dies : List Nat) (cores : List (Nat × Nat × Nat)) (s : State) : Res :=
  command fn 1 .vf (fun m => decide (m.arg 0x10 1 = 0 ∨ 4 < m.arg 0x10 1)) (fun m s =>
    let vs := diesArg m
    let remap := bindDies vs dies
    let words := m.arg 0x1C 4
    if m.arg 0x10 1 ≠ 0 ∨ m.arg 0x18 4 % 64 ≠ 0 ∨ 2 ^ 21 < s.sigTop + words then s.endCmd fn stRefused
    else match (List.range 256).find? fun n => (s.contexts.find n).isNone with
      | none => s.endCmd fn stRefused
      | some ctx =>
        if !diesOk s vs dies || !coresOk s remap cores then s
        else match newXrecs (m.arg 0x14 4) (m.arg 0x18 4) remap s with
          | none => s.endCmd fn stRefused
          | some (xs, s) =>
            let c : Context := { vf := fn, st := .created, vpkg := BitVec.ofNat 16 (m.arg 0x12 2), qtlen := m.arg 0x14 4, stoplen := m.arg 0x18 4, sigbase := s.sigTop, sigwords := words, remap := remap, slots := [], cores := cores, xrecs := xs, halts := [], primary := none, reason := 0, lineUp := false, preempt := none, preDies := [], weights := (List.range 16).map ((s.vfWeights.getD fn []).getD · 0), dieLost := false, overflow := false }
            let s := { s with contexts := s.contexts.put ctx c, sigTop := s.sigTop + words }
            s.doneCmd fn [(0x40, [byteOf ctx]), (0x44, leBytes 4 c.sigbase), (0x48, leBytes 4 words)]) s

/-! ## Halt and save -/

/-- HALT_REQUEST (R363, R407): the command ends DONE when the context is HALTED. Mark: DESIGN CHOICE (log 52). -/
def execHaltRequest (fn : Nat) (s : State) : Res :=
  ctxCommand fn 1 0x11 (opForm 2) (fun _ ctx c s =>
    match c.st with
    | .running => s.updContext ctx fun c => { c with st := .halting false, reason := 2, lineUp := true, primary := c.primary.or (some .host) }
    | .halting true => s.updContext ctx fun c => { c with st := .halting false, reason := 2, lineUp := true, primary := c.primary.or (some .host) }
    | .halting false => s
    | .halted => s.doneCmd fn []
    | _ => s.endCmd fn stRefused) s

/-- SAVE_CONTEXT (R378, R407): each group is saved all-live into a free slot or left in place; with none left the context's
units are released and it is SAVED. Mark: DEDUCED (log 46). -/
def execSaveContext (fn : Nat) (s : State) : Res :=
  ctxCommand fn 1 0x11 (opForm 3) (fun _ ctx c s =>
    if c.st != .halted || c.overflow then s.endCmd fn stRefused
    else
      let r := s.saveGroups false (s.unsaved ctx none)
      let s := r.2
      if r.1 then s
      else
        let left := s.unsaved ctx none
        let saved := (s.groups.filter fun e => e.2.ctx == ctx && e.2.st == .stopped && e.2.slot.isSome).length
        -- the records name the slots from now on (R375)
        let s := c.remap.foldl (fun s v => s.writeStop ctx v.1 v.2) s
        let s := if left.isEmpty then (s.releaseUnits ctx).updContext ctx fun c => { c with st := .saved } else s
        s.doneCmd fn [(0x40, leBytes 4 saved), (0x44, leBytes 4 left.length)]) s

/-! ## The move of a virtual die (R379) -/

/-- Where a context's memory comes from and goes to. -/
structure Move where
  src : Nat
  dst : Nat
  deriving DecidableEq, Repr

namespace State

/-- Copy one range to fresh memory of the new die. -/
def moveRange (s : State) (mv : Move) (a n align : Nat) : Option (Nat × State) :=
  match s.fwAlloc mv.dst n align with
  | none => none
  | some (b, s) => some (b, s.copyMem mv.src a mv.dst b n)

/-- Move a page table and all that it maps, rewriting the FRAME fields: the table's new address. Mark: DESIGN CHOICE (log 51). -/
def moveTable (s : State) (mv : Move) : Nat → Nat → Option (Nat × State)
  | level, t =>
    let n := if level = 0 then 32 else 512
    match s.fwAlloc mv.dst (8 * n) (8 * n) with
    | none => none
    | some (new, s) =>
      let entry (r : Option State) (i : Nat) : Option State :=
        r.bind fun s =>
          let e := s.memW64 mv.src (t + 8 * i)
          let put (e : W64) (s : State) : State := s.memWrite mv.dst (new + 8 * i) (w64Bytes e)
          if !e.getLsbD 0 then some (if e = 0 then s else put e s)
          else if bitsOf e.toNat 52 4 = 0xE then
            match level with
            | 0 => some (put e s)
            | l + 1 => match moveTable s mv l (bitsOf e.toNat 8 44 * 256) with
              | none => none
              | some (p, s) => some (put (BitVec.ofNat 64 (p / 256 * 256) ||| (e &&& 0xFFF00000000000FF)) s)
          else match s.moveRange mv (Leaf.frame e) (Leaf.bytes e) (Leaf.bytes e) with
            | none => none
            | some (f, s) => some (put ((e &&& 0xFFF000000000FFFF) ||| BitVec.ofNat 64 (f / 65536 * 65536)) s)
      ((List.range n).foldl entry (some s)).map fun s => (new, s)

/-- The lowest free range of a die's window SRAM (R332). Mark: DESIGN CHOICE (log 51). -/
def freeWindow (s : State) (die n : Nat) : Option Nat :=
  let used := s.queues.filterMap fun e => if quHome e.1 == die && e.2.st != .free then some (e.2.wbase, e.2.window * elemSize e.2.esize) else none
  ((0 :: used.map fun u => (u.1 + u.2 + 63) / 64 * 64).filter fun b => rangeFree used 0x3000000 b n).min?

/-- A queue moves to another die with its tickets and elements, to its own slot where that is free. Mark: DESIGN CHOICE (log 51). -/
def moveQueue (s : State) (mv : Move) (ctx vdie key : Nat) (q : Queue) : Option State :=
  let size := q.window * elemSize q.esize
  let slot := key % 65536
  let free (x : Nat) : Bool := match s.queues.find (quKey mv.dst x) with | some y => y.st == .free | none => true
  match (slot :: List.range 65536).find? free, s.freeWindow mv.dst size with
  | some slot', some wbase =>
    let spill : Option (Nat × State) := match q.spilllog with
      | none => some (0, s)
      | some n => s.moveRange mv q.sbase (2 ^ n * elemSize q.esize) 64
    match spill with
    | none => none
    | some (sbase, s) =>
      let bytes := cellsGet s.window (mv.src * 2 ^ 26 + q.wbase) size
      let key' := quKey mv.dst slot'
      let at_ (h x : Nat) : Bool := h == mv.src && x == slot
      let re (r : QReq) : QReq := if at_ r.home r.slot then { r with home := mv.dst, slot := slot' } else r
      let q' := { q with wbase := wbase, sbase := sbase, takes := q.takes.map re, waiters := q.waiters.map re, resetBy := q.resetBy.map re }
      let ans (e : Nat × QAns) : Nat × QAns := (e.1, { e.2 with req := re e.2.req })
      let lrec (e : Nat × Launch) : Nat × Launch := if e.2.lq = key then (e.1, { e.2 with lq := key' }) else e
      let lqs := match s.launchQs.find key with | some x => (s.launchQs.del key).put key' x | none => s.launchQs
      let run (e : Nat × Die) : Nat × Die := (e.1, { e.2 with runList := e.2.runList.map fun k => if k = key then key' else k })
      -- the virtual slot keeps its name in the remap table
      let vslot := ((s.contexts.find ctx).bind fun c => (c.slots.find? fun e => e.1 / 65536 == vdie && e.2 == slot).map (·.1 % 65536)).getD slot
      let s := { s with window := cellsSet s.window (mv.dst * 2 ^ 26 + wbase) bytes, queues := (s.queues.del key).put key' q', qreqs := s.qreqs.map re, cancelled := s.cancelled.map re, answers := s.answers.map ans, launches := s.launches.map lrec, launchQs := lqs, dies := s.dies.map run }
      some (s.updContext ctx fun c => { c with slots := c.slots.put (vdie * 65536 + vslot) slot' })
  | _, _ => none

/-- A virtual die moves: its page tables with all pages, its QID table, a new stop area, and its queues. Mark: DESIGN CHOICE (log 51). -/
def moveDie (s : State) (ctx vdie : Nat) (mv : Move) : Option State :=
  if mv.src = mv.dst then some s
  else match s.contexts.find ctx, s.xrec ctx vdie with
    | some c, some x => match s.moveTable mv 4 x.root with
      | none => none
      | some (root, s) => match s.moveRange mv x.qtbase (16 * c.qtlen) 16 with
        | none => none
        | some (qt, s) => match s.fwAlloc mv.dst c.stoplen 64 with
          | none => none
          | some (stop, s) =>
            let s := s.updContext ctx fun c => { c with xrecs := c.xrecs.put vdie { root := root, qtbase := qt, stopbase := stop } }
            (s.queues.filter fun e => e.2.ctx == ctx && quHome e.1 == mv.src && e.2.st != .free).foldl
              (fun r e => r.bind fun s => s.moveQueue mv ctx vdie e.1 e.2) (some s)
    | _, _ => none

/-- The run lists follow the virtual dies that hold them (R330). -/
def moveRuns (s : State) (ctx : Nat) (mv : Move) (vdie : Nat) : State :=
  let mine := (s.launchQs.filter fun e => e.2.ctx == ctx && e.2.run == vdie).map (·.1)
  let a := s.die mv.src
  let s := s.setDie mv.src { a with runList := a.runList.filter fun k => !mine.contains k }
  let b := s.die mv.dst
  s.setDie mv.dst { b with runList := b.runList.filter (fun k => !mine.contains k) ++ mine }

/-- Times of a die that a virtual die leaves are compared with no time of the die that it moves to (R5): a WCT counts as passed, all
writes having been performed, and a launch's phases go on from the die time that has gone by. Mark: DESIGN CHOICE (log 49). -/
def rebindTimes (s : State) (ctx : Nat) (remap : Tbl Nat) : State :=
  let moved (v die : Nat) : Bool := remap.getD v die != die
  let grp (e : Nat × Group) : Nat × Group := if e.2.ctx == ctx && moved e.2.vdie e.2.die then (e.1, { e.2 with wct := 0 }) else e
  let thr (e : Nat × Thread) : Nat × Thread := match s.self e.1 with
    | some m => if m.g.ctx == ctx && moved m.g.vdie m.g.die then (e.1, { e.2 with wctAway := true }) else e
    | none => e
  let old : Tbl Nat := match s.contexts.find ctx with | some c => c.remap | none => []
  let begun (x : Nat × Int) : Nat × Int := match old.find x.1 with
    | some d => if moved x.1 d then (x.1, x.2 - s.now d + s.now (remap.getD x.1 d)) else x
    | none => x
  let lch (e : Nat × Launch) : Nat × Launch := if e.2.ctx == ctx then (e.1, { e.2 with start := e.2.start.map begun }) else e
  { s with groups := s.groups.map grp, threads := s.threads.map thr, launches := s.launches.map lch }

/-- The new bindings in everything that names a physical unit of the context. Mark: DESIGN CHOICE (log 49). -/
def rebindUnits (s : State) (ctx : Nat) (remap : Tbl Nat) (cores : List (Nat × Nat × Nat)) : State :=
  let s := s.rebindTimes ctx remap
  let dieOf (v old : Nat) : Nat := remap.getD v old
  let coreOf (v vc old : Nat) : Nat := ((cores.find? fun x => x.1 == v && x.2.1 == vc).map (·.2.2)).getD old
  let grp (e : Nat × Group) : Nat × Group :=
    if e.2.ctx = ctx then (e.1, { e.2 with die := dieOf e.2.vdie e.2.die, core := coreOf e.2.vdie e.2.vcore e.2.core }) else e
  let s := { s with groups := s.groups.map grp }
  let place (gid : Nat) : Option (Nat × Nat) := match s.groups.find gid with
    | some g => if g.ctx = ctx then some (g.die, g.core) else none
    | none => none
  let eng (e : Nat × EngOp) : Nat × EngOp := match place e.2.group with | some p => (e.1, { e.2 with die := p.1, core := p.2 }) | none => e
  let mat (e : Nat × MOp) : Nat × MOp := match place e.2.group with | some p => (e.1, { e.2 with die := p.1, core := p.2 }) | none => e
  let quo (e : Nat × QuOp) : Nat × QuOp := match place e.2.group with | some p => (e.1, { e.2 with die := p.1 }) | none => e
  let req (r : QReq) : QReq := match place r.group with | some p => { r with src := p.1 } | none => r
  let ans (e : Nat × QAns) : Nat × QAns := (e.1, { e.2 with req := req e.2.req })
  let prd (e : Nat × Prod) : Nat × Prod := match s.self e.2.thread with
    | some m => if m.g.ctx = ctx then (e.1, { e.2 with core := coreKey m.g.die m.g.core }) else e
    | none => e
  let wrp (e : Nat × Warp) : Nat × Warp := match place e.2.group with
    | some p =>
      let rec_ (x : PointRec) : PointRec := { x with ig := { x.ig with die := p.1, core := p.2 } }
      (e.1, { e.2 with points := e.2.points.map rec_ })
    | none => e
  { s with warps := s.warps.map wrp, engOps := s.engOps.map eng, mops := s.mops.map mat, quOps := s.quOps.map quo, qreqs := s.qreqs.map req, cancelled := s.cancelled.map req, answers := s.answers.map ans, prods := s.prods.map prd }

/-! ## Restoration (R379) -/

/-- Writes of the context that have still to reach its memory, and its signal updates that have still to reach the hub, whose order is
that of the port they left by (R329). Mark: DESIGN CHOICE (logs 49, 49). -/
def contextWrites (s : State) (ctx : Nat) : Bool :=
  let mine (o : Option Nat) : Bool := match o with
    | some k => (match s.self k with | some m => m.g.ctx == ctx | none => false)
    | none => false
  let tags := (s.groups.filter fun e => e.2.ctx == ctx).map (·.1)
  s.hreqs.vals.any (fun r => r.ctx == ctx) || s.wbacks.vals.any (fun b => b.ctx == ctx) || s.pushes.vals.any (fun p => p.part.ctx == ctx) ||
  s.pwrites.vals.any (fun w => w.threads.any (fun k => mine (some k)) || (match w.op with | some t => tags.contains t | none => false)) ||
  s.launchQs.vals.any (fun x => x.ctx == ctx && x.cur.isSome) || s.sigQueue.vals.any fun x => x.ctx == ctx

/-- The lowest place at which a range is free. Mark: DESIGN CHOICE (log 51). -/
def firstFree (used : List (Nat × Nat)) (total n : Nat) : Nat :=
  (((0 :: used.map fun u => u.1 + u.2).filter fun b => rangeFree used total b n).min?).getD 0

/-- Whether an operation has a transfer of a kind. -/
def opHas (op : EngOp) (kind : XKind) : Bool := op.transfers.any fun x => x.kind == kind
/-- An operation's transfers use another tile. -/
def opTileTo (op : EngOp) (t : Nat) : EngOp :=
  let f (x : Transfer) : Transfer := { x with tile := t }
  { op with transfers := op.transfers.map f, snap := none }

/-- Bind fresh physical tiles to every name of a restored group: a name that was BUSY is READY, and the operations that will be
replayed use the tile of their name, or one of their own where their name has another (R261, R275). Mark: DESIGN CHOICE (log 51). -/
def rebindAll (s : State) (gid : Nat) : State :=
  match s.groups.find gid with
  | none => s
  | some g =>
    let s := g.handles.foldl (fun s h =>
      match s.freeTiles g.die g.core with
      | [] => s
      | t :: _ =>
        let mine := s.engOps.filter fun e => e.2.group == gid && e.2.handle == some h.1 && e.2.snap.isNone
        let uses (kind : XKind) : List Nat := (mine.filter fun e => opHas e.2 kind).map (·.1)
        if h.2.st == .released && mine.isEmpty then s.setHandle gid h.1 Handle.free
        else
          let s := s.bindTile gid g.die g.core h.1 t { h.2 with st := if h.2.st = .busy then .ready else h.2.st } (uses .cpyt) (uses .thst)
          mine.foldl (fun s e => { s with engOps := s.engOps.put e.1 (opTileTo e.2 t) }) s) s
    (s.engOps.filter fun e => e.2.group == gid && e.2.snap.isSome).foldl (fun s e =>
      match s.freeTiles g.die g.core with
      | [] => s
      | t :: _ =>
        let uses (kind : XKind) : List Nat := if opHas e.2 kind then [e.1] else []
        let s := s.updTile g.die g.core t fun _ => { bytes := e.2.snap.getD [], writers := uses .cpyt, readers := uses .thst }
        { s with engOps := s.engOps.put e.1 (opTileTo e.2 t) }) s

/-- Restore the waystations of a group into free places of its core. -/
def putStations (s : State) (die core : Nat) : List Station → State
  | [] => s
  | x :: xs =>
    let co := s.core die core
    match (List.range 16).find? fun i => (co.stations.find i).isNone with
    | none => s
    | some i => (s.setCore die core { co with stations := co.stations.put i { x with since := co.clk, held := false } }).putStations die core xs

/-- Restore a saved group to its core: true where it has to wait for the core's resources or for memory (R379, R104). A fault in the
read of its slot leaves it there, and is raised when the context is RUNNING (R190). Mark: DESIGN CHOICE (logs 33, 48). -/
def restoreGroup (s : State) (gid : Nat) : Bool × State :=
  match s.groups.find gid with
  | none => (false, s)
  | some g => match s.launches.find g.launch, g.slot with
    | some l, some slot =>
      let room := 16 - (s.core g.die g.core).stations.length
      if !(s.setsFree gid g l && decide ((s.holders_ g.die g.core).length < 64) && decide ((s.placed g.die g.core).length < 256) && s.dictRoom g.die g.core l.ctx l.dictAddr
          && anyFree (s.spadUsed g.die g.core) 1048576 l.spad && anyFree (s.rowsUsed g.die g.core) 1536 l.rows
          && decide (g.handles.length + (s.engOps.filter fun e => e.2.group == gid && e.2.snap.isSome).length ≤ (s.freeTiles g.die g.core).length)
          && decide (g.stations.length ≤ room)) then (true, s)
      else match s.devRead g.die g.ctx g.vdie (slotAddr l slot) (slotSize l) with
        | (.wait, s) => (true, s)
        | (.fault c i va, s) => (false, s.deviceFault g.ctx g.vdie g.vcore c i va)
        | (.bytes bs, s) => match s.loadDict g.die g.core g.ctx g.vdie l.dictAddr with
          | (.wait, s) => (true, s)
          | (.fault c _ va, s) => (false, s.deviceFault g.ctx g.vdie g.vcore c (l.dictAddr.setWidth 32) va)
          | (.bytes _, s) =>
            let same := bs == (List.range (slotSize l)).map fun i => Config.slotByte gid i
            let s := if same then s else s.replaced gid l
            let spad := firstFree (s.spadUsed g.die g.core) 1048576 l.spad
            let acc := firstFree (s.rowsUsed g.die g.core) 1536 l.rows
            let s := s.updGroup gid fun g => { g with slot := none, spadBase := spad, accBase := acc, stations := [] }
            (false, (s.rebindAll gid).putStations g.die g.core g.stations)
    | _, _ => (false, s)

def restoreGroups (s : State) : List Nat → Bool × State
  | [] => (false, s)
  | g :: gs =>
    let r := s.restoreGroup g
    let rest := r.2.restoreGroups gs
    (r.1 || rest.1, rest.2)

/-- A stopped thread is READY at its PC; a fence that stands after its instruction is waited for again (R110, R208). -/
def restart (s : State) (k : Nat) : State :=
  let clear (t : Thread) : Thread := { t with mayFired := false, late := none, walkFault := none, stopMap := none, allLive := false, xfer := some (t.xfer.getD .anySlot) }
  match s.threads.find k with
  | some t => match t.st with
    | .stopped _ (some w) => if w.kind = waitFence ∧ w.place = 1 then (s.updThread k clear).block k w else (s.updThread k clear).ready k
    | .stopped _ none => (s.updThread k clear).ready k
    | _ => s
  | none => s

/-- A parked group whose watch records went to the save area, or one of whose waits was cancelled, is relaunched once
(R256). -/
def wakeMarked (s : State) (gid : Nat) (g : Group) : State :=
  let marked := (s.groupThreads gid).filter fun k => match s.threads.find k with | some t => t.mayFired | none => false
  let s' := marked.foldl (fun s k => s.updThread k fun t => { t with mayFired := false }) s
  match g.st with
  | .parked =>
    if marked.isEmpty && s.watches.vals.any fun w => w.group == gid then s
    else (s'.wakeGroup gid none).updGroup gid fun g => { g with wakeBy := marked ++ g.wakeBy }
  | .waking => s'.updGroup gid fun g => { g with wakeBy := marked ++ g.wakeBy }
  | _ => s

/-- The producers and waits of a group that a halt abandoned start again: each destination is empty, and a pending AWAIT is tested
(R79, R233). -/
def againProds (s : State) (gid : Nat) : State :=
  let ks := s.groupThreads gid
  let s := (s.prods.filter fun e => e.2.held && ks.contains e.2.thread).foldl (fun s e =>
    { s with prods := s.prods.put e.1 { e.2 with held := false } }.updThread e.2.thread fun t => t.markEmpty e.2.regs) s
  match s.groups.find gid with
  | some g => s.settleWords gid (g.tagWaits.map (·.word)).eraseDups
  | none => s

/-- What the ports have kept for the stopped threads of a context arrives before they go on (R85, R357). -/
def deliverKept (s : State) (ks : List Nat) : State :=
  (s.answers.filter fun e => ks.contains e.2.req.thread).foldl (fun s e => ({ s with answers := s.answers.del e.1 }).deliver e.2) s

/-- The warp launches of a group that a fault held back may start again (R188). -/
def againStations (s : State) (gid : Nat) (g : Group) : State :=
  let co := s.core g.die g.core
  let one (e : Nat × Station) : Nat × Station := if e.2.group = gid then (e.1, { e.2 with held := false }) else e
  (s.setCore g.die g.core { co with lines := [], stations := co.stations.map one }).feedCore g.die g.core

/-- Causes that a die recorded while the context resumed are raised now that it is RUNNING (R190). Mark: DEDUCED (log 45). -/
def raiseRecorded (s : State) (ctx : Nat) (hs : Tbl HaltDie) : State :=
  hs.foldl (fun s e => match e.2.cause with
    | some dc => s.raiseHalt ctx e.1 dc
    | none => s) s

/-- The context goes on (R379): replayable operations are on their engines again, pending waits are armed, marked waits end, what
the ports kept arrives, and its threads are READY. Mark: DEDUCED (log 26). -/
def goOn (s : State) (ctx : Nat) : State :=
  let gs := s.groups.filter fun e => e.2.ctx == ctx && !(e.2.st == .stopped && e.2.slot.isSome)
  let hs : Tbl HaltDie := match s.contexts.find ctx with | some c => c.halts | none => []
  let ids := gs.map (·.1)
  let eng (e : Nat × EngOp) : Nat × EngOp := if ids.contains e.2.group then (e.1, { e.2 with held := false }) else e
  let quo (e : Nat × QuOp) : Nat × QuOp := if ids.contains e.2.group then (e.1, { e.2 with held := false }) else e
  let again := s.cancelled.filter fun r => r.ctx == ctx && (match r.op with | .wait => false | _ => true)
  let grp (e : Nat × Group) : Nat × Group := if ids.contains e.1 ∧ e.2.st = .stopped then (e.1, { e.2 with st := .resident }) else e
  let s := { s with engOps := s.engOps.map eng, quOps := s.quOps.map quo, qreqs := s.qreqs ++ again, cancelled := s.cancelled.filter fun r => r.ctx != ctx, groups := s.groups.map grp }
  let s := gs.foldl (fun s e => s.wakeMarked e.1 e.2) s
  let stopped := gs.filter fun e => e.2.st == .stopped
  let s := stopped.foldl (fun s e => s.againProds e.1) s
  let s := s.deliverKept (stopped.flatMap fun e => s.groupThreads e.1)
  let s := stopped.foldl (fun s e => (s.groupThreads e.1).foldl (fun s k => s.restart k) s) s
  let s := s.updContext ctx fun c => { c with st := .running, halts := [], primary := none, reason := 0, lineUp := false, preempt := none, preDies := [] }
  -- matrix operations return to their queue while it has room, ahead of any new one (R283)
  let s := ((stopped.map fun e => (e.2.die, e.2.core)).eraseDups).foldl (fun s x => s.serveRoom x.1 x.2) s
  ((stopped.foldl (fun s e => s.againStations e.1 e.2) s).raiseRecorded ctx hs).wakeMemory

/-- No core holds more than 256 placed groups once the groups of a context stand on these cores (R297). Mark: DESIGN CHOICE (log 51). -/
def placesFit (s : State) (ctx : Nat) (remap : Tbl Nat) (cores : List (Nat × Nat × Nat)) : Bool :=
  cores.all fun x =>
    let mine := s.groups.vals.filter fun g => g.ctx == ctx && g.st != .retired && g.vdie == x.1 && g.vcore == x.2.1
    decide ((s.placed (remap.getD x.1 8) x.2.2).length + mine.length ≤ 256)

end State

/-- The physical dies that a resume's payload names, by virtual die; 0xFF leaves the choice to the root core. Mark: DEDUCED (log 50). -/
def payloadDies (m : Mbox) (vs : List Nat) : List Nat := vs.map fun v => ((m.pay (0x40 + v) 1).getD 0 0).toNat

/-- RESUME_CONTEXT (R379, R361, R374, R408): the first step binds the virtual dies and cores, moving what a virtual die holds;
later ones restore the saved groups; the last starts the threads. Mark: DESIGN CHOICE (log 49), DEDUCED (log 50). -/
def execResumeContext (fn : Nat) (dies : List Nat) (cores : List (Nat × Nat × Nat)) (s : State) : Res :=
  ctxCommand fn 1 0x11 (opForm 4) (fun m ctx c s =>
    let vs := c.remap.map (·.1)
    let now := c.remap.map (·.2)
    let want := payloadDies m vs
    let named := (payloadDies m (List.range 8)).filter (· != 0xFF)
    let bad := c.overflow || c.dieLost || diesArg m != vs || !decide named.Nodup || named.any fun d => decide (8 ≤ d)
    match c.st with
    | .halted =>
      if bad || (want.zip now).any fun e => e.1 != 0xFF && e.1 != e.2 then s.endCmd fn stRefused
      else s.updContext ctx fun c => { c with st := .resuming, halts := [], primary := none }
    | .saved =>
      if bad then s.endCmd fn stRefused
      else
        let remap := bindDies vs dies
        let fits := (want.zip dies).all fun e => e.1 == 0xFF || e.1 == e.2
        let same := (cores.map fun x => (x.1, x.2.1)).Perm (c.cores.map fun x => (x.1, x.2.1))
        let cls (cs : List (Nat × Nat × Nat)) (r : Tbl Nat) (x : Nat × Nat × Nat) : Nat := match cs.find? fun y => y.1 == x.1 && y.2.1 == x.2.1 with
          | some y => s.classOf (r.getD y.1 8) y.2.2
          | none => 3
        if !fits || !diesOk s vs dies || !coresOk s remap cores || !decide same || s.contextWrites ctx || !s.placesFit ctx remap cores
            || !(cores.all fun x => cls cores remap x == cls c.cores c.remap x) then s
        else
          let mvs := (c.remap.zip dies).map fun e => (e.1.1, ({ src := e.1.2, dst := e.2 } : Move))
          match mvs.foldl (fun r e => r.bind fun s => s.moveDie ctx e.1 e.2) (some s) with
          | none => s.endCmd fn stRefused
          | some s =>
            let s := mvs.foldl (fun s e => s.moveRuns ctx e.2 e.1) s
            let s := s.updContext ctx fun c => { c with cores := cores, st := .resuming, halts := [], primary := none }
            (s.rebindUnits ctx remap cores).updContext ctx fun c => { c with remap := remap }
    | .resuming =>
      let stopped := s.groups.filter fun e => e.2.ctx == ctx && e.2.st == .stopped
      let r := s.restoreGroups ((stopped.filter fun e => e.2.slot.isSome).map (·.1))
      if r.1 then r.2
      else
        let left := (r.2.groups.filter fun e => e.2.ctx == ctx && e.2.st == .stopped && e.2.slot.isSome).length
        (r.2.goOn ctx).doneCmd fn [(0x40, leBytes 4 (stopped.length - left))]
    | .running => s.endCmd fn stRefused
    | .halting _ => s.endCmd fn stRefused
    | _ => s.endCmd fn stRefused) s

/-! ## Destruction (R363) -/

namespace State

/-- A launch queue that is deleted parses no more; a PAGE-MODE or HOSTCOPY record of it that runs goes on to its end (R408).
Mark: DESIGN CHOICE (log 41). -/
def dropLq (s : State) (key : Nat) : State :=
  match (s.launchQs.find key).bind (·.cur) with
  | some (.pageMode _ _ _ _ _) => s.updLq key fun x => { x with stopped := true, lines := [] }
  | some (.hostcopy _ _ _ _) => s.updLq key fun x => { x with stopped := true, lines := [] }
  | _ => { s with launchQs := s.launchQs.del key }

/-- The launch queue of launches whose own has been deleted: no die has it. Mark: DESIGN CHOICE (log 41). -/
def noLq : Nat := 8 * 65536

/-- A queue is deleted (R338): what waits at home is answered HOMELOST, and its launches go on under no launch queue, whatever queue the
slot holds next. Mark: DESIGN CHOICE (log 41). -/
def dropQueue (s : State) (key : Nat) : State :=
  match s.queues.find key with
  | none => s
  | some q =>
    let s := s.setQueue key { q with st := .free, tickets := [], takes := [], waiters := [], byLaunch := [], resetBy := none }
    let s := (q.takes ++ q.waiters ++ q.resetBy.toList).foldl (fun s r => s.answer r qHomelost 0 [] 0) s
    let run (e : Nat × Die) : Nat × Die := (e.1, { e.2 with runList := e.2.runList.filter (· != key) })
    let orphan (e : Nat × Launch) : Nat × Launch := if e.2.lq = key then (e.1, { e.2 with lq := noLq }) else e
    { s with dies := s.dies.map run, launches := s.launches.map orphan }.dropLq key

/-- What is left of a context whose groups have retired. -/
def dropContext (s : State) (ctx : Nat) : State :=
  let gids := (s.groups.filter fun e => e.2.ctx == ctx).map (·.1)
  let s := s.forgetGroups gids
  let keys := (s.queues.filter fun e => e.2.ctx == ctx && e.2.st != .free).map (·.1)
  let s := keys.foldl (fun s k => s.dropQueue k) s
  let dead (e : Nat × Sampling) : Bool := e.1 % 256 == ctx
  { s with launchQs := s.launchQs.filter fun e => e.2.ctx != ctx, launches := s.launches.filter fun e => e.2.ctx != ctx, walks := s.walks.filter fun e => e.2.ctx != ctx, modes := s.modes.filter fun e => e.1 / 8 != ctx, sampling := s.sampling.filter fun e => !dead e, contexts := s.contexts.del ctx }

end State

/-- DESTROY_CONTEXT (R363, R407): every group retires without running, and once its writes have been acknowledged, and no queue of it is
RESETTING (R338), the context's queues are deleted and its number is free. Mark: DESIGN CHOICE (logs 41, 52). -/
def execDestroyContext (fn : Nat) (s : State) : Res :=
  ctxCommand fn 1 0x11 (opForm 1) (fun _ ctx c s =>
    let gone := (s.groups.filter fun e => e.2.ctx == ctx).map (·.1)
    match c.st with
    | .destroyed =>
      if (s.quiet gone || c.dieLost) && !(s.queues.vals.any fun q => q.ctx == ctx && q.st == .resetting) then (s.dropContext ctx).doneCmd fn [] else s
    | .created => (s.releaseUnits ctx).updContext ctx fun c => { c with st := .destroyed }
    | .halted => ((gone.foldl (fun s g => s.killGroup g) s).releaseUnits ctx).updContext ctx fun c => { c with st := .destroyed }
    | .saved => ((gone.foldl (fun s g => s.killGroup g) s).releaseUnits ctx).updContext ctx fun c => { c with st := .destroyed }
    | _ => s.endCmd fn stRefused) s

end Sys2Proof.Machine
end

