-- ==== Sys2Proof/Machine/Shake.lean ====
section
/-! DEFINITION. SHAKE256, by which the device digests its images, records and link parameters (R391, R407, R409, R410). The spec names
the function; its computation is FIPS 202's. -/

namespace Sys2Proof.Machine

namespace Keccak

/-- The state: 25 lanes, lane (x, y) at x + 5 y. -/
abbrev Lanes := List W64

def lane (a : Lanes) (x y : Nat) : W64 := a.getD (x % 5 + 5 * (y % 5)) 0
/-- A state from its lanes. -/
def build (f : Nat → Nat → W64) : Lanes := (List.range 25).map fun i => f (i % 5) (i / 5)

/-- The rotation of lane (x, y), at x + 5 y. -/
def rotations : List Nat := [0, 1, 62, 28, 27, 36, 44, 6, 55, 20, 3, 10, 43] ++ [25, 39, 41, 45, 15, 21, 8, 18, 2, 61, 56, 14]

/-- The round constants. -/
def constants : List W64 :=
  [0x0000000000000001, 0x0000000000008082, 0x800000000000808A, 0x8000000080008000, 0x000000000000808B, 0x0000000080000001] ++
  [0x8000000080008081, 0x8000000000008009, 0x000000000000008A, 0x0000000000000088, 0x0000000080008009, 0x000000008000000A] ++
  [0x000000008000808B, 0x800000000000008B, 0x8000000000008089, 0x8000000000008003, 0x8000000000008002, 0x8000000000000080] ++
  [0x000000000000800A, 0x800000008000000A, 0x8000000080008081, 0x8000000000008080, 0x0000000080000001, 0x8000000080008008]

def theta (a : Lanes) : Lanes :=
  let c := (List.range 5).map fun x => lane a x 0 ^^^ lane a x 1 ^^^ lane a x 2 ^^^ lane a x 3 ^^^ lane a x 4
  build fun x y => lane a x y ^^^ c.getD ((x + 4) % 5) 0 ^^^ (c.getD ((x + 1) % 5) 0).rotateLeft 1
def rho (a : Lanes) : Lanes := build fun x y => (lane a x y).rotateLeft (rotations.getD (x + 5 * y) 0)
def pi (a : Lanes) : Lanes := build fun x y => lane a (x + 3 * y) x
def chi (a : Lanes) : Lanes := build fun x y => lane a x y ^^^ (~~~lane a (x + 1) y &&& lane a (x + 2) y)
def iota (rc : W64) (a : Lanes) : Lanes := build fun x y => if x = 0 ∧ y = 0 then lane a 0 0 ^^^ rc else lane a x y

/-- The permutation of 24 rounds. -/
def permute (a : Lanes) : Lanes := constants.foldl (fun a rc => iota rc (chi (pi (rho (theta a))))) a

/-- The bytes of a block: the rate of SHAKE256. -/
def rate : Nat := 136

/-- A message with the suffix and the padding of SHAKE256. -/
def padded (msg : List Byte) : List Byte :=
  let q := rate - msg.length % rate
  if q = 1 then msg ++ [0x9F] else msg ++ [0x1F] ++ List.replicate (q - 2) 0 ++ [0x80]

/-- Take in blocks. -/
def absorb : Nat → List Byte → Lanes → Lanes
  | 0, _, a => a
  | n + 1, bs, a =>
    let mix := a.zipIdx.map fun x => if x.2 < 17 then x.1 ^^^ bytesW64 ((bs.drop (8 * x.2)).take 8) else x.1
    absorb n (bs.drop rate) (permute mix)

/-- Give out blocks. -/
def squeeze : Nat → Lanes → List Byte
  | 0, _ => []
  | n + 1, a => (a.take 17).flatMap w64Bytes ++ squeeze n (permute a)

end Keccak

/-- The first `n` bytes of SHAKE256 of a message. Mark: PRESUMED (log 9). -/
def digest (n : Nat) (msg : List Byte) : List Byte :=
  let p := Keccak.padded msg
  (Keccak.squeeze ((n + 135) / 136) (Keccak.absorb (p.length / 136) p (List.replicate 25 0))).take n

end Sys2Proof.Machine
end

