-- ==== Sys2Proof/Machine/Links.lean ====
section
/-! DEFINITION. Links and bridges (R382 to R394): received flits, replay, link states, loss of light, retraining,
link-parameter agreement and stomping. What a link sends stands in `Flits`. -/

namespace Sys2Proof.Machine

open Host (Cell)

/-! ## Received flits (R384, R385) -/

/-- A received flit. -/
structure Flit where
  seq     : BitVec 12
  ty      : Nat
  ack     : Option (BitVec 12)
  rsv     : Bool
  payload : List Byte
  crcOk   : Bool
  stomped : Bool
  deriving DecidableEq, Repr

def readFlit (bs : List Byte) : Flit :=
  let h := leNat (bs.take 4)
  let c := crc64 (bs.take 120)
  let t := bytesW64 (bs.drop 120)
  { seq := BitVec.ofNat 12 h, ty := bitsOf h 12 4, ack := if bitOf h 28 then some (BitVec.ofNat 12 (h / 2 ^ 16)) else none, rsv := bitsOf h 29 3 != 0, payload := (bs.drop 4).take 116, crcOk := t == c, stomped := t == ~~~c }

/-- The places in which the beats of a flit arrive, by wavelength and in order on each, for a lane map and the beats since the MARKER (R386). -/
def arrivals (map : BitVec 16) (k : Nat) : List Nat := (wavesOf map).flatMap fun w => (List.range 16).filter fun b => waveOf map (k + b) == w
/-- The bytes of a flit from its beats as its wavelengths bring them, the lowest wavelength first (R386). Mark: DESIGN CHOICE (log 55). -/
def reassemble (map : BitVec 16) (k : Nat) (bs : List Byte) : List Byte :=
  (List.range 16).flatMap fun b => (bs.drop (8 * (arrivals map k).idxOf b)).take 8
/-- The lane maps under which the receiver hunts for a MARKER: its own, without what is dark or what it has asked to be taken out, with
what trains, and that of the record it agreed (R386, R389, R390, R392). Mark: DESIGN CHOICE (log 55). -/
def Link.expects (l : Link) : List (BitVec 16) :=
  let out := l.unanswered.filter fun a => a.ty == tyRetrain && a.payload.getD 1 0 == 0
  [l.rx.map, l.rx.map &&& ~~~l.rx.dark, l.rx.agreed.map, l.rx.agreed.map &&& ~~~l.rx.dark, ~~~l.rx.dark] ++
  out.map (fun a => l.rx.map &&& ~~~l.rx.dark &&& ~~~(1#16 <<< (a.payload.getD 0 0).toNat)) ++
  l.rx.wave.toList.map fun w => (l.rx.map ||| (1#16 <<< w)) &&& ~~~l.rx.dark

/-- A flit whose TYPE is reserved or that has a reserved bit set (R384). -/
def Flit.reserved (f : Flit) : Bool := f.rsv || decide (6 < f.ty)
/-- A control flit of a TYPE that may be taken; one with a CRC error is dropped (R387). -/
def Flit.is (f : Flit) (ty : Nat) : Bool := f.crcOk && !f.reserved && f.ty == ty

/-- The flit that sixteen beats of a link make, as its wavelengths bring them: a MARKER that announces the very map under which it reads
so, and which the receiver expects, or else what its own map and beat count make of them (R386). Mark: DESIGN CHOICE (log 55). -/
def Link.receives (l : Link) (bs : List Byte) : Flit :=
  let hunted (m : BitVec 16) : Bool :=
    let f := readFlit (reassemble m 0 bs)
    f.is tyMarker && BitVec.ofNat 16 (leNat (f.payload.take 2)) == m
  match l.expects.find? hunted with
  | some m => readFlit (reassemble m 0 bs)
  | none => readFlit (reassemble l.rx.map l.rxBeat bs)

/-! ## Packets of DATA flits (R384, R389, R393) -/

/-- The whole packets at the start of received bytes, and the bytes of a packet that is not whole; a byte 0 where a header would
begin pads the flit. Mark: DESIGN CHOICE (log 55). -/
def takePackets : Nat → List Byte → List (List Byte) × List Byte
  | 0, bs => ([], bs)
  | fuel + 1, bs =>
    let n := 16 + leNat ((bs.drop 1).take 4)
    if bs.getD 0 0 = 0 then ([], [])
    else if bs.length < 16 ∨ bs.length < n then ([], bs)
    else
      let r := takePackets fuel (bs.drop n)
      (bs.take n :: r.1, r.2)
def packetsOf (bs : List Byte) : List (List Byte) × List Byte := takePackets (bs.length / 16 + 1) bs

/-- Whether a header among received bytes, from a packet's start on, fails its check (R384, R393): where that packet begins. -/
def badHeader : Nat → Nat → List Byte → Option Nat
  | 0, _, _ => none
  | fuel + 1, at_, bs =>
    let n := 16 + leNat ((bs.drop 1).take 4)
    if bs.getD 0 0 = 0 ∨ bs.length < 16 then none
    else if !headerOk (bs.take 16) then some at_
    else if bs.length < n then none
    else badHeader fuel (at_ + n) (bs.drop n)
/-- Where a packet whose header check fails begins, if one does. Mark: DESIGN CHOICE (log 55). -/
def badPacket (bs : List Byte) : Option Nat := badHeader (bs.length / 16 + 1) 0 bs

/-- Arriving packets whose per-flow sequence a home has not yet accepted (R389), and the sequences then accepted. -/
def freshPackets : Tbl Nat → List (List Byte) → List (List Byte) × Tbl Nat
  | acc, [] => ([], acc)
  | acc, p :: ps =>
    let f := Config.flowOf p
    let q := leNat ((p.drop 10).take 4)
    let again : Bool := match acc.find f with | some a => decide ((a + 2 ^ 32 - q) % 2 ^ 32 < 2 ^ 31) | none => false
    if again then freshPackets acc ps
    else
      let r := freshPackets (acc.put f q) ps
      (p :: r.1, r.2)

namespace State

/-- The packets that an accepted flit completes are passed upward, in order (R387). -/
def passUp (s : State) (n : Nat) (payload : List Byte) : State :=
  let l := s.link n
  let r := packetsOf (l.held ++ payload)
  let f := freshPackets s.accepted r.1
  { s with accepted := f.2 }.setLink n { l with upward := l.upward ++ f.1, held := r.2, skip := 0 }

/-- A stomped flit (R393). Where it carries on the packet that an earlier stomped flit began, those bytes are dropped and what stands
behind them is kept. Otherwise its last packet is the one that is stomped: the bytes that are held of it and those in this flit are
dropped, and the packets before it are kept. Mark: DESIGN CHOICE (log 55). -/
def passStomped (s : State) (n : Nat) (payload : List Byte) : State :=
  let l := s.link n
  let r := packetsOf (l.held ++ payload.drop l.skip)
  let ok := if l.skip = 0 ∧ r.2.isEmpty then r.1.dropLast else r.1
  let f := freshPackets s.accepted ok
  let rest := if l.skip = 0 then (if 16 ≤ r.2.length then 16 + leNat ((r.2.drop 1).take 4) - r.2.length else 0) else l.skip - 116
  { s with accepted := f.2 }.setLink n { l with upward := l.upward ++ f.1, held := if l.skip = 0 then [] else r.2, skip := rest }

/-- The DATA flits that an ACK names leave the replay buffer. -/
def takeAck (s : State) (n : Nat) (f : Flit) : State :=
  let l := s.link n
  match f.ack with
  | none => s
  | some a =>
    if l.replay.any fun d => d.seq == a then
      let rest := (l.replay.dropWhile fun d => d.seq != a).drop 1
      (s.setLink n { l with replay := rest, ackAt := s.hclk }).pumpAll n
    else s

/-- A DATA flit is discarded: one NAK, unless one is held off (R387). Mark: DEDUCED (log 56). -/
def discard (s : State) (n : Nat) : State :=
  match (s.link n).nakSent with
  | some _ => s
  | none =>
    let s := s.control n tyNak []
    s.setLink n { s.link n with nakSent := some s.hclk }

/-! ## States (R388, R389) -/

/-- Another link of the route set on which traffic passes (R389). Mark: DESIGN CHOICE (log 55). -/
def otherLink (s : State) (n : Nat) : Option Nat :=
  if n < 512 then (Config.routeSet n).find? fun m => m != n && decide (m < 512) && (s.link m).st.passes else none

/-- The failed link's flows move to another link of the route set: its unacknowledged flits first (R389). Mark: DESIGN CHOICE (log 55). -/
def moveFlows (s : State) (n : Nat) : State :=
  match s.otherLink n with
  | none => s
  | some m =>
    let l := s.link n
    let raw (d : DataFlit) : Chunk := { bytes := d.payload, ctx := d.ctx, stomped := d.stomped, flit := true }
    let x := s.link m
    ((s.setLink n { l with replay := [], backlog := [] }).setLink m { x with backlog := x.backlog ++ l.replay.map raw ++ l.backlog }).pumpAll m

/-- The link becomes FAILED, its transmit map what it would have become (R388, R389); `old` is the link before. -/
def failLink (s : State) (n : Nat) (rx : Bool) (map : BitVec 16) (old : Link) : State :=
  let l := s.link n
  let clear (d : LinkDir) : LinkDir := { d with offer := none, far := none, wave := none, echo := none }
  let s := s.setLink n { l with st := .failed, tx := { clear l.tx with map := map }, rx := clear l.rx, hunting := false, unanswered := [] }
  (linkEvent s n 1 rx old).moveFlows n

/-- The state that stands highest among those that apply (R388); a change is recorded, and so is the end of a retraining that leaves
the state as it was. `old` is the link before, and `at_` a SEQ from which DATA has been resent (R394). -/
def settleLink (s : State) (n : Nat) (rx : Bool) (old : Link) (at_ : Option (BitVec 12)) (ended : Bool) : State :=
  let l := s.link n
  if !l.st.passes then s
  else if decide (mapWidth l.tx.map < 4) || decide (mapWidth (l.rx.map &&& ~~~l.rx.dark) < 4) then s.failLink n rx l.tx.map old
  else
    let full := l.tx.map == 0xFFFF && l.rx.map == 0xFFFF && l.rx.dark == 0
    let st : LkState := if l.tx.wave.isSome || l.rx.wave.isSome then .retraining else if full then .up else .degraded
    if st = l.st ∧ !ended then s else linkEventAt (s.setLink n { l with st := st }) n 1 rx old at_

/-- A change of the receive map is recorded (R388). Mark: DEDUCED (log 56). -/
def rxMapEvent (s : State) (n : Nat) (old : Link) : State :=
  let l := s.link n
  if l.rx.map = old.rx.map then s else linkEvent s n 2 true { old with st := l.st }

/-- Flits that match need no answer any more. -/
def answered (s : State) (n : Nat) (p : Ask → Bool) : State :=
  let l := s.link n
  s.setLink n { l with unanswered := l.unanswered.filter fun x => !p x }

/-- The transmit map changes: a MARKER, then the replay from a SEQ on where one is given (R386, R389). -/
def restripe (s : State) (n : Nat) (map : BitVec 16) (from_ : Option (BitVec 12)) : State :=
  let l := s.link n
  let s := (s.setLink n { l with tx := { l.tx with map := map } }).marker n from_
  let s := if map = l.tx.map then s else linkEventAt s n 2 false l from_
  match from_ with | some q => s.goBack n q | none => s

end State

/-! ## DATA, NAK and the timers (R387) -/

/-- An event of a link that the package has (R18). -/
def onLink (n : Nat) (act : State → State) (s : State) : Res := if n < linkCount then finish (act s) else finish s
/-- Sixteen beats more have come (R386). -/
def State.countBeats (s : State) (n : Nat) : State :=
  let l := s.link n
  if l.st = .down ∨ l.st = .failed then s else s.setLink n { l with rxBeat := l.rxBeat + 16 }
/-- A flit event of a link: the 128 bytes of sixteen beats, in the order in which the wavelengths bring them. -/
def flitTurn (n : Nat) (bytes : List Byte) (act : Flit → State → State) (s : State) : Res :=
  if bytes.length = 128 then onLink n (fun s => act ((s.link n).receives bytes) (s.countBeats n)) s else finish s

/-- DATA_FLIT (R387): the expected flit, whole, is passed upward; any other is discarded, and so is one that holds a packet header whose
check fails (R393). Mark: DESIGN CHOICE (log 55). -/
def execDataFlit (link : Nat) (bytes : List Byte) (s : State) : Res :=
  flitTurn link bytes (fun f s =>
    let l := s.link link
    if !l.st.passes || f.stomped || (f.crcOk && (f.reserved || f.ty != tyData)) then s
    else
      let s := if f.crcOk then s.takeAck link f else s
      let l := s.link link
      if f.crcOk && f.seq == l.expSeq && !l.hunting && (badPacket (l.held ++ f.payload)).isNone then
        ((s.setLink link { l with expSeq := l.expSeq + 1, heard := true, nakSent := none }).passUp link f.payload).fillLink link
      else s.discard link) s

/-- STOMPED_FLIT (R393): its SEQ is accepted, and the bytes of the stomped packet are dropped. -/
def execStompedFlit (link : Nat) (bytes : List Byte) (s : State) : Res :=
  flitTurn link bytes (fun f s =>
    let l := s.link link
    if !l.st.passes || !f.stomped || f.reserved || f.ty != tyData then s
    else
      let s := s.takeAck link f
      let l := s.link link
      if f.seq == l.expSeq && !l.hunting then
        let s := (s.setLink link { l with expSeq := l.expSeq + 1, heard := true, nakSent := none }).passStomped link f.payload
        (linkEvent s link 6 true l).fillLink link
      else s.discard link) s

/-- NAK (R387): the transmitter goes back to the SEQ that the NAK names. -/
def execNak (link : Nat) (bytes : List Byte) (s : State) : Res :=
  flitTurn link bytes (fun f s =>
    if !f.is tyNak || !(s.link link).st.passes then s
    else (s.takeAck link f).goBack link f.seq) s

/-- IDLE (R384): the other direction is filled too. -/
def execIdle (link : Nat) (bytes : List Byte) (s : State) : Res :=
  flitTurn link bytes (fun f s => if f.is tyIdle && (s.link link).st.passes then (s.takeAck link f).fillLink link else s) s

/-- RESERVED_FLIT (R384): discarded, and counted in an event record. -/
def execReservedFlit (link : Nat) (bytes : List Byte) (s : State) : Res :=
  flitTurn link bytes (fun f s =>
    let l := s.link link
    if f.crcOk && f.reserved && l.st != .down && l.st != .failed then linkEvent s link 7 true l else s) s

/-- REPLAY_TIMEOUT (R387): 8 µs of hub time without an advance of ACK. -/
def execReplayTimeout (link : Nat) (s : State) : Res :=
  onLink link (fun s =>
    let l := s.link link
    match l.replay with
    | d :: _ =>
      if l.st.passes && decide (l.ackAt + 8 * usHclk ≤ s.hclk) then
        let s := s.goBack link d.seq
        s.setLink link { s.link link with ackAt := s.hclk }
      else s
    | [] => s) s

/-- NAK_HOLDOFF_END (R387): 4 µs of hub time after a NAK, another may be sent. -/
def execNakHoldoffEnd (link : Nat) (s : State) : Res :=
  onLink link (fun s =>
    let l := s.link link
    match l.nakSent with
    | some t => if t + 4 * usHclk ≤ s.hclk then s.setLink link { l with nakSent := none } else s
    | none => s) s

/-- A control flit that has gone unanswered for 2 µs. -/
def Ask.due (a : Ask) (now : Nat) : Bool := decide (a.sent + 2 * usHclk ≤ now)
/-- CONTROL_FLIT_REPEAT (R387): each unanswered LOSS, RETRAIN and LPR flit goes out again every 2 µs of hub time. -/
def execControlFlitRepeat (link : Nat) (s : State) : Res :=
  onLink link (fun s =>
    let l := s.link link
    if l.st = .down ∨ l.st = .failed then s
    else
      let now := s.hclk
      let s := s.setLink link { l with unanswered := l.unanswered.map fun a => if a.due now then { a with sent := now } else a }
      (l.unanswered.filter (·.due now)).foldl (fun s a => s.control link a.ty a.payload) s) s

/-! ## Lane maps: loss of light and retraining (R386, R389, R390) -/

/-- The lowest wavelength of a mask. -/
def lowWave (m : BitVec 16) : Option Nat := (List.range 16).find? fun i => m.getLsbD i
def waveBit (w : Nat) : BitVec 16 := 1#16 <<< w
/-- A direction that loses wavelengths: what trains among them no longer does. -/
def LinkDir.lose (d : LinkDir) (m : BitVec 16) : LinkDir :=
  let d := { d with dark := d.dark ||| m }
  match d.wave with
  | some w => if m.getLsbD w then { d with wave := none, offer := none, far := none } else d
  | none => d
def Ask.isRetrain (a : Ask) (byte1 : Nat) : Bool := a.ty == tyRetrain && (a.payload.getD 1 0).toNat == byte1

/-- LOSS_OF_LIGHT (R389): the receiver marks wavelengths dark, discards DATA until the new map arrives, and sends LOSS. -/
def execLossOfLight (link : Nat) (mask : BitVec 16) (s : State) : Res :=
  onLink link (fun s =>
    let l := s.link link
    if mask &&& ~~~l.rx.dark = 0 then s
    else if !l.st.passes then s.setLink link { l with rx := l.rx.lose mask }
    else
      let x := { l with rx := l.rx.lose mask, hunting := true }
      ((s.setLink link x).ask link tyLoss (leBytes 2 x.rx.dark.toNat ++ leBytes 2 l.expSeq.toNat)).settleLink link true l none (l.rx.wave.isSome && x.rx.wave.isNone)) s

/-- LOSS (R389): the transmitter removes the dark wavelengths, sends a MARKER and resends from the expected SEQ; below four
wavelengths the link fails. -/
def execLoss (link : Nat) (bytes : List Byte) (s : State) : Res :=
  flitTurn link bytes (fun f s =>
    let l := s.link link
    if !f.is tyLoss || !l.st.passes then s
    else
      let s := s.takeAck link f
      let l := s.link link
      let m := BitVec.ofNat 16 (leNat (f.payload.take 2))
      let seq := BitVec.ofNat 12 (leNat ((f.payload.drop 2).take 2))
      let map := l.tx.map &&& ~~~m
      let tx := l.tx.lose m
      let s := s.setLink link { l with tx := tx, unanswered := l.unanswered.filter fun a => a.ty != tyLpr || tx.offer.isSome }
      if mapWidth map < 4 then s.failLink link false map l
      else (s.restripe link map (some seq)).settleLink link false l (some seq) (l.tx.wave.isSome && tx.wave.isNone)) s

/-- An echo whose proposal has been answered goes out no more (R387, R392). Mark: DEDUCED (log 56). -/
def State.dropEcho (s : State) (n : Nat) : State :=
  match (s.link n).rx.echo with
  | some e => s.answered n fun x => x.ty == tyLpr && x.payload == e.2
  | none => s

/-- MARKER (R386): the receiver adopts the map, SPEED and EPOCH that it announces; it answers LOSS and RETRAIN requests, and an echo. The
first one after training, when the receiver has agreed, also names the DATA SEQ that comes next (R384). Mark: DESIGN CHOICE (log 55). -/
def execMarker (link : Nat) (bytes : List Byte) (s : State) : Res :=
  flitTurn link bytes (fun f s =>
    let l := s.link link
    if !f.is tyMarker || !(l.st.passes || l.st == .training) then s
    else
      let s := s.takeAck link f
      let l := s.link link
      let map := BitVec.ofNat 16 (leNat (f.payload.take 2))
      let begins : Option Nat := match l.unanswered.find? (·.isRetrain 0) with
        | some x => let w := (x.payload.getD 0 0).toNat; if map.getLsbD w || l.rx.dark.getLsbD w then none else some w
        | none => none
      let back := map &&& ~~~l.rx.map
      let wave : Option Nat := match begins, l.rx.wave with
        | some w, _ => some w
        | none, some w => if map.getLsbD w then none else some w
        | none, none => none
      let late := map &&& l.rx.dark != 0
      let rx : LinkDir := { l.rx with map := map, speed := (f.payload.getD 2 0).toNat, epoch := (f.payload.getD 3 0).toNat }
      -- before this end has agreed, training goes on
      if l.st = .training ∧ !l.rx.done then (s.setLink link { l with rx := rx, rxBeat := 16 }).rxMapEvent link l
      else
      let rx : LinkDir := { rx with wave := wave, since := if begins.isSome then s.hclk else l.rx.since, echo := none }
      let ahead := l.resync && !late && decide ((f.seq - l.expSeq).toNat < 2048)
      let s := (s.dropEcho link).setLink link { (s.dropEcho link).link link with rx := rx, hunting := late, rxBeat := 16, resync := l.resync && late, expSeq := if ahead then f.seq else l.expSeq }
      let s := s.answered link fun x => (x.ty == tyLoss && !late) || x.isRetrain 0
      let s := if begins.isSome then linkEvent s link 3 true l else s
      let s := s.rxMapEvent link l
      let s := if back = 0 || l.st == .training then s else linkEvent s link 4 true l
      s.settleLink link true l none false) s

/-- ERROR_RATE_THRESHOLD (R383, R390): a window of 2^32 bits of a wavelength ends; where the rate of corrected symbols exceeds the
threshold the receiver asks for the wavelength to be taken out. Mark: DEDUCED (log 56). -/
def execErrorRateThreshold (link wave rate : Nat) (s : State) : Res :=
  onLink link (fun s =>
    if 16 ≤ wave then s
    else
      let l := s.link link
      let l := { l with rates := l.rates.put wave rate }
      let s := s.setLink link l
      let asked := l.unanswered.any fun x => x.ty == tyRetrain
      if !l.st.passes || decide (rate ≤ l.thresholds.getD wave 42949) || !l.rx.map.getLsbD wave || l.rx.dark.getLsbD wave || l.rx.wave.isSome || asked then s
      else s.ask link tyRetrain [byteOf wave, 0]) s

/-- Bytes 0 to 7 of a record. -/
def LprRec.head (r : LprRec) : List Byte := [1, byteOf r.width] ++ leBytes 2 r.map.toNat ++ [byteOf r.speed, byteOf r.epoch, 0, 0]
/-- The HASH over bytes 0 to 7 of a record, the link number and the two package identifiers, that of the proposing transmitter first;
`own` where that is this package (R391). -/
def lprHash (n : Nat) (own : Bool) (head : List Byte) : List Byte :=
  let ids := if own then leBytes 2 Config.pkgId.toNat ++ leBytes 2 (Config.farPkg n).toNat else leBytes 2 (Config.farPkg n).toNat ++ leBytes 2 Config.pkgId.toNat
  digest 8 (head ++ leBytes 2 n ++ ids)
/-- The bytes of a record, with its HASH. Mark: PRESUMED (log 9). -/
def LprRec.bytes (n : Nat) (own : Bool) (r : LprRec) : List Byte :=
  r.head ++ lprHash n own r.head
/-- The record in 16 bytes. -/
def readLpr (bs : List Byte) : LprRec :=
  { width := (bs.getD 1 0).toNat, map := BitVec.ofNat 16 (leNat ((bs.drop 2).take 2)), speed := (bs.getD 4 0).toNat, epoch := (bs.getD 5 0).toNat }

/-- The record that the transmitter proposes: the map that it would have, a SPEED, and the next epoch (R391). Mark: DEDUCED (log 56). -/
def proposal (n k : Nat) (d : LinkDir) (map : BitVec 16) : LprRec :=
  { width := mapWidth map, map := map, speed := flag (Config.linkSlow n k) 1, epoch := (d.agreed.epoch + 1) % 256 }

namespace State

/-- The transmitter proposes a record with a map and sends it (R392). -/
def propose (s : State) (n : Nat) (map : BitVec 16) : State :=
  let (k, s) := s.draw
  let l := s.link n
  let p := proposal n k l.tx map
  (s.setLink n { l with tx := { l.tx with offer := some p } }).ask n tyLpr (p.bytes n true)

/-- A direction begins to train a wavelength, and the start is recorded (R388, R390). -/
def beginTraining (s : State) (n : Nat) (rx : Bool) (w : Nat) : State :=
  let l := s.link n
  let on (d : LinkDir) : LinkDir := { d with wave := some w, since := s.hclk }
  linkEvent (s.setLink n (if rx then { l with rx := on l.rx } else { l with tx := on l.tx })) n 3 rx l

end State

/-- Out of service, and its light present. -/
def LinkDir.idle (d : LinkDir) : BitVec 16 := ~~~d.map &&& ~~~d.dark

/-- RETRAIN (R390): a request takes the wavelength out, unless that would leave fewer than eight; ready is answered with the
record that the transmitter proposes. Mark: DEDUCED (log 56). -/
def execRetrain (link : Nat) (bytes : List Byte) (s : State) : Res :=
  flitTurn link bytes (fun f s =>
    if !f.is tyRetrain || !(s.link link).st.passes then s
    else
      let s := s.takeAck link f
      let l := s.link link
      let w := (f.payload.getD 0 0).toNat
      if f.payload.getD 1 0 = 0 then
        -- the MARKER that took it out may have been lost
        if l.tx.wave = some w then s.marker link none
        else if l.tx.wave.isSome || decide (16 ≤ w) || !l.tx.map.getLsbD w then s
        else if mapWidth l.tx.map < 9 then linkEvent s link 8 false l
        else ((s.restripe link (l.tx.map &&& ~~~waveBit w) none).beginTraining link false w).settleLink link false l none false
      else if l.tx.offer.isSome || decide (16 ≤ w) then s
      else if l.tx.wave = some w then s.propose link (l.tx.map ||| waveBit w)
      -- training has been repeated
      else if l.tx.wave = none ∧ l.tx.idle.getLsbD w then
        ((s.beginTraining link false w).settleLink link false l none false).propose link (l.tx.map ||| waveBit w)
      else s) s

/-- RETRAIN_TIMEOUT (R390): a wavelength that has not trained within 50 ms stays out; one that has trained, and waits for agreement,
has a record. Mark: DEDUCED (log 56). -/
def execRetrainTimeout (link : Nat) (s : State) : Res :=
  onLink link (fun s =>
    let l := s.link link
    let late (d : LinkDir) : Bool := d.wave.isSome && d.offer.isNone && decide (d.since + 50000 * usHclk ≤ s.hclk)
    let give (d : LinkDir) : LinkDir := if late d then { d with wave := none, offer := none, far := none, echo := none } else d
    if !l.st.passes || !(late l.tx || late l.rx) then s
    else
      let s := if late l.rx then s.dropEcho link else s
      let s := s.setLink link { s.link link with tx := give l.tx, rx := give l.rx }
      let s := s.answered link fun x => late l.rx && x.ty == tyRetrain
      s.settleLink link (late l.rx) l none true) s

/-- LIGHT_RESTORED (R389, R392): firmware reports light. A dark wavelength is then out of service, and the lowest trains, to be handed
back; on a link that carries no traffic it trains with the link. Mark: DEDUCED (log 56). -/
def execLightRestored (link : Nat) (mask : BitVec 16) (s : State) : Res :=
  onLink link (fun s =>
    let l := s.link link
    let lit (d : LinkDir) : LinkDir := { d with map := d.map &&& ~~~(mask &&& d.dark), dark := d.dark &&& ~~~mask }
    let s := (s.setLink link { l with tx := lit l.tx, rx := lit l.rx }).rxMapEvent link l
    if !l.st.passes then s
    else
      let train (rx : Bool) (d : LinkDir) (s : State) : State := match d.wave, lowWave (mask &&& d.dark) with
        | none, some w => s.beginTraining link rx w
        | _, _ => s
      let s := train false l.tx (train true l.rx s)
      s.settleLink link ((s.link link).rx.wave != l.rx.wave) l none false) s

/-! ## Agreement (R391, R392) -/

namespace State

/-- A mismatch (R392): both ends revert, a wavelength in training stays out, and the third in a row fails the link. The receiver's echo
still goes out until the direction trains again, so that the far end reverts too (R387). Mark: DEDUCED (log 56). -/
def mismatch (s : State) (n : Nat) (rx : Bool) : State :=
  let l := s.link n
  let drop (d : LinkDir) : LinkDir := { d with offer := none, far := none, wave := none }
  let x := { l with miss := l.miss + 1, tx := if rx then l.tx else drop l.tx, rx := if rx then drop l.rx else l.rx }
  let s := linkEvent (s.setLink n x) n 5 rx l
  if 3 ≤ x.miss then s.failLink n rx l.tx.map l else s.settleLink n rx l none false

/-- Both directions have agreed since training began: the link carries traffic, UP or DEGRADED by width (R388). Mark: DEDUCED (log 56). -/
def endTraining (s : State) (n : Nat) : State :=
  let l := s.link n
  if l.st = .training ∧ l.tx.done ∧ l.rx.done then
    let use (d : LinkDir) : LinkDir := { d with map := d.agreed.map &&& ~~~d.dark, done := false }
    let tx := use l.tx
    let rx := use l.rx
    if mapWidth tx.map < 4 ∨ mapWidth rx.map < 4 then s.failLink n false tx.map l
    else
      let full := mapWidth tx.map == 16 && mapWidth rx.map == 16
      let x := { l with st := if full then .up else .degraded, tx := tx, rx := { rx with speed := rx.agreed.speed, epoch := rx.agreed.epoch } }
      let s := if 512 ≤ n then s.setDie (n - 512) { s.die (n - 512) with inReset := false } else s
      -- what no other link has taken over is sent again
      let from_ := l.replay.head?.map (·.seq)
      let s := (linkEventAt ((s.setLink n x).marker n from_) n 1 false l from_).rxMapEvent n l
      (match from_ with | some q => s.goBack n q | none => s).pumpAll n
  else s

/-- The receiver has the far proposal and its own trained record: it echoes the record that it trained, and compares. The two
agree when every byte is equal, the HASH among them (R392). Mark: DEDUCED (log 56). -/
def compareRx (s : State) (n : Nat) : State :=
  let l := s.link n
  match l.rx.offer, l.rx.far with
  | some t, some p =>
    let e := t.bytes n false
    let s := (s.setLink n { l with rx := { l.rx with echo := some (p, e) } }).ask n tyLpr e
    let l := s.link n
    if p = e then
      let rx : LinkDir := { l.rx with agreed := t, offer := none, far := none, done := l.st == .training }
      (s.setLink n { l with rx := rx, miss := 0 }).endTraining n
    else s.mismatch n true
  | _, _ => s

/-- The transmitter has the echo of its proposal: on agreement the next MARKER applies it, but for what has gone dark since. -/
def compareTx (s : State) (n : Nat) (p : LprRec) (echo : List Byte) : State :=
  let s := s.answered n fun x => x.ty == tyLpr && x.payload == p.bytes n true
  let l := s.link n
  if echo = p.bytes n true then
    let tx : LinkDir := { l.tx with agreed := p, offer := none, done := true }
    let s := s.setLink n { l with tx := tx, miss := 0 }
    if l.st = .training then s.endTraining n
    else
      let s := s.setLink n { s.link n with tx := { tx with wave := none, done := false } }
      (linkEvent (s.restripe n (p.map &&& ~~~tx.dark) none) n 4 false l).settleLink n false l none false
  else s.mismatch n false

end State

/-- TRAINING_END (R392): a link in TRAINING proposes its transmit record, if four wavelengths have trained, and holds the record that
its receiver trained; a receiver whose wavelength has trained, or trains again, says that it is ready (R390). Mark: DEDUCED (log 56). -/
def execTrainingEnd (link : Nat) (trained : List Byte) (s : State) : Res :=
  onLink link (fun s =>
    let l := s.link link
    let t := readLpr trained
    if l.st = .training ∧ l.rx.offer = none ∧ l.tx.offer = none ∧ (!l.tx.done || !l.rx.done) then
      let s := if l.rx.done then s else (s.dropEcho link).setLink link { (s.dropEcho link).link link with rx := { l.rx with offer := some t, echo := none } }
      let map := Config.linkMap link s.fresh &&& ~~~l.tx.dark
      let s := if l.tx.done ∨ mapWidth map < 4 then s else s.propose link map
      s.compareRx link
    else if !l.st.passes || l.rx.offer.isSome then s
    else
      let s := match l.rx.wave, lowWave l.rx.idle with
        | none, some w => (s.beginTraining link true w).settleLink link true l none false
        | _, _ => s
      let s := s.dropEcho link
      let l := s.link link
      match l.rx.wave with
      | some w =>
        ((s.setLink link { l with rx := { l.rx with offer := some t, echo := none } }).ask link tyRetrain [byteOf w, 1]).compareRx link
      | none => s) s

/-- Whether the HASH of a record is that of a direction's record: one that this package proposes, or one that the far end does (R391).
Mark: DEDUCED (log 56). -/
def sealed_ (n : Nat) (own : Bool) (rec16 : List Byte) : Bool := rec16.drop 8 == lprHash n own (rec16.take 8)

/-- LPR (R392): the far transmitter's proposal; that proposal again, whose echo was lost; or the echo of ours, which the HASH of our own
direction tells from a proposal. Mark: DEDUCED (log 56). -/
def execLpr (link : Nat) (bytes : List Byte) (s : State) : Res :=
  flitTurn link bytes (fun f s =>
    let l := s.link link
    if !f.is tyLpr || !(l.st.passes || l.st == .training) then s
    else
      let s := s.takeAck link f
      let l := s.link link
      let rec16 := f.payload.take 16
      let ours := sealed_ link true rec16 && !sealed_ link false rec16
      let rxOpen := !ours && l.rx.far.isNone && !l.rx.done && l.rx.echo.isNone && (l.rx.offer.isSome || l.rx.wave.isSome || l.st == .training)
      let again : Option (List Byte) := match l.rx.echo with | some e => if e.1 = rec16 then some e.2 else none | none => none
      if rxOpen then takeFar rec16 s
      else match l.tx.offer, again with
        | some p, some e => if rec16 = p.bytes link true then s.compareTx link p rec16 else s.control link tyLpr e
        | some p, none => s.compareTx link p rec16
        | none, some e => s.control link tyLpr e
        | none, none => s) s
where
  /-- The far proposal is taken. -/
  takeFar (rec16 : List Byte) (s : State) : State :=
    let s := s.answered link fun x => x.isRetrain 1
    let l := s.link link
    (s.setLink link { l with rx := { l.rx with far := some rec16 } }).compareRx link

/-! ## Link states (R388) -/

/-- Firmware enables a DOWN link, or retrains a FAILED one, with its retraining thresholds (R388, R390). A wavelength stays dark until
its light is reported (R389). A MARKER is the first flit under the new map, and the receiver hunts for the one that ends training
(R386). -/
def State.enableLink (s : State) (n : Nat) : State :=
  let l := s.link n
  if l.st ≠ .down ∧ l.st ≠ .failed then s
  else
    let fresh (d : LinkDir) : LinkDir := { d with map := ~~~d.dark, offer := none, far := none, done := false, wave := none, echo := none }
    let x := { l with st := .training, tx := fresh l.tx, rx := fresh l.rx, miss := 0, trainAt := s.hclk, hunting := true, resync := true, rxBeat := 0, nakSent := none, unanswered := [], thresholds := tableOf ((List.range 16).map (Config.linkThreshold n)) }
    (linkEvent ((s.setLink n x).marker n none) n 1 false l).rxMapEvent n l

/-- LINK_ENABLE (R388). -/
def execLinkEnable (link : Nat) (s : State) : Res := onLink link (·.enableLink link) s

/-- LINK_DISABLE (R388). -/
def execLinkDisable (link : Nat) (s : State) : Res :=
  onLink link (fun s =>
    let l := s.link link
    if l.st = .down then s
    else linkEvent (s.setLink link { l with st := .down, unanswered := [], hunting := false }) link 1 false l) s

/-- TRAINING_TIMEOUT (R388): 100 ms in TRAINING without agreement. -/
def execTrainingTimeout (link : Nat) (s : State) : Res :=
  onLink link (fun s =>
    let l := s.link link
    if l.st = .training ∧ l.trainAt + 100000 * usHclk ≤ s.hclk then s.failLink link false l.tx.map l else s) s

/-! ## Stomping (R393) -/

/-- HEADER_CHECK_FAIL (R393): the crossbar has begun to forward a packet of this ingress flit, whose header check fails. What it has
forwarded of it, behind the packets before it, ends the egress flit stomped, and the ingress flit is not accepted, so that no later
egress flit carries the packet. Mark: DESIGN CHOICE (log 55). -/
def execHeaderCheckFail (ingress egress : Nat) (bytes : List Byte) (s : State) : Res :=
  flitTurn ingress bytes (fun f s =>
    let l := s.link ingress
    let bs := l.held ++ f.payload
    match badPacket bs with
    | none => s
    | some start =>
    if !l.st.passes || !f.is tyData || f.seq != l.expSeq || l.hunting || decide (linkCount ≤ egress) then s
    else
      let s := (s.takeAck ingress f).discard ingress
      let e := s.link egress
      if !e.st.passes then s
      else
        let c : Chunk := { bytes := bs.drop start, ctx := none, stomped := true, flit := false }
        linkEvent ((s.setLink egress { e with backlog := e.backlog ++ [c] }).pumpAll egress) egress 6 false e) s

end Sys2Proof.Machine
end

