-- ==== Sys2Proof/Machine/Ed448.lean ====
section
/-! DEFINITION. Ed448, by which images, attestation records and freeze authorisations are signed (R407, R409, R410). The spec names the
scheme; its computation is RFC 8032's, with an empty context. -/

namespace Sys2Proof.Machine

namespace Ed448

/-- The field's prime, 2^448 - 2^224 - 1. -/
def prime : Nat := 2 ^ 448 - 2 ^ 224 - 1
/-- The order of the base point. -/
def order : Nat := 2 ^ 446 - 13818066809895115352007386748515426880336692474882178609894547503885
/-- The constant d of the curve x^2 + y^2 = 1 + d x^2 y^2, which is -39081. -/
def curveD : Nat := prime - 39081

def mul (a b : Nat) : Nat := a * b % prime
def add (a b : Nat) : Nat := (a + b) % prime
def sub (a b : Nat) : Nat := (a + prime - b % prime) % prime
/-- `a ^ e` for an exponent of at most `n` bits. -/
def pow (a e : Nat) : Nat → Nat
  | 0 => 1
  | n + 1 =>
    let h := pow (mul a a) (e / 2) n
    if e % 2 = 1 then mul h a else h
def inverse (a : Nat) : Nat := pow a (prime - 2) 448

/-- A point in projective coordinates. -/
structure Point where
  x : Nat
  y : Nat
  z : Nat
  deriving DecidableEq, Repr

def zero : Point := { x := 0, y := 1, z := 1 }
def base : Point :=
  { x := 224580040295924300187604334099896036246789641632564134246125461686950415467406032909029192869357953282578032075146446173674602635247710,
    y := 298819210078481492676017930443930673437544040154080242095928241372331506189835876003536878655418784733982303233503462500531545062832660, z := 1 }

/-- The sum of two points. -/
def Point.plus (p q : Point) : Point :=
  let a := mul p.z q.z
  let b := mul a a
  let c := mul p.x q.x
  let d := mul p.y q.y
  let e := mul curveD (mul c d)
  let f := sub b e
  let g := add b e
  let h := mul (add p.x p.y) (add q.x q.y)
  { x := mul a (mul f (sub (sub h c) d)), y := mul a (mul g (sub d c)), z := mul f g }

/-- `k` times a point, for `k` of at most `n` bits. -/
def Point.times (p : Point) (k : Nat) : Nat → Point
  | 0 => zero
  | n + 1 =>
    let h := (p.plus p).times (k / 2) n
    if k % 2 = 1 then h.plus p else h

/-- Whether two points are the same. -/
def Point.same (p q : Point) : Bool := mul p.x q.z == mul q.x p.z && mul p.y q.z == mul q.y p.z

/-- The 57 bytes of a point: y, and the lowest bit of x in the last byte. -/
def Point.bytes (p : Point) : List Byte :=
  let i := inverse p.z
  leBytes 56 (mul p.y i) ++ [if mul p.x i % 2 = 1 then 0x80 else 0]

/-- The point that 57 bytes stand for. -/
def point (bs : List Byte) : Option Point :=
  let y := leNat (bs.take 56)
  let last := bs.getD 56 0
  let sign := if last.getLsbD 7 then 1 else 0
  if bs.length ≠ 57 ∨ prime ≤ y ∨ last &&& 0x7F ≠ 0 then none
  else
    let u := sub (mul y y) 1
    let v := sub (mul curveD (mul y y)) 1
    let u3v := mul (mul (mul u u) u) v
    let x := mul u3v (pow (mul (mul u3v (mul u u)) (mul v v)) ((prime - 3) / 4) 448)
    if mul v (mul x x) ≠ u then none
    else if x = 0 ∧ sign = 1 then none
    else some { x := if x % 2 = sign then x else prime - x, y := y, z := 1 }

/-- The prefix of every hash: the scheme's name, no pre-hash, an empty context. -/
def dom : List Byte := [0x53, 0x69, 0x67, 0x45, 0x64, 0x34, 0x34, 0x38, 0, 0]

/-- The secret scalar and the prefix of a 57-byte seed. -/
def secret (seed : List Byte) : Nat × List Byte :=
  let h := digest 114 seed
  let a := leNat (h.take 56) / 4 * 4 % 2 ^ 447 + 2 ^ 447
  (a, h.drop 57)

/-- The public key of a seed. -/
def publicKey (seed : List Byte) : List Byte := (base.times (secret seed).1 448).bytes

/-- The signature of a message. -/
def sign (seed msg : List Byte) : List Byte :=
  let (a, pre) := secret seed
  let key := publicKey seed
  let r := leNat (digest 114 (dom ++ pre ++ msg)) % order
  let rb := (base.times r 446).bytes
  let k := leNat (digest 114 (dom ++ rb ++ key ++ msg)) % order
  rb ++ leBytes 57 ((r + k * a) % order)

/-- Whether a signature of a message verifies under a public key. -/
def verify (key msg sig : List Byte) : Bool :=
  let s := leNat (sig.drop 57)
  match point key, point (sig.take 57) with
  | some a, some r =>
    let k := leNat (digest 114 (dom ++ sig.take 57 ++ key ++ msg)) % order
    sig.length == 114 && decide (s < order) && (base.times s 446).same (r.plus (a.times k 446))
  | _, _ => false

end Ed448

end Sys2Proof.Machine
end

