-- ==== Sys2Proof/Machine/Observe.lean ====
section
/-! DEFINITION. Sampling (R396), energy banks (R401), freeze (R402), margin plans and the power limit (R403, R404, R411), and the
mailbox commands that read records (R407). -/

namespace Sys2Proof.Machine

open Host (Cell)

/-! ## Sampling (R396) -/

/-- The sampling interval, from 2^10 to 2^24 clk. Mark: DESIGN CHOICE (log 8). -/
def sampleInterval (ctx die : Nat) : Nat := 2 ^ 10 + Config.sampleClk ctx die % (2 ^ 24 - 2 ^ 10 + 1)

/-- Whether an instruction word writes a register. -/
def writesReg (w : W64) : Bool :=
  match decodeWord w with
  | .ok i => i.uses.any fun u => u.k == .dst && (match u.o with | .g _ => true | _ => false)
  | .error _ => false

/-- A sample record. `lat` is what the scheduler measured: FETCH, ISSUE, COLLECT, EXEC, WB, and for an access that home answered
whether its die cache or its HBM did (LEVEL 2 or 3). Mark: DESIGN CHOICE (log 58). -/
def sampleRecord (ctx : Nat) (x : SampleC) (m : SampleM) (lat : List Nat) : List Byte :=
  let sat (i : Nat) : List Byte := leBytes 4 (min (lat.getD i 0) (2 ^ 32 - 1))
  let exec := if x.caused then zeros 4 else sat 3
  let wb := if x.caused || !writesReg x.word then zeros 4 else sat 4
  let level := if m.level = 2 then 2 + lat.getD 5 0 % 2 else m.level
  [1, byteOf m.lane] ++ leBytes 2 m.warp ++ [byteOf m.vcore, byteOf m.group, byteOf ctx, byteOf level] ++
  w64Bytes x.pc ++ w64Bytes x.word ++ sat 0 ++ sat 1 ++ sat 2 ++ exec ++ wb ++ zeros 4 ++ leBytes 8 m.dt ++ zeros 8

/-- SAMPLE_INTERVAL (R396): an interval ends, and one slot issue of it and one of its lanes are recorded; the first such step of
a context on a die is firmware's enabling of its sampling. Intervals are counted in the clk of core 0. Mark: DESIGN CHOICE (log 58). -/
def execSampleInterval (die ctx pick lanePick : Nat) (lat : List Nat) (s : State) : Res :=
  let key := die * 256 + ctx
  let now := s.clk die 0
  match s.sampling.find key with
  | none =>
    if (s.vdieOf ctx die).isSome ∧ ctx < 256 then finish { s with sampling := s.sampling.put key { interval := sampleInterval ctx die, start := now, issues := [] } }
    else finish s
  | some sm =>
    if now < sm.start + sm.interval then finish s
    else
      let s := { s with sampling := s.sampling.put key { sm with start := now, issues := [] } }
      match sm.issues[pick % sm.issues.length]? with
      | none => finish s
      | some x => match x.members[lanePick % x.members.length]? with
        | none => finish s
        | some w =>
          let n := s.sampleNext.getD die 0
          finish { s with samples := s.samples.put die ((s.samples.getD die []).put n (sampleRecord ctx x w lat)), sampleNext := s.sampleNext.put die (n + 1) }

/-! ## Margin plans (R30, R403, R404) -/

/-- The token allotment that a budget leaves room for, 1 to 16 (R30). -/
def allotFor (limit fixed : Nat) : Nat := max 1 (min 16 ((limit - fixed) / 144))

namespace State

/-- Every die's allotment changes when its ring next passes cluster 0 (R30). Mark: DESIGN CHOICE (log 30). -/
def setAllot (s : State) (a : Nat) : State :=
  (List.range 8).foldl (fun s d => s.setDie d { s.die d with newAllot := some a }) s

/-- The allotment after the latest plan. -/
def allotNow (s : State) (die : Nat) : Nat := (s.die die).newAllot.getD (s.die die).allot

/-- The record of an applied plan (R404). -/
def planRecord (s : State) (unit reason allot fold fnew vold vnew : Nat) : State :=
  s.ringPut ([0x20, byteOf unit, byteOf reason, byteOf allot] ++ leBytes 4 fold ++ leBytes 4 fnew ++ leBytes 2 vold ++ leBytes 2 vnew) (zeros 8)

/-- Apply a clock and supply to a die, or to the hub as unit 8. -/
def applyPlan (s : State) (unit reason fnew vnew : Nat) : State :=
  if unit < 8 then
    let d := s.die unit
    (s.setDie unit { d with mhz := fnew, mv := vnew }).planRecord unit reason (s.allotNow unit) d.mhz fnew d.mv vnew
  else
    { s with hubMhz := fnew, hubMv := vnew }.planRecord 8 reason (s.allotNow 0) s.hubMhz fnew s.hubMv vnew

end State

/-- MARGIN_PLAN (R403, R404, R409): a plan of a die or the hub is applied, and the allotment recomputed from the power limit and the
fixed budget lines, which leave a token a die within the design power (R30). The clocks lie at or below their nominal rates
(R26). Mark: DESIGN CHOICE (logs 8, 30). -/
def execMarginPlan (unit reason fnew vnew : Nat) (budget : List Nat) (s : State) : Res :=
  let top := if unit < 8 then 1750 else 1500
  let fixed := budget.foldl (· + ·) 0
  if 8 < unit ∨ 3 < reason ∨ fnew = 0 ∨ top < fnew ∨ 65535 < vnew ∨ 4200 < fixed + 144 ∨ (s.boot ≠ .ready ∧ s.boot ≠ .loading) then finish s
  else
    let s := { s with fixedW := fixed }.setAllot (allotFor s.powerLim fixed)
    finish (s.applyPlan unit reason fnew vnew)

/-- THERMAL_TRIP (R411): firmware lowers a die's clock under a plan with REASON 1. -/
def execThermalTrip (die fnew vnew : Nat) (s : State) : Res :=
  if 8 ≤ die ∨ fnew = 0 ∨ (s.die die).mhz ≤ fnew ∨ 65535 < vnew ∨ s.boot ≠ .ready then finish s
  else finish ((s.setAllot (allotFor s.powerLim s.fixedW)).applyPlan die 1 fnew vnew)

/-- SET_POWER_LIMIT (R411, R407): an accepted limit is applied as a margin plan with REASON 2. Mark: DESIGN CHOICE (log 30). -/
def execSetPowerLimit (fn : Nat) (s : State) : Res :=
  command fn 0x09 .pf (fun _ => true) (fun m s =>
    let w := m.arg 0x10 2
    if w < 1500 ∨ 4200 < w then s.endCmd fn stRefused
    else
      let a := allotFor w s.fixedW
      let s := { s with powerLim := w }.setAllot a
      (s.applyPlan 8 2 s.hubMhz s.hubMv).doneCmd fn [(0x40, [byteOf a])]) s

/-! ## Freeze (R402) -/

/-- The package identifier as four bytes, bits 15:0. -/
def pkgBytes : List Byte := leBytes 4 Config.pkgId.toNat
/-- The device's private key (R410). -/
def deviceSeed : List Byte := (List.range 57).map Config.deviceSeed
/-- The device's public key (R410). -/
def devicePub : List Byte := Ed448.publicKey deviceSeed

/-- FREEZE (R402, R407): with an authorisation that is signed under the debug authority key and names this device and the latest
attest's nonce, STATUS becomes DONE and every clock stops. Mark: DEDUCED (log 62). -/
def execFreeze (fn : Nat) (s : State) : Res :=
  command fn 0x0A .pf (fun _ => true) (fun m s =>
    let nonce := m.pay 0x48 32
    let ok := m.pay 0x40 2 == pkgBytes.take 2 && s.nonce == some nonce && m.pay 0x68 64 == digest 64 devicePub &&
      Ed448.verify ((List.range 57).map Config.debugKey) (digest 64 (m.pay 0x40 104)) (m.pay 0xA8 114)
    if ok then { (s.doneCmd fn []) with frozen := true, nonce := none } else s.endCmd fn stRefused) s

/-! ## Reading records (R407) -/

/-- The records of a table from START on, at most COUNT and `most`. -/
def takeRecs {α : Type} (t : Tbl α) (m : Mbox) (most : Nat) : Tbl α :=
  (t.filter fun e => decide (m.arg 0x18 8 ≤ e.1)).take (min (m.arg 0x14 4) most)

/-- The response of a read: how many records, the index after the last, the records. -/
def readResponse (m : Mbox) (rs : Tbl (List Byte)) : List (Nat × List Byte) :=
  let next := match rs.getLast? with | some e => e.1 + 1 | none => m.arg 0x18 8
  [(0x40, leBytes 4 rs.length), (0x48, leBytes 8 next), (0x80, rs.flatMap (·.2))]

/-- Whether CONSUME or CLEAR is set. -/
def consumes (m : Mbox) : Bool := bitOf (m.arg 0x12 1) 0
/-- The table without the records that a read frees. -/
def without {α β : Type} (t : Tbl α) (rs : Tbl β) : Tbl α := t.filter fun e => !(rs.any fun r => r.1 == e.1)

def srcForm (src : Nat) (m : Mbox) : Bool := m.arg 0x10 1 == src

/-- READ_EVENT_RING (R395, R407); a SRC that the table does not give is REFUSED. -/
def execReadEventRing (fn : Nat) (s : State) : Res :=
  command fn 0x06 .any (fun m => srcForm 0 m || decide (3 < m.arg 0x10 1)) (fun m s =>
    if m.arg 0x10 1 ≠ 0 then s.endCmd fn stRefused
    else
      let rs := takeRecs s.ring m 124
      let s := if consumes m then { s with ring := without s.ring rs } else s
      s.doneCmd fn (readResponse m rs)) s

/-- A log entry of ECALL 0x03 (R407). -/
def logRecord (e : LogE) : List Byte :=
  w64Bytes e.a ++ [byteOf e.ctx, byteOf e.vdie, byteOf e.vcore, byteOf e.group] ++ leBytes 2 e.warp ++ [byteOf e.lane, 0] ++ leBytes 8 e.htime ++ zeros 8

/-- READ_ECALL_LOG (R381, R407): the log of the function. Mark: DEDUCED (log 64). -/
def execReadEcallLog (fn : Nat) (s : State) : Res :=
  command fn 0x06 .any (srcForm 1) (fun m s =>
    let log := s.ecallLog.getD fn []
    let rs := takeRecs log m 124
    let s := if consumes m then { s with ecallLog := s.ecallLog.put fn (without log rs) } else s
    s.doneCmd fn (readResponse m (rs.map fun (e : Nat × LogE) => (e.1, logRecord e.2)))) s

/-- READ_SAMPLE_BUFFER (R396, R407). -/
def execReadSampleBuffer (fn : Nat) (s : State) : Res :=
  command fn 0x06 .any (srcForm 2) (fun m s =>
    let die := m.arg 0x11 1
    if 8 ≤ die then s.endCmd fn stRefused
    else
      let buf := s.samples.getD die []
      let rs := takeRecs buf m 62
      let s := if consumes m then { s with samples := s.samples.put die (without buf rs) } else s
      s.doneCmd fn (readResponse m rs)) s

/-- READ_ENERGY_BANKS (R401, R407): the 257 banks of a unit. -/
def execReadEnergyBanks (fn : Nat) (s : State) : Res :=
  command fn 0x06 .any (srcForm 3) (fun m s =>
    let unit := m.arg 0x20 2
    if 535 < unit then s.endCmd fn stRefused
    else
      let bytes := (List.range 257).flatMap fun i => leBytes 8 (s.banks.getD (unit * 257 + i) 0)
      let s := if consumes m then { s with banks := s.banks.filter fun e => e.1 / 257 != unit } else s
      s.doneCmd fn [(0x40, leBytes 4 257), (0x48, leBytes 8 257), (0x80, bytes)]) s

end Sys2Proof.Machine
end

