-- ==== Sys2Proof/Machine/Platform.lean ====
section
/-! DEFINITION. Boot and firmware images (R409), the reset of a die (R408), identity (R410), the harvest map (R32), and the mailbox
commands on page tables, queues and QIDs (R407). -/

namespace Sys2Proof.Machine

open Host (Cell)

/-! ## Boot (R409) -/

/-- VERSION and LEN of an image, by its header. -/
def imageVersion (img : List Cell) : List Byte := cellsGet img 4 4
def imageLen (img : List Cell) : Nat := leNat (cellsGet img 8 8)
/-- The body of an image. -/
def imageBody (img : List Cell) : List Byte := cellsGet img 256 (imageLen img)

/-- The ROM's check of the image in flash (R409). Mark: DEDUCED (log 60). -/
def imageOk (s : State) : Bool :=
  let key := cellsGet s.flash 16 57
  cellsGet s.flash 0 4 == [0x44, 0x58, 0x46, 0x57] && decide (imageLen s.flash ≤ 2 ^ 25 - 256) &&
  digest 32 key == (List.range 32).map Config.rootHash &&
  Ed448.verify key (digest 64 (imageBody s.flash)) (cellsGet s.flash 73 114)

/-- The harvest of a core, from firmware's test of it: bits 0 to 3 say which quarters work, bit 4 whether the matrix engine does, and
bit 5 whether two working quarters can be steered onto lanes 0 to 31 (R31). Mark: DEDUCED (log 60). -/
def harvestClass (t : Byte) : BitVec 2 :=
  let quarters := ((List.range 4).filter fun i => t.getLsbD i).length
  if quarters = 4 then (if t.getLsbD 4 then 0 else 1)
  else if t.getLsbD 4 && decide (2 ≤ quarters) && t.getLsbD 5 then 2
  else 3

/-- A harvest that a package may have (R32): eight dies of 136 positions, at least 128 of class A on each. -/
def harvestOk (h : List (List (BitVec 2))) (spares : List Byte) : Bool :=
  h.length == 8 && spares.length == 8 && h.all fun l => l.length == 136 && decide (128 ≤ (l.filter fun c => c == 0).length)

/-- The package right after a reset, with what a reset keeps: HBM and host memory, flash, and what the model's agenda holds.
Mark: DESIGN CHOICE (log 6). -/
def State.packageReset (s : State) : State :=
  let keep (e : Nat × Die) : Nat × Die := (e.1, { Die.reset with fwTop := e.2.fwTop, mapTop := e.2.mapTop })
  { State.reset with flash := s.flash, committed := s.committed, mem := s.mem, host := s.host, dies := s.dies.map keep, agenda := s.agenda, nextId := s.nextId, fresh := s.fresh, stuck := s.stuck, focus := s.focus, word := s.word }

/-- LOADING ends (R409): the image runs, the harvest map is published, firmware has written the energy weights of every function (R397),
and every mailbox is IDLE; firmware enables the bridges, which train (R388). Mark: DEDUCED (log 60). -/
def State.loadDone (s : State) (harvest : List (List (BitVec 2))) (spares : List Byte) : State :=
  let weights (fn : Nat) : List W32 := (List.range 16).map (Config.energyWeight fn s.fresh)
  let s := { s with boot := .ready, vfWeights := tableOf ((List.range 16).map weights), fresh := s.fresh + 1, image := s.flash, classes := tableOf harvest, spares := tableOf spares, mailboxes := [] }
  (List.range 8).foldl (fun s d => s.enableLink (512 + d)) s

/-- POWER_ON (R409): the next stage of a boot. A package that runs, that waits in RECOVERY or that is frozen is reset, to ROMCHECK. In
ROMCHECK the ROM checks the image: a valid one is loaded, an invalid one leads to RECOVERY. In LOADING firmware tests the cores
and publishes the harvest that it resolves (R31, R32). Mark: DEDUCED (log 60). -/
def execPowerOn (tests : List (List Byte)) (spares : List Byte) (s : State) : Res :=
  let harvest := tests.map (·.map harvestClass)
  if s.frozen then finish s.packageReset
  else match s.boot with
    | .romcheck => finish (if imageOk s then { s with boot := .loading } else { s with boot := .recovery, mailboxes := [] })
    | .loading => if harvestOk harvest spares then finish (s.loadDone harvest spares) else finish s
    | _ => finish s.packageReset

/-- WRITE_FIRMWARE_IMAGE (R409, R407): a chunk of the image; in RECOVERY the commit makes the ROM verify at once. -/
def execWriteFirmwareImage (fn : Nat) (s : State) : Res :=
  command fn 0x08 .pf (fun _ => true) (fun m s =>
    let off := m.arg 0x10 4
    let len := m.arg 0x14 2
    let flags := m.arg 0x16 1
    if off % 8 ≠ 0 ∨ len = 0 ∨ 4032 < len ∨ 2 ^ 25 < off + len then s.endCmd fn stRefused
    else
      let old := if bitOf flags 0 then [] else s.flash
      let s := { s with flash := cellsSet old off (m.pay 0x40 len), committed := bitOf flags 1 }
      let s := s.doneCmd fn []
      if s.boot = .recovery ∧ s.committed ∧ imageOk s then { s with boot := .loading } else s) s

/-! ## Identity and the harvest map (R32, R407, R410) -/

/-- The harvest map as command 0x05 lays it out, from payload offset 0x40: the counts, the class maps and the
spares; the bit of a disabled spare is clear. Mark: DEDUCED (log 60). -/
def harvestMap (s : State) : List (Nat × List Byte) :=
  let cls (d : Nat) : List (BitVec 2) := ((s.classes.find d).getD [] ++ List.replicate 136 3).take 136
  let count (d : Nat) (c : BitVec 2) : Byte := byteOf ((cls d).filter fun x => x == c).length
  let pack (l : List (BitVec 2)) : List Byte := (List.range 34).map fun i => byteOf ((List.range 4).foldl (fun n j => n + (l.getD (4 * i + j) 3).toNat * 4 ^ j) 0)
  let spared (d : Nat) : Byte := byteOf ((List.range 8).foldl (fun n j => n + flag ((cls d).getD (128 + j) 3 != 3) (2 ^ j)) 0)
  (List.range 8).flatMap fun d =>
    [(0x40 + 8 * d, [count d 0, count d 1, count d 2, count d 3]), (0x80 + 34 * d, pack (cls d)), (0x190 + d, [(s.spares.find d).getD 0 &&& spared d])]

/-- READ_HARVEST_MAP (R407): the map with the certificate. -/
def execReadHarvestMap (fn : Nat) (s : State) : Res :=
  command fn 0x05 .any (fun _ => true) (fun _ s =>
    let cert := devicePub ++ pkgBytes.take 2 ++ Ed448.sign ((List.range 57).map Config.makerSeed) (digest 64 (devicePub ++ pkgBytes.take 2))
    s.doneCmd fn (harvestMap s ++ [(0x200, leBytes 2 173), (0x208, cert)])) s

/-- ATTEST (R410): the signed record over the nonce. Mark: DEDUCED (log 60). -/
def execAttest (fn : Nat) (s : State) : Res :=
  command fn 0x07 .any (fun _ => true) (fun m s =>
    let nonce := m.pay 0x40 32
    let map := cellsGet (response (harvestMap s)) 0x40 0x158
    let body := nonce ++ digest 64 (imageBody s.image) ++ imageVersion s.image ++ pkgBytes ++ digest 64 map
    let sig := Ed448.sign deviceSeed (digest 64 body)
    let s := if fn = pfn then { s with nonce := some nonce } else s
    s.doneCmd fn [(0x40, body ++ sig)]) s

/-! ## Page tables (R174 to R177, R186) -/

namespace State

/-- Write the entry of a level for a virtual address, making the tables above it: firmware's own work (R177). Mark: DESIGN CHOICE (log 54). -/
def mapEntry (s : State) (die va : Nat) (e : W64) (stop : Nat) : Nat → Nat → Option State
  | level, t =>
    let ib := levelBits level
    let place := t + 8 * bitsOf va ib.1 ib.2
    if dieSpan ≤ place then none
    else if level ≤ stop then some (s.memWrite die place (w64Bytes e))
    else
      match level with
      | 0 => none
      | l + 1 =>
        let old := s.memW64 die place
        if old.getLsbD 0 && bitsOf old.toNat 52 4 == 0xE then mapEntry s die va e stop l (bitsOf old.toNat 8 44 * 256)
        else
          let n := if l = 0 then 256 else 4096
          match s.fwAlloc die n n with
          | none => none
          | some (p, s) => mapEntry (s.memWrite die place (w64Bytes (BitVec.ofNat 64 (p + 0xE * 2 ^ 52 + 1)))) die va e stop l p

/-- Whether a table has no valid entry. -/
def tableEmpty (s : State) (die level t : Nat) : Bool :=
  (List.range (2 ^ (levelBits level).2)).all fun i => !(s.memW64 die (t + 8 * i)).getLsbD 0

/-- Write an invalid entry over the leaf of a virtual address, and free each table pointer whose table is then empty: firmware's own
work (R177). Mark: DESIGN CHOICE (log 54). -/
def unmapEntry (s : State) (die va : Nat) (e : W64) : Nat → Nat → State
  | level, t =>
    let ib := levelBits level
    let place := t + 8 * bitsOf va ib.1 ib.2
    let old := s.memW64 die place
    if dieSpan ≤ place ∨ !old.getLsbD 0 then s
    else if bitsOf old.toNat 52 4 ≠ 0xE then s.memWrite die place (w64Bytes e)
    else
      match level with
      | 0 => s
      | l + 1 =>
        let below := bitsOf old.toNat 8 44 * 256
        let s := unmapEntry s die va e l below
        if s.tableEmpty die l below then s.memWrite die place (zeros 8) else s

/-- The valid leaves at and below an entry of a level, with the virtual range of each. -/
def leavesBelow (s : State) (die : Nat) : Nat → Nat → W64 → List (Nat × W64)
  | level, va, e =>
    if !e.getLsbD 0 then []
    else if bitsOf e.toNat 52 4 ≠ 0xE then [(va / Leaf.bytes e * Leaf.bytes e, e)]
    else match level with
      | 0 => []
      | l + 1 =>
        let below := bitsOf e.toNat 8 44 * 256
        (List.range (2 ^ (levelBits l).2)).flatMap fun i =>
          leavesBelow s die l (va / tableSpan l * tableSpan l + i * 2 ^ (levelBits l).1) (s.memW64 die (below + 8 * i))

/-- The valid leaves that a write at a virtual address, down to a level, takes the place of. Mark: DESIGN CHOICE (log 54). -/
def leavesAt (s : State) (die va stop : Nat) : Nat → Nat → List (Nat × W64)
  | level, t =>
    let ib := levelBits level
    let e := s.memW64 die (t + 8 * bitsOf va ib.1 ib.2)
    if level ≤ stop then s.leavesBelow die level va e
    else match level with
      | 0 => []
      | l + 1 =>
        if e.getLsbD 0 && bitsOf e.toNat 52 4 == 0xE then leavesAt s die va stop l (bitsOf e.toNat 8 44 * 256)
        else s.leavesBelow die (l + 1) va e

/-- A mode that command 0x02 writes comes into force with an invalidate-only record: until then the MODE and OWNER of the leaves that
stood there are used, those already in force before them (R186). Mark: DESIGN CHOICE (log 54). -/
def keepModes (s : State) (ctx vdie : Nat) (old : List (Nat × W64)) : State :=
  let l := s.modes.getD (spaceKey ctx vdie) []
  let new := (old.map fun e => ({ base := e.1, size := Leaf.bytes e.2, mode := Leaf.mode e.2, owner := Leaf.owner e.2 } : ModeE)).filter fun m => !l.contains m
  if new.isEmpty then s else { s with modes := s.modes.put (spaceKey ctx vdie) (l ++ new) }

/-- One entry of command 0x02: none where it is refused, as an entry is whose frame reaches beyond the HBM or into what firmware has
allocated there (page tables, QID tables, stop areas, spill regions, and the pages of a virtual die that has moved) (R174, R413), and one
that would enter or leave LOCKED, which only a PAGE-MODE record does (R183). Mark: DESIGN CHOICE (log 54). -/
def writePte (s : State) (die ctx vdie : Nat) (x : XRec) (va : Nat) (e : W64) : Option State :=
  let size := bitsOf e.toNat 52 4
  let top := Leaf.frame e + Leaf.bytes e
  let old := s.leavesAt die va (if e.getLsbD 0 then size else 0) 4 x.root
  if 2 ^ 57 ≤ va ∨ old.any (fun l => Leaf.mode l.2 == modeLocked) = true then none
  else if !e.getLsbD 0 then
    if size = 0xE then none else some ((s.unmapEntry die va e 4 x.root).keepModes ctx vdie old)
  else if 2 < size ∨ (s.die die).fwTop < top ∨ dieSpan < top ∨ Leaf.mode e = modeLocked then none
  else
    let d := s.die die
    ((s.setDie die { d with mapTop := max d.mapTop top }).mapEntry die va e size 4 x.root).map fun s => s.keepModes ctx vdie old

/-- Write entries in order up to the first that is refused: how many took effect. Mark: DESIGN CHOICE (log 54). -/
def writePtes (s : State) (die ctx vdie : Nat) (x : XRec) : List (Nat × W64) → Nat × State
  | [] => (0, s)
  | (va, e) :: rest => match s.writePte die ctx vdie x va e with
    | none => (0, s)
    | some s => let r := s.writePtes die ctx vdie x rest; (r.1 + 1, r.2)

end State

/-- WRITE_PAGE_TABLE_ENTRIES (R407, R174, R186). -/
def execWritePageTableEntries (fn : Nat) (s : State) : Res :=
  ctxCommand fn 0x02 0x10 (fun _ => true) (fun m ctx c s =>
    let n := m.arg 0x12 2
    match c.remap.find (m.arg 0x11 1), c.xrecs.find (m.arg 0x11 1) with
    | some die, some x =>
      if c.st == .destroyed || n == 0 || decide (252 < n) then s.endCmd fn stRefused
      else
        let es := (List.range n).map fun i => (leNat (m.pay (0x40 + 16 * i) 8), bytesW64 (m.pay (0x48 + 16 * i) 8))
        let r := s.writePtes die ctx (m.arg 0x11 1) x es
        r.2.doneCmd fn [(0x40, leBytes 2 r.1)]
    | _, _ => s.endCmd fn stRefused) s

/-! ## Queues (R309, R310, R332, R333, R335) -/

/-- CREATE_QUEUE (R407, R332, R333): slot, memory and incarnation are firmware's choice, from what is free; an OP that the table does
not give is REFUSED. Mark: DESIGN CHOICE (log 8), DEDUCED (log 63). -/
def execCreateQueue (fn slot wbase sbase inc : Nat) (s : State) : Res :=
  ctxCommand fn 0x03 0x11 (fun m => m.arg 0x10 1 != 1) (fun m ctx c s =>
    let esize := m.arg 0x13 1
    let lq := bitOf (m.arg 0x14 1) 1
    let log := m.arg 0x15 1
    let window := m.arg 0x16 2
    let run := m.arg 0x2C 1
    let mine := s.launchQs.vals.filter fun x => x.vf == fn
    let windex := mine.foldl (fun n x => max n (x.windex + 1)) 0
    match c.remap.find (m.arg 0x12 1) with
    | none => s.endCmd fn stRefused
    | some die =>
      let size := window * elemSize esize
      let spill := if log = 0xFF then 0 else 2 ^ log * elemSize esize
      if m.arg 0x10 1 ≠ 0 ∨ 7 < esize ∨ window = 0 ∨ (32 < log ∧ log ≠ 0xFF) ∨ (lq ∧ esize ≠ 3) ∨ (lq ∧ (c.remap.find run).isNone)
          ∨ (lq ∧ 512 ≤ (s.launchQs.filter fun x => !x.2.stopped || (s.queues.find x.1).any fun q => q.st != .free).length) ∨ c.st = .destroyed ∨ (s.freeWindow die size).isNone ∨ (s.die die).fwTop < spill then s.endCmd fn stRefused
      else
        let key := quKey die slot
        let used := s.queues.filterMap fun e => if quHome e.1 == die && e.2.st != .free then some (e.2.wbase, e.2.window * elemSize e.2.esize) else none
        let old : Option Queue := s.queues.find key
        let free : Bool := match old with | some q => q.st == .free && q.inc.toNat != inc && (s.launchQs.find key).isNone | none => true
        if 65536 ≤ slot ∨ 65536 ≤ inc ∨ wbase % 64 ≠ 0 ∨ sbase % 64 ≠ 0 ∨ !free ∨ !State.rangeFree used 0x3000000 wbase size
            ∨ (s.die die).fwTop < sbase + spill ∨ (spill ≠ 0 ∧ sbase < (s.die die).mapTop) then s
        else
          let q : Queue := { ctx := ctx, vf := fn, st := .active, esize := esize, conf := bitOf (m.arg 0x14 1) 0, lq := lq, window := window, spilllog := if log = 0xFF then none else some log, wbase := wbase, inc := BitVec.ofNat 16 inc, sbase := sbase, keyp := BitVec.ofNat 48 (m.arg 0x18 6), keyc := if lq then 0 else BitVec.ofNat 48 (m.arg 0x1E 6), keyr := BitVec.ofNat 48 (m.arg 0x24 6), head := 0, tail := 0, rmark := 0, errs := 0, tickets := [], byLaunch := [], takes := [], waiters := [], resetBy := none }
          let s := s.setQueue key q
          let s := if log = 0xFF then s else s.setDie die { s.die die with fwTop := sbase }
          let s := if !lq then s
            else
              let x : LaunchQ := { ctx := ctx, vf := fn, windex := windex, lines := [], expect := 1, consumed := 0, refused := 0, reason := 0, lasttag := 0, errsig := 0, shadows := List.replicate 32 0, pend := 0, timer := none, irqcnt := 0, irqt := 0, vec := 0, run := run, cur := none, stopped := false }
              let s := { s with launchQs := s.launchQs.put key x }
              match c.remap.find run with
              | some d => s.setDie d { s.die d with runList := (s.die d).runList ++ [key] }
              | none => s
          s.doneCmd fn [(0x40, leBytes 2 slot), (0x42, leBytes 2 inc), (0x44, leBytes 4 (if lq then 0x100000 + 0x3000 * windex else 0))]) s

/-- DELETE_QUEUE (R338, R407): a queue that is FREE or RESETTING is not deleted. Mark: DESIGN CHOICE (log 41). -/
def execDeleteQueue (fn : Nat) (s : State) : Res :=
  ctxCommand fn 0x03 0x11 (opForm 1) (fun m ctx c s =>
    match c.remap.find (m.arg 0x12 1) with
    | none => s.endCmd fn stRefused
    | some die =>
      let key := quKey die (c.slotOf (m.arg 0x12 1) (m.arg 0x2A 2))
      match s.queues.find key with
      | none => s.endCmd fn stRefused
      | some q => if q.st == .free || q.st == .resetting || q.ctx != ctx then s.endCmd fn stRefused else (s.dropQueue key).doneCmd fn []) s

/-- Write QID entries in order up to the first that is refused, and drop each from every port: how many took effect. -/
def State.bindEntries (s : State) (ctx die : Nat) (c : Context) (x : XRec) : List (Nat × List Byte) → Nat × State
  | [] => (0, s)
  | (qid, e) :: rest =>
    let pa := x.qtbase + 16 * qid
    if c.qtlen ≤ qid ∨ dieSpan < pa + 16 then (0, s)
    else
      let s := s.memWrite die pa e
      let s := { s with qidCache := s.qidCache.filter fun y => !(y.ctx == ctx && y.die == die && y.qid == qid) }
      let r := s.bindEntries ctx die c x rest
      (r.1 + 1, r.2)

/-- BIND_QIDS (R335, R336, R407). -/
def execBindQids (fn : Nat) (s : State) : Res :=
  ctxCommand fn 0x04 0x10 (fun _ => true) (fun m ctx c s =>
    let n := m.arg 0x12 2
    match c.remap.find (m.arg 0x11 1), c.xrecs.find (m.arg 0x11 1) with
    | some die, some x =>
      if c.st == .destroyed || n == 0 || decide (201 < n) then s.endCmd fn stRefused
      else
        let es := (List.range n).map fun i => (leNat (m.pay (0x40 + 20 * i) 4), m.pay (0x44 + 20 * i) 16)
        let r := s.bindEntries ctx die c x es
        r.2.doneCmd fn [(0x40, leBytes 2 r.1)]
    | _, _ => s.endCmd fn stRefused) s

/-! ## The reset of a core die (R408) -/

namespace State

/-- Contexts with a virtual die bound to a die; a SAVED context has released its units. -/
def boundTo (s : State) (die : Nat) : List Nat :=
  (s.contexts.filter fun e => e.2.st != .saved && e.2.st != .destroyed && e.2.remap.any fun v => v.2 == die).map (·.1)

/-- Step 2: a context halts with fault kind, and the reset is its primary cause; the other dies that have written their stop records
write them again, with DIELOST and REASON 3. Mark: DEDUCED (log 61). -/
def loseDie (s : State) (die ctx : Nat) : State :=
  match s.contexts.find ctx with
  | none => s
  | some c =>
    let v := ((c.remap.find? fun e => e.2 == die).map (·.1)).getD 0
    let h : HaltDie := { cause := none, arrived := some 0, written := true }
    let c := { c with dieLost := true, halts := c.halts.put v h, primary := some (.reset die), reason := 3 }
    let c := if c.st = .halted then c else { c with st := .halting false, lineUp := true }
    let wrote := c.remap.filter fun e => e.2 != die && (haltOf c e.1).written
    wrote.foldl (fun s e => s.writeStop ctx e.1 e.2) { s with contexts := s.contexts.put ctx c }

/-- Steps 1 and 3: the die's logic and SRAM are as after power-on. Fills that have left its port go on (R357, R358). Mark: DEDUCED (log 61). -/
def clearDie (s : State) (die : Nat) : State :=
  let savedCtx (ctx : Nat) : Bool := match s.contexts.find ctx with | some c => c.st == .saved | none => false
  let gids := (s.groups.filter fun e => e.2.die == die && !savedCtx e.2.ctx).map (·.1)
  let wids := (s.warps.filter fun e => gids.contains e.2.group).map (·.1)
  let dead (k : Nat) : Bool := wids.contains (k / 64)
  let deadCore (k : Nat) : Bool := k / 256 == die
  let fills (r : QReq) : Bool := match r.op with | .fill _ _ => r.eop.isNone | _ => false
  let d := s.die die
  let a := d.newAllot.getD d.allot
  -- its queue port and its two HBM controllers
  let units := [512 + die, 520 + 2 * die, 521 + 2 * die]
  let fresh : Die := { Die.reset with allot := a, free := List.range a, mhz := d.mhz, mv := d.mv, fwTop := d.fwTop, mapTop := d.mapTop, inReset := true, lost := (s.boundTo die).length }
  { s with
    igroups := s.igroups.filter fun e => e.2.die != die, prods := s.prods.filter fun e => !dead e.2.thread, monitors := s.monitors.filter fun e => e.2.die != die,
    watches := s.watches.filter fun e => e.2.die != die, engOps := s.engOps.filter fun e => !gids.contains e.2.group, mops := s.mops.filter fun e => !gids.contains e.2.group,
    quOps := s.quOps.filter fun e => !gids.contains e.2.group, tiles := s.tiles.filter fun e => !deadCore (e.1 / 128), cores := s.cores.filter fun e => !deadCore e.1,
    threads := s.threads.filter fun e => !dead e.1, warps := s.warps.filter fun e => !wids.contains e.1, groups := s.groups.filter fun e => !gids.contains e.1,
    nc := s.nc.filter fun e => !deadCore (e.1 / 2 ^ 31), partials := s.partials.filter fun e => !deadCore (e.1 / 2 ^ 30), hreqs := s.hreqs.filter fun e => e.2.die != die,
    pwrites := s.pwrites.filter fun e => e.2.die != die, wbacks := s.wbacks.filter fun e => e.2.die != die, pushes := s.pushes.filter fun e => e.2.die != die,
    asked := s.asked.filter fun e => e.1 % 2 ^ 40 / 2 ^ 30 != die, sampling := s.sampling.filter fun e => e.1 / 256 != die,
    banks := s.banks.filter fun e => !units.contains (e.1 / 257), leases := s.leases.filter fun e => e.1 / 2 ^ 31 != die, holders := s.holders.filter fun e => e.1 / 2 ^ 30 != die, nearTlb := s.nearTlb.filter fun e => !deadCore e.1,
    dieTlb := s.dieTlb.del die, walkCache := s.walkCache.del die, walks := s.walks.filter fun e => e.2.die != die, qidCache := s.qidCache.filter fun e => e.die != die,
    window := cellsClear s.window (die * 2 ^ 26) (2 ^ 26), qreqs := s.qreqs.filter fun r => r.src != die || fills r, cancelled := s.cancelled.filter fun r => !dead r.thread,
    announced := s.announced ++ ((List.range 8).filter (· != die)).map fun h => (h, die), dies := s.dies.put die fresh }

/-- Step 4 for a launch queue's record that names the die: a HOSTCOPY stops and is refused, a PAGE-MODE counts the die as
released. -/
def recordOfDie (s : State) (die : Nat) (e : Nat × LaunchQ) : State :=
  let v := ((s.lqCtx e.2).bind fun c => (c.remap.find? fun x => x.2 == die).map (·.1)).getD 8
  match e.2.cur with
  | some (.hostcopy bs tag copied false) => if CopyRec.vdie bs = v then s.stopCopy e.1 bs tag copied else s
  | some (.pageMode bs old drain release done) =>
    if (PageRec.dies bs).contains v then
      s.updLq e.1 fun x => { x with cur := some (.pageMode bs old (drain.del v) (release.filter (· != v)) (v :: done)) }
    else s
  | _ => s

/-- Step 4: queues homed on the die are FREE, records that name it end there, and no launch that it had part in will increment
its completion signal. Mark: DESIGN CHOICE (log 41), DEDUCED (log 61). -/
def freeQueues (s : State) (die : Nat) : State :=
  let lose (e : Nat × Launch) : Nat × Launch :=
    let v := (s.vdieOf e.2.ctx die).getD 8
    if openLaunch e.2 && (quHome e.2.lq == die || (e.2.start.find v).isSome) then (e.1, { e.2 with lost := true }) else e
  let s := { s with launches := s.launches.map lose }
  let s := s.launchQs.foldl (fun s e => s.recordOfDie die e) s
  let keys := (s.queues.filter fun e => quHome e.1 == die && e.2.st != .free).map (·.1)
  keys.foldl (fun s k => s.dropQueue k) s

/-- A reset of a core die (R408): steps 1 to 5, and its bridge goes DOWN. Mark: DEDUCED (log 61). -/
def resetDie (s : State) (die : Nat) : State :=
  let ctxs := s.boundTo die
  let s := s.clearDie die
  let s := ctxs.foldl (fun s ctx => s.loseDie die ctx) s
  let s := s.freeQueues die
  let b := s.link (512 + die)
  let s := linkEvent (s.setLink (512 + die) { Link.reset with replayed := b.replayed }) (512 + die) 1 false b
  ctxs.foldl (fun s ctx => s.endHalt ctx) s

end State

/-- DIE_RESET (R408): the root core resets a die that reports an error it cannot contain. -/
def execDieReset (die : Nat) (s : State) : Res :=
  if 8 ≤ die ∨ s.boot ≠ .ready then finish s else finish (s.resetDie die)

/-- RESET_CORE_DIE (R408, R407): the first step resets the die; the command ends DONE when its bridge is UP again. Mark: DESIGN CHOICE (log 52). -/
def execResetCoreDie (fn : Nat) (s : State) : Res :=
  command fn 0x0B .pf (fun _ => true) (fun m s =>
    let die := m.arg 0x10 1
    if 8 ≤ die then s.endCmd fn stRefused
    else if m.begun then
      if (s.die die).inReset then s else s.doneCmd fn [(0x40, [byteOf (s.die die).lost])]
    else (s.setMbox fn { m with begun := true }).resetDie die) s

end Sys2Proof.Machine
end

