-- ==== Sys2Proof/Machine/Dispatch.lean ====
section
/-! DEFINITION. The meaning of every constructor of `Instr`, one arm each. -/

namespace Sys2Proof.Machine

def exec (i : Instr) (s : State) : Host.Outcome State Fault Refusal :=
  match i with
  | .nop q => Sys2Proof.Machine.execNop q s
  | .mov q d a wide => Sys2Proof.Machine.execMov q d a wide s
  | .movi q d imm => Sys2Proof.Machine.execMovi q d imm s
  | .movk q d imm => Sys2Proof.Machine.execMovk q d imm s
  | .iadd q d a b sat => Sys2Proof.Machine.execIadd q d a b sat s
  | .isub q d a b sat => Sys2Proof.Machine.execIsub q d a b sat s
  | .iaddi q d a imm => Sys2Proof.Machine.execIaddi q d a imm s
  | .imul q d a b => Sys2Proof.Machine.execImul q d a b s
  | .imulh q d a b ty => Sys2Proof.Machine.execImulh q d a b ty s
  | .imad q d a b c => Sys2Proof.Machine.execImad q d a b c s
  | .imadw q d a b c ty => Sys2Proof.Machine.execImadw q d a b c ty s
  | .idiv q d a b uns => Sys2Proof.Machine.execIdiv q d a b uns s
  | .irem q d a b uns => Sys2Proof.Machine.execIrem q d a b uns s
  | .imin q d a b uns => Sys2Proof.Machine.execImin q d a b uns s
  | .imax q d a b uns => Sys2Proof.Machine.execImax q d a b uns s
  | .iabs q d a sat => Sys2Proof.Machine.execIabs q d a sat s
  | .ineg q d a sat => Sys2Proof.Machine.execIneg q d a sat s
  | .shl q d a b => Sys2Proof.Machine.execShl q d a b s
  | .shr q d a b ar => Sys2Proof.Machine.execShr q d a b ar s
  | .rot q d a b right => Sys2Proof.Machine.execRot q d a b right s
  | .iadd64 q d a b => Sys2Proof.Machine.execIadd64 q d a b s
  | .isub64 q d a b => Sys2Proof.Machine.execIsub64 q d a b s
  | .shl64 q d a b => Sys2Proof.Machine.execShl64 q d a b s
  | .shr64 q d a b ar => Sys2Proof.Machine.execShr64 q d a b ar s
  | .lop3 q d a b c lut => Sys2Proof.Machine.execLop3 q d a b c lut s
  | .bfx q d a b sx => Sys2Proof.Machine.execBfx q d a b sx s
  | .bfi q d a b c => Sys2Proof.Machine.execBfi q d a b c s
  | .brev q d a => Sys2Proof.Machine.execBrev q d a s
  | .popc q d a => Sys2Proof.Machine.execPopc q d a s
  | .clz q d a => Sys2Proof.Machine.execClz q d a s
  | .ctz q d a => Sys2Proof.Machine.execCtz q d a s
  | .prmt q d a b c => Sys2Proof.Machine.execPrmt q d a b c s
  | .icmp q pd pq a b cc uns w64 => Sys2Proof.Machine.execIcmp q pd pq a b cc uns w64 s
  | .icmpi q pd pq a imm cc uns w64 => Sys2Proof.Machine.execIcmpi q pd pq a imm cc uns w64 s
  | .fcmp q pd pq a b cc => Sys2Proof.Machine.execFcmp q pd pq a b cc s
  | .hcmp2 q plo phi a b cc bf => Sys2Proof.Machine.execHcmp2 q plo phi a b cc bf s
  | .plop3 q pd pq pa pb pc lut => Sys2Proof.Machine.execPlop3 q pd pq pa pb pc lut s
  | .sel q d a b ps ns wide => Sys2Proof.Machine.execSel q d a b ps ns wide s
  | .ptog q d => Sys2Proof.Machine.execPtog q d s
  | .gtop q a b => Sys2Proof.Machine.execGtop q a b s
  | .fadd q d a b rm na nb sat => Sys2Proof.Machine.execFadd q d a b rm na nb sat s
  | .fsub q d a b rm na nb sat => Sys2Proof.Machine.execFsub q d a b rm na nb sat s
  | .fmul q d a b rm na nb sat => Sys2Proof.Machine.execFmul q d a b rm na nb sat s
  | .ffma q d a b c rm np nc sat => Sys2Proof.Machine.execFfma q d a b c rm np nc sat s
  | .fmin q d a b => Sys2Proof.Machine.execFmin q d a b s
  | .fmax q d a b => Sys2Proof.Machine.execFmax q d a b s
  | .fclass q d a fmt => Sys2Proof.Machine.execFclass q d a fmt s
  | .fscale q d a b rm => Sys2Proof.Machine.execFscale q d a b rm s
  | .frnd q d a rm exact => Sys2Proof.Machine.execFrnd q d a rm exact s
  | .f2i q d a rm ty => Sys2Proof.Machine.execF2i q d a rm ty s
  | .i2f q d a rm ty => Sys2Proof.Machine.execI2f q d a rm ty s
  | .hadd2 q d a b rm bf nb => Sys2Proof.Machine.execHadd2 q d a b rm bf nb s
  | .hmul2 q d a b rm bf nb => Sys2Proof.Machine.execHmul2 q d a b rm bf nb s
  | .hfma2 q d a b c rm bf nb nc => Sys2Proof.Machine.execHfma2 q d a b c rm bf nb nc s
  | .hmin2 q d a b bf => Sys2Proof.Machine.execHmin2 q d a b bf s
  | .hmax2 q d a b bf => Sys2Proof.Machine.execHmax2 q d a b bf s
  | .hdot2 q d a b c rm bf => Sys2Proof.Machine.execHdot2 q d a b c rm bf s
  | .cvt q d a srcF dstF rm elt => Sys2Proof.Machine.execCvt q d a srcF dstF rm elt s
  | .cvtpk q d a b rm bf => Sys2Proof.Machine.execCvtpk q d a b rm bf s
  | .cvtx4 q d a narrow i8 bf => Sys2Proof.Machine.execCvtx4 q d a narrow i8 bf s
  | .qdt q d a b c dt6 => Sys2Proof.Machine.execQdt q d a b c dt6 s
  | .dqdt q d a b dt6 bf rm => Sys2Proof.Machine.execDqdt q d a b dt6 bf rm s
  | .rcp q d a => Sys2Proof.Machine.execRcp q d a s
  | .rsq q d a => Sys2Proof.Machine.execRsq q d a s
  | .sqrt q d a => Sys2Proof.Machine.execSqrt q d a s
  | .ex2 q d a => Sys2Proof.Machine.execEx2 q d a s
  | .lg2 q d a => Sys2Proof.Machine.execLg2 q d a s
  | .sint q d a => Sys2Proof.Machine.execSint q d a s
  | .cost q d a => Sys2Proof.Machine.execCost q d a s
  | .phadd q d a b pk => Sys2Proof.Machine.execPhadd q d a b pk s
  | .phsub q d a b pk => Sys2Proof.Machine.execPhsub q d a b pk s
  | .phcmp q pp po a b => Sys2Proof.Machine.execPhcmp q pp po a b s
  | .phfrom q d a rm => Sys2Proof.Machine.execPhfrom q d a rm s
  | .phsc q d a => Sys2Proof.Machine.execPhsc q d a s
  | .phcoh q d a b c => Sys2Proof.Machine.execPhcoh q d a b c s
  | .bra q imm => Sys2Proof.Machine.execBra q imm s
  | .brx q a => Sys2Proof.Machine.execBrx q a s
  | .call q d imm => Sys2Proof.Machine.execCall q d imm s
  | .callx q d a => Sys2Proof.Machine.execCallx q d a s
  | .ret q a => Sys2Proof.Machine.execRet q a s
  | .exit q => Sys2Proof.Machine.execExit q s
  | .spawn q a b c npay => Sys2Proof.Machine.execSpawn q a b c npay s
  | .wconv q => Sys2Proof.Machine.execWconv q s
  | .yield q dly => Sys2Proof.Machine.execYield q dly s
  | .shfl q d a b c mode pv => Sys2Proof.Machine.execShfl q d a b c mode pv s
  | .vote q d ps ns mode => Sys2Proof.Machine.execVote q d ps ns mode s
  | .wred q d a fn => Sys2Proof.Machine.execWred q d a fn s
  | .wscan q d a fn excl => Sys2Proof.Machine.execWscan q d a fn excl s
  | .wmatch q d a wide mode => Sys2Proof.Machine.execWmatch q d a wide mode s
  | .wlive q d => Sys2Proof.Machine.execWlive q d s
  | .ld q d a imm sz lease acq => Sys2Proof.Machine.execLd q d a imm sz lease acq s
  | .st q d a imm sz rel => Sys2Proof.Machine.execSt q d a imm sz rel s
  | .ldx q d a b sz lease acq sc => Sys2Proof.Machine.execLdx q d a b sz lease acq sc s
  | .stx q d a b sz rel sc => Sys2Proof.Machine.execStx q d a b sz rel sc s
  | .lds q d a imm sz tag tt => Sys2Proof.Machine.execLds q d a imm sz tag tt s
  | .sts q d a imm sz tag tt => Sys2Proof.Machine.execSts q d a imm sz tag tt s
  | .pfl q a imm lease lvl => Sys2Proof.Machine.execPfl q a imm lease lvl s
  | .atom q d a b fn w64 ord => Sys2Proof.Machine.execAtom q d a b fn w64 ord s
  | .acas q d a b c w64 ord => Sys2Proof.Machine.execAcas q d a b c w64 ord s
  | .red q a b fn w64 ordered scope => Sys2Proof.Machine.execRed q a b fn w64 ordered scope s
  | .fence q kind scope => Sys2Proof.Machine.execFence q kind scope s
  | .cwb q a b all => Sys2Proof.Machine.execCwb q a b all s
  | .cinv q a b all => Sys2Proof.Machine.execCinv q a b all s
  | .tagset q a b full => Sys2Proof.Machine.execTagset q a b full s
  | .tagrd q d a => Sys2Proof.Machine.execTagrd q d a s
  | .awinit q a b clr => Sys2Proof.Machine.execAwinit q a b clr s
  | .awadd q a b => Sys2Proof.Machine.execAwadd q a b s
  | .await q d a b => Sys2Proof.Machine.execAwait q d a b s
  | .cpy q d a b c dir => Sys2Proof.Machine.execCpy q d a b c dir s
  | .cpyn q d a b c dir => Sys2Proof.Machine.execCpyn q d a b c dir s
  | .cpyx q d a b c sp => Sys2Proof.Machine.execCpyx q d a b c sp s
  | .cpyp q d a b c sp => Sys2Proof.Machine.execCpyp q d a b c sp s
  | .gath q d a b c esz => Sys2Proof.Machine.execGath q d a b c esz s
  | .scat q d a b c esz => Sys2Proof.Machine.execScat q d a b c esz s
  | .cvsign q d a cv wait => Sys2Proof.Machine.execCvsign q d a cv wait s
  | .cvwait q a cv => Sys2Proof.Machine.execCvwait q a cv s
  | .cvrst q cv => Sys2Proof.Machine.execCvrst q cv s
  | .waitc q cp mx qu gs => Sys2Proof.Machine.execWaitc q cp mx qu gs s
  | .mwait q a b c w64 acq => Sys2Proof.Machine.execMwait q a b c w64 acq s
  | .park q a => Sys2Proof.Machine.execPark q a s
  | .thal q d a b sf ps => Sys2Proof.Machine.execThal q d a b sf ps s
  | .threl q a => Sys2Proof.Machine.execThrel q a s
  | .thgive q a b => Sys2Proof.Machine.execThgive q a b s
  | .thinfo q d a => Sys2Proof.Machine.execThinfo q d a s
  | .cpyt q d a b sp => Sys2Proof.Machine.execCpyt q d a b sp s
  | .thst q d a b sp => Sys2Proof.Machine.execThst q d a b sp s
  | .accz q a b => Sys2Proof.Machine.execAccz q a b s
  | .accld q d a b c sp => Sys2Proof.Machine.execAccld q d a b c sp s
  | .accst q d a b c sp clr => Sys2Proof.Machine.execAccst q d a b c sp clr s
  | .accrd q d a n => Sys2Proof.Machine.execAccrd q d a n s
  | .mma q cv a b c af => Sys2Proof.Machine.execMma q cv a b c af s
  | .mmal q cv a b c af ks => Sys2Proof.Machine.execMmal q cv a b c af ks s
  | .phmma q cv a b c conj => Sys2Proof.Machine.execPhmma q cv a b c conj s
  | .phfin q d a b c clr => Sys2Proof.Machine.execPhfin q d a b c clr s
  | .qnt q d a b c fmt bl ci clr => Sys2Proof.Machine.execQnt q d a b c fmt bl ci clr s
  | .qopen q d a sf ps => Sys2Proof.Machine.execQopen q d a sf ps s
  | .qrsv q d a b sf ps => Sys2Proof.Machine.execQrsv q d a b sf ps s
  | .qput q d a b rel len sf ps => Sys2Proof.Machine.execQput q d a b rel len sf ps s
  | .qputs q d a b c rel sf ps => Sys2Proof.Machine.execQputs q d a b c rel sf ps s
  | .qtake q d a acq len sf ps => Sys2Proof.Machine.execQtake q d a acq len sf ps s
  | .qtakes q d a b c acq sf ps => Sys2Proof.Machine.execQtakes q d a b c acq sf ps s
  | .qpeek q d a sf ps => Sys2Proof.Machine.execQpeek q d a sf ps s
  | .qwait q a sf ps => Sys2Proof.Machine.execQwait q a sf ps s
  | .qreset q a sf ps => Sys2Proof.Machine.execQreset q a sf ps s
  | .qclose q a sf ps => Sys2Proof.Machine.execQclose q a sf ps s
  | .launch q a b sf ps => Sys2Proof.Machine.execLaunch q a b sf ps s
  | .signal q a b fn w64 sf ps => Sys2Proof.Machine.execSignal q a b fn w64 sf ps s
  | .trap q code => Sys2Proof.Machine.execTrap q code s
  | .rth q => Sys2Proof.Machine.execRth q s
  | .sread q d reg => Sys2Proof.Machine.execSread q d reg s
  | .swrite q reg a => Sys2Proof.Machine.execSwrite q reg a s
  | .yieldpt q map => Sys2Proof.Machine.execYieldpt q map s
  | .bkpt q code => Sys2Proof.Machine.execBkpt q code s
  | .ecall q d a svc => Sys2Proof.Machine.execEcall q d a svc s
  | .issueGroup die core members => Sys2Proof.Machine.execIssueGroup die core members s
  | .longLatencyWriteback prod => Sys2Proof.Machine.execLongLatencyWriteback prod s
  | .yieldDelayEnd thread => Sys2Proof.Machine.execYieldDelayEnd thread s
  | .convstall warp => Sys2Proof.Machine.execConvstall warp s
  | .waystationTimer die core slot => Sys2Proof.Machine.execWaystationTimer die core slot s
  | .waystationLaunch die core slot => Sys2Proof.Machine.execWaystationLaunch die core slot s
  | .warpRetire warp => Sys2Proof.Machine.execWarpRetire warp s
  | .tlbWalk walk => Sys2Proof.Machine.execTlbWalk walk s
  | .hLoadMiss req => Sys2Proof.Machine.execHLoadMiss req s
  | .hWriteAccept req => Sys2Proof.Machine.execHWriteAccept req s
  | .hWritePerform wr => Sys2Proof.Machine.execHWritePerform wr s
  | .recallAnswer die line core => Sys2Proof.Machine.execRecallAnswer die line core s
  | .partialCombine push => Sys2Proof.Machine.execPartialCombine push s
  | .partialPushDeadline die core line => Sys2Proof.Machine.execPartialPushDeadline die core line s
  | .nearCacheEvict die core sector => Sys2Proof.Machine.execNearCacheEvict die core sector s
  | .writeBackAccept wb => Sys2Proof.Machine.execWriteBackAccept wb s
  | .engineStart die core => Sys2Proof.Machine.execEngineStart die core s
  | .engineChunk op transfer block => Sys2Proof.Machine.execEngineChunk op transfer block s
  | .engineComplete op => Sys2Proof.Machine.execEngineComplete op s
  | .matrixStart die core => Sys2Proof.Machine.execMatrixStart die core s
  | .matrixComplete die core => Sys2Proof.Machine.execMatrixComplete die core s
  | .tokenCapture die cluster => Sys2Proof.Machine.execTokenCapture die cluster s
  | .tokenRelease die cluster => Sys2Proof.Machine.execTokenRelease die cluster s
  | .tokenForcedRelease die cluster => Sys2Proof.Machine.execTokenForcedRelease die cluster s
  | .groupPlace die core spadBase accBase => Sys2Proof.Machine.execGroupPlace die core spadBase accBase s
  | .parking group => Sys2Proof.Machine.execParking group s
  | .parkSaveDone group => Sys2Proof.Machine.execParkSaveDone group s
  | .watchTimerFire watch => Sys2Proof.Machine.execWatchTimerFire watch s
  | .mwaitTimeout thread => Sys2Proof.Machine.execMwaitTimeout thread s
  | .parkDelayEnd thread => Sys2Proof.Machine.execParkDelayEnd thread s
  | .relaunch die spadBase accBase => Sys2Proof.Machine.execRelaunch die spadBase accBase s
  | .groupRetire group => Sys2Proof.Machine.execGroupRetire group s
  | .csigIncrement launch => Sys2Proof.Machine.execCsigIncrement launch s
  | .irqTimer lq => Sys2Proof.Machine.execIrqTimer lq s
  | .lineMonitorParse lq => Sys2Proof.Machine.execLineMonitorParse lq s
  | .deltaLaunch lq => Sys2Proof.Machine.execDeltaLaunch lq s
  | .fenceRecord lq => Sys2Proof.Machine.execFenceRecord lq s
  | .fenceRecordMet lq => Sys2Proof.Machine.execFenceRecordMet lq s
  | .signalWrite lq => Sys2Proof.Machine.execSignalWrite lq s
  | .queuePriority lq => Sys2Proof.Machine.execQueuePriority lq s
  | .nopRecord lq => Sys2Proof.Machine.execNopRecord lq s
  | .pageMode lq => Sys2Proof.Machine.execPageMode lq s
  | .pageInvalidate lq => Sys2Proof.Machine.execPageInvalidate lq s
  | .pageModeDrainEnd lq vdie => Sys2Proof.Machine.execPageModeDrainEnd lq vdie s
  | .pageModeRelease lq vdie => Sys2Proof.Machine.execPageModeRelease lq vdie s
  | .pageModeSignal lq => Sys2Proof.Machine.execPageModeSignal lq s
  | .hostcopy lq start count hostError => Sys2Proof.Machine.execHostcopy lq start count hostError s
  | .hostcopyEnd lq => Sys2Proof.Machine.execHostcopyEnd lq s
  | .queueSteal thief lq => Sys2Proof.Machine.execQueueSteal thief lq s
  | .homeOpen home src => Sys2Proof.Machine.execHomeOpen home src s
  | .homeReserve home src => Sys2Proof.Machine.execHomeReserve home src s
  | .homeFill home src => Sys2Proof.Machine.execHomeFill home src s
  | .homeTake home src => Sys2Proof.Machine.execHomeTake home src s
  | .homePeek home src => Sys2Proof.Machine.execHomePeek home src s
  | .homeWait home src => Sys2Proof.Machine.execHomeWait home src s
  | .homeReset home src => Sys2Proof.Machine.execHomeReset home src s
  | .homeClose home src => Sys2Proof.Machine.execHomeClose home src s
  | .queueAnswer ans => Sys2Proof.Machine.execQueueAnswer ans s
  | .dieResetAnnounce home die => Sys2Proof.Machine.execDieResetAnnounce home die s
  | .signalApply vf die => Sys2Proof.Machine.execSignalApply vf die s
  | .ecallServe vf die host => Sys2Proof.Machine.execEcallServe vf die host s
  | .ecallAnswer ans => Sys2Proof.Machine.execEcallAnswer ans s
  | .haltLineArrival ctx vdie finish => Sys2Proof.Machine.execHaltLineArrival ctx vdie finish s
  | .stopRecords ctx vdie => Sys2Proof.Machine.execStopRecords ctx vdie s
  | .preemptionRequest ctx => Sys2Proof.Machine.execPreemptionRequest ctx s
  | .preemptionDeadline ctx => Sys2Proof.Machine.execPreemptionDeadline ctx s
  | .groupSaveByMaps group => Sys2Proof.Machine.execGroupSaveByMaps group s
  | .sliceEnd vf => Sys2Proof.Machine.execSliceEnd vf s
  | .dataFlit link bytes => Sys2Proof.Machine.execDataFlit link bytes s
  | .nak link bytes => Sys2Proof.Machine.execNak link bytes s
  | .replayTimeout link => Sys2Proof.Machine.execReplayTimeout link s
  | .nakHoldoffEnd link => Sys2Proof.Machine.execNakHoldoffEnd link s
  | .controlFlitRepeat link => Sys2Proof.Machine.execControlFlitRepeat link s
  | .idle link bytes => Sys2Proof.Machine.execIdle link bytes s
  | .marker link bytes => Sys2Proof.Machine.execMarker link bytes s
  | .stompedFlit link bytes => Sys2Proof.Machine.execStompedFlit link bytes s
  | .reservedFlit link bytes => Sys2Proof.Machine.execReservedFlit link bytes s
  | .headerCheckFail ingress egress bytes => Sys2Proof.Machine.execHeaderCheckFail ingress egress bytes s
  | .lossOfLight link mask => Sys2Proof.Machine.execLossOfLight link mask s
  | .loss link bytes => Sys2Proof.Machine.execLoss link bytes s
  | .errorRateThreshold link wave rate => Sys2Proof.Machine.execErrorRateThreshold link wave rate s
  | .retrain link bytes => Sys2Proof.Machine.execRetrain link bytes s
  | .retrainTimeout link => Sys2Proof.Machine.execRetrainTimeout link s
  | .lpr link bytes => Sys2Proof.Machine.execLpr link bytes s
  | .trainingTimeout link => Sys2Proof.Machine.execTrainingTimeout link s
  | .linkEnable link => Sys2Proof.Machine.execLinkEnable link s
  | .linkDisable link => Sys2Proof.Machine.execLinkDisable link s
  | .sampleInterval die ctx pick lanePick lat => Sys2Proof.Machine.execSampleInterval die ctx pick lanePick lat s
  | .marginPlan unit reason fnew vnew budget => Sys2Proof.Machine.execMarginPlan unit reason fnew vnew budget s
  | .thermalTrip die fnew vnew => Sys2Proof.Machine.execThermalTrip die fnew vnew s
  | .dieReset die => Sys2Proof.Machine.execDieReset die s
  | .powerOn tests spares => Sys2Proof.Machine.execPowerOn tests spares s
  | .hostWindowWrite lq offset bytes => Sys2Proof.Machine.execHostWindowWrite lq offset bytes s
  | .hostSignalWrite vf word value => Sys2Proof.Machine.execHostSignalWrite vf word value s
  | .hostRegisterWrite fn offset bytes => Sys2Proof.Machine.execHostRegisterWrite fn offset bytes s
  | .createContext fn dies cores => Sys2Proof.Machine.execCreateContext fn dies cores s
  | .destroyContext fn => Sys2Proof.Machine.execDestroyContext fn s
  | .haltRequest fn => Sys2Proof.Machine.execHaltRequest fn s
  | .saveContext fn => Sys2Proof.Machine.execSaveContext fn s
  | .resumeContext fn dies cores => Sys2Proof.Machine.execResumeContext fn dies cores s
  | .writePageTableEntries fn => Sys2Proof.Machine.execWritePageTableEntries fn s
  | .createQueue fn slot wbase sbase inc => Sys2Proof.Machine.execCreateQueue fn slot wbase sbase inc s
  | .deleteQueue fn => Sys2Proof.Machine.execDeleteQueue fn s
  | .bindQids fn => Sys2Proof.Machine.execBindQids fn s
  | .readHarvestMap fn => Sys2Proof.Machine.execReadHarvestMap fn s
  | .readEventRing fn => Sys2Proof.Machine.execReadEventRing fn s
  | .readEcallLog fn => Sys2Proof.Machine.execReadEcallLog fn s
  | .readSampleBuffer fn => Sys2Proof.Machine.execReadSampleBuffer fn s
  | .readEnergyBanks fn => Sys2Proof.Machine.execReadEnergyBanks fn s
  | .attest fn => Sys2Proof.Machine.execAttest fn s
  | .writeFirmwareImage fn => Sys2Proof.Machine.execWriteFirmwareImage fn s
  | .setPowerLimit fn => Sys2Proof.Machine.execSetPowerLimit fn s
  | .freeze fn => Sys2Proof.Machine.execFreeze fn s
  | .resetCoreDie fn => Sys2Proof.Machine.execResetCoreDie fn s
  | .spuriousWakeup thread => Sys2Proof.Machine.execSpuriousWakeup thread s
  | .lightRestored link mask => Sys2Proof.Machine.execLightRestored link mask s
  | .trainingEnd link trained => Sys2Proof.Machine.execTrainingEnd link trained s
  | .reservedTypeRecord lq => Sys2Proof.Machine.execReservedTypeRecord lq s
  | .unassignedCommand fn => Sys2Proof.Machine.execUnassignedCommand fn s

end Sys2Proof.Machine
end

