-- ==== Sys2Proof/Machine/Turn.lean ====
section
/-! DEFINITION. Whose turn it is: the clocks, the fetch path, the issue groups, and the steps of the device, firmware
and the host, in the order that the agenda gives. -/

namespace Sys2Proof.Machine

/-! ## Die time and clk -/

/-- Die time advances by one dt, in which the HBM controllers charge their refresh bursts to the shared bank (R401); home then performs
the writes whose W has come, in the order of W (R191, R196). Mark: DESIGN CHOICE (log 1), DEDUCED (log 66). -/
def tickDie (s : State) (die : Nat) : State :=
  let d := s.die die
  let s := s.setDie die { d with dt := d.dt + 1 }
  let s := [0, 1].foldl (fun s c => s.chargeBank (520 + 2 * die + c) 256 2 (Config.refreshBursts die c (d.dt + 1))) s
  let due := s.pwrites.filter fun e => e.2.die == die && decide (e.2.w ≤ d.dt + 1)
  let turns := (sortBy (fun a b => decide (a.2.w ≤ b.2.w)) due).map fun e => Turn.act (.hWritePerform e.1)
  ({ s with agenda := turns ++ s.agenda }).wakeMemory

/-- One clk of a core for one launch: BUSY or IDLE of the phase (R302). -/
def countPhase (vcore : Nat) (busy : Bool) (now : Nat) (v : Nat) (l : Launch) : Launch :=
  match l.start.find v with
  | none => l
  | some t0 =>
    let j := min 15 (((now : Int) - t0).toNat / 2 ^ 20)
    let key := (v * 128 + vcore) * 16 + j
    let x := l.phases.getD key (0, 0)
    let x := if busy then (x.1 + 1, x.2) else (x.1, x.2 + 1)
    { l with phases := l.phases.put key x }

/-- One clk of a core for every launch that has begun and not ended on its die. Mark: DEDUCED (log 34). -/
def countPhases (s : State) (die core : Nat) : State :=
  let issued := (s.core die core).issuedNow
  let now := s.now die
  let one (e : Nat × Launch) : Nat × Launch :=
    let l := e.2
    match s.vdieOf l.ctx die with
    | none => e
    | some v => match s.vcoreOf l.ctx v core with
      | none => e
      | some vc => if openLaunch l && !l.reported.contains v then (e.1, countPhase vc (issued.contains e.1) now v l) else e
  { s with launches := s.launches.map one }

/-- TOKWAIT counts a clk in which an operation of the warp is at the head of its engine queue and the cluster holds no
token (R295). -/
def countTokwait (s : State) (die core : Nat) : State :=
  match s.queued die core with
  | (_, o) :: _ =>
    if (s.cluster die (s.clusterOf die core)).held then s
    else s.updWarp o.warp fun w => { w with tokwait := w.tokwait + 1 }
  | [] => s

/-- The clk of a core advances by one. Partials of die scope that have been open for 1,024 clk go home (R215).
Mark: DESIGN CHOICE (log 1), DEDUCED (log 66). -/
def tickCore (s : State) (die core : Nat) : State :=
  let s := countTokwait (countPhases s die core) die core
  let c := s.core die core
  let s := s.setCore die core { c with clk := c.clk + 1, issuedNow := [], cvLane := none }
  let due := s.partials.filter fun e => e.1 / 2 ^ 30 == coreKey die core && e.2.dieScope && decide (e.2.opened + 1024 ≤ c.clk + 1)
  let s := s.warps.keys.foldl (fun s wid => s.tickPoint die core wid) s
  let late := (s.stalledWarps die core).map fun wid => Turn.act (.convstall wid)
  { s with agenda := (due.map fun e => Turn.act (.partialPushDeadline die core (e.1 % 2 ^ 30))) ++ late ++ s.agenda }

/-- The hub clock advances by one hclk. Mark: DEDUCED (log 66). -/
def tickHub (s : State) : State := { s with hclk := s.hclk + 1 }

/-! ## The token ring (R293, R294) -/

/-- A changed allotment takes effect when the ring passes cluster 0: the tokens that a raise adds wait to enter the ring (R30,
R293). Mark: DESIGN CHOICE (log 30). -/
def newAllotment (s : State) (die : Nat) : State :=
  let d := s.die die
  match d.newAllot with
  | none => s
  | some a => if d.ringAt ≠ 0 then s else s.setDie die { d with allot := a, newAllot := none, entering := d.entering + (a - s.tokens die) }

/-- The ring's tokens after one clk: the free ones, and those just released, stand one cluster on, and one that enters stands at
cluster 0. Mark: DESIGN CHOICE (log 30). -/
def moveTokens (d : Die) : Die :=
  let free := (d.free ++ d.leaving).map fun c => (c + 1) % 16
  let d := { d with leaving := [], ringAt := (d.ringAt + 1) % 16 }
  if d.entering = 0 then { d with free := free } else { d with free := free ++ [0], entering := d.entering - 1 }

/-- One clk of a cluster that holds a token. -/
def countCluster (s : State) (die cl : Nat) : State :=
  let c := s.cluster die cl
  if !c.held then s
  else
    let works := s.clusterQueued die cl || s.clusterRuns die cl
    s.setCluster die cl { c with idleFor := if works then 0 else c.idleFor + 1, heldFor := c.heldFor + 1 }

/-- One clk of a die's token ring: clusters that must release their token do so, and clusters that wait capture what
reaches them. Mark: DESIGN CHOICE (log 1). -/
def tickRing (s : State) (die : Nat) : State :=
  let s := newAllotment (s.setDie die (moveTokens (s.die die))) die
  let s := (List.range 16).foldl (fun s cl => countCluster s die cl) s
  let capture (cl : Nat) : Bool := s.clusterWaits die cl && (s.die die).free.contains cl
  let turns := (List.range 16).flatMap fun cl =>
    if capture cl then [Turn.act (.tokenCapture die cl)]
    else if (s.cluster die cl).held then [Turn.act (.tokenRelease die cl), Turn.act (.tokenForcedRelease die cl)]
    else []
  { s with agenda := turns ++ s.agenda }

/-! ## Turns -/

/-- The fetch path drops a line (R69). Mark: DEDUCED (log 26). -/
def dropLine (s : State) (die core line : Nat) : State :=
  let c := s.core die core
  s.setCore die core { c with lines := c.lines.del line }

/-- The turn that a frozen package still takes: the package reset, which ends the freeze (R402). Mark: DEDUCED (log 62). -/
def endsFreeze : Turn → Bool
  | .act (.powerOn _ _) => true
  | _ => false

/-- An instruction that makes requests of convergence registers (R244). Mark: DESIGN CHOICE (log 74). -/
def asksCv : Instr → Bool
  | .cvsign .. => true
  | .cvwait .. => true
  | .cvrst .. => true
  | .mma .. => true
  | .mmal .. => true
  | .phmma .. => true
  | _ => false

/-- The physical lanes of an issue group. Mark: DESIGN CHOICE (log 74). -/
def groupLanes (s : State) (ig : IGroup) : List Nat := (ig.members.filterMap s.self).map Self.physLane

/-- The slot of an issue group. The requests that a core makes of its convergence registers in one clk are taken by ascending
lane (R244): a group whose lowest lane comes before that of one already served issues its slot in the next clk. Mark: DESIGN CHOICE (log 74). -/
def groupTurn (s : State) (id : Nat) : Turned :=
  match slotTurn s id with
  | .to t => .to t
  | .exec i t =>
    if !asksCv i then .exec i t
    else match s.igroups.find id with
      | none => .exec i t
      | some ig =>
        let low := (groupLanes s ig).min?
        let co := t.core ig.die ig.core
        if co.cvLane.any fun l => low.any fun x => decide (x < l) then .to (tickCore s ig.die ig.core)
        else .exec i (t.setCore ig.die ig.core { co with cvLane := low })

/-- One turn; a frozen package takes none but its reset (R402). Mark: DESIGN CHOICE (log 1), DEDUCED (log 62). -/
def takeTurn (s : State) (t : Turn) : Turned :=
  if s.frozen && !endsFreeze t then .to s
  else match t with
    | .tickDie d => .to (tickDie s d)
    | .tickCore d c => .to (tickCore s d c)
    | .tickRing d => .to (tickRing s d)
    | .tickHub => .to (tickHub s)
    | .flit n => .to (if n < linkCount then s.fillLink n else s)
    | .slot ig => groupTurn s ig
    | .dropLine d c l => .to (dropLine s d c l)
    | .act i => .exec i s

/-- The next turn: the head of the agenda; with an empty agenda, the next slot of the first issue group; with none,
hub time passes. Mark: DESIGN CHOICE (log 1), DEDUCED (log 24). -/
def nextTurn (s : State) : Turned :=
  match s.agenda with
  | t :: ts => takeTurn { s with agenda := ts } t
  | [] => match s.igroups with
    | (id, _) :: _ => takeTurn s (.slot id)
    | [] => takeTurn s .tickHub

end Sys2Proof.Machine
end

