-- ==== Sys2Proof/Machine/Step.lean ====
section
/-! DEFINITION. One step of the machine, and the state that makes a given word the next instruction. -/

namespace Sys2Proof.Machine

/-- One step: the next turn, and the instruction that it gives. -/
def step (s : State) : Host.Outcome State Fault Refusal :=
  match nextTurn s with
  | .exec i t => exec i t
  | .to t => finish t

/-! ## A word as the next instruction

A program comes to run by a launch: firmware creates a context and a launch queue, the host writes a launch record, the die
scheduler places a group, warps launch, and an issue group reaches the clause. What follows stands for all of that: one
context on core 0 of die 0, a page of 1 GiB at address 0, a launch with one warp of which one thread is left, and a clause of one
slot whose header it has passed. -/

/-- The address of the clause's header. -/
def probeHdr : Nat := 0x10000
/-- The tables of the walk (R175), one for each of levels 4, 3 and 2. -/
def probeRoot : Nat := 0x40000000
/-- The launch parameters (R315): 192 registers, 16 lanes, every class, a group of 16 threads, 1 MiB of scratchpad,
1,536 rows and 16 handles. Mark: DESIGN CHOICE (log 71). -/
def probeLs : List W32 :=
  [BitVec.ofNat 32 probeHdr, 0, 0, 0, 4, 0x1100, 16, 1, 1, 1, 1, 1, 0x7B0, 1048576, 0x100600] ++ List.replicate 17 0

/-- The launch. Mark: DESIGN CHOICE (log 4). -/
def probeLaunch : Launch :=
  { lq := 0, ctx := 0, vf := 0, ls := probeLs, st := .active, prio := 0, lead := 0, tag := 0, order := 0, lost := false, next := [(0, 1)], retired := [], start := [(0, 0)], reported := [], phases := [], used := [0] }

/-- The context: virtual die 0 is die 0, virtual core 0 is core 0. Mark: DESIGN CHOICE (log 4). -/
def probeContext : Context :=
  { vf := 0, st := .running, vpkg := 0, qtlen := 0, stoplen := 0, sigbase := 0, sigwords := 0, remap := [(0, 0)], slots := [], cores := [(0, 0, 0)], xrecs := [(0, { root := probeRoot, qtbase := 0, stopbase := 0 })], halts := [], primary := none, reason := 0, lineUp := false, preempt := none, preDies := [], weights := [], dieLost := false, overflow := false }

/-- The group, resident. Mark: DESIGN CHOICE (log 4). -/
def probeGroup (lid : Nat) : Group :=
  { launch := lid, ctx := 0, key := 0, die := 0, vdie := 0, core := 0, vcore := 0, num := 0, st := .resident, ks := List.replicate 32 0, spadBase := 0, accBase := 0, spad := [], tags := [], acc := [], cvs := [], handles := [], tagWaits := [], fed := 16, energy := 0, issues := 0, slot := none, wakeBy := [], wokeAt := 0, reserved := [], wct := 0, past := [], recorded := false, stations := [] }

/-- Its warp: priority 0, roster of lane 0. Mark: DESIGN CHOICE (log 4). -/
def probeWarp (gid : Nat) : Warp :=
  { group := gid, num := 0, laneSet := 0, width := 16, prio := 0, roster := 1, cp := 0, mx := 0, qu := 0, gs := 0, tokwait := 0, wcause := 0, outst := [], points := [] }

/-- The thread left, which has passed the header. Mark: DESIGN CHOICE (log 4). -/
def probeThread (wid : Nat) : Thread :=
  { newThread wid 0 { entry := BitVec.ofNat 64 probeHdr, work := 0, pay := [], index := some 0, src := none } 0 with xfer := none, st := .issuing }

/-- The clause has engine code 1, which admits every opcode (R71). Mark: DESIGN CHOICE (log 4). -/
def probeIGroup (lid wid : Nat) : IGroup :=
  { die := 0, core := 0, launch := lid, hdr := BitVec.ofNat 64 probeHdr, eng := 1, count := 0, dict := false, yld := false, slot := 0, members := [threadKey wid 0] }

/-- The header word of the clause (R70). -/
def probeHeader : W64 := 0xF900000000000000#64

/-- The tables and the code. Mark: DESIGN CHOICE (log 4). -/
def State.placeCode (s : State) (w : W64) : State :=
  let s := s.memWrite 0 probeHdr (w64Bytes probeHeader ++ w64Bytes w)
  let s := s.memWrite 0 probeRoot (w64Bytes (BitVec.ofNat 64 (1 + (probeRoot / 256 + 16) * 256 + 0xE * 2 ^ 52)))
  let s := s.memWrite 0 (probeRoot + 0x1000) (w64Bytes (BitVec.ofNat 64 (1 + (probeRoot / 256 + 32) * 256 + 0xE * 2 ^ 52)))
  s.memWrite 0 (probeRoot + 0x2000) (w64Bytes (BitVec.ofNat 64 (0x79 + 2 * 2 ^ 52)))

/-- The state with one instruction word (the low 64 bits of `w`) as the next thing that the machine issues. Mark: DESIGN CHOICE (log 4). -/
def State.withFetchWord (s : State) (nbits w : Nat) : State :=
  let n := s.nextId
  let s := s.placeCode (BitVec.ofNat 64 (w % 2 ^ nbits))
  let c := s.core 0 0
  { s with
    boot := .ready, frozen := false, stuck := none, nextId := n + 4, agenda := .slot (n + 3) :: s.agenda,
    classes := s.classes.put 0 ((s.classes.getD 0 (List.replicate 136 3)).set 0 0),
    cores := s.cores.put 0 { c with lines := c.lines.del (probeHdr / 128), cvLane := none },
    contexts := s.contexts.put 0 probeContext, launches := s.launches.put n probeLaunch, groups := s.groups.put (n + 1) (probeGroup n),
    warps := s.warps.put (n + 2) (probeWarp (n + 1)), threads := s.threads.put (threadKey (n + 2) 0) (probeThread (n + 2)),
    igroups := s.igroups.put (n + 3) (probeIGroup n (n + 2)) }

end Sys2Proof.Machine
end

