-- ==== Sys2Proof/Safety.lean ====
section
/-! DEFINITION. The terms in which claims speak of a slot: the issue group that a step has in hand, a member that may issue,
and a state in which a member has moved on with everything else as an effect left it; and what a safe state is. -/

namespace Sys2Proof.Machine

/-- The group without what the metering of energy changes (R397, R398, R400). -/
def Group.unmetered (g : Group) : Group := { g with energy := 0, issues := 0 }

/-- The parts of the state that the end of a slot does not touch: all but the threads, the issue groups, the metering in
groups, and the issues that sampling may pick. -/
def State.rest (s : State) : State := { s with threads := [], groups := [], igroups := [], sampling := [] }

/-- The step has this issue group in hand, and has met no fault. -/
structure SlotOf (s : State) (ig : IGroup) : Prop where
  found : s.igroups.find s.focus = some ig
  sound : s.stuck = none

/-- A member of the group in hand that passes every check that comes before the instruction itself: it has not ended, owes no
deferred cause, its guard holds, its sources and destinations are full and its counter has room (R73, R80, R81, R85). -/
structure MayIssue (i : Instr) (s : State) (m : Self) : Prop where
  self  : s.self m.k = some m
  alive : m.t.st ≠ .exited
  clear : m.t.deferred = []
  guard : m.t.guardOk i.ctl = true
  ready : readyCheck i m = none

/-- The issue group in hand has one member, and it may issue. -/
structure Alone (i : Instr) (s : State) (ig : IGroup) (m : Self) : Prop extends SlotOf s ig, MayIssue i s m where
  one : ig.members = [m.k]

/-- Every member of the issue group in hand may issue, and no thread is named twice. -/
structure Together (i : Instr) (s : State) (ig : IGroup) : Prop extends SlotOf s ig where
  distinct : ig.members.Nodup
  each     : ∀ k ∈ ig.members, ∃ m, m.k = k ∧ MayIssue i s m

/-- A thread after a slot that took effect: at the next slot, or READY at the next clause (R67, R112). -/
def onward (ig : IGroup) (clk : Nat) (t : Thread) : Thread :=
  if ig.last then { t with pc := ig.nextPc, xfer := some .slot0, walkFault := none, yielded := ig.yld, st := .ready, readyAt := clk }
  else { t with pc := ig.nextPc, walkFault := none }

/-- A thread that goes to a branch target (R116): READY there, with the target still to be checked. -/
def jumped (ig : IGroup) (clk : Nat) (target : W64) (t : Thread) : Thread :=
  { t with pc := target, xfer := some .slot0, walkFault := none, yielded := ig.yld, st := .ready, readyAt := clk }

/-- A thread that waits with PC at its slot (R110). -/
def waiting (clk : Nat) (w : Wait) (t : Thread) : Thread := { t with st := .blocked w, waitFrom := clk }

/-- The issue groups after a slot whose members `ks` go on (R112). -/
def groupsOnward (s : State) (ig : IGroup) (ks : List Nat) : Tbl IGroup :=
  if ig.last || ks.isEmpty then s.igroups.del s.focus
  else s.igroups.put s.focus { ig with slot := ig.slot + 1, members := ks }

/-- `t` is the state `e`, which an instruction's effect left, at the end of its slot: the threads `ks` have become `f` of
what they were, the members `go` stay in the issue group, and nothing else differs but the metering of energy and the notes
of sampling. -/
structure Ended (e t : State) (ig : IGroup) (ks go : List Nat) (f : Thread → Thread) : Prop where
  moved   : ∀ k ∈ ks, t.threads.find k = (e.threads.find k).map f
  others  : ∀ k, k ∉ ks → t.threads.find k = e.threads.find k
  metered : ∀ g, (t.groups.find g).map Group.unmetered = (e.groups.find g).map Group.unmetered
  issue   : t.igroups = groupsOnward e ig go
  rest    : t.rest = e.rest

/-- The slot of a single member has taken effect, and it has moved on. -/
def Moved (e t : State) (ig : IGroup) (m : Self) : Prop :=
  Ended e t ig [m.k] [m.k] (onward ig (e.clkOf m.k))

/-- A single member leaves for a branch target. -/
def Jumped (e t : State) (ig : IGroup) (m : Self) (target : W64) : Prop :=
  Ended e t ig [m.k] [] (jumped ig (e.clkOf m.k) target)

/-- A single member waits at its slot. -/
def Waits (e t : State) (ig : IGroup) (m : Self) (w : Wait) : Prop :=
  Ended e t ig [m.k] [] (waiting (e.clkOf m.k) w)

/-- A single member whose instruction has itself put it into its next state. -/
def Left (e t : State) (ig : IGroup) (m : Self) : Prop := Ended e t ig [m.k] [] id

/-- The slots of all members of the issue group have computed: each member's thread is what `f` says, moved on, and nothing
else differs but the metering of energy and the notes of sampling. -/
structure Computed (s t : State) (ig : IGroup) (f : Self → Thread) : Prop where
  moved   : ∀ k ∈ ig.members, ∀ m, s.self k = some m → t.threads.find k = some (onward ig (s.clkOf k) (f m))
  others  : ∀ k, k ∉ ig.members → t.threads.find k = s.threads.find k
  metered : ∀ g, (t.groups.find g).map Group.unmetered = (s.groups.find g).map Group.unmetered
  issue   : t.igroups = groupsOnward s ig ig.members
  rest    : t.rest = s.rest

/-- Wherever all members of an issue group of any size may issue the instruction, it answers a next state, in which each
member's thread is what `f` says. -/
def Computes (i : Instr) (f : State → Self → Thread) : Prop :=
  ∀ s ig, Together i s ig → ∃ t, exec i s = .next t ∧ Computed s t ig (f s)

/-- Wherever a single member may issue the instruction and `eff` gives an effect, it answers a next state: that effect, and
the member moved on. -/
def Acts (i : Instr) (eff : State → Self → State → Prop) : Prop :=
  ∀ s ig m e, Alone i s ig m → eff s m e → ∃ t, exec i s = .next t ∧ Moved e t ig m

/-- A thread that has taken its slot and waits, before its next one, for the fence acq placed after it (R208, R216). -/
def fenced (ig : IGroup) (clk : Nat) (t : Thread) : Thread :=
  { t with pc := ig.nextPc, xfer := if ig.last then some .slot0 else none, walkFault := none, yielded := ig.last && ig.yld, st := .blocked (State.fenceWait 1 2 true), waitFrom := clk }

/-- The same for an instruction with a fence acq placed after it: the member moves on where the fence's condition holds, and
waits past its slot where it does not. -/
def ActsAcq (acq : Bool) (i : Instr) (eff : State → Self → State → Prop) : Prop :=
  ∀ s ig m e, Alone i s ig m → eff s m e → ∃ t, exec i s = .next t ∧
    (acq = false ∨ e.fenceOk m.k m.g.die 1 2 = true → Moved e t ig m) ∧
    (acq = true → e.fenceOk m.k m.g.die 1 2 = false → Ended e t ig [m.k] [] (fenced ig (e.clkOf m.k)))

/-- Wherever a single member may issue the instruction and `eff` gives a wait and an effect, it answers a next state: that
effect, with the member waiting at its slot. -/
def Holds (i : Instr) (eff : State → Self → Wait → State → Prop) : Prop :=
  ∀ s ig m w e, Alone i s ig m → eff s m w e → ∃ t, exec i s = .next t ∧ Waits e t ig m w

/-! ## Warp points (R124) -/

/-- The issue group in hand is the whole roster of a warp, every thread of it at the group's slot and ready to arrive: a member
whose guard holds passes the checks of R80 and R81. No member waits at another point, every scratchpad access of theirs is performed
(R125), and no other issue group holds their lanes (R112). -/
structure Gathered (i : Instr) (s : State) (ig : IGroup) (wid : Nat) : Prop extends SlotOf s ig where
  whole : ig.members = (s.rosterThreads wid).map (·.1)
  some_ : ig.members ≠ []
  each  : ∀ k ∈ ig.members, ∃ m, s.self k = some m ∧ m.t.st ≠ .exited ∧ m.t.deferred = [] ∧ m.t.pc = ig.pc ∧
    (m.t.guardOk i.ctl = true → readyCheck i m = none)
  alone : ∀ w, s.warps.find wid = some w → w.points = []
  clear : { s with igroups := s.igroups.del s.focus }.pointClear wid = true

/-- The participants of a warp point: the roster's threads whose guard holds, by lane (R124). -/
def participants (i : Instr) (s : State) (wid : Nat) : List Self :=
  (((s.rosterThreads wid).map (·.1)).filterMap s.self).filter fun m => m.t.guardOk i.ctl

/-- A thread after its warp point: at the next slot of the group, or READY at the next clause. -/
def passed (ig : IGroup) (clk : Nat) (t : Thread) : Thread :=
  if ig.last then { t with pc := ig.nextPc, xfer := some .slot0, walkFault := none, waitFrom := clk, yielded := ig.yld, st := .ready, readyAt := clk }
  else { t with pc := ig.nextPc, walkFault := none, waitFrom := clk, st := .issuing }

/-- The warp point of a whole roster has issued: each participant's thread is what `f` makes of it, the others are as they
were, all have passed the point, and nothing else differs but the issue groups, the metering and the notes of sampling. -/
structure Pointed (s t : State) (ig : IGroup) (q : Ctl) (f : Self → Thread) : Prop where
  moved   : ∀ k ∈ ig.members, ∀ m, s.self k = some m →
    t.threads.find k = some (passed ig (s.clkOf k) (if m.t.guardOk q then f m else m.t))
  others  : ∀ k, k ∉ ig.members → t.threads.find k = s.threads.find k
  metered : ∀ g, (t.groups.find g).map Group.unmetered = (s.groups.find g).map Group.unmetered
  issue   : t.igroups = if ig.last then s.igroups.del s.focus
    else (s.igroups.del s.focus).put s.nextId { ig with slot := ig.slot + 1 }
  rest    : t.rest = { s.rest with nextId := if ig.last then s.nextId else s.nextId + 1 }

/-- Wherever the whole roster of a warp gathers at the instruction, it answers a next state, in which the participants' threads
are what `f` says of all participants and the one. -/
def Points (i : Instr) (f : State → List Self → Self → Thread) : Prop :=
  ∀ s ig wid, Gathered i s ig wid →
    ∃ t, exec i s = .next t ∧ Pointed s t ig i.ctl (f s (participants i s wid))

/-! ## Steps of the device, firmware and the host -/

/-- The instruction answers a next state, and that state satisfies `p`. -/
def Goes (i : Instr) (s : State) (p : State → Prop) : Prop := ∃ t, exec i s = .next t ∧ p t

/-- A record of a launch queue that is about to be taken (R313, R330): the queue, its context, the die whose scheduler takes it, and
the record. -/
structure Taking (s : State) (lq : Nat) (x : LaunchQ) (c : Context) (die : Nat) (r : Rec) : Prop where
  queue  : s.launchQs.find lq = some x
  record : s.nextRecord lq = some r
  ctx    : s.lqCtx x = some c
  onDie  : s.runDie x = some die
  turn   : s.runNext die = some lq
  sound  : s.stuck = none

/-- The state once a record has been taken: the queue is the last of its die's run list, and its tickets are passed. -/
def taken (s : State) (lq die : Nat) (r : Rec) : State :=
  (s.setDie die { s.die die with runList := (s.die die).runList.filter (· != lq) ++ [lq] }).stepHeads lq r.passes

/-- No context that holds units has a die that has written its stop records. -/
def noStopRecords (s : State) : Prop :=
  Tbl.wf s.contexts = true ∧ ∀ e ∈ s.contexts, e.2.st = .saved ∨ (Tbl.wf e.2.remap = true ∧ ∀ h ∈ e.2.halts, h.2.written = false)

/-- A mailbox command that runs (R406): its mailbox is BUSY with the code, in READY. -/
structure Runs (s : State) (fn code : Nat) (m : Mbox) : Prop where
  mbox  : s.mbox fn = m
  busy  : m.busy = true
  code  : m.code = code
  boot  : s.boot = .ready
  sound : s.stuck = none

/-- STATUS of a function's mailbox at the end of a command: the code, with the tag that the doorbell took (R406). -/
def ended (s : State) (fn : Nat) (m : Mbox) (st : Nat) : Prop :=
  (s.mbox fn).status = BitVec.ofNat 32 (st + bitsOf m.run.toNat 8 24 * 256)

/-! ## Safe states -/

/-- Every memory of the package is in canonical form. -/
structure State.Canonical (s : State) : Prop where
  mem    : Memory.wf s.mem = true
  host   : Memory.wf s.host = true
  window : Memory.wf s.window = true
  flash  : Memory.wf s.flash = true

/-- Every memory is in canonical form, and the machine has met nothing that the spec says does not exist. -/
structure State.Safe (s : State) : Prop extends State.Canonical s where
  sound : s.stuck = none

end Sys2Proof.Machine
end

