-- ==== Sys2Proof/Certificates/Slice0/Obligations.lean ====
section
/-! DEFINITION. The statements about this model. What a slot of members that may issue leaves behind (`Computes`, `Acts`, `Moved`
and their like) is defined in Sys2Proof/Safety.lean. -/

set_option Elab.async false

open Sys2Proof Sys2Proof.Machine

/-! ## Results in registers -/

/-- NOP, MOV, MOVI, MOVK, SEL, IMIN, IMAX, the shifts and rotations (R138, R142, R143, R152): the destination takes the moved value; an amount
at or beyond the width shifts everything out, and a rotation takes it modulo 32. -/
def Obligations.MovesAndShiftsResult : Prop :=
  ((∀ q, Computes (.nop q) fun _ m => m.t) ∧
  (∀ q d a, Computes (.mov q d a false) fun s m => m.t.write d [s.src m a]) ∧
  (∀ q d a, Computes (.mov q d a true) fun s m => m.t.write d [(s.src64 m a).extractLsb' 0 32, (s.src64 m a).extractLsb' 32 32]) ∧
  (∀ q d imm, Computes (.movi q d imm) fun _ m => m.t.write d [imm.signExtend 32]) ∧
  (∀ q d imm, Computes (.movk q d imm) fun _ m => m.t.write d [imm]) ∧
  (∀ q d a b ps ns, Computes (.sel q d a b ps ns false) fun s m => m.t.write d [if m.t.pred ps ≠ ns then s.src m a else s.src m b]) ∧
  ∀ q d a b ps ns, Computes (.sel q d a b ps ns true) fun s m =>
    m.t.write d (pairWords (if m.t.pred ps ≠ ns then s.src64 m a else s.src64 m b))) ∧
  ((∀ q d a b, Computes (.imin q d a b true) fun s m =>
    m.t.write d [BitVec.ofNat 32 (min (s.src m a).toNat (s.src m b).toNat)]) ∧
  (∀ q d a b, Computes (.imin q d a b false) fun s m =>
    m.t.write d [BitVec.ofInt 32 (min (s.src m a).toInt (s.src m b).toInt)]) ∧
  (∀ q d a b, Computes (.imax q d a b true) fun s m =>
    m.t.write d [BitVec.ofNat 32 (max (s.src m a).toNat (s.src m b).toNat)]) ∧
  (∀ q d a b, Computes (.imax q d a b false) fun s m =>
    m.t.write d [BitVec.ofInt 32 (max (s.src m a).toInt (s.src m b).toInt)]) ∧
  (∀ q d a b, Computes (.shl q d a b) fun s m => m.t.write d [s.src m a <<< (s.src m b).toNat]) ∧
  (∀ q d a b, Computes (.shr q d a b false) fun s m => m.t.write d [s.src m a >>> (s.src m b).toNat]) ∧
  (∀ q d a b, Computes (.shr q d a b true) fun s m => m.t.write d [(s.src m a).sshiftRight (s.src m b).toNat]) ∧
  (∀ q d a b, Computes (.rot q d a b false) fun s m => m.t.write d [(s.src m a).rotateLeft ((s.src m b).toNat % 32)]) ∧
  (∀ q d a b, Computes (.rot q d a b true) fun s m => m.t.write d [(s.src m a).rotateRight ((s.src m b).toNat % 32)]) ∧
  (∀ q d a b, Computes (.shl64 q d a b) fun s m => m.t.write d (pairWords (s.src64 m a <<< (s.src m b).toNat))) ∧
  (∀ q d a b, Computes (.shr64 q d a b false) fun s m => m.t.write d (pairWords (s.src64 m a >>> (s.src m b).toNat))) ∧
  ∀ q d a b, Computes (.shr64 q d a b true) fun s m => m.t.write d (pairWords ((s.src64 m a).sshiftRight (s.src m b).toNat)))

/-- IADD, ISUB, IADDI, INEG, IABS and the 64-bit sums (R139, R142, R143): wrapping, or clamped to i32 or n32. IMUL, IMULH, IMAD, IMADW
(R140): TY 0 reads both factors as i32, 1 both as n32, 2 A as i32 and B as n32. -/
def Obligations.SumsAndProductsResult : Prop :=
  ((∀ q d a b, Computes (.iadd q d a b 0) fun s m => m.t.write d [s.src m a + s.src m b]) ∧
  (∀ q d a b, Computes (.iadd q d a b 1) fun s m =>
    m.t.write d [BitVec.ofInt 32 (max (-2 ^ 31) (min (2 ^ 31 - 1) ((s.src m a).toInt + (s.src m b).toInt)))]) ∧
  (∀ q d a b, Computes (.iadd q d a b 2) fun s m =>
    m.t.write d [BitVec.ofNat 32 (min (2 ^ 32 - 1) ((s.src m a).toNat + (s.src m b).toNat))]) ∧
  (∀ q d a b, Computes (.isub q d a b 0) fun s m => m.t.write d [s.src m a - s.src m b]) ∧
  (∀ q d a b, Computes (.isub q d a b 1) fun s m =>
    m.t.write d [BitVec.ofInt 32 (max (-2 ^ 31) (min (2 ^ 31 - 1) ((s.src m a).toInt - (s.src m b).toInt)))]) ∧
  (∀ q d a b, Computes (.isub q d a b 2) fun s m =>
    m.t.write d [BitVec.ofNat 32 ((s.src m a).toNat - (s.src m b).toNat)]) ∧
  (∀ q d a imm, Computes (.iaddi q d a imm) fun s m => m.t.write d [s.src m a + imm.signExtend 32]) ∧
  (∀ q d a sat, Computes (.ineg q d a sat) fun s m =>
    m.t.write d [if sat ∧ s.src m a = 0x80000000 then 0x7FFFFFFF else -s.src m a]) ∧
  (∀ q d a sat, Computes (.iabs q d a sat) fun s m =>
    m.t.write d [if (s.src m a).toInt < 0 then (if sat ∧ s.src m a = 0x80000000 then 0x7FFFFFFF else -s.src m a) else s.src m a]) ∧
  (∀ q d a b, Computes (.iadd64 q d a b) fun s m => m.t.write d (pairWords (s.src64 m a + s.src64 m b))) ∧
  ∀ q d a b, Computes (.isub64 q d a b) fun s m => m.t.write d (pairWords (s.src64 m a - s.src64 m b))) ∧
  ((∀ q d a b, Computes (.imul q d a b) fun s m => m.t.write d [s.src m a * s.src m b]) ∧
  (∀ q d a b ty, Computes (.imulh q d a b ty) fun s m =>
    let x : Int := if ty = 1 then (s.src m a).toNat else (s.src m a).toInt
    let y : Int := if ty = 0 then (s.src m b).toInt else (s.src m b).toNat
    m.t.write d [BitVec.ofInt 32 (x * y / 2 ^ 32)]) ∧
  (∀ q d a b c, Computes (.imad q d a b c) fun s m => m.t.write d [s.src m a * s.src m b + s.src m c]) ∧
  ∀ q d a b c ty, Computes (.imadw q d a b c ty) fun s m =>
    let x : Int := if ty = 1 then (s.src m a).toNat else (s.src m a).toInt
    let y : Int := if ty = 0 then (s.src m b).toInt else (s.src m b).toNat
    m.t.write d (pairWords (BitVec.ofInt 64 (x * y) + s.src64 m c)))

/-- LOP3, BFX, BFI, BREV, POPC, CLZ, CTZ, PRMT (R144 to R147), with what the bits of each result are. -/
def Obligations.BitsResult : Prop :=
  (∀ q d a b c lut, Computes (.lop3 q d a b c lut) fun s m => m.t.write d [lop3 lut (s.src m a) (s.src m b) (s.src m c)]) ∧
  (∀ lut a b c i, i < 32 → (lop3 lut a b c).getLsbD i =
    lut.getLsbD ((a.getLsbD i).toNat + 2 * (b.getLsbD i).toNat + 4 * (c.getLsbD i).toNat)) ∧
  (∀ q d a b sx, Computes (.bfx q d a b sx) fun s m => m.t.write d [bfx sx (s.src m a) (s.src m b)]) ∧
  (∀ a b i, (bfx false a b).getLsbD i =
    (decide (i < (b.extractLsb' 8 8).toNat) && a.getLsbD ((b.extractLsb' 0 8).toNat + i))) ∧
  (∀ a b i, i < 32 → let pos := min (b.extractLsb' 0 8).toNat 32
    let len := min (b.extractLsb' 8 8).toNat (32 - pos)
    (bfx true a b).getLsbD i = (decide (0 < len) && a.getLsbD (pos + min i (len - 1)))) ∧
  (∀ q d a b c, Computes (.bfi q d a b c) fun s m => m.t.write d [bfi (s.src m a) (s.src m b) (s.src m c)]) ∧
  (∀ a b c i, i < 32 → (bfi a b c).getLsbD i =
    if (b.extractLsb' 0 8).toNat ≤ i ∧ i < (b.extractLsb' 0 8).toNat + (b.extractLsb' 8 8).toNat
    then c.getLsbD (i - (b.extractLsb' 0 8).toNat) else a.getLsbD i) ∧
  (∀ q d a, Computes (.brev q d a) fun s m => m.t.write d [(s.src m a).reverse]) ∧
  (∀ q d a, Computes (.popc q d a) fun s m =>
    m.t.write d [BitVec.ofNat 32 ((List.range 32).countP fun i => (s.src m a).getLsbD i)]) ∧
  (∀ q d a, Computes (.clz q d a) fun s m =>
    m.t.write d [BitVec.ofNat 32 (((List.range 32).find? fun i => (s.src m a).getLsbD (31 - i)).getD 32)]) ∧
  (∀ q d a, Computes (.ctz q d a) fun s m =>
    m.t.write d [BitVec.ofNat 32 (((List.range 32).find? fun i => (s.src m a).getLsbD i).getD 32)]) ∧
  (∀ q d a b c, Computes (.prmt q d a b c) fun s m =>
    m.t.write d [bytesW32 ((List.range 4).map fun i =>
      prmtByte (s.src m b ++ s.src m a) ((s.src m c).extractLsb' (8 * i) 8))]) ∧
  ∀ (ba : W64) (sel : Byte), prmtByte ba sel =
    let b := ba.extractLsb' (8 * (sel.extractLsb' 0 3).toNat) 8
    if sel.extractLsb' 3 2 = 0 then b else if sel.extractLsb' 3 2 = 1 then 0
    else if sel.extractLsb' 3 2 = 2 then (if b.getLsbD 7 then 0xFF else 0) else ~~~b

/-- ICMP, ICMPI, FCMP, HCMP2, PLOP3, PTOG, GTOP, PHCMP (R148 to R151, R153, R169): the predicates take the result and its complement,
and only the flags of R150 are raised. That the second of two writes stays, where FCMP, HCMP2 or PHCMP name one predicate twice, is the
model's choice (log 77). -/
def Obligations.ComparesResult : Prop :=
  (∀ q pd pq a b cc uns, Computes (.icmp q pd pq a b cc uns false) fun s m =>
    let r := icompare cc (asInt uns (s.src m a)) (asInt uns (s.src m b))
    (m.t.setPred pd r).setPred pq (!r)) ∧
  (∀ q pd pq a b cc uns, Computes (.icmp q pd pq a b cc uns true) fun s m =>
    let r := icompare cc (asInt uns (s.src64 m a)) (asInt uns (s.src64 m b))
    (m.t.setPred pd r).setPred pq (!r)) ∧
  (∀ q pd pq a imm cc uns, Computes (.icmpi q pd pq a imm cc uns false) fun s m =>
    let r := icompare cc (asInt uns (s.src m a)) (asInt uns imm)
    (m.t.setPred pd r).setPred pq (!r)) ∧
  (∀ q pd pq a imm cc uns, Computes (.icmpi q pd pq a imm cc uns true) fun s m =>
    let r := icompare cc (asInt uns (s.src64 m a)) (asInt uns imm)
    (m.t.setPred pd r).setPred pq (!r)) ∧
  (∀ q pd pq a b cc, Computes (.fcmp q pd pq a b cc) fun s m =>
    let r := fcompare cc (fval f32 (s.src m a).toNat) (fval f32 (s.src m b).toNat)
    ((m.t.setPred pd r.1).setPred pq (!r.1)).orFlags r.2) ∧
  (∀ q plo phi a b cc bf, Computes (.hcmp2 q plo phi a b cc bf) fun s m =>
    let r := fun i => fcompare cc (hv bf (s.src m a) i) (hv bf (s.src m b) i)
    ((m.t.setPred plo (r 0).1).setPred phi (r 1).1).orFlags ((r 0).2 ||| (r 1).2)) ∧
  (∀ q pd pq pa pb pc lut, Computes (.plop3 q pd pq pa pb pc lut) fun _ m =>
    let r := lut.getLsbD ((m.t.pred pa).toNat + 2 * (m.t.pred pb).toNat + 4 * (m.t.pred pc).toNat)
    (m.t.setPred pd r).setPred pq (!r)) ∧
  (∀ q d, Computes (.ptog q d) fun _ m => m.t.write d [0x8000 ||| m.t.preds.setWidth 32]) ∧
  (∀ q a b, Computes (.gtop q a b) fun s m => (List.range 15).foldl (fun t i =>
    if (s.src m b).getLsbD i then t.setPred (BitVec.ofNat 4 i) ((s.src m a).getLsbD i) else t) m.t) ∧
  ∀ q pp po a b, Computes (.phcmp q pp po a b) fun s m =>
    let r := phCmp (half (s.src m a) 0) (half (s.src m b) 0)
    (m.t.setPred pp r.1).setPred po r.2

/-- FADD, FSUB, FMUL, FFMA, FMIN, FMAX, FCLASS, FSCALE, FRND, F2I, I2F (R154 to R158): one rounding of the exact result, its flags
ORed into FPSTAT. -/
def Obligations.FloatResult : Prop :=
  (∀ q d a b rm na nb, Computes (.fadd q d a b rm na nb false) fun s m =>
    m.t.writeF d (sumF32 rm [(fw (s.src m a)).negIf na, (fw (s.src m b)).negIf nb])) ∧
  (∀ q d a b rm na nb, Computes (.fadd q d a b rm na nb true) fun s m =>
    m.t.writeF d (satF32 (sumF32 rm [(fw (s.src m a)).negIf na, (fw (s.src m b)).negIf nb]))) ∧
  (∀ q d a b rm na nb sat, Computes (.fsub q d a b rm na nb sat) fun s m =>
    m.t.writeF d (faddF rm na (!nb) sat (s.src m a) (s.src m b))) ∧
  (∀ q d a b rm na nb, Computes (.fmul q d a b rm na nb false) fun s m =>
    m.t.writeF d (f32Word (roundFp f32 rm (((fw (s.src m a)).negIf na).mul ((fw (s.src m b)).negIf nb))))) ∧
  (∀ q d a b rm na nb, Computes (.fmul q d a b rm na nb true) fun s m =>
    m.t.writeF d (satF32 (f32Word (roundFp f32 rm (((fw (s.src m a)).negIf na).mul ((fw (s.src m b)).negIf nb)))))) ∧
  (∀ q d a b c rm np nc, Computes (.ffma q d a b c rm np nc false) fun s m =>
    m.t.writeF d (sumF32 rm [((fw (s.src m a)).mul (fw (s.src m b))).negIf np, (fw (s.src m c)).negIf nc])) ∧
  (∀ q d a b c rm np nc, Computes (.ffma q d a b c rm np nc true) fun s m =>
    m.t.writeF d (satF32 (sumF32 rm [((fw (s.src m a)).mul (fw (s.src m b))).negIf np, (fw (s.src m c)).negIf nc]))) ∧
  (∀ q d a b, Computes (.fmin q d a b) fun s m =>
    m.t.writeF d (f32Word (minMaxNum f32 false (s.src m a).toNat (s.src m b).toNat))) ∧
  (∀ q d a b, Computes (.fmax q d a b) fun s m =>
    m.t.writeF d (f32Word (minMaxNum f32 true (s.src m a).toNat (s.src m b).toNat))) ∧
  (∀ q d a fmt, Computes (.fclass q d a fmt) fun s m =>
    m.t.write d [BitVec.ofNat 32 (2 ^ fclass (classFmt fmt) ((s.src m a).toNat % 2 ^ (classFmt fmt).width))]) ∧
  (∀ q d a b rm, Computes (.fscale q d a b rm) fun s m => m.t.writeF d (fscaleF rm (s.src m a) (s.src m b))) ∧
  (∀ q d a rm exact, Computes (.frnd q d a rm exact) fun s m => m.t.writeF d (frndF rm exact (s.src m a))) ∧
  (∀ q d a rm ty, Computes (.f2i q d a rm ty) fun s m =>
    (m.t.write d (tyWords ty (f2iF rm ty (s.src m a)).1)).orFlags (f2iF rm ty (s.src m a)).2) ∧
  ∀ q d a rm ty, Computes (.i2f q d a rm ty) fun s m =>
    let x := if ty.getLsbD 1 then asInt (ty.getLsbD 0) (s.src64 m a) else asInt (ty.getLsbD 0) (s.src m a)
    m.t.writeF d (f32Word (roundFp f32 rm (FVal.ofInt x)))

/-- The packed halves and the conversions (R159 to R165): each element on its own, the flags of all ORed. -/
def Obligations.PackedResult : Prop :=
  (∀ q d a b rm bf nb, Computes (.hadd2 q d a b rm bf nb) fun s m => m.t.writeF d (packed fun i =>
    roundFp (half16 bf) rm (sumExact rm [hv bf (s.src m a) i, (hv bf (s.src m b) i).negIf nb]))) ∧
  (∀ q d a b rm bf nb, Computes (.hmul2 q d a b rm bf nb) fun s m => m.t.writeF d (packed fun i =>
    roundFp (half16 bf) rm ((hv bf (s.src m a) i).mul ((hv bf (s.src m b) i).negIf nb)))) ∧
  (∀ q d a b c rm bf nb nc, Computes (.hfma2 q d a b c rm bf nb nc) fun s m => m.t.writeF d (packed fun i =>
    roundFp (half16 bf) rm (sumExact rm
      [((hv bf (s.src m a) i).mul (hv bf (s.src m b) i)).negIf nb, (hv bf (s.src m c) i).negIf nc]))) ∧
  (∀ q d a b bf, Computes (.hmin2 q d a b bf) fun s m => m.t.writeF d (packed fun i =>
    minMaxNum (half16 bf) false (half (s.src m a) i) (half (s.src m b) i))) ∧
  (∀ q d a b bf, Computes (.hmax2 q d a b bf) fun s m => m.t.writeF d (packed fun i =>
    minMaxNum (half16 bf) true (half (s.src m a) i) (half (s.src m b) i))) ∧
  (∀ q d a b c rm bf, Computes (.hdot2 q d a b c rm bf) fun s m =>
    m.t.writeF d (hdot2F rm bf (s.src m a) (s.src m b) (s.src m c))) ∧
  (∀ q d a srcF dstF rm elt, Computes (.cvt q d a srcF dstF rm elt) fun s m =>
    m.t.writeF d (cvtDst dstF rm (cvtSrc srcF elt (s.src m a)))) ∧
  (∀ q d a b rm bf, Computes (.cvtpk q d a b rm bf) fun s m => m.t.writeF d (packed fun i =>
    roundFp (half16 bf) rm (fw (if i = 0 then s.src m a else s.src m b)))) ∧
  (∀ q d a i8 bf, Computes (.cvtx4 q d a true i8 bf) fun s m =>
    m.t.writeF d (packBytes fun i => cvtx4Byte i8 bf (half64 (s.src64 m a) i))) ∧
  (∀ q d a i8 bf, Computes (.cvtx4 q d a false i8 bf) fun s m =>
    m.t.write d (halves4 fun i => cvtx4Wide i8 bf (wordByte (s.src m a) i))) ∧
  (∀ q d a b c dt6, Computes (.qdt q d a b c dt6) fun s m => m.t.writeF d (packBytes fun i =>
    qdtOne dt6 (wordByte (s.src m c) 0) ((pairWords (s.src64 m a) ++ pairWords (s.src64 m b)).getD i 0))) ∧
  ∀ q d a b dt6 bf rm, Computes (.dqdt q d a b dt6 bf rm) fun s m =>
    let r := fun i => dqdtOne dt6 bf rm (wordByte (s.src m b) 0) (wordByte (s.src m a) i)
    (m.t.write d (halves4 fun i => (r i).1)).orFlags ((r 0).2 ||| (r 1).2 ||| (r 2).2 ||| (r 3).2)

/-- HDOT2 (R61): the exact sum of two products and c, rounded once to F32; a sum that is NaN is the canonical NaN with NV (R60, R160). -/
def Obligations.DotProductResult : Prop :=
  ∀ q d a b c rm bf, Computes (.hdot2 q d a b c rm bf) fun s m =>
    let f := if bf then bf16 else f16
    let lo (x : W32) : FVal := fval f (x.extractLsb' 0 16).toNat
    let hi (x : W32) : FVal := fval f (x.extractLsb' 16 16).toNat
    let v := sumExact rm [(lo (s.src m a)).mul (lo (s.src m b)), (hi (s.src m a)).mul (hi (s.src m b)), fval f32 (s.src m c).toNat]
    m.t.writeF d (if v.isNan then (0x7FC00000, flagNV) else f32Word (roundFp f32 rm v))

/-- The special functions and the scalar phasors, with WLIVE and THINFO (R166 to R172, R131, R259, R269): a result in D, and for
the functions their flags.
That each result is the rounding of a fixed-point series is log 21 (UNVERIFIED). -/
def Obligations.FunctionsResult : Prop :=
  (∀ q d a, Computes (.rcp q d a) fun s m => m.t.writeF d (sfRcp (s.src m a))) ∧
  (∀ q d a, Computes (.rsq q d a) fun s m => m.t.writeF d (sfRsq (s.src m a))) ∧
  (∀ q d a, Computes (.sqrt q d a) fun s m => m.t.writeF d (sfSqrt (s.src m a))) ∧
  (∀ q d a, Computes (.ex2 q d a) fun s m => m.t.writeF d (sfEx2 (s.src m a))) ∧
  (∀ q d a, Computes (.lg2 q d a) fun s m => m.t.writeF d (sfLg2 (s.src m a))) ∧
  (∀ q d a, Computes (.sint q d a) fun s m => m.t.writeF d (sfSint (s.src m a))) ∧
  (∀ q d a, Computes (.cost q d a) fun s m => m.t.writeF d (sfCost (s.src m a))) ∧
  (∀ q d a b pk, Computes (.phadd q d a b pk) fun s m =>
    m.t.write d [phHalves pk fun i => phAdd (half (s.src m a) i) (half (s.src m b) i)]) ∧
  (∀ q d a b pk, Computes (.phsub q d a b pk) fun s m =>
    m.t.write d [phHalves pk fun i => phSub (half (s.src m a) i) (half (s.src m b) i)]) ∧
  (∀ q d a rm, Computes (.phfrom q d a rm) fun s m => m.t.writeF d (phFrom rm (s.src m a))) ∧
  (∀ q d a, Computes (.phsc q d a) fun s m =>
    m.t.write d [BitVec.ofInt 16 (phPair (half (s.src m a) 0)).2 ++ BitVec.ofInt 16 (phPair (half (s.src m a) 0)).1]) ∧
  (∀ q d a b c, Computes (.phcoh q d a b c) fun s m =>
    m.t.write d [(phFin (s.src m a) (s.src m b) (s.src m c)).2 ++ (phFin (s.src m a) (s.src m b) (s.src m c)).1]) ∧
  (∀ q d, Computes (.wlive q d) fun _ m => m.t.write d (maskWords (m.w.width == 64) m.w.roster.toNat)) ∧
  ∀ q d a, Computes (.thinfo q d a) fun s m => m.t.write d (pairWords (s.handle m.gid (handleOf a)).record)

/-- The adder-tree tables (R418): entries half a turn apart are negatives of each other, and so are the pairs that two defined codes
half a turn apart add. -/
def Obligations.TablesHalfTurn : Prop :=
  (∀ i, i ≤ 4095 → phTC ((i + 2048) % 4096) = -phTC i ∧ phTS ((i + 2048) % 4096) = -phTS i) ∧
  ∀ c, c < 65536 → c % 2 = 0 → (phPair c).1 + (phPair ((c + 32768) % 65536)).1 = 0 ∧ (phPair c).2 + (phPair ((c + 32768) % 65536)).2 = 0

/-! ## Warp points, control flow and the special registers -/

/-- SHFL, VOTE, WRED, WSCAN, MATCH, WCONV (R124 to R130): with the whole roster gathered the point issues once, every participant
takes its result from all participants, and all go on.
That WSCAN raises the flags of every addition, also of the one whose sum the exclusive form drops, is the model's choice (log 75). -/
def Obligations.WarpPointsResult : Prop :=
  (∀ q d a b c mode pv, Points (.shfl q d a b c mode pv) fun s parts m =>
    let from_ := (shflLane mode m.w.width m.t.lane (s.src m b)).bind (partAt parts)
    let other := if c = .none then s.src m a else s.src m c
    (m.t.write d [match from_ with | some p => s.src p a | none => other]).setPred pv from_.isSome) ∧
  (∀ q d ps ns mode, Points (.vote q d ps ns mode) fun _ parts m =>
    m.t.write d (maskWords (m.w.width == 64 && mode == 3)
      (voteOf mode m.w.width (parts.map fun p => (p.t.lane, p.t.pred ps != ns))))) ∧
  (∀ q d a fn, Points (.wred q d a fn) fun s parts m =>
    m.t.writeF d (wredOf fn m.w.width (parts.map fun p => (p.t.lane, s.src p a)))) ∧
  (∀ q d a fn excl, Points (.wscan q d a fn excl) fun s parts m =>
    let r := wscanOf fn excl m.w.width (parts.map fun p => (p.t.lane, s.src p a))
    m.t.writeF d (r.1.getD m.t.lane 0, r.2)) ∧
  (∀ q d a wide mode, Points (.wmatch q d a wide mode) fun s parts m =>
    m.t.write d (maskWords (m.w.width == 64 && mode == 0)
      (matchOf mode m.t.lane ((parts.filter fun p => s.srcWide p wide a == s.srcWide m wide a).map (·.t.lane))))) ∧
  ∀ q, Points (.wconv q) fun _ _ m => m.t

/-- BRA, BRX, CALL, CALLX, RET (R116): the thread goes to the target, and a call writes the address of the next clause. EXIT, YIELD, RTH
(R117, R119, R370): a thread ends, gives way at the next clause, or returns from its handler to EPC. YIELDPT (R377): with the pre-emption
flag of its core clear the thread goes on; with it set the thread stops at the next slot with its liveness map. -/
def Obligations.ControlGoes : Prop :=
  (∀ (q : Ctl) (d a : Opd) (imm : BitVec 24) (s : State) (ig : IGroup) (m : Self),
    let rel : W64 := (m.t.pc &&& ~~~15) + 16 * imm.signExtend 64
    (Alone (.bra q imm) s ig m → ∃ t, exec (.bra q imm) s = .next t ∧ Jumped s t ig m rel) ∧
    (Alone (.brx q a) s ig m → ∃ t, exec (.brx q a) s = .next t ∧ Jumped s t ig m (s.src64 m a)) ∧
    (Alone (.call q d imm) s ig m → ∃ t, exec (.call q d imm) s = .next t ∧
      Jumped (s.setThread m.k (m.t.write d (pairWords ig.nextHdr))) t ig m rel) ∧
    (Alone (.callx q d a) s ig m → ∃ t, exec (.callx q d a) s = .next t ∧
      Jumped (s.setThread m.k (m.t.write d (pairWords ig.nextHdr))) t ig m (s.src64 m a)) ∧
    (Alone (.ret q a) s ig m → ∃ t, exec (.ret q a) s = .next t ∧ Jumped s t ig m (s.src64 m a))) ∧
  (∀ (q : Ctl) (dly : Byte) (s : State) (ig : IGroup) (m : Self),
    (Alone (.exit q) s ig m → ∃ t, exec (.exit q) s = .next t ∧ Left (s.endThread m.k) t ig m ∧
      (t.threads.find m.k).map (·.st) = some .exited ∧
      (t.warps.find (m.k / 64)).map (·.roster) =
        (s.warps.find (m.k / 64)).map fun w => w.roster &&& ~~~(1#64 <<< (m.k % 64))) ∧
    (Alone (.yield q dly) s ig m → ∃ t, exec (.yield q dly) s = .next t ∧
      Left (s.updThread m.k fun t => { t with pc := ig.nextHdr, xfer := some .slot0, yielded := ig.yld, st := if dly = 0 then .ready else .delayed (s.clk m.g.die m.g.core + 16 * dly.toNat), readyAt := s.clk m.g.die m.g.core }) t ig m) ∧
    (Alone (.rth q) s ig m → m.t.handler.isSome → m.t.rosterPend = false → ∃ t, exec (.rth q) s = .next t ∧
      Left (s.updThread m.k fun t => { t with handler := none, pc := t.epc, xfer := some .anySlot, st := .ready, readyAt := s.clk m.g.die m.g.core }) t ig m)) ∧
  (∀ (q : Ctl) (map : BitVec 10) (s : State) (ig : IGroup) (m : Self) (x : Context),
    Alone (.yieldpt q map) s ig m → s.contexts.find m.g.ctx = some x →
    (m.g.vdie ∉ x.preDies → ∃ t, exec (.yieldpt q map) s = .next t ∧ Moved s t ig m) ∧
    (m.g.vdie ∈ x.preDies → ∃ t, exec (.yieldpt q map) s = .next t ∧
      Left (s.updThread m.k fun t => { t with pc := ig.nextPc, xfer := some (if ig.last then .slot0 else .anySlot), st := .stopped 4 none, stopMap := some map.toNat }) t ig m))

/-- SREAD and SWRITE (R77, R133, R380): a read returns the register's value; FPSTAT may be written by any thread, EPC and the roster only
in a handler, and any other register that R77 lists is left as it is. A write of half of the roster clears bits, and ends their threads;
the thread's own bit stays until its RTH. -/
def Obligations.SpecialRegisters : Prop :=
  ∀ (q : Ctl) (d a : Opd) (reg : Byte) (s : State) (ig : IGroup) (m : Self),
    (Alone (.sread q d reg) s ig m → ∀ v, specialReg s m reg.toNat = some v →
      ∃ t, exec (.sread q d reg) s = .next t ∧ Moved (s.setThread m.k (m.t.write d [v])) t ig m) ∧
    (Alone (.swrite q reg a) s ig m → reg = 0x0E → ∃ t, exec (.swrite q reg a) s = .next t ∧
      Moved (s.setThread m.k { m.t with fpstat := (s.src m a).setWidth 5 }) t ig m) ∧
    (Alone (.swrite q reg a) s ig m → reg = 0x11 → m.t.handler.isSome → ∃ t, exec (.swrite q reg a) s = .next t ∧
      Moved (s.setThread m.k { m.t with epc := pairOf (s.src m a) (hiHalf m.t.epc) }) t ig m) ∧
    (Alone (.swrite q reg a) s ig m → reg = 0x12 → m.t.handler.isSome → ∃ t, exec (.swrite q reg a) s = .next t ∧
      Moved (s.setThread m.k { m.t with epc := pairOf (loHalf m.t.epc) (s.src m a) }) t ig m) ∧
    (Alone (.swrite q reg a) s ig m → reg = 0x14 ∨ reg = 0x15 → m.t.handler.isSome → m.k = threadKey m.t.warp m.t.lane →
      let mask : W64 := if reg = 0x14 then pairOf (s.src m a) (BitVec.allOnes 32) else pairOf (BitVec.allOnes 32) (s.src m a)
      ∃ t, exec (.swrite q reg a) s = .next t ∧
        (t.warps.find m.t.warp).map (·.roster) = some (m.w.roster &&& (mask ||| 1#64 <<< m.t.lane)) ∧
        (t.threads.find m.k).map (fun x => (x.pc, x.rosterPend)) =
          some (ig.nextPc, m.t.rosterPend || (m.w.roster.getLsbD m.t.lane && !mask.getLsbD m.t.lane)) ∧
        ∀ lane, m.w.roster.getLsbD lane = true → mask.getLsbD lane = false → lane ≠ m.t.lane →
          ∀ x, s.threads.find (threadKey m.t.warp lane) = some x → (t.threads.find (threadKey m.t.warp lane)).map (·.st) = some .exited) ∧
    (Alone (.swrite q reg a) s ig m → reg.toNat ≤ 0x1B → reg ≠ 0x0E →
      (m.t.handler = none ∨ (reg ≠ 0x11 ∧ reg ≠ 0x12 ∧ reg ≠ 0x14 ∧ reg ≠ 0x15)) →
      ∃ t, exec (.swrite q reg a) s = .next t ∧ Moved s t ig m)

/-- TRAP and BKPT (R365, R366, R368, R371). With a handler in the launch's table: EPC names the slot after, EINFO holds CODE, WCAUSE is latched, and
the thread is READY at the handler's entry, which is still to be checked as a target (the read of the table, after which the state is
`s1`, is the model's, logs 3, 11). Without a table: the cause escalates, the thread
stops with EPC at the slot after, and a running context begins to halt. -/
def Obligations.TrapsTaken : Prop :=
  (∀ (i : Instr) (c : Cause) (code : Byte) (q : Ctl) (s s1 : State) (ig : IGroup) (m : Self) (entry : W64),
    (i = .trap q code ∧ c = .trapsw) ∨ (i = .bkpt q code ∧ c = .bkpt) → Alone i s ig m →
    m.t.handler = none → s.handlerOf m [m.k] c = (.entry entry, s1) →
    ∃ t x, exec i s = .next t ∧ s1.threads.find m.k = some x ∧
      t.threads.find m.k = some { x with handler := some (wcauseOf c false (m.k % 64)), epc := ig.nextPc, einfo := code.setWidth 32, pc := entry, xfer := some .slot0, walkFault := none, st := .ready, readyAt := s.clkOf m.k } ∧
      (t.warps.find (m.k / 64)).map (·.wcause) = (s.warps.find (m.k / 64)).map (fun _ => wcauseOf c false (m.k % 64)) ∧
      (∀ k, k ≠ m.k → t.threads.find k = s1.threads.find k) ∧
      t.rest = (s1.updWarp (m.k / 64) fun w => { w with wcause := wcauseOf c false (m.k % 64) }).rest) ∧
  (∀ (i : Instr) (c : Cause) (code : Byte) (q : Ctl) (s : State) (ig : IGroup) (m : Self) (x : Context),
    (i = .trap q code ∧ c = .trapsw) ∨ (i = .bkpt q code ∧ c = .bkpt) → Alone i s ig m →
    m.t.handler = none → m.l.trapTab = 0 → s.contexts.find m.g.ctx = some x → x.st = .running →
    ∃ t, exec i s = .next t ∧
      t.threads.find m.k = some { m.t with epc := ig.nextPc, einfo := code.setWidth 32, pc := ig.nextPc, walkFault := none, st := .stopped 0 none } ∧
      (t.contexts.find m.g.ctx).map (·.st) = some (.halting false) ∧
      (t.contexts.find m.g.ctx).map (·.lineUp) = some true)

/-! ## Long-latency producers and die memory -/

/-- IDIV and IREM (R79, R141): D is empty from issue, and the quotient truncated toward zero, or the remainder with the sign of A, is on its
way; division by zero gives all ones and A. LONG_LATENCY_WRITEBACK (R79): a value that has arrived is written, its registers become
full, and nothing else of the thread changes. -/
def Obligations.DivisionIssues : Prop :=
  (∀ (q : Ctl) (d a b : Opd),
    let quo (uns : Bool) (x y : W32) : W32 := if y = 0 then 0xFFFFFFFF
      else if uns then x / y else if x = 0x80000000 ∧ y = 0xFFFFFFFF then 0x80000000 else x.sdiv y
    let rem (uns : Bool) (x y : W32) : W32 := if y = 0 then x
      else if uns then x % y else if x = 0x80000000 ∧ y = 0xFFFFFFFF then 0 else x.srem y
    ∀ uns, Acts (.idiv q d a b uns) (fun s m e => e = (s.produce m d 1 (.val [quo uns (s.src m a) (s.src m b)]) none).2) ∧
      Acts (.irem q d a b uns) fun s m e => e = (s.produce m d 1 (.val [rem uns (s.src m a) (s.src m b)]) none).2) ∧
  (∀ (s : State) (id : Nat) (p : Prod) (t : Thread) (ws : List W32) (r : Nat) (rs : List Nat),
    s.stuck = none → s.prods.find id = some p → p.held = false → p.val = .val ws → s.threads.find p.thread = some t → t.st ≠ .exited →
    p.regs = r :: rs → ws.length = p.regs.length →
    ∃ u x, exec (.longLatencyWriteback id) s = .next u ∧ u.threads.find p.thread = some x ∧
      { x with st := t.st, readyAt := t.readyAt } = (t.setRegs r ws).markFull p.regs ∧ u.mem = s.mem ∧ u.groups = s.groups ∧
      u.prods = s.prods.del id)

/-- LD and LDX (R206 to R208): where the address translates and is aligned, no earlier write of the thread to those bytes is outstanding and a
request is free, the load issues; with `acq` the thread then waits until its loads are performed. How it is performed (R192, R195,
R197, R199): in an S or P page and without the bypass hint, the bytes that the near cache holds are the result; otherwise the load
waits for the fill; with the bypass hint, and in an H page unless an unexpired lease gives a hit, it goes to home. A miss shares the
request that another issue group has sent within 64 clk (R200).
The codes of a MISALIGN, and which loads share a request, are readings (logs 14, 20). -/
def Obligations.LoadsIssue : Prop :=
  (∀ (q : Ctl) (d a b : Opd) (imm : BitVec 16) (sz : BitVec 3) (lease : BitVec 2) (acq sc : Bool),
    let eff (ea : Self → State → W64) (s : State) (m : Self) (e : State) : Prop := ∃ leaf pa s1,
      s.reach m (ea m s) kindLoad (szBytes sz) sz.toNat = (.at_ leaf pa, s1) ∧ s1.overlapPending m.k pa (szBytes sz) State.ordLoad = false ∧
      s1.issueLoad m d leaf pa (szBytes sz) (szSext sz) (leaseDt lease) q.h true = (true, e)
    ActsAcq acq (.ld q d a imm sz lease acq) (eff fun m s => s.src64 m a + imm.signExtend 64) ∧
    ActsAcq acq (.ldx q d a b sz lease acq sc) (eff fun m s => s.src64 m a + (s.src m b).signExtend 64 * BitVec.ofNat 64 (if sc then szBytes sz else 1))) ∧
  (∀ (s : State) (m : Self) (d : Opd) (leaf : W64) (pa size : Nat) (sext : Bool) (lease : Nat) (hint : BitVec 2),
    let n := if size = 16 then 4 else if size = 8 then 2 else 1
    let room := s.sectorRequests m.g.die m.g.core < 3072
    let hit (bs : List Byte) : State :=
      ((s.hintSector m.g.die m.g.core pa hint).produce m d n (.val (loadWords sext bs)) (some (pa, size))).2
    let fill (leader : Nat) : State :=
      (s.produce m d n (.fill pa size sext hint leader s.focus (s.clk m.g.die m.g.core)) (some (pa, size))).2
    let home (s : State) (k : Nat → HKind) (mode : Nat) (h : BitVec 2) : State :=
      let r := s.produce m d n .home (some (pa, size))
      r.2.request m pa size (k r.1) mode h
    let closed := s.partials.find (partKey m.g.die m.g.core pa) = none
    (Leaf.mode leaf ≠ modeH → hint ≠ 3 → ∀ bs, s.ncBytes m.g.die m.g.core pa size modeS = some bs →
      s.issueLoad m d leaf pa size sext lease hint true = (true, hit bs)) ∧
    (Leaf.mode leaf ≠ modeH → hint ≠ 3 → s.ncBytes m.g.die m.g.core pa size modeS = none → s.sharedFill m pa = none → room →
      s.issueLoad m d leaf pa size sext lease hint true = (true, fill s.nextId)) ∧
    (Leaf.mode leaf ≠ modeH → hint ≠ 3 → s.ncBytes m.g.die m.g.core pa size modeS = none → ∀ leader, s.sharedFill m pa = some leader →
      s.issueLoad m d leaf pa size sext lease hint true = (true, fill leader)) ∧
    (Leaf.mode leaf ≠ modeH → hint = 3 → room → s.issueLoad m d leaf pa size sext lease hint true =
      (true, home (s.flushSector m.g.die m.g.core (pa / 64) true [] []) (fun id => .load 0 false id sext n) modeS 0)) ∧
    (Leaf.mode leaf = modeH → hint ≠ 3 → lease ≠ 0 → closed → ∀ bs, s.ncBytes m.g.die m.g.core pa size modeH = some bs →
      s.issueLoad m d leaf pa size sext lease hint true = (true, hit bs)) ∧
    (Leaf.mode leaf = modeH → hint ≠ 3 → lease ≠ 0 → s.ncBytes m.g.die m.g.core pa size modeH = none →
      (closed → s.sharedLoad m pa = none) → room →
      s.issueLoad m d leaf pa size sext lease hint true = (true, home s (fun id => .load lease true id sext n) modeH hint)) ∧
    (Leaf.mode leaf = modeH → hint ≠ 3 → lease ≠ 0 → closed → s.ncBytes m.g.die m.g.core pa size modeH = none →
      ∀ req, s.sharedLoad m pa = some req →
      let r := s.produce m d n .home (some (pa, size))
      s.issueLoad m d leaf pa size sext lease hint true = (true, { r.2 with hreqs := r.2.hreqs.upd req fun x =>
        { x with also := x.also ++ [{ prod := r.1, pa := pa, size := size, sext := sext }], hint := State.hintOf x.hint hint } })) ∧
    (Leaf.mode leaf = modeH → hint = 3 ∨ lease = 0 → room →
      s.issueLoad m d leaf pa size sext lease hint true = (true, home s (fun id => .load 0 false id sext n) modeH hint)))

/-- ST and STX (R206, R209): the store goes to home in an H page or with the bypass hint, and into the near cache otherwise. ATOM and ACAS (R206,
R214): where the access is permitted it issues; in an H page it goes to home under a producer that will bring the old value, or
under none where D is the zero register. RED (R201, R215): folded into the core's partial in an H page, sent to home alone with
`ordered` or in an S page, performed in the owner's near cache in a P page.
That an access in a P page acts at once in the owner's near cache is a reading (log 15). -/
def Obligations.StoresAndAtomicsIssue : Prop :=
  (∀ (q : Ctl) (d a b : Opd) (imm : BitVec 16) (sz : BitVec 3) (rel sc : Bool),
    let eff (ea : Self → State → W64) (s : State) (m : Self) (e : State) : Prop := ∃ leaf pa s1,
      s.reach m (ea m s) kindStore (szBytes sz) sz.toNat = (.at_ leaf pa, s1) ∧
      (rel = true → s1.fenceOk m.k m.g.die 2 2 = true) ∧
      (if Leaf.mode leaf = modeH ∨ q.h = 3 then
        s1.overlapPending m.k pa (szBytes sz) State.ordStore = false ∧ s1.requestsFull m.g.die m.g.core = false
      else s1.overlapPending m.k pa (szBytes sz) State.ordLocal = false) ∧
      let bs := storeBytes sz m s1 d
      e = if Leaf.mode leaf = modeH then
          (s1.hintSector m.g.die m.g.core pa (if q.h = 3 then 0 else q.h)).request m pa (szBytes sz) (.store bs) modeH 0
        else if q.h = 3 then (s1.flushSector m.g.die m.g.core (pa / 64) true [] []).request m pa (szBytes sz) (.store bs) modeS 0
        else s1.ncWrite m.g.die m.g.core m.g.ctx pa bs q.h
    Acts (.st q d a imm sz rel) (eff fun m s => s.src64 m a + imm.signExtend 64) ∧
    Acts (.stx q d a b sz rel sc) (eff fun m s => s.src64 m a + (s.src m b).signExtend 64 * BitVec.ofNat 64 (if sc then szBytes sz else 1))) ∧
  (∀ (q : Ctl) (d a b c : Opd) (fn : BitVec 4) (w64 : Bool) (ord : BitVec 2),
    let size := if w64 then 8 else 4
    let eff (k : Self → State → Option Nat → HKind) (new : Self → State → W64 → W64) (s : State) (m : Self) (e : State) : Prop :=
      ∃ leaf pa s1, (ord.getLsbD 1 = true → s.fenceOk m.k m.g.die 2 2 = true) ∧
        s.reach m (s.src64 m a) kindAtomic size 7 = (.at_ leaf pa, s1) ∧ s1.overlapPending m.k pa size State.ordAtomic = false ∧
        (Leaf.mode leaf ≠ modeP → s1.requestsFull m.g.die m.g.core = false) ∧
        e = s1.issueAtomic m d leaf pa size (k m s1) (new m s1)
    ActsAcq (ord.getLsbD 0) (.atom q d a b fn w64 ord) (eff (fun m s p => .atom fn (s.srcWide m w64 b) p) fun m s old => atomFn fn w64 old (s.srcWide m w64 b)) ∧
    ActsAcq (ord.getLsbD 0) (.acas q d a b c w64 ord) (eff (fun m s p => .acas (s.srcWide m w64 b) (s.srcWide m w64 c) p)
      fun m s old => if old = s.srcWide m w64 b then s.srcWide m w64 c else old) ∧
    (∀ (s : State) m leaf pa k new, Leaf.mode leaf = modeH → s.issueAtomic m .zero leaf pa size k new = s.request m pa size (k none) modeH 0) ∧
    ∀ (s : State) m leaf pa k new r, Leaf.mode leaf = modeH → s.issueAtomic m (.g r) leaf pa size k new =
      (s.produce m (.g r) (size / 4) .home (some (pa, size))).2.request m pa size (k (some s.nextId)) modeH 0) ∧
  (∀ (q : Ctl) (a b : Opd) (fn : BitVec 4) (w64 ordered : Bool) (scope : BitVec 2),
    let size := if w64 then 8 else 4
    Acts (.red q a b fn w64 ordered scope) fun s m e => ∃ leaf pa s1,
      s.reach m (s.src64 m a) kindAtomic size 7 = (.at_ leaf pa, s1) ∧
      (if Leaf.mode leaf = modeS ∨ (Leaf.mode leaf = modeH ∧ ordered) then
        s1.overlapPending m.k pa size State.ordStore = false ∧ s1.requestsFull m.g.die m.g.core = false
      else s1.overlapPending m.k pa size State.ordLocal = false) ∧
      let v := s.srcWide m w64 b
      e = if Leaf.mode leaf = modeH then
          if ordered then s1.request m pa size (.redOrd fn v) modeH 0 else s1.foldRed m pa fn w64 v (scope == 2)
        else if Leaf.mode leaf = modeS then
          (s1.flushSector m.g.die m.g.core (pa / 64) true [] []).request m pa size (.redOrd fn v) modeS 0
        else
          let s2 := s1.ncHold m.g.die m.g.core m.g.ctx pa size
          s2.ncWrite m.g.die m.g.core m.g.ctx pa (leBytes size (atomFn fn w64 (bytesW64 ((s2.ncBytes m.g.die m.g.core pa size modeP).getD [])) v).toNat) 0)

/-- PFL (R212) completes whatever its walk answers: it is dropped where the page does not translate or is locked, and otherwise it starts
a load of the sector's first byte that writes nothing; with LVL it asks home alone, where a request is free. FENCE (R216) completes where
its condition holds. CWB and CINV (R217) complete on every range: the write-backs of the range that are on their way are joined, the dirty
bytes of each sector are sent, and CINV drops the sectors and pushes the partials.
What a FENCE and a CWB wait for are readings (log 16); that PFL's walk uses no TLB entry (log 13), and that CWB and CINV skip a locked
page (log 81), are the model's choices. -/
def Obligations.MaintenanceRuns : Prop :=
  ∀ (q : Ctl) (a b : Opd) (imm : BitVec 16) (lease kind scope : BitVec 2) (lvl all : Bool) (s : State) (ig : IGroup) (m : Self),
    (Alone (.pfl q a imm lease lvl) s ig m →
      let r := s.walkNow m.g.die m.g.ctx m.g.vdie (s.src64 m a + imm.signExtend 64).toNat kindLoad (some m.g.vcore)
      r.2.stuck = none → ∃ t, exec (.pfl q a imm lease lvl) s = .next t ∧ Moved (match r.1 with
        | .hit leaf pa =>
          if lvl then
            if r.2.requestsFull m.g.die m.g.core then r.2
            else { r.2 with nextId := r.2.nextId + 1, hreqs := r.2.hreqs.put r.2.nextId { die := m.g.die, core := m.g.core, ctx := m.g.ctx, thread := none, op := none, pa := pa / 64 * 64, size := 1, kind := .load 0 false 0 false 1, mode := Leaf.mode leaf, recalls := none, ig := r.2.focus, born := r.2.clk m.g.die m.g.core, also := [], after := [], hint := 0 } }
          else (r.2.issueLoad m .none leaf (pa / 64 * 64) 1 false (leaseDt lease) 0 false).2
        | _ => r.2) t ig m) ∧
    (Alone (.fence q kind scope) s ig m → s.fenceOk m.k m.g.die kind.toNat scope.toNat = true →
      ∃ t, exec (.fence q kind scope) s = .next t ∧ Moved s t ig m) ∧
    (Alone (.cwb q a b all) s ig m →
      let r := s.maintained m a b all
      r.2.stuck = none → ∃ t, exec (.cwb q a b all) s = .next t ∧
        Moved ((r.2.ncSectors m.g.die m.g.core m.g.ctx r.1).foldl (fun s sec => s.flushSector m.g.die m.g.core sec false [m.k] [])
          (r.2.joinBacks m r.1 [m.k] [])) t ig m) ∧
    (Alone (.cinv q a b all) s ig m →
      let r := s.maintained m a b all
      r.2.stuck = none → ∃ t, exec (.cinv q a b all) s = .next t ∧
        let s2 := (r.2.partLines m.g.die m.g.core m.g.ctx r.1).foldl (fun s l => s.pushPartial m.g.die m.g.core l) (r.2.joinBacks m r.1 [] [m.k])
        Moved ((s2.ncSectors m.g.die m.g.core m.g.ctx r.1).foldl (fun s sec => s.flushSector m.g.die m.g.core sec true [] [m.k]) s2) t ig m)

/-! ## Scratchpad, waits and the engines -/

/-- LDS, STS, TAGSET, TAGRD, AWINIT, AWADD, AWAIT (R210, R211, R228 to R233), where the alignment, the range and the tag permit the access and no
AWAIT of the thread is pending. An LDS or STS whose tag does not permit it waits, without TT, and an AWAIT whose generation has not passed
goes on with D empty; when the word changes, a wait that is then permitted is performed. What an arrival does to an armed word (R230): the
sum of the count and the bytes, modulo the target, stays in the count, and the generation rises by the quotient.
What a pending AWAIT holds back is a reading (log 19). -/
def Obligations.ScratchpadRuns : Prop :=
  (∀ (q : Ctl) (d a b : Opd) (imm : BitVec 16) (sz : BitVec 3) (tag : BitVec 2) (tt full clr : Bool),
    let off (s : State) (m : Self) : Nat := (s.src m a + imm.signExtend 32).toNat
    let at_ (s : State) (m : Self) : Nat := (s.src m a).toNat
    Acts (.lds q d a imm sz tag tt) (fun s m e => m.t.waitDone = false ∧ spadCheck m s (off s m) (szBytes sz) (szBytes sz) 0 sz.toNat = none ∧
      (tag = 0 ∨ s.tagFull m.gid (off s m / 8) = true) ∧
      let ws := loadWords (szSext sz) (s.spadRead m.gid (off s m) (szBytes sz))
      let s1 := (s.produce m d ws.length (.val ws) none).2
      e = if tag = 2 then (s1.setTag m.gid (off s m / 8) false).settleWords m.gid [off s m / 8] else s1) ∧
    Acts (.sts q d a imm sz tag tt) (fun s m e => m.t.waitDone = false ∧ spadCheck m s (off s m) (szBytes sz) (szBytes sz) 1 sz.toNat = none ∧
      (tag = 0 ∨ tag = 2 ∨ s.tagFull m.gid (off s m / 8) = false) ∧
      let bs := storeBytes sz m s d
      e = if tag = 0 then s.spadWrite m.gid (off s m) bs
        else ((s.updGroup m.gid fun g => { g with spad := cellsSet g.spad (off s m) bs }).setTag m.gid (off s m / 8) true).settleWords
          m.gid [off s m / 8]) ∧
    Acts (.tagset q a b full) (fun s m e => at_ s m % 8 = 0 ∧ ((s.src m b).toNat = 0 ∨ at_ s m + 8 * (s.src m b).toNat ≤ m.l.spad) ∧
      s.pendingAwait m = none ∧
      let words := (List.range (s.src m b).toNat).map (at_ s m / 8 + ·)
      e = (words.foldl (fun s w => s.setTag m.gid w full) s).settleWords m.gid words) ∧
    Acts (.tagrd q d a) (fun s m e => spadCheck m s (at_ s m) 1 8 0 5 = none ∧ ∃ v : W32,
      (∀ j < 32, v.getLsbD j = (decide (at_ s m + 8 * j < m.l.spad) && s.tagFull m.gid (at_ s m / 8 + j))) ∧
      e = (s.produce m d 1 (.val [v]) none).2) ∧
    Acts (.awinit q a b clr) (fun s m e => spadCheck m s (at_ s m) 8 8 2 5 = none ∧
      let gen := if clr then 0 else (s.arrivalGen m.gid (at_ s m)).toNat
      let v := (s.src m b).toNat % 2 ^ 24 * 2 ^ 24 + gen * 2 ^ 48
      e = ((s.updGroup m.gid fun g => { g with spad := cellsSet g.spad (at_ s m) (leBytes 8 v) }).setTag m.gid (at_ s m / 8) false).settleWords
        m.gid [at_ s m / 8]) ∧
    Acts (.awadd q a b) (fun s m e => spadCheck m s (at_ s m) 8 8 2 5 = none ∧
      s.arrive m.gid (at_ s m) (s.src m b).toNat = some e) ∧
    Acts (.await q d a b) (fun s m e => spadCheck m s (at_ s m) 8 8 0 5 = none ∧
      s.arrivalGen m.gid (at_ s m) ≠ (s.src m b).setWidth 16 ∧
      e = (s.produce m d 1 (.val [(s.arrivalGen m.gid (at_ s m)).setWidth 32]) none).2) ∧
    Acts (.await q d a b) (fun s m e => spadCheck m s (at_ s m) 8 8 0 5 = none ∧
      s.arrivalGen m.gid (at_ s m) = (s.src m b).setWidth 16 ∧
      let p := s.produce m d 1 .tagged none
      e = p.2.updGroup m.gid fun g => { g with tagWaits := g.tagWaits ++ [{ thread := m.k, word := at_ s m / 8, off := at_ s m, sz := 8, kind := 3, dst := [], sext := false, data := [], gen := (s.src m b).setWidth 16, prod := p.1 }] }) ∧
    Holds (.lds q d a imm sz tag false) (fun s m w e => m.t.waitDone = false ∧
      spadCheck m s (off s m) (szBytes sz) (szBytes sz) 0 sz.toNat = none ∧ tag ≠ 0 ∧ s.tagFull m.gid (off s m / 8) = false ∧
      (∀ x ∈ m.g.tagWaits, x.thread = m.k → x.kind = 3) ∧ w = ⟨waitTag, BitVec.ofNat 64 (off s m), off s m / 8⟩ ∧
      e = s.updGroup m.gid fun g => { g with tagWaits := g.tagWaits ++ [{ thread := m.k, word := off s m / 8, off := off s m, sz := szBytes sz, kind := if tag = 2 then 1 else 0, dst := Thread.opdRegs d (if szBytes sz = 8 then 2 else 1), sext := szSext sz, data := [], gen := 0, prod := 0 }] }) ∧
    Holds (.sts q d a imm sz tag false) (fun s m w e => m.t.waitDone = false ∧
      spadCheck m s (off s m) (szBytes sz) (szBytes sz) 1 sz.toNat = none ∧ tag ≠ 0 ∧ tag ≠ 2 ∧ s.tagFull m.gid (off s m / 8) = true ∧
      (∀ x ∈ m.g.tagWaits, x.thread = m.k → x.kind = 3) ∧ w = ⟨waitTag, BitVec.ofNat 64 (off s m), off s m / 8⟩ ∧
      e = s.updGroup m.gid fun g => { g with tagWaits := g.tagWaits ++ [{ thread := m.k, word := off s m / 8, off := off s m, sz := szBytes sz, kind := 2, dst := [], sext := false, data := storeBytes sz m s d, gen := 0, prod := 0 }] })) ∧
  (∀ (s : State) (gid : Nat) (g : Group) (x : TagWait) (p : Prod) (m : Self), s.groups.find gid = some g → g.tagWaits = [x] →
    let u := s.settleWords gid [x.word]
    let ended : Prop := (u.groups.find gid).map (·.tagWaits) = some [] ∧ (u.threads.find x.thread).map (·.waitDone) = some true
    (x.kind = 3 → s.arrivalGen gid x.off ≠ x.gen → s.prods.find x.prod = some p → p.held = false →
      (u.groups.find gid).map (·.tagWaits) = some [] ∧ u.prods.find x.prod = some { p with val := .val [(s.arrivalGen gid x.off).setWidth 32] }) ∧
    (x.kind = 2 → s.tagFull gid x.word = false → Memory.wf g.spad = true → (s.threads.find x.thread).isSome →
      ended ∧ u.tagFull gid x.word = true ∧ u.spadRead gid x.off x.data.length = x.data) ∧
    (x.kind ≤ 1 → s.tagFull gid x.word = true → s.self x.thread = some m → ended ∧ u.tagFull gid x.word = decide (x.kind = 0) ∧
      ∃ id y, u.prods.find id = some y ∧ y.thread = m.k ∧ y.regs = x.dst ∧ y.val = .val (loadWords x.sext (s.spadRead gid x.off x.sz))) ∧
    (s.waitMet gid x = false → u = s)) ∧
  (∀ (s : State) (gid off n : Nat) (g : Group), s.groups.find gid = some g → Memory.wf g.spad = true → g.tagWaits = [] →
    let v := leNat (cellsGet g.spad off 8)
    let count := v % 2 ^ 24
    let target := v / 2 ^ 24 % 2 ^ 24
    (target = 0 → s.arrive gid off n = none) ∧
    (target ≠ 0 → ∃ e, s.arrive gid off n = some e ∧ leNat (e.spadRead gid off 8) =
      (count + n) % target + target * 2 ^ 24 + (v / 2 ^ 48 + (count + n) / target) % 2 ^ 16 * 2 ^ 48))

/-- SPAWN (R120, R121) with a place in a waystation, without one, and behind a pending AWAIT of its thread (R123), PARK (R253) and ECALL (R381) when they wait and when their wait is over, WAITC
(R250) and CVWAIT (R246) with their condition met, and MWAIT (R252): its read, which follows the thread's and the core's earlier accesses
and the recall of the line's partials, finds the word different, and the thread goes on, or arms the monitor.
That SPAWN waits for an AWAIT is a reading (log 19), as are the places of an ECALL (log 64); the recall within the step is the model's
choice (log 11). -/
def Obligations.WaitsAndSpawns : Prop :=
  ∀ (q : Ctl) (d a b c : Opd) (npay cp mx qu gs cv : BitVec 4) (svc : Byte) (w64 acq : Bool),
    let done (s : State) (m : Self) : State := s.updThread m.k fun t => { t with waitDone := false }
    let cont (s : State) (m : Self) : Cont :=
      { entry := s.src64 m a, work := s.src64 m c, pay := s.srcRun m b npay.toNat, index := none, src := some (m.k, m.t.pc, s.word, s.nextId) }
    Acts (.spawn q a b c npay) (fun s m e => s.pendingAwait m = none ∧
      s.enterStation m.g.die m.g.core m.gid m.w.width (cont s m) = some e) ∧
    Holds (.spawn q a b c npay) (fun s m w e => s.pendingAwait m = none ∧
      s.enterStation m.g.die m.g.core m.gid m.w.width (cont s m) = none ∧ e = s ∧ w = ⟨waitStation, s.src64 m a, 0⟩) ∧
    Holds (.spawn q a b c npay) (fun s m w e => ∃ x, s.pendingAwait m = some x ∧ e = s ∧ w = ⟨waitArrival, x.gen.setWidth 64, x.off⟩) ∧
    Holds (.park q a) (fun s m w e => m.t.waitDone = false ∧ e = s ∧
      w = ⟨waitOther, BitVec.ofNat 64 (s.now m.g.die + (s.src m a).toNat), parkPlace (s.src m a).toNat⟩) ∧
    Acts (.park q a) (fun s m e => m.t.waitDone = true ∧ e = done s m) ∧
    Holds (.ecall q d a svc) (fun s m w e => ∃ x, m.t.waitDone = false ∧ s.contexts.find m.g.ctx = some x ∧ s.ecalled m.k = false ∧
      s.callPlaces x.vf m.g.die < 64 ∧ w = State.svcWait 0xF6 ∧
      e = { s with nextId := s.nextId + 1, callQueue := s.callQueue.put s.nextId { vf := x.vf, die := m.g.die, vdie := m.g.vdie, ctx := m.g.ctx, thread := m.k, vcore := m.g.vcore, group := m.g.num, warp := m.w.num, lane := m.t.lane, sel := svc.toNat, fn := 0, arg := s.src64 m a, regs := regsOf d 2 } }) ∧
    Acts (.ecall q d a svc) (fun s m e => m.t.waitDone = true ∧ e = done s m) ∧
    Acts (.waitc q cp mx qu gs) (fun s m e => countersOk m.w (packWait cp.toNat mx.toNat qu.toNat gs.toNat) = true ∧ e = s) ∧
    Acts (.cvwait q a cv) (fun s m e => (s.cv m.gid cv.toNat).gen ≠ s.src m a ∧ e = s) ∧
    let reads (s : State) (m : Self) (pa : Nat) (u : State) : Prop := ∃ leaf s1 s3, m.t.waitDone = false ∧
      s.reach m (s.src64 m a) kindLoad (if w64 then 8 else 4) (if w64 then 5 else 4) = (.at_ leaf pa, s1) ∧
      let s2 := if Leaf.mode leaf = modeH then s1 else s1.flushSector m.g.die m.g.core (pa / 64) true [] []
      s2.overlapPending m.k pa (if w64 then 8 else 4) State.ordLoad = false ∧ s2.linePending m.g.die m.g.core pa = false ∧
      s2.mayRead (State.threadReader m.k) m.g.die pa = (true, s3) ∧ u = s3.readDone (State.threadReader m.k)
    ActsAcq acq (.mwait q a b c w64 acq) (fun s m e => ∃ pa u, reads s m pa u ∧
      bytesW64 (u.memRead m.g.die pa (if w64 then 8 else 4)) ≠ u.srcWide m w64 b ∧ e = { u with monitors := u.monitors.del m.k }) ∧
    ActsAcq acq (.mwait q a b c w64 acq) (fun s m e => m.t.waitDone = true ∧
      e = s.updThread m.k fun t => { t with waitDone := false, mayFired := false }) ∧
    Holds (.mwait q a b c w64 acq) fun s m w e => ∃ pa u, reads s m pa u ∧ s.monitors.find m.k = none ∧
      bytesW64 (u.memRead m.g.die pa (if w64 then 8 else 4)) = u.srcWide m w64 b ∧
      w = ⟨waitMonitor, u.srcWide m w64 b, (s.src64 m a).toNat⟩ ∧
      e = { u with monitors := u.monitors.put m.k { armed := true, thread := m.k, die := m.g.die, sector := pa / 64, va := s.src64 m a, pa := pa, w64 := w64, cmp := s.srcWide m w64 b, deadline := if c = .none then none else some (s.now m.g.die + (s.src m c).toNat) } }

/-- CVSIGN and CVRST (R245, R247); a CVSIGN behind a pending AWAIT of its thread waits (R248), which is a reading (log 19). -/
def Obligations.ConvergenceRuns : Prop :=
  ∀ (q : Ctl) (d a : Opd) (cv : BitVec 4) (wait : Bool),
    Acts (.cvsign q d a cv wait) (fun s m e =>
      let r := s.cv m.gid cv.toNat
      let n := (s.src m a).toNat
      s.pendingAwait m = none ∧ m.t.grant ≠ waitEngine ∧ 0 < n ∧ n ≤ 65535 ∧ (r.count = 0 ∨ n = r.count) ∧
      (r.fires n = true → r.mgen.isSome = true → s.hasRoom m = true) ∧
      e = (s.produce m d 1 (if wait then .cvWait cv.toNat r.gen else .val [r.gen]) none).2.countSig m.gid cv.toNat n) ∧
    Holds (.cvsign q d a cv wait) (fun s m w e => ∃ x, s.pendingAwait m = some x ∧ m.t.grant ≠ waitEngine ∧
      0 < (s.src m a).toNat ∧ (s.src m a).toNat ≤ 65535 ∧ ((s.cv m.gid cv.toNat).count = 0 ∨ (s.src m a).toNat = (s.cv m.gid cv.toNat).count) ∧
      e = s ∧ w = ⟨waitArrival, x.gen.setWidth 64, x.off⟩) ∧
    Acts (.cvrst q cv) (fun s m e =>
      let r := s.cv m.gid cv.toNat
      let s1 := s.setCv m.gid cv.toNat { gen := r.gen + 1, count := 0, sigs := 0, mgen := none }
      let s2 := match r.mgen with
        | some x => (s1.endUser m.g.die m.g.core x.id).completeSeqs x.warp x.seqs []
        | none => s1
      e = s2.passGen m.gid cv.toNat (r.gen + 1)) ∧
    (∀ (s : State) gid c n, (s.groups.find gid).isSome = true → (s.cv gid c).fires n = false → (s.cv gid c).count = 0 ∨ (s.cv gid c).count = n →
      (s.countSig gid c n).cv gid c = { (s.cv gid c) with count := n, sigs := (s.cv gid c).sigs + 1 }) ∧
    ∀ (s : State) gid c n, (s.groups.find gid).isSome = true → (s.cv gid c).fires n = true → (s.cv gid c).count = 0 ∨ (s.cv gid c).count = n →
      (s.countSig gid c n).cv gid c = { gen := (s.cv gid c).gen + 1, count := 0, sigs := 0, mgen := none }

/-- THAL, THREL, THGIVE (R266 to R268): a free tile takes the name and the descriptor, a name is released, a name passes to another
warp of the group. ACCZ and ACCRD (R272, R274).
Which of several waiters gets a tile is the model's choice (log 28). -/
def Obligations.HandlesAndAccumulatorRun : Prop :=
  (∀ (q : Ctl) (d a b : Opd) (sf : Bool) (ps : PredNo),
    Acts (.thal q d a b sf ps) (fun s m e =>
      let h := handleOf d
      let r := s.handle m.gid h
      let av := (s.src m a).toNat
      let bv := (s.src m b).toNat
      ∃ t ts, (r.bound = false ∨ r.owner = m.w.num) ∧ descCheck m h r av bv = none ∧ m.t.grant ≠ waitTile ∧
      s.freeTiles m.g.die m.g.core = t :: ts ∧ s.grantsOut m.g.die m.g.core waitTile < ts.length + 1 ∧
      let s1 := ((s.dropGrant m).setHandle m.gid h { fmt := BitVec.ofNat 4 av, bl := BitVec.ofNat 2 (av / 16), rows := BitVec.ofNat 8 (av / 256), cols := BitVec.ofNat 8 (av / 65536), st := .allocated, owner := m.w.num, soff := if BitVec.ofNat 2 (av / 16) = 0 then 0 else bv, tile := some t, saved := [] }).wakeScore m.g.die m.g.core
      let s2 := match r.tile with
        | some old => s1.returnTile m.g.die m.g.core old
        | none => s1
      e = if sf then s2.updThread m.k (fun t => t.setPred ps true) else s2) ∧
    Acts (.thal q d a b true ps) (fun s m e =>
      let h := handleOf d
      let r := s.handle m.gid h
      (r.bound = false ∨ r.owner = m.w.num) ∧ descCheck m h r (s.src m a).toNat (s.src m b).toNat = none ∧ m.t.grant ≠ waitTile ∧
      s.freeTiles m.g.die m.g.core = [] ∧ e = s.updThread m.k fun t => t.setPred ps false) ∧
    Acts (.threl q a) (fun s m e => handleCheck m s (handleOf a) = none ∧ e = s.releaseName m.gid (handleOf a)) ∧
    Acts (.thgive q a b) (fun s m e => handleCheck m s (handleOf a) = none ∧ (s.handle m.gid (handleOf a)).st ≠ .busy ∧
      ((s.groupWarps m.gid).any fun w => w.2.num == (s.src m b).toNat) = true ∧
      e = s.setHandle m.gid (handleOf a) { s.handle m.gid (handleOf a) with owner := (s.src m b).toNat })) ∧
  (∀ (q : Ctl) (d a b : Opd) (n : BitVec 2),
    Acts (.accz q a b) (fun s m e =>
      let c := s.src m a
      let x := s.src m b
      accCheck m c (coordRow x) (coordCol x) = none ∧ m.w.mx = 0 ∧ m.w.cp = 0 ∧
      e = s.updGroup m.gid fun g => { g with acc := g.acc.filter fun e =>
        !(decide (coordRow c ≤ e.1 / 512) && decide (e.1 / 512 < coordRow c + coordRow x) &&
          decide (coordCol c ≤ e.1 % 512) && decide (e.1 % 512 < coordCol c + coordCol x)) }) ∧
    Acts (.accrd q d a n) fun s m e => accCheck m (s.src m a) 1 (accCells n) = none ∧
      let ws := (List.range (accCells n)).map fun i => s.accGet m.gid (coordRow (s.src m a)) (coordCol (s.src m a) + i)
      e = (s.produce m d ws.length (.val ws) none).2)

/-- CPY, CPYN, CPYX, CPYP, GATH, SCAT (R234, R236, R239, R240): the operands are captured at issue into one transfer of an engine operation.
CPYT, THST, ACCLD, ACCST (R270, R273): the same for a tile and for the accumulator; the tile's name is LOADING or BUSY meanwhile. The
operation of a GATH or SCAT raises GS, and that of every other raises CP (R84).
The order of the range checks, and one operation per warp, are the model's (logs 18, 20). -/
def Obligations.TransfersIssue : Prop :=
  (∀ (q : Ctl) (d a b c : Opd) (dir : BitVec 2) (sp : Bool) (esz : BitVec 3),
    let eff (i : Instr) (mk : Self → State → Transfer) (s : State) (m : Self) (e : State) : Prop :=
      transferCheck (mk m s) m s = none ∧ ∀ ig, s.igroups.find s.focus = some ig → e = (s.addOp i m ig.pc [m.t.lane] none [mk m s]).2
    let blank (m : Self) (k : XKind) : Transfer := Transfer.blank m k
    let sd (b : Bool) : Place := if b then .spad else .die
    Acts (.cpy q d a b c dir) (eff (.cpy q d a b c dir) fun m s =>
      { blank m .cpy with dpl := sd (!dir.getLsbD 0), spl := sd (dir != 0 && dir != 3), dst := addrOf (sd (!dir.getLsbD 0)) d m s, src := addrOf (sd (dir != 0 && dir != 3)) a m s, len := (s.src m b).toNat, aw := awOf c m s }) ∧
    Acts (.cpyn q d a b c dir) (eff (.cpyn q d a b c dir) fun m s =>
      let f := s.srcRun m b 4
      { blank m .cpyn with dpl := sd (!dir.getLsbD 0), spl := sd (dir != 0 && dir != 3), dst := addrOf (sd (!dir.getLsbD 0)) d m s, src := addrOf (sd (dir != 0 && dir != 3)) a m s, len := (f.getD 0 0).toNat, rows := (f.getD 1 0).toNat, sstr := (f.getD 2 0).toInt, dstr := (f.getD 3 0).toInt, aw := awOf c m s }) ∧
    Acts (.cpyx q d a b c sp) (eff (.cpyx q d a b c sp) fun m s =>
      { blank m .cpyx with dpl := .spad, spl := sd sp, dst := addrOf .spad d m s, src := addrOf (sd sp) a m s, len := (s.src m b).toNat, aw := awOf c m s }) ∧
    Acts (.cpyp q d a b c sp) (eff (.cpyp q d a b c sp) fun m s =>
      { blank m .cpyp with dpl := sd sp, spl := .spad, dst := addrOf (sd sp) d m s, src := addrOf .spad a m s, len := (s.src m b).toNat, aw := awOf c m s }) ∧
    Acts (.gath q d a b c esz) (eff (.gath q d a b c esz) fun m s =>
      let f := s.srcRun m b 2
      { blank m .gath with dpl := .spad, spl := .die, dst := addrOf .spad d m s, src := addrOf .die a m s, ix := (f.getD 0 0).toNat, rows := (f.getD 1 0).toNat, esz := 2 ^ esz.toNat, aw := awOf c m s }) ∧
    Acts (.scat q d a b c esz) (eff (.scat q d a b c esz) fun m s =>
      let f := s.srcRun m b 2
      { blank m .scat with dpl := .die, spl := .spad, dst := addrOf .die d m s, src := addrOf .spad a m s, ix := (f.getD 0 0).toNat, rows := (f.getD 1 0).toNat, esz := 2 ^ esz.toNat, aw := awOf c m s })) ∧
  (∀ (q : Ctl) (d a b c : Opd) (sp clr : Bool),
    let sd : Place := if sp then .spad else .die
    Acts (.cpyt q d a b sp) (fun s m e =>
      let h := handleOf d
      let r := s.handle m.gid h
      let t : Transfer := { Transfer.blank m .cpyt with dpl := .tile, spl := sd, src := addrOf sd a m s, len := rowBytes r.fmt r.cols, rows := r.rows.toNat + 1, sstr := (s.src m b).toNat, tile := r.tile.getD 0, fmt := r.fmt }
      handleCheck m s h = none ∧ transferCheck t m s = none ∧ r.st ≠ .busy ∧
      let o := s.addOp (.cpyt q d a b sp) m m.t.pc [m.k % 64] (some h) [t]
      e = (o.2.updTile m.g.die m.g.core t.tile fun x => { x with writers := x.writers ++ [o.1] }).setHandle m.gid h { r with st := .loading }) ∧
    Acts (.thst q d a b sp) (fun s m e =>
      let h := handleOf a
      let r := s.handle m.gid h
      let t : Transfer := { Transfer.blank m .thst with dpl := sd, spl := .tile, dst := addrOf sd d m s, len := rowBytes r.fmt r.cols, rows := r.rows.toNat + 1, dstr := (s.src m b).toNat, tile := r.tile.getD 0, fmt := r.fmt }
      handleCheck m s h = none ∧ transferCheck t m s = none ∧ r.st ≠ .loading ∧
      let o := s.addOp (.thst q d a b sp) m m.t.pc [m.k % 64] (some h) [t]
      e = (o.2.updTile m.g.die m.g.core t.tile fun x => { x with readers := x.readers ++ [o.1] }).setHandle m.gid h { r with st := .busy }) ∧
    Acts (.accld q d a b c sp) (fun s m e =>
      let t : Transfer := { Transfer.blank m .accld with dpl := .acc, spl := sd, src := addrOf sd a m s, len := coordCol (s.src m b), rows := coordRow (s.src m b), sstr := (s.src m c).toNat, coord := s.src m d }
      accXferCheck t (addrOf sd a m s) (s.src m c).toNat 4 (s.src m b) m s = none ∧
      e = (s.addOp (.accld q d a b c sp) m m.t.pc [m.k % 64] none [t]).2) ∧
    Acts (.accst q d a b c sp clr) (fun s m e =>
      let t : Transfer := { Transfer.blank m .accst with dpl := sd, spl := .acc, dst := addrOf sd d m s, len := coordCol (s.src m b), rows := coordRow (s.src m b), dstr := (s.src m c).toNat, coord := s.src m a, clr := clr }
      accXferCheck t (addrOf sd d m s) (s.src m c).toNat 5 (s.src m b) m s = none ∧
      e = (s.addOp (.accst q d a b c sp clr) m m.t.pc [m.k % 64] none [t]).2)) ∧
  ∀ (q : Ctl) (d a b c : Opd) (dir : BitVec 2) (sp clr : Bool) (esz : BitVec 3) (s : State) (m : Self) (w : Warp) (pc : W64) (lanes : List Nat)
    (h : Option Nat) (ts : List Transfer), s.warps.find m.t.warp = some w →
    let counted (i : Instr) : Option (Nat × Nat) := ((s.addOp i m pc lanes h ts).2.warps.find m.t.warp).map fun x => (x.cp, x.gs)
    (∀ i ∈ [Instr.cpy q d a b c dir, .cpyn q d a b c dir, .cpyx q d a b c sp, .cpyp q d a b c sp, .cpyt q d a b sp, .thst q d a b sp,
      .accld q d a b c sp, .accst q d a b c sp clr], counted i = some (w.cp + 1, w.gs)) ∧
    ∀ i ∈ [Instr.gath q d a b c esz, .scat q d a b c esz], counted i = some (w.cp, w.gs + 1)

/-- MMA, MMAL, PHMMA (R277, R286, R288, R289): a signature that passes its checks and does not fire adds the thread's row, from its latch or from
the sixteen registers of A, and its name, to the operation that the generation holds; one that fires issues that operation, and the
generation passes (R245, R283). PHFIN and QNT (R283, R290, R291): with every range in place and room in the queue, the operation is queued
and raises MX. That a signature follows the thread's pending AWAIT is a reading (log 19). -/
def Obligations.MatrixInstructionsIssue : Prop :=
  (∀ (q : Ctl) (cv : BitVec 4) (a b c : Opd) (af conj : Bool) (ks : BitVec 2) (i : Instr) (op : Nat) (eb : Byte) (fmts : List Nat) (wide : Bool)
    (s : State) (ig : IGroup) (m : Self),
    (i = .mma q cv a b c af ∧ op = 0xD0 ∧ eb = BitVec.ofNat 8 af.toNat ∧ fmts = (if af then [3, 4, 5, 6] else [1, 2, 3, 4, 5, 6]) ∧ wide = false) ∨
    (i = .mmal q cv a b c af ks ∧ op = 0xD1 ∧ eb = BitVec.ofNat 8 (af.toNat + 2 * ks.toNat) ∧ fmts = [13, 14] ∧ wide = false) ∨
    (i = .phmma q cv a b c conj ∧ op = 0xD2 ∧ eb = BitVec.ofNat 8 conj.toNat ∧ fmts = [7] ∧ wide = true) →
    Alone i s ig m →
    let h := s.handle m.gid (handleOf b)
    let n := (maskList m.w.roster).length
    let r := s.cv m.gid cv.toNat
    let row := m.t.latch.getD (BitVec.ofNat 512 (leNat (wordsBytes (s.srcRun m a 16))))
    handleCheck m s (handleOf b) = none → h.st ≠ .loading → h.fmt.toNat ∈ fmts →
    (∀ x, r.mgen = some x → x.coord = s.src m c ∧ some x.tile = h.tile ∧ x.op = op ∧ x.ebits = eb ∧ x.warp = m.t.warp) →
    (∀ g ∈ s.groups, ∀ y ∈ g.2.cvs, ∀ x, y.2.mgen = some x → x.tag = none) → (∀ o ∈ s.mops, o.2.tag = none) → m.w.mx < 255 →
    accCheck m (s.src m c) m.w.width (if wide then 2 * (h.cols.toNat + 1) else h.cols.toNat + 1) = none →
    0 < n → n ≤ 65535 → r.count = 0 ∨ r.count = n → s.pendingAwait m = none → m.t.grant ≠ waitEngine →
    (r.fires n = true → s.hasRoom m = true → ∃ t x id, exec i s = .next t ∧
      (t.cv m.gid cv.toNat).gen = r.gen + 1 ∧ (t.cv m.gid cv.toNat).count = 0 ∧ (t.cv m.gid cv.toNat).sigs = 0 ∧
      (t.cv m.gid cv.toNat).mgen = none ∧ t.mops.find id = some x ∧ x.op = op ∧ x.ebits = eb ∧ x.coord = s.src m c ∧ x.tile = h.tile.or (some 0) ∧
      x.rows = (match r.mgen with | some y => y.rows | none => []).put m.t.lane row ∧
      x.members = (match r.mgen with | some y => y.signers | none => []) ++ [m.k] ∧ x.running = false ∧ x.held = false ∧
      (t.warps.find m.t.warp).map (·.mx) = some (m.w.mx + 1) ∧ t.mem = s.mem ∧
      (t.threads.find m.k).map (fun y => (y.pc, y.latch)) = some (ig.nextPc, if q.ru then some row else none)) ∧
    (r.fires n = false → ∃ t x, exec i s = .next t ∧ (t.cv m.gid cv.toNat).mgen = some x ∧
      (t.cv m.gid cv.toNat).gen = r.gen ∧ (t.cv m.gid cv.toNat).count = n ∧ (t.cv m.gid cv.toNat).sigs = r.sigs + 1 ∧
      x.op = op ∧ x.coord = s.src m c ∧ x.warp = m.t.warp ∧
      x.rows = (match r.mgen with | some y => y.rows | none => []).put m.t.lane row ∧
      x.signers = (match r.mgen with | some y => y.signers | none => []) ++ [m.k] ∧
      t.threads.find m.k = some (onward ig (s.clkOf m.k) { m.t with latch := if q.ru then some row else none }) ∧ t.mem = s.mem)) ∧
  (∀ (q : Ctl) (d a b c : Opd) (fmt bl : BitVec 2) (ci clr : Bool),
    let eff (op : Nat) (eb : Byte) (s : State) (m : Self) (e : State) : Prop :=
      s.pendingAwait m = none ∧ m.t.grant ≠ waitEngine ∧ s.hasRoom m = true ∧
      let o := ({ s with nextId := s.nextId + 1 } : State).countOp m.t.warp 1 s.nextId
      e = o.2.enqueueOp { user := s.nextId, die := m.g.die, core := m.g.core, group := m.gid, warp := m.t.warp, op := op, ebits := eb, tile := none, handle := 0, coord := s.src m a, dst := (s.src m d).toNat, extent := s.src m b, cn := s.src m c, rows := [], members := [m.k], seqs := [o.1], running := false, scales := [], held := false, hrec := Handle.free, tag := none, snap := none, pc := m.t.pc, word := s.word }
    Acts (.phfin q d a b c clr) (fun s m e =>
      let x := s.src m b
      (s.src m d).toNat % 4 = 0 ∧ accCheck m (s.src m a) (coordRow x) (2 * coordCol x) = none ∧
      (s.src m d).toNat + 4 * coordRow x * coordCol x ≤ m.l.spad ∧ eff 0xD3 (BitVec.ofNat 8 clr.toNat) s m e) ∧
    Acts (.qnt q d a b c fmt bl ci clr) fun s m e =>
      let x := s.src m b
      accCheck m (s.src m a) (coordRow x) (coordCol x) = none ∧ (s.src m d).toNat + coordRow x * coordCol x ≤ m.l.spad ∧
      (s.src m c).toNat + coordRow x * qntBlocks bl (coordCol x) ≤ m.l.spad ∧
      eff 0xD4 (BitVec.ofNat 8 (fmt.toNat + 4 * bl.toNat + 16 * ci.toNat + 32 * clr.toNat)) s m e)

/-! ## Queue instructions and signals -/

/-- QOPEN, QPUT with the status form, QWAIT, QRESET, QCLOSE (R336, R342, R344, R346, R351, R352, R354): the request leaves the port and the thread
is held at its slot; once the answer has come, it goes on; a translation that fails ends a status form at the port. QRSV, QTAKE,
QPEEK (R342, R345, R348, R350) leave a producer for their answer, and QPUT without the status form (R346) is posted.
The order in which a port's requests leave, and that of RANGE among the checks, are readings (logs 38, 39). -/
def Obligations.QueueRequestsIssue : Prop :=
  (∀ (q : Ctl) (d a b : Opd) (rel sf : Bool) (len : BitVec 2) (ps : PredNo),
    let sent (op : Byte) (need : Nat) (regs : List Nat) (what : Self → State → Bind → QOp) (st : Bool) (s : State) (m : Self) (w : Wait) (e : State) :
        Prop := ∃ x s1, m.t.waitDone = false ∧ s.heldQ m.k = false ∧
      s.bindQ m.g.ctx m.g.vdie m.g.die (s.src m a).toNat need = (.ok x, s1) ∧ w = heldWait op (s.src m a) ∧
      e = { s1 with nextId := s1.nextId + 1, qreqs := s1.qreqs ++ [{ mkReq m x s1.nextId (s.src m a) op (what m s x) st ps with regs := regs, word := s1.word }] }
    let ended (s : State) (m : Self) (e : State) : Prop := m.t.waitDone = true ∧ e = s.updThread m.k fun t => { t with waitDone := false }
    let fails (op : Byte) (need : Nat) (s : State) (m : Self) (e : State) : Prop := ∃ code s1, m.t.waitDone = false ∧ s.heldQ m.k = false ∧
      s.bindQ m.g.ctx m.g.vdie m.g.die (s.src m a).toNat need = (.error code, s1) ∧ s1.stuck = none ∧ e = s1.setStatus m.k op code true ps
    let first (s : State) (m : Self) : Prop := rel = true → s.fenceOk m.k m.g.die 2 2 = true
    Holds (.qopen q d a sf ps) (sent 0xE0 3 (regsOf d 2) (fun _ _ x => .open_ x.rights) sf) ∧ Acts (.qopen q d a sf ps) ended ∧
    Acts (.qopen q d a true ps) (fails 0xE0 3) ∧
    Holds (.qput q d a b rel len true ps) (fun s m w e => first s m ∧
      sent 0xE2 0 [] (fun m s x => .fill (s.src64 m b).toNat (putBytes m s d len x.esize)) true s m w e) ∧
    Acts (.qput q d a b rel len true ps) ended ∧ Acts (.qput q d a b rel len true ps) (fun s m e => first s m ∧ fails 0xE2 0 s m e) ∧
    Holds (.qwait q a sf ps) (sent 0xE7 1 [] (fun _ _ _ => .wait) sf) ∧ Acts (.qwait q a sf ps) ended ∧
    Acts (.qwait q a true ps) (fails 0xE7 1) ∧
    Holds (.qreset q a sf ps) (sent 0xE8 2 [] (fun _ _ _ => .reset) sf) ∧ Acts (.qreset q a sf ps) ended ∧
    Acts (.qreset q a true ps) (fails 0xE8 2) ∧
    Holds (.qclose q a sf ps) (sent 0xE9 2 [] (fun _ _ _ => .close) sf) ∧ Acts (.qclose q a sf ps) ended ∧
    Acts (.qclose q a true ps) (fails 0xE9 2)) ∧
  (∀ (q : Ctl) (d a b : Opd) (rel sf acq : Bool) (len : BitVec 2) (ps : PredNo),
    let sent (op : Byte) (need words : Nat) (acq : Bool) (what : Self → State → Bind → QOp) (s : State) (m : Self) (e : State) : Prop := ∃ x s1,
      (if sf then s.updThread m.k fun t => t.setPred ps false else s).bindQ m.g.ctx m.g.vdie m.g.die (s.src m a).toNat need = (.ok x, s1) ∧
      let p := s1.produce m d words .queue (if acq then some (0, 0) else none)
      e = { p.2 with nextId := p.2.nextId + 1, qreqs := p.2.qreqs ++ [{ mkReq m x p.2.nextId (s.src m a) op (what m p.2 x) sf ps with prod := some p.1, word := p.2.word }] }
    Acts (.qrsv q d a b sf ps) (fun s m e => 0 < (s.src m b).toNat ∧ (s.src m b).toNat ≤ 65535 ∧
      sent 0xE1 0 2 false (fun m s _ => .reserve (s.src m b).toNat) s m e) ∧
    ActsAcq acq (.qtake q d a acq len sf ps) (sent 0xE4 1 (lenBytes len / 4) acq fun _ _ _ => .take (lenBytes len)) ∧
    Acts (.qpeek q d a sf ps) (sent 0xE6 3 2 false fun _ _ x => .peek x.rights) ∧
    Acts (.qput q d a b rel len false ps) fun s m e => ∃ x s1, (m.t.waitDone = true ∨ (rel = true → s.fenceOk m.k m.g.die 2 2 = true)) ∧
      s.bindQ m.g.ctx m.g.vdie m.g.die (s.src m a).toNat 0 = (.ok x, s1) ∧
      e = { s1 with nextId := s1.nextId + 1, qreqs := s1.qreqs ++ [{ mkReq m x s1.nextId (s.src m a) 0xE2 (.fill (s.src64 m b).toNat (putBytes m s d len x.esize)) false ps with posted := true, word := s1.word }] })

/-- QPUTS, QTAKES, LAUNCH (R84, R328, R347, R349): the operation starts under one completion of the warp, which raises QU, and its request leaves
the port. SIGNAL (R17, R329): with a place in the port's reservation the update leaves, and QSTAT reads OK; without one the thread
waits.
When LAUNCH and QPUTS read their bytes is a reading (log 37). -/
def Obligations.RunsAndSignalsLeave : Prop :=
  (∀ (q : Ctl) (d a b c : Opd) (rel acq sf : Bool) (ps : PredNo) (i : Instr) (op : Byte) (s : State) (ig : IGroup) (m : Self) (x : Bind) (s1 : State),
    let bound (need : Nat) : Prop := s.bindQ m.g.ctx m.g.vdie m.g.die (s.src m a).toNat need = (.ok x, s1)
    let run (off n : Opd) : Prop := (∃ s0, s.bindSize m.g.ctx m.g.vdie m.g.die (s.src m a).toNat = (some x.esize, s0)) ∧
      0 < (s.src m n).toNat ∧ (s.src m n).toNat ≤ 65535 ∧ (s.src m off).toNat + (s.src m n).toNat * elemSize x.esize ≤ m.l.spad
    (i = .qputs q d a b c rel sf ps ∧ op = 0xE3 ∧ bound 0 ∧ run d c ∧ (rel = true → s.fenceOk m.k m.g.die 2 2 = true)) ∨
    (i = .qtakes q d a b c acq sf ps ∧ op = 0xE5 ∧ bound 1 ∧ run b c) ∨
    (i = .launch q a b sf ps ∧ op = 0xEA ∧ bound 0 ∧ (s.src m b).toNat % 8 = 0 ∧ (s.src m b).toNat + 128 ≤ m.l.spad) →
    Alone i s ig m → s.pendingAwait m = none → m.t.warp = m.k / 64 → (popDone m.w.outst []).1 = [] →
    ∃ t r, exec i s = .next t ∧ t.qreqs = s.qreqs ++ [r] ∧ r.thread = m.k ∧ r.opcode = op ∧ r.qid = s.src m a ∧ r.home = x.home ∧
      r.slot = x.slot ∧ r.eop.isSome ∧ (t.warps.find m.t.warp).map (·.qu) = some (m.w.qu + 1) ∧ t.mem = s.mem ∧
      (t.threads.find m.k).map (·.pc) = some ig.nextPc) ∧
  (∀ (q : Ctl) (a b : Opd) (fn : BitVec 2) (w64 sf : Bool) (ps : PredNo),
    Acts (.signal q a b fn w64 sf ps) (fun s m e => ∃ x, s.contexts.find m.g.ctx = some x ∧
      sigOk x (s.src64 m a).toNat = true ∧ (State.portElems s.sigQueue x.vf m.g.die).length < 64 ∧
      let s1 := s.setStatus m.k 0xEB qOk sf ps
      e = { s1 with nextId := s1.nextId + 1, sigQueue := s1.sigQueue.put s1.nextId { vf := x.vf, die := m.g.die, vdie := m.g.vdie, ctx := m.g.ctx, thread := m.k, vcore := m.g.vcore, group := m.g.num, warp := m.w.num, lane := m.t.lane, sel := x.sigbase + (s.src64 m a).toNat / 8, fn := fn.toNat, arg := s1.srcWide m w64 b, regs := [] } }) ∧
    Holds (.signal q a b fn w64 sf ps) fun s m w e => ∃ x, s.contexts.find m.g.ctx = some x ∧
      sigOk x (s.src64 m a).toNat = true ∧ 64 ≤ (State.portElems s.sigQueue x.vf m.g.die).length ∧ w = State.svcWait 0xEB ∧ e = s)

/-! ## Home and the near caches -/

/-- H_LOAD_MISS (R195, R202, R203): with its turn come and no partial of the line outstanding, home reads the bytes, and grants a lease
that ends at the earliest write completion time pending on the sector at the latest. H_WRITE_ACCEPT (R192, R196, R197): home accepts a write; in an H page it takes its completion time, elsewhere it is performed. The write
completion time W (R196) is one above the largest of now, the largest unexpired expiry granted on the sector and the largest write
completion time pending on it; the thread's WCT rises to W. Each load that shares the request takes its own bytes, and a copy is installed
once the near cache has room (R25, R200).
What is replaced, and that a WCT of another die is not compared (R5), are readings (logs 14, 49). -/
def Obligations.HomeServes : Prop :=
  (∀ (s : State) (req : Nat) (r : HReq) (lease prod n : Nat) (fill sext : Bool),
    s.stuck = none → s.hreqs.find req = some r → r.kind = .load lease fill prod sext n → s.homeReady req r = (true, s) →
    let s1 := { s with hreqs := s.hreqs.del req }
    let sole := if prod = 0 then s1 else s1.complete prod (loadWords sext (s.memRead r.die r.pa r.size))
    let s2 := r.also.foldl (fun s x => s.complete x.prod (loadWords x.sext (s.memRead r.die x.pa x.size))) sole
    let e := match s.earliestW r.die r.pa with
      | some w => min (s.now r.die + lease) w
      | none => s.now r.die + lease
    let s3 := { s2 with leases := s2.leases.put (sectorKey r.die r.pa) (max e (s.leases.getD (sectorKey r.die r.pa) 0)) }
    let done (u : State) : Res := .next (u.wakeMemory.chargeHbm r.die r.pa (some r.ctx))
    let s4 := s3.makeRoom r.die r.core r.pa
    let old := ((s4.nc.find (ncKey r.die r.core r.pa)).map (·.hint)).getD 0
    (lease = 0 ∨ fill = false → exec (.hLoadMiss req) s = done s2) ∧
    (lease ≠ 0 → fill = true → (s.partials.find (partKey r.die r.core r.pa)).isSome → exec (.hLoadMiss req) s = done s3) ∧
    (lease ≠ 0 → fill = true → s.partials.find (partKey r.die r.core r.pa) = none →
      exec (.hLoadMiss req) s = done { s4 with nc := s4.nc.put (ncKey r.die r.core r.pa) { ctx := r.ctx, bytes := (s.memRead r.die (r.pa / 64 * 64) 64).zipIdx.map (fun (b : Byte × Nat) => (b.2, b.1)), dirty := [], expiry := some e, hint := State.hintOf old r.hint } })) ∧
  ((∀ (s : State) (req : Nat) (r : HReq), s.stuck = none → s.hreqs.find req = some r → State.isWrite r.kind = true →
    s.homeReady req r = (true, s) →
    let s1 := { s with hreqs := s.hreqs.del req }
    exec (.hWriteAccept req) s = .next ((State.wakeMemory
      (if r.mode = modeH then s1.acceptH r.die r.pa r.size r.kind r.op r.thread.toList else s1.perform r.die r.pa r.size r.kind)).chargeHbm
      r.die r.pa (some r.ctx))) ∧
  (∀ (s : State) (die pa size k : Nat) (kind : HKind) (t : Thread), s.threads.find k = some t →
    let expiry := s.leases.getD (sectorKey die pa) 0
    let emax := if s.now die < expiry then expiry else 0
    let w := max (max (s.now die) emax) (s.pendingW die pa) + 1
    let u := s.acceptH die pa size kind none [k]
    u.pwrites.find s.nextId = some { die := die, pa := pa, size := size, kind := kind, w := w, threads := [k], op := none } ∧
    u.threads.find k = some { t with wct := BitVec.ofNat 64 (if t.wctAway then w else max t.wct.toNat w), wctAway := false } ∧
    (∀ j, j ≠ k → u.threads.find j = s.threads.find j) ∧ u.mem = s.mem ∧ u.leases = s.leases))

/-- H_WRITE_PERFORM (R191, R196): a pending store whose completion time has come, the earliest on its sector, changes exactly its bytes; before that
time the step changes nothing. An atomic (R192, R213, R214): one step reads the old value, which goes to the producer, and
writes the new one. -/
def Obligations.WritesPerform : Prop :=
  (∀ (s : State) (wr : Nat) (w : PWrite) (bs : List Byte), s.stuck = none → s.pwrites.find wr = some w → w.kind = .store bs →
    bs.length = w.size → Memory.wf s.mem = true →
    (w.w ≤ s.now w.die → s.earliestW w.die w.pa = some w.w → ∃ t, exec (.hWritePerform wr) s = .next t ∧
      t.memRead w.die w.pa w.size = bs ∧
      (∀ a, a < memAddr w.die w.pa ∨ memAddr w.die w.pa + w.size ≤ a → cellGet t.mem a = cellGet s.mem a) ∧
      Memory.wf t.mem = true ∧ t.pwrites = s.pwrites.del wr ∧ t.groups.keys = s.groups.keys ∧ t.host = s.host ∧ t.window = s.window) ∧
    (s.now w.die < w.w → exec (.hWritePerform wr) s = .next s)) ∧
  (∀ (s : State) (wr : Nat) (w : PWrite) (fn : BitVec 4) (b : W64) (p : Nat) (x : Prod), s.stuck = none → s.pwrites.find wr = some w →
    w.kind = .atom fn b (some p) → w.size = 4 ∨ w.size = 8 → Memory.wf s.mem = true → w.w ≤ s.now w.die →
    s.earliestW w.die w.pa = some w.w → s.prods.find p = some x →
    let old := bytesW64 (s.memRead w.die w.pa w.size)
    ∃ t, exec (.hWritePerform wr) s = .next t ∧
      t.memRead w.die w.pa w.size = leBytes w.size (atomFn fn (w.size == 8) old b).toNat ∧
      t.prods.find p = some { x with val := .val (if w.size = 8 then pairWords old else [old.setWidth 32]) } ∧
      ∀ a, a < memAddr w.die w.pa ∨ memAddr w.die w.pa + w.size ≤ a → cellGet t.mem a = cellGet s.mem a)

/-- RECALL_ANSWER, PARTIAL_COMBINE, PARTIAL_PUSH_DEADLINE, NEAR_CACHE_EVICT, WRITE_BACK_ACCEPT (R192, R199, R202, R203, R215).
That home goes on at once with the accesses that a recall held is the model's choice (log 1), and the order in which sectors are replaced
is a reading (log 14). -/
def Obligations.CachesAnswer : Prop :=
  ∀ (s : State) (die core line sector id : Nat) (p : Partial) (u : Push) (b : WBack), s.stuck = none →
    let mine := (s.cached die core).filter fun e =>
      e.1 == sector || (e.1 / 2 == sector / 2 && (s.partials.find (coreKey die core * 2 ^ 30 + sector / 2)).isSome)
    (s.partials.find (coreKey die core * 2 ^ 30 + line) = some p → p.dieScope = true → p.opened + 1024 ≤ s.clk die core →
      exec (.partialPushDeadline die core line) s = .next { s with nextId := s.nextId + 1, partials := s.partials.del (coreKey die core * 2 ^ 30 + line), pushes := s.pushes.put s.nextId { die := die, core := core, line := line, part := p } }) ∧
    ((∃ e ∈ mine, ∀ f ∈ State.sameSet (s.cached die core) sector, e.2 ≤ f.2) → exec (.nearCacheEvict die core sector) s =
      .next ((s.pushPartial die core (sector / 2)).flushSector die core sector true [] [])) ∧
    ((∀ e ∈ mine, ∃ f ∈ State.sameSet (s.cached die core) sector, f.2 < e.2) → exec (.nearCacheEvict die core sector) s = .next s) ∧
    (s.wbacks.find id = some b → (∀ c ∈ b.bytes, s.inOrder id b.die b.core c.1 false = true) → Memory.wf s.mem = true →
      ∃ t, exec (.writeBackAccept id) s = .next t ∧
        t.mem = b.bytes.foldl (fun m c => cellSet m (memAddr b.die c.1) c.2) s.mem ∧ t.wbacks = s.wbacks.del id) ∧
    (s.pushes.find id = some u → s.inOrder id u.die u.core (u.line * 128) false = true →
      s.partials.find (partKey u.die u.core (u.line * 128)) = none →
      let s1 := (({ s with pushes := s.pushes.del id }.combine u.die u.line u.part).standBehind u.die u.core u.line s.nextId u.part.threads).chargeHbm
        u.die (u.line * 128) (some u.part.ctx)
      exec (.partialCombine id) s = .next { s1 with holders := s1.holders.putD (lineKey u.die (u.line * 128)) [] ((s1.holdersOf u.die (u.line * 128)).filter (· != u.core)) }.wakeMemory) ∧
    ∀ (req : Nat) (r : HReq), s.hreqs = [(req, r)] → r.die = die → r.pa / 128 = line → r.recalls = some [core] → s.pushes = [] →
      s.partials.find (partKey die core (line * 128)) = none →
      ∃ t, exec (.recallAnswer die line core) s = .next t ∧ t.hreqs.find req = some { r with recalls := some [] } ∧
        t.agenda = .act (if State.isWrite r.kind then .hWriteAccept req else .hLoadMiss req) :: s.agenda ∧
        core ∉ t.holdersOf die (line * 128) ∧ t.mem = s.mem

/-- TLB_WALK (R178 to R183): the walk starts at the deepest table whose pointer the walk cache holds. A leaf that it finds goes, with the MODE and
OWNER in force and with ACCESSED and, for a write through W = 1, DIRTY set at home, into the die TLB and the near TLBs of the waiting
cores; a walk that fails leaves its cause to the waiting threads, for the page that it was of; a locked page's access first meets the
leaf check, and then waits.
Who walks, and what the walk cache holds, is the model's choice (log 13), and so is the stop of a walk that is led beyond the HBM, of
which the spec says nothing (log 10). -/
def Obligations.WalksEnd : Prop :=
  ∀ (s : State) (id k kind v : Nat) (w : Walk) (m : Self) (x : XRec), s.stuck = none → s.walks.find id = some w → w.waiters = [(k, kind)] → s.self k = some m →
    s.vdieOf w.ctx w.die = some v → s.xrec w.ctx v = some x → (s.walking w.die).contains id = true →
    let p := s.walkStart w.ctx w.die w.va x.root
    (∀ t ∈ p :: walkTables s w.die w.va p.1 p.2, s.holdersOf w.die (t.2 + 8 * bitsOf w.va (levelBits t.1).1 (levelBits t.1).2) = []) →
    (∀ e place, walkFrom s w.die w.va p.1 p.2 = .leaf e place → Leaf.mode (s.inForce w.ctx v w.va e) ≠ modeLocked → m.g.core ∈ w.cores →
      let set := e ||| 0x20 ||| (if w.write && Leaf.w e then 0x40 else 0)
      let e' := s.inForce w.ctx v w.va set
      ∃ t, exec (.tlbWalk id) s = .next t ∧ t.mem = cellsSet s.mem (memAddr w.die place) (w64Bytes set) ∧
        State.tlbFind (t.dieTlb.getD w.die []) w.ctx w.va = some { ctx := w.ctx, base := w.va / Leaf.bytes e' * Leaf.bytes e', size := Leaf.bytes e', leaf := e' } ∧
        State.tlbFind (t.nearTlb.getD (coreKey w.die m.g.core) []) w.ctx w.va = some { ctx := w.ctx, base := w.va / Leaf.bytes e' * Leaf.bytes e', size := Leaf.bytes e', leaf := e' } ∧
        t.walks = s.walks.del id) ∧
    (∀ e place, walkFrom s w.die w.va p.1 p.2 = .leaf e place → Leaf.mode (s.inForce w.ctx v w.va e) = modeLocked →
      let f := s.inForce w.ctx v w.va e
      ∃ t, exec (.tlbWalk id) s = .next t ∧ t.mem = s.mem ∧ t.dieTlb = s.dieTlb ∧ t.nearTlb = s.nearTlb ∧ t.walks = s.walks.del id ∧
        (∀ c r o, leafCheck f kind (some m.g.vcore) = some (c, r, o) → (t.threads.find k).map (·.walkFault) =
          some (some { base := w.va / Leaf.bytes f * Leaf.bytes f, span := Leaf.bytes f, cause := c, reason := r, level := 7, psize := Leaf.size f, owner := o })) ∧
        (leafCheck f kind (some m.g.vcore) = none → ∀ b, m.t.st = .blocked b → b.kind = waitResource →
          (t.threads.find k).map (·.st) = some (.blocked { b with kind := waitLock }))) ∧
    (∀ r l z, walkFrom s w.die w.va p.1 p.2 = .bad r l z → ∃ t, exec (.tlbWalk id) s = .next t ∧
      (t.threads.find k).map (·.walkFault) = some (some { base := w.base, span := w.span, cause := .pagefault, reason := r, level := l, psize := z, owner := 0 }) ∧
      t.mem = s.mem) ∧
    ∀ a, walkFrom s w.die w.va p.1 p.2 = .beyond a → exec (.tlbWalk id) s = .fault (.noSuchPhysical w.die a)

/-! ## Delays, warps, groups and engines -/

/-- YIELD_DELAY_END, SPURIOUS_WAKEUP, MWAIT_TIMEOUT, PARK_DELAY_END (R110, R119, R252, R253): at the end of a delay or of a wait the
thread is READY at its PC, and nothing else changes but the monitor; before the end of a delay the step changes nothing. WAYSTATION_TIMER, WAYSTATION_LAUNCH, WARP_RETIRE, CONVSTALL (R118, R122, R132): a waystation whose timer has run out is due; a full or
due one launches its warp, thread i from its i-th continuation; a warp that is done ends with its threads; after 2^20 clk at a warp
point its arrived threads enter their handler, or stop where there is none. A launch whose code fetch meets a page cause is held, and the cause
is charged to the warp of the SPAWN (R188).
Which number and lane set a launched warp takes is a reading (log 22), as is what the count of R132 is (log 24); that a point which every
member has reached raises nothing is the model's choice (log 82). -/
def Obligations.ThreadsAndWarpsLive : Prop :=
  (∀ (s : State) (k : Nat) (t : Thread), s.stuck = none → s.threads.find k = some t →
    let up (ended : Bool) (e : State) (u : State) : Prop := { u with threads := [] } = { e with threads := [] } ∧
      u.threads.find k = some { t with st := .ready, readyAt := s.clkOf k, waitDone := t.waitDone || ended } ∧
      ∀ j, j ≠ k → u.threads.find j = s.threads.find j
    (∀ n, t.st = .delayed n → n ≤ s.clkOf k → Goes (.yieldDelayEnd k) s (up false s)) ∧
    (∀ n, t.st = .delayed n → s.clkOf k < n → exec (.yieldDelayEnd k) s = .next s) ∧
    (∀ w, t.st = .blocked w → (w.kind ≠ waitFence ∨ w.place ≠ 1) → Goes (.spuriousWakeup k) s (up false s)) ∧
    (∀ mon, s.monitors.find k = some mon → mon.armed = false → exec (.mwaitTimeout k) s = .next s) ∧
    (∀ w mon d, t.st = .blocked w → w.kind = waitMonitor → s.monitors.find k = some mon → mon.armed = true → mon.deadline = some d → d ≤ s.now mon.die →
      Goes (.mwaitTimeout k) s (up true { s with monitors := s.monitors.del k })) ∧
    (∀ mon d, s.monitors.find k = some mon → mon.deadline = some d → s.now mon.die < d → exec (.mwaitTimeout k) s = .next s) ∧
    ∀ w m, t.st = .blocked w → isPark w = true → s.self k = some m → m.g.st = .resident → w.val.toNat ≤ s.now m.g.die →
      Goes (.parkDelayEnd k) s (up true s)) ∧
  (∀ (s : State) (die core slot wid : Nat) (st : Station) (g : Group) (l : Launch) (w : Warp), s.stuck = none →
    let co := s.core die core
    (co.stations.find slot = some st → s.groups.find st.group = some g → s.launches.find g.launch = some l → st.since + l.stationTimer ≤ co.clk →
      exec (.waystationTimer die core slot) s = .next (s.setCore die core { co with stations := co.stations.put slot { st with due := true } })) ∧
    (∀ set num s1, co.stations.find slot = some st → s.groups.find st.group = some g → s.launches.find g.launch = some l → g.st = .resident →
      st.held = false → st.due = true ∨ st.conts.length = l.width → s.launchPlace die core st.group g l st = some (num, set) → s1.stuck = none →
      (s.launchFetch g st = (.ok, s1) → Goes (.waystationLaunch die core slot) s fun u =>
        u.warps.find s1.nextId = some { group := st.group, num := num, laneSet := set, width := l.width, prio := l.prio, roster := BitVec.ofNat 64 (2 ^ st.conts.length - 1), cp := 0, mx := 0, qu := 0, gs := 0, tokwait := 0, wcause := 0, outst := [], points := [] } ∧
        ∀ i c, st.conts[i]? = some c → u.threads.find (threadKey s1.nextId i) = some (newThread s1.nextId i c co.clk)) ∧
      ∀ k pc c info fa, s.launchFetch g st = (.fault k pc c info fa, s1) → exec (.waystationLaunch die core slot) s =
        .next ((s1.setCore die core { s1.core die core with stations := (s1.core die core).stations.put slot { st with due := true, held := true } }).chargeWarp
          (k / 64) (k % 64) c info fa pc)) ∧
    (s.warps.find wid = some w → s.groups.find w.group = some g → s.warpDone wid = true → g.st = .resident →
      Goes (.warpRetire wid) s fun u => u.warps = s.warps.del wid ∧ (∀ k, k / 64 = wid → u.threads.find k = none) ∧
        ∃ g', u.groups.find w.group = some g' ∧ g'.past = g.past ++ [wid] ∧ g.wct ≤ g'.wct ∧
          ∀ k t, k / 64 = wid → s.threads.find k = some t → t.wctAway = false → t.wct.toNat ≤ g'.wct) ∧
    (s.warps.find wid = some w → (∀ r ∈ w.points, r.count < 2 ^ 20 ∨ r.stalled ≠ []) → exec (.convstall wid) s = .next s) ∧
    ∀ r, s.warps.find wid = some w → (w.points.find? fun r => decide (2 ^ 20 ≤ r.count) && r.stalled.isEmpty) = some r →
      let pc := r.ig.pc
      let arrived := s.arrivedAt wid pc
      let missing := ((s.rosterThreads wid).filter fun e => !(e.2.st == .point && e.2.pc == pc)).map fun e => e.2.lane
      missing ≠ [] → (∀ e ∈ arrived, s.threads.find e.1 = some e.2) →
      ((∀ e ∈ arrived, ∃ m, s.self e.1 = some m ∧ m.l.trapTab = 0) → Goes (.convstall wid) s fun u => ∀ e ∈ arrived,
        (u.threads.find e.1).map (fun t => (t.st, t.einfo, t.epc)) = some (.stopped (if e.2.handler.isSome then 3 else 0) none, convstallInfo missing, pc)) ∧
      ∀ entry, (∀ e ∈ arrived, ∃ m s1, s.self e.1 = some m ∧ m.t.handler = none ∧ s.handlerOf m (arrived.map (·.1)) .convstall = (.entry entry, s1)) →
        Goes (.convstall wid) s fun u => ∀ e ∈ arrived,
          (u.threads.find e.1).map (fun t => (t.st, t.pc, t.einfo, t.epc)) = some (.ready, entry, convstallInfo missing, pc))

/-- ISSUE_GROUP (R68, R111, R112, R114): a set that the issue table may form, whose PC passes the checks and whose warps meet the
header's WAIT, is ISSUING in one issue group; a cause of the checks stops each of its members.
Which sets may issue as one group is read from R111 and R114 (logs 23, 24). -/
def Obligations.GroupsIssue : Prop :=
  ∀ (s s1 : State) (die core : Nat) (ks : List Nat) (m0 : Cand) (rest : List Cand), s.stuck = none → s1.stuck = none →
    let all := s.candidates die core
    let ms := ks.filterMap fun k => all.find? fun c => c.m.k == k
    let pc := m0.m.t.pc
    ms.length = ks.length → validGroup all ms = true → sortBy (fun a b => decide (a.lane ≤ b.lane)) ms = m0 :: rest →
    (∀ h, s.checkTarget m0.m.site pc ((m0 :: rest).any fun m => m.m.t.xfer == some .slot0) = (.ok h, s1) →
      (∀ m ∈ m0 :: rest, slotOf pc ≠ 0 ∨ countersOk m.m.w (packWait h.wcp h.wmx h.wqu h.wgs) = true) →
      Goes (.issueGroup die core ks) s fun u =>
        u.igroups.find s1.nextId = some { die := m0.m.g.die, core := m0.m.g.core, launch := m0.m.g.launch, hdr := pc &&& ~~~15, eng := h.eng, count := h.count, dict := h.dict, yld := h.yld, slot := slotOf pc, members := (m0 :: rest).map (·.m.k) } ∧
        ∀ m ∈ m0 :: rest, u.threads.find m.m.k = (s1.threads.find m.m.k).map fun t => { t with st := .issuing, xfer := none, yielded := false }) ∧
    ∀ c info fa, s.checkTarget m0.m.site pc ((m0 :: rest).any fun m => m.m.t.xfer == some .slot0) = (.cause c info fa, s1) → c.isL = false →
      Goes (.issueGroup die core ks) s fun u => ∀ m ∈ m0 :: rest, (u.threads.find m.m.k).map (fun t => (t.st, t.einfo, t.epc)) =
        some (.stopped (if m.m.t.handler.isSome then 3 else 0) none, info, pc)

/-- GROUP_PLACE, PARKING, PARK_SAVE_DONE, WATCH_TIMER_FIRE, RELAUNCH, GROUP_RETIRE (R256, R298, R301, R304, R306, R307): the
life of a group. Parking is abandoned where the results that it writes end a wait.
The bytes of a save slot are the model's choice (log 33), as is the order of relaunch and placement (log 32). -/
def Obligations.GroupsLive : Prop :=
  ∀ (s : State) (die core base rows gid watch : Nat) (g : Group) (l : Launch) (w : Watch), s.stuck = none →
    (∀ lid v vcore num bs d s1 s2, s.nextPending die = some (lid, l, v) →
      (match s.relaunchHead die with
        | none => false
        | some (h, hg, hl) => s.canRelaunch h hg hl || (s.pendingOn die).all fun x => decide (x.2.1.prio < hl.prio)) = false →
      s.bestCore die v l = some (vcore, core) → s.freeGroupNum die core = some num →
      State.rangeFree (s.spadUsed die core) 1048576 base l.spad = true → State.rangeFree (s.rowsUsed die core) 1536 rows l.rows = true →
      s.devRead die l.ctx v l.args.toNat 128 = (.bytes bs, s1) → s1.loadDict die core l.ctx v l.dictAddr = (.bytes d, s2) → s2.stuck = none →
      Goes (.groupPlace die core base rows) s fun u => (∃ x, u.groups.find s2.nextId = some x ∧ x.launch = lid ∧ x.ctx = l.ctx ∧
          x.key = groupKeyOf l v (l.next.getD v 0) ∧ x.die = die ∧ x.vdie = v ∧ x.core = core ∧ x.vcore = vcore ∧ x.num = num ∧
          x.st = .resident ∧ x.ks = bytesWords 32 bs ∧ x.spadBase = base ∧ x.accBase = rows ∧ x.spad = [] ∧ x.acc = [] ∧ x.handles = []) ∧
        (u.launches.find lid).map (fun y => (y.st, y.next)) = some (.active, l.next.put v (l.next.getD v 0 + 1))) ∧
    (∀ slot x s1, s.groups.find gid = some g → s.launches.find g.launch = some l → s.freeSlot g.launch l g.die = some slot →
      s.mayPark gid g l = true →
      let s0 := (s.prods.filter fun e => (s.liveThreads gid).any fun t => t.1 == e.2.thread).foldl
        (fun s e => match e.2.val with | .val ws => s.writeback e.1 e.2 ws | _ => s) s
      let waits : Prop := ∀ e ∈ s0.liveThreads gid, e.2.st = .point ∨ ∃ w, e.2.st = .blocked w
      (waits → s0.devWrite g.die g.ctx g.vdie (slotAddr l slot) ((List.range (slotSize l)).map fun i => Config.slotByte gid i) (some gid) = (.bytes x, s1) →
        s1.stuck = none → Goes (.parking gid) s fun u => (u.groups.find gid).map (fun y => (y.st, y.slot)) = some (.parking, some slot) ∧
          (∀ e ∈ s.liveThreads gid, u.monitors.find e.1 = none) ∧ u.mem = s1.mem) ∧
      (¬ waits → exec (.parking gid) s = .next s0)) ∧
    (s.groups.find gid = some g → g.st = .parking → s.tagPending gid = false → Goes (.parkSaveDone gid) s fun u => u.mem = s.mem ∧
      ∃ y, u.groups.find gid = some y ∧ y.st = (if g.wokeAt = 0 then .parked else .waking) ∧ ∀ h ∈ y.handles, h.2.tile = none) ∧
    (s.watches.find watch = some w → w.kind = 3 → s.groups.find w.group = some g →
      (w.key.toNat ≤ s.now w.die → g.st = .parked → Goes (.watchTimerFire watch) s fun u =>
        (u.groups.find w.group).map (fun y => (y.st, y.wokeAt)) = some (.waking, s.nextId) ∧ ∀ e ∈ u.watches, e.2.group ≠ w.group) ∧
      (s.now w.die < w.key.toNat → exec (.watchTimerFire watch) s = .next s)) ∧
    (∀ slot bs d s1 s2, s.relaunchHead die = some (gid, g, l) → s.groups.find gid = some g → g.slot = some slot → s.canRelaunch gid g l = true →
      State.rangeFree (s.spadUsed die g.core) 1048576 base l.spad = true → State.rangeFree (s.rowsUsed die g.core) 1536 rows l.rows = true →
      s.devRead die g.ctx g.vdie (slotAddr l slot) (slotSize l) = (.bytes bs, s1) →
      s1.loadDict die g.core g.ctx g.vdie l.dictAddr = (.bytes d, s2) → s2.stuck = none → Goes (.relaunch die base rows) s fun u => ∃ y,
        u.groups.find gid = some y ∧ y.st = .resident ∧ y.slot = none ∧ y.spadBase = base ∧ y.accBase = rows ∧ y.wakeBy = [] ∧ y.wokeAt = 0) ∧
    (s.groups.find gid = some g → s.launches.find g.launch = some l → g.st = .resident → s.groupWarps gid = [] →
      (s.core g.die g.core).stations.vals.all (fun x => x.group != gid) = true → g.fed = groupSize l → s.groupWritesDone g = true →
      g.wct ≤ s.now g.die →
      (∀ x s1, l.pair 20 ≠ 0 → l.st ≠ .killed → g.recorded = false →
        s.devWrite g.die g.ctx g.vdie ((l.pair 20).toNat + 32 * groupIndex l g.key) (State.energyRecord g) (some gid) = (.bytes x, s1) →
        s1.stuck = none → Goes (.groupRetire gid) s fun u => (u.groups.find gid).map (·.recorded) = some true ∧ u.mem = s1.mem) ∧
      (l.pair 20 = 0 ∨ l.st = .killed ∨ g.recorded = true → s.tagPending gid = false → l.saveSize = 0 →
        Goes (.groupRetire gid) s fun u => u.groups = s.groups.del gid ∧
          u.launches.find g.launch = some { l with retired := l.retired.put g.vdie (l.retired.getD g.vdie 0 + 1), reported := if groupsOn l g.vdie ≤ l.retired.getD g.vdie 0 + 1 then l.reported ++ [g.vdie] else l.reported }))

/-- ENGINE_START, ENGINE_CHUNK, ENGINE_COMPLETE (R84, R234, R235): the next operation starts, and a gather or scatter reads its index
lists; a chunk whose bytes may move is performed, and once its writes are, it is done and counted; an operation whose chunks
are all done completes.
That a chunk of one transfer is a step is the model's choice (logs 17, 18). -/
def Obligations.CopyEngineRuns : Prop :=
  ∀ (s : State) (die core id tr block : Nat) (op : EngOp) (t : Transfer) (g : Group) (w : Warp), s.stuck = none →
    ((s.engOps.find? fun e => e.2.die == die && e.2.core == core && !e.2.started && !e.2.held) = some (id, op) →
      exec (.engineStart die core) s = .next { s with engOps := s.engOps.put id { op with started := true, transfers := op.transfers.map fun t => if t.kind = .gath ∨ t.kind = .scat then { t with index := some ((bytesWords t.rows (s.spadRead op.group t.ix (4 * t.rows))).map BitVec.toInt) } else t } }) ∧
    (s.engOps.find id = some op → op.transfers[tr]? = some t → s.groups.find op.group = some g → op.started = true → op.held = false →
      t.done.contains block = false → t.blocks.contains block = true →
      (∀ srcs outs s1 s2 s3 s4, t.written.contains block = false → (t.kind = .cpyt → (s.tile op.die op.core t.tile).writers.head? = some id ∧
          ∀ r ∈ (s.tile op.die op.core t.tile).readers, id ≤ r) →
        let needs := ((t.chunk block).flatMap fun x => x.2.needs).eraseDups
        let dsts := ((t.chunk block).map (·.1)).eraseDups
        (if t.spl = .die then s.sectors op g.vdie g.vcore kindRead needs (needs.map (· / 64)).eraseDups else (.ok [], s)) = (.ok srcs, s1) →
        (if t.dpl = .die then s1.sectors op g.vdie g.vcore kindWrite dsts (dsts.map (· / 64)).eraseDups else (.ok [], s1)) = (.ok outs, s2) →
        misElement t block = none → s2.sectorsReady id op t.thread false srcs = (true, s3) → s3.sectorsReady id op t.thread true outs = (true, s4) →
        s4.stuck = none → Goes (.engineChunk id tr block) s fun u => ∃ o x, u.engOps.find id = some o ∧ o.transfers[tr]? = some x ∧
          x.written = block :: t.written ∧ (if u.pwrites.vals.any fun w => w.op == some id then x.done = t.done
            else x.done = block :: t.done ∧ x.arrived = t.arrived + (t.chunk block).length) ∧
          (t.dpl ≠ .die → u.mem = s4.mem)) ∧
      (t.written.contains block = true → (s.pwrites.vals.any fun w => w.op == some id) = false →
        Goes (.engineChunk id tr block) s fun u => u.mem = s.mem ∧ ∃ o x, u.engOps.find id = some o ∧ o.transfers[tr]? = some x ∧
          x.done = block :: t.done ∧ x.arrived = t.arrived + (t.chunk block).length)) ∧
    (s.engOps.find id = some op → op.started = true → op.held = false → op.allDone = true → s.warps.find op.warp = some w →
      Goes (.engineComplete id) s fun u => u.engOps = s.engOps.del id ∧ u.mem = s.mem ∧
        ∀ d, w.outst = [{ seq := op.seq, ctr := op.ctr, op := id, done := false, defer := d }] →
          u.warps.find op.warp = some { w.subCtr op.ctr 1 with outst := [] })

/-- MATRIX_START, MATRIX_COMPLETE (R276, R283, R284): the head of an engine's queue starts while its cluster holds a token, with its scale
bytes read; its end leaves the group's cells and scratchpad as the operation computes them, and ORs its flags into FPSTAT. TOKEN_CAPTURE, TOKEN_RELEASE, TOKEN_FORCED_RELEASE (R293, R294): a waiting cluster takes the token that reaches it; after 64 idle
clk, or after 65,536 clk while others wait and it does not run, it lets the token go on, or drops one above the allotment.
That an operation's cells change in one step is the model's choice (log 29), as is how an allotment changes (log 30). -/
def Obligations.MatrixEngineRuns : Prop :=
  (∀ (s : State) (die core id : Nat) (o : MOp) (rest : Tbl MOp), s.stuck = none →
    (s.queued die core = (id, o) :: rest → (s.mops.vals.any fun o => o.die == die && o.core == core && o.running) = false →
      (s.cluster die (s.clusterOf die core)).held = true → s.tokenSpent die (s.clusterOf die core) = false → Goes (.matrixStart die core) s fun u => u.mem = s.mem ∧
        u.mops.find id = some { o with running := true, scales := s.spadRead o.group o.hrec.soff (if o.hrec.bl = 0 then 0 else (o.hrec.rows.toNat + 1) * rowScales o.hrec.bl o.hrec.cols) }) ∧
    ((s.mops.find? fun e => e.2.die == die && e.2.core == core && e.2.running) = some (id, o) →
      let r : State × Flags := if o.op = 0xD3 then (s.runPhfin o, 0) else if o.op = 0xD4 then s.runQnt o else s.runSigned o
      Goes (.matrixComplete die core) s fun u => u.mops = s.mops.del id ∧ u.mem = s.mem ∧
        (u.groups.find o.group).map (fun g => (g.acc, g.spad, g.tags)) = (r.1.groups.find o.group).map (fun g => (g.acc, g.spad, g.tags)) ∧
        ∀ k ∈ o.members, (u.threads.find k).map (·.fpstat) = (r.1.threads.find k).map fun t => t.fpstat ||| r.2)) ∧
  (∀ (s : State) (die cl : Nat), s.stuck = none →
    let c := s.cluster die cl
    let free (u : State) : Prop := (u.cluster die cl).held = false ∧ (u.cluster die cl).heldFor = 0 ∧
      (u.die die).free = (s.die die).free ∧
      (u.die die).leaving = if (s.die die).allot < s.tokens die then (s.die die).leaving else (s.die die).leaving ++ [cl]
    (s.clusterWaits die cl = true → (s.die die).free.contains cl = true → Goes (.tokenCapture die cl) s fun u =>
      (u.cluster die cl).held = true ∧ (u.die die).free = (s.die die).free.erase cl) ∧
    (c.held = true → 64 ≤ c.idleFor → Goes (.tokenRelease die cl) s free) ∧
    (c.held = true → c.idleFor < 64 → exec (.tokenRelease die cl) s = .next s) ∧
    (c.held = true → 65536 ≤ c.heldFor → (∃ x < 16, x ≠ cl ∧ s.clusterWaits die x = true) → s.clusterRuns die cl = false →
      Goes (.tokenForcedRelease die cl) s free))

/-- MATRIX_COMPLETE (R58, R60, R280, R286 to R291): what each matrix operation computes. MMA, MMAL and PHMMA update the cells of the
columns of the tile, in the rows of the lanes that gave an A row, and no other cell; PHFIN and QNT write their words, codes and scales into
the scratchpad, and clear the cells that they read with CLR.
That the cells change in one step is the model's choice (log 29). -/
def Obligations.MatrixResults : Prop :=
  ∀ (s : State) (die core id : Nat) (o : MOp) (g : Group), s.stuck = none →
    (s.mops.find? fun e => e.2.die == die && e.2.core == core && e.2.running) = some (id, o) → s.groups.find o.group = some g →
    Tbl.wf g.acc = true → Memory.wf g.spad = true → g.tagWaits = [] →
    let row0 := (o.coord.extractLsb' 16 16).toNat
    let col0 := (o.coord.extractLsb' 0 16).toNat
    let nr := (o.extent.extractLsb' 16 16).toNat
    let nc := (o.extent.extractLsb' 0 16).toNat
    let h := o.hrec
    let cols := h.cols.toNat + 1
    let rb := rowBytes h.fmt h.cols
    let tile := s.opTile o
    let cell (u : State) (r c : Nat) : W32 := u.accGet o.group r c
    let half (row : BitVec 512) (j : Nat) : Nat := (row.extractLsb' (16 * j) 16).toNat
    let act (i8 : Bool) (row : BitVec 512) (j : Nat) : FVal :=
      if i8 then FVal.ofInt (row.extractLsb' (8 * j) 8).toInt else hf8Val (row.extractLsb' (8 * j) 8)
    let rounded (old : W32) (terms : List FVal) : W32 :=
      let v := sumExact .rne (fval f32 old.toNat :: terms)
      if v.isNan then 0x7FC00000 else BitVec.ofNat 32 (roundFp f32 .rne v).1
    let others (width : Nat) (u : State) : Prop := ∀ r c, c < 512 →
      (r < row0 ∨ o.rows.find (r - row0) = none ∨ c < col0 ∨ col0 + width ≤ c) → cell u r c = cell s r c
    let spadKept (u : State) (ranges : List (Nat × Nat)) : Prop := ∀ a, (∀ r ∈ ranges, a < r.1 ∨ r.1 + r.2 ≤ a) →
      u.spadRead o.group a 1 = s.spadRead o.group a 1
    (o.op = 0xD0 → (o.rows.map (·.1)).Nodup → col0 + cols ≤ 512 → Goes (.matrixComplete die core) s fun u => others cols u ∧
      ∀ i row c, o.rows.find i = some row → c < cols → cell u (row0 + i) (col0 + c) =
        let wide := h.fmt = 1 ∨ h.fmt = 2
        let a (j : Nat) : FVal := if wide then fval (if h.fmt = 2 then bf16 else f16) (half row j) else act (o.ebits.getLsbD 0) row j
        let scale (j : Nat) : Byte := o.scales.getD (j * rowScales h.bl h.cols + c / blockLen h.bl) 0
        rounded (cell s (row0 + i) (col0 + c)) ((List.range (if wide then 32 else 64)).map fun j =>
          if h.rows.toNat < j then (a j).byAbsent
          else if h.bl = 0 then (a j).mul (tileVal h.fmt rb tile j c)
          else if scale j = 0 then (a j).byAbsent
          else if scale j = 255 then .nan false
          else (a j).mul ((tileVal h.fmt rb tile j c).mul (.fin false 1 ((scale j).toNat - 127))))) ∧
    (o.op = 0xD1 → (o.rows.map (·.1)).Nodup → col0 + cols ≤ 512 → Goes (.matrixComplete die core) s fun u => others cols u ∧
      ∀ i row c, o.rows.find i = some row → c < cols → cell u (row0 + i) (col0 + c) =
        let ks := (o.ebits.extractLsb' 1 2).toNat
        let w (j : Nat) : Int := if h.rows.toNat < 64 * ks + j then 0 else weightOf h.fmt rb tile (64 * ks + j) c
        if o.ebits.getLsbD 0 then
          cell s (row0 + i) (col0 + c) + BitVec.ofInt 32 ((List.range 64).map fun j => (row.extractLsb' (8 * j) 8).toInt * w j).sum
        else rounded (cell s (row0 + i) (col0 + c)) ((List.range 64).map fun j =>
          if h.rows.toNat < 64 * ks + j then (act false row j).byAbsent else (act false row j).mul (FVal.ofInt (w j)))) ∧
    (o.op = 0xD2 → (o.rows.map (·.1)).Nodup → col0 + 2 * cols ≤ 512 → Goes (.matrixComplete die core) s fun u => others (2 * cols) u ∧
      ∀ i row c, o.rows.find i = some row → c < cols →
        let b (j : Nat) : Nat := leNat (cellsGet tile (j * rb + 2 * c) 2)
        let ang (j : Nat) : Nat := (if o.ebits.getLsbD 0 then half row j / 2 + 32768 - b j / 2 else half row j / 2 + b j / 2) % 32768
        let sum (table : Nat → Int) : W32 := BitVec.ofInt 32 ((List.range 32).map fun j =>
          if h.rows.toNat < j ∨ half row j % 2 = 1 ∨ b j % 2 = 1 then 0 else table (ang j / 8)).sum
        cell u (row0 + i) (col0 + 2 * c) = cell s (row0 + i) (col0 + 2 * c) + sum phTC ∧
        cell u (row0 + i) (col0 + 2 * c + 1) = cell s (row0 + i) (col0 + 2 * c + 1) + sum phTS) ∧
    (o.op = 0xD3 → col0 + 2 * nc ≤ 512 → Goes (.matrixComplete die core) s fun u => spadKept u [(o.dst, 4 * nr * nc)] ∧
      ∀ r c, r < nr → c < nc →
        let x := cell s (row0 + r) (col0 + 2 * c)
        let y := cell s (row0 + r) (col0 + 2 * c + 1)
        let f := phFin x y o.cn
        u.spadRead o.group (o.dst + 4 * (r * nc + c)) 4 = leBytes 2 f.1.toNat ++ leBytes 2 f.2.toNat ∧
        (cell u (row0 + r) (col0 + 2 * c), cell u (row0 + r) (col0 + 2 * c + 1)) = if o.ebits.getLsbD 0 then (0, 0) else (x, y)) ∧
    (o.op = 0xD4 → col0 + nc ≤ 512 →
      let len := blockLen (o.ebits.extractLsb' 2 2)
      let nb := (nc + len - 1) / len
      o.dst + nr * nc ≤ o.cn.toNat ∨ o.cn.toNat + nr * nb ≤ o.dst → Goes (.matrixComplete die core) s fun u =>
        spadKept u [(o.dst, nr * nc), (o.cn.toNat, nr * nb)] ∧ ∀ r b, r < nr → b < nb →
          let n := min ((b + 1) * len) nc - b * len
          let old (i : Nat) : W32 := cell s (row0 + r) (col0 + b * len + i)
          let q := qntBlock (o.ebits.extractLsb' 0 2) ((List.range n).map fun i =>
            if o.ebits.getLsbD 4 then FVal.ofInt (old i).toInt else fval f32 (old i).toNat)
          u.spadRead o.group (o.cn.toNat + r * nb + b) 1 = [q.1] ∧ u.spadRead o.group (o.dst + r * nc + b * len) n = q.2.1 ∧
          ∀ i, i < n → cell u (row0 + r) (col0 + b * len + i) = if o.ebits.getLsbD 5 then 0 else old i)

/-! ## Records of launch queues -/

/-- LINE_MONITOR_PARSE, QUEUE_STEAL, CSIG_INCREMENT, IRQ_TIMER (R310, R321, R322, R331).
What an interrupt counts is a reading (log 43). -/
def Obligations.LaunchQueuesRun : Prop :=
  ∀ (s : State) (lq thief launch v victim : Nat) (x : LaunchQ) (q : Queue) (l : Launch) (c : Context), s.stuck = none →
    (s.launchQs.find lq = some x → s.queues.find lq = some q → x.stopped = false → q.st = .active → q.esize = 3 → q.takes = [] →
      q.waiters = [] → Memory.wf s.mem = true → Memory.wf s.window = true →
      let line := cellsGet x.lines (x.consumed % 64 * 128) 128
      ((line.getD 127 0).toNat = x.expect → q.tail - q.head + 1 ≤ q.capacity → Goes (.lineMonitorParse lq) s fun u =>
        u.launchQs.find lq = some { x with consumed := x.consumed + 1, expect := x.expect % 255 + 1 } ∧ ∃ q', u.queues.find lq = some q' ∧
          q'.tail = q.tail + 1 ∧ q'.tickets.find q.tail = some .filled ∧ u.elemRead lq q' q.tail = line) ∧
      ((line.getD 127 0).toNat ≠ x.expect → exec (.lineMonitorParse lq) s = .next s)) ∧
    (s.launchQs.find lq = some x → s.vdieOf x.ctx thief = some v → s.runDie x = some victim → victim ≠ thief → s.idleDie thief = true →
      s.givable lq v = true →
      x.run = (v + 1) % 8 ∨ (x.run = (v + 7) % 8 ∧ ((s.launchQs.filter fun e => e.2.ctx == x.ctx && e.2.run == (v + 1) % 8).any fun e => s.givable e.1 v) = false) →
      Goes (.queueSteal thief lq) s fun u => (u.launchQs.find lq).map (·.run) = some v ∧ lq ∈ (u.die thief).runList ∧
        lq ∉ (u.die victim).runList ∧ ∀ e ∈ u.launches, e.2.lq = lq → openLaunch e.2 = true → e.2.lead = v) ∧
    (s.launches.find launch = some l → s.contexts.find l.ctx = some c → openLaunch l = true → l.lost = false →
      ((diesOf l).all fun v => l.reported.contains v) = true → Tbl.wf s.signals = true →
      Goes (.csigIncrement launch) s fun u => u.launches.find launch = some { l with st := .complete } ∧
        (sigOk c l.csig = true → u.sigRead c l.csig = s.sigRead c l.csig + 1) ∧
        (bitOf (l.word 26).toNat 16 = true → s.launchQs.find l.lq = some x → 1 ≤ bitsOf (l.word 19).toNat 16 16 →
          bitsOf (l.word 19).toNat 16 16 ≤ x.pend + 1 → u.msix = s.msix ++ [(x.vf, BitVec.ofNat 8 (bitsOf (l.word 26).toNat 20 8))])) ∧
    (s.launchQs.find lq = some x → x.pend ≠ 0 → irqDue x s.hclk = true → exec (.irqTimer lq) s = .next { s with msix := s.msix ++ [(x.vf, x.vec)], launchQs := s.launchQs.put lq { x with pend := 0, timer := none } })

/-- DELTA_LAUNCH, FENCE_RECORD, FENCE_RECORD_MET, RESERVED_TYPE_RECORD (R313, R314, R316, R319, R323): each record that is taken has its effect, or
is refused with its REASON. A waiting FENCE ends once every entry's word has reached its threshold, and not before.
In which states of the context records are taken, and the fit rule, are readings (logs 31, 35). -/
def Obligations.RecordsTaken : Prop :=
  (∀ (s : State) (lq die : Nat) (x : LaunchQ) (c : Context) (r : Rec), Taking s lq x c die r → Tbl.wf s.signals = true →
    let bs := r.bytes
    let s0 := taken s lq die r
    let refused (reason : Byte) (u : State) : Prop := u.launchQs.find lq = some { x with refused := x.refused + 1, reason := reason, lasttag := recTag bs } ∧
      (sigOk c x.errsig = true → u.sigRead c x.errsig = s.sigRead c x.errsig + 1)
    (recType bs = 0 ∨ 8 ≤ recType bs → Goes (.reservedTypeRecord lq) s (refused 1)) ∧
    (recType bs = 2 →
      let es := fenceEntries bs (recArg bs)
      (12 < recArg bs → Goes (.fenceRecord lq) s (refused 4)) ∧
      (recArg bs ≤ 12 → (es.any fun e => !sigOpt c e.1) = true → Goes (.fenceRecord lq) s (refused 3)) ∧
      (recArg bs ≤ 12 → (es.any fun e => !sigOpt c e.1) = false → s.fenceMet c es = true → exec (.fenceRecord lq) s = .next s0) ∧
      (recArg bs ≤ 12 → (es.any fun e => !sigOpt c e.1) = false → s.fenceMet c es = false →
        Goes (.fenceRecord lq) s fun u => u.launchQs.find lq = some { x with cur := some (.fence es) })) ∧
    (recType bs = 1 →
      let ls := deltaShadows bs x.shadows
      let l : Launch := { lq := lq, ctx := x.ctx, vf := x.vf, ls := ls, st := .accepted, prio := bitsOf (ls.getD 12 0).toNat 12 3, lead := x.run, tag := recTag bs, order := s.nextId, next := [], retired := [], start := [], reported := [], phases := [], used := [], lost := false }
      (1 < recArg bs ∨ 29 < (maskRegs (recField bs 7 4)).length → Goes (.deltaLaunch lq) s (refused 1)) ∧
      (recArg bs = 1 → (maskRegs (recField bs 7 4)).length ≤ 29 →
        Goes (.deltaLaunch lq) s fun u => u.launchQs.find lq = some { x with shadows := ls } ∧ u.launches = s.launches) ∧
      (recArg bs = 0 → (maskRegs (recField bs 7 4)).length ≤ 29 → launchBad s c l = false → sigOpt c l.csig = true →
        Goes (.deltaLaunch lq) s fun u => u.launchQs.find lq = some { x with shadows := ls } ∧ u.launches.find s.nextId = some l ∧
          (u.contexts.find x.ctx).map (·.st) = some (if c.st = .created then .running else c.st)) ∧
      (recArg bs = 0 → (maskRegs (recField bs 7 4)).length ≤ 29 → launchBad s c l = true → Goes (.deltaLaunch lq) s fun u =>
        u.launches = s.launches ∧ u.launchQs.find lq = some { x with shadows := ls, refused := x.refused + 1, reason := 2, lasttag := recTag bs }))) ∧
  (∀ (s : State) (lq : Nat) (x : LaunchQ) (c : Context) (es : List (Nat × W32)), s.stuck = none → s.launchQs.find lq = some x →
    x.cur = some (.fence es) → s.contexts.find x.ctx = some c →
    (s.fenceMet c es = true → exec (.fenceRecordMet lq) s = .next { s with launchQs := s.launchQs.upd lq fun y => { y with cur := none } }) ∧
    (s.fenceMet c es = false → exec (.fenceRecordMet lq) s = .next s))

/-- A SIGNAL-WRITE record (R324): the hub applies FN (0 add, 1 set, 2 max) and VALUE to the word at SIGADDR; another FN is refused with
REASON 1 and so is an ARG that is not 0 (R313, R314); an address outside the context's range is refused with REASON 3 (R327, R314). -/
def Obligations.SignalWriteRecord : Prop :=
  ∀ (s : State) (lq die : Nat) (x : LaunchQ) (c : Context) (r : Rec), Taking s lq x c die r → Tbl.wf s.signals = true → recType r.bytes = 3 →
    let fn := recField r.bytes 13 1
    let a := recField r.bytes 7 6
    let v : W64 := BitVec.ofNat 64 (recField r.bytes 16 8)
    let old := s.sigRead c a
    let refused (reason : Byte) (u : State) : Prop := u.launchQs.find lq = some { x with refused := x.refused + 1, reason := reason, lasttag := recTag r.bytes } ∧
      (sigOk c x.errsig = true → u.sigRead c x.errsig = s.sigRead c x.errsig + 1)
    (recArg r.bytes = 0 → fn ≤ 2 → sigOk c a = true → Goes (.signalWrite lq) s fun u => u.launchQs = s.launchQs ∧ u.mem = s.mem ∧
      u.sigRead c a = (if fn = 0 then old + v else if fn = 1 then v else if old < v then v else old) ∧
      ∀ w, w ≠ c.sigbase + a / 8 → u.signals.getD w 0 = s.signals.getD w 0) ∧
    (recArg r.bytes ≠ 0 ∨ 2 < fn → Goes (.signalWrite lq) s (refused 1)) ∧
    (recArg r.bytes = 0 → fn ≤ 2 → sigOk c a = false → Goes (.signalWrite lq) s (refused 3))

/-- QUEUE-PRIORITY and NOP records (R325): the priority in bits 2:0 of byte 7 becomes that of every open launch of the queue, and
ls12[14:12]; a NOP record changes nothing, and is refused with REASON 1 where its ARG is not 0 (R313). -/
def Obligations.PriorityAndNopRecords : Prop :=
  ∀ (s : State) (lq die : Nat) (x : LaunchQ) (c : Context) (r : Rec), Taking s lq x c die r → Tbl.wf s.signals = true →
    let p := recField r.bytes 7 1 % 8
    let refused (u : State) : Prop := u.launchQs.find lq = some { x with refused := x.refused + 1, reason := 1, lasttag := recTag r.bytes }
    (recType r.bytes = 4 → recArg r.bytes = 0 → Goes (.queuePriority lq) s fun u =>
      (∀ n l, s.launches.find n = some l → u.launches.find n = some { l with prio := if l.lq = lq ∧ openLaunch l = true then p else l.prio }) ∧
      ∃ y, u.launchQs.find lq = some y ∧ y = { x with shadows := y.shadows } ∧ (∀ n, n ≠ 12 → y.shadows[n]? = x.shadows[n]?) ∧
        ∀ w, x.shadows[12]? = some w → ∃ w', y.shadows[12]? = some w' ∧ w'.extractLsb' 12 3 = BitVec.ofNat 3 p ∧
          w' &&& ~~~0x7000 = w &&& ~~~0x7000) ∧
    (recType r.bytes = 5 → recArg r.bytes = 0 → exec (.nopRecord lq) s = .next (taken s lq die r)) ∧
    (recType r.bytes = 4 → recArg r.bytes ≠ 0 → Goes (.queuePriority lq) s refused) ∧
    (recType r.bytes = 5 → recArg r.bytes ≠ 0 → Goes (.nopRecord lq) s refused)

/-- PAGE_MODE, PAGE_INVALIDATE, PAGE_MODE_DRAIN_END, PAGE_MODE_RELEASE, PAGE_MODE_SIGNAL (R184, R185): the steps of a record of type 6;
LOCK and FLIP are stated for a range of one page.
That lock and shootdown are one step on each die is the model's (log 36), and so is that a page which was unmapped meanwhile is left out
(log 80). -/
def Obligations.PageRecordsRun : Prop :=
  ∀ (s : State) (lq die v pdie : Nat) (x : LaunchQ) (c : Context) (r : Rec) (p : PageLeaf) (bs : List Byte) (old : Tbl (List (Nat × Nat × Nat)))
    (drain : Tbl Nat) (release done : List Nat),
    let lock := PageRec.op r.bytes ≠ 1
    let i : Instr := if PageRec.op r.bytes = 1 then .pageInvalidate lq else .pageMode lq
    let s0 := taken s lq die r
    (Taking s lq x c die r → recType r.bytes = 6 → r.launch = false → recArg r.bytes = 0 → sigOpt c (PageRec.sigaddr r.bytes) = true →
      pageBad s0 x.ctx c r.bytes = false → Goes i s fun u =>
        (∃ o d, u.launchQs.find lq = some { x with cur := some (.pageMode r.bytes o d [] []) }) ∧
        (PageRec.dies r.bytes = [v] → c.remap.find v = some pdie → s0.recLeaves x.ctx c r.bytes v = some [p] → Memory.wf s0.mem = true →
          u.memW64 pdie p.place = (if lock then p.leaf ||| 6 else s0.memW64 pdie p.place) ∧
          ∀ e ∈ u.dieTlb.getD pdie [], e.ctx = x.ctx → overlaps e.base e.size (PageRec.vbase r.bytes) (Leaf.bytes p.leaf) = false)) ∧
    (Taking s lq x c die r → recType r.bytes = 6 → r.launch = false → recArg r.bytes = 0 → sigOpt c (PageRec.sigaddr r.bytes) = true →
      pageBad s0 x.ctx c r.bytes = true → Goes i s fun u => (u.launchQs.find lq).map (·.reason) = some 5) ∧
    (s.stuck = none → s.launchQs.find lq = some x → x.cur = some (.pageMode bs old drain release done) → s.lqCtx x = some c →
      (∀ marker, drain.find v = some marker → c.remap.find v = some pdie →
        let l := (s.leavesNow x.ctx v pdie (PageRec.vbase bs) (old.getD v [])).map (·.1)
        (s.draining pdie marker (rangesOf l) = false → Goes (.pageModeDrainEnd lq v) s fun u => u.mem = s.mem ∧
          u.launchQs.find lq = some { x with cur := some (.pageMode bs old (drain.del v) (v :: release) done) }) ∧
        (s.draining pdie marker (rangesOf l) = true → exec (.pageModeDrainEnd lq v) s = .next s)) ∧
      (release.contains v = true → c.remap.find v = some pdie →
        let l := (s.leavesNow x.ctx v pdie (PageRec.vbase bs) (old.getD v [])).map (·.1)
        (s.cohering pdie (rangesOf l) = true → exec (.pageModeRelease lq v) s = .next s) ∧
        (s.cohering pdie (rangesOf l) = false → Goes (.pageModeRelease lq v) s fun u =>
          u.launchQs.find lq = some { x with cur := some (.pageMode bs old drain (release.filter (· != v)) (v :: done)) } ∧
          (PageRec.op bs = 0 → l = [p] → Memory.wf s.mem = true → u.memW64 pdie p.place =
            (p.leaf &&& ~~~0x7F06) ||| BitVec.ofNat 64 (PageRec.nmode bs * 2 + PageRec.nowner bs * 256)) ∧
          (PageRec.op bs ≠ 0 → u.mem = s.mem))) ∧
      (drain = [] → release = [] → ((PageRec.dies bs).all fun v => done.contains v) = true → Tbl.wf s.signals = true →
        Goes (.pageModeSignal lq) s fun u =>
          ((∀ q, s.queues.find lq = some q → q.st ≠ .free) → u.launchQs.find lq = some { x with cur := none }) ∧
          (sigOk c (PageRec.sigaddr bs) = true → u.sigRead c (PageRec.sigaddr bs) = s.sigRead c (PageRec.sigaddr bs) + 1)))

/-- HOSTCOPY, HOSTCOPY_END (R326): a checked record is taken; bytes move between host and die memory; an error on the host's side
stops the copy with REASON 6; once every byte has been copied and performed, SIGADDR rises by one.
The words of host memory that nothing has written read 0 by the model's choice (log 6). -/
def Obligations.HostCopiesRun : Prop :=
  ∀ (s : State) (lq die start n tag : Nat) (err : Bool) (x : LaunchQ) (c : Context) (r : Rec) (bs : List Byte) (copied : List (Nat × Nat)),
    (Taking s lq x c die r → recType r.bytes = 7 → r.launch = false → recArg r.bytes = 0 → sigOpt c (CopyRec.sigaddr r.bytes) = true →
      CopyRec.dir r.bytes ≤ 1 → CopyRec.vdie r.bytes ≤ 7 → (c.remap.find (CopyRec.vdie r.bytes)).isSome → CopyRec.len r.bytes ≤ 2 ^ 30 →
      Goes (.hostcopy lq start n err) s fun u => u.launchQs.find lq = some { x with cur := some (.hostcopy r.bytes s.nextId [] false) }) ∧
    (s.stuck = none → s.launchQs.find lq = some x → s.lqCtx x = some c →
      (x.cur = some (.hostcopy bs tag copied false) →
        (Goes (.hostcopy lq start n true) s fun u => (u.launchQs.find lq).map (fun y => (y.reason, y.cur)) =
          some (6, some (.hostcopy bs tag copied true))) ∧
        (∀ pdie, n ≠ 0 → start + n ≤ CopyRec.len bs → (copied.any fun r => overlaps r.1 r.2 start n) = false →
          c.remap.find (CopyRec.vdie bs) = some pdie →
          let h := (CopyRec.haddr bs + start) % 2 ^ 64
          let d := (CopyRec.daddr bs + start) % 2 ^ 64
          let went (u : State) : Prop := (u.launchQs.find lq).map (·.cur) = some (some (.hostcopy bs tag ((start, n) :: copied) false))
          (∀ y s1, CopyRec.dir bs = 0 → s.devWrite pdie x.ctx (CopyRec.vdie bs) d (cellsGet s.host h n) (some tag) = (.bytes y, s1) → s1.stuck = none →
            Goes (.hostcopy lq start n false) s fun u => went u ∧ u.mem = s1.mem ∧ u.host = s.host) ∧
          (∀ l s1, CopyRec.dir bs ≠ 0 → s.devRead pdie x.ctx (CopyRec.vdie bs) d n = (.bytes l, s1) → s1.stuck = none →
            Goes (.hostcopy lq start n false) s fun u => went u ∧ u.mem = s1.mem ∧ u.host = cellsSet s.host h l))) ∧
      (∀ stopped, x.cur = some (.hostcopy bs tag copied stopped) → s.tagPending tag = false → Tbl.wf s.signals = true →
        (∀ q, s.queues.find lq = some q → q.st ≠ .free) →
        (stopped = true → exec (.hostcopyEnd lq) s = .next { s with launchQs := s.launchQs.upd lq fun y => { y with cur := none } }) ∧
        (stopped = false → (copied.map (·.2)).foldl (· + ·) 0 = CopyRec.len bs → Goes (.hostcopyEnd lq) s fun u =>
          u.launchQs.find lq = some { x with cur := none } ∧
          (sigOk c (CopyRec.sigaddr bs) = true → u.sigRead c (CopyRec.sigaddr bs) = s.sigRead c (CopyRec.sigaddr bs) + 1))))

/-! ## Home's queues, the hub and halts -/

/-- HOME_OPEN, HOME_RESERVE, HOME_TAKE, HOME_PEEK, HOME_WAIT, HOME_RESET, HOME_CLOSE (R337, R344, R345, R348 to R352, R354): home's arbiter takes
the next request of its kind; the checks of R337 come first, and then the request has its effect and its answer. A closed queue answers as
R348 and R351 say, and a home behind a FAILED bridge HOMELOST (R388).
The steps of a reset are a reading (log 42); that a request's packet crosses the package's links in the step in which home serves it is the
model's choice, and so is when a cut-off home answers (log 55). -/
def Obligations.HomeTakesRequests : Prop :=
  ∀ (s : State) (home src : Nat) (r : QReq) (q : Queue), s.stuck = none → s.queues.find (quKey home r.slot) = some q →
    let key := quKey home r.slot
    let s1 := (s.dropReq r.id).chargeBank (512 + home) r.ctx 1
    let next (want : QOp → Bool) : Prop := s.nextReq home src want s.qreqs [] = some r
    let reply (code : Nat) (v : W64) (bs : List Byte) (n : Nat) (u : State) : Prop :=
      u.answers.find s.nextId = some { req := r, code := code, value := v, bytes := bs, served := n }
    let isTake (o : QOp) : Bool := match o with | .take _ => true | .takes _ _ => true | _ => false
    let isReserve (o : QOp) : Bool := match o with | .reserve _ => true | .launch _ => true | _ => false
    let isOpen (o : QOp) : Bool := match o with | .open_ _ => true | _ => false
    let isPeek (o : QOp) : Bool := match o with | .peek _ => true | _ => false
    let isWait (o : QOp) : Bool := match o with | .wait => true | _ => false
    let isReset (o : QOp) : Bool := match o with | .reset => true | _ => false
    let isClose (o : QOp) : Bool := match o with | .close => true | _ => false
    let idle : Prop := (s.queues.find? fun e => quHome e.1 == home && e.2.st == .resetting && s.lqResetDone e.1 &&
      (match e.2.resetBy with | some r => r.src == src | none => false)) = none
    (s.cutOff src home = true →
      (next isOpen → Goes (.homeOpen home src) s (reply qHomelost 0 [] 0)) ∧
      (next isReserve → Goes (.homeReserve home src) s (reply qHomelost 0 [] 0)) ∧
      (next isTake → Goes (.homeTake home src) s (reply qHomelost 0 [] 0)) ∧
      (next isPeek → Goes (.homePeek home src) s (reply qHomelost 0 [] 0)) ∧
      (next isWait → Goes (.homeWait home src) s (reply qHomelost 0 [] 0)) ∧
      (idle → next isReset → Goes (.homeReset home src) s (reply qHomelost 0 [] 0)) ∧
      (next isClose → Goes (.homeClose home src) s (reply qHomelost 0 [] 0))) ∧
    (s.cutOff src home = false → homeStatus q r ≠ qOk →
      (next isOpen → Goes (.homeOpen home src) s (reply (homeStatus q r) 0 [] 0)) ∧
      (next isReserve → Goes (.homeReserve home src) s (reply (homeStatus q r) 0 [] 0)) ∧
      (next isTake → Goes (.homeTake home src) s (reply (homeStatus q r) 0 [] 0)) ∧
      (next isPeek → Goes (.homePeek home src) s (reply (homeStatus q r) 0 [] 0)) ∧
      (next isWait → Goes (.homeWait home src) s (reply (homeStatus q r) 0 [] 0)) ∧
      (idle → next isReset → Goes (.homeReset home src) s (reply (homeStatus q r) 0 [] 0)) ∧
      (next isClose → Goes (.homeClose home src) s (reply (homeStatus q r) 0 [] 0))) ∧
    (s.cutOff src home = false → homeStatus q r = qOk →
      (∀ rights, next isOpen → r.op = .open_ rights → Goes (.homeOpen home src) s (reply qOk (s1.openValue q r rights) [] 0)) ∧
      (∀ n, next isReserve → r.op = .reserve n →
        (q.st = .closed → Goes (.homeReserve home src) s (reply qVoid 0 [] 0)) ∧
        (q.st ≠ .closed → q.capacity < q.tail - q.head + n → Goes (.homeReserve home src) s (reply qFull 0 [] 0)) ∧
        (q.st ≠ .closed → q.tail - q.head + n ≤ q.capacity → Goes (.homeReserve home src) s fun u => reply qOk (BitVec.ofNat 64 q.tail) [] 0 u ∧
          ∃ q', u.queues.find key = some q' ∧ q'.tail = q.tail + n ∧ ∀ i, i < n → q'.tickets.find (q.tail + i) = some (.reserved src))) ∧
      (next isTake →
        (q.drained = true → Goes (.homeTake home src) s (reply qVoid 0 [] 0)) ∧
        (q.drained = false → q.headReady = false → r.st = true → Goes (.homeTake home src) s (reply qEmpty 0 [] 0)) ∧
        (q.drained = false → q.headReady = false → r.st = false → exec (.homeTake home src) s = .next ((s1.setQueue key { q with takes := q.takes ++ [r] }).crossReq r (s.reqBody r))) ∧
        (q.drained = false → q.tickets.find q.head = some .void → Goes (.homeTake home src) s (reply qVoid 0 [] 0)) ∧
        (∀ n, q.drained = false → q.tickets.find q.head = some .filled → r.op = .take n → Goes (.homeTake home src) s (reply qOk 1 (s.elemRead key q q.head) 1)) ∧
        (∀ n off, q.drained = false → q.tickets.find q.head = some .filled → r.op = .takes n off → Goes (.homeTake home src) s
          (reply qOk (BitVec.ofNat 64 (q.run n q.head)) ((List.range (q.run n q.head)).flatMap fun i => s.elemRead key q (q.head + i)) (q.run n q.head)))) ∧
      (next isPeek → Goes (.homePeek home src) s (reply qOk (State.peekValue q) [] 0)) ∧
      (next isWait →
        (q.headReady = true → Goes (.homeWait home src) s (reply qOk 0 [] 0)) ∧
        (q.headReady = false → q.drained = true → Goes (.homeWait home src) s (reply qVoid 0 [] 0)) ∧
        (q.headReady = false → q.drained = false → exec (.homeWait home src) s = .next ((s1.setQueue key { q with waiters := q.waiters ++ [r] }).crossReq r (s.reqBody r)))) ∧
      (idle → next isReset → q.lq = false → q.waiters = [] → Goes (.homeReset home src) s fun u => reply qOk 0 [] 0 u ∧
        u.queues.find key = some { q with st := .active, head := q.tail, rmark := q.tail, tickets := [], byLaunch := [] }) ∧
      (next isClose → q.takes = [] → q.waiters = [] → Goes (.homeClose home src) s fun u => reply qOk 0 [] 0 u ∧ (u.queues.find key).map (·.st) = some .closed))

/-- HOME_FILL (R346, R347): a fill of a RESERVED ticket fills it and is answered OK; another is answered with its status. A QPUTS moves on to its
next ticket. QUEUE_ANSWER, DIE_RESET_ANNOUNCE (R341, R342, R358): an answer writes QSTAT and gives its destination's registers back; a die's reset
leaves no ticket reserved for that die, and no take of it, at a home.
The bytes that a fill reads, and what it answers, are readings (logs 37, 39). -/
def Obligations.QueueAnswersArrive : Prop :=
  (∀ (s : State) (home src : Nat) (r : QReq) (q : Queue), s.stuck = none → s.queues.find (quKey home r.slot) = some q →
    s.nextReq home src (fun o => match o with | .fill _ _ => true | _ => false) s.qreqs [] = some r →
    (∀ t bs, s.cutOff src home = false → r.eop = none → r.op = .fill t bs →
      (homeStatus q r ≠ qOk → Goes (.homeFill home src) s fun u => u.answers.find s.nextId = some { req := r, code := homeStatus q r, value := BitVec.ofNat 64 t, bytes := [], served := 0 }) ∧
      (homeStatus q r = qOk → State.fillStatus q t ≠ qOk → Goes (.homeFill home src) s fun u => u.answers.find s.nextId = some { req := r, code := State.fillStatus q t, value := BitVec.ofNat 64 t, bytes := [], served := 0 }) ∧
      (homeStatus q r = qOk → State.fillStatus q t = qOk → q.takes = [] → q.waiters = [] → Goes (.homeFill home src) s fun u =>
        u.answers.find s.nextId = some { req := r, code := qOk, value := BitVec.ofNat 64 t, bytes := [], served := 0 } ∧
        u.queues.find (quKey home r.slot) = some { q with tickets := q.tickets.put t .filled } ∧
        (Memory.wf s.window = true → t < q.head + q.window → bs.length = elemSize q.esize →
          u.elemRead (quKey home r.slot) { q with tickets := q.tickets.put t .filled } t = bs))) ∧
    ∀ e o, r.eop = some e → s.quOps.find e = some o → Goes (.homeFill home src) s fun u =>
      (u.quOps.find e).map (·.moved) = some (o.moved + 1) ∧ (o.moved + 1 < o.count → r ∈ s.qreqs → r ∈ u.qreqs)) ∧
  (∀ (s : State) (id home die : Nat) (a : QAns) (t : Thread), s.stuck = none →
    let code := if s.cutOff a.req.home a.req.src then qHomelost else a.code
    (s.answers.find id = some a → s.answerWaits id a = false → a.req.eop = none → s.threads.find a.req.thread = some t → t.st ≠ .exited →
      Goes (.queueAnswer id) s fun u => u.answers = s.answers.del id ∧
        ((∀ m c, s.self a.req.thread = some m → s.contexts.find m.g.ctx = some c → (State.haltOf c m.g.vdie).written = false) → u.mem = s.mem) ∧
        (u.threads.find a.req.thread).map (·.qstat) = some (qstatOf code a.req.opcode) ∧
        (∀ p, a.req.prod = some p → u.prods = s.prods.del p ∨ s.prods.find p = none) ∧
        (a.req.prod = none → a.req.posted = false → code = qOk → (u.threads.find a.req.thread).map (·.waitDone) = some true)) ∧
    (s.answers.find id = some a → s.answerWaits id a = true → exec (.queueAnswer id) s = .next s) ∧
    ((home, die) ∈ s.announced → Goes (.dieResetAnnounce home die) s fun u => u.announced = s.announced.erase (home, die) ∧
      ∀ key q, u.queues.find key = some q → quHome key = home → (∀ n, q.tickets.find n ≠ some (.reserved die)) ∧ ∀ r ∈ q.takes, r.src ≠ die))

/-- SIGNAL_APPLY, ECALL_SERVE, ECALL_ANSWER, HOST_WINDOW_WRITE, HOST_SIGNAL_WRITE, HOST_REGISTER_WRITE (R17, R310, R311, R327, R329, R381,
R405, R406).
When the place of an ECALL returns is a reading (log 64), and that a host write is one step the model's choice (log 44), as is the packet
of an answer (log 55). -/
def Obligations.HubServes : Prop :=
  ∀ (s : State) (vf die id word fn off lq : Nat) (v host : W64) (x : Service) (rest : Tbl Service) (a : EAns) (t : Thread) (y : LaunchQ) (bs : List Byte),
    s.stuck = none →
    ((s.link (512 + die)).st.passes = false → exec (.signalApply vf die) s = .next s ∧ exec (.ecallServe vf die host) s = .next s) ∧
    ((s.link (512 + die)).st.passes = true → State.portElems s.sigQueue vf die = (id, x) :: rest → Tbl.wf s.signals = true → Goes (.signalApply vf die) s fun u => u.sigQueue = s.sigQueue.del id ∧
      u.signals.getD x.sel 0 = sigFn x.fn (s.signals.getD x.sel 0) x.arg ∧ ∀ w, w ≠ x.sel → u.signals.getD w 0 = s.signals.getD w 0) ∧
    ((s.link (512 + die)).st.passes = true → State.portElems s.callQueue vf die = (id, x) :: rest → Goes (.ecallServe vf die host) s fun u => u.callQueue = s.callQueue.del id ∧
      u.eanswers.find id = some { thread := x.thread, ctx := x.ctx, die := x.die, vf := x.vf, regs := x.regs, value :=
        if x.sel = 0 then x.arg else if x.sel = 1 then harvestCount s x.ctx (x.arg.toNat % 8)
        else if x.sel = 2 then BitVec.ofNat 64 ((s.slices.getD x.vf 0 - s.hclk) / 1500) else if x.sel = 3 then 0
        else if x.sel < 0x80 then BitVec.allOnes 64 else host } ∧
      (x.sel = 3 → (u.ecallLog.getD x.vf []).find (s.logNext.getD x.vf 0) = some { a := x.arg, ctx := x.ctx, vdie := x.vdie, vcore := x.vcore, group := x.group, warp := x.warp, lane := x.lane, htime := s.hclk })) ∧
    (s.eanswers.find id = some a → s.bridgeOpen a.die = false → exec (.ecallAnswer id) s = .next s) ∧
    (s.eanswers.find id = some a → s.bridgeOpen a.die = true → s.threads.find a.thread = some t → t.st = .blocked (State.svcWait 0xF6) →
      Goes (.ecallAnswer id) s fun u => u.flows.getD (128 + a.die) 0 = s.flows.getD (128 + a.die) 0 + 1 ∧ u.eanswers = s.eanswers.del id ∧ u.threads.find a.thread =
        some { (match a.regs with | r :: _ => t.setRegs r (pairWords a.value) | [] => t) with waitDone := true, st := .ready, readyAt := s.clkOf a.thread }) ∧
    (s.launchQs.find lq = some y → y.stopped = false → exec (.hostWindowWrite lq off bs) s =
      .next { s with launchQs := s.launchQs.put lq { y with lines := cellsSet y.lines off (bs.take (0x2000 - off)) } }) ∧
    ((s.contexts.vals.any fun c => c.vf == vf && c.st != .destroyed && decide (c.sigbase < word) && decide (word < c.sigbase + c.sigwords)) = true →
      Tbl.wf s.signals = true → Goes (.hostSignalWrite vf word v) s fun u => u.signals.getD word 0 = v) ∧
    ((s.contexts.vals.any fun c => c.vf == vf && c.st != .destroyed && decide (c.sigbase < word) && decide (word < c.sigbase + c.sigwords)) = false →
      exec (.hostSignalWrite vf word v) s = .next s) ∧
    (s.boot ≠ .romcheck → fn ≤ 16 → (s.launchQs.find? fun e => e.2.vf == fn && e.2.windex == off / 0x3000) = some (lq, y) →
      (off % 0x3000 < 0x2000 → 0x100000 + off < 0x40000000 → exec (.hostRegisterWrite fn (0x100000 + off) bs) s = exec (.hostWindowWrite lq (off % 0x3000) bs) s)) ∧
    (s.boot ≠ .romcheck → fn ≤ 16 → exec (.hostRegisterWrite fn (0x40000000 + 8 * word) (leBytes 8 v.toNat)) s = exec (.hostSignalWrite fn word v) s) ∧
    (s.boot ≠ .romcheck → fn ≤ 16 → bs.length = 4 →
      ((s.mbox fn).busy = false → Goes (.hostRegisterWrite fn 0 bs) s fun u => u.mbox fn = { s.mbox fn with cmd := BitVec.ofNat 32 (leNat bs) }) ∧
      ((s.mbox fn).busy = false → Goes (.hostRegisterWrite fn 0x0C bs) s fun u => u.mbox fn = { s.mbox fn with run := (s.mbox fn).cmd, begun := false, spoilt := false, status := BitVec.ofNat 32 (1 + bitsOf (s.mbox fn).cmd.toNat 8 24 * 256) }) ∧
      ((s.mbox fn).busy = true → Goes (.hostRegisterWrite fn 0x0C bs) s fun u => u.mbox fn = s.mbox fn))

/-- HALT_LINE_ARRIVAL, STOP_RECORDS (R372 to R374): at the line's arrival every resident or parking group of the context on the die stops; once its work is
done the die writes its stop records, and with the last die the context is HALTED. PREEMPTION_REQUEST, PREEMPTION_DEADLINE, GROUP_SAVE_BY_MAPS, SLICE_END (R330, R377, R378).
When a die stops, what its records hold and what a map saves are readings (logs 45, 46, 47). -/
def Obligations.HaltsStop : Prop :=
  (∀ (s : State) (ctx v die : Nat) (fin : List Nat) (c : Context), s.stuck = none → s.contexts.find ctx = some c → c.remap.find v = some die →
    (isHalting c.st = true → c.lineUp = true → (State.haltOf c v).arrived = none → Goes (.haltLineArrival ctx v fin) s fun u => u.mem = s.mem ∧
      (u.contexts.find ctx).map (fun x => (x.st, (State.haltOf x v).arrived)) = some (c.st, some (s.now die)) ∧
      ∀ gid g, s.groups.find gid = some g → g.ctx = ctx → g.vdie = v → g.st = .resident ∨ g.st = .parking → (u.groups.find gid).map (·.st) = some .stopped) ∧
    (c.lineUp = false ∨ (State.haltOf c v).arrived.isSome → exec (.haltLineArrival ctx v fin) s = .next s) ∧
    (∀ t, c.st = .halting false → (State.haltOf c v).arrived = some t → (State.haltOf c v).written = false →
      s.working (fun gid => (s.ctxGroups ctx v fun _ => true).any fun e => e.1 == gid) = false →
      (∀ p ∈ s.pushes, p.2.die ≠ die ∨ p.2.part.ctx ≠ ctx) → (∀ e ∈ s.partials, e.1 / 2 ^ 30 / 256 ≠ die ∨ e.2.ctx ≠ ctx) →
      let recs := s.recordsOf ctx v
      let bytes := ((headerRecord c v recs.length (decide (c.stoplen / 64 < recs.length + 1)) :: recs).take (c.stoplen / 64)).flatten
      let base := ((c.xrecs.find v).map (·.stopbase)).getD 0
      base + bytes.length ≤ dieSpan → Goes (.stopRecords ctx v) s fun u => u.mem = cellsSet s.mem (memAddr die base) bytes ∧
        ∃ x, u.contexts.find ctx = some x ∧ (State.haltOf x v).written = true ∧
          x.st = if c.remap.keys.all (fun k => k == v || (State.haltOf c k).written) then .halted else .halting false)) ∧
  (∀ (s : State) (ctx gid vf : Nat) (c : Context) (g : Group), s.stuck = none →
    (s.contexts.find ctx = some c → c.st = .running → Goes (.preemptionRequest ctx) s fun u => ∃ x, u.contexts.find ctx = some x ∧ x.st = .halting true ∧
      x.reason = 1 ∧ x.preDies = c.remap.keys ∧ x.preempt = some (s.hclk + (1 + Config.deadlineUs c.vf % 65535) * 1500) ∧ x.lineUp = s.allStopped ctx) ∧
    (s.contexts.find ctx = some c → c.st ≠ .running → exec (.preemptionRequest ctx) s = .next s) ∧
    (∀ t, s.contexts.find ctx = some c → c.st = .halting true → c.preempt = some t →
      (t ≤ s.hclk ∨ s.allStopped ctx = true → Goes (.preemptionDeadline ctx) s fun u => u.contexts.find ctx = some { c with lineUp := true }) ∧
      (s.hclk < t → s.allStopped ctx = false → exec (.preemptionDeadline ctx) s = .next s)) ∧
    (∀ w s1, s.groups.find gid = some g → s.contexts.find g.ctx = some c → c.st = .halting true → s.liveThreads gid ≠ [] →
      (∀ e ∈ s.liveThreads gid, ∃ x, e.2.st = .stopped 4 x) → g.st = .resident ∨ (g.st = .stopped ∧ g.slot = none) → s.working (· == gid) = false →
      (s.stopGroup gid []).saveGroups true [gid] = (w, s1) → s1.stuck = none → Goes (.groupSaveByMaps gid) s fun u =>
        u.mem = s1.mem ∧ u.groups = s1.groups ∧ (u.groups.find gid).map (·.st) = some .stopped) ∧
    (s.slices.getD vf 0 ≤ s.hclk → Goes (.sliceEnd vf) s fun u => u.slices.getD vf 0 = s.hclk + Config.sliceLen s.fresh ∧
      ∀ n c, s.contexts.find n = some c → c.vf = vf → c.st = .running → (u.contexts.find n).map (·.st) = some (.halting true)) ∧
    (s.hclk < s.slices.getD vf 0 → exec (.sliceEnd vf) s = .next s))

/-! ## Links and the package -/

/-- DATA_FLIT, STOMPED_FLIT, NAK, IDLE, MARKER, RESERVED_FLIT, HEADER_CHECK_FAIL (R384, R386, R387, R389, R393): what a received flit of 128
bytes, as its wavelengths bring them, does on a link that the package has. The whole packets that an expected DATA flit completes are passed upward, but for those that a
home has already accepted; a stomped flit's last packet is dropped; a packet whose header check fails is forwarded stomped, if at all.
The header of a packet, and how the receiver finds a MARKER, are the model's choices (log 55). -/
def Obligations.FlitsArrive : Prop :=
  ∀ (s : State) (n egress start : Nat) (bytes : List Byte), s.stuck = none → bytes.length = 128 →
    let l := s.link n
    let f := l.receives bytes
    let bs := l.held ++ f.payload
    (linkCount ≤ n → exec (.dataFlit n bytes) s = .next s) ∧ (n < linkCount →
    (l.st.passes = true → f.stomped = false → f.crcOk = true → f.reserved = false → f.ty = tyData →
      (f.seq = l.expSeq → l.hunting = false → badPacket bs = none → Goes (.dataFlit n bytes) s fun u =>
        let r := packetsOf bs
        let new := freshPackets s.accepted r.1
        (u.link n).expSeq = l.expSeq + 1 ∧ (u.link n).upward = l.upward ++ new.1 ∧ (u.link n).held = r.2 ∧ u.accepted = new.2 ∧
        (u.link n).rxBeat = l.rxBeat + 16 ∧ (u.link n).heard = true ∧ (u.link n).nakSent = none) ∧
      (f.seq ≠ l.expSeq ∨ l.hunting = true ∨ badPacket bs ≠ none → Goes (.dataFlit n bytes) s fun u => (u.link n).expSeq = l.expSeq ∧
        (u.link n).upward = l.upward ∧ (u.link n).nakSent = l.nakSent.or (some s.hclk))) ∧
    (l.st.passes = true → f.stomped = false → f.crcOk = false → Goes (.dataFlit n bytes) s fun u => (u.link n).expSeq = l.expSeq ∧
      (u.link n).upward = l.upward ∧ (u.link n).nakSent = l.nakSent.or (some s.hclk)) ∧
    (l.st.passes = true → f.stomped = true → f.reserved = false → f.ty = tyData → f.seq = l.expSeq → l.hunting = false →
      Goes (.stompedFlit n bytes) s fun u =>
        let r := packetsOf (l.held ++ f.payload.drop l.skip)
        let kept := if l.skip = 0 ∧ r.2 = [] then r.1.dropLast else r.1
        (u.link n).expSeq = l.expSeq + 1 ∧ (u.link n).upward = l.upward ++ (freshPackets s.accepted kept).1 ∧
        (u.link n).held = if l.skip = 0 then [] else r.2) ∧
    (l.st.passes = true → f.is tyNak = true → f.ack = none → Goes (.nak n bytes) s fun u =>
      let again := l.replay.dropWhile fun d => d.seq != f.seq
      (u.link n).out = l.out ++ stripe l.tx.map l.beat (again.map fun d => mkFlit l tyData d.seq d.payload d.stomped) ∧
      (u.link n).beat = l.beat + 16 * again.length ∧ (u.link n).replayed = l.replayed + again.length ∧ (u.link n).replay = l.replay) ∧
    (∀ a, l.st.passes = true → f.is tyIdle = true → f.ack = some a → (l.replay.any fun d => d.seq == a) = true → l.backlog = [] →
      Goes (.idle n bytes) s fun u => (u.link n).replay = (l.replay.dropWhile fun d => d.seq != a).drop 1 ∧ (u.link n).ackAt = s.hclk ∧
        (u.link n).out = l.out ++ stripe l.tx.map l.beat [mkFlit l tyIdle l.nextSeq [] false]) ∧
    (l.st.passes = true → f.is tyMarker = true → Goes (.marker n bytes) s fun u =>
      let map := BitVec.ofNat 16 (leNat (f.payload.take 2))
      (u.link n).rx.map = map ∧ (u.link n).rx.speed = (f.payload.getD 2 0).toNat ∧ (u.link n).rx.epoch = (f.payload.getD 3 0).toNat ∧
      (u.link n).rxBeat = 16 ∧ ((u.link n).st ≠ .failed → (u.link n).hunting = decide (map &&& l.rx.dark ≠ 0))) ∧
    (f.crcOk = true → f.reserved = true → l.st ≠ .down → l.st ≠ .failed → s.ringDrops = 0 → s.ring.length < 4096 →
      Goes (.reservedFlit n bytes) s fun u => u.ringNext = s.ringNext + 1 ∧
        ((u.ring.find s.ringNext).map fun r => r.take 1) = some [7] ∧ (u.link n).upward = l.upward ∧ (u.link n).expSeq = l.expSeq) ∧
    (l.st.passes = true → f.is tyData = true → f.seq = l.expSeq → l.hunting = false → egress ≠ n → egress < linkCount → badPacket bs = some start →
      (s.link egress).st.passes = true → (s.link egress).backlog = [] → (s.link egress).replay.length < 4095 → Goes (.headerCheckFail n egress bytes) s fun u =>
        (u.link n).expSeq = l.expSeq ∧ (u.link n).nakSent = l.nakSent.or (some s.hclk) ∧ ∃ more, (u.link egress).replay =
          (s.link egress).replay ++ { seq := (s.link egress).nextSeq, payload := (bs.drop start).take 116, stomped := true, ctx := none } :: more) ∧
    (badPacket bs = none → Goes (.headerCheckFail n egress bytes) s fun u => (u.link egress).replay = (s.link egress).replay ∧ (u.link n).expSeq = l.expSeq))

/-- REPLAY_TIMEOUT, NAK_HOLDOFF_END, CONTROL_FLIT_REPEAT, TRAINING_TIMEOUT, RETRAIN_TIMEOUT (R387, R388, R390): what 8 µs without an advance
of ACK, 4 µs after a NAK, 2 µs without an answer, 100 ms of TRAINING and 50 ms of a wavelength's training end; before, nothing changes. LINK_ENABLE, LINK_DISABLE, LOSS_OF_LIGHT, LOSS, LIGHT_RESTORED, ERROR_RATE_THRESHOLD, RETRAIN, TRAINING_END, LPR (R388 to R392): lane maps,
retraining and the agreement of link parameters.
The choices that R387 to R392 leave are readings (log 56). -/
def Obligations.LinksTrain : Prop :=
  (∀ (s : State) (n : Nat), s.stuck = none → n < linkCount →
    let l := s.link n
    (l.replay ≠ [] → l.st.passes = true →
      (l.ackAt + 12000 ≤ s.hclk → Goes (.replayTimeout n) s fun u => (u.link n).ackAt = s.hclk ∧
        (u.link n).out = l.out ++ stripe l.tx.map l.beat (l.replay.map fun d => mkFlit l tyData d.seq d.payload d.stomped)) ∧
      (s.hclk < l.ackAt + 12000 → exec (.replayTimeout n) s = .next s)) ∧
    (∀ t, l.nakSent = some t →
      (t + 6000 ≤ s.hclk → exec (.nakHoldoffEnd n) s = .next { s with links := s.links.put n { l with nakSent := none } }) ∧
      (s.hclk < t + 6000 → exec (.nakHoldoffEnd n) s = .next s)) ∧
    (l.st ≠ .down → l.st ≠ .failed → Goes (.controlFlitRepeat n) s fun u =>
      (u.link n).unanswered = (l.unanswered.map fun a => if a.sent + 3000 ≤ s.hclk then { a with sent := s.hclk } else a) ∧
      (u.link n).out.length = l.out.length + 16 * (l.unanswered.filter fun a => decide (a.sent + 3000 ≤ s.hclk)).length) ∧
    (l.st = .training →
      (l.trainAt + 150000000 ≤ s.hclk → Goes (.trainingTimeout n) s fun u => (u.link n).st = .failed) ∧
      (s.hclk < l.trainAt + 150000000 → exec (.trainingTimeout n) s = .next s)) ∧
    (l.st.passes = true →
      (l.tx.wave.isSome → l.tx.offer = none → l.tx.since + 75000000 ≤ s.hclk → Goes (.retrainTimeout n) s fun u => (u.link n).tx.wave = none) ∧
      (l.rx.wave.isSome → l.rx.offer = none → l.rx.since + 75000000 ≤ s.hclk → Goes (.retrainTimeout n) s fun u => (u.link n).rx.wave = none))) ∧
  (∀ (s : State) (n wave rate : Nat) (mask : BitVec 16) (bytes trained : List Byte), s.stuck = none → n < linkCount →
    let l := s.link n
    let f := l.receives bytes
    let rec16 := f.payload.take 16
    (l.st = .down ∨ l.st = .failed → Goes (.linkEnable n) s fun u => (u.link n).st = .training ∧ (u.link n).tx.map = ~~~l.tx.dark ∧
      (u.link n).rx.map = ~~~l.rx.dark ∧ (u.link n).miss = 0 ∧ (u.link n).trainAt = s.hclk ∧
      (u.link n).hunting = true ∧ (u.link n).out = l.out ++ stripe (~~~l.tx.dark) 0 [mkFlit l tyMarker l.nextSeq
        (leBytes 2 (~~~l.tx.dark).toNat ++ [byteOf l.tx.agreed.speed, byteOf l.tx.agreed.epoch]) false]) ∧
    (l.st ≠ .down → Goes (.linkDisable n) s fun u => (u.link n).st = .down) ∧
    (l.st.passes = true → mask &&& ~~~l.rx.dark ≠ 0 → Goes (.lossOfLight n mask) s fun u =>
      (u.link n).rx.dark = l.rx.dark ||| mask ∧ ((u.link n).st ≠ .failed → (u.link n).hunting = true ∧
        (u.link n).unanswered = l.unanswered ++ [{ ty := tyLoss, payload := leBytes 2 (l.rx.dark ||| mask).toNat ++ leBytes 2 l.expSeq.toNat, sent := s.hclk }])) ∧
    (bytes.length = 128 → l.st.passes = true → f.is tyLoss = true → Goes (.loss n bytes) s fun u =>
      (u.link n).tx.map = l.tx.map &&& ~~~BitVec.ofNat 16 (leNat (f.payload.take 2)) ∧ (mapWidth (u.link n).tx.map < 4 → (u.link n).st = .failed)) ∧
    (∀ w, l.st.passes = true → l.tx.wave = none → lowWave (mask &&& l.tx.dark) = some w → Goes (.lightRestored n mask) s fun u =>
      (u.link n).tx.dark = l.tx.dark &&& ~~~mask ∧ ((u.link n).st ≠ .failed → (u.link n).tx.wave = some w)) ∧
    (l.st.passes = true → l.thresholds.getD wave 42949 < rate → wave < 16 → l.rx.map.getLsbD wave = true → l.rx.dark.getLsbD wave = false → l.rx.wave = none →
      (l.unanswered.any fun x => x.ty == tyRetrain) = false → Goes (.errorRateThreshold n wave rate) s fun u =>
        (u.link n).unanswered = l.unanswered ++ [{ ty := tyRetrain, payload := [byteOf wave, 0], sent := s.hclk }] ∧ (u.link n).rx = l.rx) ∧
    (bytes.length = 128 → l.st.passes = true → f.is tyRetrain = true →
      let w := (f.payload.getD 0 0).toNat
      (f.payload.getD 1 0 = 0 → l.tx.wave = none → w < 16 → l.tx.map.getLsbD w = true →
        (9 ≤ mapWidth l.tx.map → Goes (.retrain n bytes) s fun u => (u.link n).tx.map = l.tx.map &&& ~~~waveBit w ∧
          ((u.link n).st ≠ .failed → (u.link n).tx.wave = some w)) ∧
        (mapWidth l.tx.map < 9 → Goes (.retrain n bytes) s fun u => (u.link n).tx = l.tx)) ∧
      (f.payload.getD 1 0 ≠ 0 → w < 16 → l.tx.wave = some w → l.tx.offer = none → Goes (.retrain n bytes) s fun u =>
        (u.link n).tx.offer = some { width := mapWidth (l.tx.map ||| waveBit w), map := l.tx.map ||| waveBit w, speed := if Config.linkSlow n s.fresh then 1 else 0, epoch := (l.tx.agreed.epoch + 1) % 256 })) ∧
    (l.st = .training → l.rx.offer = none → l.tx.offer = none → l.rx.far = none → l.tx.done = false → l.rx.done = false →
      let map := Config.linkMap n s.fresh &&& ~~~l.tx.dark
      Goes (.trainingEnd n trained) s fun u => (u.link n).rx.offer = some (readLpr trained) ∧
        (u.link n).tx.offer = if 4 ≤ mapWidth map then some { width := mapWidth map, map := map, speed := if Config.linkSlow n s.fresh then 1 else 0, epoch := (l.tx.agreed.epoch + 1) % 256 } else none) ∧
    (bytes.length = 128 → f.is tyLpr = true →
      (l.st = .training → (sealed_ n true rec16 && !sealed_ n false rec16) = false → l.rx.far = none → l.rx.done = false → l.rx.echo = none →
        (l.rx.offer = none → Goes (.lpr n bytes) s fun u => (u.link n).rx.far = some rec16) ∧
        (∀ t, l.rx.offer = some t → l.tx.done = false → Goes (.lpr n bytes) s fun u =>
          (u.link n).rx.echo = (if rec16 = t.bytes n false ∨ l.miss < 2 then some (rec16, t.bytes n false) else none) ∧
          (rec16 = t.bytes n false → (u.link n).rx.agreed = t ∧ (u.link n).rx.done = true ∧ (u.link n).miss = 0 ∧
            (u.link n).unanswered = (l.unanswered.filter fun x => !x.isRetrain 1) ++ [{ ty := tyLpr, payload := t.bytes n false, sent := s.hclk }]) ∧
          (rec16 ≠ t.bytes n false → (u.link n).rx.agreed = l.rx.agreed ∧ (u.link n).miss = l.miss + 1 ∧
            (u.link n).st = if 3 ≤ l.miss + 1 then .failed else .training))) ∧
      (∀ e, l.st = .training ∨ l.st.passes = true → l.tx.offer = none → l.rx.echo = some (rec16, e) → f.ack = none → Goes (.lpr n bytes) s fun u =>
        (u.link n).out = l.out ++ stripe l.tx.map l.beat [mkFlit l tyLpr l.nextSeq e false] ∧ (u.link n).rx = l.rx) ∧
      (∀ p, l.st = .training → l.tx.offer = some p → l.rx.done = true → l.tx.done = false →
        (rec16 = p.bytes n true → 4 ≤ mapWidth (p.map &&& ~~~l.tx.dark) → 4 ≤ mapWidth (l.rx.agreed.map &&& ~~~l.rx.dark) → Goes (.lpr n bytes) s fun u =>
          (u.link n).tx.agreed = p ∧ (u.link n).tx.map = p.map &&& ~~~l.tx.dark ∧ (u.link n).rx.map = l.rx.agreed.map &&& ~~~l.rx.dark ∧
          (u.link n).st = if mapWidth (p.map &&& ~~~l.tx.dark) = 16 ∧ mapWidth (l.rx.agreed.map &&& ~~~l.rx.dark) = 16 then .up else .degraded) ∧
        (rec16 ≠ p.bytes n true → (∀ e, l.rx.echo = some e → e.1 ≠ rec16) → Goes (.lpr n bytes) s fun u =>
          (u.link n).miss = l.miss + 1 ∧ (u.link n).tx.agreed = l.tx.agreed ∧
          (u.link n).st = if 3 ≤ l.miss + 1 then .failed else .training))))

/-- SAMPLE_INTERVAL, MARGIN_PLAN, THERMAL_TRIP, DIE_RESET, POWER_ON (R30, R32, R396, R403, R404, R408, R409, R411).
That the event's arguments pick a sample and a harvest is the model's choice (logs 8, 58), and so are that a plan of one unit recomputes the
allotment of every die, which leaves room for a token (log 30), hclk 0 (log 5) and the memories that a power-on keeps (log 6); the boot
steps and what a die reset keeps are readings (logs 60, 61). -/
def Obligations.PackageRuns : Prop :=
  ∀ (s : State) (die ctx pick lane unit reason fnew vnew : Nat) (lat budget : List Nat) (tests : List (List Byte)) (spares : List Byte),
    s.stuck = none →
    let harvest := tests.map (·.map harvestClass)
    let fixed := budget.foldl (· + ·) 0
    (∀ sm x w, s.sampling.find (die * 256 + ctx) = some sm → sm.start + sm.interval ≤ s.clk die 0 → sm.issues[pick % sm.issues.length]? = some x →
      x.members[lane % x.members.length]? = some w → Goes (.sampleInterval die ctx pick lane lat) s fun u =>
        (u.samples.getD die []).find (s.sampleNext.getD die 0) = some (sampleRecord ctx x w lat) ∧
        u.sampling.find (die * 256 + ctx) = some { sm with start := s.clk die 0, issues := [] }) ∧
    (s.sampling.find (die * 256 + ctx) = none → (s.vdieOf ctx die).isSome → ctx < 256 → Goes (.sampleInterval die ctx pick lane lat) s fun u =>
      u.sampling.find (die * 256 + ctx) = some { interval := 2 ^ 10 + Config.sampleClk ctx die % (2 ^ 24 - 2 ^ 10 + 1), start := s.clk die 0, issues := [] }) ∧
    (unit < 8 → reason ≤ 3 → 0 < fnew → fnew ≤ 1750 → vnew ≤ 65535 → fixed + 144 ≤ 4200 → s.boot = .ready ∨ s.boot = .loading → Goes (.marginPlan unit reason fnew vnew budget) s fun u =>
      (u.die unit).mhz = fnew ∧ (u.die unit).mv = vnew ∧
      ∀ d < 8, (u.die d).newAllot = some (max 1 (min 16 ((s.powerLim - fixed) / 144)))) ∧
    (reason ≤ 3 → 0 < fnew → fnew ≤ 1500 → vnew ≤ 65535 → fixed + 144 ≤ 4200 → s.boot = .ready ∨ s.boot = .loading → Goes (.marginPlan 8 reason fnew vnew budget) s fun u =>
      u.hubMhz = fnew ∧ u.hubMv = vnew) ∧
    (die < 8 → 0 < fnew → fnew < (s.die die).mhz → vnew ≤ 65535 → s.boot = .ready → Goes (.thermalTrip die fnew vnew) s fun u =>
      (u.die die).mhz = fnew ∧ (u.die die).mv = vnew) ∧
    (die < 8 → s.boot = .ready → (s.resetDie die).stuck = none → Goes (.dieReset die) s fun u =>
      (noStopRecords s → u.mem = s.mem) ∧ (u.die die).inReset = true ∧ (u.die die).dt = 0 ∧
      (u.link (512 + die)).st = .down ∧ (∀ e ∈ u.igroups, e.2.die ≠ die) ∧
      (∀ n c, s.contexts.find n = some c → c.st = .running → (c.remap.any fun v => v.2 == die) = true →
        ∃ x, u.contexts.find n = some x ∧ x.dieLost = true ∧ x.reason = 3 ∧ (x.st = .halting false ∨ x.st = .halted))) ∧
    (s.frozen = true ∨ s.boot = .ready ∨ s.boot = .recovery → Goes (.powerOn tests spares) s fun u => u.boot = .romcheck ∧ u.frozen = false ∧
      u.mem = s.mem ∧ u.flash = s.flash ∧ u.threads = [] ∧ u.contexts = [] ∧ u.launches = [] ∧ u.queues = [] ∧ u.hclk = 0 ∧ (u.mbox 16).status = 1) ∧
    (s.frozen = false → s.boot = .romcheck → Goes (.powerOn tests spares) s fun u => u.mem = s.mem ∧
      u.boot = (if imageOk s = true then .loading else .recovery) ∧ u.mailboxes = (if imageOk s = true then s.mailboxes else [])) ∧
    (s.frozen = false → s.boot = .loading →
      (harvestOk harvest spares = true → Goes (.powerOn tests spares) s fun u => u.boot = .ready ∧ u.image = s.flash ∧ u.mem = s.mem ∧ (u.mbox 16).status = 0 ∧
        ∀ d < 8, u.classes.find d = harvest[d]? ∧ ((s.link (512 + d)).st = .down → (u.link (512 + d)).st = .training)) ∧
      (harvestOk harvest spares = false → exec (.powerOn tests spares) s = .next s))

/-! ## Mailbox commands -/

/-- CREATE_CONTEXT, DESTROY_CONTEXT, HALT_REQUEST, SAVE_CONTEXT, RESUME_CONTEXT (R361, R363, R378, R379, R407): mailbox command 0x01.
Places that firmware picks, and the steps of a command, are the model's choice (logs 48, 49, 51, 52); which payloads are refused is a reading (log 50). -/
def Obligations.ContextCommands : Prop :=
  ∀ (s : State) (fn ctx : Nat) (m : Mbox) (c : Context) (dies : List Nat) (cores : List (Nat × Nat × Nat)), Runs s fn 1 m → fn ≠ 16 →
    let op (n : Nat) : Prop := m.arg 0x10 1 = n
    let names : Prop := m.arg 0x11 1 = ctx ∧ s.contexts.find ctx = some c ∧ c.vf = fn
    let state (u : State) (st : CState) : Prop := (u.contexts.find ctx).map (·.st) = some st
    let gone := (s.groups.filter fun e => e.2.ctx == ctx).map (·.1)
    (∀ xs s1, op 0 → m.arg 0x18 4 % 64 = 0 → s.sigTop + m.arg 0x1C 4 ≤ 2 ^ 21 →
      ((List.range 256).find? fun n => (s.contexts.find n).isNone) = some ctx → diesOk s (diesArg m) dies = true →
      coresOk s (bindDies (diesArg m) dies) cores = true →
      newXrecs (m.arg 0x14 4) (m.arg 0x18 4) (bindDies (diesArg m) dies) s = some (xs, s1) →
      Goes (.createContext fn dies cores) s fun u => ended u fn m 2 ∧ (m.spoilt = false → (u.mbox fn).pay 0x40 1 = [byteOf ctx]) ∧ u.sigTop = s.sigTop + m.arg 0x1C 4 ∧
        ∃ x, u.contexts.find ctx = some x ∧ x.vf = fn ∧ x.st = .created ∧ x.remap = bindDies (diesArg m) dies ∧ x.cores = cores ∧ x.xrecs = xs ∧
          x.sigbase = s.sigTop ∧ x.sigwords = m.arg 0x1C 4 ∧ x.qtlen = m.arg 0x14 4 ∧ x.stoplen = m.arg 0x18 4) ∧
    (op 1 → names →
      (c.st = .created ∨ c.st = .halted ∨ c.st = .saved → Goes (.destroyContext fn) s fun u => state u .destroyed ∧ u.mbox fn = m) ∧
      (c.st = .destroyed → s.quiet gone = true ∨ c.dieLost = true → (s.queues.vals.any fun q => q.ctx == ctx && q.st == .resetting) = false →
        Goes (.destroyContext fn) s fun u => ended u fn m 2 ∧ u.contexts = s.contexts.del ctx) ∧
      (c.st = .destroyed → (s.queues.vals.any fun q => q.ctx == ctx && q.st == .resetting) = true → exec (.destroyContext fn) s = .next s) ∧
      (c.st = .running → Goes (.destroyContext fn) s fun u => ended u fn m 3 ∧ u.contexts = s.contexts)) ∧
    (op 2 → names →
      (c.st = .running ∨ c.st = .halting true → Goes (.haltRequest fn) s fun u =>
        u.contexts.find ctx = some { c with st := .halting false, reason := 2, lineUp := true, primary := c.primary.or (some .host) } ∧ u.mbox fn = m) ∧
      (c.st = .halted → Goes (.haltRequest fn) s fun u => ended u fn m 2 ∧ u.contexts = s.contexts) ∧
      (c.st = .created → Goes (.haltRequest fn) s fun u => ended u fn m 3 ∧ u.contexts = s.contexts)) ∧
    (op 3 → names →
      (∀ s1, c.st = .halted → c.overflow = false → s.saveGroups false (s.unsaved ctx none) = (false, s1) → s1.stuck = none →
        (c.remap.foldl (fun s v => s.writeStop ctx v.1 v.2) s1).stuck = none →
        Goes (.saveContext fn) s fun u => ended u fn m 2 ∧ state u (if (s1.unsaved ctx none).isEmpty then .saved else .halted)) ∧
      (c.st ≠ .halted ∨ c.overflow = true → Goes (.saveContext fn) s fun u => ended u fn m 3 ∧ u.contexts = s.contexts)) ∧
    (op 4 → names →
      (c.st = .halted → c.overflow = false → c.dieLost = false → diesArg m = c.remap.keys →
        (∀ v ∈ List.range 8, ((m.pay (0x40 + v) 1).getD 0 0).toNat = 0xFF) →
        Goes (.resumeContext fn dies cores) s fun u => state u .resuming ∧ u.mbox fn = m) ∧
      (∀ s1, c.st = .resuming → s.restoreGroups ((s.groups.filter fun e => e.2.ctx == ctx && e.2.st == .stopped && e.2.slot.isSome).map (·.1)) = (false, s1) →
        (s1.contexts.find ctx).map (·.st) = some .resuming →
        (∀ x, s1.contexts.find ctx = some x → ∀ h ∈ x.halts, h.2.cause = none) → s1.stuck = none → Goes (.resumeContext fn dies cores) s fun u => ended u fn m 2 ∧
          state u .running ∧ ∀ gid g, s1.groups.find gid = some g → g.ctx = ctx → g.st = .stopped → g.slot = none → (u.groups.find gid).map (·.st) = some .resident) ∧
      (c.st = .running → Goes (.resumeContext fn dies cores) s fun u => ended u fn m 3 ∧ u.contexts = s.contexts))

/-- WRITE_PAGE_TABLE_ENTRIES, CREATE_QUEUE, DELETE_QUEUE, BIND_QIDS (R174, R332, R333, R335, R338, R407): commands 0x02 to 0x04.
What command 0x02 counts and refuses is the model's choice (log 54), and so is what a deleted queue answers (log 41); the numbers given are
a reading (log 63). -/
def Obligations.TableCommands : Prop :=
  ∀ (s : State) (fn ctx v die slot wbase sbase inc : Nat) (m : Mbox) (c : Context) (x : XRec) (q : Queue), fn ≠ 16 →
    s.contexts.find ctx = some c → c.vf = fn → c.st ≠ .destroyed → c.remap.find v = some die → c.xrecs.find v = some x →
    (Runs s fn 2 m → m.arg 0x10 1 = ctx → m.arg 0x11 1 = v → 1 ≤ m.arg 0x12 2 → m.arg 0x12 2 ≤ 252 →
      let r := s.writePtes die ctx v x ((List.range (m.arg 0x12 2)).map fun i => (leNat (m.pay (0x40 + 16 * i) 8), bytesW64 (m.pay (0x48 + 16 * i) 8)))
      Goes (.writePageTableEntries fn) s fun u => ended u fn m 2 ∧ u.mem = r.2.mem ∧ (m.spoilt = false → (u.mbox fn).pay 0x40 2 = leBytes 2 r.1)) ∧
    (Runs s fn 3 m → m.arg 0x11 1 = ctx → m.arg 0x12 1 = v → m.arg 0x10 1 = 0 →
      let log := m.arg 0x15 1
      let esize := m.arg 0x13 1
      let window := m.arg 0x16 2
      let lq := bitOf (m.arg 0x14 1) 1
      let spill := if log = 0xFF then 0 else 2 ^ log * elemSize esize
      esize ≤ 7 → 1 ≤ window → log ≤ 32 ∨ log = 0xFF →
      (lq = true → esize = 3 ∧ (c.remap.find (m.arg 0x2C 1)).isSome ∧
        (s.launchQs.filter fun x => !x.2.stopped || (s.queues.find x.1).any fun q => q.st != .free).length < 512) →
      (s.freeWindow die (window * elemSize esize)).isSome → slot < 65536 → inc < 65536 → wbase % 64 = 0 → sbase % 64 = 0 →
      (∀ q, s.queues.find (quKey die slot) = some q → q.st = .free ∧ q.inc.toNat ≠ inc ∧ s.launchQs.find (quKey die slot) = none) →
      State.rangeFree (s.queues.filterMap fun e => if quHome e.1 == die && e.2.st != .free then some (e.2.wbase, e.2.window * elemSize e.2.esize) else none)
        0x3000000 wbase (window * elemSize esize) = true → sbase + spill ≤ (s.die die).fwTop → (spill ≠ 0 → (s.die die).mapTop ≤ sbase) →
      Goes (.createQueue fn slot wbase sbase inc) s fun u => ended u fn m 2 ∧ (m.spoilt = false → (u.mbox fn).pay 0x40 2 = leBytes 2 slot) ∧
        (∃ y, u.queues.find (quKey die slot) = some y ∧ y.ctx = ctx ∧ y.vf = fn ∧ y.st = .active ∧ y.esize = esize ∧ y.window = window ∧
          y.spilllog = (if log = 0xFF then none else some log) ∧ y.lq = lq ∧ y.wbase = wbase ∧ y.inc.toNat = inc ∧
          y.keyp = BitVec.ofNat 48 (m.arg 0x18 6) ∧ y.keyc = (if lq then 0 else BitVec.ofNat 48 (m.arg 0x1E 6)) ∧
          y.head = 0 ∧ y.tail = 0 ∧ y.tickets = []) ∧
        (lq = true → ∃ z d, u.launchQs.find (quKey die slot) = some z ∧ z.ctx = ctx ∧ z.run = m.arg 0x2C 1 ∧ z.expect = 1 ∧ z.consumed = 0 ∧
          z.shadows = List.replicate 32 0 ∧ c.remap.find (m.arg 0x2C 1) = some d ∧ quKey die slot ∈ (u.die d).runList)) ∧
    (Runs s fn 3 m → m.arg 0x11 1 = ctx → m.arg 0x12 1 = v → m.arg 0x10 1 = 1 →
      s.queues.find (quKey die (c.slotOf v (m.arg 0x2A 2))) = some q → q.st ≠ .free → q.st ≠ .resetting → q.ctx = ctx → Goes (.deleteQueue fn) s fun u => ended u fn m 2 ∧
        (u.queues.find (quKey die (c.slotOf v (m.arg 0x2A 2)))).map (fun y => (y.st, y.tickets, y.takes, y.waiters)) = some (.free, [], [], []) ∧
        ∀ r ∈ q.takes ++ q.waiters, ∃ n a, u.answers.find n = some a ∧ a.req = r ∧ a.code = qHomelost) ∧
    (Runs s fn 4 m → m.arg 0x10 1 = ctx → m.arg 0x11 1 = v → 1 ≤ m.arg 0x12 2 → m.arg 0x12 2 ≤ 201 →
      let r := s.bindEntries ctx die c x ((List.range (m.arg 0x12 2)).map fun i => (leNat (m.pay (0x40 + 20 * i) 4), m.pay (0x44 + 20 * i) 16))
      Goes (.bindQids fn) s fun u => ended u fn m 2 ∧ u.mem = r.2.mem ∧ u.qidCache = r.2.qidCache ∧ (m.spoilt = false → (u.mbox fn).pay 0x40 2 = leBytes 2 r.1))

/-- READ_HARVEST_MAP, READ_EVENT_RING, READ_ECALL_LOG, READ_SAMPLE_BUFFER, READ_ENERGY_BANKS, ATTEST, UNASSIGNED_COMMAND (R32, R381, R395, R396,
R401, R406, R407, R410): the commands that read, on any function.
SHAKE256 and Ed448 are FIPS 202's and RFC 8032's, and the keys of the package opaque constants (log 9); the extent of the harvest map is a reading
(log 60). What an unassigned command and a SRC that the table does not give leave is the model's choice (log 52). -/
def Obligations.ReadCommands : Prop :=
  ∀ (s : State) (fn : Nat) (m : Mbox),
    let answers (l : List (Nat × List Byte)) (u : State) : Prop := ended u fn m 2 ∧ (m.spoilt = false → (u.mbox fn).payload = response l) ∧ u.mem = s.mem
    let named := devicePub ++ pkgBytes.take 2
    (Runs s fn 5 m → Goes (.readHarvestMap fn) s (answers (harvestMap s ++
      [(0x200, leBytes 2 173), (0x208, named ++ Ed448.sign ((List.range 57).map Config.makerSeed) (digest 64 named))]))) ∧
    (Runs s fn 6 m →
      let consume := m.arg 0x12 1 % 2 = 1
      (m.arg 0x10 1 = 0 → Goes (.readEventRing fn) s fun u => answers (readResponse m (takeRecs s.ring m 124)) u ∧
        u.ring = if consume then without s.ring (takeRecs s.ring m 124) else s.ring) ∧
      (3 < m.arg 0x10 1 → Goes (.readEventRing fn) s fun u => ended u fn m 3 ∧ u.ring = s.ring) ∧
      (m.arg 0x10 1 = 1 → Goes (.readEcallLog fn) s (answers (readResponse m ((takeRecs (s.ecallLog.getD fn []) m 124).map fun (e : Nat × LogE) => (e.1, logRecord e.2))))) ∧
      (m.arg 0x10 1 = 2 → m.arg 0x11 1 < 8 → Goes (.readSampleBuffer fn) s (answers (readResponse m (takeRecs (s.samples.getD (m.arg 0x11 1) []) m 62)))) ∧
      (m.arg 0x10 1 = 3 → m.arg 0x20 2 ≤ 535 → Goes (.readEnergyBanks fn) s (answers [(0x40, leBytes 4 257), (0x48, leBytes 8 257),
        (0x80, (List.range 257).flatMap fun i => leBytes 8 (s.banks.getD (m.arg 0x20 2 * 257 + i) 0))]))) ∧
    (Runs s fn 7 m → Goes (.attest fn) s fun u => ended u fn m 2 ∧ (m.spoilt = false → (u.mbox fn).pay 0x40 32 = m.pay 0x40 32) ∧
      u.nonce = if fn = 16 then some (m.pay 0x40 32) else s.nonce) ∧
    (∀ code, Runs s fn code m → code = 0 ∨ 0x0B < code → Goes (.unassignedCommand fn) s fun u => ended u fn m 3 ∧ u.mem = s.mem ∧
      (u.mbox fn).payload = m.payload)

/-- WRITE_FIRMWARE_IMAGE, SET_POWER_LIMIT, FREEZE, RESET_CORE_DIE (R402, R407 to R409, R411): the commands of the physical function, which end DENIED on
any other (R406); a power limit changes every die's allotment (R30).
SHAKE256 and Ed448 are FIPS 202's and RFC 8032's, and the keys of the package opaque constants (log 9); what a frozen package does is a reading
(log 62), and that command 0x0B runs in two steps the model's choice (log 52). -/
def Obligations.PhysicalCommands : Prop :=
  ∀ (s : State) (fn : Nat) (m : Mbox),
    (Runs s 16 8 m → m.arg 0x10 4 % 8 = 0 → 1 ≤ m.arg 0x14 2 → m.arg 0x14 2 ≤ 4032 → m.arg 0x10 4 + m.arg 0x14 2 ≤ 2 ^ 25 →
      Goes (.writeFirmwareImage 16) s fun u => ended u 16 m 2 ∧ u.mem = s.mem ∧
        u.flash = cellsSet (if m.arg 0x16 1 % 2 = 1 then [] else s.flash) (m.arg 0x10 4) (m.pay 0x40 (m.arg 0x14 2)) ∧
        u.committed = decide (m.arg 0x16 1 / 2 % 2 = 1) ∧
        u.boot = if s.boot = .recovery ∧ m.arg 0x16 1 / 2 % 2 = 1 ∧ imageOk u = true then .loading else s.boot) ∧
    (Runs s 16 9 m → 1500 ≤ m.arg 0x10 2 → m.arg 0x10 2 ≤ 4200 → Goes (.setPowerLimit 16) s fun u => ended u 16 m 2 ∧ u.powerLim = m.arg 0x10 2 ∧
      (∀ d < 8, (u.die d).newAllot = some (max 1 (min 16 ((m.arg 0x10 2 - s.fixedW) / 144)))) ∧
      (m.spoilt = false → (u.mbox 16).pay 0x40 1 = [byteOf (max 1 (min 16 ((m.arg 0x10 2 - s.fixedW) / 144)))])) ∧
    (Runs s 16 9 m → m.arg 0x10 2 < 1500 ∨ 4200 < m.arg 0x10 2 → Goes (.setPowerLimit 16) s fun u => ended u 16 m 3 ∧ u.powerLim = s.powerLim) ∧
    (Runs s 16 0x0A m → m.pay 0x40 2 = pkgBytes.take 2 → s.nonce = some (m.pay 0x48 32) →
      m.pay 0x68 64 = digest 64 devicePub →
      let ok := Ed448.verify ((List.range 57).map Config.debugKey) (digest 64 (m.pay 0x40 104)) (m.pay 0xA8 114)
      Goes (.freeze 16) s fun u => ended u 16 m (if ok then 2 else 3) ∧ u.frozen = (ok || s.frozen) ∧ u.nonce = (if ok then none else s.nonce) ∧ u.mem = s.mem) ∧
    (Runs s 16 0x0A m → s.nonce ≠ some (m.pay 0x48 32) → Goes (.freeze 16) s fun u => ended u 16 m 3 ∧ u.frozen = s.frozen) ∧
    (Runs s 16 0x0B m → m.arg 0x10 1 < 8 →
      (m.begun = false → ((s.setMbox 16 { m with begun := true }).resetDie (m.arg 0x10 1)).stuck = none → Goes (.resetCoreDie 16) s fun u =>
        (u.die (m.arg 0x10 1)).inReset = true ∧ u.mbox 16 = { m with begun := true } ∧
        (noStopRecords s → u.mem = s.mem)) ∧
      (m.begun = true → (s.die (m.arg 0x10 1)).inReset = false → Goes (.resetCoreDie 16) s fun u => ended u 16 m 2)) ∧
    (fn ≠ 16 → (Runs s fn 8 m → Goes (.writeFirmwareImage fn) s fun u => ended u fn m 4 ∧ u.flash = s.flash) ∧
      (Runs s fn 9 m → Goes (.setPowerLimit fn) s fun u => ended u fn m 4 ∧ u.powerLim = s.powerLim) ∧
      (Runs s fn 0x0A m → Goes (.freeze fn) s fun u => ended u fn m 4 ∧ u.frozen = s.frozen) ∧
      (Runs s fn 0x0B m → Goes (.resetCoreDie fn) s fun u => ended u fn m 4 ∧ u.dies = s.dies))

/-! ## Slots, steps and safe states -/

/-- A slot before its instruction (R73, R74, R80): a failed guard skips it; an empty source blocks the thread or, with policy 1
in a running context, raises EMPTYREG, whose EINFO names the operand and the field; the zero register discards a result. -/
def Obligations.SlotChecks : Prop :=
  (∀ q a b, Computes (.iadd q .zero a b 0) fun _ m => m.t) ∧
  (∀ (i : Instr) (q : Ctl) (d a b : Opd) (imm : BitVec 16) (sz : BitVec 3) (sat lease : BitVec 2) (x : Bool) (code : Byte) (s : State) (ig : IGroup) (m : Self),
    i = .iadd q d a b sat ∨ i = .ld q d a imm sz lease x ∨ i = .st q d a imm sz x ∨ i = .trap q code ∨ i = .exit q →
    SlotOf s ig → ig.members = [m.k] → s.self m.k = some m → m.t.st ≠ .exited → m.t.deferred = [] → m.t.guardOk i.ctl = false →
    Goes i s fun t => Moved (s.updThread m.k fun t => { t with waitDone := false }) t ig m) ∧
  ∀ (q : Ctl) (d a b : Opd) (r r' : Fin 192) (sat : BitVec 2) (s : State) (ig : IGroup) (m : Self),
    let stops (info : W32) (t : State) : Prop := (∀ c, s.contexts.find m.g.ctx = some c → c.st = .running) →
      t.threads.find m.k = some { m.t with epc := ig.pc, einfo := info, pc := ig.pc, walkFault := none, st := .stopped (if m.t.handler.isSome then 3 else 0) none }
    SlotOf s ig → ig.members = [m.k] → s.self m.k = some m → m.t.st ≠ .exited → m.t.deferred = [] → m.t.guardOk q = true →
    (m.t.empty.contains r.val → q.fa = false → (q.fb = false ∨ m.t.firstEmpty b 1 = none) →
      Goes (.iadd q d (.g r) b sat) s fun t => Waits s t ig m ⟨waitReg, 0, r.val⟩) ∧
    (m.t.firstEmpty a 1 = none → m.t.empty.contains r.val → q.fb = false →
      Goes (.iadd q d a (.g r) sat) s fun t => Waits s t ig m ⟨waitReg, 0, r.val⟩) ∧
    (m.t.firstEmpty a 1 = none → m.t.firstEmpty b 1 = none → m.t.empty.contains r.val →
      Goes (.iadd q (.g r) a b sat) s fun t => Waits s t ig m ⟨waitReg, 0, r.val⟩) ∧
    (m.t.empty.contains r.val → q.fa = true → m.l.trapTab = 0 →
      Goes (.iadd q d (.g r) b sat) s (stops (BitVec.ofNat 32 r.val))) ∧
    (m.t.firstEmpty a 1 = none ∨ q.fa = false → m.t.empty.contains r'.val → q.fb = true → m.l.trapTab = 0 →
      Goes (.iadd q d a (.g r') sat) s (stops (BitVec.ofNat 32 (r'.val + 256))))

/-- ILLOP and MISALIGN (R77, R207, R365, R367, R370): RTH outside a handler, a special register past those that R77 lists, and a misaligned
access stop the thread at its slot, and a running context begins to halt; an atomic with release is checked once its fence is met (R214).
SZ of a misaligned access is a reading (log 20). -/
def Obligations.FaultsStopThreads : Prop :=
  ∀ (q : Ctl) (d a b c : Opd) (reg : Byte) (imm : BitVec 16) (sz : BitVec 3) (lease ord : BitVec 2) (fn : BitVec 4) (x w64 : Bool) (s : State) (ig : IGroup)
    (m : Self) (ctx : Context), s.contexts.find m.g.ctx = some ctx → ctx.st = .running →
    let stops (info : W32) (t : State) : Prop := (t.contexts.find m.g.ctx).map (fun c => (c.st, c.lineUp)) = some (.halting false, true) ∧
      t.threads.find m.k = some { m.t with epc := ig.pc, einfo := info, pc := ig.pc, walkFault := none, st := .stopped (if m.t.handler.isSome then 3 else 0) none }
    let off (va : W64) (kind size : Nat) : Prop := ∃ leaf pa s1, s.translate m va kind = (.hit leaf pa, s1) ∧ s1.stuck = none ∧ va.toNat % size ≠ 0
    let ill (op : Nat) : W32 := BitVec.ofNat 32 (op + 256 * ig.slot)
    (Alone (.rth q) s ig m → m.t.handler = none → Goes (.rth q) s (stops (ill 0xF1))) ∧
    (Alone (.sread q d reg) s ig m → 0x1B < reg.toNat → Goes (.sread q d reg) s (stops (ill 0xF2))) ∧
    (Alone (.swrite q reg a) s ig m → 0x1B < reg.toNat → Goes (.swrite q reg a) s (stops (ill 0xF3))) ∧
    (Alone (.ld q d a imm sz lease x) s ig m → off (s.src64 m a + imm.signExtend 64) kindLoad (szBytes sz) →
      Goes (.ld q d a imm sz lease x) s (stops (BitVec.ofNat 32 (8 * sz.toNat)))) ∧
    (Alone (.st q d a imm sz x) s ig m → off (s.src64 m a + imm.signExtend 64) kindStore (szBytes sz) →
      Goes (.st q d a imm sz x) s (stops (BitVec.ofNat 32 (1 + 8 * sz.toNat)))) ∧
    (Alone (.atom q d a b fn w64 ord) s ig m → ord.getLsbD 1 = false ∨ s.fenceOk m.k m.g.die 2 2 = true → off (s.src64 m a) kindAtomic (if w64 then 8 else 4) →
      Goes (.atom q d a b fn w64 ord) s (stops (BitVec.ofNat 32 (2 + 8 * 7)))) ∧
    (Alone (.acas q d a b c w64 ord) s ig m → ord.getLsbD 1 = false ∨ s.fenceOk m.k m.g.die 2 2 = true → off (s.src64 m a) kindAtomic (if w64 then 8 else 4) →
      Goes (.acas q d a b c w64 ord) s (stops (BitVec.ofNat 32 (2 + 8 * 7))))

/-- A step runs the decoded instruction (R66, R69, R71): the next slot of an issue group is fetched, and a word that decodes to an
instruction that the clause allows is executed with that group in hand; any other raises ILLOP. A group whose slot asks a convergence
register comes after those of lower lanes in the same clk (R244, log 74). A turn of the agenda for another
agent executes its transition. A frozen package takes no turn but its reset (R402). That the agenda says who moves, and that the first issue
group moves when it is empty, is the model's choice (log 1). -/
def Obligations.StepRunsDecoded : Prop :=
  ∀ (s : State) (i : Instr) (rest : List Turn) (id : Nat),
    (s.frozen = false → s.agenda = .act i :: rest → step s = exec i { s with agenda := rest }) ∧
    (∀ classes spares, s.agenda = .act (.powerOn classes spares) :: rest → step s = exec (.powerOn classes spares) { s with agenda := rest }) ∧
    (s.frozen = true → (∀ classes spares, i ≠ .powerOn classes spares) → s.agenda = .act i :: rest → step s = finish { s with agenda := rest }) ∧
    ∀ (ig e : IGroup) (k : Nat) (ks : List Nat) (m : Self) (w : W64) (s1 : State) (others : Tbl IGroup), s.frozen = false →
      (s.agenda = .slot id :: rest) ∨ (s.agenda = [] ∧ rest = [] ∧ s.igroups = (id, e) :: others) →
      s.igroups.find id = some ig → ig.members = k :: ks → s.self k = some m →
      let c := s.core ig.die ig.core
      let s0 := { s with agenda := rest }.setCore ig.die ig.core { c with issuedNow := if c.issuedNow.contains ig.launch then c.issuedNow else ig.launch :: c.issuedNow }
      s0.slotWord m.site m.l ig = (.word w, none, s1) →
      let allowed (i : Instr) : Bool := codeOk ig m.l (s1.classOf ig.die ig.core) i
      let co := s1.core ig.die ig.core
      let low := (groupLanes s ig).min?
      (decodeWord w = .ok i → allowed i = true → asksCv i = false → step s = exec i { s1 with focus := id, word := w }) ∧
      (decodeWord w = .ok i → allowed i = true → asksCv i = true → (∀ l x, co.cvLane = some l → low = some x → l ≤ x) →
        step s = exec i ({ s1 with focus := id, word := w }.setCore ig.die ig.core { co with cvLane := low })) ∧
      ((∀ i, decodeWord w = .ok i → allowed i = false) →
        step s = finish (s1.slotFault id ig w .illop (BitVec.ofNat 32 ((w.extractLsb' 56 8).toNat + 256 * ig.slot)) 0))

/-- Words written out from the spec's encodings (R72, R73, R83 and the table of opcodes) decode to their instructions: MOV, MOV with a guard
and a policy, IADD, NOP, EXIT, IDIV, LD; an unassigned opcode and a header word are refused by name. -/
def Obligations.WordsDecode : Prop :=
  let q : Ctl := ⟨15, 15, false, false, false, false, false, 0, false⟩
  decodeWord 0x01FF01017FFFC000 = .ok (.mov q (.g 4) (.g 5) false) ∧
  decodeWord 0x013541017FFFC020 = .ok (.mov { q with g1 := 3, g2 := 5, n2 := true, fa := true } (.g 4) (.g 5) false) ∧
  decodeWord 0x04FF010141BFC000 = .ok (.iadd q (.g 4) (.g 5) (.g 6) 0) ∧
  decodeWord 0x00FF3FFFFFFFC000 = .ok (.nop q) ∧
  decodeWord 0x65FF3FFFFFFFC000 = .ok (.exit q) ∧
  decodeWord 0x0BFF010141BFC000 = .ok (.idiv q (.g 4) (.g 5) (.g 6) false) ∧
  decodeWord 0x80FF010200100500 = .ok (.ld q (.g 4) (.g 8) 0x40 4 2 false) ∧
  decodeWord 0xFFFF010141BFC000 = .error .reservedOp ∧
  decodeWord 0xF9FF010141BFC000 = .error .headerOp

/-- Decoding an encoded well-formed instruction gives it back. -/
def Obligations.EncodingsDecode : Prop :=
  ∀ i, wellFormed i = true → ∀ w, encode i = some w → decodeWord w = .ok i

/-- A word has one reading: the instruction that it decodes to is well formed and is encoded as that word. -/
def Obligations.WordsReadOneWay : Prop :=
  ∀ w i, decodeWord w = .ok i → encode i = some w ∧ wellFormed i = true

/-- The state after reset (R191, R293, R388, R409): the machine has met nothing that does not exist, and every memory is in canonical form; the boot
ROM is still checking; no thread, group, launch, queue or context exists; die time, clk and hclk are 0; every die's ring has twelve
tokens. hclk 0 and the empty memories are the model's choice (logs 5, 6), since the spec gives none. -/
def Obligations.ResetState : Prop :=
  State.reset.Safe ∧ State.reset.boot = .romcheck ∧ State.reset.frozen = false ∧ State.reset.threads = [] ∧ State.reset.groups = [] ∧
  State.reset.launches = [] ∧ State.reset.queues = [] ∧ State.reset.contexts = [] ∧ State.reset.hclk = 0 ∧
  (∀ d, State.reset.now d = 0 ∧ (State.reset.die d).allot = 12 ∧ (State.reset.die d).free = List.range 12) ∧ (∀ d c, State.reset.clk d c = 0) ∧
  (∀ n, (State.reset.link n).st = .down) ∧ (State.reset.mbox 16).status = 1 ∧ ∀ d a, State.reset.memRead d a 1 = [0]

/-- Every step from a safe state leaves a safe state: every memory keeps its canonical form, and nothing that does not exist has been met.
The form of memory, and the fault of the model, are the model's choices (logs 6, 10). -/
def Obligations.StepKeepsSafe : Prop :=
  ∀ s t, s.Safe → step s = .next t → t.Safe
end

