-- ==== Sys2Proof/Laws/Mem.lean ====
section
/-! SUPPORT. Lists of cells: what a byte reads as after a write, and that every operation keeps the canonical form. -/

set_option Elab.async false

namespace Sys2Proof.Machine

open Host (Cell)

/-- The bound below which a canonical list has no address. -/
def Memory.above (n : Nat) (m : List Cell) : Prop := ∀ c ∈ m, n ≤ c.1

theorem Memory.wf_cons (k : Nat) (v : Byte) (m : List Cell) :
    Memory.wf ((k, v) :: m) = true ↔ v ≠ 0 ∧ Memory.above (k + 1) m ∧ Memory.wf m = true := by
  induction m generalizing k v with
  | nil => simp [Memory.wf, Memory.above]
  | cons e m ih =>
    obtain ⟨k', v'⟩ := e
    simp only [Memory.wf, Bool.and_eq_true, bne_iff_ne, ne_eq, decide_eq_true_eq]
    constructor
    · rintro ⟨⟨hv, hk⟩, hw⟩
      refine ⟨hv, ?_, hw⟩
      intro c hc
      rcases List.mem_cons.1 hc with rfl | hc
      · exact hk
      · have := ((ih k' v').1 hw).2.1 c hc
        omega
    · rintro ⟨hv, ha, hw⟩
      exact ⟨⟨hv, ha (k', v') (List.mem_cons_self ..)⟩, hw⟩

theorem cellSet_above {n a : Nat} (x : Byte) {m : List Cell} (h : Memory.above n m) (ha : n ≤ a) : Memory.above n (cellSet m a x) := by
  induction m with
  | nil =>
    simp only [cellSet]
    split
    · intro c hc; cases hc
    · intro c hc; simp only [List.mem_singleton] at hc; subst hc; exact ha
  | cons e m ih =>
    obtain ⟨k, v⟩ := e
    have hm : Memory.above n m := fun c hc => h c (List.mem_cons_of_mem _ hc)
    have hk : n ≤ k := h (k, v) (List.mem_cons_self ..)
    simp only [cellSet]
    split
    · split
      · exact h
      · intro c hc
        rcases List.mem_cons.1 hc with rfl | hc
        · exact ha
        · exact h c hc
    · split
      · split
        · exact hm
        · intro c hc
          rcases List.mem_cons.1 hc with rfl | hc
          · exact ha
          · exact hm c hc
      · intro c hc
        rcases List.mem_cons.1 hc with rfl | hc
        · exact hk
        · exact ih hm c hc

/-- Writing a byte keeps the canonical form. -/
theorem cellSet_wf (m : List Cell) (a : Nat) (x : Byte) (h : Memory.wf m = true) : Memory.wf (cellSet m a x) = true := by
  induction m with
  | nil =>
    simp only [cellSet]
    split
    · rfl
    · simpa [Memory.wf] using ‹¬ x = 0›
  | cons e m ih =>
    obtain ⟨k, v⟩ := e
    obtain ⟨hv, ha, hw⟩ := (Memory.wf_cons k v m).1 h
    simp only [cellSet]
    split
    · split
      · exact h
      · refine (Memory.wf_cons a x _).2 ⟨‹_›, ?_, h⟩
        intro c hc
        rcases List.mem_cons.1 hc with rfl | hc
        · exact ‹a < _›
        · have := ha c hc; omega
    · split
      · split
        · exact hw
        · subst ‹a = k›
          exact (Memory.wf_cons a x m).2 ⟨‹_›, ha, hw⟩
      · refine (Memory.wf_cons k v _).2 ⟨hv, ?_, ih hw⟩
        exact cellSet_above x ha (by omega)

/-- Writing bytes keeps the canonical form. -/
theorem cellsSet_wf (m : List Cell) (a : Nat) (bs : List Byte) (h : Memory.wf m = true) : Memory.wf (cellsSet m a bs) = true := by
  induction bs generalizing m a with
  | nil => exact h
  | cons b bs ih => exact ih _ _ (cellSet_wf m a b h)

/-- Keeping some of the cells keeps the canonical form. -/
theorem filter_wf (m : List Cell) (p : Cell → Bool) (h : Memory.wf m = true) : Memory.wf (m.filter p) = true := by
  induction m with
  | nil => rfl
  | cons e m ih =>
    obtain ⟨k, v⟩ := e
    obtain ⟨hv, ha, hw⟩ := (Memory.wf_cons k v m).1 h
    simp only [List.filter_cons]
    split
    · exact (Memory.wf_cons k v _).2 ⟨hv, fun c hc => ha c (List.mem_filter.1 hc).1, ih hw⟩
    · exact ih hw

/-- Dropping a range keeps the canonical form. -/
theorem cellsClear_wf (m : List Cell) (a n : Nat) (h : Memory.wf m = true) : Memory.wf (cellsClear m a n) = true :=
  filter_wf m _ h

/-- The byte at the address written reads as what was written, in a canonical list. -/
theorem cellGet_above {n a : Nat} {m : List Cell} (h : Memory.above n m) (ha : a < n) : cellGet m a = 0 := by
  induction m with
  | nil => rfl
  | cons e m ih =>
    obtain ⟨k, v⟩ := e
    have hk : n ≤ k := h (k, v) (List.mem_cons_self ..)
    simp only [cellGet]
    rw [if_neg (by omega)]
    exact ih fun c hc => h c (List.mem_cons_of_mem _ hc)

/-- Read after write (R4): the byte written, and every other byte as before. -/
theorem cellGet_set (m : List Cell) (a b : Nat) (x : Byte) (h : Memory.wf m = true) :
    cellGet (cellSet m a x) b = if b = a then x else cellGet m b := by
  induction m with
  | nil =>
    simp only [cellSet]
    split
    · next hx => simp [cellGet, hx]
    · simp [cellGet]
  | cons e m ih =>
    obtain ⟨k, v⟩ := e
    obtain ⟨hv, ha, hw⟩ := (Memory.wf_cons k v m).1 h
    simp only [cellSet]
    split
    · next hak =>
      split
      · next hx =>
        split
        · next hb =>
          subst hb hx
          have : b ≠ k := by omega
          simp only [cellGet, if_neg this]
          exact cellGet_above ha (by omega)
        · rfl
      · rfl
    · split
      · next hak =>
        subst hak
        split
        · next hx =>
          split
          · next hb => subst hb hx; exact cellGet_above ha (by omega)
          · next hb => simp [cellGet, hb]
        · simp only [cellGet]; split <;> rfl
      · next hak =>
        simp only [cellGet, ih hw]
        by_cases hb : b = k
        · have : b ≠ a := by omega
          simp [hb, Ne.symm (by omega : a ≠ k)]
        · simp [hb]

/-- Writing a run of bytes leaves every byte outside it as it was. -/
theorem cellGet_cellsSet_out (m : List Cell) (a b : Nat) (bs : List Byte) (h : Memory.wf m = true) (hb : b < a ∨ a + bs.length ≤ b) :
    cellGet (cellsSet m a bs) b = cellGet m b := by
  induction bs generalizing m a with
  | nil => rfl
  | cons x bs ih =>
    simp only [List.length_cons] at hb
    rw [cellsSet, ih _ _ (cellSet_wf m a x h) (by omega), cellGet_set m a b x h, if_neg (by omega)]

/-- Reading back a run of bytes that was written. -/
theorem cellsGet_cellsSet (m : List Cell) (a : Nat) (bs : List Byte) (h : Memory.wf m = true) :
    cellsGet (cellsSet m a bs) a bs.length = bs := by
  induction bs generalizing m a with
  | nil => rfl
  | cons x bs ih =>
    have hx : cellGet (cellsSet (cellSet m a x) (a + 1) bs) a = x := by
      rw [cellGet_cellsSet_out _ _ _ _ (cellSet_wf m a x h) (by omega), cellGet_set m a a x h, if_pos rfl]
    simp only [cellsSet, List.length_cons, cellsGet, hx, ih _ _ (cellSet_wf m a x h)]

end Sys2Proof.Machine
end

