-- ==== Sys2Proof/Laws/State.lean ====
section
/-! SUPPORT. What each update of a named part of the state leaves: one lemma for each field and update. -/

set_option Elab.async false

namespace Sys2Proof.Machine.State

variable (s : State)

@[simp] theorem memWrite_boot (d a : Nat) (bs : List Byte) : (s.memWrite d a bs).boot = s.boot := rfl
@[simp] theorem memWrite_frozen (d a : Nat) (bs : List Byte) : (s.memWrite d a bs).frozen = s.frozen := rfl
@[simp] theorem memWrite_flash (d a : Nat) (bs : List Byte) : (s.memWrite d a bs).flash = s.flash := rfl
@[simp] theorem memWrite_committed (d a : Nat) (bs : List Byte) : (s.memWrite d a bs).committed = s.committed := rfl
@[simp] theorem memWrite_image (d a : Nat) (bs : List Byte) : (s.memWrite d a bs).image = s.image := rfl
@[simp] theorem memWrite_powerLim (d a : Nat) (bs : List Byte) : (s.memWrite d a bs).powerLim = s.powerLim := rfl
@[simp] theorem memWrite_fixedW (d a : Nat) (bs : List Byte) : (s.memWrite d a bs).fixedW = s.fixedW := rfl
@[simp] theorem memWrite_hubMhz (d a : Nat) (bs : List Byte) : (s.memWrite d a bs).hubMhz = s.hubMhz := rfl
@[simp] theorem memWrite_hubMv (d a : Nat) (bs : List Byte) : (s.memWrite d a bs).hubMv = s.hubMv := rfl
@[simp] theorem memWrite_hclk (d a : Nat) (bs : List Byte) : (s.memWrite d a bs).hclk = s.hclk := rfl
@[simp] theorem memWrite_classes (d a : Nat) (bs : List Byte) : (s.memWrite d a bs).classes = s.classes := rfl
@[simp] theorem memWrite_spares (d a : Nat) (bs : List Byte) : (s.memWrite d a bs).spares = s.spares := rfl
@[simp] theorem memWrite_dies (d a : Nat) (bs : List Byte) : (s.memWrite d a bs).dies = s.dies := rfl
@[simp] theorem memWrite_cores (d a : Nat) (bs : List Byte) : (s.memWrite d a bs).cores = s.cores := rfl
@[simp] theorem memWrite_mem (d a : Nat) (bs : List Byte) : (s.memWrite d a bs).mem = cellsSet s.mem (memAddr d a) bs := rfl
@[simp] theorem memWrite_leases (d a : Nat) (bs : List Byte) : (s.memWrite d a bs).leases = s.leases := rfl
@[simp] theorem memWrite_holders (d a : Nat) (bs : List Byte) : (s.memWrite d a bs).holders = s.holders := rfl
@[simp] theorem memWrite_hreqs (d a : Nat) (bs : List Byte) : (s.memWrite d a bs).hreqs = s.hreqs := rfl
@[simp] theorem memWrite_pwrites (d a : Nat) (bs : List Byte) : (s.memWrite d a bs).pwrites = s.pwrites := rfl
@[simp] theorem memWrite_wbacks (d a : Nat) (bs : List Byte) : (s.memWrite d a bs).wbacks = s.wbacks := rfl
@[simp] theorem memWrite_pushes (d a : Nat) (bs : List Byte) : (s.memWrite d a bs).pushes = s.pushes := rfl
@[simp] theorem memWrite_asked (d a : Nat) (bs : List Byte) : (s.memWrite d a bs).asked = s.asked := rfl
@[simp] theorem memWrite_nc (d a : Nat) (bs : List Byte) : (s.memWrite d a bs).nc = s.nc := rfl
@[simp] theorem memWrite_partials (d a : Nat) (bs : List Byte) : (s.memWrite d a bs).partials = s.partials := rfl
@[simp] theorem memWrite_nearTlb (d a : Nat) (bs : List Byte) : (s.memWrite d a bs).nearTlb = s.nearTlb := rfl
@[simp] theorem memWrite_dieTlb (d a : Nat) (bs : List Byte) : (s.memWrite d a bs).dieTlb = s.dieTlb := rfl
@[simp] theorem memWrite_walkCache (d a : Nat) (bs : List Byte) : (s.memWrite d a bs).walkCache = s.walkCache := rfl
@[simp] theorem memWrite_modes (d a : Nat) (bs : List Byte) : (s.memWrite d a bs).modes = s.modes := rfl
@[simp] theorem memWrite_walks (d a : Nat) (bs : List Byte) : (s.memWrite d a bs).walks = s.walks := rfl
@[simp] theorem memWrite_threads (d a : Nat) (bs : List Byte) : (s.memWrite d a bs).threads = s.threads := rfl
@[simp] theorem memWrite_warps (d a : Nat) (bs : List Byte) : (s.memWrite d a bs).warps = s.warps := rfl
@[simp] theorem memWrite_groups (d a : Nat) (bs : List Byte) : (s.memWrite d a bs).groups = s.groups := rfl
@[simp] theorem memWrite_igroups (d a : Nat) (bs : List Byte) : (s.memWrite d a bs).igroups = s.igroups := rfl
@[simp] theorem memWrite_prods (d a : Nat) (bs : List Byte) : (s.memWrite d a bs).prods = s.prods := rfl
@[simp] theorem memWrite_monitors (d a : Nat) (bs : List Byte) : (s.memWrite d a bs).monitors = s.monitors := rfl
@[simp] theorem memWrite_watches (d a : Nat) (bs : List Byte) : (s.memWrite d a bs).watches = s.watches := rfl
@[simp] theorem memWrite_tiles (d a : Nat) (bs : List Byte) : (s.memWrite d a bs).tiles = s.tiles := rfl
@[simp] theorem memWrite_engOps (d a : Nat) (bs : List Byte) : (s.memWrite d a bs).engOps = s.engOps := rfl
@[simp] theorem memWrite_mops (d a : Nat) (bs : List Byte) : (s.memWrite d a bs).mops = s.mops := rfl
@[simp] theorem memWrite_quOps (d a : Nat) (bs : List Byte) : (s.memWrite d a bs).quOps = s.quOps := rfl
@[simp] theorem memWrite_window (d a : Nat) (bs : List Byte) : (s.memWrite d a bs).window = s.window := rfl
@[simp] theorem memWrite_queues (d a : Nat) (bs : List Byte) : (s.memWrite d a bs).queues = s.queues := rfl
@[simp] theorem memWrite_qreqs (d a : Nat) (bs : List Byte) : (s.memWrite d a bs).qreqs = s.qreqs := rfl
@[simp] theorem memWrite_cancelled (d a : Nat) (bs : List Byte) : (s.memWrite d a bs).cancelled = s.cancelled := rfl
@[simp] theorem memWrite_answers (d a : Nat) (bs : List Byte) : (s.memWrite d a bs).answers = s.answers := rfl
@[simp] theorem memWrite_qidCache (d a : Nat) (bs : List Byte) : (s.memWrite d a bs).qidCache = s.qidCache := rfl
@[simp] theorem memWrite_announced (d a : Nat) (bs : List Byte) : (s.memWrite d a bs).announced = s.announced := rfl
@[simp] theorem memWrite_launchQs (d a : Nat) (bs : List Byte) : (s.memWrite d a bs).launchQs = s.launchQs := rfl
@[simp] theorem memWrite_launches (d a : Nat) (bs : List Byte) : (s.memWrite d a bs).launches = s.launches := rfl
@[simp] theorem memWrite_contexts (d a : Nat) (bs : List Byte) : (s.memWrite d a bs).contexts = s.contexts := rfl
@[simp] theorem memWrite_signals (d a : Nat) (bs : List Byte) : (s.memWrite d a bs).signals = s.signals := rfl
@[simp] theorem memWrite_sigTop (d a : Nat) (bs : List Byte) : (s.memWrite d a bs).sigTop = s.sigTop := rfl
@[simp] theorem memWrite_sigQueue (d a : Nat) (bs : List Byte) : (s.memWrite d a bs).sigQueue = s.sigQueue := rfl
@[simp] theorem memWrite_callQueue (d a : Nat) (bs : List Byte) : (s.memWrite d a bs).callQueue = s.callQueue := rfl
@[simp] theorem memWrite_eanswers (d a : Nat) (bs : List Byte) : (s.memWrite d a bs).eanswers = s.eanswers := rfl
@[simp] theorem memWrite_ecallLog (d a : Nat) (bs : List Byte) : (s.memWrite d a bs).ecallLog = s.ecallLog := rfl
@[simp] theorem memWrite_logNext (d a : Nat) (bs : List Byte) : (s.memWrite d a bs).logNext = s.logNext := rfl
@[simp] theorem memWrite_msix (d a : Nat) (bs : List Byte) : (s.memWrite d a bs).msix = s.msix := rfl
@[simp] theorem memWrite_mailboxes (d a : Nat) (bs : List Byte) : (s.memWrite d a bs).mailboxes = s.mailboxes := rfl
@[simp] theorem memWrite_nonce (d a : Nat) (bs : List Byte) : (s.memWrite d a bs).nonce = s.nonce := rfl
@[simp] theorem memWrite_slices (d a : Nat) (bs : List Byte) : (s.memWrite d a bs).slices = s.slices := rfl
@[simp] theorem memWrite_vfWeights (d a : Nat) (bs : List Byte) : (s.memWrite d a bs).vfWeights = s.vfWeights := rfl
@[simp] theorem memWrite_host (d a : Nat) (bs : List Byte) : (s.memWrite d a bs).host = s.host := rfl
@[simp] theorem memWrite_fnMem (d a : Nat) (bs : List Byte) : (s.memWrite d a bs).fnMem = s.fnMem := rfl
@[simp] theorem memWrite_links (d a : Nat) (bs : List Byte) : (s.memWrite d a bs).links = s.links := rfl
@[simp] theorem memWrite_flows (d a : Nat) (bs : List Byte) : (s.memWrite d a bs).flows = s.flows := rfl
@[simp] theorem memWrite_accepted (d a : Nat) (bs : List Byte) : (s.memWrite d a bs).accepted = s.accepted := rfl
@[simp] theorem memWrite_ring (d a : Nat) (bs : List Byte) : (s.memWrite d a bs).ring = s.ring := rfl
@[simp] theorem memWrite_ringNext (d a : Nat) (bs : List Byte) : (s.memWrite d a bs).ringNext = s.ringNext := rfl
@[simp] theorem memWrite_ringDrops (d a : Nat) (bs : List Byte) : (s.memWrite d a bs).ringDrops = s.ringDrops := rfl
@[simp] theorem memWrite_sampling (d a : Nat) (bs : List Byte) : (s.memWrite d a bs).sampling = s.sampling := rfl
@[simp] theorem memWrite_samples (d a : Nat) (bs : List Byte) : (s.memWrite d a bs).samples = s.samples := rfl
@[simp] theorem memWrite_sampleNext (d a : Nat) (bs : List Byte) : (s.memWrite d a bs).sampleNext = s.sampleNext := rfl
@[simp] theorem memWrite_banks (d a : Nat) (bs : List Byte) : (s.memWrite d a bs).banks = s.banks := rfl
@[simp] theorem memWrite_decisions (d a : Nat) (bs : List Byte) : (s.memWrite d a bs).decisions = s.decisions := rfl
@[simp] theorem memWrite_agenda (d a : Nat) (bs : List Byte) : (s.memWrite d a bs).agenda = s.agenda := rfl
@[simp] theorem memWrite_focus (d a : Nat) (bs : List Byte) : (s.memWrite d a bs).focus = s.focus := rfl
@[simp] theorem memWrite_word (d a : Nat) (bs : List Byte) : (s.memWrite d a bs).word = s.word := rfl
@[simp] theorem memWrite_nextId (d a : Nat) (bs : List Byte) : (s.memWrite d a bs).nextId = s.nextId := rfl
@[simp] theorem memWrite_fresh (d a : Nat) (bs : List Byte) : (s.memWrite d a bs).fresh = s.fresh := rfl
@[simp] theorem memWrite_stuck (d a : Nat) (bs : List Byte) : (s.memWrite d a bs).stuck = s.stuck := rfl

@[simp] theorem setDie_boot (d : Nat) (x : Die) : (s.setDie d x).boot = s.boot := rfl
@[simp] theorem setDie_frozen (d : Nat) (x : Die) : (s.setDie d x).frozen = s.frozen := rfl
@[simp] theorem setDie_flash (d : Nat) (x : Die) : (s.setDie d x).flash = s.flash := rfl
@[simp] theorem setDie_committed (d : Nat) (x : Die) : (s.setDie d x).committed = s.committed := rfl
@[simp] theorem setDie_image (d : Nat) (x : Die) : (s.setDie d x).image = s.image := rfl
@[simp] theorem setDie_powerLim (d : Nat) (x : Die) : (s.setDie d x).powerLim = s.powerLim := rfl
@[simp] theorem setDie_fixedW (d : Nat) (x : Die) : (s.setDie d x).fixedW = s.fixedW := rfl
@[simp] theorem setDie_hubMhz (d : Nat) (x : Die) : (s.setDie d x).hubMhz = s.hubMhz := rfl
@[simp] theorem setDie_hubMv (d : Nat) (x : Die) : (s.setDie d x).hubMv = s.hubMv := rfl
@[simp] theorem setDie_hclk (d : Nat) (x : Die) : (s.setDie d x).hclk = s.hclk := rfl
@[simp] theorem setDie_classes (d : Nat) (x : Die) : (s.setDie d x).classes = s.classes := rfl
@[simp] theorem setDie_spares (d : Nat) (x : Die) : (s.setDie d x).spares = s.spares := rfl
@[simp] theorem setDie_dies (d : Nat) (x : Die) : (s.setDie d x).dies = s.dies.put d x := rfl
@[simp] theorem setDie_cores (d : Nat) (x : Die) : (s.setDie d x).cores = s.cores := rfl
@[simp] theorem setDie_mem (d : Nat) (x : Die) : (s.setDie d x).mem = s.mem := rfl
@[simp] theorem setDie_leases (d : Nat) (x : Die) : (s.setDie d x).leases = s.leases := rfl
@[simp] theorem setDie_holders (d : Nat) (x : Die) : (s.setDie d x).holders = s.holders := rfl
@[simp] theorem setDie_hreqs (d : Nat) (x : Die) : (s.setDie d x).hreqs = s.hreqs := rfl
@[simp] theorem setDie_pwrites (d : Nat) (x : Die) : (s.setDie d x).pwrites = s.pwrites := rfl
@[simp] theorem setDie_wbacks (d : Nat) (x : Die) : (s.setDie d x).wbacks = s.wbacks := rfl
@[simp] theorem setDie_pushes (d : Nat) (x : Die) : (s.setDie d x).pushes = s.pushes := rfl
@[simp] theorem setDie_asked (d : Nat) (x : Die) : (s.setDie d x).asked = s.asked := rfl
@[simp] theorem setDie_nc (d : Nat) (x : Die) : (s.setDie d x).nc = s.nc := rfl
@[simp] theorem setDie_partials (d : Nat) (x : Die) : (s.setDie d x).partials = s.partials := rfl
@[simp] theorem setDie_nearTlb (d : Nat) (x : Die) : (s.setDie d x).nearTlb = s.nearTlb := rfl
@[simp] theorem setDie_dieTlb (d : Nat) (x : Die) : (s.setDie d x).dieTlb = s.dieTlb := rfl
@[simp] theorem setDie_walkCache (d : Nat) (x : Die) : (s.setDie d x).walkCache = s.walkCache := rfl
@[simp] theorem setDie_modes (d : Nat) (x : Die) : (s.setDie d x).modes = s.modes := rfl
@[simp] theorem setDie_walks (d : Nat) (x : Die) : (s.setDie d x).walks = s.walks := rfl
@[simp] theorem setDie_threads (d : Nat) (x : Die) : (s.setDie d x).threads = s.threads := rfl
@[simp] theorem setDie_warps (d : Nat) (x : Die) : (s.setDie d x).warps = s.warps := rfl
@[simp] theorem setDie_groups (d : Nat) (x : Die) : (s.setDie d x).groups = s.groups := rfl
@[simp] theorem setDie_igroups (d : Nat) (x : Die) : (s.setDie d x).igroups = s.igroups := rfl
@[simp] theorem setDie_prods (d : Nat) (x : Die) : (s.setDie d x).prods = s.prods := rfl
@[simp] theorem setDie_monitors (d : Nat) (x : Die) : (s.setDie d x).monitors = s.monitors := rfl
@[simp] theorem setDie_watches (d : Nat) (x : Die) : (s.setDie d x).watches = s.watches := rfl
@[simp] theorem setDie_tiles (d : Nat) (x : Die) : (s.setDie d x).tiles = s.tiles := rfl
@[simp] theorem setDie_engOps (d : Nat) (x : Die) : (s.setDie d x).engOps = s.engOps := rfl
@[simp] theorem setDie_mops (d : Nat) (x : Die) : (s.setDie d x).mops = s.mops := rfl
@[simp] theorem setDie_quOps (d : Nat) (x : Die) : (s.setDie d x).quOps = s.quOps := rfl
@[simp] theorem setDie_window (d : Nat) (x : Die) : (s.setDie d x).window = s.window := rfl
@[simp] theorem setDie_queues (d : Nat) (x : Die) : (s.setDie d x).queues = s.queues := rfl
@[simp] theorem setDie_qreqs (d : Nat) (x : Die) : (s.setDie d x).qreqs = s.qreqs := rfl
@[simp] theorem setDie_cancelled (d : Nat) (x : Die) : (s.setDie d x).cancelled = s.cancelled := rfl
@[simp] theorem setDie_answers (d : Nat) (x : Die) : (s.setDie d x).answers = s.answers := rfl
@[simp] theorem setDie_qidCache (d : Nat) (x : Die) : (s.setDie d x).qidCache = s.qidCache := rfl
@[simp] theorem setDie_announced (d : Nat) (x : Die) : (s.setDie d x).announced = s.announced := rfl
@[simp] theorem setDie_launchQs (d : Nat) (x : Die) : (s.setDie d x).launchQs = s.launchQs := rfl
@[simp] theorem setDie_launches (d : Nat) (x : Die) : (s.setDie d x).launches = s.launches := rfl
@[simp] theorem setDie_contexts (d : Nat) (x : Die) : (s.setDie d x).contexts = s.contexts := rfl
@[simp] theorem setDie_signals (d : Nat) (x : Die) : (s.setDie d x).signals = s.signals := rfl
@[simp] theorem setDie_sigTop (d : Nat) (x : Die) : (s.setDie d x).sigTop = s.sigTop := rfl
@[simp] theorem setDie_sigQueue (d : Nat) (x : Die) : (s.setDie d x).sigQueue = s.sigQueue := rfl
@[simp] theorem setDie_callQueue (d : Nat) (x : Die) : (s.setDie d x).callQueue = s.callQueue := rfl
@[simp] theorem setDie_eanswers (d : Nat) (x : Die) : (s.setDie d x).eanswers = s.eanswers := rfl
@[simp] theorem setDie_ecallLog (d : Nat) (x : Die) : (s.setDie d x).ecallLog = s.ecallLog := rfl
@[simp] theorem setDie_logNext (d : Nat) (x : Die) : (s.setDie d x).logNext = s.logNext := rfl
@[simp] theorem setDie_msix (d : Nat) (x : Die) : (s.setDie d x).msix = s.msix := rfl
@[simp] theorem setDie_mailboxes (d : Nat) (x : Die) : (s.setDie d x).mailboxes = s.mailboxes := rfl
@[simp] theorem setDie_nonce (d : Nat) (x : Die) : (s.setDie d x).nonce = s.nonce := rfl
@[simp] theorem setDie_slices (d : Nat) (x : Die) : (s.setDie d x).slices = s.slices := rfl
@[simp] theorem setDie_vfWeights (d : Nat) (x : Die) : (s.setDie d x).vfWeights = s.vfWeights := rfl
@[simp] theorem setDie_host (d : Nat) (x : Die) : (s.setDie d x).host = s.host := rfl
@[simp] theorem setDie_fnMem (d : Nat) (x : Die) : (s.setDie d x).fnMem = s.fnMem := rfl
@[simp] theorem setDie_links (d : Nat) (x : Die) : (s.setDie d x).links = s.links := rfl
@[simp] theorem setDie_flows (d : Nat) (x : Die) : (s.setDie d x).flows = s.flows := rfl
@[simp] theorem setDie_accepted (d : Nat) (x : Die) : (s.setDie d x).accepted = s.accepted := rfl
@[simp] theorem setDie_ring (d : Nat) (x : Die) : (s.setDie d x).ring = s.ring := rfl
@[simp] theorem setDie_ringNext (d : Nat) (x : Die) : (s.setDie d x).ringNext = s.ringNext := rfl
@[simp] theorem setDie_ringDrops (d : Nat) (x : Die) : (s.setDie d x).ringDrops = s.ringDrops := rfl
@[simp] theorem setDie_sampling (d : Nat) (x : Die) : (s.setDie d x).sampling = s.sampling := rfl
@[simp] theorem setDie_samples (d : Nat) (x : Die) : (s.setDie d x).samples = s.samples := rfl
@[simp] theorem setDie_sampleNext (d : Nat) (x : Die) : (s.setDie d x).sampleNext = s.sampleNext := rfl
@[simp] theorem setDie_banks (d : Nat) (x : Die) : (s.setDie d x).banks = s.banks := rfl
@[simp] theorem setDie_decisions (d : Nat) (x : Die) : (s.setDie d x).decisions = s.decisions := rfl
@[simp] theorem setDie_agenda (d : Nat) (x : Die) : (s.setDie d x).agenda = s.agenda := rfl
@[simp] theorem setDie_focus (d : Nat) (x : Die) : (s.setDie d x).focus = s.focus := rfl
@[simp] theorem setDie_word (d : Nat) (x : Die) : (s.setDie d x).word = s.word := rfl
@[simp] theorem setDie_nextId (d : Nat) (x : Die) : (s.setDie d x).nextId = s.nextId := rfl
@[simp] theorem setDie_fresh (d : Nat) (x : Die) : (s.setDie d x).fresh = s.fresh := rfl
@[simp] theorem setDie_stuck (d : Nat) (x : Die) : (s.setDie d x).stuck = s.stuck := rfl

@[simp] theorem setCore_boot (d c : Nat) (x : Core) : (s.setCore d c x).boot = s.boot := rfl
@[simp] theorem setCore_frozen (d c : Nat) (x : Core) : (s.setCore d c x).frozen = s.frozen := rfl
@[simp] theorem setCore_flash (d c : Nat) (x : Core) : (s.setCore d c x).flash = s.flash := rfl
@[simp] theorem setCore_committed (d c : Nat) (x : Core) : (s.setCore d c x).committed = s.committed := rfl
@[simp] theorem setCore_image (d c : Nat) (x : Core) : (s.setCore d c x).image = s.image := rfl
@[simp] theorem setCore_powerLim (d c : Nat) (x : Core) : (s.setCore d c x).powerLim = s.powerLim := rfl
@[simp] theorem setCore_fixedW (d c : Nat) (x : Core) : (s.setCore d c x).fixedW = s.fixedW := rfl
@[simp] theorem setCore_hubMhz (d c : Nat) (x : Core) : (s.setCore d c x).hubMhz = s.hubMhz := rfl
@[simp] theorem setCore_hubMv (d c : Nat) (x : Core) : (s.setCore d c x).hubMv = s.hubMv := rfl
@[simp] theorem setCore_hclk (d c : Nat) (x : Core) : (s.setCore d c x).hclk = s.hclk := rfl
@[simp] theorem setCore_classes (d c : Nat) (x : Core) : (s.setCore d c x).classes = s.classes := rfl
@[simp] theorem setCore_spares (d c : Nat) (x : Core) : (s.setCore d c x).spares = s.spares := rfl
@[simp] theorem setCore_dies (d c : Nat) (x : Core) : (s.setCore d c x).dies = s.dies := rfl
@[simp] theorem setCore_cores (d c : Nat) (x : Core) : (s.setCore d c x).cores = s.cores.put (coreKey d c) x := rfl
@[simp] theorem setCore_mem (d c : Nat) (x : Core) : (s.setCore d c x).mem = s.mem := rfl
@[simp] theorem setCore_leases (d c : Nat) (x : Core) : (s.setCore d c x).leases = s.leases := rfl
@[simp] theorem setCore_holders (d c : Nat) (x : Core) : (s.setCore d c x).holders = s.holders := rfl
@[simp] theorem setCore_hreqs (d c : Nat) (x : Core) : (s.setCore d c x).hreqs = s.hreqs := rfl
@[simp] theorem setCore_pwrites (d c : Nat) (x : Core) : (s.setCore d c x).pwrites = s.pwrites := rfl
@[simp] theorem setCore_wbacks (d c : Nat) (x : Core) : (s.setCore d c x).wbacks = s.wbacks := rfl
@[simp] theorem setCore_pushes (d c : Nat) (x : Core) : (s.setCore d c x).pushes = s.pushes := rfl
@[simp] theorem setCore_asked (d c : Nat) (x : Core) : (s.setCore d c x).asked = s.asked := rfl
@[simp] theorem setCore_nc (d c : Nat) (x : Core) : (s.setCore d c x).nc = s.nc := rfl
@[simp] theorem setCore_partials (d c : Nat) (x : Core) : (s.setCore d c x).partials = s.partials := rfl
@[simp] theorem setCore_nearTlb (d c : Nat) (x : Core) : (s.setCore d c x).nearTlb = s.nearTlb := rfl
@[simp] theorem setCore_dieTlb (d c : Nat) (x : Core) : (s.setCore d c x).dieTlb = s.dieTlb := rfl
@[simp] theorem setCore_walkCache (d c : Nat) (x : Core) : (s.setCore d c x).walkCache = s.walkCache := rfl
@[simp] theorem setCore_modes (d c : Nat) (x : Core) : (s.setCore d c x).modes = s.modes := rfl
@[simp] theorem setCore_walks (d c : Nat) (x : Core) : (s.setCore d c x).walks = s.walks := rfl
@[simp] theorem setCore_threads (d c : Nat) (x : Core) : (s.setCore d c x).threads = s.threads := rfl
@[simp] theorem setCore_warps (d c : Nat) (x : Core) : (s.setCore d c x).warps = s.warps := rfl
@[simp] theorem setCore_groups (d c : Nat) (x : Core) : (s.setCore d c x).groups = s.groups := rfl
@[simp] theorem setCore_igroups (d c : Nat) (x : Core) : (s.setCore d c x).igroups = s.igroups := rfl
@[simp] theorem setCore_prods (d c : Nat) (x : Core) : (s.setCore d c x).prods = s.prods := rfl
@[simp] theorem setCore_monitors (d c : Nat) (x : Core) : (s.setCore d c x).monitors = s.monitors := rfl
@[simp] theorem setCore_watches (d c : Nat) (x : Core) : (s.setCore d c x).watches = s.watches := rfl
@[simp] theorem setCore_tiles (d c : Nat) (x : Core) : (s.setCore d c x).tiles = s.tiles := rfl
@[simp] theorem setCore_engOps (d c : Nat) (x : Core) : (s.setCore d c x).engOps = s.engOps := rfl
@[simp] theorem setCore_mops (d c : Nat) (x : Core) : (s.setCore d c x).mops = s.mops := rfl
@[simp] theorem setCore_quOps (d c : Nat) (x : Core) : (s.setCore d c x).quOps = s.quOps := rfl
@[simp] theorem setCore_window (d c : Nat) (x : Core) : (s.setCore d c x).window = s.window := rfl
@[simp] theorem setCore_queues (d c : Nat) (x : Core) : (s.setCore d c x).queues = s.queues := rfl
@[simp] theorem setCore_qreqs (d c : Nat) (x : Core) : (s.setCore d c x).qreqs = s.qreqs := rfl
@[simp] theorem setCore_cancelled (d c : Nat) (x : Core) : (s.setCore d c x).cancelled = s.cancelled := rfl
@[simp] theorem setCore_answers (d c : Nat) (x : Core) : (s.setCore d c x).answers = s.answers := rfl
@[simp] theorem setCore_qidCache (d c : Nat) (x : Core) : (s.setCore d c x).qidCache = s.qidCache := rfl
@[simp] theorem setCore_announced (d c : Nat) (x : Core) : (s.setCore d c x).announced = s.announced := rfl
@[simp] theorem setCore_launchQs (d c : Nat) (x : Core) : (s.setCore d c x).launchQs = s.launchQs := rfl
@[simp] theorem setCore_launches (d c : Nat) (x : Core) : (s.setCore d c x).launches = s.launches := rfl
@[simp] theorem setCore_contexts (d c : Nat) (x : Core) : (s.setCore d c x).contexts = s.contexts := rfl
@[simp] theorem setCore_signals (d c : Nat) (x : Core) : (s.setCore d c x).signals = s.signals := rfl
@[simp] theorem setCore_sigTop (d c : Nat) (x : Core) : (s.setCore d c x).sigTop = s.sigTop := rfl
@[simp] theorem setCore_sigQueue (d c : Nat) (x : Core) : (s.setCore d c x).sigQueue = s.sigQueue := rfl
@[simp] theorem setCore_callQueue (d c : Nat) (x : Core) : (s.setCore d c x).callQueue = s.callQueue := rfl
@[simp] theorem setCore_eanswers (d c : Nat) (x : Core) : (s.setCore d c x).eanswers = s.eanswers := rfl
@[simp] theorem setCore_ecallLog (d c : Nat) (x : Core) : (s.setCore d c x).ecallLog = s.ecallLog := rfl
@[simp] theorem setCore_logNext (d c : Nat) (x : Core) : (s.setCore d c x).logNext = s.logNext := rfl
@[simp] theorem setCore_msix (d c : Nat) (x : Core) : (s.setCore d c x).msix = s.msix := rfl
@[simp] theorem setCore_mailboxes (d c : Nat) (x : Core) : (s.setCore d c x).mailboxes = s.mailboxes := rfl
@[simp] theorem setCore_nonce (d c : Nat) (x : Core) : (s.setCore d c x).nonce = s.nonce := rfl
@[simp] theorem setCore_slices (d c : Nat) (x : Core) : (s.setCore d c x).slices = s.slices := rfl
@[simp] theorem setCore_vfWeights (d c : Nat) (x : Core) : (s.setCore d c x).vfWeights = s.vfWeights := rfl
@[simp] theorem setCore_host (d c : Nat) (x : Core) : (s.setCore d c x).host = s.host := rfl
@[simp] theorem setCore_fnMem (d c : Nat) (x : Core) : (s.setCore d c x).fnMem = s.fnMem := rfl
@[simp] theorem setCore_links (d c : Nat) (x : Core) : (s.setCore d c x).links = s.links := rfl
@[simp] theorem setCore_flows (d c : Nat) (x : Core) : (s.setCore d c x).flows = s.flows := rfl
@[simp] theorem setCore_accepted (d c : Nat) (x : Core) : (s.setCore d c x).accepted = s.accepted := rfl
@[simp] theorem setCore_ring (d c : Nat) (x : Core) : (s.setCore d c x).ring = s.ring := rfl
@[simp] theorem setCore_ringNext (d c : Nat) (x : Core) : (s.setCore d c x).ringNext = s.ringNext := rfl
@[simp] theorem setCore_ringDrops (d c : Nat) (x : Core) : (s.setCore d c x).ringDrops = s.ringDrops := rfl
@[simp] theorem setCore_sampling (d c : Nat) (x : Core) : (s.setCore d c x).sampling = s.sampling := rfl
@[simp] theorem setCore_samples (d c : Nat) (x : Core) : (s.setCore d c x).samples = s.samples := rfl
@[simp] theorem setCore_sampleNext (d c : Nat) (x : Core) : (s.setCore d c x).sampleNext = s.sampleNext := rfl
@[simp] theorem setCore_banks (d c : Nat) (x : Core) : (s.setCore d c x).banks = s.banks := rfl
@[simp] theorem setCore_decisions (d c : Nat) (x : Core) : (s.setCore d c x).decisions = s.decisions := rfl
@[simp] theorem setCore_agenda (d c : Nat) (x : Core) : (s.setCore d c x).agenda = s.agenda := rfl
@[simp] theorem setCore_focus (d c : Nat) (x : Core) : (s.setCore d c x).focus = s.focus := rfl
@[simp] theorem setCore_word (d c : Nat) (x : Core) : (s.setCore d c x).word = s.word := rfl
@[simp] theorem setCore_nextId (d c : Nat) (x : Core) : (s.setCore d c x).nextId = s.nextId := rfl
@[simp] theorem setCore_fresh (d c : Nat) (x : Core) : (s.setCore d c x).fresh = s.fresh := rfl
@[simp] theorem setCore_stuck (d c : Nat) (x : Core) : (s.setCore d c x).stuck = s.stuck := rfl

@[simp] theorem setThread_boot (k : Nat) (x : Thread) : (s.setThread k x).boot = s.boot := rfl
@[simp] theorem setThread_frozen (k : Nat) (x : Thread) : (s.setThread k x).frozen = s.frozen := rfl
@[simp] theorem setThread_flash (k : Nat) (x : Thread) : (s.setThread k x).flash = s.flash := rfl
@[simp] theorem setThread_committed (k : Nat) (x : Thread) : (s.setThread k x).committed = s.committed := rfl
@[simp] theorem setThread_image (k : Nat) (x : Thread) : (s.setThread k x).image = s.image := rfl
@[simp] theorem setThread_powerLim (k : Nat) (x : Thread) : (s.setThread k x).powerLim = s.powerLim := rfl
@[simp] theorem setThread_fixedW (k : Nat) (x : Thread) : (s.setThread k x).fixedW = s.fixedW := rfl
@[simp] theorem setThread_hubMhz (k : Nat) (x : Thread) : (s.setThread k x).hubMhz = s.hubMhz := rfl
@[simp] theorem setThread_hubMv (k : Nat) (x : Thread) : (s.setThread k x).hubMv = s.hubMv := rfl
@[simp] theorem setThread_hclk (k : Nat) (x : Thread) : (s.setThread k x).hclk = s.hclk := rfl
@[simp] theorem setThread_classes (k : Nat) (x : Thread) : (s.setThread k x).classes = s.classes := rfl
@[simp] theorem setThread_spares (k : Nat) (x : Thread) : (s.setThread k x).spares = s.spares := rfl
@[simp] theorem setThread_dies (k : Nat) (x : Thread) : (s.setThread k x).dies = s.dies := rfl
@[simp] theorem setThread_cores (k : Nat) (x : Thread) : (s.setThread k x).cores = s.cores := rfl
@[simp] theorem setThread_mem (k : Nat) (x : Thread) : (s.setThread k x).mem = s.mem := rfl
@[simp] theorem setThread_leases (k : Nat) (x : Thread) : (s.setThread k x).leases = s.leases := rfl
@[simp] theorem setThread_holders (k : Nat) (x : Thread) : (s.setThread k x).holders = s.holders := rfl
@[simp] theorem setThread_hreqs (k : Nat) (x : Thread) : (s.setThread k x).hreqs = s.hreqs := rfl
@[simp] theorem setThread_pwrites (k : Nat) (x : Thread) : (s.setThread k x).pwrites = s.pwrites := rfl
@[simp] theorem setThread_wbacks (k : Nat) (x : Thread) : (s.setThread k x).wbacks = s.wbacks := rfl
@[simp] theorem setThread_pushes (k : Nat) (x : Thread) : (s.setThread k x).pushes = s.pushes := rfl
@[simp] theorem setThread_asked (k : Nat) (x : Thread) : (s.setThread k x).asked = s.asked := rfl
@[simp] theorem setThread_nc (k : Nat) (x : Thread) : (s.setThread k x).nc = s.nc := rfl
@[simp] theorem setThread_partials (k : Nat) (x : Thread) : (s.setThread k x).partials = s.partials := rfl
@[simp] theorem setThread_nearTlb (k : Nat) (x : Thread) : (s.setThread k x).nearTlb = s.nearTlb := rfl
@[simp] theorem setThread_dieTlb (k : Nat) (x : Thread) : (s.setThread k x).dieTlb = s.dieTlb := rfl
@[simp] theorem setThread_walkCache (k : Nat) (x : Thread) : (s.setThread k x).walkCache = s.walkCache := rfl
@[simp] theorem setThread_modes (k : Nat) (x : Thread) : (s.setThread k x).modes = s.modes := rfl
@[simp] theorem setThread_walks (k : Nat) (x : Thread) : (s.setThread k x).walks = s.walks := rfl
@[simp] theorem setThread_threads (k : Nat) (x : Thread) : (s.setThread k x).threads = s.threads.put k x := rfl
@[simp] theorem setThread_warps (k : Nat) (x : Thread) : (s.setThread k x).warps = s.warps := rfl
@[simp] theorem setThread_groups (k : Nat) (x : Thread) : (s.setThread k x).groups = s.groups := rfl
@[simp] theorem setThread_igroups (k : Nat) (x : Thread) : (s.setThread k x).igroups = s.igroups := rfl
@[simp] theorem setThread_prods (k : Nat) (x : Thread) : (s.setThread k x).prods = s.prods := rfl
@[simp] theorem setThread_monitors (k : Nat) (x : Thread) : (s.setThread k x).monitors = s.monitors := rfl
@[simp] theorem setThread_watches (k : Nat) (x : Thread) : (s.setThread k x).watches = s.watches := rfl
@[simp] theorem setThread_tiles (k : Nat) (x : Thread) : (s.setThread k x).tiles = s.tiles := rfl
@[simp] theorem setThread_engOps (k : Nat) (x : Thread) : (s.setThread k x).engOps = s.engOps := rfl
@[simp] theorem setThread_mops (k : Nat) (x : Thread) : (s.setThread k x).mops = s.mops := rfl
@[simp] theorem setThread_quOps (k : Nat) (x : Thread) : (s.setThread k x).quOps = s.quOps := rfl
@[simp] theorem setThread_window (k : Nat) (x : Thread) : (s.setThread k x).window = s.window := rfl
@[simp] theorem setThread_queues (k : Nat) (x : Thread) : (s.setThread k x).queues = s.queues := rfl
@[simp] theorem setThread_qreqs (k : Nat) (x : Thread) : (s.setThread k x).qreqs = s.qreqs := rfl
@[simp] theorem setThread_cancelled (k : Nat) (x : Thread) : (s.setThread k x).cancelled = s.cancelled := rfl
@[simp] theorem setThread_answers (k : Nat) (x : Thread) : (s.setThread k x).answers = s.answers := rfl
@[simp] theorem setThread_qidCache (k : Nat) (x : Thread) : (s.setThread k x).qidCache = s.qidCache := rfl
@[simp] theorem setThread_announced (k : Nat) (x : Thread) : (s.setThread k x).announced = s.announced := rfl
@[simp] theorem setThread_launchQs (k : Nat) (x : Thread) : (s.setThread k x).launchQs = s.launchQs := rfl
@[simp] theorem setThread_launches (k : Nat) (x : Thread) : (s.setThread k x).launches = s.launches := rfl
@[simp] theorem setThread_contexts (k : Nat) (x : Thread) : (s.setThread k x).contexts = s.contexts := rfl
@[simp] theorem setThread_signals (k : Nat) (x : Thread) : (s.setThread k x).signals = s.signals := rfl
@[simp] theorem setThread_sigTop (k : Nat) (x : Thread) : (s.setThread k x).sigTop = s.sigTop := rfl
@[simp] theorem setThread_sigQueue (k : Nat) (x : Thread) : (s.setThread k x).sigQueue = s.sigQueue := rfl
@[simp] theorem setThread_callQueue (k : Nat) (x : Thread) : (s.setThread k x).callQueue = s.callQueue := rfl
@[simp] theorem setThread_eanswers (k : Nat) (x : Thread) : (s.setThread k x).eanswers = s.eanswers := rfl
@[simp] theorem setThread_ecallLog (k : Nat) (x : Thread) : (s.setThread k x).ecallLog = s.ecallLog := rfl
@[simp] theorem setThread_logNext (k : Nat) (x : Thread) : (s.setThread k x).logNext = s.logNext := rfl
@[simp] theorem setThread_msix (k : Nat) (x : Thread) : (s.setThread k x).msix = s.msix := rfl
@[simp] theorem setThread_mailboxes (k : Nat) (x : Thread) : (s.setThread k x).mailboxes = s.mailboxes := rfl
@[simp] theorem setThread_nonce (k : Nat) (x : Thread) : (s.setThread k x).nonce = s.nonce := rfl
@[simp] theorem setThread_slices (k : Nat) (x : Thread) : (s.setThread k x).slices = s.slices := rfl
@[simp] theorem setThread_vfWeights (k : Nat) (x : Thread) : (s.setThread k x).vfWeights = s.vfWeights := rfl
@[simp] theorem setThread_host (k : Nat) (x : Thread) : (s.setThread k x).host = s.host := rfl
@[simp] theorem setThread_fnMem (k : Nat) (x : Thread) : (s.setThread k x).fnMem = s.fnMem := rfl
@[simp] theorem setThread_links (k : Nat) (x : Thread) : (s.setThread k x).links = s.links := rfl
@[simp] theorem setThread_flows (k : Nat) (x : Thread) : (s.setThread k x).flows = s.flows := rfl
@[simp] theorem setThread_accepted (k : Nat) (x : Thread) : (s.setThread k x).accepted = s.accepted := rfl
@[simp] theorem setThread_ring (k : Nat) (x : Thread) : (s.setThread k x).ring = s.ring := rfl
@[simp] theorem setThread_ringNext (k : Nat) (x : Thread) : (s.setThread k x).ringNext = s.ringNext := rfl
@[simp] theorem setThread_ringDrops (k : Nat) (x : Thread) : (s.setThread k x).ringDrops = s.ringDrops := rfl
@[simp] theorem setThread_sampling (k : Nat) (x : Thread) : (s.setThread k x).sampling = s.sampling := rfl
@[simp] theorem setThread_samples (k : Nat) (x : Thread) : (s.setThread k x).samples = s.samples := rfl
@[simp] theorem setThread_sampleNext (k : Nat) (x : Thread) : (s.setThread k x).sampleNext = s.sampleNext := rfl
@[simp] theorem setThread_banks (k : Nat) (x : Thread) : (s.setThread k x).banks = s.banks := rfl
@[simp] theorem setThread_decisions (k : Nat) (x : Thread) : (s.setThread k x).decisions = s.decisions := rfl
@[simp] theorem setThread_agenda (k : Nat) (x : Thread) : (s.setThread k x).agenda = s.agenda := rfl
@[simp] theorem setThread_focus (k : Nat) (x : Thread) : (s.setThread k x).focus = s.focus := rfl
@[simp] theorem setThread_word (k : Nat) (x : Thread) : (s.setThread k x).word = s.word := rfl
@[simp] theorem setThread_nextId (k : Nat) (x : Thread) : (s.setThread k x).nextId = s.nextId := rfl
@[simp] theorem setThread_fresh (k : Nat) (x : Thread) : (s.setThread k x).fresh = s.fresh := rfl
@[simp] theorem setThread_stuck (k : Nat) (x : Thread) : (s.setThread k x).stuck = s.stuck := rfl

@[simp] theorem updThread_boot (k : Nat) (f : Thread → Thread) : (s.updThread k f).boot = s.boot := rfl
@[simp] theorem updThread_frozen (k : Nat) (f : Thread → Thread) : (s.updThread k f).frozen = s.frozen := rfl
@[simp] theorem updThread_flash (k : Nat) (f : Thread → Thread) : (s.updThread k f).flash = s.flash := rfl
@[simp] theorem updThread_committed (k : Nat) (f : Thread → Thread) : (s.updThread k f).committed = s.committed := rfl
@[simp] theorem updThread_image (k : Nat) (f : Thread → Thread) : (s.updThread k f).image = s.image := rfl
@[simp] theorem updThread_powerLim (k : Nat) (f : Thread → Thread) : (s.updThread k f).powerLim = s.powerLim := rfl
@[simp] theorem updThread_fixedW (k : Nat) (f : Thread → Thread) : (s.updThread k f).fixedW = s.fixedW := rfl
@[simp] theorem updThread_hubMhz (k : Nat) (f : Thread → Thread) : (s.updThread k f).hubMhz = s.hubMhz := rfl
@[simp] theorem updThread_hubMv (k : Nat) (f : Thread → Thread) : (s.updThread k f).hubMv = s.hubMv := rfl
@[simp] theorem updThread_hclk (k : Nat) (f : Thread → Thread) : (s.updThread k f).hclk = s.hclk := rfl
@[simp] theorem updThread_classes (k : Nat) (f : Thread → Thread) : (s.updThread k f).classes = s.classes := rfl
@[simp] theorem updThread_spares (k : Nat) (f : Thread → Thread) : (s.updThread k f).spares = s.spares := rfl
@[simp] theorem updThread_dies (k : Nat) (f : Thread → Thread) : (s.updThread k f).dies = s.dies := rfl
@[simp] theorem updThread_cores (k : Nat) (f : Thread → Thread) : (s.updThread k f).cores = s.cores := rfl
@[simp] theorem updThread_mem (k : Nat) (f : Thread → Thread) : (s.updThread k f).mem = s.mem := rfl
@[simp] theorem updThread_leases (k : Nat) (f : Thread → Thread) : (s.updThread k f).leases = s.leases := rfl
@[simp] theorem updThread_holders (k : Nat) (f : Thread → Thread) : (s.updThread k f).holders = s.holders := rfl
@[simp] theorem updThread_hreqs (k : Nat) (f : Thread → Thread) : (s.updThread k f).hreqs = s.hreqs := rfl
@[simp] theorem updThread_pwrites (k : Nat) (f : Thread → Thread) : (s.updThread k f).pwrites = s.pwrites := rfl
@[simp] theorem updThread_wbacks (k : Nat) (f : Thread → Thread) : (s.updThread k f).wbacks = s.wbacks := rfl
@[simp] theorem updThread_pushes (k : Nat) (f : Thread → Thread) : (s.updThread k f).pushes = s.pushes := rfl
@[simp] theorem updThread_asked (k : Nat) (f : Thread → Thread) : (s.updThread k f).asked = s.asked := rfl
@[simp] theorem updThread_nc (k : Nat) (f : Thread → Thread) : (s.updThread k f).nc = s.nc := rfl
@[simp] theorem updThread_partials (k : Nat) (f : Thread → Thread) : (s.updThread k f).partials = s.partials := rfl
@[simp] theorem updThread_nearTlb (k : Nat) (f : Thread → Thread) : (s.updThread k f).nearTlb = s.nearTlb := rfl
@[simp] theorem updThread_dieTlb (k : Nat) (f : Thread → Thread) : (s.updThread k f).dieTlb = s.dieTlb := rfl
@[simp] theorem updThread_walkCache (k : Nat) (f : Thread → Thread) : (s.updThread k f).walkCache = s.walkCache := rfl
@[simp] theorem updThread_modes (k : Nat) (f : Thread → Thread) : (s.updThread k f).modes = s.modes := rfl
@[simp] theorem updThread_walks (k : Nat) (f : Thread → Thread) : (s.updThread k f).walks = s.walks := rfl
@[simp] theorem updThread_threads (k : Nat) (f : Thread → Thread) : (s.updThread k f).threads = s.threads.upd k f := rfl
@[simp] theorem updThread_warps (k : Nat) (f : Thread → Thread) : (s.updThread k f).warps = s.warps := rfl
@[simp] theorem updThread_groups (k : Nat) (f : Thread → Thread) : (s.updThread k f).groups = s.groups := rfl
@[simp] theorem updThread_igroups (k : Nat) (f : Thread → Thread) : (s.updThread k f).igroups = s.igroups := rfl
@[simp] theorem updThread_prods (k : Nat) (f : Thread → Thread) : (s.updThread k f).prods = s.prods := rfl
@[simp] theorem updThread_monitors (k : Nat) (f : Thread → Thread) : (s.updThread k f).monitors = s.monitors := rfl
@[simp] theorem updThread_watches (k : Nat) (f : Thread → Thread) : (s.updThread k f).watches = s.watches := rfl
@[simp] theorem updThread_tiles (k : Nat) (f : Thread → Thread) : (s.updThread k f).tiles = s.tiles := rfl
@[simp] theorem updThread_engOps (k : Nat) (f : Thread → Thread) : (s.updThread k f).engOps = s.engOps := rfl
@[simp] theorem updThread_mops (k : Nat) (f : Thread → Thread) : (s.updThread k f).mops = s.mops := rfl
@[simp] theorem updThread_quOps (k : Nat) (f : Thread → Thread) : (s.updThread k f).quOps = s.quOps := rfl
@[simp] theorem updThread_window (k : Nat) (f : Thread → Thread) : (s.updThread k f).window = s.window := rfl
@[simp] theorem updThread_queues (k : Nat) (f : Thread → Thread) : (s.updThread k f).queues = s.queues := rfl
@[simp] theorem updThread_qreqs (k : Nat) (f : Thread → Thread) : (s.updThread k f).qreqs = s.qreqs := rfl
@[simp] theorem updThread_cancelled (k : Nat) (f : Thread → Thread) : (s.updThread k f).cancelled = s.cancelled := rfl
@[simp] theorem updThread_answers (k : Nat) (f : Thread → Thread) : (s.updThread k f).answers = s.answers := rfl
@[simp] theorem updThread_qidCache (k : Nat) (f : Thread → Thread) : (s.updThread k f).qidCache = s.qidCache := rfl
@[simp] theorem updThread_announced (k : Nat) (f : Thread → Thread) : (s.updThread k f).announced = s.announced := rfl
@[simp] theorem updThread_launchQs (k : Nat) (f : Thread → Thread) : (s.updThread k f).launchQs = s.launchQs := rfl
@[simp] theorem updThread_launches (k : Nat) (f : Thread → Thread) : (s.updThread k f).launches = s.launches := rfl
@[simp] theorem updThread_contexts (k : Nat) (f : Thread → Thread) : (s.updThread k f).contexts = s.contexts := rfl
@[simp] theorem updThread_signals (k : Nat) (f : Thread → Thread) : (s.updThread k f).signals = s.signals := rfl
@[simp] theorem updThread_sigTop (k : Nat) (f : Thread → Thread) : (s.updThread k f).sigTop = s.sigTop := rfl
@[simp] theorem updThread_sigQueue (k : Nat) (f : Thread → Thread) : (s.updThread k f).sigQueue = s.sigQueue := rfl
@[simp] theorem updThread_callQueue (k : Nat) (f : Thread → Thread) : (s.updThread k f).callQueue = s.callQueue := rfl
@[simp] theorem updThread_eanswers (k : Nat) (f : Thread → Thread) : (s.updThread k f).eanswers = s.eanswers := rfl
@[simp] theorem updThread_ecallLog (k : Nat) (f : Thread → Thread) : (s.updThread k f).ecallLog = s.ecallLog := rfl
@[simp] theorem updThread_logNext (k : Nat) (f : Thread → Thread) : (s.updThread k f).logNext = s.logNext := rfl
@[simp] theorem updThread_msix (k : Nat) (f : Thread → Thread) : (s.updThread k f).msix = s.msix := rfl
@[simp] theorem updThread_mailboxes (k : Nat) (f : Thread → Thread) : (s.updThread k f).mailboxes = s.mailboxes := rfl
@[simp] theorem updThread_nonce (k : Nat) (f : Thread → Thread) : (s.updThread k f).nonce = s.nonce := rfl
@[simp] theorem updThread_slices (k : Nat) (f : Thread → Thread) : (s.updThread k f).slices = s.slices := rfl
@[simp] theorem updThread_vfWeights (k : Nat) (f : Thread → Thread) : (s.updThread k f).vfWeights = s.vfWeights := rfl
@[simp] theorem updThread_host (k : Nat) (f : Thread → Thread) : (s.updThread k f).host = s.host := rfl
@[simp] theorem updThread_fnMem (k : Nat) (f : Thread → Thread) : (s.updThread k f).fnMem = s.fnMem := rfl
@[simp] theorem updThread_links (k : Nat) (f : Thread → Thread) : (s.updThread k f).links = s.links := rfl
@[simp] theorem updThread_flows (k : Nat) (f : Thread → Thread) : (s.updThread k f).flows = s.flows := rfl
@[simp] theorem updThread_accepted (k : Nat) (f : Thread → Thread) : (s.updThread k f).accepted = s.accepted := rfl
@[simp] theorem updThread_ring (k : Nat) (f : Thread → Thread) : (s.updThread k f).ring = s.ring := rfl
@[simp] theorem updThread_ringNext (k : Nat) (f : Thread → Thread) : (s.updThread k f).ringNext = s.ringNext := rfl
@[simp] theorem updThread_ringDrops (k : Nat) (f : Thread → Thread) : (s.updThread k f).ringDrops = s.ringDrops := rfl
@[simp] theorem updThread_sampling (k : Nat) (f : Thread → Thread) : (s.updThread k f).sampling = s.sampling := rfl
@[simp] theorem updThread_samples (k : Nat) (f : Thread → Thread) : (s.updThread k f).samples = s.samples := rfl
@[simp] theorem updThread_sampleNext (k : Nat) (f : Thread → Thread) : (s.updThread k f).sampleNext = s.sampleNext := rfl
@[simp] theorem updThread_banks (k : Nat) (f : Thread → Thread) : (s.updThread k f).banks = s.banks := rfl
@[simp] theorem updThread_decisions (k : Nat) (f : Thread → Thread) : (s.updThread k f).decisions = s.decisions := rfl
@[simp] theorem updThread_agenda (k : Nat) (f : Thread → Thread) : (s.updThread k f).agenda = s.agenda := rfl
@[simp] theorem updThread_focus (k : Nat) (f : Thread → Thread) : (s.updThread k f).focus = s.focus := rfl
@[simp] theorem updThread_word (k : Nat) (f : Thread → Thread) : (s.updThread k f).word = s.word := rfl
@[simp] theorem updThread_nextId (k : Nat) (f : Thread → Thread) : (s.updThread k f).nextId = s.nextId := rfl
@[simp] theorem updThread_fresh (k : Nat) (f : Thread → Thread) : (s.updThread k f).fresh = s.fresh := rfl
@[simp] theorem updThread_stuck (k : Nat) (f : Thread → Thread) : (s.updThread k f).stuck = s.stuck := rfl

@[simp] theorem setWarp_boot (k : Nat) (x : Warp) : (s.setWarp k x).boot = s.boot := rfl
@[simp] theorem setWarp_frozen (k : Nat) (x : Warp) : (s.setWarp k x).frozen = s.frozen := rfl
@[simp] theorem setWarp_flash (k : Nat) (x : Warp) : (s.setWarp k x).flash = s.flash := rfl
@[simp] theorem setWarp_committed (k : Nat) (x : Warp) : (s.setWarp k x).committed = s.committed := rfl
@[simp] theorem setWarp_image (k : Nat) (x : Warp) : (s.setWarp k x).image = s.image := rfl
@[simp] theorem setWarp_powerLim (k : Nat) (x : Warp) : (s.setWarp k x).powerLim = s.powerLim := rfl
@[simp] theorem setWarp_fixedW (k : Nat) (x : Warp) : (s.setWarp k x).fixedW = s.fixedW := rfl
@[simp] theorem setWarp_hubMhz (k : Nat) (x : Warp) : (s.setWarp k x).hubMhz = s.hubMhz := rfl
@[simp] theorem setWarp_hubMv (k : Nat) (x : Warp) : (s.setWarp k x).hubMv = s.hubMv := rfl
@[simp] theorem setWarp_hclk (k : Nat) (x : Warp) : (s.setWarp k x).hclk = s.hclk := rfl
@[simp] theorem setWarp_classes (k : Nat) (x : Warp) : (s.setWarp k x).classes = s.classes := rfl
@[simp] theorem setWarp_spares (k : Nat) (x : Warp) : (s.setWarp k x).spares = s.spares := rfl
@[simp] theorem setWarp_dies (k : Nat) (x : Warp) : (s.setWarp k x).dies = s.dies := rfl
@[simp] theorem setWarp_cores (k : Nat) (x : Warp) : (s.setWarp k x).cores = s.cores := rfl
@[simp] theorem setWarp_mem (k : Nat) (x : Warp) : (s.setWarp k x).mem = s.mem := rfl
@[simp] theorem setWarp_leases (k : Nat) (x : Warp) : (s.setWarp k x).leases = s.leases := rfl
@[simp] theorem setWarp_holders (k : Nat) (x : Warp) : (s.setWarp k x).holders = s.holders := rfl
@[simp] theorem setWarp_hreqs (k : Nat) (x : Warp) : (s.setWarp k x).hreqs = s.hreqs := rfl
@[simp] theorem setWarp_pwrites (k : Nat) (x : Warp) : (s.setWarp k x).pwrites = s.pwrites := rfl
@[simp] theorem setWarp_wbacks (k : Nat) (x : Warp) : (s.setWarp k x).wbacks = s.wbacks := rfl
@[simp] theorem setWarp_pushes (k : Nat) (x : Warp) : (s.setWarp k x).pushes = s.pushes := rfl
@[simp] theorem setWarp_asked (k : Nat) (x : Warp) : (s.setWarp k x).asked = s.asked := rfl
@[simp] theorem setWarp_nc (k : Nat) (x : Warp) : (s.setWarp k x).nc = s.nc := rfl
@[simp] theorem setWarp_partials (k : Nat) (x : Warp) : (s.setWarp k x).partials = s.partials := rfl
@[simp] theorem setWarp_nearTlb (k : Nat) (x : Warp) : (s.setWarp k x).nearTlb = s.nearTlb := rfl
@[simp] theorem setWarp_dieTlb (k : Nat) (x : Warp) : (s.setWarp k x).dieTlb = s.dieTlb := rfl
@[simp] theorem setWarp_walkCache (k : Nat) (x : Warp) : (s.setWarp k x).walkCache = s.walkCache := rfl
@[simp] theorem setWarp_modes (k : Nat) (x : Warp) : (s.setWarp k x).modes = s.modes := rfl
@[simp] theorem setWarp_walks (k : Nat) (x : Warp) : (s.setWarp k x).walks = s.walks := rfl
@[simp] theorem setWarp_threads (k : Nat) (x : Warp) : (s.setWarp k x).threads = s.threads := rfl
@[simp] theorem setWarp_warps (k : Nat) (x : Warp) : (s.setWarp k x).warps = s.warps.put k x := rfl
@[simp] theorem setWarp_groups (k : Nat) (x : Warp) : (s.setWarp k x).groups = s.groups := rfl
@[simp] theorem setWarp_igroups (k : Nat) (x : Warp) : (s.setWarp k x).igroups = s.igroups := rfl
@[simp] theorem setWarp_prods (k : Nat) (x : Warp) : (s.setWarp k x).prods = s.prods := rfl
@[simp] theorem setWarp_monitors (k : Nat) (x : Warp) : (s.setWarp k x).monitors = s.monitors := rfl
@[simp] theorem setWarp_watches (k : Nat) (x : Warp) : (s.setWarp k x).watches = s.watches := rfl
@[simp] theorem setWarp_tiles (k : Nat) (x : Warp) : (s.setWarp k x).tiles = s.tiles := rfl
@[simp] theorem setWarp_engOps (k : Nat) (x : Warp) : (s.setWarp k x).engOps = s.engOps := rfl
@[simp] theorem setWarp_mops (k : Nat) (x : Warp) : (s.setWarp k x).mops = s.mops := rfl
@[simp] theorem setWarp_quOps (k : Nat) (x : Warp) : (s.setWarp k x).quOps = s.quOps := rfl
@[simp] theorem setWarp_window (k : Nat) (x : Warp) : (s.setWarp k x).window = s.window := rfl
@[simp] theorem setWarp_queues (k : Nat) (x : Warp) : (s.setWarp k x).queues = s.queues := rfl
@[simp] theorem setWarp_qreqs (k : Nat) (x : Warp) : (s.setWarp k x).qreqs = s.qreqs := rfl
@[simp] theorem setWarp_cancelled (k : Nat) (x : Warp) : (s.setWarp k x).cancelled = s.cancelled := rfl
@[simp] theorem setWarp_answers (k : Nat) (x : Warp) : (s.setWarp k x).answers = s.answers := rfl
@[simp] theorem setWarp_qidCache (k : Nat) (x : Warp) : (s.setWarp k x).qidCache = s.qidCache := rfl
@[simp] theorem setWarp_announced (k : Nat) (x : Warp) : (s.setWarp k x).announced = s.announced := rfl
@[simp] theorem setWarp_launchQs (k : Nat) (x : Warp) : (s.setWarp k x).launchQs = s.launchQs := rfl
@[simp] theorem setWarp_launches (k : Nat) (x : Warp) : (s.setWarp k x).launches = s.launches := rfl
@[simp] theorem setWarp_contexts (k : Nat) (x : Warp) : (s.setWarp k x).contexts = s.contexts := rfl
@[simp] theorem setWarp_signals (k : Nat) (x : Warp) : (s.setWarp k x).signals = s.signals := rfl
@[simp] theorem setWarp_sigTop (k : Nat) (x : Warp) : (s.setWarp k x).sigTop = s.sigTop := rfl
@[simp] theorem setWarp_sigQueue (k : Nat) (x : Warp) : (s.setWarp k x).sigQueue = s.sigQueue := rfl
@[simp] theorem setWarp_callQueue (k : Nat) (x : Warp) : (s.setWarp k x).callQueue = s.callQueue := rfl
@[simp] theorem setWarp_eanswers (k : Nat) (x : Warp) : (s.setWarp k x).eanswers = s.eanswers := rfl
@[simp] theorem setWarp_ecallLog (k : Nat) (x : Warp) : (s.setWarp k x).ecallLog = s.ecallLog := rfl
@[simp] theorem setWarp_logNext (k : Nat) (x : Warp) : (s.setWarp k x).logNext = s.logNext := rfl
@[simp] theorem setWarp_msix (k : Nat) (x : Warp) : (s.setWarp k x).msix = s.msix := rfl
@[simp] theorem setWarp_mailboxes (k : Nat) (x : Warp) : (s.setWarp k x).mailboxes = s.mailboxes := rfl
@[simp] theorem setWarp_nonce (k : Nat) (x : Warp) : (s.setWarp k x).nonce = s.nonce := rfl
@[simp] theorem setWarp_slices (k : Nat) (x : Warp) : (s.setWarp k x).slices = s.slices := rfl
@[simp] theorem setWarp_vfWeights (k : Nat) (x : Warp) : (s.setWarp k x).vfWeights = s.vfWeights := rfl
@[simp] theorem setWarp_host (k : Nat) (x : Warp) : (s.setWarp k x).host = s.host := rfl
@[simp] theorem setWarp_fnMem (k : Nat) (x : Warp) : (s.setWarp k x).fnMem = s.fnMem := rfl
@[simp] theorem setWarp_links (k : Nat) (x : Warp) : (s.setWarp k x).links = s.links := rfl
@[simp] theorem setWarp_flows (k : Nat) (x : Warp) : (s.setWarp k x).flows = s.flows := rfl
@[simp] theorem setWarp_accepted (k : Nat) (x : Warp) : (s.setWarp k x).accepted = s.accepted := rfl
@[simp] theorem setWarp_ring (k : Nat) (x : Warp) : (s.setWarp k x).ring = s.ring := rfl
@[simp] theorem setWarp_ringNext (k : Nat) (x : Warp) : (s.setWarp k x).ringNext = s.ringNext := rfl
@[simp] theorem setWarp_ringDrops (k : Nat) (x : Warp) : (s.setWarp k x).ringDrops = s.ringDrops := rfl
@[simp] theorem setWarp_sampling (k : Nat) (x : Warp) : (s.setWarp k x).sampling = s.sampling := rfl
@[simp] theorem setWarp_samples (k : Nat) (x : Warp) : (s.setWarp k x).samples = s.samples := rfl
@[simp] theorem setWarp_sampleNext (k : Nat) (x : Warp) : (s.setWarp k x).sampleNext = s.sampleNext := rfl
@[simp] theorem setWarp_banks (k : Nat) (x : Warp) : (s.setWarp k x).banks = s.banks := rfl
@[simp] theorem setWarp_decisions (k : Nat) (x : Warp) : (s.setWarp k x).decisions = s.decisions := rfl
@[simp] theorem setWarp_agenda (k : Nat) (x : Warp) : (s.setWarp k x).agenda = s.agenda := rfl
@[simp] theorem setWarp_focus (k : Nat) (x : Warp) : (s.setWarp k x).focus = s.focus := rfl
@[simp] theorem setWarp_word (k : Nat) (x : Warp) : (s.setWarp k x).word = s.word := rfl
@[simp] theorem setWarp_nextId (k : Nat) (x : Warp) : (s.setWarp k x).nextId = s.nextId := rfl
@[simp] theorem setWarp_fresh (k : Nat) (x : Warp) : (s.setWarp k x).fresh = s.fresh := rfl
@[simp] theorem setWarp_stuck (k : Nat) (x : Warp) : (s.setWarp k x).stuck = s.stuck := rfl

@[simp] theorem updWarp_boot (k : Nat) (f : Warp → Warp) : (s.updWarp k f).boot = s.boot := rfl
@[simp] theorem updWarp_frozen (k : Nat) (f : Warp → Warp) : (s.updWarp k f).frozen = s.frozen := rfl
@[simp] theorem updWarp_flash (k : Nat) (f : Warp → Warp) : (s.updWarp k f).flash = s.flash := rfl
@[simp] theorem updWarp_committed (k : Nat) (f : Warp → Warp) : (s.updWarp k f).committed = s.committed := rfl
@[simp] theorem updWarp_image (k : Nat) (f : Warp → Warp) : (s.updWarp k f).image = s.image := rfl
@[simp] theorem updWarp_powerLim (k : Nat) (f : Warp → Warp) : (s.updWarp k f).powerLim = s.powerLim := rfl
@[simp] theorem updWarp_fixedW (k : Nat) (f : Warp → Warp) : (s.updWarp k f).fixedW = s.fixedW := rfl
@[simp] theorem updWarp_hubMhz (k : Nat) (f : Warp → Warp) : (s.updWarp k f).hubMhz = s.hubMhz := rfl
@[simp] theorem updWarp_hubMv (k : Nat) (f : Warp → Warp) : (s.updWarp k f).hubMv = s.hubMv := rfl
@[simp] theorem updWarp_hclk (k : Nat) (f : Warp → Warp) : (s.updWarp k f).hclk = s.hclk := rfl
@[simp] theorem updWarp_classes (k : Nat) (f : Warp → Warp) : (s.updWarp k f).classes = s.classes := rfl
@[simp] theorem updWarp_spares (k : Nat) (f : Warp → Warp) : (s.updWarp k f).spares = s.spares := rfl
@[simp] theorem updWarp_dies (k : Nat) (f : Warp → Warp) : (s.updWarp k f).dies = s.dies := rfl
@[simp] theorem updWarp_cores (k : Nat) (f : Warp → Warp) : (s.updWarp k f).cores = s.cores := rfl
@[simp] theorem updWarp_mem (k : Nat) (f : Warp → Warp) : (s.updWarp k f).mem = s.mem := rfl
@[simp] theorem updWarp_leases (k : Nat) (f : Warp → Warp) : (s.updWarp k f).leases = s.leases := rfl
@[simp] theorem updWarp_holders (k : Nat) (f : Warp → Warp) : (s.updWarp k f).holders = s.holders := rfl
@[simp] theorem updWarp_hreqs (k : Nat) (f : Warp → Warp) : (s.updWarp k f).hreqs = s.hreqs := rfl
@[simp] theorem updWarp_pwrites (k : Nat) (f : Warp → Warp) : (s.updWarp k f).pwrites = s.pwrites := rfl
@[simp] theorem updWarp_wbacks (k : Nat) (f : Warp → Warp) : (s.updWarp k f).wbacks = s.wbacks := rfl
@[simp] theorem updWarp_pushes (k : Nat) (f : Warp → Warp) : (s.updWarp k f).pushes = s.pushes := rfl
@[simp] theorem updWarp_asked (k : Nat) (f : Warp → Warp) : (s.updWarp k f).asked = s.asked := rfl
@[simp] theorem updWarp_nc (k : Nat) (f : Warp → Warp) : (s.updWarp k f).nc = s.nc := rfl
@[simp] theorem updWarp_partials (k : Nat) (f : Warp → Warp) : (s.updWarp k f).partials = s.partials := rfl
@[simp] theorem updWarp_nearTlb (k : Nat) (f : Warp → Warp) : (s.updWarp k f).nearTlb = s.nearTlb := rfl
@[simp] theorem updWarp_dieTlb (k : Nat) (f : Warp → Warp) : (s.updWarp k f).dieTlb = s.dieTlb := rfl
@[simp] theorem updWarp_walkCache (k : Nat) (f : Warp → Warp) : (s.updWarp k f).walkCache = s.walkCache := rfl
@[simp] theorem updWarp_modes (k : Nat) (f : Warp → Warp) : (s.updWarp k f).modes = s.modes := rfl
@[simp] theorem updWarp_walks (k : Nat) (f : Warp → Warp) : (s.updWarp k f).walks = s.walks := rfl
@[simp] theorem updWarp_threads (k : Nat) (f : Warp → Warp) : (s.updWarp k f).threads = s.threads := rfl
@[simp] theorem updWarp_warps (k : Nat) (f : Warp → Warp) : (s.updWarp k f).warps = s.warps.upd k f := rfl
@[simp] theorem updWarp_groups (k : Nat) (f : Warp → Warp) : (s.updWarp k f).groups = s.groups := rfl
@[simp] theorem updWarp_igroups (k : Nat) (f : Warp → Warp) : (s.updWarp k f).igroups = s.igroups := rfl
@[simp] theorem updWarp_prods (k : Nat) (f : Warp → Warp) : (s.updWarp k f).prods = s.prods := rfl
@[simp] theorem updWarp_monitors (k : Nat) (f : Warp → Warp) : (s.updWarp k f).monitors = s.monitors := rfl
@[simp] theorem updWarp_watches (k : Nat) (f : Warp → Warp) : (s.updWarp k f).watches = s.watches := rfl
@[simp] theorem updWarp_tiles (k : Nat) (f : Warp → Warp) : (s.updWarp k f).tiles = s.tiles := rfl
@[simp] theorem updWarp_engOps (k : Nat) (f : Warp → Warp) : (s.updWarp k f).engOps = s.engOps := rfl
@[simp] theorem updWarp_mops (k : Nat) (f : Warp → Warp) : (s.updWarp k f).mops = s.mops := rfl
@[simp] theorem updWarp_quOps (k : Nat) (f : Warp → Warp) : (s.updWarp k f).quOps = s.quOps := rfl
@[simp] theorem updWarp_window (k : Nat) (f : Warp → Warp) : (s.updWarp k f).window = s.window := rfl
@[simp] theorem updWarp_queues (k : Nat) (f : Warp → Warp) : (s.updWarp k f).queues = s.queues := rfl
@[simp] theorem updWarp_qreqs (k : Nat) (f : Warp → Warp) : (s.updWarp k f).qreqs = s.qreqs := rfl
@[simp] theorem updWarp_cancelled (k : Nat) (f : Warp → Warp) : (s.updWarp k f).cancelled = s.cancelled := rfl
@[simp] theorem updWarp_answers (k : Nat) (f : Warp → Warp) : (s.updWarp k f).answers = s.answers := rfl
@[simp] theorem updWarp_qidCache (k : Nat) (f : Warp → Warp) : (s.updWarp k f).qidCache = s.qidCache := rfl
@[simp] theorem updWarp_announced (k : Nat) (f : Warp → Warp) : (s.updWarp k f).announced = s.announced := rfl
@[simp] theorem updWarp_launchQs (k : Nat) (f : Warp → Warp) : (s.updWarp k f).launchQs = s.launchQs := rfl
@[simp] theorem updWarp_launches (k : Nat) (f : Warp → Warp) : (s.updWarp k f).launches = s.launches := rfl
@[simp] theorem updWarp_contexts (k : Nat) (f : Warp → Warp) : (s.updWarp k f).contexts = s.contexts := rfl
@[simp] theorem updWarp_signals (k : Nat) (f : Warp → Warp) : (s.updWarp k f).signals = s.signals := rfl
@[simp] theorem updWarp_sigTop (k : Nat) (f : Warp → Warp) : (s.updWarp k f).sigTop = s.sigTop := rfl
@[simp] theorem updWarp_sigQueue (k : Nat) (f : Warp → Warp) : (s.updWarp k f).sigQueue = s.sigQueue := rfl
@[simp] theorem updWarp_callQueue (k : Nat) (f : Warp → Warp) : (s.updWarp k f).callQueue = s.callQueue := rfl
@[simp] theorem updWarp_eanswers (k : Nat) (f : Warp → Warp) : (s.updWarp k f).eanswers = s.eanswers := rfl
@[simp] theorem updWarp_ecallLog (k : Nat) (f : Warp → Warp) : (s.updWarp k f).ecallLog = s.ecallLog := rfl
@[simp] theorem updWarp_logNext (k : Nat) (f : Warp → Warp) : (s.updWarp k f).logNext = s.logNext := rfl
@[simp] theorem updWarp_msix (k : Nat) (f : Warp → Warp) : (s.updWarp k f).msix = s.msix := rfl
@[simp] theorem updWarp_mailboxes (k : Nat) (f : Warp → Warp) : (s.updWarp k f).mailboxes = s.mailboxes := rfl
@[simp] theorem updWarp_nonce (k : Nat) (f : Warp → Warp) : (s.updWarp k f).nonce = s.nonce := rfl
@[simp] theorem updWarp_slices (k : Nat) (f : Warp → Warp) : (s.updWarp k f).slices = s.slices := rfl
@[simp] theorem updWarp_vfWeights (k : Nat) (f : Warp → Warp) : (s.updWarp k f).vfWeights = s.vfWeights := rfl
@[simp] theorem updWarp_host (k : Nat) (f : Warp → Warp) : (s.updWarp k f).host = s.host := rfl
@[simp] theorem updWarp_fnMem (k : Nat) (f : Warp → Warp) : (s.updWarp k f).fnMem = s.fnMem := rfl
@[simp] theorem updWarp_links (k : Nat) (f : Warp → Warp) : (s.updWarp k f).links = s.links := rfl
@[simp] theorem updWarp_flows (k : Nat) (f : Warp → Warp) : (s.updWarp k f).flows = s.flows := rfl
@[simp] theorem updWarp_accepted (k : Nat) (f : Warp → Warp) : (s.updWarp k f).accepted = s.accepted := rfl
@[simp] theorem updWarp_ring (k : Nat) (f : Warp → Warp) : (s.updWarp k f).ring = s.ring := rfl
@[simp] theorem updWarp_ringNext (k : Nat) (f : Warp → Warp) : (s.updWarp k f).ringNext = s.ringNext := rfl
@[simp] theorem updWarp_ringDrops (k : Nat) (f : Warp → Warp) : (s.updWarp k f).ringDrops = s.ringDrops := rfl
@[simp] theorem updWarp_sampling (k : Nat) (f : Warp → Warp) : (s.updWarp k f).sampling = s.sampling := rfl
@[simp] theorem updWarp_samples (k : Nat) (f : Warp → Warp) : (s.updWarp k f).samples = s.samples := rfl
@[simp] theorem updWarp_sampleNext (k : Nat) (f : Warp → Warp) : (s.updWarp k f).sampleNext = s.sampleNext := rfl
@[simp] theorem updWarp_banks (k : Nat) (f : Warp → Warp) : (s.updWarp k f).banks = s.banks := rfl
@[simp] theorem updWarp_decisions (k : Nat) (f : Warp → Warp) : (s.updWarp k f).decisions = s.decisions := rfl
@[simp] theorem updWarp_agenda (k : Nat) (f : Warp → Warp) : (s.updWarp k f).agenda = s.agenda := rfl
@[simp] theorem updWarp_focus (k : Nat) (f : Warp → Warp) : (s.updWarp k f).focus = s.focus := rfl
@[simp] theorem updWarp_word (k : Nat) (f : Warp → Warp) : (s.updWarp k f).word = s.word := rfl
@[simp] theorem updWarp_nextId (k : Nat) (f : Warp → Warp) : (s.updWarp k f).nextId = s.nextId := rfl
@[simp] theorem updWarp_fresh (k : Nat) (f : Warp → Warp) : (s.updWarp k f).fresh = s.fresh := rfl
@[simp] theorem updWarp_stuck (k : Nat) (f : Warp → Warp) : (s.updWarp k f).stuck = s.stuck := rfl

@[simp] theorem setGroup_boot (k : Nat) (x : Group) : (s.setGroup k x).boot = s.boot := rfl
@[simp] theorem setGroup_frozen (k : Nat) (x : Group) : (s.setGroup k x).frozen = s.frozen := rfl
@[simp] theorem setGroup_flash (k : Nat) (x : Group) : (s.setGroup k x).flash = s.flash := rfl
@[simp] theorem setGroup_committed (k : Nat) (x : Group) : (s.setGroup k x).committed = s.committed := rfl
@[simp] theorem setGroup_image (k : Nat) (x : Group) : (s.setGroup k x).image = s.image := rfl
@[simp] theorem setGroup_powerLim (k : Nat) (x : Group) : (s.setGroup k x).powerLim = s.powerLim := rfl
@[simp] theorem setGroup_fixedW (k : Nat) (x : Group) : (s.setGroup k x).fixedW = s.fixedW := rfl
@[simp] theorem setGroup_hubMhz (k : Nat) (x : Group) : (s.setGroup k x).hubMhz = s.hubMhz := rfl
@[simp] theorem setGroup_hubMv (k : Nat) (x : Group) : (s.setGroup k x).hubMv = s.hubMv := rfl
@[simp] theorem setGroup_hclk (k : Nat) (x : Group) : (s.setGroup k x).hclk = s.hclk := rfl
@[simp] theorem setGroup_classes (k : Nat) (x : Group) : (s.setGroup k x).classes = s.classes := rfl
@[simp] theorem setGroup_spares (k : Nat) (x : Group) : (s.setGroup k x).spares = s.spares := rfl
@[simp] theorem setGroup_dies (k : Nat) (x : Group) : (s.setGroup k x).dies = s.dies := rfl
@[simp] theorem setGroup_cores (k : Nat) (x : Group) : (s.setGroup k x).cores = s.cores := rfl
@[simp] theorem setGroup_mem (k : Nat) (x : Group) : (s.setGroup k x).mem = s.mem := rfl
@[simp] theorem setGroup_leases (k : Nat) (x : Group) : (s.setGroup k x).leases = s.leases := rfl
@[simp] theorem setGroup_holders (k : Nat) (x : Group) : (s.setGroup k x).holders = s.holders := rfl
@[simp] theorem setGroup_hreqs (k : Nat) (x : Group) : (s.setGroup k x).hreqs = s.hreqs := rfl
@[simp] theorem setGroup_pwrites (k : Nat) (x : Group) : (s.setGroup k x).pwrites = s.pwrites := rfl
@[simp] theorem setGroup_wbacks (k : Nat) (x : Group) : (s.setGroup k x).wbacks = s.wbacks := rfl
@[simp] theorem setGroup_pushes (k : Nat) (x : Group) : (s.setGroup k x).pushes = s.pushes := rfl
@[simp] theorem setGroup_asked (k : Nat) (x : Group) : (s.setGroup k x).asked = s.asked := rfl
@[simp] theorem setGroup_nc (k : Nat) (x : Group) : (s.setGroup k x).nc = s.nc := rfl
@[simp] theorem setGroup_partials (k : Nat) (x : Group) : (s.setGroup k x).partials = s.partials := rfl
@[simp] theorem setGroup_nearTlb (k : Nat) (x : Group) : (s.setGroup k x).nearTlb = s.nearTlb := rfl
@[simp] theorem setGroup_dieTlb (k : Nat) (x : Group) : (s.setGroup k x).dieTlb = s.dieTlb := rfl
@[simp] theorem setGroup_walkCache (k : Nat) (x : Group) : (s.setGroup k x).walkCache = s.walkCache := rfl
@[simp] theorem setGroup_modes (k : Nat) (x : Group) : (s.setGroup k x).modes = s.modes := rfl
@[simp] theorem setGroup_walks (k : Nat) (x : Group) : (s.setGroup k x).walks = s.walks := rfl
@[simp] theorem setGroup_threads (k : Nat) (x : Group) : (s.setGroup k x).threads = s.threads := rfl
@[simp] theorem setGroup_warps (k : Nat) (x : Group) : (s.setGroup k x).warps = s.warps := rfl
@[simp] theorem setGroup_groups (k : Nat) (x : Group) : (s.setGroup k x).groups = s.groups.put k x := rfl
@[simp] theorem setGroup_igroups (k : Nat) (x : Group) : (s.setGroup k x).igroups = s.igroups := rfl
@[simp] theorem setGroup_prods (k : Nat) (x : Group) : (s.setGroup k x).prods = s.prods := rfl
@[simp] theorem setGroup_monitors (k : Nat) (x : Group) : (s.setGroup k x).monitors = s.monitors := rfl
@[simp] theorem setGroup_watches (k : Nat) (x : Group) : (s.setGroup k x).watches = s.watches := rfl
@[simp] theorem setGroup_tiles (k : Nat) (x : Group) : (s.setGroup k x).tiles = s.tiles := rfl
@[simp] theorem setGroup_engOps (k : Nat) (x : Group) : (s.setGroup k x).engOps = s.engOps := rfl
@[simp] theorem setGroup_mops (k : Nat) (x : Group) : (s.setGroup k x).mops = s.mops := rfl
@[simp] theorem setGroup_quOps (k : Nat) (x : Group) : (s.setGroup k x).quOps = s.quOps := rfl
@[simp] theorem setGroup_window (k : Nat) (x : Group) : (s.setGroup k x).window = s.window := rfl
@[simp] theorem setGroup_queues (k : Nat) (x : Group) : (s.setGroup k x).queues = s.queues := rfl
@[simp] theorem setGroup_qreqs (k : Nat) (x : Group) : (s.setGroup k x).qreqs = s.qreqs := rfl
@[simp] theorem setGroup_cancelled (k : Nat) (x : Group) : (s.setGroup k x).cancelled = s.cancelled := rfl
@[simp] theorem setGroup_answers (k : Nat) (x : Group) : (s.setGroup k x).answers = s.answers := rfl
@[simp] theorem setGroup_qidCache (k : Nat) (x : Group) : (s.setGroup k x).qidCache = s.qidCache := rfl
@[simp] theorem setGroup_announced (k : Nat) (x : Group) : (s.setGroup k x).announced = s.announced := rfl
@[simp] theorem setGroup_launchQs (k : Nat) (x : Group) : (s.setGroup k x).launchQs = s.launchQs := rfl
@[simp] theorem setGroup_launches (k : Nat) (x : Group) : (s.setGroup k x).launches = s.launches := rfl
@[simp] theorem setGroup_contexts (k : Nat) (x : Group) : (s.setGroup k x).contexts = s.contexts := rfl
@[simp] theorem setGroup_signals (k : Nat) (x : Group) : (s.setGroup k x).signals = s.signals := rfl
@[simp] theorem setGroup_sigTop (k : Nat) (x : Group) : (s.setGroup k x).sigTop = s.sigTop := rfl
@[simp] theorem setGroup_sigQueue (k : Nat) (x : Group) : (s.setGroup k x).sigQueue = s.sigQueue := rfl
@[simp] theorem setGroup_callQueue (k : Nat) (x : Group) : (s.setGroup k x).callQueue = s.callQueue := rfl
@[simp] theorem setGroup_eanswers (k : Nat) (x : Group) : (s.setGroup k x).eanswers = s.eanswers := rfl
@[simp] theorem setGroup_ecallLog (k : Nat) (x : Group) : (s.setGroup k x).ecallLog = s.ecallLog := rfl
@[simp] theorem setGroup_logNext (k : Nat) (x : Group) : (s.setGroup k x).logNext = s.logNext := rfl
@[simp] theorem setGroup_msix (k : Nat) (x : Group) : (s.setGroup k x).msix = s.msix := rfl
@[simp] theorem setGroup_mailboxes (k : Nat) (x : Group) : (s.setGroup k x).mailboxes = s.mailboxes := rfl
@[simp] theorem setGroup_nonce (k : Nat) (x : Group) : (s.setGroup k x).nonce = s.nonce := rfl
@[simp] theorem setGroup_slices (k : Nat) (x : Group) : (s.setGroup k x).slices = s.slices := rfl
@[simp] theorem setGroup_vfWeights (k : Nat) (x : Group) : (s.setGroup k x).vfWeights = s.vfWeights := rfl
@[simp] theorem setGroup_host (k : Nat) (x : Group) : (s.setGroup k x).host = s.host := rfl
@[simp] theorem setGroup_fnMem (k : Nat) (x : Group) : (s.setGroup k x).fnMem = s.fnMem := rfl
@[simp] theorem setGroup_links (k : Nat) (x : Group) : (s.setGroup k x).links = s.links := rfl
@[simp] theorem setGroup_flows (k : Nat) (x : Group) : (s.setGroup k x).flows = s.flows := rfl
@[simp] theorem setGroup_accepted (k : Nat) (x : Group) : (s.setGroup k x).accepted = s.accepted := rfl
@[simp] theorem setGroup_ring (k : Nat) (x : Group) : (s.setGroup k x).ring = s.ring := rfl
@[simp] theorem setGroup_ringNext (k : Nat) (x : Group) : (s.setGroup k x).ringNext = s.ringNext := rfl
@[simp] theorem setGroup_ringDrops (k : Nat) (x : Group) : (s.setGroup k x).ringDrops = s.ringDrops := rfl
@[simp] theorem setGroup_sampling (k : Nat) (x : Group) : (s.setGroup k x).sampling = s.sampling := rfl
@[simp] theorem setGroup_samples (k : Nat) (x : Group) : (s.setGroup k x).samples = s.samples := rfl
@[simp] theorem setGroup_sampleNext (k : Nat) (x : Group) : (s.setGroup k x).sampleNext = s.sampleNext := rfl
@[simp] theorem setGroup_banks (k : Nat) (x : Group) : (s.setGroup k x).banks = s.banks := rfl
@[simp] theorem setGroup_decisions (k : Nat) (x : Group) : (s.setGroup k x).decisions = s.decisions := rfl
@[simp] theorem setGroup_agenda (k : Nat) (x : Group) : (s.setGroup k x).agenda = s.agenda := rfl
@[simp] theorem setGroup_focus (k : Nat) (x : Group) : (s.setGroup k x).focus = s.focus := rfl
@[simp] theorem setGroup_word (k : Nat) (x : Group) : (s.setGroup k x).word = s.word := rfl
@[simp] theorem setGroup_nextId (k : Nat) (x : Group) : (s.setGroup k x).nextId = s.nextId := rfl
@[simp] theorem setGroup_fresh (k : Nat) (x : Group) : (s.setGroup k x).fresh = s.fresh := rfl
@[simp] theorem setGroup_stuck (k : Nat) (x : Group) : (s.setGroup k x).stuck = s.stuck := rfl

@[simp] theorem updGroup_boot (k : Nat) (f : Group → Group) : (s.updGroup k f).boot = s.boot := rfl
@[simp] theorem updGroup_frozen (k : Nat) (f : Group → Group) : (s.updGroup k f).frozen = s.frozen := rfl
@[simp] theorem updGroup_flash (k : Nat) (f : Group → Group) : (s.updGroup k f).flash = s.flash := rfl
@[simp] theorem updGroup_committed (k : Nat) (f : Group → Group) : (s.updGroup k f).committed = s.committed := rfl
@[simp] theorem updGroup_image (k : Nat) (f : Group → Group) : (s.updGroup k f).image = s.image := rfl
@[simp] theorem updGroup_powerLim (k : Nat) (f : Group → Group) : (s.updGroup k f).powerLim = s.powerLim := rfl
@[simp] theorem updGroup_fixedW (k : Nat) (f : Group → Group) : (s.updGroup k f).fixedW = s.fixedW := rfl
@[simp] theorem updGroup_hubMhz (k : Nat) (f : Group → Group) : (s.updGroup k f).hubMhz = s.hubMhz := rfl
@[simp] theorem updGroup_hubMv (k : Nat) (f : Group → Group) : (s.updGroup k f).hubMv = s.hubMv := rfl
@[simp] theorem updGroup_hclk (k : Nat) (f : Group → Group) : (s.updGroup k f).hclk = s.hclk := rfl
@[simp] theorem updGroup_classes (k : Nat) (f : Group → Group) : (s.updGroup k f).classes = s.classes := rfl
@[simp] theorem updGroup_spares (k : Nat) (f : Group → Group) : (s.updGroup k f).spares = s.spares := rfl
@[simp] theorem updGroup_dies (k : Nat) (f : Group → Group) : (s.updGroup k f).dies = s.dies := rfl
@[simp] theorem updGroup_cores (k : Nat) (f : Group → Group) : (s.updGroup k f).cores = s.cores := rfl
@[simp] theorem updGroup_mem (k : Nat) (f : Group → Group) : (s.updGroup k f).mem = s.mem := rfl
@[simp] theorem updGroup_leases (k : Nat) (f : Group → Group) : (s.updGroup k f).leases = s.leases := rfl
@[simp] theorem updGroup_holders (k : Nat) (f : Group → Group) : (s.updGroup k f).holders = s.holders := rfl
@[simp] theorem updGroup_hreqs (k : Nat) (f : Group → Group) : (s.updGroup k f).hreqs = s.hreqs := rfl
@[simp] theorem updGroup_pwrites (k : Nat) (f : Group → Group) : (s.updGroup k f).pwrites = s.pwrites := rfl
@[simp] theorem updGroup_wbacks (k : Nat) (f : Group → Group) : (s.updGroup k f).wbacks = s.wbacks := rfl
@[simp] theorem updGroup_pushes (k : Nat) (f : Group → Group) : (s.updGroup k f).pushes = s.pushes := rfl
@[simp] theorem updGroup_asked (k : Nat) (f : Group → Group) : (s.updGroup k f).asked = s.asked := rfl
@[simp] theorem updGroup_nc (k : Nat) (f : Group → Group) : (s.updGroup k f).nc = s.nc := rfl
@[simp] theorem updGroup_partials (k : Nat) (f : Group → Group) : (s.updGroup k f).partials = s.partials := rfl
@[simp] theorem updGroup_nearTlb (k : Nat) (f : Group → Group) : (s.updGroup k f).nearTlb = s.nearTlb := rfl
@[simp] theorem updGroup_dieTlb (k : Nat) (f : Group → Group) : (s.updGroup k f).dieTlb = s.dieTlb := rfl
@[simp] theorem updGroup_walkCache (k : Nat) (f : Group → Group) : (s.updGroup k f).walkCache = s.walkCache := rfl
@[simp] theorem updGroup_modes (k : Nat) (f : Group → Group) : (s.updGroup k f).modes = s.modes := rfl
@[simp] theorem updGroup_walks (k : Nat) (f : Group → Group) : (s.updGroup k f).walks = s.walks := rfl
@[simp] theorem updGroup_threads (k : Nat) (f : Group → Group) : (s.updGroup k f).threads = s.threads := rfl
@[simp] theorem updGroup_warps (k : Nat) (f : Group → Group) : (s.updGroup k f).warps = s.warps := rfl
@[simp] theorem updGroup_groups (k : Nat) (f : Group → Group) : (s.updGroup k f).groups = s.groups.upd k f := rfl
@[simp] theorem updGroup_igroups (k : Nat) (f : Group → Group) : (s.updGroup k f).igroups = s.igroups := rfl
@[simp] theorem updGroup_prods (k : Nat) (f : Group → Group) : (s.updGroup k f).prods = s.prods := rfl
@[simp] theorem updGroup_monitors (k : Nat) (f : Group → Group) : (s.updGroup k f).monitors = s.monitors := rfl
@[simp] theorem updGroup_watches (k : Nat) (f : Group → Group) : (s.updGroup k f).watches = s.watches := rfl
@[simp] theorem updGroup_tiles (k : Nat) (f : Group → Group) : (s.updGroup k f).tiles = s.tiles := rfl
@[simp] theorem updGroup_engOps (k : Nat) (f : Group → Group) : (s.updGroup k f).engOps = s.engOps := rfl
@[simp] theorem updGroup_mops (k : Nat) (f : Group → Group) : (s.updGroup k f).mops = s.mops := rfl
@[simp] theorem updGroup_quOps (k : Nat) (f : Group → Group) : (s.updGroup k f).quOps = s.quOps := rfl
@[simp] theorem updGroup_window (k : Nat) (f : Group → Group) : (s.updGroup k f).window = s.window := rfl
@[simp] theorem updGroup_queues (k : Nat) (f : Group → Group) : (s.updGroup k f).queues = s.queues := rfl
@[simp] theorem updGroup_qreqs (k : Nat) (f : Group → Group) : (s.updGroup k f).qreqs = s.qreqs := rfl
@[simp] theorem updGroup_cancelled (k : Nat) (f : Group → Group) : (s.updGroup k f).cancelled = s.cancelled := rfl
@[simp] theorem updGroup_answers (k : Nat) (f : Group → Group) : (s.updGroup k f).answers = s.answers := rfl
@[simp] theorem updGroup_qidCache (k : Nat) (f : Group → Group) : (s.updGroup k f).qidCache = s.qidCache := rfl
@[simp] theorem updGroup_announced (k : Nat) (f : Group → Group) : (s.updGroup k f).announced = s.announced := rfl
@[simp] theorem updGroup_launchQs (k : Nat) (f : Group → Group) : (s.updGroup k f).launchQs = s.launchQs := rfl
@[simp] theorem updGroup_launches (k : Nat) (f : Group → Group) : (s.updGroup k f).launches = s.launches := rfl
@[simp] theorem updGroup_contexts (k : Nat) (f : Group → Group) : (s.updGroup k f).contexts = s.contexts := rfl
@[simp] theorem updGroup_signals (k : Nat) (f : Group → Group) : (s.updGroup k f).signals = s.signals := rfl
@[simp] theorem updGroup_sigTop (k : Nat) (f : Group → Group) : (s.updGroup k f).sigTop = s.sigTop := rfl
@[simp] theorem updGroup_sigQueue (k : Nat) (f : Group → Group) : (s.updGroup k f).sigQueue = s.sigQueue := rfl
@[simp] theorem updGroup_callQueue (k : Nat) (f : Group → Group) : (s.updGroup k f).callQueue = s.callQueue := rfl
@[simp] theorem updGroup_eanswers (k : Nat) (f : Group → Group) : (s.updGroup k f).eanswers = s.eanswers := rfl
@[simp] theorem updGroup_ecallLog (k : Nat) (f : Group → Group) : (s.updGroup k f).ecallLog = s.ecallLog := rfl
@[simp] theorem updGroup_logNext (k : Nat) (f : Group → Group) : (s.updGroup k f).logNext = s.logNext := rfl
@[simp] theorem updGroup_msix (k : Nat) (f : Group → Group) : (s.updGroup k f).msix = s.msix := rfl
@[simp] theorem updGroup_mailboxes (k : Nat) (f : Group → Group) : (s.updGroup k f).mailboxes = s.mailboxes := rfl
@[simp] theorem updGroup_nonce (k : Nat) (f : Group → Group) : (s.updGroup k f).nonce = s.nonce := rfl
@[simp] theorem updGroup_slices (k : Nat) (f : Group → Group) : (s.updGroup k f).slices = s.slices := rfl
@[simp] theorem updGroup_vfWeights (k : Nat) (f : Group → Group) : (s.updGroup k f).vfWeights = s.vfWeights := rfl
@[simp] theorem updGroup_host (k : Nat) (f : Group → Group) : (s.updGroup k f).host = s.host := rfl
@[simp] theorem updGroup_fnMem (k : Nat) (f : Group → Group) : (s.updGroup k f).fnMem = s.fnMem := rfl
@[simp] theorem updGroup_links (k : Nat) (f : Group → Group) : (s.updGroup k f).links = s.links := rfl
@[simp] theorem updGroup_flows (k : Nat) (f : Group → Group) : (s.updGroup k f).flows = s.flows := rfl
@[simp] theorem updGroup_accepted (k : Nat) (f : Group → Group) : (s.updGroup k f).accepted = s.accepted := rfl
@[simp] theorem updGroup_ring (k : Nat) (f : Group → Group) : (s.updGroup k f).ring = s.ring := rfl
@[simp] theorem updGroup_ringNext (k : Nat) (f : Group → Group) : (s.updGroup k f).ringNext = s.ringNext := rfl
@[simp] theorem updGroup_ringDrops (k : Nat) (f : Group → Group) : (s.updGroup k f).ringDrops = s.ringDrops := rfl
@[simp] theorem updGroup_sampling (k : Nat) (f : Group → Group) : (s.updGroup k f).sampling = s.sampling := rfl
@[simp] theorem updGroup_samples (k : Nat) (f : Group → Group) : (s.updGroup k f).samples = s.samples := rfl
@[simp] theorem updGroup_sampleNext (k : Nat) (f : Group → Group) : (s.updGroup k f).sampleNext = s.sampleNext := rfl
@[simp] theorem updGroup_banks (k : Nat) (f : Group → Group) : (s.updGroup k f).banks = s.banks := rfl
@[simp] theorem updGroup_decisions (k : Nat) (f : Group → Group) : (s.updGroup k f).decisions = s.decisions := rfl
@[simp] theorem updGroup_agenda (k : Nat) (f : Group → Group) : (s.updGroup k f).agenda = s.agenda := rfl
@[simp] theorem updGroup_focus (k : Nat) (f : Group → Group) : (s.updGroup k f).focus = s.focus := rfl
@[simp] theorem updGroup_word (k : Nat) (f : Group → Group) : (s.updGroup k f).word = s.word := rfl
@[simp] theorem updGroup_nextId (k : Nat) (f : Group → Group) : (s.updGroup k f).nextId = s.nextId := rfl
@[simp] theorem updGroup_fresh (k : Nat) (f : Group → Group) : (s.updGroup k f).fresh = s.fresh := rfl
@[simp] theorem updGroup_stuck (k : Nat) (f : Group → Group) : (s.updGroup k f).stuck = s.stuck := rfl

@[simp] theorem newId_boot : s.newId.2.boot = s.boot := rfl
@[simp] theorem newId_frozen : s.newId.2.frozen = s.frozen := rfl
@[simp] theorem newId_flash : s.newId.2.flash = s.flash := rfl
@[simp] theorem newId_committed : s.newId.2.committed = s.committed := rfl
@[simp] theorem newId_image : s.newId.2.image = s.image := rfl
@[simp] theorem newId_powerLim : s.newId.2.powerLim = s.powerLim := rfl
@[simp] theorem newId_fixedW : s.newId.2.fixedW = s.fixedW := rfl
@[simp] theorem newId_hubMhz : s.newId.2.hubMhz = s.hubMhz := rfl
@[simp] theorem newId_hubMv : s.newId.2.hubMv = s.hubMv := rfl
@[simp] theorem newId_hclk : s.newId.2.hclk = s.hclk := rfl
@[simp] theorem newId_classes : s.newId.2.classes = s.classes := rfl
@[simp] theorem newId_spares : s.newId.2.spares = s.spares := rfl
@[simp] theorem newId_dies : s.newId.2.dies = s.dies := rfl
@[simp] theorem newId_cores : s.newId.2.cores = s.cores := rfl
@[simp] theorem newId_mem : s.newId.2.mem = s.mem := rfl
@[simp] theorem newId_leases : s.newId.2.leases = s.leases := rfl
@[simp] theorem newId_holders : s.newId.2.holders = s.holders := rfl
@[simp] theorem newId_hreqs : s.newId.2.hreqs = s.hreqs := rfl
@[simp] theorem newId_pwrites : s.newId.2.pwrites = s.pwrites := rfl
@[simp] theorem newId_wbacks : s.newId.2.wbacks = s.wbacks := rfl
@[simp] theorem newId_pushes : s.newId.2.pushes = s.pushes := rfl
@[simp] theorem newId_asked : s.newId.2.asked = s.asked := rfl
@[simp] theorem newId_nc : s.newId.2.nc = s.nc := rfl
@[simp] theorem newId_partials : s.newId.2.partials = s.partials := rfl
@[simp] theorem newId_nearTlb : s.newId.2.nearTlb = s.nearTlb := rfl
@[simp] theorem newId_dieTlb : s.newId.2.dieTlb = s.dieTlb := rfl
@[simp] theorem newId_walkCache : s.newId.2.walkCache = s.walkCache := rfl
@[simp] theorem newId_modes : s.newId.2.modes = s.modes := rfl
@[simp] theorem newId_walks : s.newId.2.walks = s.walks := rfl
@[simp] theorem newId_threads : s.newId.2.threads = s.threads := rfl
@[simp] theorem newId_warps : s.newId.2.warps = s.warps := rfl
@[simp] theorem newId_groups : s.newId.2.groups = s.groups := rfl
@[simp] theorem newId_igroups : s.newId.2.igroups = s.igroups := rfl
@[simp] theorem newId_prods : s.newId.2.prods = s.prods := rfl
@[simp] theorem newId_monitors : s.newId.2.monitors = s.monitors := rfl
@[simp] theorem newId_watches : s.newId.2.watches = s.watches := rfl
@[simp] theorem newId_tiles : s.newId.2.tiles = s.tiles := rfl
@[simp] theorem newId_engOps : s.newId.2.engOps = s.engOps := rfl
@[simp] theorem newId_mops : s.newId.2.mops = s.mops := rfl
@[simp] theorem newId_quOps : s.newId.2.quOps = s.quOps := rfl
@[simp] theorem newId_window : s.newId.2.window = s.window := rfl
@[simp] theorem newId_queues : s.newId.2.queues = s.queues := rfl
@[simp] theorem newId_qreqs : s.newId.2.qreqs = s.qreqs := rfl
@[simp] theorem newId_cancelled : s.newId.2.cancelled = s.cancelled := rfl
@[simp] theorem newId_answers : s.newId.2.answers = s.answers := rfl
@[simp] theorem newId_qidCache : s.newId.2.qidCache = s.qidCache := rfl
@[simp] theorem newId_announced : s.newId.2.announced = s.announced := rfl
@[simp] theorem newId_launchQs : s.newId.2.launchQs = s.launchQs := rfl
@[simp] theorem newId_launches : s.newId.2.launches = s.launches := rfl
@[simp] theorem newId_contexts : s.newId.2.contexts = s.contexts := rfl
@[simp] theorem newId_signals : s.newId.2.signals = s.signals := rfl
@[simp] theorem newId_sigTop : s.newId.2.sigTop = s.sigTop := rfl
@[simp] theorem newId_sigQueue : s.newId.2.sigQueue = s.sigQueue := rfl
@[simp] theorem newId_callQueue : s.newId.2.callQueue = s.callQueue := rfl
@[simp] theorem newId_eanswers : s.newId.2.eanswers = s.eanswers := rfl
@[simp] theorem newId_ecallLog : s.newId.2.ecallLog = s.ecallLog := rfl
@[simp] theorem newId_logNext : s.newId.2.logNext = s.logNext := rfl
@[simp] theorem newId_msix : s.newId.2.msix = s.msix := rfl
@[simp] theorem newId_mailboxes : s.newId.2.mailboxes = s.mailboxes := rfl
@[simp] theorem newId_nonce : s.newId.2.nonce = s.nonce := rfl
@[simp] theorem newId_slices : s.newId.2.slices = s.slices := rfl
@[simp] theorem newId_vfWeights : s.newId.2.vfWeights = s.vfWeights := rfl
@[simp] theorem newId_host : s.newId.2.host = s.host := rfl
@[simp] theorem newId_fnMem : s.newId.2.fnMem = s.fnMem := rfl
@[simp] theorem newId_links : s.newId.2.links = s.links := rfl
@[simp] theorem newId_flows : s.newId.2.flows = s.flows := rfl
@[simp] theorem newId_accepted : s.newId.2.accepted = s.accepted := rfl
@[simp] theorem newId_ring : s.newId.2.ring = s.ring := rfl
@[simp] theorem newId_ringNext : s.newId.2.ringNext = s.ringNext := rfl
@[simp] theorem newId_ringDrops : s.newId.2.ringDrops = s.ringDrops := rfl
@[simp] theorem newId_sampling : s.newId.2.sampling = s.sampling := rfl
@[simp] theorem newId_samples : s.newId.2.samples = s.samples := rfl
@[simp] theorem newId_sampleNext : s.newId.2.sampleNext = s.sampleNext := rfl
@[simp] theorem newId_banks : s.newId.2.banks = s.banks := rfl
@[simp] theorem newId_decisions : s.newId.2.decisions = s.decisions := rfl
@[simp] theorem newId_agenda : s.newId.2.agenda = s.agenda := rfl
@[simp] theorem newId_focus : s.newId.2.focus = s.focus := rfl
@[simp] theorem newId_word : s.newId.2.word = s.word := rfl
@[simp] theorem newId_nextId : s.newId.2.nextId = s.nextId + 1 := rfl
@[simp] theorem newId_fresh : s.newId.2.fresh = s.fresh := rfl
@[simp] theorem newId_stuck : s.newId.2.stuck = s.stuck := rfl

@[simp] theorem draw_boot : s.draw.2.boot = s.boot := rfl
@[simp] theorem draw_frozen : s.draw.2.frozen = s.frozen := rfl
@[simp] theorem draw_flash : s.draw.2.flash = s.flash := rfl
@[simp] theorem draw_committed : s.draw.2.committed = s.committed := rfl
@[simp] theorem draw_image : s.draw.2.image = s.image := rfl
@[simp] theorem draw_powerLim : s.draw.2.powerLim = s.powerLim := rfl
@[simp] theorem draw_fixedW : s.draw.2.fixedW = s.fixedW := rfl
@[simp] theorem draw_hubMhz : s.draw.2.hubMhz = s.hubMhz := rfl
@[simp] theorem draw_hubMv : s.draw.2.hubMv = s.hubMv := rfl
@[simp] theorem draw_hclk : s.draw.2.hclk = s.hclk := rfl
@[simp] theorem draw_classes : s.draw.2.classes = s.classes := rfl
@[simp] theorem draw_spares : s.draw.2.spares = s.spares := rfl
@[simp] theorem draw_dies : s.draw.2.dies = s.dies := rfl
@[simp] theorem draw_cores : s.draw.2.cores = s.cores := rfl
@[simp] theorem draw_mem : s.draw.2.mem = s.mem := rfl
@[simp] theorem draw_leases : s.draw.2.leases = s.leases := rfl
@[simp] theorem draw_holders : s.draw.2.holders = s.holders := rfl
@[simp] theorem draw_hreqs : s.draw.2.hreqs = s.hreqs := rfl
@[simp] theorem draw_pwrites : s.draw.2.pwrites = s.pwrites := rfl
@[simp] theorem draw_wbacks : s.draw.2.wbacks = s.wbacks := rfl
@[simp] theorem draw_pushes : s.draw.2.pushes = s.pushes := rfl
@[simp] theorem draw_asked : s.draw.2.asked = s.asked := rfl
@[simp] theorem draw_nc : s.draw.2.nc = s.nc := rfl
@[simp] theorem draw_partials : s.draw.2.partials = s.partials := rfl
@[simp] theorem draw_nearTlb : s.draw.2.nearTlb = s.nearTlb := rfl
@[simp] theorem draw_dieTlb : s.draw.2.dieTlb = s.dieTlb := rfl
@[simp] theorem draw_walkCache : s.draw.2.walkCache = s.walkCache := rfl
@[simp] theorem draw_modes : s.draw.2.modes = s.modes := rfl
@[simp] theorem draw_walks : s.draw.2.walks = s.walks := rfl
@[simp] theorem draw_threads : s.draw.2.threads = s.threads := rfl
@[simp] theorem draw_warps : s.draw.2.warps = s.warps := rfl
@[simp] theorem draw_groups : s.draw.2.groups = s.groups := rfl
@[simp] theorem draw_igroups : s.draw.2.igroups = s.igroups := rfl
@[simp] theorem draw_prods : s.draw.2.prods = s.prods := rfl
@[simp] theorem draw_monitors : s.draw.2.monitors = s.monitors := rfl
@[simp] theorem draw_watches : s.draw.2.watches = s.watches := rfl
@[simp] theorem draw_tiles : s.draw.2.tiles = s.tiles := rfl
@[simp] theorem draw_engOps : s.draw.2.engOps = s.engOps := rfl
@[simp] theorem draw_mops : s.draw.2.mops = s.mops := rfl
@[simp] theorem draw_quOps : s.draw.2.quOps = s.quOps := rfl
@[simp] theorem draw_window : s.draw.2.window = s.window := rfl
@[simp] theorem draw_queues : s.draw.2.queues = s.queues := rfl
@[simp] theorem draw_qreqs : s.draw.2.qreqs = s.qreqs := rfl
@[simp] theorem draw_cancelled : s.draw.2.cancelled = s.cancelled := rfl
@[simp] theorem draw_answers : s.draw.2.answers = s.answers := rfl
@[simp] theorem draw_qidCache : s.draw.2.qidCache = s.qidCache := rfl
@[simp] theorem draw_announced : s.draw.2.announced = s.announced := rfl
@[simp] theorem draw_launchQs : s.draw.2.launchQs = s.launchQs := rfl
@[simp] theorem draw_launches : s.draw.2.launches = s.launches := rfl
@[simp] theorem draw_contexts : s.draw.2.contexts = s.contexts := rfl
@[simp] theorem draw_signals : s.draw.2.signals = s.signals := rfl
@[simp] theorem draw_sigTop : s.draw.2.sigTop = s.sigTop := rfl
@[simp] theorem draw_sigQueue : s.draw.2.sigQueue = s.sigQueue := rfl
@[simp] theorem draw_callQueue : s.draw.2.callQueue = s.callQueue := rfl
@[simp] theorem draw_eanswers : s.draw.2.eanswers = s.eanswers := rfl
@[simp] theorem draw_ecallLog : s.draw.2.ecallLog = s.ecallLog := rfl
@[simp] theorem draw_logNext : s.draw.2.logNext = s.logNext := rfl
@[simp] theorem draw_msix : s.draw.2.msix = s.msix := rfl
@[simp] theorem draw_mailboxes : s.draw.2.mailboxes = s.mailboxes := rfl
@[simp] theorem draw_nonce : s.draw.2.nonce = s.nonce := rfl
@[simp] theorem draw_slices : s.draw.2.slices = s.slices := rfl
@[simp] theorem draw_vfWeights : s.draw.2.vfWeights = s.vfWeights := rfl
@[simp] theorem draw_host : s.draw.2.host = s.host := rfl
@[simp] theorem draw_fnMem : s.draw.2.fnMem = s.fnMem := rfl
@[simp] theorem draw_links : s.draw.2.links = s.links := rfl
@[simp] theorem draw_flows : s.draw.2.flows = s.flows := rfl
@[simp] theorem draw_accepted : s.draw.2.accepted = s.accepted := rfl
@[simp] theorem draw_ring : s.draw.2.ring = s.ring := rfl
@[simp] theorem draw_ringNext : s.draw.2.ringNext = s.ringNext := rfl
@[simp] theorem draw_ringDrops : s.draw.2.ringDrops = s.ringDrops := rfl
@[simp] theorem draw_sampling : s.draw.2.sampling = s.sampling := rfl
@[simp] theorem draw_samples : s.draw.2.samples = s.samples := rfl
@[simp] theorem draw_sampleNext : s.draw.2.sampleNext = s.sampleNext := rfl
@[simp] theorem draw_banks : s.draw.2.banks = s.banks := rfl
@[simp] theorem draw_decisions : s.draw.2.decisions = s.decisions := rfl
@[simp] theorem draw_agenda : s.draw.2.agenda = s.agenda := rfl
@[simp] theorem draw_focus : s.draw.2.focus = s.focus := rfl
@[simp] theorem draw_word : s.draw.2.word = s.word := rfl
@[simp] theorem draw_nextId : s.draw.2.nextId = s.nextId := rfl
@[simp] theorem draw_fresh : s.draw.2.fresh = s.fresh + 1 := rfl
@[simp] theorem draw_stuck : s.draw.2.stuck = s.stuck := rfl

@[simp] theorem fail_boot (f : Fault) : (s.fail f).boot = s.boot := rfl
@[simp] theorem fail_frozen (f : Fault) : (s.fail f).frozen = s.frozen := rfl
@[simp] theorem fail_flash (f : Fault) : (s.fail f).flash = s.flash := rfl
@[simp] theorem fail_committed (f : Fault) : (s.fail f).committed = s.committed := rfl
@[simp] theorem fail_image (f : Fault) : (s.fail f).image = s.image := rfl
@[simp] theorem fail_powerLim (f : Fault) : (s.fail f).powerLim = s.powerLim := rfl
@[simp] theorem fail_fixedW (f : Fault) : (s.fail f).fixedW = s.fixedW := rfl
@[simp] theorem fail_hubMhz (f : Fault) : (s.fail f).hubMhz = s.hubMhz := rfl
@[simp] theorem fail_hubMv (f : Fault) : (s.fail f).hubMv = s.hubMv := rfl
@[simp] theorem fail_hclk (f : Fault) : (s.fail f).hclk = s.hclk := rfl
@[simp] theorem fail_classes (f : Fault) : (s.fail f).classes = s.classes := rfl
@[simp] theorem fail_spares (f : Fault) : (s.fail f).spares = s.spares := rfl
@[simp] theorem fail_dies (f : Fault) : (s.fail f).dies = s.dies := rfl
@[simp] theorem fail_cores (f : Fault) : (s.fail f).cores = s.cores := rfl
@[simp] theorem fail_mem (f : Fault) : (s.fail f).mem = s.mem := rfl
@[simp] theorem fail_leases (f : Fault) : (s.fail f).leases = s.leases := rfl
@[simp] theorem fail_holders (f : Fault) : (s.fail f).holders = s.holders := rfl
@[simp] theorem fail_hreqs (f : Fault) : (s.fail f).hreqs = s.hreqs := rfl
@[simp] theorem fail_pwrites (f : Fault) : (s.fail f).pwrites = s.pwrites := rfl
@[simp] theorem fail_wbacks (f : Fault) : (s.fail f).wbacks = s.wbacks := rfl
@[simp] theorem fail_pushes (f : Fault) : (s.fail f).pushes = s.pushes := rfl
@[simp] theorem fail_asked (f : Fault) : (s.fail f).asked = s.asked := rfl
@[simp] theorem fail_nc (f : Fault) : (s.fail f).nc = s.nc := rfl
@[simp] theorem fail_partials (f : Fault) : (s.fail f).partials = s.partials := rfl
@[simp] theorem fail_nearTlb (f : Fault) : (s.fail f).nearTlb = s.nearTlb := rfl
@[simp] theorem fail_dieTlb (f : Fault) : (s.fail f).dieTlb = s.dieTlb := rfl
@[simp] theorem fail_walkCache (f : Fault) : (s.fail f).walkCache = s.walkCache := rfl
@[simp] theorem fail_modes (f : Fault) : (s.fail f).modes = s.modes := rfl
@[simp] theorem fail_walks (f : Fault) : (s.fail f).walks = s.walks := rfl
@[simp] theorem fail_threads (f : Fault) : (s.fail f).threads = s.threads := rfl
@[simp] theorem fail_warps (f : Fault) : (s.fail f).warps = s.warps := rfl
@[simp] theorem fail_groups (f : Fault) : (s.fail f).groups = s.groups := rfl
@[simp] theorem fail_igroups (f : Fault) : (s.fail f).igroups = s.igroups := rfl
@[simp] theorem fail_prods (f : Fault) : (s.fail f).prods = s.prods := rfl
@[simp] theorem fail_monitors (f : Fault) : (s.fail f).monitors = s.monitors := rfl
@[simp] theorem fail_watches (f : Fault) : (s.fail f).watches = s.watches := rfl
@[simp] theorem fail_tiles (f : Fault) : (s.fail f).tiles = s.tiles := rfl
@[simp] theorem fail_engOps (f : Fault) : (s.fail f).engOps = s.engOps := rfl
@[simp] theorem fail_mops (f : Fault) : (s.fail f).mops = s.mops := rfl
@[simp] theorem fail_quOps (f : Fault) : (s.fail f).quOps = s.quOps := rfl
@[simp] theorem fail_window (f : Fault) : (s.fail f).window = s.window := rfl
@[simp] theorem fail_queues (f : Fault) : (s.fail f).queues = s.queues := rfl
@[simp] theorem fail_qreqs (f : Fault) : (s.fail f).qreqs = s.qreqs := rfl
@[simp] theorem fail_cancelled (f : Fault) : (s.fail f).cancelled = s.cancelled := rfl
@[simp] theorem fail_answers (f : Fault) : (s.fail f).answers = s.answers := rfl
@[simp] theorem fail_qidCache (f : Fault) : (s.fail f).qidCache = s.qidCache := rfl
@[simp] theorem fail_announced (f : Fault) : (s.fail f).announced = s.announced := rfl
@[simp] theorem fail_launchQs (f : Fault) : (s.fail f).launchQs = s.launchQs := rfl
@[simp] theorem fail_launches (f : Fault) : (s.fail f).launches = s.launches := rfl
@[simp] theorem fail_contexts (f : Fault) : (s.fail f).contexts = s.contexts := rfl
@[simp] theorem fail_signals (f : Fault) : (s.fail f).signals = s.signals := rfl
@[simp] theorem fail_sigTop (f : Fault) : (s.fail f).sigTop = s.sigTop := rfl
@[simp] theorem fail_sigQueue (f : Fault) : (s.fail f).sigQueue = s.sigQueue := rfl
@[simp] theorem fail_callQueue (f : Fault) : (s.fail f).callQueue = s.callQueue := rfl
@[simp] theorem fail_eanswers (f : Fault) : (s.fail f).eanswers = s.eanswers := rfl
@[simp] theorem fail_ecallLog (f : Fault) : (s.fail f).ecallLog = s.ecallLog := rfl
@[simp] theorem fail_logNext (f : Fault) : (s.fail f).logNext = s.logNext := rfl
@[simp] theorem fail_msix (f : Fault) : (s.fail f).msix = s.msix := rfl
@[simp] theorem fail_mailboxes (f : Fault) : (s.fail f).mailboxes = s.mailboxes := rfl
@[simp] theorem fail_nonce (f : Fault) : (s.fail f).nonce = s.nonce := rfl
@[simp] theorem fail_slices (f : Fault) : (s.fail f).slices = s.slices := rfl
@[simp] theorem fail_vfWeights (f : Fault) : (s.fail f).vfWeights = s.vfWeights := rfl
@[simp] theorem fail_host (f : Fault) : (s.fail f).host = s.host := rfl
@[simp] theorem fail_fnMem (f : Fault) : (s.fail f).fnMem = s.fnMem := rfl
@[simp] theorem fail_links (f : Fault) : (s.fail f).links = s.links := rfl
@[simp] theorem fail_flows (f : Fault) : (s.fail f).flows = s.flows := rfl
@[simp] theorem fail_accepted (f : Fault) : (s.fail f).accepted = s.accepted := rfl
@[simp] theorem fail_ring (f : Fault) : (s.fail f).ring = s.ring := rfl
@[simp] theorem fail_ringNext (f : Fault) : (s.fail f).ringNext = s.ringNext := rfl
@[simp] theorem fail_ringDrops (f : Fault) : (s.fail f).ringDrops = s.ringDrops := rfl
@[simp] theorem fail_sampling (f : Fault) : (s.fail f).sampling = s.sampling := rfl
@[simp] theorem fail_samples (f : Fault) : (s.fail f).samples = s.samples := rfl
@[simp] theorem fail_sampleNext (f : Fault) : (s.fail f).sampleNext = s.sampleNext := rfl
@[simp] theorem fail_banks (f : Fault) : (s.fail f).banks = s.banks := rfl
@[simp] theorem fail_decisions (f : Fault) : (s.fail f).decisions = s.decisions := rfl
@[simp] theorem fail_agenda (f : Fault) : (s.fail f).agenda = s.agenda := rfl
@[simp] theorem fail_focus (f : Fault) : (s.fail f).focus = s.focus := rfl
@[simp] theorem fail_word (f : Fault) : (s.fail f).word = s.word := rfl
@[simp] theorem fail_nextId (f : Fault) : (s.fail f).nextId = s.nextId := rfl
@[simp] theorem fail_fresh (f : Fault) : (s.fail f).fresh = s.fresh := rfl
@[simp] theorem fail_stuck (f : Fault) : (s.fail f).stuck = s.stuck.or (some f) := rfl

@[simp] theorem chargeBank_boot (u b a n : Nat) : (s.chargeBank u b a n).boot = s.boot := rfl
@[simp] theorem chargeBank_frozen (u b a n : Nat) : (s.chargeBank u b a n).frozen = s.frozen := rfl
@[simp] theorem chargeBank_flash (u b a n : Nat) : (s.chargeBank u b a n).flash = s.flash := rfl
@[simp] theorem chargeBank_committed (u b a n : Nat) : (s.chargeBank u b a n).committed = s.committed := rfl
@[simp] theorem chargeBank_image (u b a n : Nat) : (s.chargeBank u b a n).image = s.image := rfl
@[simp] theorem chargeBank_powerLim (u b a n : Nat) : (s.chargeBank u b a n).powerLim = s.powerLim := rfl
@[simp] theorem chargeBank_fixedW (u b a n : Nat) : (s.chargeBank u b a n).fixedW = s.fixedW := rfl
@[simp] theorem chargeBank_hubMhz (u b a n : Nat) : (s.chargeBank u b a n).hubMhz = s.hubMhz := rfl
@[simp] theorem chargeBank_hubMv (u b a n : Nat) : (s.chargeBank u b a n).hubMv = s.hubMv := rfl
@[simp] theorem chargeBank_hclk (u b a n : Nat) : (s.chargeBank u b a n).hclk = s.hclk := rfl
@[simp] theorem chargeBank_classes (u b a n : Nat) : (s.chargeBank u b a n).classes = s.classes := rfl
@[simp] theorem chargeBank_spares (u b a n : Nat) : (s.chargeBank u b a n).spares = s.spares := rfl
@[simp] theorem chargeBank_dies (u b a n : Nat) : (s.chargeBank u b a n).dies = s.dies := rfl
@[simp] theorem chargeBank_cores (u b a n : Nat) : (s.chargeBank u b a n).cores = s.cores := rfl
@[simp] theorem chargeBank_mem (u b a n : Nat) : (s.chargeBank u b a n).mem = s.mem := rfl
@[simp] theorem chargeBank_leases (u b a n : Nat) : (s.chargeBank u b a n).leases = s.leases := rfl
@[simp] theorem chargeBank_holders (u b a n : Nat) : (s.chargeBank u b a n).holders = s.holders := rfl
@[simp] theorem chargeBank_hreqs (u b a n : Nat) : (s.chargeBank u b a n).hreqs = s.hreqs := rfl
@[simp] theorem chargeBank_pwrites (u b a n : Nat) : (s.chargeBank u b a n).pwrites = s.pwrites := rfl
@[simp] theorem chargeBank_wbacks (u b a n : Nat) : (s.chargeBank u b a n).wbacks = s.wbacks := rfl
@[simp] theorem chargeBank_pushes (u b a n : Nat) : (s.chargeBank u b a n).pushes = s.pushes := rfl
@[simp] theorem chargeBank_asked (u b a n : Nat) : (s.chargeBank u b a n).asked = s.asked := rfl
@[simp] theorem chargeBank_nc (u b a n : Nat) : (s.chargeBank u b a n).nc = s.nc := rfl
@[simp] theorem chargeBank_partials (u b a n : Nat) : (s.chargeBank u b a n).partials = s.partials := rfl
@[simp] theorem chargeBank_nearTlb (u b a n : Nat) : (s.chargeBank u b a n).nearTlb = s.nearTlb := rfl
@[simp] theorem chargeBank_dieTlb (u b a n : Nat) : (s.chargeBank u b a n).dieTlb = s.dieTlb := rfl
@[simp] theorem chargeBank_walkCache (u b a n : Nat) : (s.chargeBank u b a n).walkCache = s.walkCache := rfl
@[simp] theorem chargeBank_modes (u b a n : Nat) : (s.chargeBank u b a n).modes = s.modes := rfl
@[simp] theorem chargeBank_walks (u b a n : Nat) : (s.chargeBank u b a n).walks = s.walks := rfl
@[simp] theorem chargeBank_threads (u b a n : Nat) : (s.chargeBank u b a n).threads = s.threads := rfl
@[simp] theorem chargeBank_warps (u b a n : Nat) : (s.chargeBank u b a n).warps = s.warps := rfl
@[simp] theorem chargeBank_groups (u b a n : Nat) : (s.chargeBank u b a n).groups = s.groups := rfl
@[simp] theorem chargeBank_igroups (u b a n : Nat) : (s.chargeBank u b a n).igroups = s.igroups := rfl
@[simp] theorem chargeBank_prods (u b a n : Nat) : (s.chargeBank u b a n).prods = s.prods := rfl
@[simp] theorem chargeBank_monitors (u b a n : Nat) : (s.chargeBank u b a n).monitors = s.monitors := rfl
@[simp] theorem chargeBank_watches (u b a n : Nat) : (s.chargeBank u b a n).watches = s.watches := rfl
@[simp] theorem chargeBank_tiles (u b a n : Nat) : (s.chargeBank u b a n).tiles = s.tiles := rfl
@[simp] theorem chargeBank_engOps (u b a n : Nat) : (s.chargeBank u b a n).engOps = s.engOps := rfl
@[simp] theorem chargeBank_mops (u b a n : Nat) : (s.chargeBank u b a n).mops = s.mops := rfl
@[simp] theorem chargeBank_quOps (u b a n : Nat) : (s.chargeBank u b a n).quOps = s.quOps := rfl
@[simp] theorem chargeBank_window (u b a n : Nat) : (s.chargeBank u b a n).window = s.window := rfl
@[simp] theorem chargeBank_queues (u b a n : Nat) : (s.chargeBank u b a n).queues = s.queues := rfl
@[simp] theorem chargeBank_qreqs (u b a n : Nat) : (s.chargeBank u b a n).qreqs = s.qreqs := rfl
@[simp] theorem chargeBank_cancelled (u b a n : Nat) : (s.chargeBank u b a n).cancelled = s.cancelled := rfl
@[simp] theorem chargeBank_answers (u b a n : Nat) : (s.chargeBank u b a n).answers = s.answers := rfl
@[simp] theorem chargeBank_qidCache (u b a n : Nat) : (s.chargeBank u b a n).qidCache = s.qidCache := rfl
@[simp] theorem chargeBank_announced (u b a n : Nat) : (s.chargeBank u b a n).announced = s.announced := rfl
@[simp] theorem chargeBank_launchQs (u b a n : Nat) : (s.chargeBank u b a n).launchQs = s.launchQs := rfl
@[simp] theorem chargeBank_launches (u b a n : Nat) : (s.chargeBank u b a n).launches = s.launches := rfl
@[simp] theorem chargeBank_contexts (u b a n : Nat) : (s.chargeBank u b a n).contexts = s.contexts := rfl
@[simp] theorem chargeBank_signals (u b a n : Nat) : (s.chargeBank u b a n).signals = s.signals := rfl
@[simp] theorem chargeBank_sigTop (u b a n : Nat) : (s.chargeBank u b a n).sigTop = s.sigTop := rfl
@[simp] theorem chargeBank_sigQueue (u b a n : Nat) : (s.chargeBank u b a n).sigQueue = s.sigQueue := rfl
@[simp] theorem chargeBank_callQueue (u b a n : Nat) : (s.chargeBank u b a n).callQueue = s.callQueue := rfl
@[simp] theorem chargeBank_eanswers (u b a n : Nat) : (s.chargeBank u b a n).eanswers = s.eanswers := rfl
@[simp] theorem chargeBank_ecallLog (u b a n : Nat) : (s.chargeBank u b a n).ecallLog = s.ecallLog := rfl
@[simp] theorem chargeBank_logNext (u b a n : Nat) : (s.chargeBank u b a n).logNext = s.logNext := rfl
@[simp] theorem chargeBank_msix (u b a n : Nat) : (s.chargeBank u b a n).msix = s.msix := rfl
@[simp] theorem chargeBank_mailboxes (u b a n : Nat) : (s.chargeBank u b a n).mailboxes = s.mailboxes := rfl
@[simp] theorem chargeBank_nonce (u b a n : Nat) : (s.chargeBank u b a n).nonce = s.nonce := rfl
@[simp] theorem chargeBank_slices (u b a n : Nat) : (s.chargeBank u b a n).slices = s.slices := rfl
@[simp] theorem chargeBank_vfWeights (u b a n : Nat) : (s.chargeBank u b a n).vfWeights = s.vfWeights := rfl
@[simp] theorem chargeBank_host (u b a n : Nat) : (s.chargeBank u b a n).host = s.host := rfl
@[simp] theorem chargeBank_fnMem (u b a n : Nat) : (s.chargeBank u b a n).fnMem = s.fnMem := rfl
@[simp] theorem chargeBank_links (u b a n : Nat) : (s.chargeBank u b a n).links = s.links := rfl
@[simp] theorem chargeBank_flows (u b a n : Nat) : (s.chargeBank u b a n).flows = s.flows := rfl
@[simp] theorem chargeBank_accepted (u b a n : Nat) : (s.chargeBank u b a n).accepted = s.accepted := rfl
@[simp] theorem chargeBank_ring (u b a n : Nat) : (s.chargeBank u b a n).ring = s.ring := rfl
@[simp] theorem chargeBank_ringNext (u b a n : Nat) : (s.chargeBank u b a n).ringNext = s.ringNext := rfl
@[simp] theorem chargeBank_ringDrops (u b a n : Nat) : (s.chargeBank u b a n).ringDrops = s.ringDrops := rfl
@[simp] theorem chargeBank_sampling (u b a n : Nat) : (s.chargeBank u b a n).sampling = s.sampling := rfl
@[simp] theorem chargeBank_samples (u b a n : Nat) : (s.chargeBank u b a n).samples = s.samples := rfl
@[simp] theorem chargeBank_sampleNext (u b a n : Nat) : (s.chargeBank u b a n).sampleNext = s.sampleNext := rfl
@[simp] theorem chargeBank_banks (u b a n : Nat) : (s.chargeBank u b a n).banks = s.banks.put (u * 257 + b) ((s.banks.getD (u * 257 + b) 0 + n * Config.unitWeight u a) % 2 ^ 64) := rfl
@[simp] theorem chargeBank_decisions (u b a n : Nat) : (s.chargeBank u b a n).decisions = s.decisions := rfl
@[simp] theorem chargeBank_agenda (u b a n : Nat) : (s.chargeBank u b a n).agenda = s.agenda := rfl
@[simp] theorem chargeBank_focus (u b a n : Nat) : (s.chargeBank u b a n).focus = s.focus := rfl
@[simp] theorem chargeBank_word (u b a n : Nat) : (s.chargeBank u b a n).word = s.word := rfl
@[simp] theorem chargeBank_nextId (u b a n : Nat) : (s.chargeBank u b a n).nextId = s.nextId := rfl
@[simp] theorem chargeBank_fresh (u b a n : Nat) : (s.chargeBank u b a n).fresh = s.fresh := rfl
@[simp] theorem chargeBank_stuck (u b a n : Nat) : (s.chargeBank u b a n).stuck = s.stuck := rfl

@[simp] theorem newId_fst : s.newId.1 = s.nextId := rfl
@[simp] theorem draw_fst : s.draw.1 = s.fresh := rfl

end Sys2Proof.Machine.State
end

