-- ==== Sys2Proof/Laws/Table.lean ====
section
/-! SUPPORT. Sparse tables: what a read finds after a write, a removal or a change of an entry. No order of the keys is
assumed. -/

set_option Elab.async false

namespace Sys2Proof.Tbl

variable {α : Type}

@[simp] theorem find_nil (i : Nat) : find ([] : Tbl α) i = none := rfl

theorem find_put (t : Tbl α) (i j : Nat) (x : α) : find (put t i x) j = if j = i then some x else find t j := by
  induction t with
  | nil => simp [put, find]
  | cons e t ih =>
    obtain ⟨k, v⟩ := e
    simp only [put]
    by_cases h1 : i < k
    · by_cases h : j = i <;> simp [h1, find, h]
    · by_cases h2 : i = k
      · by_cases h : j = k <;> simp [h2, find, h]
      · rw [if_neg h1, if_neg h2]
        simp only [find, ih]
        by_cases h : j = k
        · have : j ≠ i := fun e => h2 (e ▸ h)
          simp [h, Ne.symm h2]
        · simp [h]

@[simp] theorem find_put_self (t : Tbl α) (i : Nat) (x : α) : find (put t i x) i = some x := by simp [find_put]
theorem find_put_ne (t : Tbl α) {i j : Nat} (x : α) (h : j ≠ i) : find (put t i x) j = find t j := by simp [find_put, h]

theorem find_upd (t : Tbl α) (i j : Nat) (f : α → α) :
    find (upd t i f) j = if j = i then (find t i).map f else find t j := by
  induction t with
  | nil => simp [upd, find]
  | cons e t ih =>
    obtain ⟨k, v⟩ := e
    simp only [upd, List.map_cons] at ih ⊢
    by_cases hk : k = i
    · by_cases h : j = i
      · simp [hk, find, h]
      · have : ¬ j = k := fun e => h (e.trans hk)
        simpa [hk, find, h] using by simpa [h] using ih
    · by_cases h : j = i
      · have h' : ¬ i = k := fun e => hk e.symm
        simpa [hk, find, h, h'] using by simpa [h] using ih
      · by_cases h2 : j = k
        · simp [hk, find, h2]
        · simpa [hk, find, h, h2] using by simpa [h] using ih

@[simp] theorem find_upd_self (t : Tbl α) (i : Nat) (f : α → α) : find (upd t i f) i = (find t i).map f := by simp [find_upd]
theorem find_upd_ne (t : Tbl α) {i j : Nat} (f : α → α) (h : j ≠ i) : find (upd t i f) j = find t j := by simp [find_upd, h]

theorem find_del_ne (t : Tbl α) {i j : Nat} (h : j ≠ i) : find (del t i) j = find t j := by
  induction t with
  | nil => rfl
  | cons e t ih =>
    obtain ⟨k, v⟩ := e
    simp only [del]
    by_cases h2 : i = k
    · have : j ≠ k := fun e => h (e.trans h2.symm)
      simp [h2, find, this]
    · simp [h2, find, ih]

theorem getD_put (t : Tbl α) (i j : Nat) (x d : α) : getD (put t i x) j d = if j = i then x else getD t j d := by
  simp only [getD, find_put]; split <;> rfl

theorem upd_upd (t : Tbl α) (i : Nat) (f g : α → α) : upd (upd t i f) i g = upd t i fun x => g (f x) := by
  simp only [upd, List.map_map]
  refine List.map_congr_left fun e _ => ?_
  by_cases h : e.1 = i <;> simp [h]

end Sys2Proof.Tbl
end

