-- ==== Sys2Proof/Laws/Slot.lean ====
section
/-! SUPPORT. What the end of a slot does, once for every instruction: the metering, the notes of sampling, and the move of
each member (R112, R396 to R398). -/

set_option Elab.async false

namespace Sys2Proof.Machine

/-- A step that has met no fault ends in its next state. -/
theorem finish_next {s : State} (h : s.stuck = none) : finish s = .next s := by simp only [finish, h]

/-! ## Finding a thread -/

@[simp] theorem Self.self_k {s : State} {k : Nat} {m : Self} (h : s.self k = some m) : m.k = k := by
  simp only [State.self] at h
  split at h <;> try cases h
  split at h <;> try cases h
  split at h <;> try cases h
  split at h <;> cases h
  rfl

/-- A member's parts stand in the tables. -/
theorem State.self_parts {s : State} {k : Nat} {m : Self} (h : s.self k = some m) :
    s.threads.find k = some m.t ∧ s.warps.find m.t.warp = some m.w ∧ s.groups.find m.w.group = some m.g ∧
      s.launches.find m.g.launch = some m.l := by
  simp only [State.self] at h
  split at h <;> try cases h
  split at h <;> try cases h
  split at h <;> try cases h
  split at h <;> cases h
  exact ⟨‹_›, ‹_›, ‹_›, ‹_›⟩

/-! ## Metering and sampling -/

/-- What metering leaves: everything but the energy and the issues of groups. -/
structure Metered (s t : State) : Prop where
  groups  : ∀ g, (t.groups.find g).map Group.unmetered = (s.groups.find g).map Group.unmetered
  threads : t.threads = s.threads
  igroups : t.igroups = s.igroups
  focus   : t.focus = s.focus
  rest    : t.rest = s.rest

theorem Metered.refl (s : State) : Metered s s := ⟨fun _ => rfl, rfl, rfl, rfl, rfl⟩

theorem Metered.trans {s t u : State} (a : Metered s t) (b : Metered t u) : Metered s u :=
  ⟨fun g => (b.groups g).trans (a.groups g), b.threads.trans a.threads, b.igroups.trans a.igroups, b.focus.trans a.focus,
    b.rest.trans a.rest⟩

theorem charge_metered (s : State) (gid cls qty : Nat) : Metered s (s.charge gid cls qty) := by
  unfold State.charge
  split
  · exact Metered.refl s
  · rename_i g hg
    refine ⟨fun j => ?_, rfl, rfl, rfl, rfl⟩
    simp only [State.setGroup_groups, Tbl.find_put]
    split
    · next h => subst h; simp [hg, Group.unmetered]
    · rfl

theorem updGroup_metered (s : State) (gid : Nat) (f : Group → Group) (hf : ∀ g, (f g).unmetered = g.unmetered) :
    Metered s (s.updGroup gid f) := by
  refine ⟨fun j => ?_, rfl, rfl, rfl, rfl⟩
  simp only [State.updGroup_groups, Tbl.find_upd]
  split
  · next h => subst h; cases s.groups.find j <;> simp [hf]
  · rfl

theorem chargeThread_metered (op : Nat) (s : State) (k : Nat) : Metered s (s.chargeThread op k) := by
  simp only [State.chargeThread]
  split
  · exact Metered.refl s
  · split
    · exact Metered.refl s
    · split
      · exact Metered.refl s
      · exact (charge_metered _ _ _ _).trans (updGroup_metered _ _ _ fun _ => rfl)

theorem chargeAll_metered (op : Nat) (ks : List Nat) (s : State) : Metered s (ks.foldl (State.chargeThread op) s) := by
  induction ks generalizing s with
  | nil => exact Metered.refl s
  | cons k ks ih => exact (chargeThread_metered op s k).trans (ih _)

theorem sampleIssue_metered (s : State) (ig : IGroup) (vs : List (Nat × Verdict)) (fetched : Nat → Option Nat := fun _ => none) :
    Metered s (s.sampleIssue ig vs fetched) := by
  simp only [State.sampleIssue]
  split
  · exact Metered.refl s
  · split
    · exact Metered.refl s
    · exact ⟨fun _ => rfl, rfl, rfl, rfl, rfl⟩

theorem Metered.stuck {s t : State} (h : Metered s t) : t.stuck = s.stuck := (congrArg State.stuck h.rest : t.rest.stuck = s.rest.stuck)

/-- The count of a core is that of `rest`. -/
theorem State.clk_rest {s t : State} (h : t.rest = s.rest) (d c : Nat) : t.clk d c = s.clk d c :=
  (congrArg (fun x : State => x.clk d c) h : t.rest.clk d c = s.rest.clk d c)

theorem unmetered_place {g h : Group} (e : g.unmetered = h.unmetered) : g.die = h.die ∧ g.core = h.core ∧ g.launch = h.launch := by
  simp only [Group.unmetered, Group.mk.injEq] at e
  obtain ⟨h1, -, -, h4, -, h6, -⟩ := e
  exact ⟨h4, h6, h1⟩

/-! ## The count that a member sees -/

/-- Where a thread's warp, group and launch stand as before, it runs on the same core. -/
theorem clkOf_eq {s t : State} {k : Nat} (hw : t.warps = s.warps) (hl : t.launches = s.launches) (hc : t.cores = s.cores)
    (hg : ∀ g, (t.groups.find g).map Group.unmetered = (s.groups.find g).map Group.unmetered)
    (ht : (t.threads.find k).map (·.warp) = (s.threads.find k).map (·.warp)) : t.clkOf k = s.clkOf k := by
  simp only [State.clkOf, State.self, hw, hl, State.clk, State.core, hc]
  cases h1 : s.threads.find k with
  | none => cases h2 : t.threads.find k <;> simp [h1, h2] at ht ⊢
  | some a =>
    cases h2 : t.threads.find k with
    | none => simp [h1, h2] at ht
    | some b =>
      simp only [h1, h2, Option.map_some, Option.some.injEq] at ht
      dsimp only
      rw [ht]
      cases h3 : s.warps.find a.warp with
      | none => rfl
      | some w =>
        dsimp only
        have hgw := hg w.group
        cases h4 : s.groups.find w.group with
        | none => cases h5 : t.groups.find w.group <;> simp [h4, h5] at hgw ⊢
        | some g =>
          cases h5 : t.groups.find w.group with
          | none => simp [h4, h5] at hgw
          | some g' =>
            simp only [h4, h5, Option.map_some, Option.some.injEq] at hgw
            obtain ⟨e1, e2, e3⟩ := unmetered_place hgw
            simp only [e3]
            cases s.launches.find g.launch <;> simp [e1, e2]

/-! ## The move of a member -/

/-- What a verdict makes of its thread. -/
def moveOf (ig : IGroup) (clk : Nat) (v : Verdict) (t : Thread) : Thread :=
  match v with
  | .block w => waiting clk w t
  | .cause _ _ _ => { t with walkFault := none }
  | .goto x => jumped ig clk x t
  | .left => t
  | .doneBlock w =>
    { t with pc := ig.nextPc, xfer := if ig.last then some .slot0 else none, walkFault := none, yielded := ig.last && ig.yld, st := .blocked w, waitFrom := clk }
  | .arrive => { t with st := .point, waitFrom := clk, walkFault := none }
  | .done => onward ig clk t
  | .skip => onward ig clk t

/-- A step on one thread, with nothing else changed. -/
structure OneMoved (s t : State) (k : Nat) (f : Thread → Thread) : Prop where
  threads : t.threads = s.threads.upd k f
  groups  : t.groups = s.groups
  igroups : t.igroups = s.igroups
  rest    : t.rest = s.rest

theorem clkOf_updThread (s : State) (k j : Nat) (f : Thread → Thread) (hf : ∀ t, (f t).warp = t.warp) :
    (s.updThread k f).clkOf j = s.clkOf j := by
  refine clkOf_eq rfl rfl rfl (fun _ => rfl) ?_
  simp only [State.updThread_threads, Tbl.find_upd]
  split
  · next h => subst h; cases s.threads.find j <;> simp [hf]
  · rfl

theorem Tbl.upd_id (t : Tbl Thread) (k : Nat) (f : Thread → Thread) (h : ∀ x, f x = x) : t.upd k f = t := by
  simp only [Tbl.upd]
  conv => rhs; rw [← List.map_id t]
  refine List.map_congr_left fun e _ => ?_
  by_cases he : e.1 = k
  · subst he; simp [h]
  · simp [he]

theorem ready_after (s : State) (k : Nat) (f : Thread → Thread) (hf : ∀ t, (f t).warp = t.warp) :
    OneMoved s ((s.updThread k f).ready k) k fun t => { f t with st := .ready, readyAt := s.clkOf k } := by
  refine ⟨?_, rfl, rfl, rfl⟩
  simp only [State.ready, clkOf_updThread s k k f hf, State.updThread_threads, Tbl.upd_upd]

theorem block_after (s : State) (k : Nat) (f : Thread → Thread) (w : Wait) (hf : ∀ t, (f t).warp = t.warp) :
    OneMoved s ((s.updThread k f).block k w) k fun t => { f t with st := .blocked w, waitFrom := s.clkOf k } := by
  refine ⟨?_, rfl, rfl, rfl⟩
  simp only [State.block, clkOf_updThread s k k f hf, State.updThread_threads, Tbl.upd_upd]

theorem onward_last {ig : IGroup} (h : ig.last = true) (c : Nat) : onward ig c = fun t =>
    { t with pc := ig.nextPc, xfer := some .slot0, walkFault := none, yielded := ig.yld, st := .ready, readyAt := c } := by
  funext t; simp [onward, h]
theorem onward_next {ig : IGroup} (h : ig.last ≠ true) (c : Nat) : onward ig c = fun t =>
    { t with pc := ig.nextPc, walkFault := none } := by
  funext t; simp [onward, h]

theorem settleOne_moved (ig : IGroup) (s : State) (k : Nat) (v : Verdict) :
    OneMoved s (settleOne ig s (k, v)) k (moveOf ig (s.clkOf k) v) := by
  cases v with
  | block w => exact ⟨rfl, rfl, rfl, rfl⟩
  | cause c i a => exact ⟨rfl, rfl, rfl, rfl⟩
  | left => exact ⟨(Tbl.upd_id _ _ _ fun _ => rfl).symm, rfl, rfl, rfl⟩
  | arrive => exact ⟨rfl, rfl, rfl, rfl⟩
  | goto x => exact ready_after s k (fun t => { t with pc := x, xfer := some .slot0, walkFault := none, yielded := ig.yld }) fun _ => rfl
  | doneBlock w =>
    exact block_after s k (fun t => { t with pc := ig.nextPc, xfer := if ig.last then some .slot0 else none, walkFault := none, yielded := ig.last && ig.yld }) w
      fun _ => rfl
  | done =>
    show OneMoved s _ k (onward ig (s.clkOf k))
    by_cases hl : ig.last = true
    · simp only [settleOne, hl, if_true, onward_last hl]
      exact ready_after s k (fun t => { t with pc := ig.nextPc, xfer := some .slot0, walkFault := none, yielded := ig.yld }) fun _ => rfl
    · simp only [settleOne, hl, if_false, onward_next hl, Bool.false_eq_true]
      exact ⟨rfl, rfl, rfl, rfl⟩
  | skip =>
    show OneMoved s _ k (onward ig (s.clkOf k))
    by_cases hl : ig.last = true
    · simp only [settleOne, hl, if_true, onward_last hl]
      exact ready_after s k (fun t => { t with pc := ig.nextPc, xfer := some .slot0, walkFault := none, yielded := ig.yld }) fun _ => rfl
    · simp only [settleOne, hl, if_false, onward_next hl, Bool.false_eq_true]
      exact ⟨rfl, rfl, rfl, rfl⟩

@[simp] theorem moveOf_warp (ig : IGroup) (c : Nat) (v : Verdict) (t : Thread) : (moveOf ig c v t).warp = t.warp := by
  cases v <;> simp only [moveOf, onward, waiting, jumped] <;> split <;> rfl

/-- A thread's count is the same after another's move, or its own. -/
theorem OneMoved.clkOf {s t : State} {k : Nat} {f : Thread → Thread} (h : OneMoved s t k f) (hf : ∀ x, (f x).warp = x.warp)
    (j : Nat) : t.clkOf j = s.clkOf j := by
  refine clkOf_eq (congrArg State.warps h.rest : t.rest.warps = s.rest.warps)
    (congrArg State.launches h.rest : t.rest.launches = s.rest.launches)
    (congrArg State.cores h.rest : t.rest.cores = s.rest.cores) (fun g => by rw [h.groups]) ?_
  simp only [h.threads, Tbl.find_upd]
  split
  · next e => subst e; cases s.threads.find j <;> simp [hf]
  · rfl

/-- The moves of all members of a slot (R112): each becomes what its verdict says, and nothing else changes. -/
structure Settled (ig : IGroup) (s t : State) (vs : List (Nat × Verdict)) : Prop where
  moved   : ∀ v ∈ vs, t.threads.find v.1 = (s.threads.find v.1).map (moveOf ig (s.clkOf v.1) v.2)
  others  : ∀ k, k ∉ vs.map (·.1) → t.threads.find k = s.threads.find k
  groups  : t.groups = s.groups
  igroups : t.igroups = s.igroups
  rest    : t.rest = s.rest

theorem settleAll (ig : IGroup) (vs : List (Nat × Verdict)) (s : State) (h : (vs.map (·.1)).Nodup) :
    Settled ig s (vs.foldl (settleOne ig) s) vs := by
  induction vs generalizing s with
  | nil => exact ⟨fun _ h => (List.not_mem_nil h).elim, fun _ _ => rfl, rfl, rfl, rfl⟩
  | cons v vs ih =>
    obtain ⟨k, v⟩ := v
    have m := settleOne_moved ig s k v
    simp only [List.map_cons, List.nodup_cons] at h
    have r := ih (settleOne ig s (k, v)) h.2
    refine ⟨fun w hw => ?_, fun j hj => ?_, r.groups.trans m.groups, r.igroups.trans m.igroups, r.rest.trans m.rest⟩
    · rcases List.mem_cons.1 hw with rfl | hw
      · rw [List.foldl_cons, r.others k h.1, m.threads, Tbl.find_upd_self]
      · have hk : w.1 ≠ k := fun e => h.1 (e ▸ List.mem_map_of_mem hw)
        rw [List.foldl_cons, r.moved w hw, m.clkOf (moveOf_warp _ _ _), m.threads, Tbl.find_upd_ne _ _ hk]
    · simp only [List.map_cons, List.mem_cons, not_or] at hj
      rw [List.foldl_cons, r.others j hj.2, m.threads, Tbl.find_upd_ne _ _ hj.1]

/-! ## The end of a slot without causes -/

/-- No member raised a cause. -/
def NoCause (vs : List (Nat × Verdict)) : Prop := ∀ v ∈ vs, ∀ c i a, v.2 ≠ .cause c i a

theorem raisedOf_none (ig : IGroup) (vs : List (Nat × Verdict)) (h : NoCause vs) : raisedOf ig vs = [] := by
  simp only [raisedOf, List.filterMap_eq_nil_iff]
  intro v hv
  split
  · exact (h v hv _ _ _ ‹_›).elim
  · rfl

@[simp] theorem takeCauses_nil (s : State) : s.takeCauses [] = s := rfl

/-- The end of a slot in which every member is alive and none raised a cause. -/
theorem settle_ended (id : Nat) (ig : IGroup) (s : State) (vs : List (Nat × Verdict)) (hd : (vs.map (·.1)).Nodup)
    (hc : NoCause vs) (ha : ∀ v ∈ vs, s.alive v.1 = true) :
    ∃ t, settle id ig s vs = t ∧
      (∀ v ∈ vs, t.threads.find v.1 = (s.threads.find v.1).map (moveOf ig (s.clkOf v.1) v.2)) ∧
      (∀ k, k ∉ vs.map (·.1) → t.threads.find k = s.threads.find k) ∧ t.groups = s.groups ∧
      t.igroups = (if ig.last || (stayers vs).isEmpty then s.igroups.del id
        else s.igroups.put id { ig with slot := ig.slot + 1, members := stayers vs }) ∧
      t.rest = s.rest := by
  have hf : vs.filter (fun v => s.alive v.1) = vs := List.filter_eq_self.2 ha
  have r := settleAll ig vs s hd
  refine ⟨_, rfl, ?_⟩
  simp only [settle, hf, raisedOf_none ig vs hc, takeCauses_nil, State.advance]
  split
  · exact ⟨r.moved, r.others, r.groups, by rw [r.igroups], r.rest⟩
  · exact ⟨r.moved, r.others, r.groups, by rw [r.igroups], r.rest⟩

/-! ## A slot of one member -/

theorem runMember_issues {i : Instr} {s : State} {m : Self} (h : MayIssue i s m) (hx : badSpecial i = false) (body : Body) (probe : Probe) :
    runMember i body probe s m.k = body m s := by
  have ha : (m.t.st == TState.exited) = false := by
    cases hx : m.t.st == TState.exited with
    | false => rfl
    | true => exact (h.alive (eq_of_beq hx)).elim
  simp only [runMember, h.self, ha, h.clear, firstDeferred, List.foldl_nil, h.guard, h.ready, hx, if_true, Bool.false_eq_true, if_false, Bool.not_true, ite_self]

/-- The members that an operation of the issue group stands for. -/
def didOf (k : Nat) : Verdict → List Nat
  | .done => [k]
  | .doneBlock _ => [k]
  | _ => []

theorem runSlotThen_alone {i : Instr} {s : State} {ig : IGroup} {m : Self} (h : Alone i s ig m) {body : Body}
    {after : IGroup → List Nat → State → State} {v : Verdict} {e : State} (hb : body m s = (v, e)) (hx : badSpecial i = false := by rfl) :
    runSlotThen i body after s =
      finish (settle s.focus ig (((executed [(m.k, v)]).foldl (State.chargeThread i.opcode)
        (after ig (didOf m.k v) e)).sampleIssue ig [(m.k, v)]) [(m.k, v)]) := by
  simp only [runSlotThen, runSlotBy, h.found, h.one, runMembers, runMember_issues h.toMayIssue hx, hb]
  cases v <;> rfl

/-- ONE MEMBER'S SLOT (R112): whatever the instruction's body answers, but a cause, the slot ends in the effect's state with the
member moved as the answer says. -/
theorem runSlotThen_one {i : Instr} {s : State} {ig : IGroup} {m : Self} (h : Alone i s ig m) {body : Body}
    {after : IGroup → List Nat → State → State} {v : Verdict} {e e' : State} (hb : body m s = (v, e))
    (he : after ig (didOf m.k v) e = e') (hv : ∀ c i a, v ≠ .cause c i a) (ha : e'.alive m.k = true) (hs : e'.stuck = none)
    (hf : e'.focus = s.focus) (hx : badSpecial i = false := by rfl) :
    ∃ t, runSlotThen i body after s = .next t ∧
      Ended e' t ig [m.k] (stayers [(m.k, v)]) (moveOf ig (e'.clkOf m.k) v) := by
  rw [runSlotThen_alone h hb hx, he]
  have hm := (chargeAll_metered i.opcode (executed [(m.k, v)]) e').trans (sampleIssue_metered _ ig [(m.k, v)])
  generalize State.sampleIssue _ ig [(m.k, v)] = x at hm ⊢
  have hal : x.alive m.k = true := by simpa only [State.alive, hm.threads] using ha
  obtain ⟨t, ht, h1, h2, h3, h4, h5⟩ := settle_ended s.focus ig x [(m.k, v)] (by simp)
    (by intro w hw c i a; simp only [List.mem_singleton] at hw; subst hw; exact hv c i a)
    (by intro w hw; simp only [List.mem_singleton] at hw; subst hw; exact hal)
  have hst : t.stuck = none :=
    (congrArg State.stuck h5 : t.rest.stuck = x.rest.stuck).trans (hm.stuck.trans hs)
  have hclk : x.clkOf m.k = e'.clkOf m.k :=
    clkOf_eq (congrArg State.warps hm.rest : x.rest.warps = e'.rest.warps)
      (congrArg State.launches hm.rest : x.rest.launches = e'.rest.launches)
      (congrArg State.cores hm.rest : x.rest.cores = e'.rest.cores) hm.groups (by rw [hm.threads])
  refine ⟨t, by rw [ht, finish, hst], ?_, ?_, ?_, ?_, h5.trans hm.rest⟩
  · intro k hk
    simp only [List.mem_singleton] at hk; subst hk
    have := h1 (m.k, v) (by simp)
    simpa only [hclk, hm.threads] using this
  · intro k hk
    have := h2 k (by simpa using hk)
    rw [this, hm.threads]
  · intro g; rw [h3]; exact hm.groups g
  · rw [h4, hm.igroups]; simp only [groupsOnward, hf]

/-- The slot of one member that leaves the issue group in the state that its instruction gave it, ended or not. -/
theorem runSlot_left {i : Instr} {s : State} {ig : IGroup} {m : Self} (h : Alone i s ig m) {body : Body} {e : State}
    (hb : body m s = (.left, e)) (hs : e.stuck = none) (hf : e.focus = s.focus) (hx : badSpecial i = false := by rfl) :
    ∃ t, runSlot i body s = .next t ∧ Left e t ig m := by
  by_cases ha : e.alive m.k = true
  · exact runSlotThen_one h hb rfl (fun _ _ _ => Verdict.noConfusion) ha hs hf hx
  · rw [runSlot, runSlotThen_alone h hb hx]
    have hm := (chargeAll_metered i.opcode (executed [(m.k, .left)]) e).trans (sampleIssue_metered _ ig [(m.k, .left)])
    generalize State.sampleIssue _ ig [(m.k, Verdict.left)] = x at hm ⊢
    have hal : x.alive m.k = false := by
      have : x.alive m.k = e.alive m.k := by simp only [State.alive, hm.threads]
      simpa [this] using ha
    have hset : settle s.focus ig x [(m.k, .left)] = { x with igroups := x.igroups.del s.focus } := by
      simp [settle, hal, stayers, raisedOf, State.advance]
    rw [hset]
    have hxs : x.stuck = none := hm.stuck.trans hs
    refine ⟨{ x with igroups := x.igroups.del s.focus }, by simp only [finish]; rw [hxs], ?_, ?_, ?_, ?_, ?_⟩
    · intro k _; simp only [hm.threads]; cases e.threads.find k <;> rfl
    · intro k _; simp only [hm.threads]
    · exact hm.groups
    · simp only [hm.igroups, groupsOnward, hf, List.isEmpty_nil, Bool.or_true, if_true]
    · exact (rfl : State.rest { x with igroups := x.igroups.del s.focus } = x.rest).trans hm.rest

theorem runSlotThen_moved {i : Instr} {s : State} {ig : IGroup} {m : Self} (h : Alone i s ig m) {body : Body}
    {after : IGroup → List Nat → State → State} {e e' : State} (hb : body m s = (.done, e)) (he : after ig [m.k] e = e')
    (ha : e'.alive m.k = true) (hs : e'.stuck = none) (hf : e'.focus = s.focus) (hx : badSpecial i = false := by rfl) :
    ∃ t, runSlotThen i body after s = .next t ∧ Moved e' t ig m :=
  runSlotThen_one h hb he (fun _ _ _ => Verdict.noConfusion) ha hs hf hx

/-- The slot of one member that takes effect. -/
theorem runSlot_moved {i : Instr} {s : State} {ig : IGroup} {m : Self} (h : Alone i s ig m) {body : Body} {e : State}
    (hb : body m s = (.done, e)) (ha : e.alive m.k = true) (hs : e.stuck = none) (hf : e.focus = s.focus) (hx : badSpecial i = false := by rfl) :
    ∃ t, runSlot i body s = .next t ∧ Moved e t ig m :=
  runSlotThen_moved h hb rfl ha hs hf hx

/-- The slot of one member that goes to a target. -/
theorem runSlot_jumped {i : Instr} {s : State} {ig : IGroup} {m : Self} (h : Alone i s ig m) {body : Body} {e : State} {x : W64}
    (hb : body m s = (.goto x, e)) (ha : e.alive m.k = true) (hs : e.stuck = none) (hf : e.focus = s.focus) (hx : badSpecial i = false := by rfl) :
    ∃ t, runSlot i body s = .next t ∧ Jumped e t ig m x :=
  runSlotThen_one h hb rfl (fun _ _ _ => Verdict.noConfusion) ha hs hf hx

/-- The slot of one member that waits. -/
theorem runSlot_waits {i : Instr} {s : State} {ig : IGroup} {m : Self} (h : Alone i s ig m) {body : Body} {e : State} {w : Wait}
    (hb : body m s = (.block w, e)) (ha : e.alive m.k = true) (hs : e.stuck = none) (hf : e.focus = s.focus) (hx : badSpecial i = false := by rfl) :
    ∃ t, runSlot i body s = .next t ∧ Waits e t ig m w :=
  runSlotThen_one h hb rfl (fun _ _ _ => Verdict.noConfusion) ha hs hf hx

/-- A member that may issue is alive. -/
theorem MayIssue.alive_self {i : Instr} {s : State} {m : Self} (h : MayIssue i s m) : s.alive m.k = true := by
  simp only [State.alive, (State.self_parts h.self).1]
  cases hx : m.t.st == TState.exited with
  | false => simp [bne, hx]
  | true => exact (h.alive (eq_of_beq hx)).elim

/-- The members' clock. -/
theorem clkOf_self {s : State} {k : Nat} {m : Self} (h : s.self k = some m) : s.clkOf k = s.clk m.g.die m.g.core := by
  simp only [State.clkOf, h]

/-! ## A slot of several members that compute -/

theorem self_setThread_ne {s : State} {k j : Nat} (x : Thread) (h : j ≠ k) : (s.setThread k x).self j = s.self j := by
  simp only [State.self, State.setThread_threads, Tbl.find_put_ne _ _ h, State.setThread_warps, State.setThread_groups,
    State.setThread_launches]

/-- The members of an instruction that only changes its thread, run one after the other. -/
theorem runMembers_alu {i : Instr} {f : State → Self → Thread} (hdep : ∀ s k x m, f (s.setThread k x) m = f s m)
    (hx : badSpecial i = false) (probe : Probe) (ks : List Nat) (s : State) (hd : ks.Nodup) (hk : ∀ k ∈ ks, ∃ m : Self, m.k = k ∧ MayIssue i s m) :
    ∃ th, runMembers i (fun m s => (.done, s.setThread m.k (f s m))) probe s ks =
        ({ s with threads := th }, ks.map fun k => (k, Verdict.done)) ∧
      (∀ k ∈ ks, ∀ m, s.self k = some m → th.find k = some (f s m)) ∧ ∀ k, k ∉ ks → th.find k = s.threads.find k := by
  induction ks generalizing s with
  | nil => exact ⟨s.threads, rfl, fun _ h => (List.not_mem_nil h).elim, fun _ _ => rfl⟩
  | cons k ks ih =>
    obtain ⟨m, rfl, hm⟩ := hk k (by simp)
    simp only [List.nodup_cons] at hd
    obtain ⟨th, h1, h2, h3⟩ := ih (s.setThread m.k (f s m)) hd.2 (by
      intro j hj
      obtain ⟨n, rfl, hn⟩ := hk j (List.mem_cons_of_mem _ hj)
      have hne : n.k ≠ m.k := fun e => hd.1 (e ▸ hj)
      exact ⟨n, rfl, ⟨by rw [self_setThread_ne _ hne]; exact hn.self, hn.alive, hn.clear, hn.guard, hn.ready⟩⟩)
    refine ⟨th, ?_, ?_, ?_⟩
    · simp only [runMembers, runMember_issues hm hx, h1, List.map_cons]; rfl
    · intro j hj n hn
      rcases List.mem_cons.1 hj with rfl | hj
      · rw [hm.self] at hn
        cases hn
        rw [h3 _ hd.1]; simp
      · have hne : j ≠ m.k := fun e => hd.1 (e ▸ hj)
        rw [h2 j hj n (by rw [self_setThread_ne _ hne]; exact hn), hdep]
    · intro j hj
      simp only [List.mem_cons, not_or] at hj
      rw [h3 j hj.2]; simp [Tbl.find_put_ne _ _ hj.1]

theorem executed_done (ks : List Nat) : executed (ks.map fun k => (k, Verdict.done)) = ks := by
  unfold executed
  rw [List.filterMap_map]
  exact List.filterMap_some

theorem stayers_done (ks : List Nat) : stayers (ks.map fun k => (k, Verdict.done)) = ks := by
  unfold stayers
  rw [List.filterMap_map]
  exact List.filterMap_some

/-- AN INSTRUCTION THAT ONLY CHANGES ITS THREAD (R134), in an issue group of any size: every member computes, and moves on. -/
theorem runAlu_computed {i : Instr} {s : State} {ig : IGroup} (h : Together i s ig) {f : State → Self → Thread}
    (hdep : ∀ s k x m, f (s.setThread k x) m = f s m) (hw : ∀ s m, (f s m).warp = m.t.warp) (hst : ∀ s m, (f s m).st = m.t.st) (hx : badSpecial i = false := by rfl) :
    ∃ t, runAlu i f s = .next t ∧ Computed s t ig (f s) := by
  obtain ⟨th, h1, h2, h3⟩ := runMembers_alu hdep hx (sureOf i fun m s => (.done, s.setThread m.k (f s m))) ig.members s h.distinct h.each
  simp only [runAlu, runSlot, runSlotThen, runSlotBy, h.found, h1, executed_done]
  have hm := (chargeAll_metered i.opcode ig.members { s with threads := th }).trans
    (sampleIssue_metered _ ig (ig.members.map fun k => (k, Verdict.done)))
  generalize State.sampleIssue _ ig (ig.members.map fun k => (k, Verdict.done)) = x at hm ⊢
  have hths : x.threads = th := hm.threads
  have hnew : ∀ k ∈ ig.members, ∃ m, s.self k = some m ∧ th.find k = some (f s m) ∧ s.threads.find k = some m.t ∧
      m.t.st ≠ .exited := by
    intro k hk
    obtain ⟨m, rfl, hmi⟩ := h.each k hk
    exact ⟨m, hmi.self, h2 _ hk m hmi.self, (State.self_parts hmi.self).1, hmi.alive⟩
  have hmap : (ig.members.map fun k => (k, Verdict.done)).map (·.1) = ig.members := by simp [Function.comp_def]
  obtain ⟨t, ht, e1, e2, e3, e4, e5⟩ := settle_ended s.focus ig x (ig.members.map fun k => (k, Verdict.done))
    (by rw [hmap]; exact h.distinct)
    (by intro v hv c i a; simp only [List.mem_map] at hv; obtain ⟨k, -, rfl⟩ := hv; exact Verdict.noConfusion)
    (by
      intro v hv
      simp only [List.mem_map] at hv; obtain ⟨k, hk, rfl⟩ := hv
      obtain ⟨m, -, hf, -, ha⟩ := hnew k hk
      show x.alive k = true
      simp only [State.alive, hths, hf, hst]
      cases hb : m.t.st == TState.exited with
      | false => simp [bne, hb]
      | true => exact (ha (eq_of_beq hb)).elim)
  have hrest : t.rest = s.rest := e5.trans hm.rest
  have hstuck : t.stuck = none := (congrArg State.stuck hrest : t.rest.stuck = s.rest.stuck).trans h.sound
  refine ⟨t, by rw [ht, finish, hstuck], ?_, ?_, ?_, ?_, hrest⟩
  · intro k hk m hself
    have := e1 (k, .done) (by simp [hk])
    have hclk : x.clkOf k = s.clkOf k := by
      refine clkOf_eq (congrArg State.warps hm.rest : x.rest.warps = s.rest.warps)
        (congrArg State.launches hm.rest : x.rest.launches = s.rest.launches)
        (congrArg State.cores hm.rest : x.rest.cores = s.rest.cores) hm.groups ?_
      rw [hths, h2 k hk m hself, (State.self_parts hself).1]
      simp [hw]
    rw [this, hths, h2 k hk m hself, hclk]; rfl
  · intro k hk
    rw [e2 k (by rw [hmap]; exact hk), hths, h3 k hk]
  · intro g; rw [e3]; exact hm.groups g
  · rw [e4, hm.igroups, stayers_done]; rfl

end Sys2Proof.Machine
end

