-- ==== Sys2Proof/Laws/Keeps.lean ====
section
/-! SUPPORT. What the shared operations leave alone: the step's own notes, the threads that have not ended, and the canonical form
of every memory. One lemma for each operation. -/

set_option Elab.async false

namespace Sys2Proof.Machine

/-- From `s` to `t` no fault is met, the issue group in hand stays, no thread ends, and every memory stays canonical. -/
structure Keeps (s t : State) : Prop where
  stuck : t.stuck = s.stuck
  focus : t.focus = s.focus
  alive : ∀ k, s.alive k = true → t.alive k = true
  canon : s.Canonical → t.Canonical

theorem Keeps.refl (s : State) : Keeps s s := ⟨rfl, rfl, fun _ h => h, fun h => h⟩
theorem Keeps.trans {s t u : State} (a : Keeps s t) (b : Keeps t u) : Keeps s u :=
  ⟨b.stuck.trans a.stuck, b.focus.trans a.focus, fun k h => b.alive k (a.alive k h), fun h => b.canon (a.canon h)⟩
theorem Keeps.sound {s t : State} (a : Keeps s t) (h : s.stuck = none) : t.stuck = none := a.stuck.trans h

/-- An update that touches neither threads nor memories. -/
theorem Keeps.of {s t : State} (h1 : t.stuck = s.stuck := by rfl) (h2 : t.focus = s.focus := by rfl)
    (h3 : t.threads = s.threads := by rfl) (h4 : t.mem = s.mem := by rfl) (h5 : t.host = s.host := by rfl)
    (h6 : t.window = s.window := by rfl) (h7 : t.flash = s.flash := by rfl) : Keeps s t :=
  ⟨h1, h2, fun k h => by simpa only [State.alive, h3] using h, fun ⟨a, b, c, d⟩ => ⟨h4 ▸ a, h5 ▸ b, h6 ▸ c, h7 ▸ d⟩⟩

theorem Keeps.ite {s a b : State} {p : Prop} [Decidable p] (ha : Keeps s a) (hb : Keeps s b) : Keeps s (if p then a else b) := by
  split <;> assumption

theorem Keeps.foldl {α : Type} {f : State → α → State} (hf : ∀ s x, Keeps s (f s x)) (l : List α) (s : State) :
    Keeps s (l.foldl f s) := by
  induction l generalizing s with
  | nil => exact Keeps.refl s
  | cons x l ih => exact (hf s x).trans (ih _)

/-! ## Threads -/

theorem updThread_keeps (s : State) (k : Nat) (f : Thread → Thread)
    (hf : ∀ t, t.st ≠ .exited → (f t).st ≠ .exited := by intro _ h; exact h) :
    Keeps s (s.updThread k f) := by
  refine ⟨rfl, rfl, fun j h => ?_, fun h => ⟨h.1, h.2, h.3, h.4⟩⟩
  simp only [State.alive, State.updThread_threads, Tbl.find_upd] at h ⊢
  by_cases e : j = k
  · subst e
    cases hx : s.threads.find j with
    | none => simp [hx] at h
    | some t =>
      simp only [hx, bne_iff_ne, ne_eq] at h
      simpa using hf t h
  · simpa [e] using h

theorem setThread_keeps (s : State) (k : Nat) (x : Thread) (hx : x.st ≠ .exited) : Keeps s (s.setThread k x) := by
  refine ⟨rfl, rfl, fun j h => ?_, fun h => ⟨h.1, h.2, h.3, h.4⟩⟩
  simp only [State.alive, State.setThread_threads, Tbl.find_put] at h ⊢
  by_cases e : j = k
  · simpa [e] using hx
  · simpa [e] using h

theorem ready_keeps (s : State) (k : Nat) : Keeps s (s.ready k) := updThread_keeps _ _ _ fun _ _ => nofun
theorem block_keeps (s : State) (k : Nat) (w : Wait) : Keeps s (s.block k w) := updThread_keeps _ _ _ fun _ _ => nofun
theorem wakeIf_keeps (s : State) (p : Wait → Bool) (k : Nat) : Keeps s (s.wakeIf p k) := by
  unfold State.wakeIf
  split
  · split
    · exact Keeps.ite (ready_keeps s k) (Keeps.refl s)
    · exact Keeps.refl s
  · exact Keeps.refl s
theorem wakeAll_keeps (s : State) (p : Nat → Wait → Bool) : Keeps s (s.wakeAll p) :=
  Keeps.foldl (fun s k => wakeIf_keeps s (p k) k) _ s

theorem newId_keeps (s : State) : Keeps s s.newId.2 := Keeps.of
theorem draw_keeps (s : State) : Keeps s s.draw.2 := Keeps.of
theorem updWarp_keeps (s : State) (k : Nat) (f : Warp → Warp) : Keeps s (s.updWarp k f) := Keeps.of
theorem updGroup_keeps (s : State) (k : Nat) (f : Group → Group) : Keeps s (s.updGroup k f) := Keeps.of
theorem setGroup_keeps (s : State) (k : Nat) (g : Group) : Keeps s (s.setGroup k g) := Keeps.of
theorem setWarp_keeps (s : State) (k : Nat) (w : Warp) : Keeps s (s.setWarp k w) := Keeps.of
theorem setCore_keeps (s : State) (d c : Nat) (x : Core) : Keeps s (s.setCore d c x) := Keeps.of
theorem setDie_keeps (s : State) (d : Nat) (x : Die) : Keeps s (s.setDie d x) := Keeps.of

theorem markEmpty_st (t : Thread) (rs : List Nat) : (t.markEmpty rs).st = t.st := rfl
theorem markFull_st (t : Thread) (rs : List Nat) : (t.markFull rs).st = t.st := rfl
@[simp] theorem setRegs_st (t : Thread) (r : Nat) (ws : List W32) : (t.setRegs r ws).st = t.st := by
  induction ws generalizing t r with
  | nil => rfl
  | cons w ws ih => simp only [Thread.setRegs, ih]

theorem produce_keeps (s : State) (m : Self) (o : Opd) (n : Nat) (v : PVal) (mem : Option (Nat × Nat)) :
    Keeps s (s.produce m o n v mem).2 := by
  have := updThread_keeps s m.k (fun t => t.markEmpty (Thread.opdRegs o n)) fun t h => h
  exact ⟨rfl, rfl, this.alive, fun h => ⟨h.1, h.2, h.3, h.4⟩⟩

theorem alive_setThread_self {s : State} {k : Nat} {x : Thread} (hx : x.st ≠ .exited) : (s.setThread k x).alive k = true := by
  simpa [State.alive] using hx

/-! ## Die memory -/

theorem memWrite_keeps (s : State) (d a : Nat) (bs : List Byte) : Keeps s (s.memWrite d a bs) :=
  ⟨rfl, rfl, fun _ h => h, fun h => ⟨cellsSet_wf _ _ _ h.1, h.2, h.3, h.4⟩⟩

theorem wakeMemory_keeps (s : State) : Keeps s s.wakeMemory := wakeAll_keeps _ _

theorem wakeGroup_keeps (s : State) (gid : Nat) (by_ : Option Nat) : Keeps s (s.wakeGroup gid by_) := Keeps.of

theorem touched_keeps (s : State) (die pa size : Nat) : Keeps s (s.touched die pa size) := by
  simp only [State.touched]
  refine Keeps.trans ?_ (Keeps.foldl (fun _ _ => wakeGroup_keeps ..) _ _)
  refine Keeps.trans ?_ (Keeps.foldl (fun _ _ =>
    (updThread_keeps ..).trans (wakeIf_keeps _ _ _)) _ _)
  exact Keeps.of

theorem complete_keeps (s : State) (p : Nat) (ws : List W32) : Keeps s (s.complete p ws) := Keeps.of
theorem completeOpt_keeps (s : State) (p : Option Nat) (ws : List W32) : Keeps s (s.completeOpt p ws) := by
  cases p
  · exact Keeps.refl s
  · exact complete_keeps ..

theorem perform_keeps (s : State) (die pa size : Nat) (k : HKind) : Keeps s (s.perform die pa size k) := by
  simp only [State.perform]
  refine Keeps.trans ?_ (touched_keeps ..)
  split
  · exact Keeps.refl s
  · exact memWrite_keeps ..
  · exact (memWrite_keeps ..).trans (completeOpt_keeps ..)
  · exact (memWrite_keeps ..).trans (completeOpt_keeps ..)
  · exact memWrite_keeps ..
  · exact Keeps.foldl (fun _ _ => memWrite_keeps ..) _ _

theorem raiseWct_keeps (s : State) (k w : Nat) : Keeps s (s.raiseWct k w) := by
  simp only [State.raiseWct]
  split
  · rename_i t ht
    refine ⟨rfl, rfl, fun j h => ?_, fun h => ⟨h.1, h.2, h.3, h.4⟩⟩
    simp only [State.alive, State.setThread_threads, Tbl.find_put] at h ⊢
    by_cases e : j = k
    · subst e; simpa [ht] using h
    · simpa [e] using h
  · exact Keeps.of
theorem acceptH_keeps (s : State) (die pa size : Nat) (k : HKind) (op : Option Nat) (ts : List Nat) :
    Keeps s (s.acceptH die pa size k op ts) := by
  simp only [State.acceptH]
  exact Keeps.trans Keeps.of (Keeps.foldl (fun _ _ => raiseWct_keeps ..) _ _)
theorem combine_keeps (s : State) (die line : Nat) (p : Partial) : Keeps s (s.combine die line p) :=
  Keeps.foldl (fun s _ => Keeps.ite (Keeps.refl s) (acceptH_keeps ..)) _ _
theorem request_keeps (s : State) (m : Self) (pa size : Nat) (k : HKind) (mode : Nat) (hint : BitVec 2) :
    Keeps s (s.request m pa size k mode hint) := Keeps.of

theorem flushSector_keeps (s : State) (die core sector : Nat) (drop : Bool) (cwbs cinvs : List Nat) :
    Keeps s (s.flushSector die core sector drop cwbs cinvs) := by
  simp only [State.flushSector]
  split
  · exact Keeps.refl s
  · split
    · exact Keeps.of
    · exact Keeps.of
theorem pushPartial_keeps (s : State) (die core line : Nat) : Keeps s (s.pushPartial die core line) := by
  simp only [State.pushPartial]
  split
  · exact Keeps.refl s
  · exact Keeps.of
theorem pushThread_keeps (s : State) (die core k : Nat) : Keeps s (s.pushThread die core k) :=
  Keeps.foldl (fun _ _ => pushPartial_keeps ..) _ _
theorem hintSector_keeps (s : State) (die core pa : Nat) (h : BitVec 2) : Keeps s (s.hintSector die core pa h) := Keeps.of
theorem evict_keeps (s : State) (die core sector : Nat) : Keeps s (s.evict die core sector) :=
  (pushPartial_keeps ..).trans (flushSector_keeps ..)
theorem replaceOne_keeps (s : State) (die core pa n : Nat) : Keeps s (s.replaceOne die core pa n) := by
  simp only [State.replaceOne]
  refine Keeps.ite (Keeps.refl s) (Keeps.trans (draw_keeps s) ?_)
  split
  · exact evict_keeps ..
  · exact Keeps.refl _
theorem makeRoom_keeps (s : State) (die core pa : Nat) : Keeps s (s.makeRoom die core pa) :=
  Keeps.ite (Keeps.refl s) (replaceOne_keeps ..)
theorem makeLineRoom_keeps (s : State) (die core pa : Nat) : Keeps s (s.makeLineRoom die core pa) :=
  (replaceOne_keeps ..).trans (replaceOne_keeps ..)
theorem ncWrite_keeps (s : State) (die core ctx pa : Nat) (bs : List Byte) (hint : BitVec 2) :
    Keeps s (s.ncWrite die core ctx pa bs hint) := (makeRoom_keeps s die core pa).trans Keeps.of
theorem ncFill_keeps (s : State) (die core ctx pa : Nat) (hint : BitVec 2) : Keeps s (s.ncFill die core ctx pa hint) :=
  (makeRoom_keeps s die core pa).trans Keeps.of

theorem chargeBank_keeps (s : State) (u b a n : Nat) : Keeps s (s.chargeBank u b a n) := Keeps.of
theorem chargeHbm_keeps (s : State) (die pa : Nat) (c : Option Nat) : Keeps s (s.chargeHbm die pa c) := chargeBank_keeps ..
theorem ncHold_keeps (s : State) (die core ctx pa size : Nat) : Keeps s (s.ncHold die core ctx pa size) :=
  Keeps.ite (Keeps.refl s) ((ncFill_keeps ..).trans (chargeHbm_keeps ..))

theorem homeReady_keeps (s : State) (id : Nat) (r : HReq) : Keeps s (s.homeReady id r).2 := by
  simp only [State.homeReady]
  split
  · exact Keeps.refl s
  · split
    · exact Keeps.refl s
    · exact Keeps.refl s
    · split
      · exact Keeps.refl s
      · exact Keeps.of

theorem writeback_keeps (s : State) (id : Nat) (p : Prod) (ws : List W32) : Keeps s (s.writeback id p ws) := by
  simp only [State.writeback]
  refine Keeps.trans ?_ (wakeIf_keeps ..)
  refine Keeps.trans (t := { s with prods := s.prods.del id }) Keeps.of (updThread_keeps _ _ _ fun t h => ?_)
  split
  · exact h
  · split
    · exact h
    · simpa [markFull_st] using h

theorem abandon_keeps (s : State) (id : Nat) (p : Prod) : Keeps s (s.abandon id p) := by
  simp only [State.abandon]
  refine Keeps.trans ?_ (wakeIf_keeps ..)
  exact Keeps.trans (t := { s with prods := s.prods.del id }) Keeps.of (updThread_keeps _ _ _ fun t h => h)

/-! ## Translation -/

theorem postWalk_keeps (s : State) (m : Self) (va kind : Nat) : Keeps s (s.postWalk m va kind) := by
  simp only [State.postWalk]
  split
  · exact Keeps.ite Keeps.of (Keeps.refl s)
  · exact Keeps.ite Keeps.of (Keeps.refl s)

theorem translate_keeps (s : State) (m : Self) (va : W64) (kind : Nat) : Keeps s (s.translate m va kind).2 := by
  simp only [State.translate]
  split
  · exact Keeps.refl s
  · split
    · exact Keeps.refl s
    · split
      · exact postWalk_keeps ..
      · have hn (b : Bool) (x : Tbl (List TlbE)) : Keeps s (if b = true then s else { s with nearTlb := x }) :=
          Keeps.ite (Keeps.refl s) Keeps.of
        split
        · split
          · exact (hn _ _).trans (postWalk_keeps ..)
          · exact hn _ _
        · exact hn _ _

theorem markLeaf_keeps (s : State) (die place : Nat) (e : W64) (w : Bool) : Keeps s (s.markLeaf die place e w).2 := memWrite_keeps ..

/-! ## Recalls (R202) -/

theorem combineAt_keeps (s : State) (die core line : Nat) (p : Partial) : Keeps s (s.combineAt die core line p) :=
  (combine_keeps s die line p).trans (Keeps.trans Keeps.of (chargeHbm_keeps ..))
theorem noHolder_keeps (s : State) (die core line : Nat) : Keeps s (s.noHolder die core line) := Keeps.of
theorem answerNow_keeps (s : State) (die line core : Nat) : Keeps s (s.answerNow die line core) := by
  have hp (s : State) (x : Tbl Push) (p : Partial) : Keeps s ({ s with pushes := x }.combineAt die core line p) :=
    Keeps.trans (t := { s with pushes := x }) Keeps.of (combineAt_keeps ..)
  have hq (s : State) (x : Tbl Partial) (p : Partial) : Keeps s ({ s with partials := x }.combineAt die core line p) :=
    Keeps.trans (t := { s with partials := x }) Keeps.of (combineAt_keeps ..)
  unfold State.answerNow
  have hf := Keeps.foldl (f := fun s e => { s with pushes := s.pushes.del e.1 }.combineAt die core line e.2.part) (fun s _ => hp s _ _)
    (s.pushes.filter fun e => e.2.die == die && e.2.core == core && e.2.line == line) s
  dsimp only at hf ⊢
  generalize List.foldl _ s _ = s1 at hf ⊢
  refine hf.trans (Keeps.trans ?_ (noHolder_keeps ..))
  split
  · exact hq ..
  · exact Keeps.refl s1
theorem recallNow_keeps (s : State) (die pa : Nat) : Keeps s (s.recallNow die pa).2 := Keeps.foldl (fun _ _ => answerNow_keeps ..) _ s
theorem mayRead_keeps (s : State) (who die pa : Nat) : Keeps s (s.mayRead who die pa).2 := by
  simp only [State.mayRead]
  split
  · exact Keeps.refl s
  · split
    · exact recallNow_keeps ..
    · exact (recallNow_keeps s die pa).trans Keeps.of
theorem recallTables_keeps (s : State) (die : Nat) (l : List Nat) : Keeps s (s.recallTables die l) :=
  Keeps.foldl (fun s _ => Keeps.ite (Keeps.refl s) (recallNow_keeps ..)) l s
/-- A walk whose tables no core holds partials of recalls nothing. -/
theorem recallTables_quiet {s : State} {die : Nat} {l : List Nat} (h : l.all (fun p => (s.holdersOf die p).isEmpty) = true) :
    s.recallTables die l = s := by
  induction l with
  | nil => rfl
  | cons p l ih =>
    simp only [List.all_cons, Bool.and_eq_true] at h
    simpa only [State.recallTables, List.foldl_cons, h.1, if_true] using ih h.2

/-- A walk that does not leave the die's memory keeps everything. -/
theorem walkNow_canon (s : State) (die ctx vdie va kind : Nat) (v : Option Nat) (h : s.Canonical) :
    (s.walkNow die ctx vdie va kind v).2.Canonical := by
  unfold State.walkNow
  split
  · exact h
  · split
    · exact h
    · have hr := (recallTables_keeps s die (walkPlaces s die va 4 ‹XRec›.root)).canon h
      dsimp only
      generalize State.recallTables _ _ _ = s1 at hr ⊢
      split
      · exact hr
      · exact ⟨hr.1, hr.2, hr.3, hr.4⟩
      · split
        · exact (markLeaf_keeps ..).canon hr
        · exact hr

theorem walkNow_keeps {s s' : State} {die ctx vdie va kind : Nat} {v : Option Nat} {r : Trans}
    (h : s.walkNow die ctx vdie va kind v = (r, s')) (hr : ∀ a, r ≠ .beyond a) : Keeps s s' := by
  unfold State.walkNow at h
  split at h
  · cases h; exact Keeps.refl s
  · split at h
    · cases h; exact Keeps.refl s
    · have hk := recallTables_keeps s die (walkPlaces s die va 4 ‹XRec›.root)
      dsimp only at h
      generalize State.recallTables _ _ _ = s1 at hk h
      refine hk.trans ?_
      split at h
      · cases h; exact Keeps.refl _
      · cases h; exact (hr _ rfl).elim
      · split at h
        · cases h; exact memWrite_keeps ..
        · cases h; exact Keeps.refl _

end Sys2Proof.Machine
end

