-- ==== Sys2Proof/Laws/Acts.lean ====
section
/-! SUPPORT. From the body of an instruction to what its slot does, and what the accesses of threads leave alone. -/

set_option Elab.async false

namespace Sys2Proof.Machine

/-- An instruction acts as its body does on one member. -/
theorem acts_of_body {i : Instr} {body : Body} {eff : State → Self → State → Prop} (he : ∀ s, exec i s = runSlot i body s)
    (hb : ∀ s m e, MayIssue i s m → eff s m e → body m s = (.done, e) ∧ (s.stuck = none → e.stuck = none) ∧ e.focus = s.focus ∧
      (s.alive m.k = true → e.alive m.k = true)) (hs : badSpecial i = false := by rfl) : Acts i eff := by
  intro s ig m e h hx
  obtain ⟨h1, h2, h3, h4⟩ := hb s m e h.toMayIssue hx
  rw [he]
  exact runSlot_moved h h1 (h4 h.toMayIssue.alive_self) (h2 h.sound) h3 hs

theorem acts_of_keeps {i : Instr} {body : Body} {eff : State → Self → State → Prop} (he : ∀ s, exec i s = runSlot i body s)
    (hb : ∀ s m e, MayIssue i s m → eff s m e → body m s = (.done, e) ∧ Keeps s e)
    (hs : badSpecial i = false := by rfl) : Acts i eff :=
  acts_of_body he (fun s m e h hx => have ⟨h1, h2⟩ := hb s m e h hx; ⟨h1, h2.sound, h2.focus, h2.alive _⟩) hs

/-- An instruction holds a member as its body does. -/
theorem holds_of_keeps {i : Instr} {body : Body} {eff : State → Self → Wait → State → Prop} (he : ∀ s, exec i s = runSlot i body s)
    (hb : ∀ s m w e, MayIssue i s m → eff s m w e → body m s = (.block w, e) ∧ Keeps s e)
    (hs : badSpecial i = false := by rfl) : Holds i eff := by
  intro s ig m w e h hx
  obtain ⟨h1, h2⟩ := hb s m w e h.toMayIssue hx
  rw [he]
  exact runSlot_waits h h1 (h2.alive _ h.toMayIssue.alive_self) (h2.sound h.sound) h2.focus hs

/-! ## Accesses to die memory -/

theorem reach_keeps {s s' : State} {m : Self} {va : W64} {kind size sz : Nat} {r : Reach}
    (h : s.reach m va kind size sz = (r, s')) : Keeps s s' := by
  have ht := translate_keeps s m va kind
  simp only [State.reach] at h
  generalize s.translate m va kind = x at h ht
  obtain ⟨x, y⟩ := x
  cases x <;> simp only at h
  · split at h <;> cases h <;> exact ht
  all_goals cases h; exact ht

theorem issueLoad_keeps (s : State) (m : Self) (d : Opd) (leaf : W64) (pa size : Nat) (sext : Bool) (lease : Nat) (hint : BitVec 2)
    (counted : Bool) : Keeps s (s.issueLoad m d leaf pa size sext lease hint counted).2 := by
  simp only [State.issueLoad]
  split
  · split
    · exact (hintSector_keeps ..).trans (produce_keeps ..)
    · split
      · have h := produce_keeps s m d (if size = 16 then 4 else if size = 8 then 2 else 1) .home (if counted then some (pa, size) else none)
        exact Keeps.trans h Keeps.of
      · split
        · exact Keeps.refl s
        · exact (produce_keeps ..).trans (request_keeps ..)
  · split
    · split
      · exact Keeps.refl s
      · exact ((flushSector_keeps ..).trans (produce_keeps ..)).trans (request_keeps ..)
    · split
      · exact (hintSector_keeps ..).trans (produce_keeps ..)
      · split
        · exact Keeps.refl s
        · exact produce_keeps ..

theorem issueAtomic_keeps (s : State) (m : Self) (d : Opd) (leaf : W64) (pa size : Nat) (k : Option Nat → HKind) (new : W64 → W64) :
    Keeps s (s.issueAtomic m d leaf pa size k new) := by
  simp only [State.issueAtomic]
  split
  · exact ((ncHold_keeps ..).trans (ncWrite_keeps ..)).trans (produce_keeps ..)
  · have hf : Keeps s (if Leaf.mode leaf = modeH then s else s.flushSector m.g.die m.g.core (pa / 64) true [] []) :=
      Keeps.ite (Keeps.refl s) (flushSector_keeps ..)
    split
    · exact (hf.trans (produce_keeps ..)).trans (request_keeps ..)
    · exact hf.trans (request_keeps ..)

theorem foldRed_keeps (s : State) (m : Self) (pa : Nat) (fn : BitVec 4) (w64 : Bool) (b : W64) (ds : Bool) :
    Keeps s (s.foldRed m pa fn w64 b ds) := by
  have hopen (s : State) : Keeps s (((s.flushSector m.g.die m.g.core (pa / 128 * 2) true [] []).flushSector m.g.die m.g.core
      (pa / 128 * 2 + 1) true [] []).makeLineRoom m.g.die m.g.core pa) :=
    ((flushSector_keeps ..).trans (flushSector_keeps ..)).trans (makeLineRoom_keeps ..)
  have hset (s : State) (a : Tbl (List Nat)) (b : Tbl Partial) : Keeps s { s with holders := a, partials := b } := Keeps.of
  simp only [State.foldRed]
  cases hp : s.partials.find (partKey m.g.die m.g.core pa) with
  | none =>
    simp only [hp]
    exact (hopen s).trans (hset _ _ _)
  | some p =>
    simp only
    by_cases hc : p.fn = fn ∧ p.w64 = w64
    · simp only [if_pos hc, hp]; exact Keeps.of
    · simp only [if_neg hc]
      have hk := pushPartial_keeps s m.g.die m.g.core (pa / 128)
      generalize s.pushPartial m.g.die m.g.core (pa / 128) = x at hk ⊢
      refine hk.trans ?_
      cases x.partials.find (partKey m.g.die m.g.core pa) with
      | some p => exact Keeps.of
      | none => dsimp only; exact (hopen x).trans (hset _ _ _)

theorem afterAcq_done {acq : Bool} {m : Self} {s : State} (h : acq = true → s.fenceOk m.k m.g.die 1 2 = true) : afterAcq acq m s = .done := by
  simp only [afterAcq]
  cases acq
  · rfl
  · simp [h rfl]

theorem relFirst_none {rel : Bool} {m : Self} {s : State} (h : rel = true → s.fenceOk m.k m.g.die 2 2 = true) : relFirst rel m s = none := by
  simp only [relFirst]
  cases rel
  · rfl
  · simp [h rfl]

end Sys2Proof.Machine
end

