-- ==== Sys2Proof/Laws/Operands.lean ====
section
/-! SUPPORT. Reading operands and writing results (R74, R76, R78): what a source depends on, and what a destination leaves. -/

set_option Elab.async false

namespace Sys2Proof.Machine

/-! ## Sources -/

section
variable (s : State) (k : Nat) (x : Thread) (m : Self) (o : Opd)

@[simp] theorem src_setThread : (s.setThread k x).src m o = s.src m o := by cases o <;> rfl
@[simp] theorem src64_setThread : (s.setThread k x).src64 m o = s.src64 m o := by cases o <;> rfl
@[simp] theorem srcWide_setThread (w : Bool) : (s.setThread k x).srcWide m w o = s.srcWide m w o := by
  cases w <;> simp [State.srcWide]
@[simp] theorem srcRun_setThread (n : Nat) : (s.setThread k x).srcRun m o n = s.srcRun m o n := rfl

end

/-! ## Destinations -/

namespace Thread

/-- The thread with its registers and flags set aside: what a result does not touch. -/
def frame (t : Thread) : Thread := { t with regs := [], preds := 0, fpstat := 0 }

@[simp] theorem setRegs_frame (t : Thread) (r : Nat) (ws : List W32) : (t.setRegs r ws).frame = t.frame := by
  induction ws generalizing t r with
  | nil => rfl
  | cons w ws ih => simp only [setRegs, ih]; rfl

@[simp] theorem write_frame (t : Thread) (o : Opd) (ws : List W32) : (t.write o ws).frame = t.frame := by
  cases o <;> simp [write]
@[simp] theorem setPred_frame (t : Thread) (p : PredNo) (b : Bool) : (t.setPred p b).frame = t.frame := by
  simp only [setPred]; split <;> rfl
@[simp] theorem orFlags_frame (t : Thread) (f : Flags) : (t.orFlags f).frame = t.frame := rfl
@[simp] theorem writeF_frame (t : Thread) (o : Opd) (r : W32 × Flags) : (t.writeF o r).frame = t.frame := by simp [writeF]

theorem warp_of_frame {t u : Thread} (h : u.frame = t.frame) : u.warp = t.warp :=
  (congrArg Thread.warp h : u.frame.warp = t.frame.warp)
theorem st_of_frame {t u : Thread} (h : u.frame = t.frame) : u.st = t.st :=
  (congrArg Thread.st h : u.frame.st = t.frame.st)

/-- The predicates and flags that a register result leaves. -/
@[simp] theorem setRegs_preds (t : Thread) (r : Nat) (ws : List W32) : (t.setRegs r ws).preds = t.preds := by
  induction ws generalizing t r with
  | nil => rfl
  | cons w ws ih => simp only [setRegs, ih]
@[simp] theorem setRegs_fpstat (t : Thread) (r : Nat) (ws : List W32) : (t.setRegs r ws).fpstat = t.fpstat := by
  induction ws generalizing t r with
  | nil => rfl
  | cons w ws ih => simp only [setRegs, ih]
@[simp] theorem write_preds (t : Thread) (o : Opd) (ws : List W32) : (t.write o ws).preds = t.preds := by
  cases o <;> simp [write]
@[simp] theorem write_fpstat (t : Thread) (o : Opd) (ws : List W32) : (t.write o ws).fpstat = t.fpstat := by
  cases o <;> simp [write]

end Thread

end Sys2Proof.Machine
end

