-- ==== Sys2Proof/Laws/Alu.lean ====
section
/-! SUPPORT. Instructions that change only their thread's registers, predicates and flags (R134). -/

set_option Elab.async false

namespace Sys2Proof.Machine

/-- An instruction that runs a function of the thread computes that function, if the function keeps the frame of the thread and
does not depend on other threads. -/
theorem computes_of_alu {i : Instr} {f g : State → Self → Thread} (he : ∀ s, exec i s = runAlu i f s)
    (hdep : ∀ s k x m, f (s.setThread k x) m = f s m) (hf : ∀ s m, (f s m).frame = m.t.frame) (hg : ∀ s m, f s m = g s m)
    (hx : badSpecial i = false := by rfl) : Computes i g := by
  intro s ig h
  have hfg : f = g := funext fun s => funext fun m => hg s m
  subst hfg
  rw [he]
  exact runAlu_computed h hdep (fun s m => Thread.warp_of_frame (hf s m)) (fun s m => Thread.st_of_frame (hf s m)) hx

end Sys2Proof.Machine
end

