-- ==== Sys2Proof/Laws/Cause.lean ====
section
/-! SUPPORT. The slot of one member that raises a cause, and the taking of that cause (R365 to R368). -/

set_option Elab.async false

namespace Sys2Proof.Machine

/-- The slot of one member that raises a cause: the member alone takes it, in a state that differs from the body's only in the end
of the issue group, the notes of sampling and the member's report of a failed walk. -/
theorem runSlot_raised {i : Instr} {s : State} {ig : IGroup} {m : Self} (h : Alone i s ig m) {body : Body} {e : State} {c : Cause}
    {info : W32} {fa : W64} (hb : body m s = (.cause c info fa, e)) (ha : e.alive m.k = true)
    (hx : badSpecial i = false := by rfl) :
    ∃ x : State, runSlot i body s = finish (x.takeCauses [⟨m.k, c, info, fa, if c.after then ig.nextPc else ig.pc⟩]) ∧
      x.threads = e.threads.upd m.k (fun t => { t with walkFault := none }) ∧ x.groups = e.groups ∧
      x.igroups = e.igroups.del s.focus ∧ x.rest = e.rest := by
  rw [runSlot, runSlotThen_alone h hb hx]
  have hm := sampleIssue_metered e ig [(m.k, .cause c info fa)]
  show ∃ x : State, finish (settle s.focus ig (e.sampleIssue ig [(m.k, .cause c info fa)]) [(m.k, .cause c info fa)]) = _ ∧ _
  have hal : (e.sampleIssue ig [(m.k, .cause c info fa)]).alive m.k = true := by
    simpa only [State.alive, hm.threads] using ha
  have hgr : (e.sampleIssue ig [(m.k, .cause c info fa)]).groups = e.groups := by
    simp only [State.sampleIssue]
    split
    · rfl
    · split <;> rfl
  generalize hq : e.sampleIssue ig [(m.k, Verdict.cause c info fa)] = x at hm hal hgr ⊢
  refine ⟨(x.updThread m.k fun t => { t with walkFault := none }).advance s.focus ig [], ?_, ?_, ?_, ?_, ?_⟩
  · simp [settle, hal, stayers, raisedOf, settleOne]
  · simp [State.advance, hm.threads]
  · simp [State.advance, hgr]
  · simp [State.advance, hm.igroups]
  · simp only [State.advance, List.isEmpty_nil, Bool.or_true, if_true]
    exact (rfl : State.rest _ = x.rest).trans hm.rest

/-- One member's cause is taken by its warp. -/
theorem takeCauses_one (s : State) (r : Raised) (hp : r.c.prio ≤ 27) : s.takeCauses [r] = s.takeWarp (r.k / 64) [r] := by
  have h : min 27 r.c.prio = r.c.prio := by omega
  simp [State.takeCauses, sortBy, insertBy, List.eraseDups_cons, h]

theorem prio_le (c : Cause) : c.prio ≤ 27 := by cases c <;> decide

end Sys2Proof.Machine
end

