-- ==== Sys2Proof/Laws/Codec.lean ====
section
/-! SUPPORT. Splitting a word undoes joining its fields (R72), and the code of an operand or a rounding mode reads back as it
(R74, R38). -/

set_option Elab.async false

namespace Sys2Proof

theorem Raw.getLsbD_pack (r : Raw) (i : Nat) : r.pack.getLsbD i =
    (r.op ++ r.q.g1 ++ r.q.g2 ++ BitVec.ofBool r.q.n1 ++ BitVec.ofBool r.q.n2 ++ r.d ++ r.a ++ r.b ++ r.c ++ r.e ++
      BitVec.ofBool r.q.fa ++ BitVec.ofBool r.q.fb ++ BitVec.ofBool r.q.fc ++ r.q.h ++ BitVec.ofBool r.q.ru).getLsbD i := rfl

theorem Raw.pack_op (r : Raw) : r.pack.extractLsb' 56 8 = r.op := by
  refine BitVec.eq_of_getLsbD_eq fun i hi => ?_
  simp only [BitVec.getLsbD_extractLsb', hi, decide_true, Bool.true_and, Raw.getLsbD_pack, BitVec.getLsbD_append]
  simp (disch := omega) only [if_neg, if_pos]
  congr 1; omega

theorem Raw.pack_g1 (r : Raw) : r.pack.extractLsb' 52 4 = r.q.g1 := by
  refine BitVec.eq_of_getLsbD_eq fun i hi => ?_
  simp only [BitVec.getLsbD_extractLsb', hi, decide_true, Bool.true_and, Raw.getLsbD_pack, BitVec.getLsbD_append]
  simp (disch := omega) only [if_neg, if_pos]
  congr 1; omega

theorem Raw.pack_g2 (r : Raw) : r.pack.extractLsb' 48 4 = r.q.g2 := by
  refine BitVec.eq_of_getLsbD_eq fun i hi => ?_
  simp only [BitVec.getLsbD_extractLsb', hi, decide_true, Bool.true_and, Raw.getLsbD_pack, BitVec.getLsbD_append]
  simp (disch := omega) only [if_neg, if_pos]
  congr 1; omega

theorem Raw.pack_d (r : Raw) : r.pack.extractLsb' 38 8 = r.d := by
  refine BitVec.eq_of_getLsbD_eq fun i hi => ?_
  simp only [BitVec.getLsbD_extractLsb', hi, decide_true, Bool.true_and, Raw.getLsbD_pack, BitVec.getLsbD_append]
  simp (disch := omega) only [if_neg, if_pos]
  congr 1; omega

theorem Raw.pack_a (r : Raw) : r.pack.extractLsb' 30 8 = r.a := by
  refine BitVec.eq_of_getLsbD_eq fun i hi => ?_
  simp only [BitVec.getLsbD_extractLsb', hi, decide_true, Bool.true_and, Raw.getLsbD_pack, BitVec.getLsbD_append]
  simp (disch := omega) only [if_neg, if_pos]
  congr 1; omega

theorem Raw.pack_b (r : Raw) : r.pack.extractLsb' 22 8 = r.b := by
  refine BitVec.eq_of_getLsbD_eq fun i hi => ?_
  simp only [BitVec.getLsbD_extractLsb', hi, decide_true, Bool.true_and, Raw.getLsbD_pack, BitVec.getLsbD_append]
  simp (disch := omega) only [if_neg, if_pos]
  congr 1; omega

theorem Raw.pack_c (r : Raw) : r.pack.extractLsb' 14 8 = r.c := by
  refine BitVec.eq_of_getLsbD_eq fun i hi => ?_
  simp only [BitVec.getLsbD_extractLsb', hi, decide_true, Bool.true_and, Raw.getLsbD_pack, BitVec.getLsbD_append]
  simp (disch := omega) only [if_neg, if_pos]
  congr 1; omega

theorem Raw.pack_e (r : Raw) : r.pack.extractLsb' 6 8 = r.e := by
  refine BitVec.eq_of_getLsbD_eq fun i hi => ?_
  simp only [BitVec.getLsbD_extractLsb', hi, decide_true, Bool.true_and, Raw.getLsbD_pack, BitVec.getLsbD_append]
  simp (disch := omega) only [if_neg, if_pos]
  congr 1; omega

theorem Raw.pack_h (r : Raw) : r.pack.extractLsb' 1 2 = r.q.h := by
  refine BitVec.eq_of_getLsbD_eq fun i hi => ?_
  simp only [BitVec.getLsbD_extractLsb', hi, decide_true, Bool.true_and, Raw.getLsbD_pack, BitVec.getLsbD_append]
  simp (disch := omega) only [if_neg, if_pos]
  congr 1; omega

theorem Raw.pack_n1 (r : Raw) : r.pack.getLsbD 47 = r.q.n1 := by
  simp only [Raw.getLsbD_pack, BitVec.getLsbD_append]
  simp

theorem Raw.pack_n2 (r : Raw) : r.pack.getLsbD 46 = r.q.n2 := by
  simp only [Raw.getLsbD_pack, BitVec.getLsbD_append]
  simp

theorem Raw.pack_fa (r : Raw) : r.pack.getLsbD 5 = r.q.fa := by
  simp only [Raw.getLsbD_pack, BitVec.getLsbD_append]
  simp

theorem Raw.pack_fb (r : Raw) : r.pack.getLsbD 4 = r.q.fb := by
  simp only [Raw.getLsbD_pack, BitVec.getLsbD_append]
  simp

theorem Raw.pack_fc (r : Raw) : r.pack.getLsbD 3 = r.q.fc := by
  simp only [Raw.getLsbD_pack, BitVec.getLsbD_append]
  simp

theorem Raw.pack_ru (r : Raw) : r.pack.getLsbD 0 = r.q.ru := by
  simp only [Raw.getLsbD_pack, BitVec.getLsbD_append]
  simp

theorem Raw.unpack_pack (r : Raw) : Raw.unpack r.pack = r := by
  simp only [Raw.unpack, Raw.pack_op, Raw.pack_g1, Raw.pack_g2, Raw.pack_n1, Raw.pack_n2, Raw.pack_fa, Raw.pack_fb, Raw.pack_fc,
    Raw.pack_h, Raw.pack_ru, Raw.pack_d, Raw.pack_a, Raw.pack_b, Raw.pack_c, Raw.pack_e]

@[simp] theorem Opd.ofCode_code (o : Opd) : Opd.ofCode o.code = .ok o := by
  cases o with
  | g n => simp [Opd.ofCode, Opd.code, Nat.mod_eq_of_lt (Nat.lt_trans n.isLt (by decide : 192 < 256)), n.isLt]
  | k n =>
    have h := n.isLt
    have e : (192 + n.val) % 256 = 192 + n.val := Nat.mod_eq_of_lt (by omega)
    simp [Opd.ofCode, Opd.code, e, h]
  | h n =>
    have h := n.isLt
    have e : (224 + n.val) % 256 = 224 + n.val := Nat.mod_eq_of_lt (by omega)
    have e2 : ¬ 224 + n.val - 192 < 32 := by omega
    have e3 : ¬ 224 + n.val < 192 := by omega
    simp [Opd.ofCode, Opd.code, e, e2, e3, h]
  | _ => simp [Opd.ofCode, Opd.code]

theorem ex_hi {n m : Nat} (x : BitVec n) (y : BitVec m) (i k : Nat) (h : m ≤ i) : (x ++ y).extractLsb' i k = x.extractLsb' (i - m) k := by
  refine BitVec.eq_of_getLsbD_eq fun j hj => ?_
  simp only [BitVec.getLsbD_extractLsb', BitVec.getLsbD_append, hj, decide_true, Bool.true_and]
  rw [if_neg (by omega)]; congr 1; omega
theorem ex_lo {n m : Nat} (x : BitVec n) (y : BitVec m) (i k : Nat) (h : i + k ≤ m) : (x ++ y).extractLsb' i k = y.extractLsb' i k := by
  refine BitVec.eq_of_getLsbD_eq fun j hj => ?_
  simp only [BitVec.getLsbD_extractLsb', BitVec.getLsbD_append, hj, decide_true, Bool.true_and]
  rw [if_pos (by omega)]

/-- Bytes split off a field join to it again. -/
theorem join2 (x : BitVec 16) : (x.extractLsb' 8 8 : Byte) ++ (x.extractLsb' 0 8 : Byte) = x := by
  refine BitVec.eq_of_getLsbD_eq fun j hj => ?_
  simp only [BitVec.getLsbD_append, BitVec.getLsbD_extractLsb']
  split
  · simp [*]
  · have h : j - 8 < 8 := by omega
    simp only [h, decide_true, Bool.true_and]; congr 1; omega
theorem join3 (x : BitVec 24) : (x.extractLsb' 16 8 : Byte) ++ (x.extractLsb' 8 8 : Byte) ++ (x.extractLsb' 0 8 : Byte) = x := by
  refine BitVec.eq_of_getLsbD_eq fun j hj => ?_
  simp only [BitVec.getLsbD_append, BitVec.getLsbD_extractLsb']
  split
  · simp [*]
  · split
    · have h : j - 8 < 8 := by omega
      simp only [h, decide_true, Bool.true_and]; congr 1; omega
    · have h : j - 8 - 8 < 8 := by omega
      simp only [h, decide_true, Bool.true_and]; congr 1; omega
theorem join4 (x : W32) :
    (x.extractLsb' 24 8 : Byte) ++ (x.extractLsb' 16 8 : Byte) ++ (x.extractLsb' 8 8 : Byte) ++ (x.extractLsb' 0 8 : Byte) = x := by
  refine BitVec.eq_of_getLsbD_eq fun j hj => ?_
  simp only [BitVec.getLsbD_append, BitVec.getLsbD_extractLsb']
  split
  · simp [*]
  · split
    · have h : j - 8 < 8 := by omega
      simp only [h, decide_true, Bool.true_and]; congr 1; omega
    · split
      · have h : j - 8 - 8 < 8 := by omega
        simp only [h, decide_true, Bool.true_and]; congr 1; omega
      · have h : j - 8 - 8 - 8 < 8 := by omega
        simp only [h, decide_true, Bool.true_and]; congr 1; omega

theorem bind_ok {ε α β : Type} (a : α) (f : α → Except ε β) : (Except.ok a >>= f) = f a := rfl
theorem unused_ff : unused 0xFF = .ok () := rfl
theorem ezero_zero {n : Nat} : ezero (0 : BitVec n) = .ok () := if_pos rfl
theorem fzero_zero {n : Nat} : fzero (0 : BitVec n) = .ok () := if_pos rfl

@[simp] theorem Rm.ofCode_code (r : Rm) : Rm.ofCode r.code = r := by cases r <;> rfl

/-- The decoder reads the word of a well-formed instruction if it reads its fields. -/
theorem decodeWord_encode {i : Instr} {r : Raw} {w : W64} (hr : i.toRaw = some r) (hi : r.toInstr = .ok i)
    (hw : wellFormed i = true) (he : encode i = some w) : decodeWord w = .ok i := by
  simp only [encode, hr, Option.map_some, Option.some.injEq] at he
  subst he
  simp [decodeWord, Raw.unpack_pack, hi, hw]

end Sys2Proof
end

