-- ==== Sys2Proof/Laws/Device.lean ====
section
/-! SUPPORT. What the device's accesses to die memory leave alone. -/

set_option Elab.async false

namespace Sys2Proof.Machine

theorem writePieces_keeps (s : State) (die : Nat) (tag : Option Nat) (l : List Piece) (bs : List Byte) : Keeps s (s.writePieces die tag l bs) := by
  induction l generalizing s bs with
  | nil => exact Keeps.refl s
  | cons p l ih => exact (Keeps.ite (acceptH_keeps ..) (perform_keeps ..)).trans (ih ..)

/-- A device write whose range translates is made, and meets no fault. -/
theorem devWrite_made {s t : State} {die ctx vdie va : Nat} {bs : List Byte} {l : List Piece} (tag : Option Nat)
    (h : s.devPieces die ctx vdie kindStore (cutRange va bs.length) = (.ok l, t)) :
    s.devWrite die ctx vdie va bs tag =
      (.bytes [], l.foldl (fun s p => s.chargeHbm die p.pa (some ctx)) ((t.readDone (State.hubReader ctx)).writePieces die tag l bs)) := by
  simp only [State.devWrite, h]

/-- The address of a piece translates at once, home has nothing to recall for it or its tables, and the leaf is marked already. -/
def State.settled (s : State) (die ctx vdie kind va : Nat) : Bool :=
  (match (s.walkNow die ctx vdie va kind none).1 with | .hit _ _ => true | _ => false) &&
  s.holders.isEmpty && s.asked.isEmpty && s.pwrites.isEmpty && (s.walkNow die ctx vdie va kind none).2.mem == s.mem

theorem holdersOf_nil {s : State} (h : s.holders = []) (die pa : Nat) : s.holdersOf die pa = [] := by
  simp only [State.holdersOf, h]; rfl
/-- A line that no core holds a partial of is read at once. -/
theorem mayRead_quiet {s : State} (hh : s.holders = []) (ha : s.asked = []) (hp : s.pwrites = []) (who die pa : Nat) :
    s.mayRead who die pa = (true, s) := by
  simp only [State.mayRead, State.recallNow, holdersOf_nil hh, ha, hp, List.foldl_nil]; rfl
/-- A walk that hits changes die memory alone, where no core holds a partial of a table. -/
theorem walkNow_hit {s s' : State} {die ctx vdie va kind : Nat} {v : Option Nat} {leaf : W64} {pa : Nat} (hh : s.holders = [])
    (h : s.walkNow die ctx vdie va kind v = (.hit leaf pa, s')) : s' = { s with mem := s'.mem } := by
  have hq (l : List Nat) : s.recallTables die l = s := recallTables_quiet (by simp [holdersOf_nil hh])
  unfold State.walkNow at h
  simp only [hq] at h
  repeat' split at h
  all_goals have h1 := congrArg (·.1) h
  all_goals have h2 := congrArg (·.2) h
  all_goals dsimp only at h1 h2
  · simp only [reduceCtorEq] at h1
  · simp only [reduceCtorEq] at h1
  · simp only [reduceCtorEq] at h1
  · simp only [reduceCtorEq] at h1
  · rw [← h2]
    rfl
  · exact absurd h1 (‹∀ (leaf : W64) (pa : Nat), transLeaf _ va kind v = .hit leaf pa → False› leaf pa)

theorem settled_walk {s : State} {die ctx vdie kind va : Nat} (h : s.settled die ctx vdie kind va = true) :
    ∃ leaf pa, s.walkNow die ctx vdie va kind none = (.hit leaf pa, s) ∧ ∀ who pa, s.mayRead who die pa = (true, s) := by
  simp only [State.settled, Bool.and_eq_true, beq_iff_eq, List.isEmpty_iff] at h
  generalize e : s.walkNow die ctx vdie va kind none = p at h
  obtain ⟨r, s'⟩ := p
  obtain ⟨⟨⟨⟨h1, hh⟩, ha⟩, hp⟩, h2⟩ := h
  cases r with
  | hit leaf pa =>
    have hs := walkNow_hit hh e
    rw [h2] at hs
    exact ⟨leaf, pa, by rw [hs], fun who pa => mayRead_quiet hh ha hp who die pa⟩
  | _ => exact absurd h1 (by simp)

/-- Where every piece is settled, the range translates and the state is as before. -/
theorem settled_pieces {s : State} {die ctx vdie kind : Nat} {l : List (Nat × Nat)} (h : l.all (fun e => s.settled die ctx vdie kind e.1) = true) :
    ∃ ps, s.devPieces die ctx vdie kind l = (.ok ps, s) := by
  induction l with
  | nil => exact ⟨[], rfl⟩
  | cons e l ih =>
    simp only [List.all_cons, Bool.and_eq_true] at h
    obtain ⟨ps, hp⟩ := ih h.2
    obtain ⟨leaf, pa, hw, hq⟩ := settled_walk h.1
    obtain ⟨va, len⟩ := e
    refine ⟨{ leaf := leaf, pa := pa, len := len } :: ps, ?_⟩
    simp only [State.devPieces, hw, hq, ite_self, hp, Bool.not_true, Bool.false_eq_true, if_false]

theorem chargeAll_keeps (s : State) (die ctx : Nat) (l : List Piece) : Keeps s (l.foldl (fun s p => s.chargeHbm die p.pa (some ctx)) s) :=
  Keeps.foldl (fun _ _ => chargeHbm_keeps ..) l s
theorem readDone_keeps (s : State) (who : Nat) : Keeps s (s.readDone who) := Keeps.of

theorem settled_read {s : State} {die ctx vdie va n : Nat} (h : (cutRange va n).all (fun e => s.settled die ctx vdie kindLoad e.1) = true) :
    ∃ bs t, s.devRead die ctx vdie va n = (.bytes bs, t) ∧ Keeps s t := by
  obtain ⟨ps, hp⟩ := settled_pieces h
  exact ⟨ps.flatMap fun p => s.memRead die p.pa p.len, _, by simp only [State.devRead, hp]; rfl, (readDone_keeps ..).trans (chargeAll_keeps ..)⟩

theorem settled_write {s : State} {die ctx vdie va n : Nat} {bs : List Byte} {tag : Option Nat} (hn : bs.length = n) (h0 : s.stuck = none)
    (h : (cutRange va n).all (fun e => s.settled die ctx vdie kindStore e.1) = true) : ∃ x s1, s.devWrite die ctx vdie va bs tag = (.bytes x, s1) ∧ s1.stuck = none := by
  obtain ⟨ps, hp⟩ := settled_pieces h
  exact ⟨_, _, devWrite_made tag (hn ▸ hp), ((readDone_keeps s _).trans ((writePieces_keeps ..).trans (chargeAll_keeps ..))).sound h0⟩

end Sys2Proof.Machine
end

