-- ==== Sys2Proof/Laws/Flit.lean ====
section
/-! SUPPORT. A flit reads as it was made (R384, R385). -/

set_option Elab.async false

namespace Sys2Proof.Machine

theorem leBytes_length (n v : Nat) : (leBytes n v).length = n := by
  induction n generalizing v with
  | zero => rfl
  | succ n ih => simp only [leBytes, List.length_cons, ih]

theorem leNat_leBytes (n v : Nat) : leNat (leBytes n v) = v % 256 ^ n := by
  induction n generalizing v with
  | zero => simp only [leBytes, leNat, Nat.pow_zero, Nat.mod_one]
  | succ n ih =>
    have h : (BitVec.ofNat 8 v).toNat = v % 256 := BitVec.toNat_ofNat v 8
    rw [leBytes, leNat, ih, h, Nat.pow_succ', Nat.mod_mul]

theorem bytesW64_w64Bytes (w : W64) : bytesW64 (w64Bytes w) = w := by
  simp only [bytesW64, w64Bytes, leNat_leBytes]
  rw [show w.toNat % 256 ^ 8 = w.toNat from Nat.mod_eq_of_lt w.isLt]
  simp only [BitVec.ofNat_toNat, BitVec.setWidth_eq]

theorem not_ne (c : W64) : c ≠ ~~~c := by
  intro h
  have := congrArg (·.getLsbD 0) h
  simp only [BitVec.getLsbD_not] at this
  simp at this

theorem readFlit_made {h : Nat} {p : List Byte} {t : W64} (hp : p.length = 116) (hh : h < 2 ^ 32) :
    readFlit (leBytes 4 h ++ p ++ w64Bytes t) =
      { seq := BitVec.ofNat 12 h, ty := bitsOf h 12 4, ack := if bitOf h 28 then some (BitVec.ofNat 12 (h / 2 ^ 16)) else none, rsv := bitsOf h 29 3 != 0, payload := p, crcOk := t == crc64 (leBytes 4 h ++ p), stomped := t == ~~~crc64 (leBytes 4 h ++ p) } := by
  have hl : (leBytes 4 h ++ p).length = 120 := by rw [List.length_append, leBytes_length, hp]
  have h1 : (leBytes 4 h ++ p ++ w64Bytes t).take 120 = leBytes 4 h ++ p := by rw [← hl, List.take_left]
  have h2 : (leBytes 4 h ++ p ++ w64Bytes t).drop 120 = w64Bytes t := by rw [← hl, List.drop_left]
  have h3 : (leBytes 4 h ++ p ++ w64Bytes t).take 4 = leBytes 4 h := by
    rw [List.append_assoc]; exact List.take_left' (leBytes_length 4 h)
  have h4 : ((leBytes 4 h ++ p ++ w64Bytes t).drop 4).take 116 = p := by
    rw [List.append_assoc, List.drop_left' (leBytes_length 4 h), List.take_left' hp]
  have h5 : leNat (leBytes 4 h) = h := by rw [leNat_leBytes]; exact Nat.mod_eq_of_lt hh
  simp only [readFlit, h1, h2, h3, h4, h5, bytesW64_w64Bytes]

theorem payload_length (payload : List Byte) : ((payload ++ zeros 116).take 116).length = 116 := by
  rw [List.length_take, List.length_append, zeros, List.length_replicate]
  omega

/-- The header that a flit carries. -/
def header (l : Link) (ty : Nat) (seq : BitVec 12) : Nat := seq.toNat + ty * 2 ^ 12 + if l.heard then (l.expSeq - 1).toNat * 2 ^ 16 + 2 ^ 28 else 0

theorem mkFlit_eq (l : Link) (ty : Nat) (seq : BitVec 12) (payload : List Byte) (stomped : Bool) :
    mkFlit l ty seq payload stomped = leBytes 4 (header l ty seq) ++ (payload ++ zeros 116).take 116 ++ w64Bytes (if stomped then ~~~crc64 (leBytes 4 (header l ty seq) ++ (payload ++ zeros 116).take 116) else crc64 (leBytes 4 (header l ty seq) ++ (payload ++ zeros 116).take 116)) := rfl

theorem readFlit_mkFlit (l : Link) (ty : Nat) (seq : BitVec 12) (payload : List Byte) (stomped : Bool) (hh : header l ty seq < 2 ^ 32) :
    readFlit (mkFlit l ty seq payload stomped) =
      { seq := BitVec.ofNat 12 (header l ty seq), ty := bitsOf (header l ty seq) 12 4, ack := if bitOf (header l ty seq) 28 then some (BitVec.ofNat 12 (header l ty seq / 2 ^ 16)) else none, rsv := bitsOf (header l ty seq) 29 3 != 0, payload := (payload ++ zeros 116).take 116, crcOk := !stomped, stomped := stomped } := by
  rw [mkFlit_eq, readFlit_made (payload_length payload) hh]
  generalize crc64 (leBytes 4 (header l ty seq) ++ (payload ++ zeros 116).take 116) = c
  cases stomped with
  | false =>
    have h : (c == ~~~c) = false := beq_eq_false_iff_ne.2 (not_ne c)
    simp only [Bool.false_eq_true, if_false, BEq.rfl, Bool.not_false, h]
  | true =>
    have h : (~~~c == c) = false := beq_eq_false_iff_ne.2 (Ne.symm (not_ne c))
    simp only [if_true, BEq.rfl, Bool.not_true, h]

/-- A flit whose CRC has one wrong bit is bad, and not stomped. -/
theorem readFlit_bad {h : Nat} {p : List Byte} (hp : p.length = 116) (hh : h < 2 ^ 32) :
    (readFlit (leBytes 4 h ++ p ++ w64Bytes (crc64 (leBytes 4 h ++ p) ^^^ 1))).crcOk = false ∧
      (readFlit (leBytes 4 h ++ p ++ w64Bytes (crc64 (leBytes 4 h ++ p) ^^^ 1))).stomped = false := by
  rw [readFlit_made hp hh]
  generalize crc64 (leBytes 4 h ++ p) = c
  refine ⟨beq_eq_false_iff_ne.2 fun h => ?_, beq_eq_false_iff_ne.2 fun h => ?_⟩
  · have := congrArg (·.getLsbD 0) h
    simp at this
  · have := congrArg (·.getLsbD 1) h
    simp at this

theorem mkFlit_length (l : Link) (ty : Nat) (seq : BitVec 12) (payload : List Byte) (stomped : Bool) : (mkFlit l ty seq payload stomped).length = 128 := by
  simp only [mkFlit, List.length_append, leBytes_length, payload_length, w64Bytes]

end Sys2Proof.Machine
end

