-- ==== Sys2Proof/Laws/Once.lean ====
section
/-! SUPPORT. Warp-once instructions (R262) on a single member, engine operations, and what handles, tiles, convergence registers and
the scratchpad leave alone. -/

set_option Elab.async false

namespace Sys2Proof.Machine

/-- A warp-once instruction on a single member is its action, with that member alone. -/
theorem runWarpOnce_alone {i : Instr} {s : State} {ig : IGroup} {m : Self} (h : Alone i s ig m)
    {act : Self → List Nat → State → Verdict × State} {e : State} (hb : act m [m.k] s = (.done, e))
    {probe : Probe} (hx : badSpecial i = false := by rfl) : runWarpOnce i act s probe = finish (settle s.focus ig (((executed [(m.k, Verdict.done)]).foldl (State.chargeThread i.opcode) e).sampleIssue ig
      [(m.k, .done)]) [(m.k, .done)]) := by
  have hr : runMembers i (fun _ s => (.done, s)) probe s [m.k] = (s, [(m.k, .done)]) := by
    simp only [runMembers, runMember_issues h.toMayIssue hx]
  have hk : (if (m.k / 64 == m.k / 64) = true then m.k :: [] else []) = [m.k] := by simp
  simp [runWarpOnce, h.found, h.one, hr, h.self, hb, List.eraseDups_cons, Tbl.find]

theorem runWarpOnce_moved {i : Instr} {s : State} {ig : IGroup} {m : Self} (h : Alone i s ig m)
    {act : Self → List Nat → State → Verdict × State} {e : State} (hb : act m [m.k] s = (.done, e)) (ha : e.alive m.k = true)
    (hs : e.stuck = none) (hf : e.focus = s.focus) {probe : Probe} (hx : badSpecial i = false := by rfl) :
    ∃ t, runWarpOnce i act s probe = .next t ∧ Moved e t ig m := by
  rw [runWarpOnce_alone h hb hx]
  have := runSlot_moved h (body := fun _ _ => (.done, e)) (e := e) rfl ha hs hf hx
  rwa [runSlot, runSlotThen_alone h (v := .done) (e := e) rfl hx] at this

/-- A warp-once instruction acts as its action does on one member. -/
theorem acts_of_once {i : Instr} {act : Self → List Nat → State → Verdict × State} {eff : State → Self → State → Prop}
    {probe : Probe} (he : ∀ s, exec i s = runWarpOnce i act s probe)
    (hb : ∀ s m e, MayIssue i s m → eff s m e → act m [m.k] s = (.done, e) ∧ Keeps s e)
    (hs : badSpecial i = false := by rfl) : Acts i eff := by
  intro s ig m e h hx
  obtain ⟨h1, h2⟩ := hb s m e h.toMayIssue hx
  rw [he]
  exact runWarpOnce_moved h h1 (h2.alive _ h.toMayIssue.alive_self) (h2.sound h.sound) h2.focus hs

/-! ## What the operations leave alone -/

theorem mapThreads_keeps (s : State) (f : Nat × Thread → Nat × Thread) (hk : ∀ e, (f e).1 = e.1)
    (hs : ∀ e, e.2.st ≠ .exited → (f e).2.st ≠ .exited) : Keeps s { s with threads := s.threads.map f } := by
  refine ⟨rfl, rfl, fun k h => ?_, fun h => ⟨h.1, h.2, h.3, h.4⟩⟩
  have key : ∀ t : Tbl Thread, Tbl.find (t.map f) k = (Tbl.find t k).bind fun x => some (f (k, x)).2 := by
    intro t
    induction t with
    | nil => rfl
    | cons e t ih =>
      obtain ⟨j, x⟩ := e
      have : f (j, x) = (j, (f (j, x)).2) := Prod.ext (hk (j, x)) rfl
      simp only [List.map_cons]
      rw [this]
      simp only [Tbl.find]
      by_cases hj : k = j
      · subst hj; simp
      · simp [hj, ih]
  simp only [State.alive, key] at h ⊢
  cases hx : s.threads.find k with
  | none => simp [hx] at h
  | some t =>
    simp only [hx, bne_iff_ne, ne_eq] at h
    simpa using hs (k, t) h

theorem dropGrant_keeps (s : State) (m : Self) : Keeps s (s.dropGrant m) := by
  refine mapThreads_keeps s _ (fun e => ?_) fun e h => ?_
  · split <;> rfl
  · split <;> exact h

theorem grantWaiters_keeps (s : State) (die core kind : Nat) (free : State → Nat) (n : Nat) :
    Keeps s (s.grantWaiters die core kind free n) := by
  induction n generalizing s with
  | zero => exact Keeps.refl s
  | succ n ih =>
    simp only [State.grantWaiters]
    split
    · exact Keeps.refl s
    · split
      · exact Keeps.refl s
      · refine Keeps.trans ?_ (ih _)
        exact Keeps.foldl (fun _ _ => Keeps.trans (updThread_keeps ..) (ready_keeps ..)) _ _

theorem serveTiles_keeps (s : State) (die core : Nat) : Keeps s (s.serveTiles die core) := grantWaiters_keeps ..
theorem putBack_keeps (s : State) (die core : Nat) : Keeps s (s.putBack die core) := Keeps.foldl (fun _ _ => Keeps.of) _ s
theorem serveRoom_keeps (s : State) (die core : Nat) : Keeps s (s.serveRoom die core) :=
  (putBack_keeps s die core).trans (Keeps.ite (grantWaiters_keeps ..) (Keeps.refl _))
theorem useRoom_keeps (s : State) (m : Self) : Keeps s (s.useRoom m) :=
  Keeps.ite ((dropGrant_keeps ..).trans (serveRoom_keeps ..)) (Keeps.refl s)
theorem useRoom_none {s : State} {m : Self} (h : m.t.grant ≠ waitEngine) : s.useRoom m = s := by simp [State.useRoom, h]

theorem setHandle_keeps (s : State) (gid h : Nat) (x : Handle) : Keeps s (s.setHandle gid h x) := Keeps.of
theorem updTile_keeps (s : State) (die core t : Nat) (f : Tile → Tile) : Keeps s (s.updTile die core t f) := Keeps.of
theorem setCv_keeps (s : State) (gid c : Nat) (x : Cv) : Keeps s (s.setCv gid c x) := Keeps.of
theorem accSet_keeps (s : State) (gid r c : Nat) (v : W32) : Keeps s (s.accSet gid r c v) := Keeps.of
theorem enqueueOp_keeps (s : State) (o : MOp) : Keeps s (s.enqueueOp o) := Keeps.of
theorem countOp_keeps (s : State) (w c o : Nat) : Keeps s (s.countOp w c o).2 := Keeps.of
theorem setPreds_keeps (s : State) (ks : List Nat) (p : PredNo) (b : Bool) : Keeps s (setPreds s ks p b) :=
  Keeps.foldl (fun _ _ => updThread_keeps _ _ _ fun t h => by
    simpa [Thread.st_of_frame (Thread.setPred_frame t p b)] using h) _ _
theorem addOp_keeps (s : State) (i : Instr) (m : Self) (pc : W64) (l : List Nat) (h : Option Nat) (ts : List Transfer) :
    Keeps s (s.addOp i m pc l h ts).2 := Keeps.of

theorem returnTile_keeps (s : State) (die core t : Nat) : Keeps s (s.returnTile die core t) :=
  Keeps.ite (Keeps.refl s) (Keeps.trans (t := { s with tiles := s.tiles.del (tileKey die core t) }) Keeps.of (serveTiles_keeps ..))

theorem wakeScore_keeps (s : State) (die core : Nat) : Keeps s (s.wakeScore die core) := wakeAll_keeps ..

theorem endUser_keeps (s : State) (die core op : Nat) : Keeps s (s.endUser die core op) := by
  simp only [State.endUser]
  refine Keeps.foldl (fun s t => ?_) _ _
  refine Keeps.trans ?_ (wakeScore_keeps ..)
  refine Keeps.trans ?_ (returnTile_keeps ..)
  exact Keeps.of

theorem releaseName_keeps (s : State) (gid h : Nat) : Keeps s (s.releaseName gid h) := by
  simp only [State.releaseName]
  split
  · exact Keeps.refl s
  · refine Keeps.trans ?_ (wakeScore_keeps ..)
    split
    · exact setHandle_keeps ..
    · exact Keeps.ite (setHandle_keeps ..) ((setHandle_keeps ..).trans (returnTile_keeps ..))

theorem wakeCounters_keeps (s : State) (wid : Nat) : Keeps s (s.wakeCounters wid) := by
  simp only [State.wakeCounters]
  split
  · exact Keeps.refl s
  · exact Keeps.foldl (fun _ _ => wakeIf_keeps ..) _ _

theorem reportWarp_keeps (s : State) (wid : Nat) : Keeps s (s.reportWarp wid) := by
  simp only [State.reportWarp]
  split
  · exact Keeps.refl s
  · split
    · exact Keeps.refl s
    · refine Keeps.trans ?_ (wakeAll_keeps ..)
      refine Keeps.trans ?_ (wakeCounters_keeps ..)
      refine Keeps.trans (setWarp_keeps ..) (Keeps.foldl (fun _ d => updThread_keeps _ _ _ fun t h => ?_) _ _)
      split
      · exact h
      · exact h

theorem completeSeqs_keeps (s : State) (wid : Nat) (seqs : List Nat) (defer : List (Nat × Cause × W32)) :
    Keeps s (s.completeSeqs wid seqs defer) := Keeps.trans (updWarp_keeps ..) (reportWarp_keeps ..)

theorem passGen_keeps (s : State) (gid c : Nat) (gen : W32) : Keeps s (s.passGen gid c gen) :=
  Keeps.trans Keeps.of (wakeAll_keeps ..)
theorem fireCv_keeps (s : State) (gid c : Nat) : Keeps s (s.fireCv gid c) := by
  simp only [State.fireCv]
  refine Keeps.trans ?_ (passGen_keeps ..)
  split
  · exact (setCv_keeps ..).trans (enqueueOp_keeps ..)
  · exact setCv_keeps ..
theorem countSig_keeps (s : State) (gid c n : Nat) : Keeps s (s.countSig gid c n) := by
  unfold State.countSig
  exact Keeps.ite ((setCv_keeps ..).trans (fireCv_keeps ..)) (setCv_keeps ..)

/-! ## The scratchpad -/

theorem setTag_keeps (s : State) (gid w : Nat) (full : Bool) : Keeps s (s.setTag gid w full) := Keeps.of

theorem performWait_keeps (s : State) (gid : Nat) (w : TagWait) : Keeps s (s.performWait gid w) := by
  have done (s : State) : Keeps s ((s.updThread w.thread fun t => { t with waitDone := true }).wakeIf (fun x => x.kind == waitTag) w.thread) :=
    (updThread_keeps ..).trans (wakeIf_keeps ..)
  simp only [State.performWait]
  split
  · exact ((updGroup_keeps ..).trans (complete_keeps ..)).trans (wakeIf_keeps ..)
  · exact ((updGroup_keeps ..).trans ((updGroup_keeps ..).trans (setTag_keeps ..))).trans (done _)
  · have h1 : Keeps s (if w.kind = 1 then (s.updGroup gid fun g => { g with tagWaits := g.tagWaits.filter fun x => x != w }).setTag gid w.word false
        else s.updGroup gid fun g => { g with tagWaits := g.tagWaits.filter fun x => x != w }) :=
      Keeps.ite ((updGroup_keeps ..).trans (setTag_keeps ..)) (updGroup_keeps ..)
    generalize (if w.kind = 1 then (s.updGroup gid fun g => { g with tagWaits := g.tagWaits.filter fun x => x != w }).setTag gid w.word false
        else s.updGroup gid fun g => { g with tagWaits := g.tagWaits.filter fun x => x != w }) = x at h1
    split
    · exact h1
    · refine h1.trans (Keeps.trans ?_ (done _))
      exact Keeps.trans (t := { x with nextId := x.nextId + 1 }) Keeps.of
        (Keeps.trans Keeps.of (updThread_keeps ..))

theorem settleWord_keeps (s : State) (gid word n : Nat) : Keeps s (s.settleWord gid word n) := by
  induction n generalizing s with
  | zero => exact Keeps.refl s
  | succ n ih =>
    simp only [State.settleWord]
    split
    · exact Keeps.refl s
    · split
      · exact Keeps.refl s
      · exact (performWait_keeps ..).trans (ih _)
theorem settleWords_keeps (s : State) (gid : Nat) (ws : List Nat) : Keeps s (s.settleWords gid ws) := by
  refine Keeps.foldl (fun s w => ?_) _ _
  split
  · exact Keeps.ite (settleWord_keeps ..) (Keeps.refl s)
  · exact Keeps.refl s
theorem spadWrite_keeps (s : State) (gid off : Nat) (bs : List Byte) : Keeps s (s.spadWrite gid off bs) :=
  (updGroup_keeps ..).trans (settleWords_keeps ..)
theorem arrive_keeps {s e : State} {gid off n : Nat} (h : s.arrive gid off n = some e) : Keeps s e := by
  simp only [State.arrive] at h
  split at h
  · cases h
  · cases h
    refine Keeps.trans ?_ (settleWords_keeps ..)
    exact Keeps.ite (updGroup_keeps ..) ((updGroup_keeps ..).trans (setTag_keeps ..))

theorem enterStation_keeps {s e : State} {die core gid w : Nat} {c : Cont} (h : s.enterStation die core gid w c = some e) : Keeps s e := by
  simp only [State.enterStation] at h
  split at h
  · split at h
    · cases h; exact setCore_keeps ..
    · cases h
  · split at h
    · cases h
    · cases h; exact setCore_keeps ..

theorem endWait_keeps (s : State) (k kind : Nat) : Keeps s (s.endWait k kind) :=
  (updThread_keeps ..).trans (wakeIf_keeps ..)

end Sys2Proof.Machine
end

