-- ==== Sys2Proof/Laws/PerInstr.lean ====
section
/-! SUPPORT. The decoder reads back the word that the encoder writes, constructor by constructor (R72). A step that has no
word has nothing to read back. -/

set_option linter.unusedSimpArgs false

set_option Elab.async false

namespace Sys2Proof.Laws.RoundTrip

def Statement (i : Instr) : Prop := wellFormed i = true → ∀ w : W64, encode i = some w → decodeWord w = .ok i

theorem nop : ∀ q, Statement (.nop q) := by
  intro q
  intro hw w he
  exact decodeWord_encode rfl (by
    simp only [Raw.toInstr, decodeOps0, bind_ok, Opd.ofCode_code, BitVec.reduceToNat, Nat.reduceLeDiff, Nat.reduceLT, false_and, and_false, if_false, if_true, unused_ff, ezero_zero, fzero_zero, Rm.ofCode_code]) hw he

theorem mov : ∀ q d a wide, Statement (.mov q d a wide) := by
  intro q d a wide
  have h0 : ((((0 : BitVec 7) ++ BitVec.ofBool wide) : Byte).getLsbD 0) = wide := by decide +revert
  have h1 : ((((0 : BitVec 7) ++ BitVec.ofBool wide) : Byte).extractLsb' 1 7) = 0 := by decide +revert
  intro hw w he
  exact decodeWord_encode rfl (by
    simp only [Raw.toInstr, decodeOps0, bind_ok, Opd.ofCode_code, BitVec.reduceToNat, Nat.reduceLeDiff, Nat.reduceLT, false_and, and_false, if_false, if_true, unused_ff, ezero_zero, fzero_zero, Rm.ofCode_code, h0, h1]) hw he

theorem movi : ∀ q d imm, Statement (.movi q d imm) := by
  intro q d imm
  have h0 : ((imm.extractLsb' 16 8 : Byte) ++ (imm.extractLsb' 8 8 : Byte) ++ (imm.extractLsb' 0 8 : Byte)) = imm := by exact join3 _
  intro hw w he
  exact decodeWord_encode rfl (by
    simp only [Raw.toInstr, decodeOps0, bind_ok, Opd.ofCode_code, BitVec.reduceToNat, Nat.reduceLeDiff, Nat.reduceLT, false_and, and_false, if_false, if_true, unused_ff, ezero_zero, fzero_zero, Rm.ofCode_code, h0]) hw he

theorem movk : ∀ q d imm, Statement (.movk q d imm) := by
  intro q d imm
  have h0 : ((imm.extractLsb' 24 8 : Byte) ++ (imm.extractLsb' 16 8 : Byte) ++ (imm.extractLsb' 8 8 : Byte) ++ (imm.extractLsb' 0 8 : Byte)) = imm := by exact join4 _
  intro hw w he
  exact decodeWord_encode rfl (by
    simp only [Raw.toInstr, decodeOps0, bind_ok, Opd.ofCode_code, BitVec.reduceToNat, Nat.reduceLeDiff, Nat.reduceLT, false_and, and_false, if_false, if_true, unused_ff, ezero_zero, fzero_zero, Rm.ofCode_code, h0]) hw he

theorem iadd : ∀ q d a b sat, Statement (.iadd q d a b sat) := by
  intro q d a b sat
  have h0 : ((((0 : BitVec 6) ++ sat) : Byte).extractLsb' 0 2) = sat := by decide +revert
  have h1 : ((((0 : BitVec 6) ++ sat) : Byte).extractLsb' 2 6) = 0 := by decide +revert
  intro hw w he
  exact decodeWord_encode rfl (by
    simp only [Raw.toInstr, decodeOps0, bind_ok, Opd.ofCode_code, BitVec.reduceToNat, Nat.reduceLeDiff, Nat.reduceLT, false_and, and_false, if_false, if_true, unused_ff, ezero_zero, fzero_zero, Rm.ofCode_code, h0, h1]) hw he

theorem isub : ∀ q d a b sat, Statement (.isub q d a b sat) := by
  intro q d a b sat
  have h0 : ((((0 : BitVec 6) ++ sat) : Byte).extractLsb' 0 2) = sat := by decide +revert
  have h1 : ((((0 : BitVec 6) ++ sat) : Byte).extractLsb' 2 6) = 0 := by decide +revert
  intro hw w he
  exact decodeWord_encode rfl (by
    simp only [Raw.toInstr, decodeOps0, bind_ok, Opd.ofCode_code, BitVec.reduceToNat, Nat.reduceLeDiff, Nat.reduceLT, false_and, and_false, if_false, if_true, unused_ff, ezero_zero, fzero_zero, Rm.ofCode_code, h0, h1]) hw he

theorem iaddi : ∀ q d a imm, Statement (.iaddi q d a imm) := by
  intro q d a imm
  have h0 : ((imm.extractLsb' 16 8 : Byte) ++ (imm.extractLsb' 8 8 : Byte) ++ (imm.extractLsb' 0 8 : Byte)) = imm := by exact join3 _
  intro hw w he
  exact decodeWord_encode rfl (by
    simp only [Raw.toInstr, decodeOps0, bind_ok, Opd.ofCode_code, BitVec.reduceToNat, Nat.reduceLeDiff, Nat.reduceLT, false_and, and_false, if_false, if_true, unused_ff, ezero_zero, fzero_zero, Rm.ofCode_code, h0]) hw he

theorem imul : ∀ q d a b, Statement (.imul q d a b) := by
  intro q d a b
  intro hw w he
  exact decodeWord_encode rfl (by
    simp only [Raw.toInstr, decodeOps0, bind_ok, Opd.ofCode_code, BitVec.reduceToNat, Nat.reduceLeDiff, Nat.reduceLT, false_and, and_false, if_false, if_true, unused_ff, ezero_zero, fzero_zero, Rm.ofCode_code]) hw he

theorem imulh : ∀ q d a b ty, Statement (.imulh q d a b ty) := by
  intro q d a b ty
  have h0 : ((((0 : BitVec 6) ++ ty) : Byte).extractLsb' 0 2) = ty := by decide +revert
  have h1 : ((((0 : BitVec 6) ++ ty) : Byte).extractLsb' 2 6) = 0 := by decide +revert
  intro hw w he
  exact decodeWord_encode rfl (by
    simp only [Raw.toInstr, decodeOps0, bind_ok, Opd.ofCode_code, BitVec.reduceToNat, Nat.reduceLeDiff, Nat.reduceLT, false_and, and_false, if_false, if_true, unused_ff, ezero_zero, fzero_zero, Rm.ofCode_code, h0, h1]) hw he

theorem imad : ∀ q d a b c, Statement (.imad q d a b c) := by
  intro q d a b c
  intro hw w he
  exact decodeWord_encode rfl (by
    simp only [Raw.toInstr, decodeOps0, bind_ok, Opd.ofCode_code, BitVec.reduceToNat, Nat.reduceLeDiff, Nat.reduceLT, false_and, and_false, if_false, if_true, unused_ff, ezero_zero, fzero_zero, Rm.ofCode_code]) hw he

theorem imadw : ∀ q d a b c ty, Statement (.imadw q d a b c ty) := by
  intro q d a b c ty
  have h0 : ((((0 : BitVec 6) ++ ty) : Byte).extractLsb' 0 2) = ty := by decide +revert
  have h1 : ((((0 : BitVec 6) ++ ty) : Byte).extractLsb' 2 6) = 0 := by decide +revert
  intro hw w he
  exact decodeWord_encode rfl (by
    simp only [Raw.toInstr, decodeOps0, bind_ok, Opd.ofCode_code, BitVec.reduceToNat, Nat.reduceLeDiff, Nat.reduceLT, false_and, and_false, if_false, if_true, unused_ff, ezero_zero, fzero_zero, Rm.ofCode_code, h0, h1]) hw he

theorem idiv : ∀ q d a b uns, Statement (.idiv q d a b uns) := by
  intro q d a b uns
  have h0 : ((((0 : BitVec 7) ++ BitVec.ofBool uns) : Byte).getLsbD 0) = uns := by decide +revert
  have h1 : ((((0 : BitVec 7) ++ BitVec.ofBool uns) : Byte).extractLsb' 1 7) = 0 := by decide +revert
  intro hw w he
  exact decodeWord_encode rfl (by
    simp only [Raw.toInstr, decodeOps0, bind_ok, Opd.ofCode_code, BitVec.reduceToNat, Nat.reduceLeDiff, Nat.reduceLT, false_and, and_false, if_false, if_true, unused_ff, ezero_zero, fzero_zero, Rm.ofCode_code, h0, h1]) hw he

theorem irem : ∀ q d a b uns, Statement (.irem q d a b uns) := by
  intro q d a b uns
  have h0 : ((((0 : BitVec 7) ++ BitVec.ofBool uns) : Byte).getLsbD 0) = uns := by decide +revert
  have h1 : ((((0 : BitVec 7) ++ BitVec.ofBool uns) : Byte).extractLsb' 1 7) = 0 := by decide +revert
  intro hw w he
  exact decodeWord_encode rfl (by
    simp only [Raw.toInstr, decodeOps0, bind_ok, Opd.ofCode_code, BitVec.reduceToNat, Nat.reduceLeDiff, Nat.reduceLT, false_and, and_false, if_false, if_true, unused_ff, ezero_zero, fzero_zero, Rm.ofCode_code, h0, h1]) hw he

theorem imin : ∀ q d a b uns, Statement (.imin q d a b uns) := by
  intro q d a b uns
  have h0 : ((((0 : BitVec 7) ++ BitVec.ofBool uns) : Byte).getLsbD 0) = uns := by decide +revert
  have h1 : ((((0 : BitVec 7) ++ BitVec.ofBool uns) : Byte).extractLsb' 1 7) = 0 := by decide +revert
  intro hw w he
  exact decodeWord_encode rfl (by
    simp only [Raw.toInstr, decodeOps0, bind_ok, Opd.ofCode_code, BitVec.reduceToNat, Nat.reduceLeDiff, Nat.reduceLT, false_and, and_false, if_false, if_true, unused_ff, ezero_zero, fzero_zero, Rm.ofCode_code, h0, h1]) hw he

theorem imax : ∀ q d a b uns, Statement (.imax q d a b uns) := by
  intro q d a b uns
  have h0 : ((((0 : BitVec 7) ++ BitVec.ofBool uns) : Byte).getLsbD 0) = uns := by decide +revert
  have h1 : ((((0 : BitVec 7) ++ BitVec.ofBool uns) : Byte).extractLsb' 1 7) = 0 := by decide +revert
  intro hw w he
  exact decodeWord_encode rfl (by
    simp only [Raw.toInstr, decodeOps0, bind_ok, Opd.ofCode_code, BitVec.reduceToNat, Nat.reduceLeDiff, Nat.reduceLT, false_and, and_false, if_false, if_true, unused_ff, ezero_zero, fzero_zero, Rm.ofCode_code, h0, h1]) hw he

theorem iabs : ∀ q d a sat, Statement (.iabs q d a sat) := by
  intro q d a sat
  have h0 : ((((0 : BitVec 7) ++ BitVec.ofBool sat) : Byte).getLsbD 0) = sat := by decide +revert
  have h1 : ((((0 : BitVec 7) ++ BitVec.ofBool sat) : Byte).extractLsb' 1 7) = 0 := by decide +revert
  intro hw w he
  exact decodeWord_encode rfl (by
    simp only [Raw.toInstr, decodeOps0, bind_ok, Opd.ofCode_code, BitVec.reduceToNat, Nat.reduceLeDiff, Nat.reduceLT, false_and, and_false, if_false, if_true, unused_ff, ezero_zero, fzero_zero, Rm.ofCode_code, h0, h1]) hw he

theorem ineg : ∀ q d a sat, Statement (.ineg q d a sat) := by
  intro q d a sat
  have h0 : ((((0 : BitVec 7) ++ BitVec.ofBool sat) : Byte).getLsbD 0) = sat := by decide +revert
  have h1 : ((((0 : BitVec 7) ++ BitVec.ofBool sat) : Byte).extractLsb' 1 7) = 0 := by decide +revert
  intro hw w he
  exact decodeWord_encode rfl (by
    simp only [Raw.toInstr, decodeOps0, bind_ok, Opd.ofCode_code, BitVec.reduceToNat, Nat.reduceLeDiff, Nat.reduceLT, false_and, and_false, if_false, if_true, unused_ff, ezero_zero, fzero_zero, Rm.ofCode_code, h0, h1]) hw he

theorem shl : ∀ q d a b, Statement (.shl q d a b) := by
  intro q d a b
  intro hw w he
  exact decodeWord_encode rfl (by
    simp only [Raw.toInstr, decodeOps0, bind_ok, Opd.ofCode_code, BitVec.reduceToNat, Nat.reduceLeDiff, Nat.reduceLT, false_and, and_false, if_false, if_true, unused_ff, ezero_zero, fzero_zero, Rm.ofCode_code]) hw he

theorem shr : ∀ q d a b ar, Statement (.shr q d a b ar) := by
  intro q d a b ar
  have h0 : ((((0 : BitVec 7) ++ BitVec.ofBool ar) : Byte).getLsbD 0) = ar := by decide +revert
  have h1 : ((((0 : BitVec 7) ++ BitVec.ofBool ar) : Byte).extractLsb' 1 7) = 0 := by decide +revert
  intro hw w he
  exact decodeWord_encode rfl (by
    simp only [Raw.toInstr, decodeOps0, bind_ok, Opd.ofCode_code, BitVec.reduceToNat, Nat.reduceLeDiff, Nat.reduceLT, false_and, and_false, if_false, if_true, unused_ff, ezero_zero, fzero_zero, Rm.ofCode_code, h0, h1]) hw he

theorem rot : ∀ q d a b right, Statement (.rot q d a b right) := by
  intro q d a b right
  have h0 : ((((0 : BitVec 7) ++ BitVec.ofBool right) : Byte).getLsbD 0) = right := by decide +revert
  have h1 : ((((0 : BitVec 7) ++ BitVec.ofBool right) : Byte).extractLsb' 1 7) = 0 := by decide +revert
  intro hw w he
  exact decodeWord_encode rfl (by
    simp only [Raw.toInstr, decodeOps0, bind_ok, Opd.ofCode_code, BitVec.reduceToNat, Nat.reduceLeDiff, Nat.reduceLT, false_and, and_false, if_false, if_true, unused_ff, ezero_zero, fzero_zero, Rm.ofCode_code, h0, h1]) hw he

theorem iadd64 : ∀ q d a b, Statement (.iadd64 q d a b) := by
  intro q d a b
  intro hw w he
  exact decodeWord_encode rfl (by
    simp only [Raw.toInstr, decodeOps0, bind_ok, Opd.ofCode_code, BitVec.reduceToNat, Nat.reduceLeDiff, Nat.reduceLT, false_and, and_false, if_false, if_true, unused_ff, ezero_zero, fzero_zero, Rm.ofCode_code]) hw he

theorem isub64 : ∀ q d a b, Statement (.isub64 q d a b) := by
  intro q d a b
  intro hw w he
  exact decodeWord_encode rfl (by
    simp only [Raw.toInstr, decodeOps0, bind_ok, Opd.ofCode_code, BitVec.reduceToNat, Nat.reduceLeDiff, Nat.reduceLT, false_and, and_false, if_false, if_true, unused_ff, ezero_zero, fzero_zero, Rm.ofCode_code]) hw he

theorem shl64 : ∀ q d a b, Statement (.shl64 q d a b) := by
  intro q d a b
  intro hw w he
  exact decodeWord_encode rfl (by
    simp only [Raw.toInstr, decodeOps0, bind_ok, Opd.ofCode_code, BitVec.reduceToNat, Nat.reduceLeDiff, Nat.reduceLT, false_and, and_false, if_false, if_true, unused_ff, ezero_zero, fzero_zero, Rm.ofCode_code]) hw he

theorem shr64 : ∀ q d a b ar, Statement (.shr64 q d a b ar) := by
  intro q d a b ar
  have h0 : ((((0 : BitVec 7) ++ BitVec.ofBool ar) : Byte).getLsbD 0) = ar := by decide +revert
  have h1 : ((((0 : BitVec 7) ++ BitVec.ofBool ar) : Byte).extractLsb' 1 7) = 0 := by decide +revert
  intro hw w he
  exact decodeWord_encode rfl (by
    simp only [Raw.toInstr, decodeOps0, bind_ok, Opd.ofCode_code, BitVec.reduceToNat, Nat.reduceLeDiff, Nat.reduceLT, false_and, and_false, if_false, if_true, unused_ff, ezero_zero, fzero_zero, Rm.ofCode_code, h0, h1]) hw he

theorem lop3 : ∀ q d a b c lut, Statement (.lop3 q d a b c lut) := by
  intro q d a b c lut
  intro hw w he
  exact decodeWord_encode rfl (by
    simp only [Raw.toInstr, decodeOps0, bind_ok, Opd.ofCode_code, BitVec.reduceToNat, Nat.reduceLeDiff, Nat.reduceLT, false_and, and_false, if_false, if_true, unused_ff, ezero_zero, fzero_zero, Rm.ofCode_code]) hw he

theorem bfx : ∀ q d a b sx, Statement (.bfx q d a b sx) := by
  intro q d a b sx
  have h0 : ((((0 : BitVec 7) ++ BitVec.ofBool sx) : Byte).getLsbD 0) = sx := by decide +revert
  have h1 : ((((0 : BitVec 7) ++ BitVec.ofBool sx) : Byte).extractLsb' 1 7) = 0 := by decide +revert
  intro hw w he
  exact decodeWord_encode rfl (by
    simp only [Raw.toInstr, decodeOps0, bind_ok, Opd.ofCode_code, BitVec.reduceToNat, Nat.reduceLeDiff, Nat.reduceLT, false_and, and_false, if_false, if_true, unused_ff, ezero_zero, fzero_zero, Rm.ofCode_code, h0, h1]) hw he

theorem bfi : ∀ q d a b c, Statement (.bfi q d a b c) := by
  intro q d a b c
  intro hw w he
  exact decodeWord_encode rfl (by
    simp only [Raw.toInstr, decodeOps0, bind_ok, Opd.ofCode_code, BitVec.reduceToNat, Nat.reduceLeDiff, Nat.reduceLT, false_and, and_false, if_false, if_true, unused_ff, ezero_zero, fzero_zero, Rm.ofCode_code]) hw he

theorem brev : ∀ q d a, Statement (.brev q d a) := by
  intro q d a
  intro hw w he
  exact decodeWord_encode rfl (by
    simp only [Raw.toInstr, decodeOps0, bind_ok, Opd.ofCode_code, BitVec.reduceToNat, Nat.reduceLeDiff, Nat.reduceLT, false_and, and_false, if_false, if_true, unused_ff, ezero_zero, fzero_zero, Rm.ofCode_code]) hw he

theorem popc : ∀ q d a, Statement (.popc q d a) := by
  intro q d a
  intro hw w he
  exact decodeWord_encode rfl (by
    simp only [Raw.toInstr, decodeOps0, bind_ok, Opd.ofCode_code, BitVec.reduceToNat, Nat.reduceLeDiff, Nat.reduceLT, false_and, and_false, if_false, if_true, unused_ff, ezero_zero, fzero_zero, Rm.ofCode_code]) hw he

theorem clz : ∀ q d a, Statement (.clz q d a) := by
  intro q d a
  intro hw w he
  exact decodeWord_encode rfl (by
    simp only [Raw.toInstr, decodeOps0, bind_ok, Opd.ofCode_code, BitVec.reduceToNat, Nat.reduceLeDiff, Nat.reduceLT, false_and, and_false, if_false, if_true, unused_ff, ezero_zero, fzero_zero, Rm.ofCode_code]) hw he

theorem ctz : ∀ q d a, Statement (.ctz q d a) := by
  intro q d a
  intro hw w he
  exact decodeWord_encode rfl (by
    simp only [Raw.toInstr, decodeOps0, bind_ok, Opd.ofCode_code, BitVec.reduceToNat, Nat.reduceLeDiff, Nat.reduceLT, false_and, and_false, if_false, if_true, unused_ff, ezero_zero, fzero_zero, Rm.ofCode_code]) hw he

theorem prmt : ∀ q d a b c, Statement (.prmt q d a b c) := by
  intro q d a b c
  intro hw w he
  exact decodeWord_encode rfl (by
    simp only [Raw.toInstr, decodeOps0, bind_ok, Opd.ofCode_code, BitVec.reduceToNat, Nat.reduceLeDiff, Nat.reduceLT, false_and, and_false, if_false, if_true, unused_ff, ezero_zero, fzero_zero, Rm.ofCode_code]) hw he

theorem icmp : ∀ q pd pq a b cc uns w64, Statement (.icmp q pd pq a b cc uns w64) := by
  intro q pd pq a b cc uns w64
  have h0 : (((pq ++ pd) : Byte).extractLsb' 0 4) = pd := by decide +revert
  have h1 : (((pq ++ pd) : Byte).extractLsb' 4 4) = pq := by decide +revert
  have h2 : ((((0 : BitVec 3) ++ BitVec.ofBool w64 ++ BitVec.ofBool uns ++ cc) : Byte).extractLsb' 0 3) = cc := by decide +revert
  have h3 : ((((0 : BitVec 3) ++ BitVec.ofBool w64 ++ BitVec.ofBool uns ++ cc) : Byte).getLsbD 3) = uns := by decide +revert
  have h4 : ((((0 : BitVec 3) ++ BitVec.ofBool w64 ++ BitVec.ofBool uns ++ cc) : Byte).getLsbD 4) = w64 := by decide +revert
  have h5 : ((((0 : BitVec 3) ++ BitVec.ofBool w64 ++ BitVec.ofBool uns ++ cc) : Byte).extractLsb' 5 3) = 0 := by decide +revert
  intro hw w he
  exact decodeWord_encode rfl (by
    simp only [Raw.toInstr, decodeOps2, bind_ok, Opd.ofCode_code, BitVec.reduceToNat, Nat.reduceLeDiff, Nat.reduceLT, false_and, and_false, if_false, if_true, unused_ff, ezero_zero, fzero_zero, Rm.ofCode_code, h0, h1, h2, h3, h4, h5]) hw he

theorem icmpi : ∀ q pd pq a imm cc uns w64, Statement (.icmpi q pd pq a imm cc uns w64) := by
  intro q pd pq a imm cc uns w64
  have h0 : (((pq ++ pd) : Byte).extractLsb' 0 4) = pd := by decide +revert
  have h1 : (((pq ++ pd) : Byte).extractLsb' 4 4) = pq := by decide +revert
  have h2 : ((imm.extractLsb' 8 8 : Byte) ++ (imm.extractLsb' 0 8 : Byte)) = imm := by exact join2 _
  have h3 : ((((0 : BitVec 3) ++ BitVec.ofBool w64 ++ BitVec.ofBool uns ++ cc) : Byte).extractLsb' 0 3) = cc := by decide +revert
  have h4 : ((((0 : BitVec 3) ++ BitVec.ofBool w64 ++ BitVec.ofBool uns ++ cc) : Byte).getLsbD 3) = uns := by decide +revert
  have h5 : ((((0 : BitVec 3) ++ BitVec.ofBool w64 ++ BitVec.ofBool uns ++ cc) : Byte).getLsbD 4) = w64 := by decide +revert
  have h6 : ((((0 : BitVec 3) ++ BitVec.ofBool w64 ++ BitVec.ofBool uns ++ cc) : Byte).extractLsb' 5 3) = 0 := by decide +revert
  intro hw w he
  exact decodeWord_encode rfl (by
    simp only [Raw.toInstr, decodeOps2, bind_ok, Opd.ofCode_code, BitVec.reduceToNat, Nat.reduceLeDiff, Nat.reduceLT, false_and, and_false, if_false, if_true, unused_ff, ezero_zero, fzero_zero, Rm.ofCode_code, h0, h1, h2, h3, h4, h5, h6]) hw he

theorem fcmp : ∀ q pd pq a b cc, Statement (.fcmp q pd pq a b cc) := by
  intro q pd pq a b cc
  have h0 : (((pq ++ pd) : Byte).extractLsb' 0 4) = pd := by decide +revert
  have h1 : (((pq ++ pd) : Byte).extractLsb' 4 4) = pq := by decide +revert
  have h2 : ((((0 : BitVec 5) ++ cc) : Byte).extractLsb' 0 3) = cc := by decide +revert
  have h3 : ((((0 : BitVec 5) ++ cc) : Byte).extractLsb' 3 5) = 0 := by decide +revert
  intro hw w he
  exact decodeWord_encode rfl (by
    simp only [Raw.toInstr, decodeOps2, bind_ok, Opd.ofCode_code, BitVec.reduceToNat, Nat.reduceLeDiff, Nat.reduceLT, false_and, and_false, if_false, if_true, unused_ff, ezero_zero, fzero_zero, Rm.ofCode_code, h0, h1, h2, h3]) hw he

theorem hcmp2 : ∀ q plo phi a b cc bf, Statement (.hcmp2 q plo phi a b cc bf) := by
  intro q plo phi a b cc bf
  have h0 : (((phi ++ plo) : Byte).extractLsb' 0 4) = plo := by decide +revert
  have h1 : (((phi ++ plo) : Byte).extractLsb' 4 4) = phi := by decide +revert
  have h2 : ((((0 : BitVec 4) ++ BitVec.ofBool bf ++ cc) : Byte).extractLsb' 0 3) = cc := by decide +revert
  have h3 : ((((0 : BitVec 4) ++ BitVec.ofBool bf ++ cc) : Byte).getLsbD 3) = bf := by decide +revert
  have h4 : ((((0 : BitVec 4) ++ BitVec.ofBool bf ++ cc) : Byte).extractLsb' 4 4) = 0 := by decide +revert
  intro hw w he
  exact decodeWord_encode rfl (by
    simp only [Raw.toInstr, decodeOps2, bind_ok, Opd.ofCode_code, BitVec.reduceToNat, Nat.reduceLeDiff, Nat.reduceLT, false_and, and_false, if_false, if_true, unused_ff, ezero_zero, fzero_zero, Rm.ofCode_code, h0, h1, h2, h3, h4]) hw he

theorem plop3 : ∀ q pd pq pa pb pc lut, Statement (.plop3 q pd pq pa pb pc lut) := by
  intro q pd pq pa pb pc lut
  have h0 : (((pq ++ pd) : Byte).extractLsb' 0 4) = pd := by decide +revert
  have h1 : (((pq ++ pd) : Byte).extractLsb' 4 4) = pq := by decide +revert
  have h2 : ((((0 : BitVec 4) ++ pa) : Byte).extractLsb' 0 4) = pa := by decide +revert
  have h3 : ((((0 : BitVec 4) ++ pb) : Byte).extractLsb' 0 4) = pb := by decide +revert
  have h4 : ((((0 : BitVec 4) ++ pc) : Byte).extractLsb' 0 4) = pc := by decide +revert
  have h6 : ((((0 : BitVec 4) ++ pa) : Byte).extractLsb' 4 4) = 0 := by decide +revert
  have h7 : ((((0 : BitVec 4) ++ pb) : Byte).extractLsb' 4 4) = 0 := by decide +revert
  have h8 : ((((0 : BitVec 4) ++ pc) : Byte).extractLsb' 4 4) = 0 := by decide +revert
  intro hw w he
  exact decodeWord_encode rfl (by
    simp only [Raw.toInstr, decodeOps2, bind_ok, Opd.ofCode_code, BitVec.reduceToNat, Nat.reduceLeDiff, Nat.reduceLT, false_and, and_false, if_false, if_true, unused_ff, ezero_zero, fzero_zero, Rm.ofCode_code, h0, h1, h2, h3, h4, h6, h7, h8]) hw he

theorem sel : ∀ q d a b ps ns wide, Statement (.sel q d a b ps ns wide) := by
  intro q d a b ps ns wide
  have h0 : ((((0 : BitVec 2) ++ BitVec.ofBool wide ++ BitVec.ofBool ns ++ ps) : Byte).extractLsb' 0 4) = ps := by decide +revert
  have h1 : ((((0 : BitVec 2) ++ BitVec.ofBool wide ++ BitVec.ofBool ns ++ ps) : Byte).getLsbD 4) = ns := by decide +revert
  have h2 : ((((0 : BitVec 2) ++ BitVec.ofBool wide ++ BitVec.ofBool ns ++ ps) : Byte).getLsbD 5) = wide := by decide +revert
  have h3 : ((((0 : BitVec 2) ++ BitVec.ofBool wide ++ BitVec.ofBool ns ++ ps) : Byte).extractLsb' 6 2) = 0 := by decide +revert
  intro hw w he
  exact decodeWord_encode rfl (by
    simp only [Raw.toInstr, decodeOps2, bind_ok, Opd.ofCode_code, BitVec.reduceToNat, Nat.reduceLeDiff, Nat.reduceLT, false_and, and_false, if_false, if_true, unused_ff, ezero_zero, fzero_zero, Rm.ofCode_code, h0, h1, h2, h3]) hw he

theorem ptog : ∀ q d, Statement (.ptog q d) := by
  intro q d
  intro hw w he
  exact decodeWord_encode rfl (by
    simp only [Raw.toInstr, decodeOps2, bind_ok, Opd.ofCode_code, BitVec.reduceToNat, Nat.reduceLeDiff, Nat.reduceLT, false_and, and_false, if_false, if_true, unused_ff, ezero_zero, fzero_zero, Rm.ofCode_code]) hw he

theorem gtop : ∀ q a b, Statement (.gtop q a b) := by
  intro q a b
  intro hw w he
  exact decodeWord_encode rfl (by
    simp only [Raw.toInstr, decodeOps2, bind_ok, Opd.ofCode_code, BitVec.reduceToNat, Nat.reduceLeDiff, Nat.reduceLT, false_and, and_false, if_false, if_true, unused_ff, ezero_zero, fzero_zero, Rm.ofCode_code]) hw he

theorem fadd : ∀ q d a b rm na nb sat, Statement (.fadd q d a b rm na nb sat) := by
  intro q d a b rm na nb sat
  have h0 : ((((0 : BitVec 3) ++ BitVec.ofBool sat ++ BitVec.ofBool nb ++ BitVec.ofBool na ++ rm.code) : Byte).extractLsb' 0 2) = rm.code := by cases rm <;> decide +revert
  have h1 : ((((0 : BitVec 3) ++ BitVec.ofBool sat ++ BitVec.ofBool nb ++ BitVec.ofBool na ++ rm.code) : Byte).getLsbD 2) = na := by cases rm <;> decide +revert
  have h2 : ((((0 : BitVec 3) ++ BitVec.ofBool sat ++ BitVec.ofBool nb ++ BitVec.ofBool na ++ rm.code) : Byte).getLsbD 3) = nb := by cases rm <;> decide +revert
  have h3 : ((((0 : BitVec 3) ++ BitVec.ofBool sat ++ BitVec.ofBool nb ++ BitVec.ofBool na ++ rm.code) : Byte).getLsbD 4) = sat := by cases rm <;> decide +revert
  have h4 : ((((0 : BitVec 3) ++ BitVec.ofBool sat ++ BitVec.ofBool nb ++ BitVec.ofBool na ++ rm.code) : Byte).extractLsb' 5 3) = 0 := by cases rm <;> decide +revert
  intro hw w he
  exact decodeWord_encode rfl (by
    simp only [Raw.toInstr, decodeOps3, bind_ok, Opd.ofCode_code, BitVec.reduceToNat, Nat.reduceLeDiff, Nat.reduceLT, false_and, and_false, if_false, if_true, unused_ff, ezero_zero, fzero_zero, Rm.ofCode_code, h0, h1, h2, h3, h4]) hw he

theorem fsub : ∀ q d a b rm na nb sat, Statement (.fsub q d a b rm na nb sat) := by
  intro q d a b rm na nb sat
  have h0 : ((((0 : BitVec 3) ++ BitVec.ofBool sat ++ BitVec.ofBool nb ++ BitVec.ofBool na ++ rm.code) : Byte).extractLsb' 0 2) = rm.code := by cases rm <;> decide +revert
  have h1 : ((((0 : BitVec 3) ++ BitVec.ofBool sat ++ BitVec.ofBool nb ++ BitVec.ofBool na ++ rm.code) : Byte).getLsbD 2) = na := by cases rm <;> decide +revert
  have h2 : ((((0 : BitVec 3) ++ BitVec.ofBool sat ++ BitVec.ofBool nb ++ BitVec.ofBool na ++ rm.code) : Byte).getLsbD 3) = nb := by cases rm <;> decide +revert
  have h3 : ((((0 : BitVec 3) ++ BitVec.ofBool sat ++ BitVec.ofBool nb ++ BitVec.ofBool na ++ rm.code) : Byte).getLsbD 4) = sat := by cases rm <;> decide +revert
  have h4 : ((((0 : BitVec 3) ++ BitVec.ofBool sat ++ BitVec.ofBool nb ++ BitVec.ofBool na ++ rm.code) : Byte).extractLsb' 5 3) = 0 := by cases rm <;> decide +revert
  intro hw w he
  exact decodeWord_encode rfl (by
    simp only [Raw.toInstr, decodeOps3, bind_ok, Opd.ofCode_code, BitVec.reduceToNat, Nat.reduceLeDiff, Nat.reduceLT, false_and, and_false, if_false, if_true, unused_ff, ezero_zero, fzero_zero, Rm.ofCode_code, h0, h1, h2, h3, h4]) hw he

theorem fmul : ∀ q d a b rm na nb sat, Statement (.fmul q d a b rm na nb sat) := by
  intro q d a b rm na nb sat
  have h0 : ((((0 : BitVec 3) ++ BitVec.ofBool sat ++ BitVec.ofBool nb ++ BitVec.ofBool na ++ rm.code) : Byte).extractLsb' 0 2) = rm.code := by cases rm <;> decide +revert
  have h1 : ((((0 : BitVec 3) ++ BitVec.ofBool sat ++ BitVec.ofBool nb ++ BitVec.ofBool na ++ rm.code) : Byte).getLsbD 2) = na := by cases rm <;> decide +revert
  have h2 : ((((0 : BitVec 3) ++ BitVec.ofBool sat ++ BitVec.ofBool nb ++ BitVec.ofBool na ++ rm.code) : Byte).getLsbD 3) = nb := by cases rm <;> decide +revert
  have h3 : ((((0 : BitVec 3) ++ BitVec.ofBool sat ++ BitVec.ofBool nb ++ BitVec.ofBool na ++ rm.code) : Byte).getLsbD 4) = sat := by cases rm <;> decide +revert
  have h4 : ((((0 : BitVec 3) ++ BitVec.ofBool sat ++ BitVec.ofBool nb ++ BitVec.ofBool na ++ rm.code) : Byte).extractLsb' 5 3) = 0 := by cases rm <;> decide +revert
  intro hw w he
  exact decodeWord_encode rfl (by
    simp only [Raw.toInstr, decodeOps3, bind_ok, Opd.ofCode_code, BitVec.reduceToNat, Nat.reduceLeDiff, Nat.reduceLT, false_and, and_false, if_false, if_true, unused_ff, ezero_zero, fzero_zero, Rm.ofCode_code, h0, h1, h2, h3, h4]) hw he

theorem ffma : ∀ q d a b c rm np nc sat, Statement (.ffma q d a b c rm np nc sat) := by
  intro q d a b c rm np nc sat
  have h0 : ((((0 : BitVec 3) ++ BitVec.ofBool sat ++ BitVec.ofBool nc ++ BitVec.ofBool np ++ rm.code) : Byte).extractLsb' 0 2) = rm.code := by cases rm <;> decide +revert
  have h1 : ((((0 : BitVec 3) ++ BitVec.ofBool sat ++ BitVec.ofBool nc ++ BitVec.ofBool np ++ rm.code) : Byte).getLsbD 2) = np := by cases rm <;> decide +revert
  have h2 : ((((0 : BitVec 3) ++ BitVec.ofBool sat ++ BitVec.ofBool nc ++ BitVec.ofBool np ++ rm.code) : Byte).getLsbD 3) = nc := by cases rm <;> decide +revert
  have h3 : ((((0 : BitVec 3) ++ BitVec.ofBool sat ++ BitVec.ofBool nc ++ BitVec.ofBool np ++ rm.code) : Byte).getLsbD 4) = sat := by cases rm <;> decide +revert
  have h4 : ((((0 : BitVec 3) ++ BitVec.ofBool sat ++ BitVec.ofBool nc ++ BitVec.ofBool np ++ rm.code) : Byte).extractLsb' 5 3) = 0 := by cases rm <;> decide +revert
  intro hw w he
  exact decodeWord_encode rfl (by
    simp only [Raw.toInstr, decodeOps3, bind_ok, Opd.ofCode_code, BitVec.reduceToNat, Nat.reduceLeDiff, Nat.reduceLT, false_and, and_false, if_false, if_true, unused_ff, ezero_zero, fzero_zero, Rm.ofCode_code, h0, h1, h2, h3, h4]) hw he

theorem fmin : ∀ q d a b, Statement (.fmin q d a b) := by
  intro q d a b
  intro hw w he
  exact decodeWord_encode rfl (by
    simp only [Raw.toInstr, decodeOps3, bind_ok, Opd.ofCode_code, BitVec.reduceToNat, Nat.reduceLeDiff, Nat.reduceLT, false_and, and_false, if_false, if_true, unused_ff, ezero_zero, fzero_zero, Rm.ofCode_code]) hw he

theorem fmax : ∀ q d a b, Statement (.fmax q d a b) := by
  intro q d a b
  intro hw w he
  exact decodeWord_encode rfl (by
    simp only [Raw.toInstr, decodeOps3, bind_ok, Opd.ofCode_code, BitVec.reduceToNat, Nat.reduceLeDiff, Nat.reduceLT, false_and, and_false, if_false, if_true, unused_ff, ezero_zero, fzero_zero, Rm.ofCode_code]) hw he

theorem fclass : ∀ q d a fmt, Statement (.fclass q d a fmt) := by
  intro q d a fmt
  have h0 : ((((0 : BitVec 6) ++ fmt) : Byte).extractLsb' 0 2) = fmt := by decide +revert
  have h1 : ((((0 : BitVec 6) ++ fmt) : Byte).extractLsb' 2 6) = 0 := by decide +revert
  intro hw w he
  exact decodeWord_encode rfl (by
    simp only [Raw.toInstr, decodeOps3, bind_ok, Opd.ofCode_code, BitVec.reduceToNat, Nat.reduceLeDiff, Nat.reduceLT, false_and, and_false, if_false, if_true, unused_ff, ezero_zero, fzero_zero, Rm.ofCode_code, h0, h1]) hw he

theorem fscale : ∀ q d a b rm, Statement (.fscale q d a b rm) := by
  intro q d a b rm
  have h0 : ((((0 : BitVec 6) ++ rm.code) : Byte).extractLsb' 0 2) = rm.code := by cases rm <;> decide +revert
  have h1 : ((((0 : BitVec 6) ++ rm.code) : Byte).extractLsb' 2 6) = 0 := by cases rm <;> decide +revert
  intro hw w he
  exact decodeWord_encode rfl (by
    simp only [Raw.toInstr, decodeOps3, bind_ok, Opd.ofCode_code, BitVec.reduceToNat, Nat.reduceLeDiff, Nat.reduceLT, false_and, and_false, if_false, if_true, unused_ff, ezero_zero, fzero_zero, Rm.ofCode_code, h0, h1]) hw he

theorem frnd : ∀ q d a rm exact, Statement (.frnd q d a rm exact) := by
  intro q d a rm exact
  have h0 : ((((0 : BitVec 5) ++ BitVec.ofBool exact ++ rm.code) : Byte).extractLsb' 0 2) = rm.code := by cases rm <;> decide +revert
  have h1 : ((((0 : BitVec 5) ++ BitVec.ofBool exact ++ rm.code) : Byte).getLsbD 2) = exact := by cases rm <;> decide +revert
  have h2 : ((((0 : BitVec 5) ++ BitVec.ofBool exact ++ rm.code) : Byte).extractLsb' 3 5) = 0 := by cases rm <;> decide +revert
  intro hw w he
  exact decodeWord_encode rfl (by
    simp only [Raw.toInstr, decodeOps3, bind_ok, Opd.ofCode_code, BitVec.reduceToNat, Nat.reduceLeDiff, Nat.reduceLT, false_and, and_false, if_false, if_true, unused_ff, ezero_zero, fzero_zero, Rm.ofCode_code, h0, h1, h2]) hw he

theorem f2i : ∀ q d a rm ty, Statement (.f2i q d a rm ty) := by
  intro q d a rm ty
  have h0 : ((((0 : BitVec 4) ++ ty ++ rm.code) : Byte).extractLsb' 0 2) = rm.code := by cases rm <;> decide +revert
  have h1 : ((((0 : BitVec 4) ++ ty ++ rm.code) : Byte).extractLsb' 2 2) = ty := by cases rm <;> decide +revert
  have h2 : ((((0 : BitVec 4) ++ ty ++ rm.code) : Byte).extractLsb' 4 4) = 0 := by cases rm <;> decide +revert
  intro hw w he
  exact decodeWord_encode rfl (by
    simp only [Raw.toInstr, decodeOps3, bind_ok, Opd.ofCode_code, BitVec.reduceToNat, Nat.reduceLeDiff, Nat.reduceLT, false_and, and_false, if_false, if_true, unused_ff, ezero_zero, fzero_zero, Rm.ofCode_code, h0, h1, h2]) hw he

theorem i2f : ∀ q d a rm ty, Statement (.i2f q d a rm ty) := by
  intro q d a rm ty
  have h0 : ((((0 : BitVec 4) ++ ty ++ rm.code) : Byte).extractLsb' 0 2) = rm.code := by cases rm <;> decide +revert
  have h1 : ((((0 : BitVec 4) ++ ty ++ rm.code) : Byte).extractLsb' 2 2) = ty := by cases rm <;> decide +revert
  have h2 : ((((0 : BitVec 4) ++ ty ++ rm.code) : Byte).extractLsb' 4 4) = 0 := by cases rm <;> decide +revert
  intro hw w he
  exact decodeWord_encode rfl (by
    simp only [Raw.toInstr, decodeOps3, bind_ok, Opd.ofCode_code, BitVec.reduceToNat, Nat.reduceLeDiff, Nat.reduceLT, false_and, and_false, if_false, if_true, unused_ff, ezero_zero, fzero_zero, Rm.ofCode_code, h0, h1, h2]) hw he

theorem hadd2 : ∀ q d a b rm bf nb, Statement (.hadd2 q d a b rm bf nb) := by
  intro q d a b rm bf nb
  have h0 : ((((0 : BitVec 4) ++ BitVec.ofBool nb ++ BitVec.ofBool bf ++ rm.code) : Byte).extractLsb' 0 2) = rm.code := by cases rm <;> decide +revert
  have h1 : ((((0 : BitVec 4) ++ BitVec.ofBool nb ++ BitVec.ofBool bf ++ rm.code) : Byte).getLsbD 2) = bf := by cases rm <;> decide +revert
  have h2 : ((((0 : BitVec 4) ++ BitVec.ofBool nb ++ BitVec.ofBool bf ++ rm.code) : Byte).getLsbD 3) = nb := by cases rm <;> decide +revert
  have h3 : ((((0 : BitVec 4) ++ BitVec.ofBool nb ++ BitVec.ofBool bf ++ rm.code) : Byte).extractLsb' 4 4) = 0 := by cases rm <;> decide +revert
  intro hw w he
  exact decodeWord_encode rfl (by
    simp only [Raw.toInstr, decodeOps4, bind_ok, Opd.ofCode_code, BitVec.reduceToNat, Nat.reduceLeDiff, Nat.reduceLT, false_and, and_false, if_false, if_true, unused_ff, ezero_zero, fzero_zero, Rm.ofCode_code, h0, h1, h2, h3]) hw he

theorem hmul2 : ∀ q d a b rm bf nb, Statement (.hmul2 q d a b rm bf nb) := by
  intro q d a b rm bf nb
  have h0 : ((((0 : BitVec 4) ++ BitVec.ofBool nb ++ BitVec.ofBool bf ++ rm.code) : Byte).extractLsb' 0 2) = rm.code := by cases rm <;> decide +revert
  have h1 : ((((0 : BitVec 4) ++ BitVec.ofBool nb ++ BitVec.ofBool bf ++ rm.code) : Byte).getLsbD 2) = bf := by cases rm <;> decide +revert
  have h2 : ((((0 : BitVec 4) ++ BitVec.ofBool nb ++ BitVec.ofBool bf ++ rm.code) : Byte).getLsbD 3) = nb := by cases rm <;> decide +revert
  have h3 : ((((0 : BitVec 4) ++ BitVec.ofBool nb ++ BitVec.ofBool bf ++ rm.code) : Byte).extractLsb' 4 4) = 0 := by cases rm <;> decide +revert
  intro hw w he
  exact decodeWord_encode rfl (by
    simp only [Raw.toInstr, decodeOps4, bind_ok, Opd.ofCode_code, BitVec.reduceToNat, Nat.reduceLeDiff, Nat.reduceLT, false_and, and_false, if_false, if_true, unused_ff, ezero_zero, fzero_zero, Rm.ofCode_code, h0, h1, h2, h3]) hw he

theorem hfma2 : ∀ q d a b c rm bf nb nc, Statement (.hfma2 q d a b c rm bf nb nc) := by
  intro q d a b c rm bf nb nc
  have h0 : ((((0 : BitVec 3) ++ BitVec.ofBool nc ++ BitVec.ofBool nb ++ BitVec.ofBool bf ++ rm.code) : Byte).extractLsb' 0 2) = rm.code := by cases rm <;> decide +revert
  have h1 : ((((0 : BitVec 3) ++ BitVec.ofBool nc ++ BitVec.ofBool nb ++ BitVec.ofBool bf ++ rm.code) : Byte).getLsbD 2) = bf := by cases rm <;> decide +revert
  have h2 : ((((0 : BitVec 3) ++ BitVec.ofBool nc ++ BitVec.ofBool nb ++ BitVec.ofBool bf ++ rm.code) : Byte).getLsbD 3) = nb := by cases rm <;> decide +revert
  have h3 : ((((0 : BitVec 3) ++ BitVec.ofBool nc ++ BitVec.ofBool nb ++ BitVec.ofBool bf ++ rm.code) : Byte).getLsbD 4) = nc := by cases rm <;> decide +revert
  have h4 : ((((0 : BitVec 3) ++ BitVec.ofBool nc ++ BitVec.ofBool nb ++ BitVec.ofBool bf ++ rm.code) : Byte).extractLsb' 5 3) = 0 := by cases rm <;> decide +revert
  intro hw w he
  exact decodeWord_encode rfl (by
    simp only [Raw.toInstr, decodeOps4, bind_ok, Opd.ofCode_code, BitVec.reduceToNat, Nat.reduceLeDiff, Nat.reduceLT, false_and, and_false, if_false, if_true, unused_ff, ezero_zero, fzero_zero, Rm.ofCode_code, h0, h1, h2, h3, h4]) hw he

theorem hmin2 : ∀ q d a b bf, Statement (.hmin2 q d a b bf) := by
  intro q d a b bf
  have h0 : ((((0 : BitVec 5) ++ BitVec.ofBool bf ++ (0 : BitVec 2)) : Byte).getLsbD 2) = bf := by decide +revert
  have h1 : ((((0 : BitVec 5) ++ BitVec.ofBool bf ++ (0 : BitVec 2)) : Byte).extractLsb' 0 2) = 0 := by decide +revert
  have h2 : ((((0 : BitVec 5) ++ BitVec.ofBool bf ++ (0 : BitVec 2)) : Byte).extractLsb' 3 5) = 0 := by decide +revert
  intro hw w he
  exact decodeWord_encode rfl (by
    simp only [Raw.toInstr, decodeOps4, bind_ok, Opd.ofCode_code, BitVec.reduceToNat, Nat.reduceLeDiff, Nat.reduceLT, false_and, and_false, if_false, if_true, unused_ff, ezero_zero, fzero_zero, Rm.ofCode_code, h0, h1, h2]) hw he

theorem hmax2 : ∀ q d a b bf, Statement (.hmax2 q d a b bf) := by
  intro q d a b bf
  have h0 : ((((0 : BitVec 5) ++ BitVec.ofBool bf ++ (0 : BitVec 2)) : Byte).getLsbD 2) = bf := by decide +revert
  have h1 : ((((0 : BitVec 5) ++ BitVec.ofBool bf ++ (0 : BitVec 2)) : Byte).extractLsb' 0 2) = 0 := by decide +revert
  have h2 : ((((0 : BitVec 5) ++ BitVec.ofBool bf ++ (0 : BitVec 2)) : Byte).extractLsb' 3 5) = 0 := by decide +revert
  intro hw w he
  exact decodeWord_encode rfl (by
    simp only [Raw.toInstr, decodeOps4, bind_ok, Opd.ofCode_code, BitVec.reduceToNat, Nat.reduceLeDiff, Nat.reduceLT, false_and, and_false, if_false, if_true, unused_ff, ezero_zero, fzero_zero, Rm.ofCode_code, h0, h1, h2]) hw he

theorem hdot2 : ∀ q d a b c rm bf, Statement (.hdot2 q d a b c rm bf) := by
  intro q d a b c rm bf
  have h0 : ((((0 : BitVec 5) ++ BitVec.ofBool bf ++ rm.code) : Byte).extractLsb' 0 2) = rm.code := by cases rm <;> decide +revert
  have h1 : ((((0 : BitVec 5) ++ BitVec.ofBool bf ++ rm.code) : Byte).getLsbD 2) = bf := by cases rm <;> decide +revert
  have h2 : ((((0 : BitVec 5) ++ BitVec.ofBool bf ++ rm.code) : Byte).extractLsb' 3 5) = 0 := by cases rm <;> decide +revert
  intro hw w he
  exact decodeWord_encode rfl (by
    simp only [Raw.toInstr, decodeOps4, bind_ok, Opd.ofCode_code, BitVec.reduceToNat, Nat.reduceLeDiff, Nat.reduceLT, false_and, and_false, if_false, if_true, unused_ff, ezero_zero, fzero_zero, Rm.ofCode_code, h0, h1, h2]) hw he

theorem cvt : ∀ q d a srcF dstF rm elt, Statement (.cvt q d a srcF dstF rm elt) := by
  intro q d a srcF dstF rm elt
  have h0 : (((elt ++ rm.code ++ dstF ++ srcF) : Byte).extractLsb' 0 2) = srcF := by cases rm <;> decide +revert
  have h1 : (((elt ++ rm.code ++ dstF ++ srcF) : Byte).extractLsb' 2 2) = dstF := by cases rm <;> decide +revert
  have h2 : (((elt ++ rm.code ++ dstF ++ srcF) : Byte).extractLsb' 4 2) = rm.code := by cases rm <;> decide +revert
  have h3 : (((elt ++ rm.code ++ dstF ++ srcF) : Byte).extractLsb' 6 2) = elt := by cases rm <;> decide +revert
  intro hw w he
  exact decodeWord_encode rfl (by
    simp only [Raw.toInstr, decodeOps4, bind_ok, Opd.ofCode_code, BitVec.reduceToNat, Nat.reduceLeDiff, Nat.reduceLT, false_and, and_false, if_false, if_true, unused_ff, ezero_zero, fzero_zero, Rm.ofCode_code, h0, h1, h2, h3]) hw he

theorem cvtpk : ∀ q d a b rm bf, Statement (.cvtpk q d a b rm bf) := by
  intro q d a b rm bf
  have h0 : ((((0 : BitVec 5) ++ BitVec.ofBool bf ++ rm.code) : Byte).extractLsb' 0 2) = rm.code := by cases rm <;> decide +revert
  have h1 : ((((0 : BitVec 5) ++ BitVec.ofBool bf ++ rm.code) : Byte).getLsbD 2) = bf := by cases rm <;> decide +revert
  have h2 : ((((0 : BitVec 5) ++ BitVec.ofBool bf ++ rm.code) : Byte).extractLsb' 3 5) = 0 := by cases rm <;> decide +revert
  intro hw w he
  exact decodeWord_encode rfl (by
    simp only [Raw.toInstr, decodeOps4, bind_ok, Opd.ofCode_code, BitVec.reduceToNat, Nat.reduceLeDiff, Nat.reduceLT, false_and, and_false, if_false, if_true, unused_ff, ezero_zero, fzero_zero, Rm.ofCode_code, h0, h1, h2]) hw he

theorem cvtx4 : ∀ q d a narrow i8 bf, Statement (.cvtx4 q d a narrow i8 bf) := by
  intro q d a narrow i8 bf
  have h0 : ((((0 : BitVec 5) ++ BitVec.ofBool bf ++ BitVec.ofBool i8 ++ BitVec.ofBool narrow) : Byte).getLsbD 0) = narrow := by decide +revert
  have h1 : ((((0 : BitVec 5) ++ BitVec.ofBool bf ++ BitVec.ofBool i8 ++ BitVec.ofBool narrow) : Byte).getLsbD 1) = i8 := by decide +revert
  have h2 : ((((0 : BitVec 5) ++ BitVec.ofBool bf ++ BitVec.ofBool i8 ++ BitVec.ofBool narrow) : Byte).getLsbD 2) = bf := by decide +revert
  have h3 : ((((0 : BitVec 5) ++ BitVec.ofBool bf ++ BitVec.ofBool i8 ++ BitVec.ofBool narrow) : Byte).extractLsb' 3 5) = 0 := by decide +revert
  intro hw w he
  exact decodeWord_encode rfl (by
    simp only [Raw.toInstr, decodeOps4, bind_ok, Opd.ofCode_code, BitVec.reduceToNat, Nat.reduceLeDiff, Nat.reduceLT, false_and, and_false, if_false, if_true, unused_ff, ezero_zero, fzero_zero, Rm.ofCode_code, h0, h1, h2, h3]) hw he

theorem qdt : ∀ q d a b c dt6, Statement (.qdt q d a b c dt6) := by
  intro q d a b c dt6
  have h0 : ((((0 : BitVec 7) ++ BitVec.ofBool dt6) : Byte).getLsbD 0) = dt6 := by decide +revert
  have h1 : ((((0 : BitVec 7) ++ BitVec.ofBool dt6) : Byte).extractLsb' 1 7) = 0 := by decide +revert
  intro hw w he
  exact decodeWord_encode rfl (by
    simp only [Raw.toInstr, decodeOps4, bind_ok, Opd.ofCode_code, BitVec.reduceToNat, Nat.reduceLeDiff, Nat.reduceLT, false_and, and_false, if_false, if_true, unused_ff, ezero_zero, fzero_zero, Rm.ofCode_code, h0, h1]) hw he

theorem dqdt : ∀ q d a b dt6 bf rm, Statement (.dqdt q d a b dt6 bf rm) := by
  intro q d a b dt6 bf rm
  have h0 : ((((0 : BitVec 4) ++ rm.code ++ BitVec.ofBool bf ++ BitVec.ofBool dt6) : Byte).getLsbD 0) = dt6 := by cases rm <;> decide +revert
  have h1 : ((((0 : BitVec 4) ++ rm.code ++ BitVec.ofBool bf ++ BitVec.ofBool dt6) : Byte).getLsbD 1) = bf := by cases rm <;> decide +revert
  have h2 : ((((0 : BitVec 4) ++ rm.code ++ BitVec.ofBool bf ++ BitVec.ofBool dt6) : Byte).extractLsb' 2 2) = rm.code := by cases rm <;> decide +revert
  have h3 : ((((0 : BitVec 4) ++ rm.code ++ BitVec.ofBool bf ++ BitVec.ofBool dt6) : Byte).extractLsb' 4 4) = 0 := by cases rm <;> decide +revert
  intro hw w he
  exact decodeWord_encode rfl (by
    simp only [Raw.toInstr, decodeOps4, bind_ok, Opd.ofCode_code, BitVec.reduceToNat, Nat.reduceLeDiff, Nat.reduceLT, false_and, and_false, if_false, if_true, unused_ff, ezero_zero, fzero_zero, Rm.ofCode_code, h0, h1, h2, h3]) hw he

theorem rcp : ∀ q d a, Statement (.rcp q d a) := by
  intro q d a
  intro hw w he
  exact decodeWord_encode rfl (by
    simp only [Raw.toInstr, decodeOps5, bind_ok, Opd.ofCode_code, BitVec.reduceToNat, Nat.reduceLeDiff, Nat.reduceLT, false_and, and_false, if_false, if_true, unused_ff, ezero_zero, fzero_zero, Rm.ofCode_code]) hw he

theorem rsq : ∀ q d a, Statement (.rsq q d a) := by
  intro q d a
  intro hw w he
  exact decodeWord_encode rfl (by
    simp only [Raw.toInstr, decodeOps5, bind_ok, Opd.ofCode_code, BitVec.reduceToNat, Nat.reduceLeDiff, Nat.reduceLT, false_and, and_false, if_false, if_true, unused_ff, ezero_zero, fzero_zero, Rm.ofCode_code]) hw he

theorem sqrt : ∀ q d a, Statement (.sqrt q d a) := by
  intro q d a
  intro hw w he
  exact decodeWord_encode rfl (by
    simp only [Raw.toInstr, decodeOps5, bind_ok, Opd.ofCode_code, BitVec.reduceToNat, Nat.reduceLeDiff, Nat.reduceLT, false_and, and_false, if_false, if_true, unused_ff, ezero_zero, fzero_zero, Rm.ofCode_code]) hw he

theorem ex2 : ∀ q d a, Statement (.ex2 q d a) := by
  intro q d a
  intro hw w he
  exact decodeWord_encode rfl (by
    simp only [Raw.toInstr, decodeOps5, bind_ok, Opd.ofCode_code, BitVec.reduceToNat, Nat.reduceLeDiff, Nat.reduceLT, false_and, and_false, if_false, if_true, unused_ff, ezero_zero, fzero_zero, Rm.ofCode_code]) hw he

theorem lg2 : ∀ q d a, Statement (.lg2 q d a) := by
  intro q d a
  intro hw w he
  exact decodeWord_encode rfl (by
    simp only [Raw.toInstr, decodeOps5, bind_ok, Opd.ofCode_code, BitVec.reduceToNat, Nat.reduceLeDiff, Nat.reduceLT, false_and, and_false, if_false, if_true, unused_ff, ezero_zero, fzero_zero, Rm.ofCode_code]) hw he

theorem sint : ∀ q d a, Statement (.sint q d a) := by
  intro q d a
  intro hw w he
  exact decodeWord_encode rfl (by
    simp only [Raw.toInstr, decodeOps5, bind_ok, Opd.ofCode_code, BitVec.reduceToNat, Nat.reduceLeDiff, Nat.reduceLT, false_and, and_false, if_false, if_true, unused_ff, ezero_zero, fzero_zero, Rm.ofCode_code]) hw he

theorem cost : ∀ q d a, Statement (.cost q d a) := by
  intro q d a
  intro hw w he
  exact decodeWord_encode rfl (by
    simp only [Raw.toInstr, decodeOps5, bind_ok, Opd.ofCode_code, BitVec.reduceToNat, Nat.reduceLeDiff, Nat.reduceLT, false_and, and_false, if_false, if_true, unused_ff, ezero_zero, fzero_zero, Rm.ofCode_code]) hw he

theorem phadd : ∀ q d a b pk, Statement (.phadd q d a b pk) := by
  intro q d a b pk
  have h0 : ((((0 : BitVec 7) ++ BitVec.ofBool pk) : Byte).getLsbD 0) = pk := by decide +revert
  have h1 : ((((0 : BitVec 7) ++ BitVec.ofBool pk) : Byte).extractLsb' 1 7) = 0 := by decide +revert
  intro hw w he
  exact decodeWord_encode rfl (by
    simp only [Raw.toInstr, decodeOps5, bind_ok, Opd.ofCode_code, BitVec.reduceToNat, Nat.reduceLeDiff, Nat.reduceLT, false_and, and_false, if_false, if_true, unused_ff, ezero_zero, fzero_zero, Rm.ofCode_code, h0, h1]) hw he

theorem phsub : ∀ q d a b pk, Statement (.phsub q d a b pk) := by
  intro q d a b pk
  have h0 : ((((0 : BitVec 7) ++ BitVec.ofBool pk) : Byte).getLsbD 0) = pk := by decide +revert
  have h1 : ((((0 : BitVec 7) ++ BitVec.ofBool pk) : Byte).extractLsb' 1 7) = 0 := by decide +revert
  intro hw w he
  exact decodeWord_encode rfl (by
    simp only [Raw.toInstr, decodeOps5, bind_ok, Opd.ofCode_code, BitVec.reduceToNat, Nat.reduceLeDiff, Nat.reduceLT, false_and, and_false, if_false, if_true, unused_ff, ezero_zero, fzero_zero, Rm.ofCode_code, h0, h1]) hw he

theorem phcmp : ∀ q pp po a b, Statement (.phcmp q pp po a b) := by
  intro q pp po a b
  have h0 : (((po ++ pp) : Byte).extractLsb' 0 4) = pp := by decide +revert
  have h1 : (((po ++ pp) : Byte).extractLsb' 4 4) = po := by decide +revert
  intro hw w he
  exact decodeWord_encode rfl (by
    simp only [Raw.toInstr, decodeOps5, bind_ok, Opd.ofCode_code, BitVec.reduceToNat, Nat.reduceLeDiff, Nat.reduceLT, false_and, and_false, if_false, if_true, unused_ff, ezero_zero, fzero_zero, Rm.ofCode_code, h0, h1]) hw he

theorem phfrom : ∀ q d a rm, Statement (.phfrom q d a rm) := by
  intro q d a rm
  have h0 : ((((0 : BitVec 6) ++ rm.code) : Byte).extractLsb' 0 2) = rm.code := by cases rm <;> decide +revert
  have h1 : ((((0 : BitVec 6) ++ rm.code) : Byte).extractLsb' 2 6) = 0 := by cases rm <;> decide +revert
  intro hw w he
  exact decodeWord_encode rfl (by
    simp only [Raw.toInstr, decodeOps5, bind_ok, Opd.ofCode_code, BitVec.reduceToNat, Nat.reduceLeDiff, Nat.reduceLT, false_and, and_false, if_false, if_true, unused_ff, ezero_zero, fzero_zero, Rm.ofCode_code, h0, h1]) hw he

theorem phsc : ∀ q d a, Statement (.phsc q d a) := by
  intro q d a
  intro hw w he
  exact decodeWord_encode rfl (by
    simp only [Raw.toInstr, decodeOps5, bind_ok, Opd.ofCode_code, BitVec.reduceToNat, Nat.reduceLeDiff, Nat.reduceLT, false_and, and_false, if_false, if_true, unused_ff, ezero_zero, fzero_zero, Rm.ofCode_code]) hw he

theorem phcoh : ∀ q d a b c, Statement (.phcoh q d a b c) := by
  intro q d a b c
  intro hw w he
  exact decodeWord_encode rfl (by
    simp only [Raw.toInstr, decodeOps5, bind_ok, Opd.ofCode_code, BitVec.reduceToNat, Nat.reduceLeDiff, Nat.reduceLT, false_and, and_false, if_false, if_true, unused_ff, ezero_zero, fzero_zero, Rm.ofCode_code]) hw he

theorem bra : ∀ q imm, Statement (.bra q imm) := by
  intro q imm
  have h0 : ((imm.extractLsb' 16 8 : Byte) ++ (imm.extractLsb' 8 8 : Byte) ++ (imm.extractLsb' 0 8 : Byte)) = imm := by exact join3 _
  intro hw w he
  exact decodeWord_encode rfl (by
    simp only [Raw.toInstr, decodeOps6, bind_ok, Opd.ofCode_code, BitVec.reduceToNat, Nat.reduceLeDiff, Nat.reduceLT, false_and, and_false, if_false, if_true, unused_ff, ezero_zero, fzero_zero, Rm.ofCode_code, h0]) hw he

theorem brx : ∀ q a, Statement (.brx q a) := by
  intro q a
  intro hw w he
  exact decodeWord_encode rfl (by
    simp only [Raw.toInstr, decodeOps6, bind_ok, Opd.ofCode_code, BitVec.reduceToNat, Nat.reduceLeDiff, Nat.reduceLT, false_and, and_false, if_false, if_true, unused_ff, ezero_zero, fzero_zero, Rm.ofCode_code]) hw he

theorem call : ∀ q d imm, Statement (.call q d imm) := by
  intro q d imm
  have h0 : ((imm.extractLsb' 16 8 : Byte) ++ (imm.extractLsb' 8 8 : Byte) ++ (imm.extractLsb' 0 8 : Byte)) = imm := by exact join3 _
  intro hw w he
  exact decodeWord_encode rfl (by
    simp only [Raw.toInstr, decodeOps6, bind_ok, Opd.ofCode_code, BitVec.reduceToNat, Nat.reduceLeDiff, Nat.reduceLT, false_and, and_false, if_false, if_true, unused_ff, ezero_zero, fzero_zero, Rm.ofCode_code, h0]) hw he

theorem callx : ∀ q d a, Statement (.callx q d a) := by
  intro q d a
  intro hw w he
  exact decodeWord_encode rfl (by
    simp only [Raw.toInstr, decodeOps6, bind_ok, Opd.ofCode_code, BitVec.reduceToNat, Nat.reduceLeDiff, Nat.reduceLT, false_and, and_false, if_false, if_true, unused_ff, ezero_zero, fzero_zero, Rm.ofCode_code]) hw he

theorem ret : ∀ q a, Statement (.ret q a) := by
  intro q a
  intro hw w he
  exact decodeWord_encode rfl (by
    simp only [Raw.toInstr, decodeOps6, bind_ok, Opd.ofCode_code, BitVec.reduceToNat, Nat.reduceLeDiff, Nat.reduceLT, false_and, and_false, if_false, if_true, unused_ff, ezero_zero, fzero_zero, Rm.ofCode_code]) hw he

theorem exit : ∀ q, Statement (.exit q) := by
  intro q
  intro hw w he
  exact decodeWord_encode rfl (by
    simp only [Raw.toInstr, decodeOps6, bind_ok, Opd.ofCode_code, BitVec.reduceToNat, Nat.reduceLeDiff, Nat.reduceLT, false_and, and_false, if_false, if_true, unused_ff, ezero_zero, fzero_zero, Rm.ofCode_code]) hw he

theorem spawn : ∀ q a b c npay, Statement (.spawn q a b c npay) := by
  intro q a b c npay
  have h0 : ((((0 : BitVec 4) ++ npay) : Byte).extractLsb' 0 4) = npay := by decide +revert
  have h1 : ((((0 : BitVec 4) ++ npay) : Byte).extractLsb' 4 4) = 0 := by decide +revert
  intro hw w he
  exact decodeWord_encode rfl (by
    simp only [Raw.toInstr, decodeOps6, bind_ok, Opd.ofCode_code, BitVec.reduceToNat, Nat.reduceLeDiff, Nat.reduceLT, false_and, and_false, if_false, if_true, unused_ff, ezero_zero, fzero_zero, Rm.ofCode_code, h0, h1]) hw he

theorem wconv : ∀ q, Statement (.wconv q) := by
  intro q
  intro hw w he
  exact decodeWord_encode rfl (by
    simp only [Raw.toInstr, decodeOps6, bind_ok, Opd.ofCode_code, BitVec.reduceToNat, Nat.reduceLeDiff, Nat.reduceLT, false_and, and_false, if_false, if_true, unused_ff, ezero_zero, fzero_zero, Rm.ofCode_code]) hw he

theorem yield : ∀ q dly, Statement (.yield q dly) := by
  intro q dly
  intro hw w he
  exact decodeWord_encode rfl (by
    simp only [Raw.toInstr, decodeOps6, bind_ok, Opd.ofCode_code, BitVec.reduceToNat, Nat.reduceLeDiff, Nat.reduceLT, false_and, and_false, if_false, if_true, unused_ff, ezero_zero, fzero_zero, Rm.ofCode_code]) hw he

theorem shfl : ∀ q d a b c mode pv, Statement (.shfl q d a b c mode pv) := by
  intro q d a b c mode pv
  have h0 : ((((0 : BitVec 2) ++ pv ++ mode) : Byte).extractLsb' 0 2) = mode := by decide +revert
  have h1 : ((((0 : BitVec 2) ++ pv ++ mode) : Byte).extractLsb' 2 4) = pv := by decide +revert
  have h2 : ((((0 : BitVec 2) ++ pv ++ mode) : Byte).extractLsb' 6 2) = 0 := by decide +revert
  intro hw w he
  exact decodeWord_encode rfl (by
    simp only [Raw.toInstr, decodeOps6, bind_ok, Opd.ofCode_code, BitVec.reduceToNat, Nat.reduceLeDiff, Nat.reduceLT, false_and, and_false, if_false, if_true, unused_ff, ezero_zero, fzero_zero, Rm.ofCode_code, h0, h1, h2]) hw he

theorem vote : ∀ q d ps ns mode, Statement (.vote q d ps ns mode) := by
  intro q d ps ns mode
  have h0 : (((mode ++ BitVec.ofBool ns ++ ps) : Byte).extractLsb' 0 4) = ps := by decide +revert
  have h1 : (((mode ++ BitVec.ofBool ns ++ ps) : Byte).getLsbD 4) = ns := by decide +revert
  have h2 : (((mode ++ BitVec.ofBool ns ++ ps) : Byte).extractLsb' 5 3) = mode := by decide +revert
  intro hw w he
  exact decodeWord_encode rfl (by
    simp only [Raw.toInstr, decodeOps6, bind_ok, Opd.ofCode_code, BitVec.reduceToNat, Nat.reduceLeDiff, Nat.reduceLT, false_and, and_false, if_false, if_true, unused_ff, ezero_zero, fzero_zero, Rm.ofCode_code, h0, h1, h2]) hw he

theorem wred : ∀ q d a fn, Statement (.wred q d a fn) := by
  intro q d a fn
  have h0 : ((((0 : BitVec 4) ++ fn) : Byte).extractLsb' 0 4) = fn := by decide +revert
  have h1 : ((((0 : BitVec 4) ++ fn) : Byte).extractLsb' 4 4) = 0 := by decide +revert
  intro hw w he
  exact decodeWord_encode rfl (by
    simp only [Raw.toInstr, decodeOps6, bind_ok, Opd.ofCode_code, BitVec.reduceToNat, Nat.reduceLeDiff, Nat.reduceLT, false_and, and_false, if_false, if_true, unused_ff, ezero_zero, fzero_zero, Rm.ofCode_code, h0, h1]) hw he

theorem wscan : ∀ q d a fn excl, Statement (.wscan q d a fn excl) := by
  intro q d a fn excl
  have h0 : ((((0 : BitVec 3) ++ BitVec.ofBool excl ++ fn) : Byte).extractLsb' 0 4) = fn := by decide +revert
  have h1 : ((((0 : BitVec 3) ++ BitVec.ofBool excl ++ fn) : Byte).getLsbD 4) = excl := by decide +revert
  have h2 : ((((0 : BitVec 3) ++ BitVec.ofBool excl ++ fn) : Byte).extractLsb' 5 3) = 0 := by decide +revert
  intro hw w he
  exact decodeWord_encode rfl (by
    simp only [Raw.toInstr, decodeOps6, bind_ok, Opd.ofCode_code, BitVec.reduceToNat, Nat.reduceLeDiff, Nat.reduceLT, false_and, and_false, if_false, if_true, unused_ff, ezero_zero, fzero_zero, Rm.ofCode_code, h0, h1, h2]) hw he

theorem wmatch : ∀ q d a wide mode, Statement (.wmatch q d a wide mode) := by
  intro q d a wide mode
  have h0 : ((((0 : BitVec 5) ++ mode ++ BitVec.ofBool wide) : Byte).getLsbD 0) = wide := by decide +revert
  have h1 : ((((0 : BitVec 5) ++ mode ++ BitVec.ofBool wide) : Byte).extractLsb' 1 2) = mode := by decide +revert
  have h2 : ((((0 : BitVec 5) ++ mode ++ BitVec.ofBool wide) : Byte).extractLsb' 3 5) = 0 := by decide +revert
  intro hw w he
  exact decodeWord_encode rfl (by
    simp only [Raw.toInstr, decodeOps6, bind_ok, Opd.ofCode_code, BitVec.reduceToNat, Nat.reduceLeDiff, Nat.reduceLT, false_and, and_false, if_false, if_true, unused_ff, ezero_zero, fzero_zero, Rm.ofCode_code, h0, h1, h2]) hw he

theorem wlive : ∀ q d, Statement (.wlive q d) := by
  intro q d
  intro hw w he
  exact decodeWord_encode rfl (by
    simp only [Raw.toInstr, decodeOps6, bind_ok, Opd.ofCode_code, BitVec.reduceToNat, Nat.reduceLeDiff, Nat.reduceLT, false_and, and_false, if_false, if_true, unused_ff, ezero_zero, fzero_zero, Rm.ofCode_code]) hw he

theorem ld : ∀ q d a imm sz lease acq, Statement (.ld q d a imm sz lease acq) := by
  intro q d a imm sz lease acq
  have h0 : ((imm.extractLsb' 8 8 : Byte) ++ (imm.extractLsb' 0 8 : Byte)) = imm := by exact join2 _
  have h1 : ((((0 : BitVec 2) ++ BitVec.ofBool acq ++ lease ++ sz) : Byte).extractLsb' 0 3) = sz := by decide +revert
  have h2 : ((((0 : BitVec 2) ++ BitVec.ofBool acq ++ lease ++ sz) : Byte).extractLsb' 3 2) = lease := by decide +revert
  have h3 : ((((0 : BitVec 2) ++ BitVec.ofBool acq ++ lease ++ sz) : Byte).getLsbD 5) = acq := by decide +revert
  have h4 : ((((0 : BitVec 2) ++ BitVec.ofBool acq ++ lease ++ sz) : Byte).extractLsb' 6 2) = 0 := by decide +revert
  intro hw w he
  exact decodeWord_encode rfl (by
    simp only [Raw.toInstr, decodeOps8, bind_ok, Opd.ofCode_code, BitVec.reduceToNat, Nat.reduceLeDiff, Nat.reduceLT, false_and, and_false, if_false, if_true, unused_ff, ezero_zero, fzero_zero, Rm.ofCode_code, h0, h1, h2, h3, h4]) hw he

theorem st : ∀ q d a imm sz rel, Statement (.st q d a imm sz rel) := by
  intro q d a imm sz rel
  have h0 : ((imm.extractLsb' 8 8 : Byte) ++ (imm.extractLsb' 0 8 : Byte)) = imm := by exact join2 _
  have h1 : ((((0 : BitVec 2) ++ BitVec.ofBool rel ++ (0 : BitVec 2) ++ sz) : Byte).extractLsb' 0 3) = sz := by decide +revert
  have h2 : ((((0 : BitVec 2) ++ BitVec.ofBool rel ++ (0 : BitVec 2) ++ sz) : Byte).getLsbD 5) = rel := by decide +revert
  have h3 : ((((0 : BitVec 2) ++ BitVec.ofBool rel ++ (0 : BitVec 2) ++ sz) : Byte).extractLsb' 3 2) = 0 := by decide +revert
  have h4 : ((((0 : BitVec 2) ++ BitVec.ofBool rel ++ (0 : BitVec 2) ++ sz) : Byte).extractLsb' 6 2) = 0 := by decide +revert
  intro hw w he
  exact decodeWord_encode rfl (by
    simp only [Raw.toInstr, decodeOps8, bind_ok, Opd.ofCode_code, BitVec.reduceToNat, Nat.reduceLeDiff, Nat.reduceLT, false_and, and_false, if_false, if_true, unused_ff, ezero_zero, fzero_zero, Rm.ofCode_code, h0, h1, h2, h3, h4]) hw he

theorem ldx : ∀ q d a b sz lease acq sc, Statement (.ldx q d a b sz lease acq sc) := by
  intro q d a b sz lease acq sc
  have h0 : ((((0 : BitVec 1) ++ BitVec.ofBool sc ++ BitVec.ofBool acq ++ lease ++ sz) : Byte).extractLsb' 0 3) = sz := by decide +revert
  have h1 : ((((0 : BitVec 1) ++ BitVec.ofBool sc ++ BitVec.ofBool acq ++ lease ++ sz) : Byte).extractLsb' 3 2) = lease := by decide +revert
  have h2 : ((((0 : BitVec 1) ++ BitVec.ofBool sc ++ BitVec.ofBool acq ++ lease ++ sz) : Byte).getLsbD 5) = acq := by decide +revert
  have h3 : ((((0 : BitVec 1) ++ BitVec.ofBool sc ++ BitVec.ofBool acq ++ lease ++ sz) : Byte).getLsbD 6) = sc := by decide +revert
  have h4 : ((((0 : BitVec 1) ++ BitVec.ofBool sc ++ BitVec.ofBool acq ++ lease ++ sz) : Byte).extractLsb' 7 1) = 0 := by decide +revert
  intro hw w he
  exact decodeWord_encode rfl (by
    simp only [Raw.toInstr, decodeOps8, bind_ok, Opd.ofCode_code, BitVec.reduceToNat, Nat.reduceLeDiff, Nat.reduceLT, false_and, and_false, if_false, if_true, unused_ff, ezero_zero, fzero_zero, Rm.ofCode_code, h0, h1, h2, h3, h4]) hw he

theorem stx : ∀ q d a b sz rel sc, Statement (.stx q d a b sz rel sc) := by
  intro q d a b sz rel sc
  have h0 : ((((0 : BitVec 1) ++ BitVec.ofBool sc ++ BitVec.ofBool rel ++ (0 : BitVec 2) ++ sz) : Byte).extractLsb' 0 3) = sz := by decide +revert
  have h1 : ((((0 : BitVec 1) ++ BitVec.ofBool sc ++ BitVec.ofBool rel ++ (0 : BitVec 2) ++ sz) : Byte).getLsbD 5) = rel := by decide +revert
  have h2 : ((((0 : BitVec 1) ++ BitVec.ofBool sc ++ BitVec.ofBool rel ++ (0 : BitVec 2) ++ sz) : Byte).getLsbD 6) = sc := by decide +revert
  have h3 : ((((0 : BitVec 1) ++ BitVec.ofBool sc ++ BitVec.ofBool rel ++ (0 : BitVec 2) ++ sz) : Byte).extractLsb' 3 2) = 0 := by decide +revert
  have h4 : ((((0 : BitVec 1) ++ BitVec.ofBool sc ++ BitVec.ofBool rel ++ (0 : BitVec 2) ++ sz) : Byte).extractLsb' 7 1) = 0 := by decide +revert
  intro hw w he
  exact decodeWord_encode rfl (by
    simp only [Raw.toInstr, decodeOps8, bind_ok, Opd.ofCode_code, BitVec.reduceToNat, Nat.reduceLeDiff, Nat.reduceLT, false_and, and_false, if_false, if_true, unused_ff, ezero_zero, fzero_zero, Rm.ofCode_code, h0, h1, h2, h3, h4]) hw he

theorem lds : ∀ q d a imm sz tag tt, Statement (.lds q d a imm sz tag tt) := by
  intro q d a imm sz tag tt
  have h0 : ((imm.extractLsb' 8 8 : Byte) ++ (imm.extractLsb' 0 8 : Byte)) = imm := by exact join2 _
  have h1 : ((((0 : BitVec 2) ++ BitVec.ofBool tt ++ tag ++ sz) : Byte).extractLsb' 0 3) = sz := by decide +revert
  have h2 : ((((0 : BitVec 2) ++ BitVec.ofBool tt ++ tag ++ sz) : Byte).extractLsb' 3 2) = tag := by decide +revert
  have h3 : ((((0 : BitVec 2) ++ BitVec.ofBool tt ++ tag ++ sz) : Byte).getLsbD 5) = tt := by decide +revert
  have h4 : ((((0 : BitVec 2) ++ BitVec.ofBool tt ++ tag ++ sz) : Byte).extractLsb' 6 2) = 0 := by decide +revert
  intro hw w he
  exact decodeWord_encode rfl (by
    simp only [Raw.toInstr, decodeOps8, bind_ok, Opd.ofCode_code, BitVec.reduceToNat, Nat.reduceLeDiff, Nat.reduceLT, false_and, and_false, if_false, if_true, unused_ff, ezero_zero, fzero_zero, Rm.ofCode_code, h0, h1, h2, h3, h4]) hw he

theorem sts : ∀ q d a imm sz tag tt, Statement (.sts q d a imm sz tag tt) := by
  intro q d a imm sz tag tt
  have h0 : ((imm.extractLsb' 8 8 : Byte) ++ (imm.extractLsb' 0 8 : Byte)) = imm := by exact join2 _
  have h1 : ((((0 : BitVec 2) ++ BitVec.ofBool tt ++ tag ++ sz) : Byte).extractLsb' 0 3) = sz := by decide +revert
  have h2 : ((((0 : BitVec 2) ++ BitVec.ofBool tt ++ tag ++ sz) : Byte).extractLsb' 3 2) = tag := by decide +revert
  have h3 : ((((0 : BitVec 2) ++ BitVec.ofBool tt ++ tag ++ sz) : Byte).getLsbD 5) = tt := by decide +revert
  have h4 : ((((0 : BitVec 2) ++ BitVec.ofBool tt ++ tag ++ sz) : Byte).extractLsb' 6 2) = 0 := by decide +revert
  intro hw w he
  exact decodeWord_encode rfl (by
    simp only [Raw.toInstr, decodeOps8, bind_ok, Opd.ofCode_code, BitVec.reduceToNat, Nat.reduceLeDiff, Nat.reduceLT, false_and, and_false, if_false, if_true, unused_ff, ezero_zero, fzero_zero, Rm.ofCode_code, h0, h1, h2, h3, h4]) hw he

theorem pfl : ∀ q a imm lease lvl, Statement (.pfl q a imm lease lvl) := by
  intro q a imm lease lvl
  have h0 : ((imm.extractLsb' 8 8 : Byte) ++ (imm.extractLsb' 0 8 : Byte)) = imm := by exact join2 _
  have h1 : ((((0 : BitVec 1) ++ BitVec.ofBool lvl ++ (0 : BitVec 1) ++ lease ++ (0 : BitVec 3)) : Byte).extractLsb' 3 2) = lease := by decide +revert
  have h2 : ((((0 : BitVec 1) ++ BitVec.ofBool lvl ++ (0 : BitVec 1) ++ lease ++ (0 : BitVec 3)) : Byte).getLsbD 6) = lvl := by decide +revert
  have h3 : ((((0 : BitVec 1) ++ BitVec.ofBool lvl ++ (0 : BitVec 1) ++ lease ++ (0 : BitVec 3)) : Byte).extractLsb' 0 3) = 0 := by decide +revert
  have h4 : ((((0 : BitVec 1) ++ BitVec.ofBool lvl ++ (0 : BitVec 1) ++ lease ++ (0 : BitVec 3)) : Byte).extractLsb' 5 1) = 0 := by decide +revert
  have h5 : ((((0 : BitVec 1) ++ BitVec.ofBool lvl ++ (0 : BitVec 1) ++ lease ++ (0 : BitVec 3)) : Byte).extractLsb' 7 1) = 0 := by decide +revert
  intro hw w he
  exact decodeWord_encode rfl (by
    simp only [Raw.toInstr, decodeOps8, bind_ok, Opd.ofCode_code, BitVec.reduceToNat, Nat.reduceLeDiff, Nat.reduceLT, false_and, and_false, if_false, if_true, unused_ff, ezero_zero, fzero_zero, Rm.ofCode_code, h0, h1, h2, h3, h4, h5]) hw he

theorem atom : ∀ q d a b fn w64 ord, Statement (.atom q d a b fn w64 ord) := by
  intro q d a b fn w64 ord
  have h0 : ((((0 : BitVec 1) ++ ord ++ BitVec.ofBool w64 ++ fn) : Byte).extractLsb' 0 4) = fn := by decide +revert
  have h1 : ((((0 : BitVec 1) ++ ord ++ BitVec.ofBool w64 ++ fn) : Byte).getLsbD 4) = w64 := by decide +revert
  have h2 : ((((0 : BitVec 1) ++ ord ++ BitVec.ofBool w64 ++ fn) : Byte).extractLsb' 5 2) = ord := by decide +revert
  have h3 : ((((0 : BitVec 1) ++ ord ++ BitVec.ofBool w64 ++ fn) : Byte).extractLsb' 7 1) = 0 := by decide +revert
  intro hw w he
  exact decodeWord_encode rfl (by
    simp only [Raw.toInstr, decodeOps8, bind_ok, Opd.ofCode_code, BitVec.reduceToNat, Nat.reduceLeDiff, Nat.reduceLT, false_and, and_false, if_false, if_true, unused_ff, ezero_zero, fzero_zero, Rm.ofCode_code, h0, h1, h2, h3]) hw he

theorem acas : ∀ q d a b c w64 ord, Statement (.acas q d a b c w64 ord) := by
  intro q d a b c w64 ord
  have h0 : ((((0 : BitVec 1) ++ ord ++ BitVec.ofBool w64 ++ (0 : BitVec 4)) : Byte).getLsbD 4) = w64 := by decide +revert
  have h1 : ((((0 : BitVec 1) ++ ord ++ BitVec.ofBool w64 ++ (0 : BitVec 4)) : Byte).extractLsb' 5 2) = ord := by decide +revert
  have h2 : ((((0 : BitVec 1) ++ ord ++ BitVec.ofBool w64 ++ (0 : BitVec 4)) : Byte).extractLsb' 0 4) = 0 := by decide +revert
  have h3 : ((((0 : BitVec 1) ++ ord ++ BitVec.ofBool w64 ++ (0 : BitVec 4)) : Byte).extractLsb' 7 1) = 0 := by decide +revert
  intro hw w he
  exact decodeWord_encode rfl (by
    simp only [Raw.toInstr, decodeOps8, bind_ok, Opd.ofCode_code, BitVec.reduceToNat, Nat.reduceLeDiff, Nat.reduceLT, false_and, and_false, if_false, if_true, unused_ff, ezero_zero, fzero_zero, Rm.ofCode_code, h0, h1, h2, h3]) hw he

theorem red : ∀ q a b fn w64 ordered scope, Statement (.red q a b fn w64 ordered scope) := by
  intro q a b fn w64 ordered scope
  have h0 : (((scope ++ BitVec.ofBool ordered ++ BitVec.ofBool w64 ++ fn) : Byte).extractLsb' 0 4) = fn := by decide +revert
  have h1 : (((scope ++ BitVec.ofBool ordered ++ BitVec.ofBool w64 ++ fn) : Byte).getLsbD 4) = w64 := by decide +revert
  have h2 : (((scope ++ BitVec.ofBool ordered ++ BitVec.ofBool w64 ++ fn) : Byte).getLsbD 5) = ordered := by decide +revert
  have h3 : (((scope ++ BitVec.ofBool ordered ++ BitVec.ofBool w64 ++ fn) : Byte).extractLsb' 6 2) = scope := by decide +revert
  intro hw w he
  exact decodeWord_encode rfl (by
    simp only [Raw.toInstr, decodeOps8, bind_ok, Opd.ofCode_code, BitVec.reduceToNat, Nat.reduceLeDiff, Nat.reduceLT, false_and, and_false, if_false, if_true, unused_ff, ezero_zero, fzero_zero, Rm.ofCode_code, h0, h1, h2, h3]) hw he

theorem fence : ∀ q kind scope, Statement (.fence q kind scope) := by
  intro q kind scope
  have h0 : ((((0 : BitVec 4) ++ scope ++ kind) : Byte).extractLsb' 0 2) = kind := by decide +revert
  have h1 : ((((0 : BitVec 4) ++ scope ++ kind) : Byte).extractLsb' 2 2) = scope := by decide +revert
  have h2 : ((((0 : BitVec 4) ++ scope ++ kind) : Byte).extractLsb' 4 4) = 0 := by decide +revert
  intro hw w he
  exact decodeWord_encode rfl (by
    simp only [Raw.toInstr, decodeOps8, bind_ok, Opd.ofCode_code, BitVec.reduceToNat, Nat.reduceLeDiff, Nat.reduceLT, false_and, and_false, if_false, if_true, unused_ff, ezero_zero, fzero_zero, Rm.ofCode_code, h0, h1, h2]) hw he

theorem cwb : ∀ q a b all, Statement (.cwb q a b all) := by
  intro q a b all
  have h0 : ((((0 : BitVec 7) ++ BitVec.ofBool all) : Byte).getLsbD 0) = all := by decide +revert
  have h1 : ((((0 : BitVec 7) ++ BitVec.ofBool all) : Byte).extractLsb' 1 7) = 0 := by decide +revert
  intro hw w he
  exact decodeWord_encode rfl (by
    simp only [Raw.toInstr, decodeOps8, bind_ok, Opd.ofCode_code, BitVec.reduceToNat, Nat.reduceLeDiff, Nat.reduceLT, false_and, and_false, if_false, if_true, unused_ff, ezero_zero, fzero_zero, Rm.ofCode_code, h0, h1]) hw he

theorem cinv : ∀ q a b all, Statement (.cinv q a b all) := by
  intro q a b all
  have h0 : ((((0 : BitVec 7) ++ BitVec.ofBool all) : Byte).getLsbD 0) = all := by decide +revert
  have h1 : ((((0 : BitVec 7) ++ BitVec.ofBool all) : Byte).extractLsb' 1 7) = 0 := by decide +revert
  intro hw w he
  exact decodeWord_encode rfl (by
    simp only [Raw.toInstr, decodeOps8, bind_ok, Opd.ofCode_code, BitVec.reduceToNat, Nat.reduceLeDiff, Nat.reduceLT, false_and, and_false, if_false, if_true, unused_ff, ezero_zero, fzero_zero, Rm.ofCode_code, h0, h1]) hw he

theorem tagset : ∀ q a b full, Statement (.tagset q a b full) := by
  intro q a b full
  have h0 : ((((0 : BitVec 7) ++ BitVec.ofBool full) : Byte).getLsbD 0) = full := by decide +revert
  have h1 : ((((0 : BitVec 7) ++ BitVec.ofBool full) : Byte).extractLsb' 1 7) = 0 := by decide +revert
  intro hw w he
  exact decodeWord_encode rfl (by
    simp only [Raw.toInstr, decodeOpsA, bind_ok, Opd.ofCode_code, BitVec.reduceToNat, Nat.reduceLeDiff, Nat.reduceLT, false_and, and_false, if_false, if_true, unused_ff, ezero_zero, fzero_zero, Rm.ofCode_code, h0, h1]) hw he

theorem tagrd : ∀ q d a, Statement (.tagrd q d a) := by
  intro q d a
  intro hw w he
  exact decodeWord_encode rfl (by
    simp only [Raw.toInstr, decodeOpsA, bind_ok, Opd.ofCode_code, BitVec.reduceToNat, Nat.reduceLeDiff, Nat.reduceLT, false_and, and_false, if_false, if_true, unused_ff, ezero_zero, fzero_zero, Rm.ofCode_code]) hw he

theorem awinit : ∀ q a b clr, Statement (.awinit q a b clr) := by
  intro q a b clr
  have h0 : ((((0 : BitVec 7) ++ BitVec.ofBool clr) : Byte).getLsbD 0) = clr := by decide +revert
  have h1 : ((((0 : BitVec 7) ++ BitVec.ofBool clr) : Byte).extractLsb' 1 7) = 0 := by decide +revert
  intro hw w he
  exact decodeWord_encode rfl (by
    simp only [Raw.toInstr, decodeOpsA, bind_ok, Opd.ofCode_code, BitVec.reduceToNat, Nat.reduceLeDiff, Nat.reduceLT, false_and, and_false, if_false, if_true, unused_ff, ezero_zero, fzero_zero, Rm.ofCode_code, h0, h1]) hw he

theorem awadd : ∀ q a b, Statement (.awadd q a b) := by
  intro q a b
  intro hw w he
  exact decodeWord_encode rfl (by
    simp only [Raw.toInstr, decodeOpsA, bind_ok, Opd.ofCode_code, BitVec.reduceToNat, Nat.reduceLeDiff, Nat.reduceLT, false_and, and_false, if_false, if_true, unused_ff, ezero_zero, fzero_zero, Rm.ofCode_code]) hw he

theorem await : ∀ q d a b, Statement (.await q d a b) := by
  intro q d a b
  intro hw w he
  exact decodeWord_encode rfl (by
    simp only [Raw.toInstr, decodeOpsA, bind_ok, Opd.ofCode_code, BitVec.reduceToNat, Nat.reduceLeDiff, Nat.reduceLT, false_and, and_false, if_false, if_true, unused_ff, ezero_zero, fzero_zero, Rm.ofCode_code]) hw he

theorem cpy : ∀ q d a b c dir, Statement (.cpy q d a b c dir) := by
  intro q d a b c dir
  have h0 : ((((0 : BitVec 6) ++ dir) : Byte).extractLsb' 0 2) = dir := by decide +revert
  have h1 : ((((0 : BitVec 6) ++ dir) : Byte).extractLsb' 2 6) = 0 := by decide +revert
  intro hw w he
  exact decodeWord_encode rfl (by
    simp only [Raw.toInstr, decodeOpsA, bind_ok, Opd.ofCode_code, BitVec.reduceToNat, Nat.reduceLeDiff, Nat.reduceLT, false_and, and_false, if_false, if_true, unused_ff, ezero_zero, fzero_zero, Rm.ofCode_code, h0, h1]) hw he

theorem cpyn : ∀ q d a b c dir, Statement (.cpyn q d a b c dir) := by
  intro q d a b c dir
  have h0 : ((((0 : BitVec 6) ++ dir) : Byte).extractLsb' 0 2) = dir := by decide +revert
  have h1 : ((((0 : BitVec 6) ++ dir) : Byte).extractLsb' 2 6) = 0 := by decide +revert
  intro hw w he
  exact decodeWord_encode rfl (by
    simp only [Raw.toInstr, decodeOpsA, bind_ok, Opd.ofCode_code, BitVec.reduceToNat, Nat.reduceLeDiff, Nat.reduceLT, false_and, and_false, if_false, if_true, unused_ff, ezero_zero, fzero_zero, Rm.ofCode_code, h0, h1]) hw he

theorem cpyx : ∀ q d a b c sp, Statement (.cpyx q d a b c sp) := by
  intro q d a b c sp
  have h0 : ((((0 : BitVec 7) ++ BitVec.ofBool sp) : Byte).getLsbD 0) = sp := by decide +revert
  have h1 : ((((0 : BitVec 7) ++ BitVec.ofBool sp) : Byte).extractLsb' 1 7) = 0 := by decide +revert
  intro hw w he
  exact decodeWord_encode rfl (by
    simp only [Raw.toInstr, decodeOpsA, bind_ok, Opd.ofCode_code, BitVec.reduceToNat, Nat.reduceLeDiff, Nat.reduceLT, false_and, and_false, if_false, if_true, unused_ff, ezero_zero, fzero_zero, Rm.ofCode_code, h0, h1]) hw he

theorem cpyp : ∀ q d a b c sp, Statement (.cpyp q d a b c sp) := by
  intro q d a b c sp
  have h0 : ((((0 : BitVec 7) ++ BitVec.ofBool sp) : Byte).getLsbD 0) = sp := by decide +revert
  have h1 : ((((0 : BitVec 7) ++ BitVec.ofBool sp) : Byte).extractLsb' 1 7) = 0 := by decide +revert
  intro hw w he
  exact decodeWord_encode rfl (by
    simp only [Raw.toInstr, decodeOpsA, bind_ok, Opd.ofCode_code, BitVec.reduceToNat, Nat.reduceLeDiff, Nat.reduceLT, false_and, and_false, if_false, if_true, unused_ff, ezero_zero, fzero_zero, Rm.ofCode_code, h0, h1]) hw he

theorem gath : ∀ q d a b c esz, Statement (.gath q d a b c esz) := by
  intro q d a b c esz
  have h0 : ((((0 : BitVec 5) ++ esz) : Byte).extractLsb' 0 3) = esz := by decide +revert
  have h1 : ((((0 : BitVec 5) ++ esz) : Byte).extractLsb' 3 5) = 0 := by decide +revert
  intro hw w he
  exact decodeWord_encode rfl (by
    simp only [Raw.toInstr, decodeOpsA, bind_ok, Opd.ofCode_code, BitVec.reduceToNat, Nat.reduceLeDiff, Nat.reduceLT, false_and, and_false, if_false, if_true, unused_ff, ezero_zero, fzero_zero, Rm.ofCode_code, h0, h1]) hw he

theorem scat : ∀ q d a b c esz, Statement (.scat q d a b c esz) := by
  intro q d a b c esz
  have h0 : ((((0 : BitVec 5) ++ esz) : Byte).extractLsb' 0 3) = esz := by decide +revert
  have h1 : ((((0 : BitVec 5) ++ esz) : Byte).extractLsb' 3 5) = 0 := by decide +revert
  intro hw w he
  exact decodeWord_encode rfl (by
    simp only [Raw.toInstr, decodeOpsA, bind_ok, Opd.ofCode_code, BitVec.reduceToNat, Nat.reduceLeDiff, Nat.reduceLT, false_and, and_false, if_false, if_true, unused_ff, ezero_zero, fzero_zero, Rm.ofCode_code, h0, h1]) hw he

theorem cvsign : ∀ q d a cv wait, Statement (.cvsign q d a cv wait) := by
  intro q d a cv wait
  have h0 : ((((0 : BitVec 3) ++ BitVec.ofBool wait ++ cv) : Byte).extractLsb' 0 4) = cv := by decide +revert
  have h1 : ((((0 : BitVec 3) ++ BitVec.ofBool wait ++ cv) : Byte).getLsbD 4) = wait := by decide +revert
  have h2 : ((((0 : BitVec 3) ++ BitVec.ofBool wait ++ cv) : Byte).extractLsb' 5 3) = 0 := by decide +revert
  intro hw w he
  exact decodeWord_encode rfl (by
    simp only [Raw.toInstr, decodeOpsA, bind_ok, Opd.ofCode_code, BitVec.reduceToNat, Nat.reduceLeDiff, Nat.reduceLT, false_and, and_false, if_false, if_true, unused_ff, ezero_zero, fzero_zero, Rm.ofCode_code, h0, h1, h2]) hw he

theorem cvwait : ∀ q a cv, Statement (.cvwait q a cv) := by
  intro q a cv
  have h0 : ((((0 : BitVec 4) ++ cv) : Byte).extractLsb' 0 4) = cv := by decide +revert
  have h1 : ((((0 : BitVec 4) ++ cv) : Byte).extractLsb' 4 4) = 0 := by decide +revert
  intro hw w he
  exact decodeWord_encode rfl (by
    simp only [Raw.toInstr, decodeOpsA, bind_ok, Opd.ofCode_code, BitVec.reduceToNat, Nat.reduceLeDiff, Nat.reduceLT, false_and, and_false, if_false, if_true, unused_ff, ezero_zero, fzero_zero, Rm.ofCode_code, h0, h1]) hw he

theorem cvrst : ∀ q cv, Statement (.cvrst q cv) := by
  intro q cv
  have h0 : ((((0 : BitVec 4) ++ cv) : Byte).extractLsb' 0 4) = cv := by decide +revert
  have h1 : ((((0 : BitVec 4) ++ cv) : Byte).extractLsb' 4 4) = 0 := by decide +revert
  intro hw w he
  exact decodeWord_encode rfl (by
    simp only [Raw.toInstr, decodeOpsA, bind_ok, Opd.ofCode_code, BitVec.reduceToNat, Nat.reduceLeDiff, Nat.reduceLT, false_and, and_false, if_false, if_true, unused_ff, ezero_zero, fzero_zero, Rm.ofCode_code, h0, h1]) hw he

theorem waitc : ∀ q cp mx qu gs, Statement (.waitc q cp mx qu gs) := by
  intro q cp mx qu gs
  have h0 : (((cp ++ mx) : Byte).extractLsb' 4 4) = cp := by decide +revert
  have h1 : (((cp ++ mx) : Byte).extractLsb' 0 4) = mx := by decide +revert
  have h2 : (((qu ++ gs) : Byte).extractLsb' 4 4) = qu := by decide +revert
  have h3 : (((qu ++ gs) : Byte).extractLsb' 0 4) = gs := by decide +revert
  intro hw w he
  exact decodeWord_encode rfl (by
    simp only [Raw.toInstr, decodeOpsA, bind_ok, Opd.ofCode_code, BitVec.reduceToNat, Nat.reduceLeDiff, Nat.reduceLT, false_and, and_false, if_false, if_true, unused_ff, ezero_zero, fzero_zero, Rm.ofCode_code, h0, h1, h2, h3]) hw he

theorem mwait : ∀ q a b c w64 acq, Statement (.mwait q a b c w64 acq) := by
  intro q a b c w64 acq
  have h0 : ((((0 : BitVec 6) ++ BitVec.ofBool acq ++ BitVec.ofBool w64) : Byte).getLsbD 0) = w64 := by decide +revert
  have h1 : ((((0 : BitVec 6) ++ BitVec.ofBool acq ++ BitVec.ofBool w64) : Byte).getLsbD 1) = acq := by decide +revert
  have h2 : ((((0 : BitVec 6) ++ BitVec.ofBool acq ++ BitVec.ofBool w64) : Byte).extractLsb' 2 6) = 0 := by decide +revert
  intro hw w he
  exact decodeWord_encode rfl (by
    simp only [Raw.toInstr, decodeOpsA, bind_ok, Opd.ofCode_code, BitVec.reduceToNat, Nat.reduceLeDiff, Nat.reduceLT, false_and, and_false, if_false, if_true, unused_ff, ezero_zero, fzero_zero, Rm.ofCode_code, h0, h1, h2]) hw he

theorem park : ∀ q a, Statement (.park q a) := by
  intro q a
  intro hw w he
  exact decodeWord_encode rfl (by
    simp only [Raw.toInstr, decodeOpsA, bind_ok, Opd.ofCode_code, BitVec.reduceToNat, Nat.reduceLeDiff, Nat.reduceLT, false_and, and_false, if_false, if_true, unused_ff, ezero_zero, fzero_zero, Rm.ofCode_code]) hw he

theorem thal : ∀ q d a b sf ps, Statement (.thal q d a b sf ps) := by
  intro q d a b sf ps
  have h0 : ((((0 : BitVec 3) ++ ps ++ BitVec.ofBool sf) : Byte).getLsbD 0) = sf := by decide +revert
  have h1 : ((((0 : BitVec 3) ++ ps ++ BitVec.ofBool sf) : Byte).extractLsb' 1 4) = ps := by decide +revert
  have h2 : ((((0 : BitVec 3) ++ ps ++ BitVec.ofBool sf) : Byte).extractLsb' 5 3) = 0 := by decide +revert
  intro hw w he
  exact decodeWord_encode rfl (by
    simp only [Raw.toInstr, decodeOpsC, bind_ok, Opd.ofCode_code, BitVec.reduceToNat, Nat.reduceLeDiff, Nat.reduceLT, false_and, and_false, if_false, if_true, unused_ff, ezero_zero, fzero_zero, Rm.ofCode_code, h0, h1, h2]) hw he

theorem threl : ∀ q a, Statement (.threl q a) := by
  intro q a
  intro hw w he
  exact decodeWord_encode rfl (by
    simp only [Raw.toInstr, decodeOpsC, bind_ok, Opd.ofCode_code, BitVec.reduceToNat, Nat.reduceLeDiff, Nat.reduceLT, false_and, and_false, if_false, if_true, unused_ff, ezero_zero, fzero_zero, Rm.ofCode_code]) hw he

theorem thgive : ∀ q a b, Statement (.thgive q a b) := by
  intro q a b
  intro hw w he
  exact decodeWord_encode rfl (by
    simp only [Raw.toInstr, decodeOpsC, bind_ok, Opd.ofCode_code, BitVec.reduceToNat, Nat.reduceLeDiff, Nat.reduceLT, false_and, and_false, if_false, if_true, unused_ff, ezero_zero, fzero_zero, Rm.ofCode_code]) hw he

theorem thinfo : ∀ q d a, Statement (.thinfo q d a) := by
  intro q d a
  intro hw w he
  exact decodeWord_encode rfl (by
    simp only [Raw.toInstr, decodeOpsC, bind_ok, Opd.ofCode_code, BitVec.reduceToNat, Nat.reduceLeDiff, Nat.reduceLT, false_and, and_false, if_false, if_true, unused_ff, ezero_zero, fzero_zero, Rm.ofCode_code]) hw he

theorem cpyt : ∀ q d a b sp, Statement (.cpyt q d a b sp) := by
  intro q d a b sp
  have h0 : ((((0 : BitVec 7) ++ BitVec.ofBool sp) : Byte).getLsbD 0) = sp := by decide +revert
  have h1 : ((((0 : BitVec 7) ++ BitVec.ofBool sp) : Byte).extractLsb' 1 7) = 0 := by decide +revert
  intro hw w he
  exact decodeWord_encode rfl (by
    simp only [Raw.toInstr, decodeOpsC, bind_ok, Opd.ofCode_code, BitVec.reduceToNat, Nat.reduceLeDiff, Nat.reduceLT, false_and, and_false, if_false, if_true, unused_ff, ezero_zero, fzero_zero, Rm.ofCode_code, h0, h1]) hw he

theorem thst : ∀ q d a b sp, Statement (.thst q d a b sp) := by
  intro q d a b sp
  have h0 : ((((0 : BitVec 7) ++ BitVec.ofBool sp) : Byte).getLsbD 0) = sp := by decide +revert
  have h1 : ((((0 : BitVec 7) ++ BitVec.ofBool sp) : Byte).extractLsb' 1 7) = 0 := by decide +revert
  intro hw w he
  exact decodeWord_encode rfl (by
    simp only [Raw.toInstr, decodeOpsC, bind_ok, Opd.ofCode_code, BitVec.reduceToNat, Nat.reduceLeDiff, Nat.reduceLT, false_and, and_false, if_false, if_true, unused_ff, ezero_zero, fzero_zero, Rm.ofCode_code, h0, h1]) hw he

theorem accz : ∀ q a b, Statement (.accz q a b) := by
  intro q a b
  intro hw w he
  exact decodeWord_encode rfl (by
    simp only [Raw.toInstr, decodeOpsC, bind_ok, Opd.ofCode_code, BitVec.reduceToNat, Nat.reduceLeDiff, Nat.reduceLT, false_and, and_false, if_false, if_true, unused_ff, ezero_zero, fzero_zero, Rm.ofCode_code]) hw he

theorem accld : ∀ q d a b c sp, Statement (.accld q d a b c sp) := by
  intro q d a b c sp
  have h0 : ((((0 : BitVec 7) ++ BitVec.ofBool sp) : Byte).getLsbD 0) = sp := by decide +revert
  have h1 : ((((0 : BitVec 7) ++ BitVec.ofBool sp) : Byte).extractLsb' 1 7) = 0 := by decide +revert
  intro hw w he
  exact decodeWord_encode rfl (by
    simp only [Raw.toInstr, decodeOpsC, bind_ok, Opd.ofCode_code, BitVec.reduceToNat, Nat.reduceLeDiff, Nat.reduceLT, false_and, and_false, if_false, if_true, unused_ff, ezero_zero, fzero_zero, Rm.ofCode_code, h0, h1]) hw he

theorem accst : ∀ q d a b c sp clr, Statement (.accst q d a b c sp clr) := by
  intro q d a b c sp clr
  have h0 : ((((0 : BitVec 6) ++ BitVec.ofBool clr ++ BitVec.ofBool sp) : Byte).getLsbD 0) = sp := by decide +revert
  have h1 : ((((0 : BitVec 6) ++ BitVec.ofBool clr ++ BitVec.ofBool sp) : Byte).getLsbD 1) = clr := by decide +revert
  have h2 : ((((0 : BitVec 6) ++ BitVec.ofBool clr ++ BitVec.ofBool sp) : Byte).extractLsb' 2 6) = 0 := by decide +revert
  intro hw w he
  exact decodeWord_encode rfl (by
    simp only [Raw.toInstr, decodeOpsC, bind_ok, Opd.ofCode_code, BitVec.reduceToNat, Nat.reduceLeDiff, Nat.reduceLT, false_and, and_false, if_false, if_true, unused_ff, ezero_zero, fzero_zero, Rm.ofCode_code, h0, h1, h2]) hw he

theorem accrd : ∀ q d a n, Statement (.accrd q d a n) := by
  intro q d a n
  have h0 : ((((0 : BitVec 6) ++ n) : Byte).extractLsb' 0 2) = n := by decide +revert
  have h1 : ((((0 : BitVec 6) ++ n) : Byte).extractLsb' 2 6) = 0 := by decide +revert
  intro hw w he
  exact decodeWord_encode rfl (by
    simp only [Raw.toInstr, decodeOpsC, bind_ok, Opd.ofCode_code, BitVec.reduceToNat, Nat.reduceLeDiff, Nat.reduceLT, false_and, and_false, if_false, if_true, unused_ff, ezero_zero, fzero_zero, Rm.ofCode_code, h0, h1]) hw he

theorem mma : ∀ q cv a b c af, Statement (.mma q cv a b c af) := by
  intro q cv a b c af
  have h0 : ((((0 : BitVec 4) ++ cv) : Byte).extractLsb' 0 4) = cv := by decide +revert
  have h1 : ((((0 : BitVec 7) ++ BitVec.ofBool af) : Byte).getLsbD 0) = af := by decide +revert
  have h2 : ((((0 : BitVec 4) ++ cv) : Byte).extractLsb' 4 4) = 0 := by decide +revert
  have h3 : ((((0 : BitVec 7) ++ BitVec.ofBool af) : Byte).extractLsb' 1 7) = 0 := by decide +revert
  intro hw w he
  exact decodeWord_encode rfl (by
    simp only [Raw.toInstr, decodeOpsC, bind_ok, Opd.ofCode_code, BitVec.reduceToNat, Nat.reduceLeDiff, Nat.reduceLT, false_and, and_false, if_false, if_true, unused_ff, ezero_zero, fzero_zero, Rm.ofCode_code, h0, h1, h2, h3]) hw he

theorem mmal : ∀ q cv a b c af ks, Statement (.mmal q cv a b c af ks) := by
  intro q cv a b c af ks
  have h0 : ((((0 : BitVec 4) ++ cv) : Byte).extractLsb' 0 4) = cv := by decide +revert
  have h1 : ((((0 : BitVec 5) ++ ks ++ BitVec.ofBool af) : Byte).getLsbD 0) = af := by decide +revert
  have h2 : ((((0 : BitVec 5) ++ ks ++ BitVec.ofBool af) : Byte).extractLsb' 1 2) = ks := by decide +revert
  have h3 : ((((0 : BitVec 4) ++ cv) : Byte).extractLsb' 4 4) = 0 := by decide +revert
  have h4 : ((((0 : BitVec 5) ++ ks ++ BitVec.ofBool af) : Byte).extractLsb' 3 5) = 0 := by decide +revert
  intro hw w he
  exact decodeWord_encode rfl (by
    simp only [Raw.toInstr, decodeOpsC, bind_ok, Opd.ofCode_code, BitVec.reduceToNat, Nat.reduceLeDiff, Nat.reduceLT, false_and, and_false, if_false, if_true, unused_ff, ezero_zero, fzero_zero, Rm.ofCode_code, h0, h1, h2, h3, h4]) hw he

theorem phmma : ∀ q cv a b c conj, Statement (.phmma q cv a b c conj) := by
  intro q cv a b c conj
  have h0 : ((((0 : BitVec 4) ++ cv) : Byte).extractLsb' 0 4) = cv := by decide +revert
  have h1 : ((((0 : BitVec 7) ++ BitVec.ofBool conj) : Byte).getLsbD 0) = conj := by decide +revert
  have h2 : ((((0 : BitVec 4) ++ cv) : Byte).extractLsb' 4 4) = 0 := by decide +revert
  have h3 : ((((0 : BitVec 7) ++ BitVec.ofBool conj) : Byte).extractLsb' 1 7) = 0 := by decide +revert
  intro hw w he
  exact decodeWord_encode rfl (by
    simp only [Raw.toInstr, decodeOpsC, bind_ok, Opd.ofCode_code, BitVec.reduceToNat, Nat.reduceLeDiff, Nat.reduceLT, false_and, and_false, if_false, if_true, unused_ff, ezero_zero, fzero_zero, Rm.ofCode_code, h0, h1, h2, h3]) hw he

theorem phfin : ∀ q d a b c clr, Statement (.phfin q d a b c clr) := by
  intro q d a b c clr
  have h0 : ((((0 : BitVec 7) ++ BitVec.ofBool clr) : Byte).getLsbD 0) = clr := by decide +revert
  have h1 : ((((0 : BitVec 7) ++ BitVec.ofBool clr) : Byte).extractLsb' 1 7) = 0 := by decide +revert
  intro hw w he
  exact decodeWord_encode rfl (by
    simp only [Raw.toInstr, decodeOpsC, bind_ok, Opd.ofCode_code, BitVec.reduceToNat, Nat.reduceLeDiff, Nat.reduceLT, false_and, and_false, if_false, if_true, unused_ff, ezero_zero, fzero_zero, Rm.ofCode_code, h0, h1]) hw he

theorem qnt : ∀ q d a b c fmt bl ci clr, Statement (.qnt q d a b c fmt bl ci clr) := by
  intro q d a b c fmt bl ci clr
  have h0 : ((((0 : BitVec 2) ++ BitVec.ofBool clr ++ BitVec.ofBool ci ++ bl ++ fmt) : Byte).extractLsb' 0 2) = fmt := by decide +revert
  have h1 : ((((0 : BitVec 2) ++ BitVec.ofBool clr ++ BitVec.ofBool ci ++ bl ++ fmt) : Byte).extractLsb' 2 2) = bl := by decide +revert
  have h2 : ((((0 : BitVec 2) ++ BitVec.ofBool clr ++ BitVec.ofBool ci ++ bl ++ fmt) : Byte).getLsbD 4) = ci := by decide +revert
  have h3 : ((((0 : BitVec 2) ++ BitVec.ofBool clr ++ BitVec.ofBool ci ++ bl ++ fmt) : Byte).getLsbD 5) = clr := by decide +revert
  have h4 : ((((0 : BitVec 2) ++ BitVec.ofBool clr ++ BitVec.ofBool ci ++ bl ++ fmt) : Byte).extractLsb' 6 2) = 0 := by decide +revert
  intro hw w he
  exact decodeWord_encode rfl (by
    simp only [Raw.toInstr, decodeOpsC, bind_ok, Opd.ofCode_code, BitVec.reduceToNat, Nat.reduceLeDiff, Nat.reduceLT, false_and, and_false, if_false, if_true, unused_ff, ezero_zero, fzero_zero, Rm.ofCode_code, h0, h1, h2, h3, h4]) hw he

theorem qopen : ∀ q d a sf ps, Statement (.qopen q d a sf ps) := by
  intro q d a sf ps
  have h0 : ((((0 : BitVec 3) ++ ps ++ BitVec.ofBool sf) : Byte).getLsbD 0) = sf := by decide +revert
  have h1 : ((((0 : BitVec 3) ++ ps ++ BitVec.ofBool sf) : Byte).extractLsb' 1 4) = ps := by decide +revert
  have h2 : ((((0 : BitVec 3) ++ ps ++ BitVec.ofBool sf) : Byte).extractLsb' 5 3) = 0 := by decide +revert
  intro hw w he
  exact decodeWord_encode rfl (by
    simp only [Raw.toInstr, decodeOpsE, bind_ok, Opd.ofCode_code, BitVec.reduceToNat, Nat.reduceLeDiff, Nat.reduceLT, false_and, and_false, if_false, if_true, unused_ff, ezero_zero, fzero_zero, Rm.ofCode_code, h0, h1, h2]) hw he

theorem qrsv : ∀ q d a b sf ps, Statement (.qrsv q d a b sf ps) := by
  intro q d a b sf ps
  have h0 : ((((0 : BitVec 3) ++ ps ++ BitVec.ofBool sf) : Byte).getLsbD 0) = sf := by decide +revert
  have h1 : ((((0 : BitVec 3) ++ ps ++ BitVec.ofBool sf) : Byte).extractLsb' 1 4) = ps := by decide +revert
  have h2 : ((((0 : BitVec 3) ++ ps ++ BitVec.ofBool sf) : Byte).extractLsb' 5 3) = 0 := by decide +revert
  intro hw w he
  exact decodeWord_encode rfl (by
    simp only [Raw.toInstr, decodeOpsE, bind_ok, Opd.ofCode_code, BitVec.reduceToNat, Nat.reduceLeDiff, Nat.reduceLT, false_and, and_false, if_false, if_true, unused_ff, ezero_zero, fzero_zero, Rm.ofCode_code, h0, h1, h2]) hw he

theorem qput : ∀ q d a b rel len sf ps, Statement (.qput q d a b rel len sf ps) := by
  intro q d a b rel len sf ps
  have h0 : (((len ++ BitVec.ofBool rel ++ ps ++ BitVec.ofBool sf) : Byte).getLsbD 5) = rel := by decide +revert
  have h1 : (((len ++ BitVec.ofBool rel ++ ps ++ BitVec.ofBool sf) : Byte).extractLsb' 6 2) = len := by decide +revert
  have h2 : (((len ++ BitVec.ofBool rel ++ ps ++ BitVec.ofBool sf) : Byte).getLsbD 0) = sf := by decide +revert
  have h3 : (((len ++ BitVec.ofBool rel ++ ps ++ BitVec.ofBool sf) : Byte).extractLsb' 1 4) = ps := by decide +revert
  intro hw w he
  exact decodeWord_encode rfl (by
    simp only [Raw.toInstr, decodeOpsE, bind_ok, Opd.ofCode_code, BitVec.reduceToNat, Nat.reduceLeDiff, Nat.reduceLT, false_and, and_false, if_false, if_true, unused_ff, ezero_zero, fzero_zero, Rm.ofCode_code, h0, h1, h2, h3]) hw he

theorem qputs : ∀ q d a b c rel sf ps, Statement (.qputs q d a b c rel sf ps) := by
  intro q d a b c rel sf ps
  have h0 : ((((0 : BitVec 2) ++ BitVec.ofBool rel ++ ps ++ BitVec.ofBool sf) : Byte).getLsbD 5) = rel := by decide +revert
  have h1 : ((((0 : BitVec 2) ++ BitVec.ofBool rel ++ ps ++ BitVec.ofBool sf) : Byte).getLsbD 0) = sf := by decide +revert
  have h2 : ((((0 : BitVec 2) ++ BitVec.ofBool rel ++ ps ++ BitVec.ofBool sf) : Byte).extractLsb' 1 4) = ps := by decide +revert
  have h3 : ((((0 : BitVec 2) ++ BitVec.ofBool rel ++ ps ++ BitVec.ofBool sf) : Byte).extractLsb' 6 2) = 0 := by decide +revert
  intro hw w he
  exact decodeWord_encode rfl (by
    simp only [Raw.toInstr, decodeOpsE, bind_ok, Opd.ofCode_code, BitVec.reduceToNat, Nat.reduceLeDiff, Nat.reduceLT, false_and, and_false, if_false, if_true, unused_ff, ezero_zero, fzero_zero, Rm.ofCode_code, h0, h1, h2, h3]) hw he

theorem qtake : ∀ q d a acq len sf ps, Statement (.qtake q d a acq len sf ps) := by
  intro q d a acq len sf ps
  have h0 : (((len ++ BitVec.ofBool acq ++ ps ++ BitVec.ofBool sf) : Byte).getLsbD 5) = acq := by decide +revert
  have h1 : (((len ++ BitVec.ofBool acq ++ ps ++ BitVec.ofBool sf) : Byte).extractLsb' 6 2) = len := by decide +revert
  have h2 : (((len ++ BitVec.ofBool acq ++ ps ++ BitVec.ofBool sf) : Byte).getLsbD 0) = sf := by decide +revert
  have h3 : (((len ++ BitVec.ofBool acq ++ ps ++ BitVec.ofBool sf) : Byte).extractLsb' 1 4) = ps := by decide +revert
  intro hw w he
  exact decodeWord_encode rfl (by
    simp only [Raw.toInstr, decodeOpsE, bind_ok, Opd.ofCode_code, BitVec.reduceToNat, Nat.reduceLeDiff, Nat.reduceLT, false_and, and_false, if_false, if_true, unused_ff, ezero_zero, fzero_zero, Rm.ofCode_code, h0, h1, h2, h3]) hw he

theorem qtakes : ∀ q d a b c acq sf ps, Statement (.qtakes q d a b c acq sf ps) := by
  intro q d a b c acq sf ps
  have h0 : ((((0 : BitVec 2) ++ BitVec.ofBool acq ++ ps ++ BitVec.ofBool sf) : Byte).getLsbD 5) = acq := by decide +revert
  have h1 : ((((0 : BitVec 2) ++ BitVec.ofBool acq ++ ps ++ BitVec.ofBool sf) : Byte).getLsbD 0) = sf := by decide +revert
  have h2 : ((((0 : BitVec 2) ++ BitVec.ofBool acq ++ ps ++ BitVec.ofBool sf) : Byte).extractLsb' 1 4) = ps := by decide +revert
  have h3 : ((((0 : BitVec 2) ++ BitVec.ofBool acq ++ ps ++ BitVec.ofBool sf) : Byte).extractLsb' 6 2) = 0 := by decide +revert
  intro hw w he
  exact decodeWord_encode rfl (by
    simp only [Raw.toInstr, decodeOpsE, bind_ok, Opd.ofCode_code, BitVec.reduceToNat, Nat.reduceLeDiff, Nat.reduceLT, false_and, and_false, if_false, if_true, unused_ff, ezero_zero, fzero_zero, Rm.ofCode_code, h0, h1, h2, h3]) hw he

theorem qpeek : ∀ q d a sf ps, Statement (.qpeek q d a sf ps) := by
  intro q d a sf ps
  have h0 : ((((0 : BitVec 3) ++ ps ++ BitVec.ofBool sf) : Byte).getLsbD 0) = sf := by decide +revert
  have h1 : ((((0 : BitVec 3) ++ ps ++ BitVec.ofBool sf) : Byte).extractLsb' 1 4) = ps := by decide +revert
  have h2 : ((((0 : BitVec 3) ++ ps ++ BitVec.ofBool sf) : Byte).extractLsb' 5 3) = 0 := by decide +revert
  intro hw w he
  exact decodeWord_encode rfl (by
    simp only [Raw.toInstr, decodeOpsE, bind_ok, Opd.ofCode_code, BitVec.reduceToNat, Nat.reduceLeDiff, Nat.reduceLT, false_and, and_false, if_false, if_true, unused_ff, ezero_zero, fzero_zero, Rm.ofCode_code, h0, h1, h2]) hw he

theorem qwait : ∀ q a sf ps, Statement (.qwait q a sf ps) := by
  intro q a sf ps
  have h0 : ((((0 : BitVec 3) ++ ps ++ BitVec.ofBool sf) : Byte).getLsbD 0) = sf := by decide +revert
  have h1 : ((((0 : BitVec 3) ++ ps ++ BitVec.ofBool sf) : Byte).extractLsb' 1 4) = ps := by decide +revert
  have h2 : ((((0 : BitVec 3) ++ ps ++ BitVec.ofBool sf) : Byte).extractLsb' 5 3) = 0 := by decide +revert
  intro hw w he
  exact decodeWord_encode rfl (by
    simp only [Raw.toInstr, decodeOpsE, bind_ok, Opd.ofCode_code, BitVec.reduceToNat, Nat.reduceLeDiff, Nat.reduceLT, false_and, and_false, if_false, if_true, unused_ff, ezero_zero, fzero_zero, Rm.ofCode_code, h0, h1, h2]) hw he

theorem qreset : ∀ q a sf ps, Statement (.qreset q a sf ps) := by
  intro q a sf ps
  have h0 : ((((0 : BitVec 3) ++ ps ++ BitVec.ofBool sf) : Byte).getLsbD 0) = sf := by decide +revert
  have h1 : ((((0 : BitVec 3) ++ ps ++ BitVec.ofBool sf) : Byte).extractLsb' 1 4) = ps := by decide +revert
  have h2 : ((((0 : BitVec 3) ++ ps ++ BitVec.ofBool sf) : Byte).extractLsb' 5 3) = 0 := by decide +revert
  intro hw w he
  exact decodeWord_encode rfl (by
    simp only [Raw.toInstr, decodeOpsE, bind_ok, Opd.ofCode_code, BitVec.reduceToNat, Nat.reduceLeDiff, Nat.reduceLT, false_and, and_false, if_false, if_true, unused_ff, ezero_zero, fzero_zero, Rm.ofCode_code, h0, h1, h2]) hw he

theorem qclose : ∀ q a sf ps, Statement (.qclose q a sf ps) := by
  intro q a sf ps
  have h0 : ((((0 : BitVec 3) ++ ps ++ BitVec.ofBool sf) : Byte).getLsbD 0) = sf := by decide +revert
  have h1 : ((((0 : BitVec 3) ++ ps ++ BitVec.ofBool sf) : Byte).extractLsb' 1 4) = ps := by decide +revert
  have h2 : ((((0 : BitVec 3) ++ ps ++ BitVec.ofBool sf) : Byte).extractLsb' 5 3) = 0 := by decide +revert
  intro hw w he
  exact decodeWord_encode rfl (by
    simp only [Raw.toInstr, decodeOpsE, bind_ok, Opd.ofCode_code, BitVec.reduceToNat, Nat.reduceLeDiff, Nat.reduceLT, false_and, and_false, if_false, if_true, unused_ff, ezero_zero, fzero_zero, Rm.ofCode_code, h0, h1, h2]) hw he

theorem launch : ∀ q a b sf ps, Statement (.launch q a b sf ps) := by
  intro q a b sf ps
  have h0 : ((((0 : BitVec 3) ++ ps ++ BitVec.ofBool sf) : Byte).getLsbD 0) = sf := by decide +revert
  have h1 : ((((0 : BitVec 3) ++ ps ++ BitVec.ofBool sf) : Byte).extractLsb' 1 4) = ps := by decide +revert
  have h2 : ((((0 : BitVec 3) ++ ps ++ BitVec.ofBool sf) : Byte).extractLsb' 5 3) = 0 := by decide +revert
  intro hw w he
  exact decodeWord_encode rfl (by
    simp only [Raw.toInstr, decodeOpsE, bind_ok, Opd.ofCode_code, BitVec.reduceToNat, Nat.reduceLeDiff, Nat.reduceLT, false_and, and_false, if_false, if_true, unused_ff, ezero_zero, fzero_zero, Rm.ofCode_code, h0, h1, h2]) hw he

theorem signal : ∀ q a b fn w64 sf ps, Statement (.signal q a b fn w64 sf ps) := by
  intro q a b fn w64 sf ps
  have h0 : (((BitVec.ofBool w64 ++ fn ++ ps ++ BitVec.ofBool sf) : Byte).extractLsb' 5 2) = fn := by decide +revert
  have h1 : (((BitVec.ofBool w64 ++ fn ++ ps ++ BitVec.ofBool sf) : Byte).getLsbD 7) = w64 := by decide +revert
  have h2 : (((BitVec.ofBool w64 ++ fn ++ ps ++ BitVec.ofBool sf) : Byte).getLsbD 0) = sf := by decide +revert
  have h3 : (((BitVec.ofBool w64 ++ fn ++ ps ++ BitVec.ofBool sf) : Byte).extractLsb' 1 4) = ps := by decide +revert
  intro hw w he
  exact decodeWord_encode rfl (by
    simp only [Raw.toInstr, decodeOpsE, bind_ok, Opd.ofCode_code, BitVec.reduceToNat, Nat.reduceLeDiff, Nat.reduceLT, false_and, and_false, if_false, if_true, unused_ff, ezero_zero, fzero_zero, Rm.ofCode_code, h0, h1, h2, h3]) hw he

theorem trap : ∀ q code, Statement (.trap q code) := by
  intro q code
  intro hw w he
  exact decodeWord_encode rfl (by
    simp only [Raw.toInstr, decodeOpsE, bind_ok, Opd.ofCode_code, BitVec.reduceToNat, Nat.reduceLeDiff, Nat.reduceLT, false_and, and_false, if_false, if_true, unused_ff, ezero_zero, fzero_zero, Rm.ofCode_code]) hw he

theorem rth : ∀ q, Statement (.rth q) := by
  intro q
  intro hw w he
  exact decodeWord_encode rfl (by
    simp only [Raw.toInstr, decodeOpsE, bind_ok, Opd.ofCode_code, BitVec.reduceToNat, Nat.reduceLeDiff, Nat.reduceLT, false_and, and_false, if_false, if_true, unused_ff, ezero_zero, fzero_zero, Rm.ofCode_code]) hw he

theorem sread : ∀ q d reg, Statement (.sread q d reg) := by
  intro q d reg
  intro hw w he
  exact decodeWord_encode rfl (by
    simp only [Raw.toInstr, decodeOpsE, bind_ok, Opd.ofCode_code, BitVec.reduceToNat, Nat.reduceLeDiff, Nat.reduceLT, false_and, and_false, if_false, if_true, unused_ff, ezero_zero, fzero_zero, Rm.ofCode_code]) hw he

theorem swrite : ∀ q reg a, Statement (.swrite q reg a) := by
  intro q reg a
  intro hw w he
  exact decodeWord_encode rfl (by
    simp only [Raw.toInstr, decodeOpsE, bind_ok, Opd.ofCode_code, BitVec.reduceToNat, Nat.reduceLeDiff, Nat.reduceLT, false_and, and_false, if_false, if_true, unused_ff, ezero_zero, fzero_zero, Rm.ofCode_code]) hw he

theorem yieldpt : ∀ q map, Statement (.yieldpt q map) := by
  intro q map
  have h0 : (((0 : Byte) ++ (((0 : BitVec 6) ++ map.extractLsb' 8 2) : Byte) ++ (map.extractLsb' 0 8 : Byte)).extractLsb' 0 10) = map := by decide +revert
  have h1 : (((0 : Byte) ++ (((0 : BitVec 6) ++ map.extractLsb' 8 2) : Byte) ++ (map.extractLsb' 0 8 : Byte)).extractLsb' 10 14) = 0 := by decide +revert
  intro hw w he
  exact decodeWord_encode rfl (by
    simp only [Raw.toInstr, decodeOpsE, bind_ok, Opd.ofCode_code, BitVec.reduceToNat, Nat.reduceLeDiff, Nat.reduceLT, false_and, and_false, if_false, if_true, unused_ff, ezero_zero, fzero_zero, Rm.ofCode_code, h0, h1]) hw he

theorem bkpt : ∀ q code, Statement (.bkpt q code) := by
  intro q code
  intro hw w he
  exact decodeWord_encode rfl (by
    simp only [Raw.toInstr, decodeOpsE, bind_ok, Opd.ofCode_code, BitVec.reduceToNat, Nat.reduceLeDiff, Nat.reduceLT, false_and, and_false, if_false, if_true, unused_ff, ezero_zero, fzero_zero, Rm.ofCode_code]) hw he

theorem ecall : ∀ q d a svc, Statement (.ecall q d a svc) := by
  intro q d a svc
  intro hw w he
  exact decodeWord_encode rfl (by
    simp only [Raw.toInstr, decodeOpsE, bind_ok, Opd.ofCode_code, BitVec.reduceToNat, Nat.reduceLeDiff, Nat.reduceLT, false_and, and_false, if_false, if_true, unused_ff, ezero_zero, fzero_zero, Rm.ofCode_code]) hw he

theorem issueGroup : ∀ x0 x1 x2, Statement (.issueGroup x0 x1 x2) :=
  fun _ _ _ _ _ h => nomatch h

theorem longLatencyWriteback : ∀ x0, Statement (.longLatencyWriteback x0) :=
  fun _ _ _ h => nomatch h

theorem yieldDelayEnd : ∀ x0, Statement (.yieldDelayEnd x0) :=
  fun _ _ _ h => nomatch h

theorem convstall : ∀ x0, Statement (.convstall x0) :=
  fun _ _ _ h => nomatch h

theorem waystationTimer : ∀ x0 x1 x2, Statement (.waystationTimer x0 x1 x2) :=
  fun _ _ _ _ _ h => nomatch h

theorem waystationLaunch : ∀ x0 x1 x2, Statement (.waystationLaunch x0 x1 x2) :=
  fun _ _ _ _ _ h => nomatch h

theorem warpRetire : ∀ x0, Statement (.warpRetire x0) :=
  fun _ _ _ h => nomatch h

theorem tlbWalk : ∀ x0, Statement (.tlbWalk x0) :=
  fun _ _ _ h => nomatch h

theorem hLoadMiss : ∀ x0, Statement (.hLoadMiss x0) :=
  fun _ _ _ h => nomatch h

theorem hWriteAccept : ∀ x0, Statement (.hWriteAccept x0) :=
  fun _ _ _ h => nomatch h

theorem hWritePerform : ∀ x0, Statement (.hWritePerform x0) :=
  fun _ _ _ h => nomatch h

theorem recallAnswer : ∀ x0 x1 x2, Statement (.recallAnswer x0 x1 x2) :=
  fun _ _ _ _ _ h => nomatch h

theorem partialCombine : ∀ x0, Statement (.partialCombine x0) :=
  fun _ _ _ h => nomatch h

theorem partialPushDeadline : ∀ x0 x1 x2, Statement (.partialPushDeadline x0 x1 x2) :=
  fun _ _ _ _ _ h => nomatch h

theorem nearCacheEvict : ∀ x0 x1 x2, Statement (.nearCacheEvict x0 x1 x2) :=
  fun _ _ _ _ _ h => nomatch h

theorem writeBackAccept : ∀ x0, Statement (.writeBackAccept x0) :=
  fun _ _ _ h => nomatch h

theorem engineStart : ∀ x0 x1, Statement (.engineStart x0 x1) :=
  fun _ _ _ _ h => nomatch h

theorem engineChunk : ∀ x0 x1 x2, Statement (.engineChunk x0 x1 x2) :=
  fun _ _ _ _ _ h => nomatch h

theorem engineComplete : ∀ x0, Statement (.engineComplete x0) :=
  fun _ _ _ h => nomatch h

theorem matrixStart : ∀ x0 x1, Statement (.matrixStart x0 x1) :=
  fun _ _ _ _ h => nomatch h

theorem matrixComplete : ∀ x0 x1, Statement (.matrixComplete x0 x1) :=
  fun _ _ _ _ h => nomatch h

theorem tokenCapture : ∀ x0 x1, Statement (.tokenCapture x0 x1) :=
  fun _ _ _ _ h => nomatch h

theorem tokenRelease : ∀ x0 x1, Statement (.tokenRelease x0 x1) :=
  fun _ _ _ _ h => nomatch h

theorem tokenForcedRelease : ∀ x0 x1, Statement (.tokenForcedRelease x0 x1) :=
  fun _ _ _ _ h => nomatch h

theorem groupPlace : ∀ x0 x1 x2 x3, Statement (.groupPlace x0 x1 x2 x3) :=
  fun _ _ _ _ _ _ h => nomatch h

theorem parking : ∀ x0, Statement (.parking x0) :=
  fun _ _ _ h => nomatch h

theorem parkSaveDone : ∀ x0, Statement (.parkSaveDone x0) :=
  fun _ _ _ h => nomatch h

theorem watchTimerFire : ∀ x0, Statement (.watchTimerFire x0) :=
  fun _ _ _ h => nomatch h

theorem mwaitTimeout : ∀ x0, Statement (.mwaitTimeout x0) :=
  fun _ _ _ h => nomatch h

theorem parkDelayEnd : ∀ x0, Statement (.parkDelayEnd x0) :=
  fun _ _ _ h => nomatch h

theorem relaunch : ∀ x0 x1 x2, Statement (.relaunch x0 x1 x2) :=
  fun _ _ _ _ _ h => nomatch h

theorem groupRetire : ∀ x0, Statement (.groupRetire x0) :=
  fun _ _ _ h => nomatch h

theorem csigIncrement : ∀ x0, Statement (.csigIncrement x0) :=
  fun _ _ _ h => nomatch h

theorem irqTimer : ∀ x0, Statement (.irqTimer x0) :=
  fun _ _ _ h => nomatch h

theorem lineMonitorParse : ∀ x0, Statement (.lineMonitorParse x0) :=
  fun _ _ _ h => nomatch h

theorem deltaLaunch : ∀ x0, Statement (.deltaLaunch x0) :=
  fun _ _ _ h => nomatch h

theorem fenceRecord : ∀ x0, Statement (.fenceRecord x0) :=
  fun _ _ _ h => nomatch h

theorem fenceRecordMet : ∀ x0, Statement (.fenceRecordMet x0) :=
  fun _ _ _ h => nomatch h

theorem signalWrite : ∀ x0, Statement (.signalWrite x0) :=
  fun _ _ _ h => nomatch h

theorem queuePriority : ∀ x0, Statement (.queuePriority x0) :=
  fun _ _ _ h => nomatch h

theorem nopRecord : ∀ x0, Statement (.nopRecord x0) :=
  fun _ _ _ h => nomatch h

theorem pageMode : ∀ x0, Statement (.pageMode x0) :=
  fun _ _ _ h => nomatch h

theorem pageInvalidate : ∀ x0, Statement (.pageInvalidate x0) :=
  fun _ _ _ h => nomatch h

theorem pageModeDrainEnd : ∀ x0 x1, Statement (.pageModeDrainEnd x0 x1) :=
  fun _ _ _ _ h => nomatch h

theorem pageModeRelease : ∀ x0 x1, Statement (.pageModeRelease x0 x1) :=
  fun _ _ _ _ h => nomatch h

theorem pageModeSignal : ∀ x0, Statement (.pageModeSignal x0) :=
  fun _ _ _ h => nomatch h

theorem hostcopy : ∀ x0 x1 x2 x3, Statement (.hostcopy x0 x1 x2 x3) :=
  fun _ _ _ _ _ _ h => nomatch h

theorem hostcopyEnd : ∀ x0, Statement (.hostcopyEnd x0) :=
  fun _ _ _ h => nomatch h

theorem queueSteal : ∀ x0 x1, Statement (.queueSteal x0 x1) :=
  fun _ _ _ _ h => nomatch h

theorem homeOpen : ∀ x0 x1, Statement (.homeOpen x0 x1) :=
  fun _ _ _ _ h => nomatch h

theorem homeReserve : ∀ x0 x1, Statement (.homeReserve x0 x1) :=
  fun _ _ _ _ h => nomatch h

theorem homeFill : ∀ x0 x1, Statement (.homeFill x0 x1) :=
  fun _ _ _ _ h => nomatch h

theorem homeTake : ∀ x0 x1, Statement (.homeTake x0 x1) :=
  fun _ _ _ _ h => nomatch h

theorem homePeek : ∀ x0 x1, Statement (.homePeek x0 x1) :=
  fun _ _ _ _ h => nomatch h

theorem homeWait : ∀ x0 x1, Statement (.homeWait x0 x1) :=
  fun _ _ _ _ h => nomatch h

theorem homeReset : ∀ x0 x1, Statement (.homeReset x0 x1) :=
  fun _ _ _ _ h => nomatch h

theorem homeClose : ∀ x0 x1, Statement (.homeClose x0 x1) :=
  fun _ _ _ _ h => nomatch h

theorem queueAnswer : ∀ x0, Statement (.queueAnswer x0) :=
  fun _ _ _ h => nomatch h

theorem dieResetAnnounce : ∀ x0 x1, Statement (.dieResetAnnounce x0 x1) :=
  fun _ _ _ _ h => nomatch h

theorem signalApply : ∀ x0 x1, Statement (.signalApply x0 x1) :=
  fun _ _ _ _ h => nomatch h

theorem ecallServe : ∀ x0 x1 x2, Statement (.ecallServe x0 x1 x2) :=
  fun _ _ _ _ _ h => nomatch h

theorem ecallAnswer : ∀ x0, Statement (.ecallAnswer x0) :=
  fun _ _ _ h => nomatch h

theorem haltLineArrival : ∀ x0 x1 x2, Statement (.haltLineArrival x0 x1 x2) :=
  fun _ _ _ _ _ h => nomatch h

theorem stopRecords : ∀ x0 x1, Statement (.stopRecords x0 x1) :=
  fun _ _ _ _ h => nomatch h

theorem preemptionRequest : ∀ x0, Statement (.preemptionRequest x0) :=
  fun _ _ _ h => nomatch h

theorem preemptionDeadline : ∀ x0, Statement (.preemptionDeadline x0) :=
  fun _ _ _ h => nomatch h

theorem groupSaveByMaps : ∀ x0, Statement (.groupSaveByMaps x0) :=
  fun _ _ _ h => nomatch h

theorem sliceEnd : ∀ x0, Statement (.sliceEnd x0) :=
  fun _ _ _ h => nomatch h

theorem dataFlit : ∀ x0 x1, Statement (.dataFlit x0 x1) :=
  fun _ _ _ _ h => nomatch h

theorem nak : ∀ x0 x1, Statement (.nak x0 x1) :=
  fun _ _ _ _ h => nomatch h

theorem replayTimeout : ∀ x0, Statement (.replayTimeout x0) :=
  fun _ _ _ h => nomatch h

theorem nakHoldoffEnd : ∀ x0, Statement (.nakHoldoffEnd x0) :=
  fun _ _ _ h => nomatch h

theorem controlFlitRepeat : ∀ x0, Statement (.controlFlitRepeat x0) :=
  fun _ _ _ h => nomatch h

theorem idle : ∀ x0 x1, Statement (.idle x0 x1) :=
  fun _ _ _ _ h => nomatch h

theorem marker : ∀ x0 x1, Statement (.marker x0 x1) :=
  fun _ _ _ _ h => nomatch h

theorem stompedFlit : ∀ x0 x1, Statement (.stompedFlit x0 x1) :=
  fun _ _ _ _ h => nomatch h

theorem reservedFlit : ∀ x0 x1, Statement (.reservedFlit x0 x1) :=
  fun _ _ _ _ h => nomatch h

theorem headerCheckFail : ∀ x0 x1 x2, Statement (.headerCheckFail x0 x1 x2) :=
  fun _ _ _ _ _ h => nomatch h

theorem lossOfLight : ∀ x0 x1, Statement (.lossOfLight x0 x1) :=
  fun _ _ _ _ h => nomatch h

theorem loss : ∀ x0 x1, Statement (.loss x0 x1) :=
  fun _ _ _ _ h => nomatch h

theorem errorRateThreshold : ∀ x0 x1 x2, Statement (.errorRateThreshold x0 x1 x2) :=
  fun _ _ _ _ _ h => nomatch h

theorem retrain : ∀ x0 x1, Statement (.retrain x0 x1) :=
  fun _ _ _ _ h => nomatch h

theorem retrainTimeout : ∀ x0, Statement (.retrainTimeout x0) :=
  fun _ _ _ h => nomatch h

theorem lpr : ∀ x0 x1, Statement (.lpr x0 x1) :=
  fun _ _ _ _ h => nomatch h

theorem trainingTimeout : ∀ x0, Statement (.trainingTimeout x0) :=
  fun _ _ _ h => nomatch h

theorem linkEnable : ∀ x0, Statement (.linkEnable x0) :=
  fun _ _ _ h => nomatch h

theorem linkDisable : ∀ x0, Statement (.linkDisable x0) :=
  fun _ _ _ h => nomatch h

theorem sampleInterval : ∀ x0 x1 x2 x3 x4, Statement (.sampleInterval x0 x1 x2 x3 x4) :=
  fun _ _ _ _ _ _ _ h => nomatch h

theorem marginPlan : ∀ x0 x1 x2 x3 x4, Statement (.marginPlan x0 x1 x2 x3 x4) :=
  fun _ _ _ _ _ _ _ h => nomatch h

theorem thermalTrip : ∀ x0 x1 x2, Statement (.thermalTrip x0 x1 x2) :=
  fun _ _ _ _ _ h => nomatch h

theorem dieReset : ∀ x0, Statement (.dieReset x0) :=
  fun _ _ _ h => nomatch h

theorem powerOn : ∀ x0 x1, Statement (.powerOn x0 x1) :=
  fun _ _ _ _ h => nomatch h

theorem hostWindowWrite : ∀ x0 x1 x2, Statement (.hostWindowWrite x0 x1 x2) :=
  fun _ _ _ _ _ h => nomatch h

theorem hostSignalWrite : ∀ x0 x1 x2, Statement (.hostSignalWrite x0 x1 x2) :=
  fun _ _ _ _ _ h => nomatch h

theorem hostRegisterWrite : ∀ x0 x1 x2, Statement (.hostRegisterWrite x0 x1 x2) :=
  fun _ _ _ _ _ h => nomatch h

theorem createContext : ∀ x0 x1 x2, Statement (.createContext x0 x1 x2) :=
  fun _ _ _ _ _ h => nomatch h

theorem destroyContext : ∀ x0, Statement (.destroyContext x0) :=
  fun _ _ _ h => nomatch h

theorem haltRequest : ∀ x0, Statement (.haltRequest x0) :=
  fun _ _ _ h => nomatch h

theorem saveContext : ∀ x0, Statement (.saveContext x0) :=
  fun _ _ _ h => nomatch h

theorem resumeContext : ∀ x0 x1 x2, Statement (.resumeContext x0 x1 x2) :=
  fun _ _ _ _ _ h => nomatch h

theorem writePageTableEntries : ∀ x0, Statement (.writePageTableEntries x0) :=
  fun _ _ _ h => nomatch h

theorem createQueue : ∀ x0 x1 x2 x3 x4, Statement (.createQueue x0 x1 x2 x3 x4) :=
  fun _ _ _ _ _ _ _ h => nomatch h

theorem deleteQueue : ∀ x0, Statement (.deleteQueue x0) :=
  fun _ _ _ h => nomatch h

theorem bindQids : ∀ x0, Statement (.bindQids x0) :=
  fun _ _ _ h => nomatch h

theorem readHarvestMap : ∀ x0, Statement (.readHarvestMap x0) :=
  fun _ _ _ h => nomatch h

theorem readEventRing : ∀ x0, Statement (.readEventRing x0) :=
  fun _ _ _ h => nomatch h

theorem readEcallLog : ∀ x0, Statement (.readEcallLog x0) :=
  fun _ _ _ h => nomatch h

theorem readSampleBuffer : ∀ x0, Statement (.readSampleBuffer x0) :=
  fun _ _ _ h => nomatch h

theorem readEnergyBanks : ∀ x0, Statement (.readEnergyBanks x0) :=
  fun _ _ _ h => nomatch h

theorem attest : ∀ x0, Statement (.attest x0) :=
  fun _ _ _ h => nomatch h

theorem writeFirmwareImage : ∀ x0, Statement (.writeFirmwareImage x0) :=
  fun _ _ _ h => nomatch h

theorem setPowerLimit : ∀ x0, Statement (.setPowerLimit x0) :=
  fun _ _ _ h => nomatch h

theorem freeze : ∀ x0, Statement (.freeze x0) :=
  fun _ _ _ h => nomatch h

theorem resetCoreDie : ∀ x0, Statement (.resetCoreDie x0) :=
  fun _ _ _ h => nomatch h

theorem spuriousWakeup : ∀ x0, Statement (.spuriousWakeup x0) :=
  fun _ _ _ h => nomatch h

theorem lightRestored : ∀ x0 x1, Statement (.lightRestored x0 x1) :=
  fun _ _ _ _ h => nomatch h

theorem trainingEnd : ∀ x0 x1, Statement (.trainingEnd x0 x1) :=
  fun _ _ _ _ h => nomatch h

theorem reservedTypeRecord : ∀ x0, Statement (.reservedTypeRecord x0) :=
  fun _ _ _ h => nomatch h

theorem unassignedCommand : ∀ x0, Statement (.unassignedCommand x0) :=
  fun _ _ _ h => nomatch h

end Sys2Proof.Laws.RoundTrip
end

