-- ==== Sys2Proof/Laws/Point.lean ====
section
/-! SUPPORT. A warp point at which the whole roster of a warp has gathered (R124). -/

set_option Elab.async false

namespace Sys2Proof.Machine

/-! ## The roster -/

theorem mem_maskList {m : BitVec 64} {i : Nat} (h : i ∈ maskList m) : i < 64 := by
  simp only [maskList, List.mem_filter, List.mem_range] at h; exact h.1

theorem maskList_nodup (m : BitVec 64) : (maskList m).Nodup := List.nodup_range.filter _

/-- A roster's threads have distinct keys, each of its warp. -/
theorem rosterThreads_keys (s : State) (wid : Nat) :
    ((s.rosterThreads wid).map (·.1)).Nodup ∧ ∀ k ∈ (s.rosterThreads wid).map (·.1), k / 64 = wid := by
  simp only [State.rosterThreads]
  split
  · simp
  · rename_i w hw
    have hl := maskList_nodup w.roster
    have hm : ∀ l ∈ maskList w.roster, l < 64 := fun l h => mem_maskList h
    generalize maskList w.roster = ls at hl hm
    induction ls with
    | nil => simp
    | cons l ls ih =>
      simp only [List.nodup_cons] at hl
      have r := ih hl.2 fun x hx => hm x (List.mem_cons_of_mem _ hx)
      have hl64 := hm l (by simp)
      simp only [List.filterMap_cons]
      cases hf : s.threads.find (threadKey wid l) with
      | none => simpa using r
      | some t =>
        simp only [Option.map_some, List.map_cons, List.nodup_cons, List.mem_cons, forall_eq_or_imp]
        refine ⟨⟨fun hx => ?_, r.1⟩, ?_, r.2⟩
        · simp only [List.mem_map, List.mem_filterMap, Option.map_eq_some_iff] at hx
          obtain ⟨e, ⟨l', hl', t', -, rfl⟩, he⟩ := hx
          have := hm l' (List.mem_cons_of_mem _ hl')
          simp only [threadKey] at he
          have : l' = l := by omega
          exact hl.1 (this ▸ hl')
        · simp only [threadKey]; omega

theorem filterMap_congr_mem {α β : Type} {f g : α → Option β} {l : List α} (h : ∀ a ∈ l, f a = g a) :
    l.filterMap f = l.filterMap g := by
  induction l with
  | nil => rfl
  | cons a l ih =>
    simp only [List.filterMap_cons, h a (by simp), ih fun b hb => h b (List.mem_cons_of_mem _ hb)]

/-- Where each roster thread has become `g` of what it was, so has the roster. -/
theorem rosterThreads_map {s t : State} {wid : Nat} (hw : t.warps = s.warps) (g : Nat → Thread → Thread)
    (h : ∀ e ∈ s.rosterThreads wid, t.threads.find e.1 = some (g e.1 e.2))
    (h' : ∀ k, k ∉ (s.rosterThreads wid).map (·.1) → t.threads.find k = s.threads.find k) :
    t.rosterThreads wid = (s.rosterThreads wid).map fun e => (e.1, g e.1 e.2) := by
  simp only [State.rosterThreads, hw] at h h' ⊢
  split at h
  · next hn => simp
  · next w hn =>
    simp only [hn] at h h' ⊢
    rw [List.map_filterMap]
    refine filterMap_congr_mem fun l hl => ?_
    cases hf : s.threads.find (threadKey wid l) with
    | none =>
      rw [h', hf]; · rfl
      intro hx
      simp only [List.mem_map, List.mem_filterMap, Option.map_eq_some_iff] at hx
      obtain ⟨e, ⟨l', hl', t', ht', rfl⟩, he⟩ := hx
      have h1 := mem_maskList hl
      have h2 := mem_maskList hl'
      simp only [threadKey] at he
      have : l' = l := by omega
      subst this
      rw [hf] at ht'; cases ht'
    | some t' =>
      have := h (threadKey wid l, t') (List.mem_filterMap.2 ⟨l, hl, by simp [hf]⟩)
      simp [this]

/-- A roster's threads stand in the table. -/
theorem rosterThreads_find {s : State} {wid : Nat} {e : Nat × Thread} (h : e ∈ s.rosterThreads wid) :
    s.threads.find e.1 = some e.2 := by
  simp only [State.rosterThreads] at h
  split at h
  · simp at h
  · simp only [List.mem_filterMap, Option.map_eq_some_iff] at h
    obtain ⟨l, -, t, ht, rfl⟩ := h
    exact ht

/-! ## Folds over threads -/

/-- Changing each of several threads. -/
theorem foldl_updThread (ks : List Nat) (f : Nat → Thread → Thread) (s : State) (hd : ks.Nodup) :
    ∃ th, ks.foldl (fun s k => s.updThread k (f k)) s = { s with threads := th } ∧
      (∀ k ∈ ks, th.find k = (s.threads.find k).map (f k)) ∧ ∀ k, k ∉ ks → th.find k = s.threads.find k := by
  induction ks generalizing s with
  | nil => exact ⟨s.threads, rfl, fun _ h => (List.not_mem_nil h).elim, fun _ _ => rfl⟩
  | cons k ks ih =>
    simp only [List.nodup_cons] at hd
    obtain ⟨th, h1, h2, h3⟩ := ih (s.updThread k (f k)) hd.2
    refine ⟨th, by rw [List.foldl_cons, h1]; rfl, fun j hj => ?_, fun j hj => ?_⟩
    · rcases List.mem_cons.1 hj with rfl | hj
      · rw [h3 _ hd.1]; simp
      · have : j ≠ k := fun e => hd.1 (e ▸ hj)
        rw [h2 j hj]; simp [Tbl.find_upd_ne _ _ this]
    · simp only [List.mem_cons, not_or] at hj
      rw [h3 j hj.2]; simp [Tbl.find_upd_ne _ _ hj.1]

/-- Moving each of several threads by a step that changes one thread. -/
theorem foldl_oneMoved {F : State → Nat → State} {g : Nat → Thread → Thread}
    (hF : ∀ s k, OneMoved s (F s k) k (g (s.clkOf k))) (hw : ∀ c t, (g c t).warp = t.warp) (ks : List Nat) (s : State)
    (hd : ks.Nodup) :
    (∀ k ∈ ks, (ks.foldl F s).threads.find k = (s.threads.find k).map (g (s.clkOf k))) ∧
      (∀ k, k ∉ ks → (ks.foldl F s).threads.find k = s.threads.find k) ∧ (ks.foldl F s).groups = s.groups ∧
      (ks.foldl F s).igroups = s.igroups ∧ (ks.foldl F s).rest = s.rest := by
  induction ks generalizing s with
  | nil => exact ⟨fun _ h => (List.not_mem_nil h).elim, fun _ _ => rfl, rfl, rfl, rfl⟩
  | cons k ks ih =>
    have m := hF s k
    simp only [List.nodup_cons] at hd
    obtain ⟨r1, r2, r3, r4, r5⟩ := ih (F s k) hd.2
    refine ⟨fun j hj => ?_, fun j hj => ?_, r3.trans m.groups, r4.trans m.igroups, r5.trans m.rest⟩
    · rcases List.mem_cons.1 hj with rfl | hj
      · rw [List.foldl_cons, r2 _ hd.1, m.threads, Tbl.find_upd_self]
      · have hk : j ≠ k := fun e => hd.1 (e ▸ hj)
        rw [List.foldl_cons, r1 j hj, m.clkOf (hw _), m.threads, Tbl.find_upd_ne _ _ hk]
    · simp only [List.mem_cons, not_or] at hj
      rw [List.foldl_cons, r2 j hj.2, m.threads, Tbl.find_upd_ne _ _ hj.1]

/-! ## The point -/

/-- A thread that has arrived at a warp point. -/
def arrivedAt (c : Nat) (t : Thread) : Thread := { t with st := .point, waitFrom := c, walkFault := none }
def Self.arrivedAt (c : Nat → Nat) (m : Self) : Self := { m with t := Sys2Proof.Machine.arrivedAt (c m.k) m.t }

/-- What a warp point makes of a participant, of all participants and itself, does not depend on how it waits, and leaves how it
waits alone. -/
structure PointFn (f : State → List Self → Self → Thread → Thread) : Prop where
  rest  : ∀ s t parts m x, t.rest = s.rest → f t parts m x = f s parts m x
  parts : ∀ s c parts m x, f s (parts.map (Self.arrivedAt c)) (Self.arrivedAt c m) x = f s parts m x
  comm  : ∀ s parts m c x, f s parts m (arrivedAt c x) = arrivedAt c (f s parts m x)
  warp  : ∀ s parts m x, (f s parts m x).warp = x.warp

theorem self_congr {s t : State} {k : Nat} {m : Self} {x : Thread} (h : s.self k = some m) (ht : t.threads.find k = some x)
    (hx : x.warp = m.t.warp) (hw : t.warps = s.warps) (hg : t.groups = s.groups) (hl : t.launches = s.launches) :
    t.self k = some { m with t := x } := by
  obtain ⟨h1, h2, h3, h4⟩ := State.self_parts h
  have hk := Self.self_k h
  simp only [State.self, ht, hw, hg, hl, hx, h2, h3, h4, hk]

theorem sampleIssue_groups (s : State) (ig : IGroup) (vs : List (Nat × Verdict)) : (s.sampleIssue ig vs).groups = s.groups := by
  simp only [State.sampleIssue]
  split
  · rfl
  · split <;> rfl

theorem stayers_arrive (ks : List Nat) : stayers (ks.map fun k => (k, Verdict.arrive)) = [] := by
  unfold stayers
  rw [List.filterMap_map]
  exact List.filterMap_eq_nil_iff.2 fun _ _ => rfl

theorem eraseDups_const {l : List Nat} {a : Nat} (hn : l ≠ []) (h : ∀ x ∈ l, x = a) : l.eraseDups = [a] := by
  cases l with
  | nil => exact (hn rfl).elim
  | cons b l =>
    have hb : b = a := h b (by simp)
    subst hb
    rw [List.eraseDups_cons]
    have : l.filter (fun x => !x == b) = [] := by
      rw [List.filter_eq_nil_iff]
      intro x hx
      simp [h x (List.mem_cons_of_mem _ hx)]
    simp [this]

theorem reachPoint_arrive {i : Instr} {s : State} {k : Nat} {m : Self} (hs : s.self k = some m) (hd : m.t.deferred = [])
    (hr : m.t.guardOk i.ctl = true → readyCheck i m = none) : reachPoint i s k = .arrive := by
  simp only [reachPoint, hs, hd, firstDeferred, List.foldl_nil]
  cases hg : m.t.guardOk i.ctl with
  | false => rfl
  | true => simp [hr hg]

/-- The roster after its arrival. -/
theorem pointFull_arrived {s t : State} {wid : Nat} {pc : W64} (c : Nat → Nat) (hn : s.rosterThreads wid ≠ [])
    (hpc : ∀ e ∈ s.rosterThreads wid, e.2.pc = pc)
    (ht : t.rosterThreads wid = (s.rosterThreads wid).map fun e => (e.1, arrivedAt (c e.1) e.2)) : t.pointFull wid = true := by
  have hd := (rosterThreads_keys s wid).1
  simp only [State.pointFull, ht]
  generalize s.rosterThreads wid = l at hn hpc hd
  cases l with
  | nil => exact (hn rfl).elim
  | cons e l =>
    simp only [List.map_cons, List.nodup_cons, List.mem_map] at hd
    simp only [List.map_cons, arrivedAt, List.all_map, Bool.and_eq_true, beq_self_eq_true, true_and, List.all_eq_true,
      Function.comp_apply, bne_iff_ne, ne_eq]
    intro x hx
    refine ⟨?_, fun he => hd.1 ⟨x, hx, he⟩⟩
    rw [hpc x (List.mem_cons_of_mem _ hx), hpc e (by simp)]; simp

/-- Writing the results of the participants, one after the other. -/
theorem writeParts_moved (parts : List Self) (f : Self → Thread → Thread) (s : State) (hd : (parts.map (·.k)).Nodup) :
    ∃ th, writeParts parts f s = { s with threads := th } ∧
      (∀ m ∈ parts, th.find m.k = (s.threads.find m.k).map (f m)) ∧
      ∀ k, k ∉ parts.map (·.k) → th.find k = s.threads.find k := by
  induction parts generalizing s with
  | nil => exact ⟨s.threads, rfl, fun _ h => (List.not_mem_nil h).elim, fun _ _ => rfl⟩
  | cons m ms ih =>
    simp only [List.map_cons, List.nodup_cons] at hd
    obtain ⟨th, h1, h2, h3⟩ := ih (s.updThread m.k (f m)) hd.2
    refine ⟨th, by simp only [writeParts, List.foldl_cons] at h1 ⊢; rw [h1]; rfl, fun j hj => ?_, fun j hj => ?_⟩
    · rcases List.mem_cons.1 hj with rfl | hj
      · rw [h3 _ hd.1]; simp
      · have : j.k ≠ m.k := fun e => hd.1 (e ▸ List.mem_map_of_mem hj)
        rw [h2 j hj]; simp [Tbl.find_upd_ne _ _ this]
    · simp only [List.map_cons, List.mem_cons, not_or] at hj
      rw [h3 j hj.2]; simp [Tbl.find_upd_ne _ _ hj.1]

theorem chargeParts_metered (op : Nat) (parts : List Self) (s : State) :
    Metered s (parts.foldl (fun s m => State.chargeThread op s m.k) s) := by
  induction parts generalizing s with
  | nil => exact Metered.refl s
  | cons m ms ih => exact (chargeThread_metered op s m.k).trans (ih _)

theorem filterMap_map_k {s : State} {ks : List Nat} (h : ∀ k ∈ ks, ∃ m, s.self k = some m) :
    (ks.filterMap s.self).map (·.k) = ks := by
  induction ks with
  | nil => rfl
  | cons k ks ih =>
    obtain ⟨m, hm⟩ := h k (by simp)
    simp only [List.filterMap_cons, hm, List.map_cons, ih fun j hj => h j (List.mem_cons_of_mem _ hj)]
    rw [Self.self_k hm]

/-- Whether a point may issue does not depend on how its members wait, or on what the issue groups do not name. -/
theorem pointClear_arrived {s t u : State} {wid : Nat} (c : Nat → Nat) (hu : u.threads = s.threads) (huw : u.warps = s.warps)
    (hug : u.groups = s.groups) (hul : u.launches = s.launches) (hi : t.igroups = u.igroups)
    (hm : (t.rosterThreads wid).filterMap (fun e => t.self e.1) = ((s.rosterThreads wid).filterMap fun e => s.self e.1).map (Self.arrivedAt c))
    (hl : ∀ k, (t.self k).map Self.physLane = (s.self k).map Self.physLane) (h : u.pointClear wid = true) : t.pointClear wid = true := by
  have hself : ∀ k, u.self k = s.self k := fun k => by simp only [State.self, hu, huw, hug, hul]
  have hros : u.rosterThreads wid = s.rosterThreads wid := by simp only [State.rosterThreads, hu, huw]
  have hbusy : ∀ d co, t.busyLanes d co = u.busyLanes d co := fun d co => by
    simp only [State.busyLanes, hi, hl, hself]
  simp only [State.pointClear, hros, hself] at h
  simp only [State.pointClear, hm]
  generalize (s.rosterThreads wid).filterMap (fun e => s.self e.1) = ms at h ⊢
  cases ms with
  | nil => rfl
  | cons m ms =>
    simp only [List.map_cons, hbusy]
    simp only [List.all_cons, Bool.and_eq_true, List.all_map] at h ⊢
    exact ⟨⟨h.1.1, h.1.2⟩, h.2.1, h.2.2⟩

/-- A WARP POINT ISSUES (R124): with its whole roster gathered, the participants take their results and every member passes. -/
theorem runPoint_full {i : Instr} {s : State} {ig : IGroup} {wid : Nat} (h : Gathered i s ig wid)
    {f : State → List Self → Self → Thread → Thread} (hf : PointFn f) :
    ∃ t, runPoint i (fun parts s => writeParts parts (f s parts) s) s = .next t ∧
      Pointed s t ig i.ctl fun m => f s (participants i s wid) m m.t := by
  obtain ⟨hnd, h64⟩ := rosterThreads_keys s wid
  have hks := h.whole
  rw [← hks] at hnd h64
  have hvs : (ig.members.map fun k => (k, reachPoint i s k)) = ig.members.map fun k => (k, Verdict.arrive) := by
    refine List.map_congr_left fun k hk => ?_
    obtain ⟨m, hm, -, hd, -, hr⟩ := h.each k hk
    rw [reachPoint_arrive hm hd hr]
  simp only [runPoint, State.ig, h.found, hvs]
  have hx := sampleIssue_metered s ig (ig.members.map fun k => (k, Verdict.arrive))
  have hxg := sampleIssue_groups s ig (ig.members.map fun k => (k, Verdict.arrive))
  generalize s.sampleIssue ig (ig.members.map fun k => (k, Verdict.arrive)) = x at hx hxg ⊢
  have hmap : (ig.members.map fun k => (k, Verdict.arrive)).map (·.1) = ig.members := by simp [Function.comp_def]
  obtain ⟨t1, ht1, a1, a2, a3, a4, a5⟩ := settle_ended s.focus ig x (ig.members.map fun k => (k, Verdict.arrive))
    (by rw [hmap]; exact hnd)
    (by intro v hv c i a; simp only [List.mem_map] at hv; obtain ⟨k, -, rfl⟩ := hv; exact Verdict.noConfusion)
    (by
      intro v hv
      simp only [List.mem_map] at hv; obtain ⟨k, hk, rfl⟩ := hv
      obtain ⟨m, hm, ha, -⟩ := h.each k hk
      show x.alive k = true
      simp only [State.alive, hx.threads, (State.self_parts hm).1]
      cases hb : m.t.st == TState.exited with
      | false => simp [bne, hb]
      | true => exact (ha (eq_of_beq hb)).elim)
  have hrest : t1.rest = s.rest := a5.trans hx.rest
  have hw1 : t1.warps = s.warps := (congrArg State.warps hrest : t1.rest.warps = s.rest.warps)
  have hl1 : t1.launches = s.launches := (congrArg State.launches hrest : t1.rest.launches = s.rest.launches)
  have hc1 : t1.cores = s.cores := (congrArg State.cores hrest : t1.rest.cores = s.rest.cores)
  have hg1 : t1.groups = s.groups := a3.trans hxg
  have hclkx : ∀ k, x.clkOf k = s.clkOf k := fun k =>
    clkOf_eq (congrArg State.warps hx.rest : x.rest.warps = s.rest.warps)
      (congrArg State.launches hx.rest : x.rest.launches = s.rest.launches)
      (congrArg State.cores hx.rest : x.rest.cores = s.rest.cores) hx.groups (by rw [hx.threads])
  have hth1 : ∀ k ∈ ig.members, ∀ m, s.self k = some m → t1.threads.find k = some (arrivedAt (s.clkOf k) m.t) := by
    intro k hk m hm
    have := a1 (k, .arrive) (by simp [hk])
    simp only [hx.threads, hclkx] at this
    rw [this, (State.self_parts hm).1]; rfl
  have hself1 : ∀ k ∈ ig.members, ∀ m, s.self k = some m → t1.self k = some (m.arrivedAt s.clkOf) := by
    intro k hk m hm
    have := self_congr hm (hth1 k hk m hm) rfl hw1 hg1 hl1
    rw [this]; simp only [Self.arrivedAt, Self.self_k hm]
  have hoth1 : ∀ k, k ∉ ig.members → t1.threads.find k = s.threads.find k := by
    intro k hk; rw [a2 k (by rw [hmap]; exact hk), hx.threads]
  have hig1 : t1.igroups = s.igroups.del s.focus := by
    rw [a4, stayers_arrive, hx.igroups]; simp
  -- the warps that the slot completes
  have hall : ig.members.filter t1.alive = ig.members := by
    refine List.filter_eq_self.2 fun k hk => ?_
    obtain ⟨m, hm, -⟩ := h.each k hk
    simp only [State.alive, hth1 k hk m hm, arrivedAt]; rfl
  have hdup : (ig.members.map (· / 64)).eraseDups = [wid] := by
    refine eraseDups_const (by simp [h.some_]) ?_
    intro y hy
    simp only [List.mem_map] at hy; obtain ⟨k, hk, rfl⟩ := hy; exact h64 k hk
  rw [ht1, hall, hdup]
  simp only [List.foldl_cons, List.foldl_nil]
  -- the roster in `t1`
  have hmem : ∀ e ∈ s.rosterThreads wid, ∃ m, s.self e.1 = some m ∧ m.t = e.2 ∧ e.1 ∈ ig.members := by
    intro e he
    have hk : e.1 ∈ ig.members := by rw [hks]; exact List.mem_map_of_mem he
    obtain ⟨m, hm, -⟩ := h.each e.1 hk
    refine ⟨m, hm, ?_, hk⟩
    have h1 := (State.self_parts hm).1
    rw [rosterThreads_find he] at h1
    exact (Option.some.inj h1).symm
  have hros : t1.rosterThreads wid = (s.rosterThreads wid).map fun e => (e.1, arrivedAt (s.clkOf e.1) e.2) := by
    refine rosterThreads_map hw1 (fun k => arrivedAt (s.clkOf k)) ?_ ?_
    · intro e he
      obtain ⟨m, hm, hmt, hk⟩ := hmem e he
      rw [hth1 e.1 hk m hm, hmt]
    · intro k hk; exact hoth1 k (by rw [hks]; exact hk)
  have hfull : t1.pointFull wid = true := by
    refine pointFull_arrived s.clkOf (fun hn => h.some_ (by rw [hks, hn]; rfl)) (pc := ig.pc) ?_ hros
    intro e he
    obtain ⟨m, hm, hmt, hk⟩ := hmem e he
    obtain ⟨m', hm', -, -, hpc, -⟩ := h.each e.1 hk
    rw [hm] at hm'; cases hm'
    rw [← hmt]; exact hpc
  have hhere : (t1.arrivedAt wid ig.pc).isEmpty = false := by
    simp only [State.arrivedAt, hros]
    cases hr : s.rosterThreads wid with
    | nil => exact (h.some_ (by rw [hks, hr]; rfl)).elim
    | cons e es =>
      obtain ⟨m, hm, hmt, hk⟩ := hmem e (by rw [hr]; simp)
      obtain ⟨m', hm', -, -, hpc, -⟩ := h.each e.1 hk
      rw [hm] at hm'; cases hm'
      have : e.2.pc = ig.pc := hmt ▸ hpc
      simp [Sys2Proof.Machine.arrivedAt, this]
  have hkeys : (t1.rosterThreads wid).map (·.1) = ig.members := by
    rw [hros, hks]; simp [Function.comp_def]
  have hparts : (ig.members.filterMap t1.self).filter (fun m => m.t.guardOk i.ctl) =
      (participants i s wid).map (Self.arrivedAt s.clkOf) := by
    simp only [participants, ← hks]
    have : ig.members.filterMap t1.self = (ig.members.filterMap s.self).map (Self.arrivedAt s.clkOf) := by
      rw [List.map_filterMap]
      refine filterMap_congr_mem fun k hk => ?_
      obtain ⟨m, hm, -⟩ := h.each k hk
      rw [hself1 k hk m hm, hm]; rfl
    rw [this, List.filter_map]; rfl
  have hself : ∀ k, (t1.self k).map Self.physLane = (s.self k).map Self.physLane := by
    intro k
    by_cases hk : k ∈ ig.members
    · obtain ⟨m, hm, -⟩ := h.each k hk
      rw [hself1 k hk m hm, hm]; rfl
    · simp only [State.self, hoth1 k hk, hw1, hg1, hl1]
  have hms : (t1.rosterThreads wid).filterMap (fun e => t1.self e.1) = ((s.rosterThreads wid).filterMap fun e => s.self e.1).map (Self.arrivedAt s.clkOf) := by
    rw [hros, List.filterMap_map, List.map_filterMap]
    refine filterMap_congr_mem fun e he => ?_
    obtain ⟨m, hm, -, hk⟩ := hmem e he
    rw [Function.comp_apply, hself1 e.1 hk m hm, hm]; rfl
  have hclear : t1.pointClear wid = true :=
    pointClear_arrived (u := { s with igroups := s.igroups.del s.focus }) s.clkOf rfl rfl rfl rfl hig1 hms hself h.clear
  simp only [tryPoint, firePoint, hfull, hhere, hclear, Bool.not_false, Bool.and_self, if_true, hkeys, hparts]
  -- the participants
  have hallk : (ig.members.filterMap s.self).map (·.k) = ig.members :=
    filterMap_map_k fun k hk => (h.each k hk).imp fun _ h => h.1
  have hpk : ((participants i s wid).map (·.k)).Sublist ig.members := by
    have : (participants i s wid).Sublist (ig.members.filterMap s.self) := by
      simp only [participants, ← hks]; exact List.filter_sublist
    have := this.map (·.k)
    rwa [hallk] at this
  have hmemp : ∀ m, m ∈ participants i s wid ↔ (m.k ∈ ig.members ∧ s.self m.k = some m ∧ m.t.guardOk i.ctl = true) := by
    intro m
    simp only [participants, ← hks, List.mem_filter, List.mem_filterMap]
    constructor
    · rintro ⟨⟨k, hk, hm⟩, hg⟩
      have := Self.self_k hm
      subst this
      exact ⟨hk, hm, hg⟩
    · rintro ⟨hk, hm, hg⟩
      exact ⟨⟨m.k, hk, hm⟩, hg⟩
  have hpk' : ((participants i s wid).map (Self.arrivedAt s.clkOf)).map (·.k) = (participants i s wid).map (·.k) := by
    simp [Function.comp_def, Self.arrivedAt]
  obtain ⟨th, w1, w2, w3⟩ := writeParts_moved ((participants i s wid).map (Self.arrivedAt s.clkOf))
    (f t1 ((participants i s wid).map (Self.arrivedAt s.clkOf))) t1 (by rw [hpk']; exact hnd.sublist hpk)
  rw [w1]
  have hch := chargeParts_metered i.opcode ((participants i s wid).map (Self.arrivedAt s.clkOf)) { t1 with threads := th }
  generalize State.fetchedAt _ wid ig.pc = fetched
  have hsm := hch.trans (sampleIssue_metered _ ig (((participants i s wid).map (Self.arrivedAt s.clkOf)).map fun m => (m.k, Verdict.done)) fetched)
  clear hch
  have hch := hsm
  have hdrop : ∀ y : State, y.warps = s.warps → y.dropPoint wid ig.pc = y := by
    intro y hyw
    unfold State.dropPoint
    rw [hyw]
    split
    · rfl
    · next w hw => rw [if_pos (by rw [h.alone w hw]; rfl)]
  generalize hy : State.sampleIssue _ ig (((participants i s wid).map (Self.arrivedAt s.clkOf)).map fun m => (m.k, Verdict.done)) fetched = y at hch
  rw [hdrop y ((congrArg State.warps hch.rest : y.rest.warps = t1.rest.warps).trans hw1)]
  have hyth : y.threads = th := hch.threads
  -- each member's thread after the results
  have hres : ∀ k ∈ ig.members, ∀ m, s.self k = some m → th.find k = some (arrivedAt (s.clkOf k)
      (if m.t.guardOk i.ctl then f s (participants i s wid) m m.t else m.t)) := by
    intro k hk m hm
    have hmk := Self.self_k hm
    by_cases hg : m.t.guardOk i.ctl = true
    · have hmp : m ∈ participants i s wid := (hmemp m).2 ⟨hmk ▸ hk, hmk ▸ hm, hg⟩
      have := w2 (m.arrivedAt s.clkOf) (List.mem_map_of_mem hmp)
      have hkk : (m.arrivedAt s.clkOf).k = k := hmk
      rw [hkk, hth1 k hk m hm, Option.map_some, hf.rest s t1 _ _ _ hrest, hf.parts, hf.comm] at this
      rw [this, if_pos hg]
    · rw [w3 k, hth1 k hk m hm, if_neg hg]
      rw [hpk']
      intro hx
      obtain ⟨p, hp, hpkk⟩ := List.mem_map.1 hx
      obtain ⟨-, hps, hpg⟩ := (hmemp p).1 hp
      rw [hpkk, hm] at hps
      cases hps
      exact hg hpg
  have hothy : ∀ k, k ∉ ig.members → y.threads.find k = s.threads.find k := by
    intro k hk
    rw [hyth, w3 k, hoth1 k hk]
    rw [hpk']
    exact fun hx => hk (hpk.subset hx)
  have hyrest : y.rest = s.rest := hch.rest.trans hrest
  have hymet : ∀ g, (y.groups.find g).map Group.unmetered = (s.groups.find g).map Group.unmetered := by
    intro g; rw [hch.groups g, hg1]
  have hyig : y.igroups = s.igroups.del s.focus := hch.igroups.trans hig1
  have hyclk : ∀ k ∈ ig.members, y.clkOf k = s.clkOf k := by
    intro k hk
    obtain ⟨m, hm, -⟩ := h.each k hk
    refine clkOf_eq (congrArg State.warps hyrest : y.rest.warps = s.rest.warps)
      (congrArg State.launches hyrest : y.rest.launches = s.rest.launches)
      (congrArg State.cores hyrest : y.rest.cores = s.rest.cores) hymet ?_
    rw [hyth, hres k hk m hm, (State.self_parts hm).1]
    simp only [Option.map_some, Option.some.injEq, arrivedAt]
    split
    · exact hf.warp _ _ _ _
    · rfl
  by_cases hl : ig.last = true
  · simp only [hl, if_true]
    obtain ⟨r1, r2, r3, r4, r5⟩ := foldl_oneMoved
      (F := fun s k => (s.updThread k fun t => { t with pc := ig.nextPc, xfer := some .slot0, yielded := ig.yld }).ready k)
      (g := fun c t => { t with pc := ig.nextPc, xfer := some .slot0, yielded := ig.yld, st := .ready, readyAt := c })
      (fun s k => ready_after s k (fun t => { t with pc := ig.nextPc, xfer := some .slot0, yielded := ig.yld }) fun _ => rfl) (fun _ _ => rfl)
      ig.members y hnd
    generalize List.foldl _ _ ig.members = z at r1 r2 r3 r4 r5
    have hst : z.stuck = none := (congrArg State.stuck (r5.trans hyrest) : z.rest.stuck = s.rest.stuck).trans h.sound
    refine ⟨z, finish_next hst, ?_, ?_, ?_, ?_, ?_⟩
    · intro k hk m hm
      rw [r1 k hk, hyth, hres k hk m hm, hyclk k hk]
      simp [passed, hl, arrivedAt]
    · intro k hk; rw [r2 k hk]; exact hothy k hk
    · intro g; rw [r3]; exact hymet g
    · rw [r4, hyig]; simp [hl]
    · rw [r5, hyrest]; simp [hl, State.rest]
  · simp only [hl, if_false, Bool.false_eq_true]
    obtain ⟨tf, q1, q2, q3⟩ := foldl_updThread ig.members (fun _ t => { t with pc := ig.nextPc, st := .issuing }) y hnd
    simp only [q1, State.newId]
    have hnid : y.nextId = s.nextId := (congrArg State.nextId hyrest : y.rest.nextId = s.rest.nextId)
    have hst : y.stuck = none := (congrArg State.stuck hyrest : y.rest.stuck = s.rest.stuck).trans h.sound
    refine ⟨_, finish_next hst, ?_, ?_, ?_, ?_, ?_⟩
    · intro k hk m hm
      show tf.find k = _
      rw [q2 k hk, hyth, hres k hk m hm]
      simp [passed, hl, arrivedAt]
    · intro k hk; exact (q3 k hk).trans (hothy k hk)
    · exact hymet
    · simp only [hyig, hnid, hl, if_false, Bool.false_eq_true]
    · have : { y.rest with nextId := y.nextId + 1 } = { s.rest with nextId := if ig.last then s.nextId else s.nextId + 1 } := by
        rw [hyrest, hnid, if_neg hl]
      exact this

end Sys2Proof.Machine
end

