-- ==== Sys2Proof/Tests/Slice0.lean ====
section
/-! SUPPORT. Tests. The words are those that the spec prints beside each entry's assembly, with the operands and options that the
assembly names. Every `test_meets_…` theorem shows a state and operands that meet the hypotheses of the statement of that name. -/

namespace Sys2Proof.Tests

set_option Elab.async false

open Sys2Proof Sys2Proof.Machine

/-! ## Words and well-formedness -/

/-- The unguarded control fields. -/
def q : Ctl := ⟨15, 15, false, false, false, false, false, 0, false⟩

/-- Each word decodes to the instruction beside it, which is encoded as the word. -/
def reads (l : List (W64 × Instr)) : Bool := l.all fun e => (match decodeWord e.1 with | .ok i => i == e.2 | .error _ => false) && encode e.2 == some e.1

theorem test_words_integer : reads [
  (0x00FF3FFFFFFFC000, .nop q),
  (0x01FF01017FFFC000, .mov q (.g 4) (.g 5) false),
  (0x02FF013FFFFFFEC0, .movi q (.g 4) 0xFFFFFB),
  (0x03FF01048D159E00, .movk q (.g 4) 0x12345678),
  (0x04FF010141BFC000, .iadd q (.g 4) (.g 5) (.g 6) 0),
  (0x05FF010141BFC040, .isub q (.g 4) (.g 5) (.g 6) 1),
  (0x06FF010140001900, .iaddi q (.g 4) (.g 5) 0x64),
  (0x07FF010141BFC000, .imul q (.g 4) (.g 5) (.g 6)),
  (0x08FF010141BFC040, .imulh q (.g 4) (.g 5) (.g 6) 1),
  (0x09FF01014181C000, .imad q (.g 4) (.g 5) (.g 6) (.g 7)),
  (0x0AFF028141820000, .imadw q (.g 10) (.g 5) (.g 6) (.g 8) 0),
  (0x0BFF010141BFC000, .idiv q (.g 4) (.g 5) (.g 6) false),
  (0x0CFF010141BFC040, .irem q (.g 4) (.g 5) (.g 6) true),
  (0x0DFF010141BFC000, .imin q (.g 4) (.g 5) (.g 6) false),
  (0x0EFF010141BFC040, .imax q (.g 4) (.g 5) (.g 6) true),
  (0x0FFF01017FFFC000, .iabs q (.g 4) (.g 5) false),
  (0x10FF01017FFFC040, .ineg q (.g 4) (.g 5) true),
  (0x11FF010141BFC000, .shl q (.g 4) (.g 5) (.g 6)),
  (0x12FF010141BFC040, .shr q (.g 4) (.g 5) (.g 6) true),
  (0x13FF010141BFC000, .rot q (.g 4) (.g 5) (.g 6) false),
  (0x14FF0101823FC000, .iadd64 q (.g 4) (.g 6) (.g 8)),
  (0x15FF0101823FC000, .isub64 q (.g 4) (.g 6) (.g 8)),
  (0x16FF0101823FC000, .shl64 q (.g 4) (.g 6) (.g 8)),
  (0x17FF0101823FC040, .shr64 q (.g 4) (.g 6) (.g 8) true),
  (0x18FF01014181E580, .lop3 q (.g 4) (.g 5) (.g 6) (.g 7) 0x96),
  (0x19FF010141BFC040, .bfx q (.g 4) (.g 5) (.g 6) true),
  (0x1AFF01014181C000, .bfi q (.g 4) (.g 5) (.g 6) (.g 7)),
  (0x1BFF01017FFFC000, .brev q (.g 4) (.g 5)),
  (0x1CFF01017FFFC000, .popc q (.g 4) (.g 5)),
  (0x1DFF01017FFFC000, .clz q (.g 4) (.g 5)),
  (0x1EFF01017FFFC000, .ctz q (.g 4) (.g 5)),
  (0x1FFF01014181C000, .prmt q (.g 4) (.g 5) (.g 6) (.g 7))] = true := by decide +kernel

theorem test_words_compare : reads [
  (0x20FF3C4141BFC080, .icmp q 1 15 (.g 5) (.g 6) 2 false false),
  (0x21FF3C4140190080, .icmpi q 1 15 (.g 5) 0x64 2 false false),
  (0x22FF3C4141BFC080, .fcmp q 1 15 (.g 5) (.g 6) 2),
  (0x23FF084141BFC000, .hcmp2 q 1 2 (.g 5) (.g 6) 0 false),
  (0x24FF3C4080C12000, .plop3 q 1 15 2 3 4 0x80),
  (0x25FF010141BFC080, .sel q (.g 4) (.g 5) (.g 6) 2 false false),
  (0x26FF013FFFFFC000, .ptog q (.g 4)),
  (0x27FF3FC141BFC000, .gtop q (.g 5) (.g 6))] = true := by decide +kernel

theorem test_words_float : reads [
  (0x30FF010141BFC000, .fadd q (.g 4) (.g 5) (.g 6) .rne false false false),
  (0x31FF010141BFC040, .fsub q (.g 4) (.g 5) (.g 6) .rtz false false false),
  (0x32FF010141BFC400, .fmul q (.g 4) (.g 5) (.g 6) .rne false false true),
  (0x33FF01014181C000, .ffma q (.g 4) (.g 5) (.g 6) (.g 7) .rne false false false),
  (0x34FF010141BFC000, .fmin q (.g 4) (.g 5) (.g 6)),
  (0x35FF010141BFC000, .fmax q (.g 4) (.g 5) (.g 6)),
  (0x36FF01017FFFC040, .fclass q (.g 4) (.g 5) 1),
  (0x37FF010141BFC000, .fscale q (.g 4) (.g 5) (.g 6) .rne),
  (0x38FF01017FFFC0C0, .frnd q (.g 4) (.g 5) .rdn false),
  (0x39FF01017FFFC040, .f2i q (.g 4) (.g 5) .rtz 0),
  (0x3AFF0101BFFFC200, .i2f q (.g 4) (.g 6) .rne 2),
  (0x40FF010141BFC000, .hadd2 q (.g 4) (.g 5) (.g 6) .rne false false),
  (0x41FF010141BFC100, .hmul2 q (.g 4) (.g 5) (.g 6) .rne true false),
  (0x42FF01014181C000, .hfma2 q (.g 4) (.g 5) (.g 6) (.g 7) .rne false false false),
  (0x43FF010141BFC000, .hmin2 q (.g 4) (.g 5) (.g 6) false),
  (0x44FF010141BFC100, .hmax2 q (.g 4) (.g 5) (.g 6) true),
  (0x45FF01014181C000, .hdot2 q (.g 4) (.g 5) (.g 6) (.g 7) .rne false),
  (0x46FF01017FFFC100, .cvt q (.g 4) (.g 5) 0 1 .rne 0),
  (0x47FF010141BFC000, .cvtpk q (.g 4) (.g 5) (.g 6) .rne false),
  (0x48FF01023FFFC000, .cvtx4 q (.g 4) (.g 8) false false false),
  (0x49FF01018201C000, .qdt q (.g 4) (.g 6) (.g 8) (.g 7) false),
  (0x4AFF010141FFC000, .dqdt q (.g 4) (.g 5) (.g 7) false false .rne)] = true := by decide +kernel

theorem test_words_functions : reads [
  (0x50FF01017FFFC000, .rcp q (.g 4) (.g 5)),
  (0x51FF01017FFFC000, .rsq q (.g 4) (.g 5)),
  (0x52FF01017FFFC000, .sqrt q (.g 4) (.g 5)),
  (0x53FF01017FFFC000, .ex2 q (.g 4) (.g 5)),
  (0x54FF01017FFFC000, .lg2 q (.g 4) (.g 5)),
  (0x55FF01017FFFC000, .sint q (.g 4) (.g 5)),
  (0x56FF01017FFFC000, .cost q (.g 4) (.g 5)),
  (0x57FF010141BFC040, .phadd q (.g 4) (.g 5) (.g 6) true),
  (0x58FF010141BFC000, .phsub q (.g 4) (.g 5) (.g 6) false),
  (0x59FF084141BFC000, .phcmp q 1 2 (.g 5) (.g 6)),
  (0x5AFF01017FFFC000, .phfrom q (.g 4) (.g 5) .rne),
  (0x5BFF01017FFFC000, .phsc q (.g 4) (.g 5)),
  (0x5CFF01014181C000, .phcoh q (.g 4) (.g 5) (.g 6) (.g 7))] = true := by decide +kernel

theorem test_words_control : reads [
  (0x600FBFFFC0000100, .bra { q with g1 := 0, n1 := true } 4),
  (0x61FF3FC23FFFC000, .brx q (.g 8)),
  (0x62FF02BFC0000400, .call q (.g 10) 0x10),
  (0x63FF02823FFFC000, .callx q (.g 10) (.g 8)),
  (0x64FF3FC2BFFFC000, .ret q (.g 10)),
  (0x65FF3FFFFFFFC000, .exit q),
  (0x66FF3FC5060580C0, .spawn q (.g 20) (.g 24) (.g 22) 3),
  (0x67FF3FFFFFFFC000, .wconv q),
  (0x68FF3FFFFFFFC100, .yield q 4)] = true := by decide +kernel

theorem test_words_warppoint : reads [
  (0x70FF018141FFC1C0, .shfl q (.g 6) (.g 5) (.g 7) .none 3 1),
  (0x71FF01BFFFFFD880, .vote q (.g 6) 2 false 3),
  (0x72FF01817FFFC200, .wred q (.g 6) (.g 5) 8),
  (0x73FF01817FFFC400, .wscan q (.g 6) (.g 5) 0 true),
  (0x74FF01823FFFC040, .wmatch q (.g 6) (.g 8) true 0),
  (0x75FF01BFFFFFC000, .wlive q (.g 6))] = true := by decide +kernel

theorem test_words_memory : reads [
  (0x80FF010200100500, .ld q (.g 4) (.g 8) 0x40 4 2 false),
  (0x81FF018200100900, .st q (.g 6) (.g 8) 0x40 4 true),
  (0x82FF010202BFD500, .ldx q (.g 4) (.g 8) (.g 10) 4 2 false true),
  (0x83FF018202BFD140, .stx q (.g 6) (.g 8) (.g 10) 5 false true),
  (0x84FF010240020540, .lds q (.g 4) (.g 9) 8 5 2 false),
  (0x85FF018240020340, .sts q (.g 6) (.g 9) 8 5 1 false),
  (0x86FF3FC200000600, .pfl q (.g 8) 0 3 false),
  (0x90FF010201BFC1C0, .atom q (.g 4) (.g 8) (.g 6) 7 false 0),
  (0x91FF01020181D800, .acas q (.g 4) (.g 8) (.g 6) (.g 7) false 3),
  (0x92FF3FC201BFC0C0, .red q (.g 8) (.g 6) 3 false false 0),
  (0x93FF3FFFFFFFC280, .fence q 2 2),
  (0x94FF3FC202BFC000, .cwb q (.g 8) (.g 10) false),
  (0x95FF3FFFFFFFC040, .cinv q .none .none true)] = true := by decide +kernel

theorem test_words_scratchpad : reads [
  (0xA0FF3FC242BFC000, .tagset q (.g 9) (.g 10) false),
  (0xA1FF01027FFFC000, .tagrd q (.g 4) (.g 9)),
  (0xA2FF3FC242BFC000, .awinit q (.g 9) (.g 10) false),
  (0xA3FF3FC242BFC000, .awadd q (.g 9) (.g 10)),
  (0xA4FF010242BFC000, .await q (.g 4) (.g 9) (.g 10)),
  (0xA5FF02430282C000, .cpy q (.g 9) (.g 12) (.g 10) (.g 11) 0),
  (0xA6FF02430402C000, .cpyn q (.g 9) (.g 12) (.g 16) (.g 11) 0),
  (0xA7FF02430282C000, .cpyx q (.g 9) (.g 12) (.g 10) (.g 11) false),
  (0xA8FF03024282C000, .cpyp q (.g 12) (.g 9) (.g 10) (.g 11) false),
  (0xA9FF02430382C080, .gath q (.g 9) (.g 12) (.g 14) (.g 11) 2),
  (0xAAFF03024382C080, .scat q (.g 12) (.g 9) (.g 14) (.g 11) 2)] = true := by decide +kernel

theorem test_words_wait : reads [
  (0xB0FF01303FFFC4C0, .cvsign q (.g 4) (.k 0) 3 true),
  (0xB1FF3FC13FFFC080, .cvwait q (.g 4) 2),
  (0xB2FF3FFFFFFFC080, .cvrst q 2),
  (0xB3FF3FFFC3FFC000, .waitc q 0 15 15 15),
  (0xB4FF3FC201BFC000, .mwait q (.g 8) (.g 6) .none false false),
  (0xB5FF3FC1BFFFC000, .park q (.g 6))] = true := by decide +kernel

theorem test_words_handle : reads [
  (0xC0FF384141BFC000, .thal q (.h 1) (.g 5) (.g 6) false 0),
  (0xC1FF3FF87FFFC000, .threl q (.h 1)),
  (0xC2FF3FF841BFC000, .thgive q (.h 1) (.g 6)),
  (0xC3FF01387FFFC000, .thinfo q (.g 4) (.h 1)),
  (0xC4FF384302BFC000, .cpyt q (.h 1) (.g 12) (.g 10) false),
  (0xC5FF033842BFC000, .thst q (.g 12) (.h 1) (.g 10) false),
  (0xC6FF3FC2027FC000, .accz q (.g 8) (.g 9)),
  (0xC7FF020302428000, .accld q (.g 8) (.g 12) (.g 9) (.g 10) false),
  (0xC8FF030202428080, .accst q (.g 12) (.g 8) (.g 9) (.g 10) false true),
  (0xC9FF01023FFFC040, .accrd q (.g 4) (.g 8) 1)] = true := by decide +kernel

theorem test_words_matrix : reads [
  (0xD0FF008438420000, .mma q 2 (.g 16) (.h 1) (.g 8) false),
  (0xD1FF00C438820080, .mmal q 3 (.g 16) (.h 2) (.g 8) false 1),
  (0xD2FF004438C20040, .phmma q 1 (.g 16) (.h 3) (.g 8) true),
  (0xD3FF050202710000, .phfin q (.g 20) (.g 8) (.g 9) (.k 4) false),
  (0xD4FF050202454100, .qnt q (.g 20) (.g 8) (.g 9) (.g 21) 0 1 false false)] = true := by decide +kernel

theorem test_words_queue : reads [
  (0xE0FF01017FFFC000, .qopen q (.g 4) (.g 5) false 0),
  (0xE1FF010141BFC000, .qrsv q (.g 4) (.g 5) (.g 6) false 0),
  (0xE2FF020141BFE800, .qput q (.g 8) (.g 5) (.g 6) true 2 false 0),
  (0xE3FF02414181C000, .qputs q (.g 9) (.g 5) (.g 6) (.g 7) false false 0),
  (0xE4FF03017FFFE800, .qtake q (.g 12) (.g 5) true 2 false 0),
  (0xE5FF01014241C000, .qtakes q (.g 4) (.g 5) (.g 9) (.g 7) false false 0),
  (0xE6FF01017FFFC000, .qpeek q (.g 4) (.g 5) false 0),
  (0xE7FF3FC17FFFC000, .qwait q (.g 5) false 0),
  (0xE8FF3FC17FFFC000, .qreset q (.g 5) false 0),
  (0xE9FF3FC17FFFC000, .qclose q (.g 5) false 0),
  (0xEAFF3FC1427FC000, .launch q (.g 5) (.g 9) false 0),
  (0xEBFF3FC201BFC000, .signal q (.g 8) (.g 6) 0 false false 0)] = true := by decide +kernel

theorem test_words_system : reads [
  (0xF01F3FFFFFFFCA80, .trap { q with g1 := 1, n1 := false } 0x2A),
  (0xF1FF3FFFFFFFC000, .rth q),
  (0xF2FF0A3FFFFFC4C0, .sread q (.g 40) 0x13),
  (0xF3FF3FFC3FFFC380, .swrite q 14 .zero),
  (0xF4FF3FFFC00000C0, .yieldpt q 3),
  (0xF5FF3FFFFFFFC000, .bkpt q 0)] = true := by decide +kernel

/-- One ill-formed term for each check of an operand or a field. -/
theorem test_ill_formed_operands : ([
  .mov q (.h 0) (.g 5) false, .mov q (.g 4) (.h 0) false, .mov q (.g 5) (.g 6) true, .mov q (.g 4) (.g 7) true, .movi q .lane 0, .iadd q (.k 1) (.g 5) (.g 6) 0,
  .iadd q (.g 4) .none (.g 6) 0, .iadd q (.g 4) (.g 5) (.h 1) 0, .imad q (.g 4) (.g 5) (.g 6) .none, .imadw q (.g 4) (.g 5) (.g 6) (.k 3) 0,
  .iadd64 q (.g 4) .widHi (.g 6), .shl64 q (.g 5) (.g 6) (.g 7), .icmp q 1 2 (.g 5) (.g 6) 0 false true, .sel q (.g 4) (.g 6) (.g 7) 2 false true,
  .f2i q (.g 5) (.g 6) .rne 2, .i2f q (.g 4) (.g 5) .rne 3, .cvtx4 q (.g 4) (.g 5) true false false, .cvtx4 q (.g 5) (.g 4) false false false,
  .qdt q (.g 4) (.g 5) (.g 6) (.g 7) false, .dqdt q (.g 5) (.g 6) (.g 7) false false .rne, .brx q (.g 7), .call q (.k 2) 0, .callx q (.g 4) .lane, .ret q .none,
  .spawn q (.g 5) .none (.g 6) 0, .spawn q (.g 4) (.g 190) (.g 6) 3, .spawn q (.g 4) .none (.g 6) 1, .shfl q (.g 4) (.g 5) (.g 6) (.h 0) 0 0] : List Instr).all (fun i => !wellFormed i) = true := by decide +kernel

theorem test_ill_formed_memory : ([
  .ld q (.g 4) (.g 5) 0 4 0 false, .ld q (.g 5) (.g 6) 0 5 0 false, .ld q (.g 6) (.g 8) 0 6 0 false, .ld q (.g 4) (.g 8) 0 7 0 false,
  .st q (.g 4) (.g 8) 0 1 false, .st q (.g 5) (.g 8) 0 5 false, .stx q (.g 6) (.g 8) (.g 10) 6 false false, .lds q (.g 4) (.g 9) 0 6 1 false,
  .sts q (.g 4) (.g 9) 0 4 0 true, .sts q (.g 4) (.g 9) 0 4 3 false, .pfl q (.g 9) 0 0 false, .atom q (.g 4) (.g 8) (.g 6) 10 false 0, .atom q (.g 4) (.g 8) (.g 6) 9 true 0,
  .acas q (.g 4) (.g 8) (.g 6) (.g 7) true 0, .red q (.g 8) (.g 6) 0 false false 0, .red q (.g 8) (.g 6) 1 false false 3, .fence q 0 2, .fence q 1 3,
  .cwb q (.g 8) (.g 10) true, .cinv q .none .none false, .cpy q (.g 9) (.g 13) (.g 10) .none 0, .cpy q (.g 9) (.g 12) (.g 10) .none 1, .cpyn q (.g 9) (.g 12) (.g 15) .none 0,
  .cpyx q (.g 9) (.g 13) (.g 10) .none false, .cpyp q (.g 13) (.g 9) (.g 10) .none false, .gath q (.g 9) (.g 12) .zero .none 0, .gath q (.g 9) (.g 12) (.g 14) .none 7,
  .scat q (.g 13) (.g 9) (.g 14) .none 0] : List Instr).all (fun i => !wellFormed i) = true := by decide +kernel

theorem test_ill_formed_units : ([
  .cvsign q .none (.g 5) 0 false, .mwait q (.g 7) (.g 6) .none false false, .mwait q (.g 8) (.g 7) .none true false, .thal q (.g 1) (.g 5) (.g 6) false 0, .threl q (.g 1),
  .thgive q (.h 1) (.h 2), .thinfo q (.g 5) (.h 1), .cpyt q (.h 1) (.g 13) (.g 10) false, .thst q (.g 13) (.h 1) (.g 10) false, .accld q (.g 8) (.g 13) (.g 9) (.g 10) false,
  .accst q (.g 13) (.g 8) (.g 9) (.g 10) false false, .accrd q (.g 4) (.g 8) 3, .accrd q (.g 5) (.g 8) 1, .accrd q (.g 6) (.g 8) 2, .mma q 0 (.g 18) (.h 1) (.g 8) false,
  .mma q 0 (.g 180) (.h 1) (.g 8) false, .phmma q 0 (.g 16) (.g 1) (.g 8) false, .qnt q (.g 4) (.g 8) (.g 9) (.g 10) 0 0 false false, .qopen q (.g 5) (.g 6) false 0,
  .qopen q (.g 4) (.g 6) false 1, .qrsv q .zero (.g 5) (.g 6) false 0, .qput q (.g 9) (.g 5) (.g 6) false 0 false 0, .qput q (.g 8) (.g 5) (.g 7) false 0 false 0,
  .qput q (.g 8) (.g 5) (.g 6) false 3 false 0, .qtake q (.g 188) (.g 5) false 2 false 0, .qputs q (.g 4) (.g 5) (.g 7) (.g 8) false false 0, .qpeek q (.g 5) (.g 6) false 0] :
  List Instr).all (fun i => !wellFormed i) = true := by decide +kernel

theorem test_ill_formed_values : ([
  .iadd q (.g 4) (.g 5) (.g 6) 3, .imulh q (.g 4) (.g 5) (.g 6) 3, .imadw q (.g 4) (.g 5) (.g 6) (.g 8) 3, .icmp q 1 2 (.g 5) (.g 6) 6 false false, .icmpi q 1 2 (.g 5) 0 7 false false,
  .fclass q (.g 4) (.g 5) 3, .cvt q (.g 4) (.g 5) 0 1 .rne 1, .cvt q (.g 4) (.g 5) 1 0 .rne 2, .spawn q (.g 4) (.g 8) (.g 6) 9, .vote q (.g 4) 1 false 6, .wred q (.g 4) (.g 5) 11,
  .wscan q (.g 4) (.g 5) 15 false, .wmatch q (.g 4) (.g 5) false 3, .signal q (.g 8) (.g 6) 3 false false 0, .signal q (.g 8) (.g 6) 0 false false 2, .qwait q (.g 5) false 1,
  .qreset q (.g 5) false 1, .qclose q (.g 5) false 1, .launch q (.g 5) (.g 9) false 1, .sread q (.g 4) 0x1C, .swrite q 0x1C (.g 4), .ecall q (.g 5) (.g 6) 0, .tlbWalk 0, .freeze 16] :
  List Instr).all (fun i => !wellFormed i) = true := by decide +kernel

/-! ## A thread at its slot

`pr` is the machine with one thread at the slot of its clause, with the issue group in hand. -/

def pr : State := { State.reset.withFetchWord 64 0 with agenda := [], focus := 4 }
def pig : IGroup := probeIGroup 1 3
def pm : Self := { k := 192, t := probeThread 3, w := probeWarp 2, g := probeGroup 1, l := probeLaunch }

theorem slot_of {s : State} {ig : IGroup} (h : s.igroups.find s.focus = some ig ∧ s.stuck = none) : SlotOf s ig := ⟨h.1, h.2⟩

theorem alone_of {i : Instr} {s : State} {ig : IGroup} {m : Self}
    (h : (s.igroups.find s.focus = some ig ∧ s.stuck = none) ∧ s.self m.k = some m ∧ m.t.st ≠ .exited ∧ m.t.deferred = [] ∧ m.t.guardOk i.ctl = true ∧
      readyCheck i m = none ∧ ig.members = [m.k]) : Alone i s ig m :=
  { found := h.1.1, sound := h.1.2, self := h.2.1, alive := h.2.2.1, clear := h.2.2.2.1, guard := h.2.2.2.2.1, ready := h.2.2.2.2.2.1, one := h.2.2.2.2.2.2 }

/-- Whether the probe's thread may issue. -/
def mayIssue (i : Instr) : Bool := pm.t.guardOk i.ctl && (readyCheck i pm == none)

theorem alone_pr {i : Instr} (h : mayIssue i = true) : Alone i pr pig pm := by
  simp only [mayIssue, Bool.and_eq_true, beq_iff_eq] at h
  exact alone_of ⟨by decide +kernel, by decide +kernel, by decide +kernel, by decide +kernel, h.1, h.2, by decide +kernel⟩

theorem together_pr {i : Instr} (h : mayIssue i = true) : Together i pr pig := by
  refine ⟨by exact slot_of (by decide +kernel), by decide +kernel, ?_⟩
  intro k hk
  rw [(alone_pr h).one, List.mem_singleton] at hk
  exact ⟨pm, hk.symm, (alone_pr h).toMayIssue⟩

theorem all_of {p : Instr → Bool} {P : Instr → Prop} (hp : ∀ i, p i = true → P i) (l : List Instr) (h : l.all p = true) : ∀ i ∈ l, P i :=
  fun i hi => hp i (List.all_eq_true.1 h i hi)

theorem test_meets_MovesAndShiftsResult : ∀ i ∈ ([.nop q, .mov q (.g 4) (.g 5) false, .mov q (.g 4) (.g 6) true, .movi q (.g 4) 1, .movk q .zero 1,
    .sel q (.g 4) (.g 5) (.g 6) 2 false false, .sel q (.g 4) (.g 6) (.g 8) 2 true true, .imin q (.g 4) (.g 5) .lane true, .imin q (.g 4) (.g 5) (.g 6) false,
    .imax q (.g 4) (.g 5) (.g 6) true, .imax q (.g 4) (.g 4) (.g 4) false, .shl q (.g 4) (.g 5) (.g 6), .shr q (.g 4) (.g 5) (.g 6) false, .shr q (.g 4) (.g 5) (.g 6) true,
    .rot q (.g 4) (.g 5) (.g 6) false, .rot q (.g 4) (.g 5) (.g 6) true, .shl64 q (.g 4) (.g 6) (.g 8), .shr64 q (.g 4) (.g 6) (.g 8) false,
    .shr64 q (.g 4) (.g 6) (.g 8) true] : List Instr), Together i pr pig := all_of (fun _ => together_pr) _ (by decide +kernel)

theorem test_meets_SumsAndProductsResult : ∀ i ∈ ([.iadd q (.g 4) (.g 5) (.k 0) 0, .iadd q (.g 4) (.g 5) (.g 6) 1, .iadd q .zero (.g 5) (.g 6) 2, .isub q (.g 4) (.g 5) (.g 6) 0,
    .isub q (.g 4) (.g 5) (.g 6) 1, .isub q (.g 4) (.g 5) (.g 6) 2, .iaddi q (.g 4) (.g 5) 1, .ineg q (.g 4) (.g 5) true, .iabs q (.g 4) (.g 5) false,
    .iadd64 q (.g 4) (.g 6) .widLo, .isub64 q (.g 4) (.g 6) .dtLo, .imul q (.g 4) (.g 5) (.g 6), .imulh q (.g 4) (.g 5) (.g 6) 2, .imad q (.g 4) (.g 5) (.g 6) (.g 7),
    .imadw q (.g 4) (.g 5) (.g 6) (.g 8) 1] : List Instr), Together i pr pig := all_of (fun _ => together_pr) _ (by decide +kernel)

theorem test_meets_BitsResult : (∀ i ∈ ([.lop3 q (.g 4) (.g 5) (.g 6) (.g 7) 0x96, .bfx q (.g 4) (.g 5) (.g 6) true, .bfi q (.g 4) (.g 5) (.g 6) (.g 7), .brev q (.g 4) (.g 5),
    .popc q (.g 4) (.g 5), .clz q (.g 4) (.g 5), .ctz q (.g 4) (.g 5), .prmt q (.g 4) (.g 5) (.g 6) (.g 7)] : List Instr), Together i pr pig) ∧ 31 < 32 :=
  ⟨all_of (fun _ => together_pr) _ (by decide +kernel), by decide⟩

theorem test_meets_ComparesResult : ∀ i ∈ ([.icmp q 1 2 (.g 5) (.g 6) 5 true false, .icmp q 1 2 (.g 4) (.g 6) 0 false true, .icmpi q 1 15 (.g 5) 9 2 true false, .icmpi q 1 15 (.g 4) 9 2 false true,
    .fcmp q 1 2 (.g 5) (.g 6) 7, .hcmp2 q 1 2 (.g 5) (.g 6) 3 true, .plop3 q 1 2 3 4 5 0x80, .ptog q (.g 4), .gtop q (.g 5) (.g 6), .phcmp q 1 2 (.g 5) (.g 6)] : List Instr),
    Together i pr pig := all_of (fun _ => together_pr) _ (by decide +kernel)

theorem test_meets_FloatResult : ∀ i ∈ ([.fadd q (.g 4) (.g 5) (.g 6) .rtz true false false, .fadd q (.g 4) (.g 5) (.g 6) .rne false false true, .fsub q (.g 4) (.g 5) (.g 6) .rne false false true,
    .fmul q (.g 4) (.g 5) (.g 6) .rdn false true false, .fmul q (.g 4) (.g 5) (.g 6) .rne false false true, .ffma q (.g 4) (.g 5) (.g 6) (.g 7) .rne true true false,
    .ffma q (.g 4) (.g 5) (.g 6) (.g 7) .rup false false true, .fmin q (.g 4) (.g 5) (.g 6), .fmax q (.g 4) (.g 5) (.g 6), .fclass q (.g 4) (.g 5) 2, .fscale q (.g 4) (.g 5) (.g 6) .rne,
    .frnd q (.g 4) (.g 5) .rtz true, .f2i q (.g 4) (.g 5) .rne 2, .i2f q (.g 4) (.g 6) .rne 3] : List Instr), Together i pr pig := all_of (fun _ => together_pr) _ (by decide +kernel)

theorem test_meets_PackedResult : ∀ i ∈ ([.hadd2 q (.g 4) (.g 5) (.g 6) .rne true true, .hmul2 q (.g 4) (.g 5) (.g 6) .rne false false, .hfma2 q (.g 4) (.g 5) (.g 6) (.g 7) .rne false true true,
    .hmin2 q (.g 4) (.g 5) (.g 6) false, .hmax2 q (.g 4) (.g 5) (.g 6) true, .hdot2 q (.g 4) (.g 5) (.g 6) (.g 7) .rne true, .cvt q (.g 4) (.g 5) 3 2 .rne 3,
    .cvtpk q (.g 4) (.g 5) (.g 6) .rne true, .cvtx4 q (.g 4) (.g 8) true false true, .cvtx4 q (.g 4) (.g 5) false true false, .qdt q (.g 4) (.g 6) (.g 8) (.g 7) true,
    .dqdt q (.g 4) (.g 5) (.g 7) true true .rne] : List Instr), Together i pr pig := all_of (fun _ => together_pr) _ (by decide +kernel)

theorem test_meets_DotProductResult : Together (.hdot2 q (.g 4) (.g 5) (.g 6) (.g 7) .rtz false) pr pig := together_pr (by decide +kernel)

theorem test_meets_FunctionsResult : ∀ i ∈ ([.rcp q (.g 4) (.g 5), .rsq q (.g 4) (.g 5), .sqrt q (.g 4) (.g 5), .ex2 q (.g 4) (.g 5), .lg2 q (.g 4) (.g 5), .sint q (.g 4) (.g 5),
    .cost q (.g 4) (.g 5), .phadd q (.g 4) (.g 5) (.g 6) true, .phsub q (.g 4) (.g 5) (.g 6) false, .phfrom q (.g 4) (.g 5) .rne, .phsc q (.g 4) (.g 5),
    .phcoh q (.g 4) (.g 5) (.g 6) (.g 7), .wlive q (.g 6), .thinfo q (.g 4) (.h 1)] : List Instr), Together i pr pig := all_of (fun _ => together_pr) _ (by decide +kernel)

theorem test_meets_TablesHalfTurn : (4095 ≤ 4095) ∧ 65534 < 65536 ∧ 65534 % 2 = 0 := by decide

theorem test_meets_WarpPointsResult : ∀ i ∈ ([.shfl q (.g 6) (.g 5) (.g 7) .none 3 1, .vote q (.g 6) 2 true 3, .wred q (.g 6) (.g 5) 10, .wscan q (.g 6) (.g 5) 8 true,
    .wmatch q (.g 6) (.g 8) true 2, .wconv q] : List Instr), Gathered i pr pig 3 := by
  refine all_of (p := mayIssue) (fun i h => ?_) _ (by decide +kernel)
  have a := alone_pr h
  refine { found := a.found, sound := a.sound, whole := by decide +kernel, some_ := by decide +kernel, each := ?_, alone := ?_, clear := by decide +kernel }
  · intro k hk
    rw [a.one, List.mem_singleton] at hk
    subst hk
    exact ⟨pm, a.self, a.alive, a.clear, by decide +kernel, fun _ => a.ready⟩
  · intro w hw
    rw [show pr.warps.find 3 = some (probeWarp 2) by decide +kernel] at hw
    cases hw
    rfl

/-! ## Variants of the probe -/

/-- The probe with another thread state. -/
def prT (f : Thread → Thread) : State := pr.setThread 192 (f (probeThread 3))
def pmT (f : Thread → Thread) : Self := { pm with t := f (probeThread 3) }
/-- The probe with the pre-emption flag of its core set. -/
def prPre : State := { pr with contexts := pr.contexts.put 0 { probeContext with preDies := [0] } }
def inHandler (t : Thread) : Thread := { t with handler := some 0x50, epc := 0x10000 }
/-- The probe's thread in a handler, with another thread of its warp on lane 5. -/
def twoWarp : Warp := { probeWarp 2 with roster := 0x21 }
def prPair : State := { prT inHandler with warps := (prT inHandler).warps.put 3 twoWarp, threads := (prT inHandler).threads.put (threadKey 3 5) { probeThread 3 with lane := 5, st := .ready } }
def pmPair : Self := { pmT inHandler with w := twoWarp }

theorem test_meets_ControlGoes :
    (∀ i ∈ ([.bra q 4, .brx q (.g 8), .call q (.g 10) 0xFFFFFF, .callx q (.g 10) (.g 8), .ret q (.g 10), .exit q, .yield q 0, .yield q 4] : List Instr), Alone i pr pig pm) ∧
    (Alone (.rth q) (prT inHandler) pig (pmT inHandler) ∧ (pmT inHandler).t.handler.isSome ∧ (pmT inHandler).t.rosterPend = false) ∧
    (Alone (.yieldpt q 3) pr pig pm ∧ pr.contexts.find 0 = some probeContext ∧ pm.g.vdie ∉ probeContext.preDies) ∧
    Alone (.yieldpt q 3) prPre pig pm ∧ prPre.contexts.find 0 = some { probeContext with preDies := [0] } ∧ pm.g.vdie ∈ [0] :=
  ⟨all_of (fun _ => alone_pr) _ (by decide +kernel), ⟨alone_of (by decide +kernel), by decide +kernel⟩, ⟨alone_pr (by decide +kernel), by decide +kernel⟩,
    alone_of (by decide +kernel), by decide +kernel⟩

theorem test_meets_SpecialRegisters :
    (Alone (.sread q (.g 4) 0x1B) pr pig pm ∧ specialReg pr pm 0x1B = some 16) ∧ Alone (.swrite q 0x0E (.g 4)) pr pig pm ∧
    (∀ i ∈ ([.swrite q 0x11 (.g 4), .swrite q 0x12 (.g 4)] : List Instr), Alone i (prT inHandler) pig (pmT inHandler)) ∧
    (∀ reg ∈ ([0x14, 0x15] : List Byte), Alone (.swrite q reg (.g 4)) prPair pig pmPair ∧ pmPair.t.handler.isSome ∧ pmPair.k = threadKey pmPair.t.warp pmPair.t.lane) ∧
    (pmPair.w.roster.getLsbD 5 = true ∧ (pairOf (prPair.src pmPair (.g 4)) (BitVec.allOnes 32)).getLsbD 5 = false ∧ 5 ≠ pmPair.t.lane ∧ (prPair.threads.find (threadKey 3 5)).isSome) ∧
    (Alone (.swrite q 0x14 (.g 4)) pr pig pm ∧ pm.t.handler = none) ∧ Alone (.swrite q 0x1B (.g 4)) (prT inHandler) pig (pmT inHandler) :=
  ⟨⟨alone_pr (by decide +kernel), by decide +kernel⟩, alone_pr (by decide +kernel), all_of (p := fun i => (pmT inHandler).t.guardOk i.ctl && (readyCheck i (pmT inHandler) == none))
    (fun i h => by simp only [Bool.and_eq_true, beq_iff_eq] at h; exact alone_of ⟨by decide +kernel, by decide +kernel, by decide +kernel, by decide +kernel, h.1, h.2, by decide +kernel⟩) _ (by decide +kernel),
    (fun reg hr => by revert reg; simp only [List.mem_cons, List.not_mem_nil, or_false, forall_eq_or_imp, forall_eq]; exact ⟨⟨alone_of (by decide +kernel), by decide +kernel⟩, alone_of (by decide +kernel), by decide +kernel⟩),
    by decide +kernel, ⟨alone_pr (by decide +kernel), by decide +kernel⟩, alone_of (by decide +kernel)⟩

/-- The launch's trap-handler table at 0x20000, with one handler for TRAPSW and BKPT. -/
def trapLaunch : Launch := { probeLaunch with ls := probeLs.set 24 0x20000 }
def prTab : State := ({ pr with launches := pr.launches.put 1 trapLaunch }.memWrite 0 0x20280 (w64Bytes 0x10000)).memWrite 0 0x20288 (w64Bytes 0x10000)
def pmTab : Self := { pm with l := trapLaunch }

theorem pair_of {α β : Type} {p : α × β} {a : α} (h : p.1 = a) : ∃ b, p = (a, b) := ⟨p.2, by rw [← h]⟩

theorem test_meets_TrapsTaken :
    (Alone (.trap q 0x2A) prTab pig pmTab ∧ pmTab.t.handler = none ∧ ∃ s1, prTab.handlerOf pmTab [192] .trapsw = (.entry 0x10000, s1)) ∧
    (Alone (.bkpt q 0x2A) prTab pig pmTab ∧ pmTab.t.handler = none ∧ ∃ s1, prTab.handlerOf pmTab [192] .bkpt = (.entry 0x10000, s1)) ∧
    (Alone (.trap q 0x2A) pr pig pm ∧ Alone (.bkpt q 0) pr pig pm ∧ pm.t.handler = none ∧ pm.l.trapTab = 0 ∧ pr.contexts.find pm.g.ctx = some probeContext ∧
      probeContext.st = .running) :=
  ⟨⟨alone_of (by decide +kernel), by decide +kernel, pair_of (by decide +kernel)⟩, ⟨alone_of (by decide +kernel), by decide +kernel, pair_of (by decide +kernel)⟩,
    alone_pr (by decide +kernel), alone_pr (by decide +kernel), by decide +kernel⟩

/-! ## Memory and engines -/

/-- A leaf of 1 GiB at address 0 in the given mode: writable, executable, accessed and dirty. -/
def leaf (mode : Nat) : W64 := BitVec.ofNat 64 (0x79 + 2 * mode + 2 * 2 ^ 52)
/-- The probe with that leaf in the near TLB. -/
def prM (mode : Nat) : State := { pr with nearTlb := pr.nearTlb.put 0 [{ ctx := 0, base := 0, size := 2 ^ 30, leaf := leaf mode }] }
/-- A sector in the near cache, whole and clean. -/
def sector (expiry : Option Nat) : Sector := { ctx := 0, bytes := (List.range 64).map fun i => (i, (7 : Byte)), dirty := [], expiry := expiry, hint := 0 }
def prNc (mode : Nat) (expiry : Option Nat) : State := { prM mode with nc := (prM mode).nc.put (ncKey 0 0 64) (sector expiry) }

theorem alone_prM {i : Instr} {mode : Nat} (h : mayIssue i = true) : Alone i (prM mode) pig pm := by
  have a := alone_pr h
  exact { found := a.found, sound := a.sound, self := a.self, alive := a.alive, clear := a.clear, guard := a.guard, ready := a.ready, one := a.one }

theorem reached {p : Reach × State} {l : W64} {pa : Nat} {P : State → Prop} (h : p.1 = .at_ l pa) (hp : P p.2) : ∃ s1, p = (.at_ l pa, s1) ∧ P s1 :=
  ⟨p.2, by rw [← h], hp⟩

theorem test_meets_DivisionIssues : (∀ i ∈ ([.idiv q (.g 4) (.g 5) (.g 6) true, .irem q .zero (.g 5) (.g 6) false] : List Instr), Alone i pr pig pm) ∧
    (let p : Prod := { thread := 192, core := 0, regs := [4], val := .val [7], mem := none, held := false, pc := 0, word := 0 }
     let s := { pr with prods := [(9, p)] }
     s.stuck = none ∧ s.prods.find 9 = some p ∧ s.threads.find p.thread = some (probeThread 3) ∧ (probeThread 3).st ≠ .exited ∧ p.regs = [4] ∧ [7].length = p.regs.length) :=
  ⟨all_of (fun _ => alone_pr) _ (by decide +kernel), by decide +kernel⟩

/-- The probe with a miss of another issue group on its way: a fill, and a load at home. -/
def withFill (mode : Nat) : State :=
  { prM mode with prods := [(9, { thread := 192, core := 0, regs := [4], val := .fill 64 8 false 0 9 7 0, mem := some (64, 8), held := false, pc := 0, word := 0 })] }
def withLoad (mode : Nat) : State :=
  { prM mode with hreqs := [(9, { die := 0, core := 0, ctx := 0, thread := some 192, op := none, pa := 64, size := 8, kind := .load 64 true 8 false 2, mode := mode, recalls := none, ig := 7, born := 0, also := [], after := [], hint := 0 })] }

theorem test_meets_LoadsIssue :
    (∀ mode ∈ [0, 1, 2], Alone (.ld q (.g 4) (.g 8) 64 6 1 true) (prM mode) pig pm ∧ Alone (.ldx q (.g 4) (.g 8) .lane 5 0 false true) (prM mode) pig pm) ∧
    (∀ mode ∈ [0, 1, 2], ∃ s1, (prM mode).reach pm 64 kindLoad 16 6 = (.at_ (leaf mode) 64, s1) ∧ s1.overlapPending pm.k 64 16 State.ordLoad = false ∧
      (s1.issueLoad pm (.g 4) (leaf mode) 64 16 false 64 0 true).1 = true) ∧
    (Leaf.mode (leaf 1) ≠ modeH ∧ (0 : BitVec 2) ≠ 3 ∧ ((prNc 1 none).ncBytes 0 0 64 16 modeS).isSome = true) ∧
    (Leaf.mode (leaf 2) ≠ modeH ∧ (prM 2).ncBytes 0 0 64 16 modeS = none ∧ (prM 2).sharedFill pm 64 = none ∧ (prM 2).sectorRequests 0 0 < 3072 ∧
      (withFill 2).ncBytes 0 0 64 16 modeS = none ∧ (withFill 2).sharedFill pm 64 = some 9) ∧
    (Leaf.mode (leaf 0) = modeH ∧ 64 ≠ 0 ∧ (prNc 0 (some 1)).partials.find (partKey 0 0 64) = none ∧ ((prNc 0 (some 1)).ncBytes 0 0 64 16 modeH).isSome = true) ∧
    (Leaf.mode (leaf 0) = modeH ∧ (prNc 0 (some 0)).ncBytes 0 0 64 16 modeH = none ∧ (prNc 0 (some 0)).sharedLoad pm 64 = none ∧ (prNc 0 (some 0)).sectorRequests 0 0 < 3072) ∧
    ((withLoad 0).partials.find (partKey 0 0 64) = none ∧ (withLoad 0).ncBytes 0 0 64 16 modeH = none ∧ (withLoad 0).sharedLoad pm 64 = some 9) := by
  refine ⟨fun mode _ => ⟨alone_prM (by decide +kernel), alone_prM (by decide +kernel)⟩, fun mode hm => reached ?_ ?_, by decide +kernel, by decide +kernel, by decide +kernel, by decide +kernel, by decide +kernel⟩
  · revert mode; decide +kernel
  · revert mode; decide +kernel

theorem test_meets_StoresAndAtomicsIssue :
    (∀ mode ∈ [0, 1, 2], ∀ i ∈ ([.st q (.g 4) (.g 8) 64 6 true, .stx q .zero (.g 8) (.g 10) 5 false true, .atom q (.g 4) (.g 8) (.g 6) 9 false 3, .atom q .zero (.g 8) (.g 6) 8 true 0,
      .acas q (.g 4) (.g 8) (.g 6) (.g 10) true 2, .red q (.g 8) (.g 6) 9 false true 2, .red q (.g 8) (.g 6) 1 true false 0] : List Instr), Alone i (prM mode) pig pm) ∧
    (∀ mode ∈ [0, 1, 2], ∃ s1, (prM mode).reach pm 64 kindStore 16 6 = (.at_ (leaf mode) 64, s1) ∧ s1.fenceOk pm.k 0 2 2 = true ∧ s1.overlapPending pm.k 64 16 State.ordStore = false ∧
      s1.overlapPending pm.k 64 16 State.ordLocal = false ∧ s1.requestsFull 0 0 = false) ∧
    (∀ mode ∈ [0, 1, 2], ∃ s1, (prM mode).reach pm 0 kindAtomic 8 7 = (.at_ (leaf mode) 0, s1) ∧ (prM mode).fenceOk pm.k 0 2 2 = true ∧ s1.overlapPending pm.k 0 8 State.ordAtomic = false ∧
      s1.overlapPending pm.k 0 8 State.ordStore = false ∧ s1.overlapPending pm.k 0 8 State.ordLocal = false ∧ s1.requestsFull 0 0 = false) ∧
    Leaf.mode (leaf 0) = modeH := by
  refine ⟨fun mode _ => all_of (fun _ => alone_prM) _ (by decide +kernel), fun mode hm => reached ?_ ?_, fun mode hm => reached ?_ ?_, by decide +kernel⟩ <;> (revert mode; decide +kernel)

theorem pair2 {α β : Type} {p : α × β} {a : α} {P : β → Prop} (h : p.1 = a) (hp : P p.2) : ∃ b, p = (a, b) ∧ P b := ⟨p.2, by rw [← h], hp⟩

theorem test_meets_MaintenanceRuns :
    (∀ i ∈ ([.pfl q (.g 8) 64 0 true, .pfl q (.g 8) 64 3 false, .fence q 1 2, .fence q 2 0, .cwb q (.g 8) (.g 10) false, .cwb q .none .none true, .cinv q (.g 8) (.g 10) false,
      .cinv q .none .none true] : List Instr), Alone i pr pig pm) ∧
    (∃ c i, (pr.walkNow 0 0 0 (2 ^ 57) kindLoad (some 0)).1 = .cause c i) ∧ ((∃ s1, pr.walkNow 0 0 0 64 kindLoad (some 0) = (.hit (leaf 0) 64, s1) ∧ s1.stuck = none)) ∧
    pr.fenceOk pm.k 0 2 2 = true ∧ pr.fenceOk pm.k 0 1 0 = true ∧ (pr.maintained pm (.g 8) (.g 10) false).2.stuck = none ∧ (pr.maintained pm .none .none true).2.stuck = none :=
  ⟨all_of (fun _ => alone_pr) _ (by decide +kernel), ⟨.pagefault, pageInfo kindLoad 4 0 rsnNonCanon 0, by decide +kernel⟩, pair2 (by decide +kernel) (by decide +kernel), by decide +kernel⟩

/-- Whether a thread at the probe's slot may issue. -/
def can (s : State) (m : Self) (i : Instr) : Bool :=
  decide ((s.igroups.find s.focus = some pig ∧ s.stuck = none) ∧ s.self m.k = some m ∧ m.t.st ≠ .exited ∧ m.t.deferred = [] ∧ m.t.guardOk i.ctl = true ∧
    readyCheck i m = none ∧ pig.members = [m.k])

theorem alone_can {s : State} {m : Self} {i : Instr} (h : can s m i = true) : Alone i s pig m := alone_of (by simpa [can] using h)
theorem all_alone (s : State) (m : Self) (l : List Instr) (h : l.all (can s m) = true) : ∀ i ∈ l, Alone i s pig m := all_of (fun _ => alone_can) l h

/-- The probe with another group, and with another warp. -/
def prG (f : Group → Group) : State := pr.setGroup 2 (f (probeGroup 1))
def pmG (f : Group → Group) : Self := { pm with g := f (probeGroup 1) }

/-- An armed word at offset 0: TARGET 4, COUNT 3, generation 1. -/
def armed (g : Group) : Group := { g with spad := cellsSet [] 0 (leBytes 8 (3 + 4 * 2 ^ 24 + 2 ^ 48)), tags := [] }

/-- The same word at generation 0, with word 1 full, and one wait. -/
def tagged (ws : List TagWait) (g : Group) : Group := { g with spad := cellsSet [] 0 (leBytes 8 (3 + 4 * 2 ^ 24)), tags := [1], tagWaits := ws }
def tagWait (kind word : Nat) (gen : BitVec 16) : TagWait := { thread := 192, word := word, off := 8 * word, sz := 8, kind := kind, dst := [4, 5], sext := false, data := [1, 2], gen := gen, prod := 9 }
def prWait (x : TagWait) : State := { prG (tagged [x]) with prods := [(9, { thread := 192, core := 0, regs := [4], val := .tagged, mem := none, held := false, pc := 0, word := 0 })] }

theorem test_meets_ScratchpadRuns :
    let f : Group → Group := fun g => { armed g with tags := [1] }
    let s := prG f
    let m := pmG f
    (∀ i ∈ ([.lds q (.g 4) (.g 9) 8 5 2 false, .sts q (.g 4) (.g 9) 16 5 1 true, .lds q (.g 4) (.g 9) 24 6 0 false, .sts q (.g 4) (.g 9) 0 0 0 false, .tagset q (.g 9) (.g 10) true,
      .tagrd q (.g 4) (.g 9), .awinit q (.g 9) (.g 10) true, .awadd q (.g 9) (.g 10), .await q (.g 4) (.g 9) (.g 10)] : List Instr), Alone i s pig m) ∧
    (m.t.waitDone = false ∧ spadCheck m s 8 8 8 0 5 = none ∧ s.tagFull 2 1 = true ∧ spadCheck m s 16 8 8 1 5 = none ∧ s.tagFull 2 2 = false) ∧
    (0 % 8 = 0 ∧ 0 + 8 * 0 ≤ m.l.spad ∧ s.pendingAwait m = none) ∧ (spadCheck m s 0 1 8 0 5 = none ∧ spadCheck m s 0 8 8 2 5 = none ∧ (s.arrive 2 0 0).isSome = true) ∧
    (spadCheck m s 0 8 8 0 5 = none ∧ s.arrivalGen 2 0 ≠ (s.src m (.g 10)).setWidth 16) ∧
    ((∀ i ∈ ([.await q (.g 4) (.g 9) (.g 10), .lds q (.g 4) (.g 9) 24 5 1 false, .sts q (.g 4) (.g 9) 8 5 1 false] : List Instr), Alone i (prG (tagged [])) pig (pmG (tagged []))) ∧
      (prG (tagged [])).arrivalGen 2 0 = ((prG (tagged [])).src (pmG (tagged [])) (.g 10)).setWidth 16 ∧ spadCheck (pmG (tagged [])) (prG (tagged [])) 0 8 8 0 5 = none ∧
      spadCheck (pmG (tagged [])) (prG (tagged [])) 24 8 8 0 5 = none ∧ (prG (tagged [])).tagFull 2 3 = false ∧ spadCheck (pmG (tagged [])) (prG (tagged [])) 8 8 8 1 5 = none ∧
      (prG (tagged [])).tagFull 2 1 = true ∧ (∀ x ∈ (pmG (tagged [])).g.tagWaits, x.thread = 192 → x.kind = 3)) ∧
    ((prWait (tagWait 3 0 7)).arrivalGen 2 0 ≠ 7 ∧ ((prWait (tagWait 3 0 7)).prods.find 9).isSome ∧ (prWait (tagWait 2 3 0)).tagFull 2 3 = false ∧ Memory.wf (tagged [] (probeGroup 1)).spad = true ∧
      ((prWait (tagWait 2 3 0)).threads.find 192).isSome ∧ (prWait (tagWait 1 1 0)).tagFull 2 1 = true ∧ ((prWait (tagWait 1 1 0)).self 192).isSome ∧
      (prWait (tagWait 3 0 0)).waitMet 2 (tagWait 3 0 0) = false ∧ (prWait (tagWait 3 0 0)).groups.find 2 = some (tagged [tagWait 3 0 0] (probeGroup 1))) ∧
    (s.groups.find 2 = some m.g ∧ Memory.wf m.g.spad = true ∧ m.g.tagWaits = [] ∧ leNat (cellsGet m.g.spad 0 8) / 2 ^ 24 % 2 ^ 24 = 4 ∧ leNat (cellsGet m.g.spad 64 8) / 2 ^ 24 % 2 ^ 24 = 0) :=
  ⟨all_alone _ _ _ (by decide +kernel), by decide +kernel, by decide +kernel, by decide +kernel, by decide +kernel, ⟨all_alone _ _ _ (by decide +kernel), by decide +kernel⟩, by decide +kernel, by decide +kernel⟩

/-- The probe's group with a pending AWAIT of its thread. -/
def awaits (g : Group) : Group := { g with tagWaits := [{ thread := 192, word := 0, off := 0, sz := 8, kind := 3, dst := [4], sext := false, data := [], gen := 1, prod := 9 }] }

/-- The sixteen waystations of core 0, all in use by other entries. -/
def prStations : State := pr.setCore 0 0 { pr.core 0 0 with stations := (List.range 16).map fun i => (i, { group := 9, entry := 16, conts := [], since := 0, due := false, held := false }) }
def waited (t : Thread) : Thread := { t with waitDone := true }

theorem test_meets_WaitsAndSpawns :
    let cvs : Group → Group := fun g => { g with cvs := [(2, { gen := 1, count := 0, sigs := 0, mgen := none })] }
    let far := (prM 0).memWrite 0 0 [1]
    let cont : Cont := { entry := 0, work := 0, pay := [0, 0, 0], index := none, src := some (192, 0x10000, pr.word, pr.nextId) }
    (Alone (.spawn q (.g 20) (.g 24) (.g 22) 3) pr pig pm ∧ pr.pendingAwait pm = none ∧ (pr.enterStation 0 0 2 16 cont).isSome = true) ∧
    (Alone (.spawn q (.g 20) (.g 24) (.g 22) 3) (prG awaits) pig (pmG awaits) ∧ ((prG awaits).pendingAwait (pmG awaits)).isSome = true) ∧
    (Alone (.spawn q (.g 20) (.g 24) (.g 22) 3) prStations pig pm ∧ prStations.pendingAwait pm = none ∧ prStations.enterStation 0 0 2 16 cont = none) ∧
    (Alone (.park q (.g 6)) pr pig pm ∧ pm.t.waitDone = false) ∧ (Alone (.park q (.g 6)) (prT waited) pig (pmT waited) ∧ (pmT waited).t.waitDone = true) ∧
    (Alone (.ecall q (.g 4) (.g 6) 0x80) pr pig pm ∧ pr.contexts.find pm.g.ctx = some probeContext ∧ pr.ecalled pm.k = false ∧ pr.callPlaces 0 0 < 64) ∧
    Alone (.ecall q (.g 4) (.g 6) 0x80) (prT waited) pig (pmT waited) ∧ (Alone (.waitc q 0 15 0 0) pr pig pm ∧ countersOk pm.w (packWait 0 15 0 0) = true) ∧
    (Alone (.cvwait q (.g 4) 2) (prG cvs) pig (pmG cvs) ∧ ((prG cvs).cv 2 2).gen ≠ (prG cvs).src (pmG cvs) (.g 4)) ∧
    (Alone (.mwait q (.g 8) (.g 6) .none false true) far pig pm ∧ ∃ s1, far.reach pm 0 kindLoad 4 4 = (.at_ (leaf 0) 0, s1) ∧ Leaf.mode (leaf 0) = modeH ∧ s1.overlapPending pm.k 0 4 State.ordLoad = false ∧
      s1.linePending 0 0 0 = false ∧ (∃ s3, s1.mayRead (State.threadReader pm.k) 0 0 = (true, s3) ∧
        bytesW64 ((s3.readDone (State.threadReader pm.k)).memRead 0 0 4) ≠ (s3.readDone (State.threadReader pm.k)).srcWide pm false (.g 6))) ∧
    (Alone (.mwait q (.g 8) (.g 6) .none false true) (prM 0) pig pm ∧ (prM 0).monitors.find pm.k = none ∧ ∃ s1, (prM 0).reach pm 0 kindLoad 4 4 = (.at_ (leaf 0) 0, s1) ∧ s1.overlapPending pm.k 0 4 State.ordLoad = false ∧
      s1.linePending 0 0 0 = false ∧ ∃ s3, s1.mayRead (State.threadReader pm.k) 0 0 = (true, s3) ∧
        bytesW64 ((s3.readDone (State.threadReader pm.k)).memRead 0 0 4) = (s3.readDone (State.threadReader pm.k)).srcWide pm false (.g 6)) ∧
    Alone (.mwait q (.g 8) (.g 6) .none false false) (prT waited) pig (pmT waited) :=
  ⟨⟨alone_can (by decide +kernel), by decide +kernel⟩, ⟨alone_can (by decide +kernel), by decide +kernel⟩, ⟨alone_can (by decide +kernel), by decide +kernel⟩, ⟨alone_can (by decide +kernel), by decide +kernel⟩,
    ⟨alone_can (by decide +kernel), by decide +kernel⟩, ⟨alone_can (by decide +kernel), by decide +kernel⟩, alone_can (by decide +kernel),
    ⟨alone_can (by decide +kernel), by decide +kernel⟩, ⟨alone_can (by decide +kernel), by decide +kernel⟩, ⟨alone_can (by decide +kernel), reached (by decide +kernel) ⟨by decide +kernel, by decide +kernel, by decide +kernel, pair2 (by decide +kernel) (by decide +kernel)⟩⟩,
    ⟨alone_can (by decide +kernel), by decide +kernel, reached (by decide +kernel) ⟨by decide +kernel, by decide +kernel, pair2 (by decide +kernel) (by decide +kernel)⟩⟩, alone_can (by decide +kernel)⟩

/-- The probe with values in registers. -/
def regs (l : List (Nat × W32)) (t : Thread) : Thread := { t with regs := l }

theorem test_meets_ConvergenceRuns :
    let s := prT (regs [(5, 1)])
    let m := pmT (regs [(5, 1)])
    let r := s.cv m.gid 3
    (Alone (.cvsign q (.g 4) (.g 5) 3 true) s pig m ∧ m.t.grant ≠ waitEngine ∧ 0 < (s.src m (.g 5)).toNat ∧ (s.src m (.g 5)).toNat ≤ 65535 ∧ r.count = 0 ∧ (r.fires 1 = true → r.mgen.isSome = true → s.hasRoom m = true)) ∧
    Alone (.cvrst q 3) s pig m ∧ (s.groups.find 2).isSome = true ∧ r.fires 1 = true ∧ r.fires 65535 = false :=
  ⟨⟨alone_can (by decide +kernel), by decide +kernel⟩, alone_can (by decide +kernel), by decide +kernel⟩

/-- The probe's group with an AWAIT of its thread under way. -/
def awaiting : State := (prG (tagged [tagWait 3 0 7])).setThread 192 (regs [(5, 1)] (probeThread 3))
def pmAwaiting : Self := { pmG (tagged [tagWait 3 0 7]) with t := regs [(5, 1)] (probeThread 3) }

theorem test_meets_ConvergenceRuns_await :
    Alone (.cvsign q (.g 4) (.g 5) 3 true) awaiting pig pmAwaiting ∧ awaiting.pendingAwait pmAwaiting = some (tagWait 3 0 7) ∧ pmAwaiting.t.grant ≠ waitEngine ∧
    (awaiting.src pmAwaiting (.g 5)).toNat = 1 ∧ (awaiting.cv pmAwaiting.gid 3).count = 0 :=
  ⟨alone_can (by decide +kernel), by decide +kernel⟩

/-- h1 names physical tile 5 of format INT8, 16 by 16, in the given state. -/
def named (fmt : BitVec 4) (st : HState) (g : Group) : Group :=
  { g with handles := [(1, { fmt := fmt, bl := 0, rows := 15, cols := 15, st := st, owner := 0, soff := 0, tile := some 5, saved := [] })] }

theorem test_meets_HandlesAndAccumulatorRun :
    let d := regs [(5, 0x0F0F01)]
    let full := { prT d with tiles := (List.range 128).map fun t => (t, { bytes := [], writers := [9], readers := [] }) }
    let g := named 1 .ready
    (Alone (.thal q (.h 1) (.g 5) (.g 6) true 2) (prT d) pig (pmT d) ∧ ((prT d).handle 2 1).bound = false ∧ descCheck (pmT d) 1 ((prT d).handle 2 1) 0x0F0F01 0 = none ∧ (pmT d).t.grant ≠ waitTile ∧
      (prT d).freeTiles 0 0 = List.range 128 ∧ (prT d).grantsOut 0 0 waitTile < 128) ∧
    (Alone (.thal q (.h 1) (.g 5) (.g 6) true 2) full pig (pmT d) ∧ full.freeTiles 0 0 = []) ∧
    (Alone (.threl q (.h 1)) (prG g) pig (pmG g) ∧ handleCheck (pmG g) (prG g) 1 = none) ∧
    (Alone (.thgive q (.h 1) (.g 6)) (prG g) pig (pmG g) ∧ ((prG g).handle 2 1).st ≠ .busy ∧ (((prG g).groupWarps 2).any fun w => w.2.num == ((prG g).src (pmG g) (.g 6)).toNat) = true) ∧
    (Alone (.accz q (.g 8) (.g 9)) pr pig pm ∧ accCheck pm 0 0 0 = none ∧ pm.w.mx = 0 ∧ pm.w.cp = 0) ∧ Alone (.accrd q (.g 4) (.g 8) 2) pr pig pm ∧ accCheck pm 0 1 (accCells 2) = none :=
  ⟨⟨alone_can (by decide +kernel), by decide +kernel⟩, ⟨alone_can (by decide +kernel), by decide +kernel⟩, ⟨alone_can (by decide +kernel), by decide +kernel⟩,
    ⟨alone_can (by decide +kernel), by decide +kernel⟩, ⟨alone_can (by decide +kernel), by decide +kernel⟩, alone_can (by decide +kernel), by decide +kernel⟩

theorem test_meets_TransfersIssue :
    let g := named 1 .allocated
    let s := prG g
    let m := pmG g
    let r := s.handle 2 1
    let t (k : XKind) (d p : Place) : Transfer := { Transfer.blank m k with dpl := d, spl := p }
    (∀ i ∈ ([.cpy q (.g 9) (.g 12) (.g 10) (.g 11) 0, .cpy q (.g 8) (.g 12) (.g 10) .none 3, .cpyn q (.g 9) (.g 12) (.g 16) .none 0, .cpyx q (.g 9) (.g 12) (.g 10) (.g 11) true,
      .cpyp q (.g 12) (.g 9) (.g 10) (.g 11) false, .gath q (.g 9) (.g 12) (.g 14) (.g 11) 6, .scat q (.g 12) (.g 9) (.g 14) .none 0, .cpyt q (.h 1) (.g 12) (.g 10) true,
      .thst q (.g 12) (.h 1) (.g 10) false, .accld q (.g 8) (.g 12) (.g 9) (.g 10) false, .accst q (.g 12) (.g 8) (.g 9) (.g 10) false true] : List Instr), Alone i s pig m) ∧
    (∀ x ∈ ([(.cpy, .spad, .die), (.cpy, .die, .die), (.cpyn, .spad, .die), (.cpyx, .spad, .spad), (.cpyp, .die, .spad), (.gath, .spad, .die), (.scat, .die, .spad)] : List (XKind × Place × Place)),
      transferCheck (t x.1 x.2.1 x.2.2) m s = none ∧ transferCheck { t x.1 x.2.1 x.2.2 with aw := some 0 } m s = none) ∧ s.igroups.find s.focus = some pig ∧
    (handleCheck m s 1 = none ∧ transferCheck { t .cpyt .tile .spad with len := rowBytes r.fmt r.cols, rows := r.rows.toNat + 1, tile := 5, fmt := r.fmt } m s = none ∧ r.st ≠ .busy) ∧
    (transferCheck { t .thst .die .tile with len := rowBytes r.fmt r.cols, rows := r.rows.toNat + 1, tile := 5, fmt := r.fmt } m s = none ∧ r.st ≠ .loading) ∧
    accXferCheck { t .accld .acc .die with rows := 0 } 0 0 4 0 m s = none ∧ accXferCheck { t .accst .die .acc with rows := 0, clr := true } 0 0 5 0 m s = none ∧ s.warps.find m.t.warp = some m.w :=
  ⟨all_alone _ _ _ (by decide +kernel), by decide +kernel⟩

/-- A warp of two threads, of which the probe's is one. -/
def prTwo (g : Group → Group) : State := (prG g).setWarp 3 { probeWarp 2 with roster := 3 }
def pmTwo (g : Group → Group) : Self := { pmG g with w := { probeWarp 2 with roster := 3 } }

/-- A warp of one thread signs: the generation fires. -/
theorem test_meets_MatrixInstructionsIssue_fires :
    ∀ x ∈ ([(.mma q 2 (.g 16) (.h 1) (.g 8) true, 3, false), (.mma q 2 (.g 16) (.h 1) (.g 8) false, 1, false), (.mmal q 3 (.g 16) (.h 1) (.g 8) true 1, 13, false), (.phmma q 1 (.g 16) (.h 1) (.g 8) true, 7, true)] :
        List (Instr × BitVec 4 × Bool)),
      let s := prG (named x.2.1 .ready)
      let m := pmG (named x.2.1 .ready)
      let h := s.handle 2 1
      can s m x.1 = true ∧ handleCheck m s 1 = none ∧ h.st ≠ .loading ∧ h.fmt = x.2.1 ∧ (∀ g ∈ s.groups, ∀ y ∈ g.2.cvs, y.2.mgen = none) ∧ s.mops = [] ∧ m.w.mx < 255 ∧
      accCheck m (s.src m (.g 8)) m.w.width (if x.2.2 then 2 * (h.cols.toNat + 1) else h.cols.toNat + 1) = none ∧ (maskList m.w.roster).length = 1 ∧ (s.cv 2 2).fires 1 = true ∧ s.hasRoom m = true ∧
      s.pendingAwait m = none ∧ m.t.grant ≠ waitEngine := by
  decide +kernel

theorem test_meets_MatrixInstructionsIssue :
    (∀ x ∈ ([(.mma q 2 (.g 16) (.h 1) (.g 8) true, 3, false), (.mma q 2 (.g 16) (.h 1) (.g 8) false, 1, false), (.mmal q 3 (.g 16) (.h 1) (.g 8) true 1, 13, false), (.phmma q 1 (.g 16) (.h 1) (.g 8) true, 7, true)] :
        List (Instr × BitVec 4 × Bool)),
      let s := prTwo (named x.2.1 .ready)
      let m := pmTwo (named x.2.1 .ready)
      let h := s.handle 2 1
      can s m x.1 = true ∧ handleCheck m s 1 = none ∧ h.st ≠ .loading ∧ h.fmt = x.2.1 ∧ (s.cv 2 2).mgen = none ∧ (∀ g ∈ s.groups, ∀ y ∈ g.2.cvs, y.2.mgen = none) ∧
      accCheck m (s.src m (.g 8)) 16 (if x.2.2 then 2 * (h.cols.toNat + 1) else h.cols.toNat + 1) = none ∧ (maskList m.w.roster).length = 2 ∧ (s.cv 2 2).count = 0 ∧ (s.cv 2 2).fires 2 = false ∧
      s.pendingAwait m = none ∧ m.t.grant ≠ waitEngine) ∧
    (Alone (.phfin q (.g 20) (.g 8) (.g 9) (.k 4) true) pr pig pm ∧ 0 % 4 = 0 ∧ accCheck pm 0 0 0 = none ∧ 0 + 4 * 0 * 0 ≤ pm.l.spad ∧ pr.pendingAwait pm = none ∧ pm.t.grant ≠ waitEngine ∧ pr.hasRoom pm = true) ∧
    Alone (.qnt q (.g 20) (.g 8) (.g 9) (.g 21) 2 1 true true) pr pig pm ∧ 0 + 0 * qntBlocks 1 0 ≤ pm.l.spad :=
  ⟨by decide +kernel, ⟨alone_can (by decide +kernel), by decide +kernel⟩, alone_can (by decide +kernel), by decide +kernel⟩

/-- The probe with QID 0 bound, with all rights, to slot 0 of die 0; and with it unbound. -/
def prQ (bits : BitVec 128) : State := { pr with contexts := pr.contexts.put 0 { probeContext with qtlen := 1 }, qidCache := [{ ctx := 0, die := 0, qid := 0, bits := bits }] }
def prQT (f : Thread → Thread) : State := (prQ 0x0F).setThread 192 (f (probeThread 3))

def bound0 : Bind := { home := 0, slot := 0, inc := 0, key := 0, conf := false, rights := 7, esize := 0 }

theorem ok_of {p : Except Nat Bind × State} {b : Bind} (h : (match p.1 with | .ok y => y == b | .error _ => false) = true) : ∃ s1, p = (.ok b, s1) := by
  obtain ⟨e, s1⟩ := p
  cases e with
  | ok y => exact ⟨s1, by simp only [beq_iff_eq] at h; rw [h]⟩
  | error _ => exact absurd h (by simp)

theorem err_of {p : Except Nat Bind × State} {n : Nat} {P : State → Prop} (h : (match p.1 with | .ok _ => false | .error y => y == n) = true) (hp : P p.2) :
    ∃ s1, p = (.error n, s1) ∧ P s1 := by
  obtain ⟨e, s1⟩ := p
  cases e with
  | ok y => exact absurd h (by simp)
  | error y => exact ⟨s1, by simp only [beq_iff_eq] at h; rw [h], hp⟩

theorem test_meets_QueueRequestsIssue :
    let held : List Instr := [.qopen q (.g 4) (.g 5) true 2, .qput q (.g 8) (.g 5) (.g 6) true 2 true 2, .qwait q (.g 5) true 2, .qreset q (.g 5) true 2, .qclose q (.g 5) true 2]
    let one := regs [(6, 1)]
    (∀ i ∈ held, Alone i (prQ 0x0F) pig pm) ∧ (∀ need ∈ [0, 1, 2, 3], ∃ x s1, (prQ 0x0F).bindQ 0 0 0 0 need = (.ok x, s1)) ∧ pm.t.waitDone = false ∧ (prQ 0x0F).heldQ pm.k = false ∧
    (prQ 0x0F).fenceOk pm.k 0 2 2 = true ∧ (∀ i ∈ held, Alone i (prQT waited) pig (pmT waited)) ∧ (pmT waited).t.waitDone = true ∧
    (∀ i ∈ held, Alone i (prQ 0) pig pm) ∧ (∃ s1, (prQ 0).bindQ 0 0 0 0 3 = (.error qNotbound, s1) ∧ s1.stuck = none) ∧
    (Alone (.qrsv q (.g 4) (.g 5) (.g 6) false 0) (prQT one) pig (pmT one) ∧ 0 < ((prQT one).src (pmT one) (.g 6)).toNat ∧ ((prQT one).src (pmT one) (.g 6)).toNat ≤ 65535 ∧
      ∃ x s1, (prQT one).bindQ 0 0 0 0 0 = (.ok x, s1)) ∧
    (∀ i ∈ ([.qtake q (.g 12) (.g 5) true 2 true 3, .qtake q .zero (.g 5) false 0 false 0, .qpeek q (.g 4) (.g 5) true 3, .qput q (.g 8) (.g 5) (.g 6) true 0 false 0] : List Instr), Alone i (prQ 0x0F) pig pm) ∧
    ∃ x s1, ((prQ 0x0F).updThread 192 fun t => t.setPred 3 false).bindQ 0 0 0 0 1 = (.ok x, s1) := by
  refine ⟨all_alone _ _ _ (by decide +kernel), ?_, by decide +kernel, by decide +kernel, by decide +kernel, all_alone _ _ _ (by decide +kernel), by decide +kernel, all_alone _ _ _ (by decide +kernel),
    err_of (by decide +kernel) (by decide +kernel), ⟨alone_can (by decide +kernel), by decide +kernel, by decide +kernel, bound0, ok_of (by decide +kernel)⟩, all_alone _ _ _ (by decide +kernel),
    bound0, ok_of (by decide +kernel)⟩
  intro need hn
  exact ⟨bound0, ok_of (by revert need; decide +kernel)⟩

theorem test_meets_RunsAndSignalsLeave :
    let f := regs [(7, 1), (8, 8)]
    let s := prQT f
    let m := pmT f
    let sig := { s with contexts := s.contexts.put 0 { probeContext with sigwords := 16 } }
    let busy := { sig with sigQueue := (List.range 64).map fun i => (i, { vf := 0, die := 0, vdie := 0, ctx := 0, thread := 192, vcore := 0, group := 0, warp := 0, lane := 0, sel := 1, fn := 0, arg := 0, regs := [] }) }
    (∀ i ∈ ([.qputs q (.g 9) (.g 5) (.g 10) (.g 7) true false 0, .qtakes q (.g 4) (.g 5) (.g 9) (.g 7) true true 3, .launch q (.g 5) (.g 9) false 0] : List Instr), Alone i s pig m) ∧
    (∃ x s1, s.bindQ 0 0 0 0 0 = (.ok x, s1) ∧ (∃ s0, s.bindSize 0 0 0 0 = (some x.esize, s0))) ∧ (∃ x s1, s.bindQ 0 0 0 0 1 = (.ok x, s1)) ∧
    (0 < (s.src m (.g 7)).toNat ∧ (s.src m (.g 7)).toNat ≤ 65535 ∧ 0 + 1 * elemSize 0 ≤ m.l.spad ∧ s.fenceOk m.k 0 2 2 = true ∧ 0 % 8 = 0 ∧ 0 + 128 ≤ m.l.spad) ∧
    (s.pendingAwait m = none ∧ m.t.warp = m.k / 64 ∧ (popDone m.w.outst []).1 = []) ∧
    (Alone (.signal q (.g 8) (.g 6) 2 true true 3) sig pig m ∧ sig.contexts.find 0 = some { probeContext with sigwords := 16 } ∧ sigOk { probeContext with sigwords := 16 } (sig.src64 m (.g 8)).toNat = true ∧
      (State.portElems sig.sigQueue 0 0).length < 64) ∧
    Alone (.signal q (.g 8) (.g 6) 0 false false 0) busy pig m ∧ 64 ≤ (State.portElems busy.sigQueue 0 0).length := by
  refine ⟨all_alone _ _ _ (by decide +kernel), ⟨bound0, (ok_of (by decide +kernel)).elim fun s1 h => ⟨s1, h, pair_of (by decide +kernel)⟩⟩, ⟨bound0, ok_of (by decide +kernel)⟩,
    by decide +kernel, by decide +kernel, ⟨alone_can (by decide +kernel), by decide +kernel⟩, alone_can (by decide +kernel), by decide +kernel⟩

/-! ## Home, caches and walks -/

def loadReq (lease prod : Nat) (fill : Bool) : HReq :=
  { die := 0, core := 0, ctx := 0, thread := some 192, op := none, pa := 64, size := 8, kind := .load lease fill prod false 2, mode := 0, recalls := some [], ig := 4, born := 0, also := [], after := [], hint := 0 }
def writeReq (mode : Nat) : HReq := { loadReq 0 0 false with kind := .store [1, 2, 3, 4, 5, 6, 7, 8], mode := mode }
def aPartial : Partial := { ctx := 0, fn := 1, w64 := false, words := [(0, 5)], threads := [192], opened := 0, dieScope := true }

theorem test_meets_HomeServes :
    (∀ r ∈ [loadReq 0 7 false, loadReq 64 0 true], let s := { pr with hreqs := [(9, r)] };
      s.stuck = none ∧ s.hreqs.find 9 = some r ∧ s.homeReady 9 r = (true, s) ∧ s.partsPending r.die r.pa = false ∧ s.partials.find (partKey 0 0 64) = none) ∧
    (let s := { pr with hreqs := [(9, loadReq 64 7 true)], partials := [(partKey 0 0 64, aPartial)] };
      s.homeReady 9 (loadReq 64 7 true) = (true, s) ∧ s.partsPending 0 64 = false ∧ (s.partials.find (partKey 0 0 64)).isSome = true) ∧
    (∀ mode ∈ [0, 1], let s := { pr with hreqs := [(9, writeReq mode)] };
      s.hreqs.find 9 = some (writeReq mode) ∧ State.isWrite (writeReq mode).kind = true ∧ s.homeReady 9 (writeReq mode) = (true, s)) ∧
    pr.threads.find 192 = some (probeThread 3) := by decide +kernel

theorem test_meets_WritesPerform :
    let w : PWrite := { die := 0, pa := 64, size := 8, kind := .store [1, 2, 3, 4, 5, 6, 7, 8], w := 0, threads := [], op := none }
    let a : PWrite := { w with kind := .atom 1 5 (some 7) }
    let p : Prod := { thread := 192, core := 0, regs := [4, 5], val := .home, mem := none, held := false, pc := 0, word := 0 }
    let s := { pr with pwrites := [(9, w)] }
    let late := { pr with pwrites := [(9, { w with w := 1 })] }
    let u := { pr with pwrites := [(9, a)], prods := [(7, p)] }
    (s.stuck = none ∧ s.pwrites.find 9 = some w ∧ [1, 2, 3, 4, 5, 6, 7, 8].length = w.size ∧ Memory.wf s.mem = true ∧ w.w ≤ s.now 0 ∧ s.earliestW 0 64 = some w.w) ∧
    (late.pwrites.find 9 = some { w with w := 1 } ∧ late.now 0 < 1) ∧
    u.pwrites.find 9 = some a ∧ a.size = 8 ∧ Memory.wf u.mem = true ∧ a.w ≤ u.now 0 ∧ u.earliestW 0 64 = some a.w ∧ u.prods.find 7 = some p := by decide +kernel

theorem test_meets_CachesAnswer :
    let s := { pr with partials := [(5, aPartial)], cores := [(0, { pr.core 0 0 with clk := 1024 })] }
    let b : WBack := { die := 0, core := 0, ctx := 0, bytes := [(64, 3)], cwbs := [], cinvs := [] }
    let u : Push := { die := 0, core := 0, line := 5, part := aPartial }
    (s.stuck = none ∧ s.partials.find (coreKey 0 0 * 2 ^ 30 + 5) = some aPartial ∧ aPartial.dieScope = true ∧ aPartial.opened + 1024 ≤ s.clk 0 0) ∧
    (let s := { pr with wbacks := [(9, b)] }; s.wbacks.find 9 = some b ∧ (∀ c ∈ b.bytes, s.inOrder 9 b.die b.core c.1 false = true) ∧ Memory.wf s.mem = true) ∧
    (let s := { pr with pushes := [(9, u)] }; s.pushes.find 9 = some u ∧ s.inOrder 9 0 0 (5 * 128) false = true ∧ s.partials.find (partKey 0 0 (5 * 128)) = none) ∧
    (let r := { writeReq 0 with recalls := some [3] }; let s := { pr with hreqs := [(9, r)] }; r.die = 0 ∧ r.pa / 128 = 0 ∧ r.recalls = some [3] ∧ s.pushes = [] ∧ s.partials.find (partKey 0 3 0) = none) := by
  decide +kernel

/-- Two sectors of one line in the near cache, the first to be kept. -/
def prKept : State := { pr with nc := [(ncKey 0 0 0, { sector none with hint := 2 }), (ncKey 0 0 64, sector none)] }

/-- The sectors and partials that an eviction names, and what stands in the set of a sector. -/
theorem test_meets_CachesAnswer_sets :
    prKept.cached 0 0 = [(0, State.hintRank 2), (1, State.hintRank 0)] ∧
    (∃ e ∈ [(1, State.hintRank 0)], ∀ f ∈ State.sameSet (prKept.cached 0 0) 1, e.2 ≤ f.2) ∧
    ∀ e ∈ [(0, State.hintRank 2)], ∃ f ∈ State.sameSet (prKept.cached 0 0) 0, f.2 < e.2 := by
  have h : prKept.cached 0 0 = [(0, State.hintRank 2), (1, State.hintRank 0)] := by decide +kernel
  refine ⟨h, ⟨(1, State.hintRank 0), by decide, fun f hf => ?_⟩, fun e he => ⟨(1, State.hintRank 0), ?_, ?_⟩⟩
  · rw [h, State.sameSet, List.mem_filter] at hf
    exact (by decide : ∀ f ∈ [(0, State.hintRank 2), (1, State.hintRank 0)], (1, State.hintRank 0).2 ≤ f.2) f hf.1
  · rw [h, State.sameSet]
    simp
  · exact (by decide : ∀ e ∈ [(0, State.hintRank 2)], (1, State.hintRank 0).2 < e.2) e he

/-- A walk of the probe's thread for the page of an address. -/
def walk (va : Nat) : Walk := { die := 0, ctx := 0, va := va, base := va / 2 ^ 30 * 2 ^ 30, span := 2 ^ 30, write := true, cores := [0], waiters := [(192, kindStore)] }
/-- A locked leaf with W = 0. -/
def readOnly : W64 := BitVec.ofNat 64 (0x77 + 2 * 2 ^ 52)
/-- The probe whose leaf is locked. -/
def prLocked (e : W64) : State := pr.memWrite 0 (probeRoot + 0x2000) (w64Bytes e)
/-- The probe whose tables lead beyond the die's memory for addresses from 2^48 on. -/
def prFar : State := pr.memWrite 0 (probeRoot + 8) (w64Bytes (BitVec.ofNat 64 (1 + 2 ^ 37 + 0xE * 2 ^ 52)))

theorem test_meets_WalksEnd :
    (∀ x ∈ ([(pr, 0), (pr, 2 ^ 40), (prFar, 2 ^ 48)] : List (State × Nat)), let s := { x.1 with walks := [(9, walk x.2)] };
      s.stuck = none ∧ s.walks.find 9 = some (walk x.2) ∧ (s.walking 0).contains 9 = true ∧ (∀ t ∈ (4, probeRoot) :: walkTables s 0 x.2 4 probeRoot, s.holdersOf 0 (t.2 + 8 * bitsOf x.2 (levelBits t.1).1 (levelBits t.1).2) = []) ∧ s.walkStart 0 0 x.2 probeRoot = (4, probeRoot) ∧ s.self 192 = some pm ∧ s.vdieOf 0 0 = some 0 ∧ s.xrec 0 0 = some { root := probeRoot, qtbase := 0, stopbase := 0 }) ∧
    (∃ e place, walkFrom pr 0 0 4 probeRoot = .leaf e place ∧ Leaf.mode (pr.inForce 0 0 0 e) ≠ modeLocked ∧ pm.g.core ∈ (walk 0).cores) ∧
    (walkFrom (prLocked (leaf 3)) 0 0 4 probeRoot = .leaf (leaf 3) (probeRoot + 0x2000) ∧ Leaf.mode ((prLocked (leaf 3)).inForce 0 0 0 (leaf 3)) = modeLocked ∧
      leafCheck (leaf 3) kindStore (some pm.g.vcore) = none) ∧
    (walkFrom (prLocked readOnly) 0 0 4 probeRoot = .leaf readOnly (probeRoot + 0x2000) ∧ Leaf.mode ((prLocked readOnly).inForce 0 0 0 readOnly) = modeLocked ∧
      (leafCheck readOnly kindStore (some pm.g.vcore)).isSome = true) ∧
    (∃ r l z, walkFrom pr 0 (2 ^ 40) 4 probeRoot = .bad r l z) ∧ ∃ a, walkFrom prFar 0 (2 ^ 48) 4 probeRoot = .beyond a :=
  ⟨by decide +kernel, ⟨leaf 0, probeRoot + 0x2000, by decide +kernel⟩, by decide +kernel, by decide +kernel, ⟨rsnNotValid, 3, 0, by decide +kernel⟩, ⟨2 ^ 37, by decide +kernel⟩⟩

/-! ## Threads, warps and groups -/

theorem test_meets_ThreadsAndWarpsLive :
    let s (t : Thread) := pr.setThread 192 t
    let t0 := probeThread 3
    let mon : Monitor := { armed := true, thread := 192, die := 0, sector := 0, va := 0, pa := 0, w64 := false, cmp := 0, deadline := some 0 }
    let st : Station := { group := 2, entry := 16, conts := [{ entry := 16, work := 5, pay := [7], index := none, src := none }], since := 0, due := true, held := false }
    let far : Station := { st with entry := 2 ^ 40, conts := [{ entry := 2 ^ 40, work := 5, pay := [], index := none, src := some (192, 0x10000, 0, 0) }] }
    let prSt := pr.setCore 0 0 { pr.core 0 0 with clk := 256, stations := [(3, st)] }
    (∀ n ∈ [0, 1], (s { t0 with st := .delayed n }).stuck = none ∧ (s { t0 with st := .delayed n }).threads.find 192 = some { t0 with st := .delayed n }) ∧
    (0 ≤ pr.clkOf 192 ∧ pr.clkOf 192 < 1) ∧
    (let w : Wait := ⟨waitMonitor, 0, 0⟩; let u := { s { t0 with st := .blocked w } with monitors := [(192, mon)] }
      u.threads.find 192 = some { t0 with st := .blocked w } ∧ (w.kind ≠ waitFence ∨ w.place ≠ 1) ∧ w.kind = waitMonitor ∧ u.monitors.find 192 = some mon ∧ mon.armed = true ∧ mon.deadline = some 0 ∧ 0 ≤ u.now mon.die) ∧
    ({ mon with deadline := some 1 }.deadline = some 1 ∧ pr.now 0 < 1) ∧
    (let u := { pr with monitors := [(192, { mon with armed := false })] }; u.threads.find 192 = some t0 ∧ u.monitors.find 192 = some { mon with armed := false }) ∧
    (let w : Wait := ⟨waitOther, 0, parkPlace 0⟩; let u := s { t0 with st := .blocked w }
      isPark w = true ∧ u.self 192 = some { pm with t := { t0 with st := .blocked w } } ∧ pm.g.st = .resident ∧ w.val.toNat ≤ u.now 0) ∧
    ((prSt.core 0 0).stations.find 3 = some st ∧ prSt.groups.find 2 = some pm.g ∧ prSt.launches.find 1 = some probeLaunch ∧ st.since + probeLaunch.stationTimer ≤ (prSt.core 0 0).clk) ∧
    (st.held = false ∧ st.due = true ∧ (prSt.launchPlace 0 0 2 pm.g probeLaunch st).isSome = true ∧ (prSt.launchFetch pm.g st).1 = .ok ∧ (prSt.launchFetch pm.g st).2.stuck = none) ∧
    ((prSt.launchPlace 0 0 2 pm.g probeLaunch far).isSome = true ∧ (match (prSt.launchFetch pm.g far).1 with | .fault .. => true | _ => false) = true ∧ (prSt.launchFetch pm.g far).2.stuck = none) ∧
    (let u := (pr.setWarp 3 { probeWarp 2 with roster := 0 }).setThread 192 { t0 with st := .exited, wct := 9 }; u.warps.find 3 = some { probeWarp 2 with roster := 0 } ∧
      u.groups.find 2 = some pm.g ∧ u.warpDone 3 = true ∧ pm.g.st = .resident) ∧
    (pr.warps.find 3 = some (probeWarp 2) ∧ ∀ r ∈ (probeWarp 2).points, r.count < 2 ^ 20 ∨ r.stalled ≠ []) := by decide +kernel

/-- A warp point that one of two threads has reached, 2^20 clk ago. -/
def stallRec : PointRec := { ig := pig, word := 0, count := 2 ^ 20, stalled := [], fetched := [] }
def arrivedThread : Thread := { probeThread 3 with st := .point, waitFrom := 0, pc := 0x10000 }
def stall (l : Launch) : State := { (pr.setWarp 3 { probeWarp 2 with roster := 3, points := [stallRec] }) with
  launches := [(1, l)], threads := [(192, arrivedThread), (193, { probeThread 3 with lane := 1, st := .ready })], cores := [(0, { pr.core 0 0 with clk := 2 ^ 20 })], mem := (prTab.memWrite 0 0x20188 (w64Bytes 0x10000)).mem }

theorem test_meets_convstall : ∀ l ∈ [probeLaunch, trapLaunch], let u := stall l
    u.stuck = none ∧ (u.warps.find 3).bind (fun w => w.points.find? fun r => decide (2 ^ 20 ≤ r.count) && r.stalled.isEmpty) = some stallRec ∧ stallRec.ig.pc = 0x10000 ∧
    u.arrivedAt 3 0x10000 = [(192, arrivedThread)] ∧ u.threads.find 192 = some arrivedThread ∧
    ((u.rosterThreads 3).filter fun e => !(e.2.st == .point && e.2.pc == 0x10000)).map (·.2.lane) = [1] ∧
    (u.self 192).map (fun m => (m.t, m.l)) = some (arrivedThread, l) ∧ arrivedThread.handler = none := by decide +kernel

theorem test_meets_convstall_handler : probeLaunch.trapTab = 0 ∧
    ∃ m s1, (stall trapLaunch).self 192 = some m ∧ (stall trapLaunch).handlerOf m [192] .convstall = (.entry 0x10000, s1) :=
  ⟨by decide +kernel, { pm with t := arrivedThread, w := { probeWarp 2 with roster := 3, points := [stallRec] }, l := trapLaunch }, (pair_of (by decide +kernel)).elim fun s1 h => ⟨s1, by decide +kernel, h⟩⟩

/-- The probe's thread READY at the header, in no issue group. -/
def prReady (pc : W64) : State := { (pr.setThread 192 { probeThread 3 with st := .ready, xfer := some .slot0, pc := pc }) with igroups := [] }

/-- Whether the issue table may form the named threads into one issue group of one member. -/
def issuable (s : State) (ks : List Nat) : Bool :=
  let all := s.candidates 0 0
  let ms := ks.filterMap fun k => all.find? fun c => c.m.k == k
  ms.length == ks.length && validGroup all ms && (sortBy (fun a b => decide (a.lane ≤ b.lane)) ms).length == 1

theorem test_meets_GroupsIssue :
    (issuable (prReady 0x10000) [192] = true ∧ issuable (prReady 0x10001) [192] = true ∧ (prReady 0x10000).stuck = none) ∧
    (∃ h s1, (prReady 0x10000).checkTarget pm.site 0x10000 true = (.ok h, s1) ∧ s1.stuck = none ∧ countersOk pm.w (packWait h.wcp h.wmx h.wqu h.wgs) = true) ∧
    (∃ c info fa s1, (prReady 0x10001).checkTarget pm.site 0x10001 true = (.cause c info fa, s1) ∧ c.isL = false ∧ s1.stuck = none) :=
  ⟨by decide +kernel, ⟨{ eng := 1, count := 0, dict := false, wcp := 0, wmx := 0, wqu := 0, wgs := 0, yld := false, rsv := 0 }, pair2 (by decide +kernel) (by decide +kernel)⟩,
    ⟨.badtarget, 0x10001, 0, pair2 (by decide +kernel) (by decide +kernel)⟩⟩

/-- A launch of one group of sixteen threads, with no scratchpad, rows or handles, and a save area of one slot. -/
def small : Launch := { probeLaunch with ls := ((probeLs.set 13 0).set 14 0).set 27 0x100002 }
def prS (g : Group → Group) : State := { prG g with launches := [(1, small)] }
/-- The probe with no group, and one launch that is to place one. -/
def prP : State := { pr with launches := [(1, { small with st := .accepted, next := [], start := [] })], groups := [], warps := [], threads := [], igroups := [] }

/-- The launch whose group is to be placed. -/
def fresh1 : Launch := { small with st := .accepted, next := [], start := [] }
def sleepy : State := (prS id).setThread 192 { probeThread 3 with st := .blocked ⟨waitOther, 1, parkPlace 1⟩ }
/-- One of its two threads waits for a register that a known result will fill. -/
def almost : State := { (prS id).setWarp 3 { probeWarp 2 with roster := 3 } with
  threads := [(192, { probeThread 3 with st := .blocked ⟨waitReg, 0, 4⟩, empty := [4] }), (193, { probeThread 3 with lane := 1, st := .blocked ⟨waitOther, 1, parkPlace 1⟩ })]
  prods := [(9, { thread := 192, core := 0, regs := [4], val := .val [7], mem := none, held := false, pc := 0, word := 0 })] }
def wakingG : Group := { probeGroup 1 with st := .waking, slot := some 0 }
def waking : State := { prS fun _ => wakingG with warps := [], threads := [], igroups := [] }
/-- A launch with energy records at 64, whose one group has no warps left. -/
def counted : Launch := { small with ls := (small.ls.set 27 0).set 20 64 }
def overState (recorded : Bool) : State := { prS fun g => { g with recorded := recorded } with launches := [(1, counted)], warps := [], threads := [], igroups := [] }

def leaving (n : Nat) : Group := { pm.g with st := .parking, wokeAt := n }
def timer (key : Nat) : Watch := { die := 0, kind := 3, w64 := false, mayFired := false, ctx := 0, group := 2, slot := 0, key := BitVec.ofNat 64 key, value := 0, paddr := 0, thread := none }
def timed (key : Nat) : State := { pr with dies := [(0, { pr.die 0 with dt := 9 })], watches := [(5, timer key)], groups := [(2, { pm.g with st := .parked })] }

theorem test_meets_GroupsLive :
    (prP.stuck = none ∧ prP.nextPending 0 = some (1, fresh1, 0) ∧ prP.relaunchHead 0 = none ∧ prP.bestCore 0 0 fresh1 = some (0, 0) ∧ prP.freeGroupNum 0 0 = some 0 ∧
      State.rangeFree (prP.spadUsed 0 0) 1048576 64 0 = true ∧ State.rangeFree (prP.rowsUsed 0 0) 1536 4 0 = true) ∧
    (sleepy.groups.find 2 = some pm.g ∧ sleepy.launches.find 1 = some small ∧ sleepy.freeSlot 1 small 0 = some 0 ∧ sleepy.mayPark 2 pm.g small = true ∧ sleepy.prods = [] ∧ (sleepy.liveThreads 2).all (fun e => match e.2.st with | .blocked _ => true | _ => false) = true) ∧
    (almost.groups.find 2 = some pm.g ∧ almost.freeSlot 1 small 0 = some 0 ∧ almost.mayPark 2 pm.g small = true ∧
      ((almost.writeback 9 { thread := 192, core := 0, regs := [4], val := .val [7], mem := none, held := false, pc := 0, word := 0 } [7]).liveThreads 2).any (fun e => e.2.st == .ready) = true) ∧
    (∀ n ∈ [0, 7], (prS fun _ => leaving n).groups.find 2 = some (leaving n) ∧ (prS fun _ => leaving n).tagPending 2 = false) ∧
    (∀ key ∈ [9, 10], (timed key).watches.find 5 = some (timer key) ∧ (timed key).now 0 = 9 ∧ (timed key).groups.find 2 = some { pm.g with st := .parked }) ∧
    (waking.relaunchHead 0 = some (2, wakingG, small) ∧ waking.canRelaunch 2 wakingG small = true ∧
      State.rangeFree (waking.spadUsed 0 0) 1048576 64 0 = true ∧ State.rangeFree (waking.rowsUsed 0 0) 1536 4 0 = true) ∧
    ∀ r ∈ [false, true], (overState r).groups.find 2 = some { pm.g with recorded := r } ∧ (overState r).launches.find 1 = some counted ∧ (overState r).groupWarps 2 = [] ∧
      ((overState r).core 0 0).stations = [] ∧ pm.g.fed = groupSize counted ∧ (overState r).groupWritesDone pm.g = true ∧ pm.g.wct ≤ (overState r).now 0 ∧ counted.pair 20 = 64 ∧ (overState r).tagPending 2 = false ∧ counted.saveSize = 0 := by
  exact ⟨by decide +kernel, by decide +kernel, by decide +kernel, by decide +kernel, by decide +kernel, by decide +kernel, by decide +kernel⟩

/-- A step of a walk through a table entry, and its end at a leaf, where the level's index is 0. -/
theorem walk_table {s : State} {die va l t : Nat} {e : W64} (hi : bitsOf va (levelBits (l + 1)).1 (levelBits (l + 1)).2 = 0) (he : s.memW64 die t = e)
    (h : (decide (dieSpan ≤ t) || !e.getLsbD 0 || decide (bitsOf e.toNat 52 4 ≠ 0xE) || decide (bitsOf e.toNat 1 7 ≠ 0) || decide (bitsOf e.toNat 56 8 ≠ 0) || decide (bitsOf e.toNat 8 4 ≠ 0)) = false) :
    walkFrom s die va (l + 1) t = walkFrom s die va l (bitsOf e.toNat 8 44 * 256) := by
  simp only [Bool.or_eq_false_iff, decide_eq_false_iff_not, Bool.not_eq_false'] at h
  obtain ⟨⟨⟨⟨⟨h1, h2⟩, h3⟩, h4⟩, h5⟩, h6⟩ := h
  conv => lhs; unfold walkFrom
  simp only [hi, Nat.mul_zero, Nat.add_zero, he, h1, h2, if_false, Bool.not_true, Bool.false_eq_true, Decidable.not_not.1 h3, h4, h5, h6, and_false, or_false, Nat.succ_ne_zero, if_true]

theorem walk_leaf {s : State} {die va t : Nat} {e : W64} (hi : bitsOf va (levelBits 2).1 (levelBits 2).2 = 0) (he : s.memW64 die t = e)
    (h : (decide (dieSpan ≤ t) || !e.getLsbD 0 || decide (bitsOf e.toNat 52 4 ≠ 2) || e.getLsbD 7 || e.getLsbD 15 || decide (bitsOf e.toNat 56 8 ≠ 0) || decide (Leaf.frame e ≠ 0)) = false) :
    walkFrom s die va 2 t = .leaf e t := by
  simp only [Bool.or_eq_false_iff, decide_eq_false_iff_not, Bool.not_eq_false', ne_eq, Decidable.not_not] at h
  obtain ⟨⟨⟨⟨⟨⟨h1, h2⟩, h3⟩, h4⟩, h5⟩, h6⟩, h7⟩ := h
  unfold walkFrom
  have hb : Leaf.bytes e = 2 ^ 30 := by simp only [Leaf.bytes, Leaf.size, h3]
  simp only [hi, Nat.mul_zero, Nat.add_zero, he, h1, h2, h3, h4, h5, h6, h7, hb, levelLeaf]
  rfl

/-- Addresses below 1 GiB walk to the probe's one leaf, which is marked already. -/
theorem low_walk {s : State} {va : Nat} (hv : va < 2 ^ 30) (h4 : s.memW64 0 probeRoot = BitVec.ofNat 64 (1 + (probeRoot / 256 + 16) * 256 + 0xE * 2 ^ 52))
    (h3 : s.memW64 0 (probeRoot + 0x1000) = BitVec.ofNat 64 (1 + (probeRoot / 256 + 32) * 256 + 0xE * 2 ^ 52)) (h2 : s.memW64 0 (probeRoot + 0x2000) = leaf 0) :
    walkFrom s 0 va 4 probeRoot = .leaf (leaf 0) (probeRoot + 0x2000) := by
  have b (n : Nat) (hn : 30 ≤ n) : bitsOf va n 9 = 0 := by
    rw [bitsOf, Nat.div_eq_of_lt (Nat.lt_of_lt_of_le hv (Nat.pow_le_pow_right (by decide) hn)), Nat.zero_mod]
  exact (walk_table (b 48 (by decide)) h4 (by decide +kernel)).trans ((walk_table (t := probeRoot + 0x1000) (b 39 (by decide)) h3 (by decide +kernel)).trans (walk_leaf (t := probeRoot + 0x2000) (b 30 (by decide)) h2 (by decide +kernel)))

/-- In that case a device's access to the address is settled. -/
theorem low_settled {s : State} {kind : Nat} (hk : leafCheck (leaf 0) kind none = none ∧ s.xrec 0 0 = some { root := probeRoot, qtbase := 0, stopbase := 0 } ∧
      s.memW64 0 probeRoot = BitVec.ofNat 64 (1 + (probeRoot / 256 + 16) * 256 + 0xE * 2 ^ 52) ∧ s.memW64 0 (probeRoot + 0x1000) = BitVec.ofNat 64 (1 + (probeRoot / 256 + 32) * 256 + 0xE * 2 ^ 52) ∧
      s.memW64 0 (probeRoot + 0x2000) = leaf 0 ∧ (s.memWrite 0 (probeRoot + 0x2000) (w64Bytes (leaf 0))).mem = s.mem ∧ s.modes = [])
    (hq : s.holders = [] ∧ s.asked = [] ∧ s.pwrites = []) {l : List (Nat × Nat)} (hl : l.all (fun e => decide (e.1 < 2 ^ 30)) = true) :
    l.all (fun e => s.settled 0 0 0 kind e.1) = true := by
  obtain ⟨hc, hx, h4, h3, h2, hm, hf⟩ := hk
  rw [List.all_eq_true] at hl ⊢
  intro e he
  have hv : e.1 < 2 ^ 30 := of_decide_eq_true (hl e he)
  have hn : ¬ 2 ^ 57 ≤ e.1 := Nat.not_le.2 (Nat.lt_trans hv (by decide))
  have hd : leaf 0 ||| 0x20 ||| (if kindWrites kind = true then 0x40 else 0) = leaf 0 := by cases kindWrites kind <;> decide +kernel
  have hr (l : List Nat) : s.recallTables 0 l = s := recallTables_quiet (by simp [holdersOf_nil hq.1])
  have hi (x : W64) : s.inForce 0 0 e.1 x = x := by simp only [State.inForce, hf, Tbl.getD, Tbl.find]; rfl
  have hw : s.walkNow 0 0 0 e.1 kind none = (.hit (leaf 0) (Leaf.pa (leaf 0) e.1), s.memWrite 0 (probeRoot + 0x2000) (w64Bytes (leaf 0))) := by
    simp only [State.walkNow, hn, if_false, hx, hr, low_walk hv h4 h3 h2, hi, transLeaf, hc, show Leaf.mode (leaf 0) ≠ modeLocked by decide +kernel, State.markLeaf, hd]
  simp only [State.settled, hw, hm, hq.1, hq.2.1, hq.2.2, List.isEmpty_nil, Bool.and_self, BEq.rfl]

theorem noDict (s : State) : s.loadDict 0 0 0 0 0 = (.bytes [], s) := rfl
/-- A settled read, after which no dictionary is loaded. -/
theorem read_then_dict {s : State} {va n : Nat} (h0 : s.stuck = none) (h : (cutRange va n).all (fun e => s.settled 0 0 0 kindLoad e.1) = true) :
    ∃ bs s1, s.devRead 0 0 0 va n = (.bytes bs, s1) ∧ s1.loadDict 0 0 0 0 0 = (.bytes [], s1) ∧ s1.stuck = none := by
  obtain ⟨bs, t, hr, hk⟩ := settled_read h
  exact ⟨bs, t, hr, noDict t, hk.sound h0⟩

theorem test_meets_GroupsLive_devices :
    (∃ bs s1, prP.devRead 0 0 0 0 128 = (.bytes bs, s1) ∧ s1.loadDict 0 0 0 0 0 = (.bytes [], s1) ∧ s1.stuck = none) ∧
    (∃ x s1, sleepy.devWrite 0 0 0 (slotAddr small 0) ((List.range (slotSize small)).map fun i => Config.slotByte 2 i) (some 2) = (.bytes x, s1) ∧ s1.stuck = none) ∧
    (∃ bs s1, waking.devRead 0 0 0 (slotAddr small 0) (slotSize small) = (.bytes bs, s1) ∧ s1.loadDict 0 0 0 0 0 = (.bytes [], s1) ∧ s1.stuck = none) ∧
    ∃ x s1, (overState false).devWrite 0 0 0 (64 + 32 * groupIndex counted 0) (State.energyRecord pm.g) (some 2) = (.bytes x, s1) ∧ s1.stuck = none :=
  ⟨read_then_dict (by decide +kernel) (low_settled (by decide +kernel) (by decide +kernel) (by decide +kernel)),
    settled_write (n := slotSize small) (by simp) (by decide +kernel) (low_settled (by decide +kernel) (by decide +kernel) (by decide +kernel)),
    read_then_dict (by decide +kernel) (low_settled (by decide +kernel) (by decide +kernel) (by decide +kernel)),
    settled_write (n := 32) (by decide +kernel) (by decide +kernel) (low_settled (by decide +kernel) (by decide +kernel) (by decide +kernel))⟩

/-! ## Engines -/

/-- An operation that copies 8 bytes from address 0 to address 64, both in die memory; and its chunk when written. -/
def aTransfer (p : Place) (written : List Nat) : Transfer := { Transfer.blank pm .cpy with dpl := p, spl := p, dst := 64, len := 8, written := written }
def anOp (ts : List Transfer) (started : Bool) : EngOp :=
  { die := 0, core := 0, ctx := 0, group := 2, warp := 3, ctr := 0, seq := 0, handle := none, word := 0, pc := 0x10000, lanes := 1, transfers := ts, started := started, held := false, snap := none }
def prE (ts : List Transfer) (started : Bool) : State := { pr with engOps := [(9, anOp ts started)] }

theorem sects_of {p : Sects × State} {P : State → Prop} (l : List Sect) (h : p.1 = .ok l) (hp : P p.2) : ∃ s1, p = (.ok l, s1) ∧ P s1 := ⟨p.2, by rw [← h], hp⟩

def srcSects : List Sect := [{ va := 0, leaf := leaf 0, pa := 0, lo := 0, hi := 7 }]
def dstSects : List Sect := [{ va := 1, leaf := leaf 0, pa := 64, lo := 0, hi := 7 }]

theorem test_meets_CopyEngineRuns :
    ((prE [aTransfer .die []] false).engOps.find? fun e => e.2.die == 0 && e.2.core == 0 && !e.2.started && !e.2.held) = some (9, anOp [aTransfer .die []] false) ∧
    ((prE [aTransfer .die []] true).stuck = none ∧ (prE [aTransfer .die []] true).engOps.find 9 = some (anOp [aTransfer .die []] true) ∧
      (anOp [aTransfer .die []] true).transfers[0]? = some (aTransfer .die []) ∧ (prE [aTransfer .die []] true).groups.find 2 = some pm.g ∧ (aTransfer .die []).done.contains 1 = false ∧
      (aTransfer .die []).blocks.contains 1 = true ∧ (aTransfer .die []).written.contains 1 = false ∧ misElement (aTransfer .die []) 1 = none) ∧
    (∃ s1, (prE [aTransfer .die []] true).sectors (anOp [aTransfer .die []] true) 0 0 kindRead ((((aTransfer .die []).chunk 1).flatMap fun x => x.2.needs).eraseDups)
        (((((aTransfer .die []).chunk 1).flatMap fun x => x.2.needs).eraseDups).map (· / 64)).eraseDups = (.ok srcSects, s1) ∧
      ∃ s2, s1.sectors (anOp [aTransfer .die []] true) 0 0 kindWrite ((((aTransfer .die []).chunk 1).map (·.1)).eraseDups) (((((aTransfer .die []).chunk 1).map (·.1)).eraseDups).map (· / 64)).eraseDups = (.ok dstSects, s2) ∧
        ∃ s3, s2.sectorsReady 9 (anOp [aTransfer .die []] true) 192 false srcSects = (true, s3) ∧ ∃ s4, s3.sectorsReady 9 (anOp [aTransfer .die []] true) 192 true dstSects = (true, s4) ∧ s4.stuck = none) ∧
    ((aTransfer .spad []).blocks.contains 1 = true ∧ (∃ s3, (prE [aTransfer .spad []] true).sectorsReady 9 (anOp [aTransfer .spad []] true) 192 false [] = (true, s3) ∧
      ∃ s4, s3.sectorsReady 9 (anOp [aTransfer .spad []] true) 192 true [] = (true, s4) ∧ s4.stuck = none)) ∧
    ((aTransfer .die [1]).written.contains 1 = true ∧ (aTransfer .die [1]).blocks.contains 1 = true ∧ ((prE [aTransfer .die [1]] true).pwrites.vals.any fun w => w.op == some 9) = false) ∧
    ((anOp [{ aTransfer .die [1] with done := [1] }] true).allDone = true ∧ (prE [{ aTransfer .die [1] with done := [1] }] true).warps.find 3 = some pm.w) :=
  ⟨by decide +kernel, by decide +kernel, sects_of _ (by decide +kernel) (sects_of _ (by decide +kernel) (pair2 (by decide +kernel) (pair2 (by decide +kernel) (by decide +kernel)))),
    ⟨by decide +kernel, pair2 (by decide +kernel) (pair2 (by decide +kernel) (by decide +kernel))⟩, by decide +kernel, by decide +kernel, by decide +kernel⟩

/-- A matrix operation of each kind in the engine queue of core 0. -/
def anMop (op : Nat) (running : Bool) : MOp :=
  { user := 9, die := 0, core := 0, group := 2, warp := 3, op := op, ebits := 0, tile := none, handle := 1, coord := 0, dst := 0, extent := 0, cn := 0, rows := [], members := [192], seqs := [0], running := running, scales := [], held := false,
    hrec := { fmt := 1, bl := 0, rows := 15, cols := 15, st := .ready, owner := 0, soff := 0, tile := none, saved := [] }, tag := none, snap := none, pc := 0x10000, word := 0 }
/-- The cluster of core 0, and its die, with free tokens. -/
def prC (c : Cluster) (mops : Tbl MOp) : State := { pr with mops := mops, dies := [(0, { pr.die 0 with clusters := [(0, c)], free := [0], allot := 1 })] }
/-- A second cluster that waits. -/
def otherWaits (held : Nat) : State := prC { held := true, idleFor := 0, heldFor := held } [(9, { anMop 0xD0 false with core := 8 })]

theorem test_meets_MatrixEngineRuns :
    ((prC { held := true, idleFor := 0, heldFor := 0 } [(9, anMop 0xD0 false)]).stuck = none ∧ (prC { held := true, idleFor := 0, heldFor := 0 } [(9, anMop 0xD0 false)]).queued 0 0 = [(9, anMop 0xD0 false)] ∧
      ((prC { held := true, idleFor := 0, heldFor := 0 } [(9, anMop 0xD0 false)]).mops.vals.any fun o => o.die == 0 && o.core == 0 && o.running) = false ∧
      ((prC { held := true, idleFor := 0, heldFor := 0 } [(9, anMop 0xD0 false)]).cluster 0 0).held = true ∧
      (prC { held := true, idleFor := 0, heldFor := 0 } [(9, anMop 0xD0 false)]).tokenSpent 0 0 = false) ∧
    (∀ op ∈ [0xD0, 0xD3, 0xD4], ({ pr with mops := [(9, anMop op true)] }.mops.find? fun e => e.2.die == 0 && e.2.core == 0 && e.2.running) = some (9, anMop op true)) ∧
    ((prC { held := false, idleFor := 0, heldFor := 0 } [(9, anMop 0xD0 false)]).clusterWaits 0 0 = true ∧ ((prC { held := false, idleFor := 0, heldFor := 0 } [(9, anMop 0xD0 false)]).die 0).free.contains 0 = true) ∧
    ((prC { held := true, idleFor := 64, heldFor := 0 } []).cluster 0 0 = { held := true, idleFor := 64, heldFor := 0 }) ∧ ((prC { held := true, idleFor := 63, heldFor := 0 } []).cluster 0 0 = { held := true, idleFor := 63, heldFor := 0 }) ∧
    ((otherWaits 65536).cluster 0 0 = { held := true, idleFor := 0, heldFor := 65536 } ∧ (otherWaits 65536).clusterWaits 0 1 = true ∧ (otherWaits 65536).clusterRuns 0 0 = false) := by decide +kernel

/-- An operation of each kind that completes, over one row of the tile, or a scratchpad range of one element and its scale. -/
theorem test_meets_MatrixResults : ∀ op ∈ [0xD0, 0xD1, 0xD2, 0xD3, 0xD4],
    let o : MOp := { anMop op true with rows := [(0, 7)], extent := 0x10001, cn := 64 }
    let s := { pr with mops := [(9, o)] }
    let len := blockLen (o.ebits.extractLsb' 2 2)
    s.stuck = none ∧ (s.mops.find? fun e => e.2.die == 0 && e.2.core == 0 && e.2.running) = some (9, o) ∧ s.groups.find 2 = some pm.g ∧ Tbl.wf pm.g.acc = true ∧ Memory.wf pm.g.spad = true ∧
    pm.g.tagWaits = [] ∧ (o.rows.map (·.1)).Nodup ∧ 0 + 2 * (o.hrec.cols.toNat + 1) ≤ 512 ∧ 0 + 2 * 1 ≤ 512 ∧ o.dst + 1 * 1 ≤ o.cn.toNat ∧ (1 + len - 1) / len = 1 := by decide +kernel

/-! ## Records -/

/-- A launch queue of die 0 with one record, of the given bytes and zeros. -/
def lq0 : LaunchQ :=
  { ctx := 0, vf := 0, windex := 0, lines := [], expect := 1, consumed := 0, refused := 0, reason := 0, lasttag := 0, errsig := 16, shadows := List.replicate 32 0, pend := 0, timer := none, irqcnt := 0, irqt := 0, vec := 0, run := 0, cur := none, stopped := false }
def qu0 : Queue :=
  { ctx := 0, vf := 0, st := .active, esize := 3, conf := false, lq := true, window := 16, spilllog := none, wbase := 0, inc := 0, sbase := 0, keyp := 0, keyc := 0, keyr := 0, head := 0, tail := 1, rmark := 0, errs := 0, tickets := [(0, .filled)], byLaunch := [], takes := [], waiters := [], resetBy := none }
def sigCtx : Context := { probeContext with sigwords := 16 }
def prL (x : LaunchQ) (q : Queue) : State :=
  { pr with contexts := [(0, sigCtx)], launchQs := [(0, x)], queues := [(0, q)], dies := [(0, { pr.die 0 with runList := [0] })] }
def recOf (bs : List Byte) : Rec := ⟨bs ++ List.replicate (128 - bs.length) 0, false, 1⟩
def withRec (x : LaunchQ) (bs : List Byte) : State := { prL x qu0 with window := cellsSet [] 0 bs }

/-- Whether the record may be taken. -/
def takes (x : LaunchQ) (bs : List Byte) : Bool :=
  let s := withRec x bs
  decide (s.launchQs.find 0 = some x) && decide (s.nextRecord 0 = some (recOf bs)) && decide (s.lqCtx x = some sigCtx) && decide (s.runDie x = some 0) && decide (s.runNext 0 = some 0) && decide (s.stuck = none)

theorem taking_of {x : LaunchQ} {bs : List Byte} (h : takes x bs = true) : Taking (withRec x bs) 0 x sigCtx 0 (recOf bs) := by
  simp only [takes, Bool.and_eq_true, decide_eq_true_eq] at h
  obtain ⟨⟨⟨⟨⟨a, b⟩, c⟩, d⟩, e⟩, f⟩ := h
  exact ⟨a, b, c, d, e, f⟩

theorem test_meets_LaunchQueuesRun :
    let line := cellsSet [] 127 [1]
    let s := prL { lq0 with lines := line } { qu0 with tail := 0, tickets := [] }
    let t := { prL { lq0 with run := 1 } qu0 with contexts := [(0, { sigCtx with remap := [(0, 0), (1, 1)] })], dies := [(0, { pr.die 0 with runList := [] }), (1, { pr.die 1 with runList := [0] })], launches := [] }
    let done := { small with st := .active, reported := [0], ls := small.ls.set 26 0x10000 |>.set 19 0x10000 }
    let u := { prL lq0 qu0 with launches := [(1, done)] }
    (s.stuck = none ∧ s.queues.find 0 = some { qu0 with tail := 0, tickets := [] } ∧ Memory.wf s.mem = true ∧ Memory.wf s.window = true ∧
      ((cellsGet line (0 % 64 * 128) 128).getD 127 0).toNat = lq0.expect ∧ 0 - 0 + 1 ≤ qu0.capacity) ∧ ((cellsGet [] (0 % 64 * 128) 128).getD 127 0).toNat ≠ lq0.expect ∧
    (t.vdieOf 0 0 = some 0 ∧ t.runDie { lq0 with run := 1 } = some 1 ∧ t.idleDie 0 = true ∧ t.givable 0 0 = true) ∧
    (u.launches.find 1 = some done ∧ u.contexts.find 0 = some sigCtx ∧ openLaunch done = true ∧ done.lost = false ∧ ((diesOf done).all fun v => done.reported.contains v) = true ∧ Tbl.wf u.signals = true ∧
      bitOf (done.word 26).toNat 16 = true ∧ 1 ≤ bitsOf (done.word 19).toNat 16 16 ∧ bitsOf (done.word 19).toNat 16 16 ≤ lq0.pend + 1) ∧
    ({ lq0 with pend := 1, timer := some 0 }.pend ≠ 0 ∧ irqDue { lq0 with pend := 1, timer := some 0 } 1500 = true) := by decide +kernel

/-- Records: a launch of the parameters of `small`, and a bad one. -/
def deltaRec (hold : Nat) (ls : List (Nat × W32)) : List Byte :=
  leBytes 1 (1 + 16 * hold) ++ leBytes 6 5 ++ leBytes 4 ((ls.map fun e => 2 ^ e.1).foldl (· + ·) 0) ++ ls.flatMap fun e => w32Bytes e.2
def smallRec (hold : Nat) : List Byte := deltaRec hold [(0, 0x10000), (4, 4), (5, 0x1100), (6, 16), (7, 1), (8, 1), (9, 1), (10, 1), (11, 1), (12, 0x7B0)]
def fenceRec (n a : Nat) (v : W32) : List Byte := leBytes 1 (2 + 16 * n) ++ leBytes 6 5 ++ leBytes 6 a ++ w32Bytes v

theorem test_meets_RecordsTaken :
    (∀ bs ∈ [[0], [8], fenceRec 13 0 0, fenceRec 1 4 0, fenceRec 1 8 0, fenceRec 1 8 1, smallRec 2, smallRec 1, smallRec 0, deltaRec 0 []], Taking (withRec lq0 bs) 0 lq0 sigCtx 0 (recOf bs)) ∧
    (recType (recOf [0]).bytes = 0 ∧ 8 ≤ recType (recOf [8]).bytes ∧ Tbl.wf pr.signals = true) ∧
    (12 < recArg (recOf (fenceRec 13 0 0)).bytes ∧ ((fenceEntries (recOf (fenceRec 1 4 0)).bytes 1).any fun e => !sigOpt sigCtx e.1) = true ∧
      ((fenceEntries (recOf (fenceRec 1 8 0)).bytes 1).any fun e => !sigOpt sigCtx e.1) = false ∧ pr.fenceMet sigCtx (fenceEntries (recOf (fenceRec 1 8 0)).bytes 1) = true ∧
      ((fenceEntries (recOf (fenceRec 1 8 1)).bytes 1).any fun e => !sigOpt sigCtx e.1) = false ∧ pr.fenceMet sigCtx (fenceEntries (recOf (fenceRec 1 8 1)).bytes 1) = false) ∧
    (recArg (recOf (smallRec 2)).bytes = 2 ∧ recArg (recOf (smallRec 1)).bytes = 1 ∧ (maskRegs (recField (recOf (smallRec 1)).bytes 7 4)).length ≤ 29 ∧ recArg (recOf (smallRec 0)).bytes = 0) ∧
    (∀ bs ∈ [smallRec 0, deltaRec 0 []], let ls := deltaShadows (recOf bs).bytes lq0.shadows
      let s := withRec lq0 bs
      let l : Launch := { lq := 0, ctx := lq0.ctx, vf := lq0.vf, ls := ls, st := .accepted, prio := bitsOf (ls.getD 12 0).toNat 12 3, lead := lq0.run, tag := recTag (recOf bs).bytes, order := s.nextId, next := [], retired := [], start := [], reported := [], phases := [], used := [], lost := false };
      recType (recOf bs).bytes = 1 ∧ launchBad s sigCtx l = (bs != smallRec 0) ∧ sigOpt sigCtx l.csig = true) ∧
    (let x := { lq0 with cur := some (.fence [(8, 1)]) }
      let s := prL x qu0
      s.launchQs.find 0 = some x ∧ s.contexts.find 0 = some sigCtx ∧ s.fenceMet sigCtx [(8, 1)] = false ∧ s.fenceMet sigCtx [(8, 0)] = true) :=
  ⟨fun bs h => taking_of (by revert bs; decide +kernel), by decide +kernel, by decide +kernel, by decide +kernel, by decide +kernel, by decide +kernel⟩

def sigRec (arg fn a v : Nat) : List Byte := leBytes 1 (3 + 16 * arg) ++ leBytes 6 5 ++ leBytes 6 a ++ leBytes 3 fn ++ leBytes 8 v

theorem test_meets_SignalWriteRecord :
    (∀ bs ∈ [sigRec 0 0 8 7, sigRec 0 1 8 7, sigRec 0 2 120 7, sigRec 0 2 128 7, sigRec 1 0 8 7, sigRec 0 3 8 7], Taking (withRec lq0 bs) 0 lq0 sigCtx 0 (recOf bs) ∧ recType (recOf bs).bytes = 3) ∧
    Tbl.wf pr.signals = true ∧ (recField (recOf (sigRec 0 2 120 7)).bytes 13 1 = 2 ∧ recField (recOf (sigRec 0 3 8 7)).bytes 13 1 = 3 ∧ sigOk sigCtx 120 = true ∧ sigOk sigCtx 128 = false ∧
      recArg (recOf (sigRec 1 0 8 7)).bytes = 1 ∧ sigOk sigCtx lq0.errsig = true) :=
  ⟨fun bs h => ⟨taking_of (by revert bs; decide +kernel), by revert bs; decide +kernel⟩, by decide +kernel, by decide +kernel⟩

theorem test_meets_PriorityAndNopRecords :
    (∀ bs ∈ [[4, 0, 0, 0, 0, 0, 0, 7], [20], [5], [21]], Taking (withRec lq0 bs) 0 lq0 sigCtx 0 (recOf bs)) ∧ Tbl.wf pr.signals = true ∧
    (recType (recOf [4, 0, 0, 0, 0, 0, 0, 7]).bytes = 4 ∧ recType (recOf [20]).bytes = 4 ∧ recArg (recOf [20]).bytes = 1 ∧ recType (recOf [5]).bytes = 5 ∧ recArg (recOf [21]).bytes = 1) :=
  ⟨fun bs h => taking_of (by revert bs; decide +kernel), by decide +kernel, by decide +kernel⟩

def pageRec (dies op nmode nowner : Nat) : List Byte :=
  leBytes 8 6 ++ leBytes 8 0 ++ leBytes 4 1 ++ leBytes 1 dies ++ leBytes 1 op ++ leBytes 1 nmode ++ leBytes 1 nowner ++ leBytes 6 8
def onePage : PageLeaf := ⟨leaf 0, probeRoot + 0x2000⟩
/-- A queue whose record of that kind is under way. -/
def paging (bs : List Byte) (drain : Tbl Nat) (release done : List Nat) : LaunchQ := { lq0 with cur := some (.pageMode (recOf bs).bytes [(0, [(2 ^ 30, 0, 0)])] drain release done) }
/-- The machine in which a write that was translated before the shootdown has still to be performed. -/
def prDrain : State := { prL (paging (pageRec 1 0 1 0) [(0, 99)] [] []) qu0 with pwrites := [(9, { die := 0, pa := 64, size := 8, kind := .store [], w := 0, threads := [], op := none })] }

theorem test_meets_PageRecordsRun :
    (∀ bs ∈ [pageRec 1 0 2 127, pageRec 1 1 0 0, pageRec 0 0 0 0, pageRec 1 2 0 0], Taking (withRec lq0 bs) 0 lq0 sigCtx 0 (recOf bs) ∧ recType (recOf bs).bytes = 6 ∧ (recOf bs).launch = false ∧
      recArg (recOf bs).bytes = 0 ∧ sigOpt sigCtx (PageRec.sigaddr (recOf bs).bytes) = true) ∧
    (∀ bs ∈ [pageRec 1 0 2 127, pageRec 1 1 0 0], let s0 := taken (withRec lq0 bs) 0 0 (recOf bs);
      pageBad s0 0 sigCtx (recOf bs).bytes = false ∧ PageRec.dies (recOf bs).bytes = [0] ∧ sigCtx.remap.find 0 = some 0 ∧ s0.recLeaves 0 sigCtx (recOf bs).bytes 0 = some [onePage] ∧ Memory.wf s0.mem = true) ∧
    (∀ bs ∈ [pageRec 0 0 0 0, pageRec 1 2 0 0], pageBad (taken (withRec lq0 bs) 0 0 (recOf bs)) 0 sigCtx (recOf bs).bytes = true) ∧
    (let x := paging (pageRec 1 0 1 0) [(0, 99)] [] []
      let s := prL x qu0
      s.launchQs.find 0 = some x ∧ s.lqCtx x = some sigCtx ∧ (s.leavesNow 0 0 0 0 [(2 ^ 30, 0, 0)]).map (·.1) = [onePage] ∧ s.draining 0 99 (rangesOf [onePage]) = false ∧
      prDrain.draining 0 99 (rangesOf [onePage]) = true ∧ (prDrain.leavesNow 0 0 0 0 [(2 ^ 30, 0, 0)]).map (·.1) = [onePage]) ∧
    (∀ op ∈ [0, 1], let x := paging (pageRec 1 op 1 0) [] [0] [];
      let s := prL x qu0;
      s.launchQs.find 0 = some x ∧ s.lqCtx x = some sigCtx ∧ (s.leavesNow 0 0 0 0 [(2 ^ 30, 0, 0)]).map (·.1) = [onePage] ∧ s.cohering 0 (rangesOf [onePage]) = false ∧ Memory.wf s.mem = true ∧
      { s with wbacks := [(9, { die := 0, core := 0, ctx := 0, bytes := [(64, 1)], cwbs := [], cinvs := [] })] }.cohering 0 (rangesOf [onePage]) = true ∧ PageRec.op (recOf (pageRec 1 op 1 0)).bytes = op) ∧
    (let x := paging (pageRec 1 0 1 0) [] [] [0];
      (prL x qu0).lqCtx x = some sigCtx ∧ ((PageRec.dies (recOf (pageRec 1 0 1 0)).bytes).all fun v => [0].contains v) = true ∧ Tbl.wf pr.signals = true) :=
  ⟨fun bs h => ⟨taking_of (by revert bs; decide +kernel), by revert bs; decide +kernel⟩, by decide +kernel, by decide +kernel, by decide +kernel, by decide +kernel, by decide +kernel⟩

def copyRec (dir : Nat) : List Byte := leBytes 7 7 ++ leBytes 1 dir ++ leBytes 1 0 ++ leBytes 7 8 ++ leBytes 8 0x1000 ++ leBytes 8 0x100 ++ leBytes 4 8
def copying (dir : Nat) (copied : List (Nat × Nat)) (stopped : Bool) : LaunchQ := { lq0 with cur := some (.hostcopy (recOf (copyRec dir)).bytes 9 copied stopped) }

theorem test_meets_HostCopiesRun :
    (Taking (withRec lq0 (copyRec 1)) 0 lq0 sigCtx 0 (recOf (copyRec 1)) ∧ recType (recOf (copyRec 1)).bytes = 7 ∧ (recOf (copyRec 1)).launch = false ∧ recArg (recOf (copyRec 1)).bytes = 0 ∧
      sigOpt sigCtx (CopyRec.sigaddr (recOf (copyRec 1)).bytes) = true ∧ CopyRec.dir (recOf (copyRec 1)).bytes = 1 ∧ CopyRec.vdie (recOf (copyRec 1)).bytes = 0 ∧ (sigCtx.remap.find 0).isSome ∧
      CopyRec.len (recOf (copyRec 1)).bytes = 8) ∧
    (∀ dir ∈ [0, 1], (prL (copying dir [] false) qu0).launchQs.find 0 = some (copying dir [] false) ∧ (prL (copying dir [] false) qu0).lqCtx (copying dir [] false) = some sigCtx ∧
      4 + 4 ≤ CopyRec.len (recOf (copyRec dir)).bytes ∧ ([(0, 4)].any fun r => overlaps r.1 r.2 4 4) = false) ∧
    (∃ y s1, (prL (copying 0 [] false) qu0).devWrite 0 0 0 0x104 (cellsGet [] 0x1004 4) (some 9) = (.bytes y, s1) ∧ s1.stuck = none) ∧
    (∃ l s1, (prL (copying 1 [] false) qu0).devRead 0 0 0 0x104 4 = (.bytes l, s1) ∧ s1.stuck = none) ∧
    ((prL (copying 0 [(0, 8)] true) qu0).launchQs.find 0 = some (copying 0 [(0, 8)] true) ∧ (prL (copying 0 [(0, 8)] false) qu0).tagPending 9 = false ∧ Tbl.wf pr.signals = true ∧
      ([(0, 8)].map (·.2)).foldl (· + ·) 0 = CopyRec.len (recOf (copyRec 0)).bytes) :=
  ⟨⟨taking_of (by decide +kernel), by decide +kernel⟩, by decide +kernel, settled_write (n := 4) (by decide +kernel) (by decide +kernel) (low_settled (by decide +kernel) (by decide +kernel) (by decide +kernel)),
    (settled_read (low_settled (by decide +kernel) (by decide +kernel) (by decide +kernel))).elim fun l h => ⟨l, h.elim fun t h => ⟨t, h.1, h.2.sound (by decide +kernel)⟩⟩, by decide +kernel⟩

/-! ## Home's queues, the hub and halts -/

/-- A queue of die 0 with 16-byte elements, and a request to it. -/
def quA : Queue := { qu0 with esize := 0, lq := false, keyp := 5, keyc := 5, keyr := 5 }
def aReq (op : QOp) (status : Bool) : QReq :=
  { id := 7, src := 0, home := 0, slot := 0, inc := 0, key := 5, conf := false, ctx := 0, thread := 192, warp := 3, group := 2, qid := 0, opcode := 0xE3, op := op, regs := [4], st := status, ps := 0, prod := none, eop := none, posted := false, word := 0, pc := 0 }
def prH (r : QReq) (q : Queue) : State := { pr with queues := [(0, q)], qreqs := [r] }

def reqKinds : List ((QOp → Bool) × QOp) :=
  [(fun o => match o with | .open_ _ => true | _ => false, .open_ 7), (fun o => match o with | .reserve _ => true | .launch _ => true | _ => false, .reserve 16),
    (fun o => match o with | .take _ => true | .takes _ _ => true | _ => false, .take 4), (fun o => match o with | .take _ => true | .takes _ _ => true | _ => false, .takes 2 8),
    (fun o => match o with | .peek _ => true | _ => false, .peek 7), (fun o => match o with | .wait => true | _ => false, .wait), (fun o => match o with | .reset => true | _ => false, .reset),
    (fun o => match o with | .close => true | _ => false, .close)]

theorem test_meets_HomeTakesRequests :
    let empty := { quA with tail := 0, tickets := [] }
    (∀ k ∈ reqKinds.map (·.2), (prH (aReq k false) quA).stuck = none ∧ (prH (aReq k false) quA).queues.find (quKey 0 0) = some quA ∧ homeStatus quA (aReq k false) = qOk ∧
      homeStatus { quA with inc := 1 } (aReq k false) ≠ qOk) ∧
    ((reqKinds.all fun k => (prH (aReq k.2 false) quA).nextReq 0 0 k.1 [aReq k.2 false] [] == some (aReq k.2 false)) = true ∧
      (reqKinds.all fun k => (prH (aReq k.2 false) { quA with inc := 1 }).nextReq 0 0 k.1 [aReq k.2 false] [] == some (aReq k.2 false)) = true ∧
      (reqKinds.all fun k => (prH (aReq k.2 true) empty).nextReq 0 0 k.1 [aReq k.2 true] [] == some (aReq k.2 true)) = true ∧
      (reqKinds.all fun k => (prH (aReq k.2 false) { empty with st := .closed }).nextReq 0 0 k.1 [aReq k.2 false] [] == some (aReq k.2 false)) = true) ∧
    (((prH (aReq .reset false) quA).queues.find? fun e => quHome e.1 == 0 && e.2.st == .resetting && (prH (aReq .reset false) quA).lqResetDone e.1 &&
      (match e.2.resetBy with | some r => r.src == 0 | none => false)) = none) ∧
    (16 ≤ empty.capacity - (empty.tail - empty.head) ∧ quA.capacity < quA.tail - quA.head + 16 ∧ homeStatus { empty with st := .closed } (aReq (.reserve 16) false) = qOk) ∧
    ({ empty with st := .closed }.drained = true ∧ empty.drained = false ∧ empty.headReady = false ∧ quA.drained = false ∧ quA.tickets.find quA.head = some .filled ∧
      ({ quA with tickets := [(0, .void)] } : Queue).tickets.find 0 = some .void ∧ ({ quA with tickets := [(0, .void)] } : Queue).drained = false ∧ quA.headReady = true) ∧ quA.lq = false ∧ quA.waiters = [] ∧ quA.takes = [] := by
  decide +kernel

/-- A request from die 1, whose bridge has FAILED. -/
def cutReq (k : QOp) : QReq := { aReq k false with src := 1 }
def prCut (k : QOp) : State := { prH (cutReq k) quA with links := [(513, { Link.reset with st := .failed })] }

theorem test_meets_HomeTakesRequests_cut :
    (∀ k ∈ reqKinds.map (·.2), (prCut k).stuck = none ∧ (prCut k).queues.find (quKey 0 0) = some quA ∧ (prCut k).cutOff 1 0 = true ∧ (prH (aReq k false) quA).cutOff 0 0 = false) ∧
    (reqKinds.all fun k => (prCut k.2).nextReq 0 1 k.1 [cutReq k.2] [] == some (cutReq k.2)) = true ∧
    ((prCut .reset).queues.find? fun e => quHome e.1 == 0 && e.2.st == .resetting && (prCut .reset).lqResetDone e.1 && (match e.2.resetBy with | some r => r.src == 1 | none => false)) = none := by
  decide +kernel

def quR : Queue := { quA with tickets := [(0, .reserved 0)] }
def fillReq (t : Nat) : QReq := aReq (.fill t (List.replicate 16 5)) false
def putsOp : QuOp := { thread := 192, warp := 3, group := 2, die := 0, ctx := 0, opcode := 0xE4, qid := 0, seq := 0, st := false, ps := 0, prod := none, first := 0, count := 2, off := 0, esize := 0, answered := 0, filled := 0, code := 1, moved := 0, held := false, pc := 0, word := 0 }

theorem test_meets_QueueAnswersArrive :
    let isFill (o : QOp) : Bool := match o with | .fill _ _ => true | _ => false
    let a : QAns := { req := fillReq 0, code := qOk, value := 0, bytes := [], served := 0 }
    let s := { pr with answers := [(9, a)] }
    let late := { s with announced := [(0, 0)] }
    let eop := { prH { fillReq 0 with eop := some 8 } quR with quOps := [(8, putsOp)] }
    (∀ t ∈ [0, 1], (prH (fillReq t) quR).stuck = none ∧ (prH (fillReq t) quR).queues.find (quKey 0 0) = some quR ∧ (prH (fillReq t) quR).nextReq 0 0 isFill [fillReq t] [] = some (fillReq t) ∧
      homeStatus quR (fillReq t) = qOk) ∧ State.fillStatus quR 0 = qOk ∧ State.fillStatus quR 1 ≠ qOk ∧
    ((prH (fillReq 0) { quR with inc := 1 }).nextReq 0 0 isFill [fillReq 0] [] = some (fillReq 0) ∧ homeStatus { quR with inc := 1 } (fillReq 0) ≠ qOk) ∧
    (Memory.wf pr.window = true ∧ 0 < quR.head + quR.window ∧ (List.replicate 16 (5 : Byte)).length = elemSize quR.esize) ∧
    (eop.nextReq 0 0 isFill eop.qreqs [] = some { fillReq 0 with eop := some 8 } ∧ eop.quOps.find 8 = some putsOp ∧ putsOp.moved + 1 < putsOp.count ∧ { fillReq 0 with eop := some 8 } ∈ eop.qreqs) ∧
    (s.stuck = none ∧ s.answers.find 9 = some a ∧ s.answerWaits 9 a = false ∧ a.req.eop = none ∧ s.threads.find a.req.thread = some (probeThread 3) ∧ (probeThread 3).st ≠ .exited ∧ a.req.prod = none ∧
      a.req.posted = false ∧ s.cutOff a.req.home a.req.src = false ∧ (s.contexts.find 0).map (fun c => (State.haltOf c 0).written) = some false) ∧ late.answerWaits 9 a = true ∧ (0, 0) ∈ late.announced := by decide +kernel

/-- The bridge of die 0 is UP, or DOWN. -/
def bridge (st : LkState) : State := { pr with links := [(512, { Link.reset with st := st })] }
theorem test_meets_HubServes_bridge :
    ((bridge .up).link 512).st.passes = true ∧ (bridge .up).bridgeOpen 0 = true ∧ ((bridge .down).link 512).st.passes = false ∧ (bridge .down).bridgeOpen 0 = false := by decide +kernel

theorem test_meets_HubServes :
    let x : Service := { vf := 0, die := 0, vdie := 0, ctx := 0, thread := 192, vcore := 0, group := 0, warp := 0, lane := 0, sel := 3, fn := 2, arg := 7, regs := [] }
    let a : EAns := { thread := 192, ctx := 0, die := 0, vf := 0, value := 7, regs := [4] }
    let w : State := (prT fun t => { t with st := .blocked (State.svcWait 0xF6) })
    let m : Mbox := { cmd := 0x500, status := 0, args := [], payload := [], run := 0, begun := false, spoilt := false }
    (pr.stuck = none ∧ State.portElems [(9, x)] 0 0 = [(9, x)] ∧ Tbl.wf pr.signals = true) ∧
    ({ w with eanswers := [(9, a)] }.eanswers.find 9 = some a ∧ w.threads.find 192 = some { probeThread 3 with st := .blocked (State.svcWait 0xF6) }) ∧
    ((prL lq0 qu0).launchQs.find 0 = some lq0 ∧ lq0.stopped = false) ∧
    ((prL lq0 qu0).boot ≠ .romcheck ∧ ((prL lq0 qu0).launchQs.find? fun e => e.2.vf == lq0.vf && e.2.windex == (lq0.windex * 0x3000 + 0x1FFF) / 0x3000) = some (0, lq0) ∧ lq0.vf ≤ 16 ∧
      (lq0.windex * 0x3000 + 0x1FFF) % 0x3000 < 0x2000 ∧ 0x100000 + (lq0.windex * 0x3000 + 0x1FFF) < 0x40000000) ∧
    (((prL lq0 qu0).contexts.vals.any fun c => c.vf == 0 && c.st != .destroyed && decide (c.sigbase < 15) && decide (15 < c.sigbase + c.sigwords)) = true) ∧
    (((prL lq0 qu0).contexts.vals.any fun c => c.vf == 0 && c.st != .destroyed && decide (c.sigbase < 16) && decide (16 < c.sigbase + c.sigwords)) = false) ∧
    (pr.boot ≠ .romcheck ∧ (w32Bytes 5).length = 4 ∧ ({ pr with mailboxes := [(16, m)] }.mbox 16).busy = false ∧ ({ pr with mailboxes := [(16, { m with status := 1 })] }.mbox 16).busy = true) := by decide +kernel

def halted (st : CState) (line : Bool) (arrived : Option Nat) : Context :=
  { sigCtx with st := st, lineUp := line, stoplen := 640, halts := [(0, { cause := none, arrived := arrived, written := false })], preempt := some 5 }
def prHalt (c : Context) : State := { pr with contexts := [(0, c)] }
/-- The probe's group, whose one thread has stopped at its YIELDPT. -/
def prStop : State := { prT fun t => { t with st := .stopped 4 none } with contexts := [(0, halted (.halting true) false none)], igroups := [] }

theorem test_meets_HaltsStop :
    (let c := halted (.halting false) true none;
      (prHalt c).stuck = none ∧ (prHalt c).contexts.find 0 = some c ∧ c.remap.find 0 = some 0 ∧ isHalting c.st = true ∧ (State.haltOf c 0).arrived = none ∧ (prHalt c).groups.find 2 = some pm.g ∧
        pm.g.st = .resident) ∧
    ((halted (.halting true) false none).lineUp = false ∧ (State.haltOf (halted (.halting false) true (some 0)) 0).arrived.isSome) ∧
    (let c := halted (.halting false) true (some 0);
      let s := prHalt c;
      (State.haltOf c 0).arrived = some 0 ∧ (State.haltOf c 0).written = false ∧ s.working (fun gid => (s.ctxGroups 0 0 fun _ => true).any fun e => e.1 == gid) = false ∧ s.pushes = [] ∧ s.partials = [] ∧
        (s.ctxGroups 0 0 fun g => g.st == .parking) = [] ∧
        0 + (((headerRecord c 0 (s.recordsOf 0 0).length (decide (c.stoplen / 64 < (s.recordsOf 0 0).length + 1)) :: s.recordsOf 0 0).take (c.stoplen / 64)).flatten).length ≤ dieSpan) ∧
    (prHalt sigCtx).contexts.find 0 = some sigCtx ∧ sigCtx.st = .running ∧ (halted .halted false none).st ≠ .running ∧
    (let c := halted (.halting true) false none;
      let s := prHalt c;
      s.contexts.find 0 = some c ∧ c.preempt = some 5 ∧ 5 ≤ { s with hclk := 5 }.hclk ∧ s.hclk < 5 ∧ s.allStopped 0 = false) ∧
    (prStop.groups.find 2 = some pm.g ∧ prStop.liveThreads 2 ≠ [] ∧ (∀ e ∈ prStop.liveThreads 2, e.2.st = .stopped 4 none) ∧ prStop.working (· == 2) = false ∧
      ((prStop.stopGroup 2 []).saveGroups true [2]).2.stuck = none) ∧
    (pr.slices.getD 0 0 ≤ pr.hclk ∧ { pr with slices := [(0, 1)] }.hclk < { pr with slices := [(0, 1)] }.slices.getD 0 0) := by decide +kernel

/-! ## Links and the package -/

def upLink : Link := { Link.reset with st := .up, expSeq := 5, nextSeq := 9, replay := [{ seq := 7, payload := [1], stomped := false, ctx := none }, { seq := 8, payload := [2], stomped := false, ctx := none }] }
def prK (l : Link) : State := { pr with links := [(3, l), (4, { Link.reset with st := .up })] }
/-- A DATA flit with one wrong bit in its CRC. -/
def flip : List Byte := leBytes 4 0x1005 ++ zeros 116 ++ w64Bytes (crc64 (leBytes 4 0x1005 ++ zeros 116) ^^^ 1)
def flitOf (seq : BitVec 12) (ty : Nat) (ack : Option (BitVec 12)) (payload : List Byte) (stomped : Bool) : Flit :=
  { seq := seq, ty := ty, ack := ack, rsv := false, payload := (payload ++ zeros 116).take 116, crcOk := !stomped, stomped := stomped }

theorem flit_reads {l : Link} {ty : Nat} {seq : BitVec 12} {ack : Option (BitVec 12)} (payload : List Byte) (stomped : Bool)
    (h : (decide (header l ty seq < 2 ^ 32) && decide (BitVec.ofNat 12 (header l ty seq) = seq) && decide (bitsOf (header l ty seq) 12 4 = ty) && decide (bitsOf (header l ty seq) 29 3 = 0) &&
      decide ((if bitOf (header l ty seq) 28 then some (BitVec.ofNat 12 (header l ty seq / 2 ^ 16)) else none) = ack)) = true) :
    readFlit (mkFlit l ty seq payload stomped) = flitOf seq ty ack payload stomped ∧ (mkFlit l ty seq payload stomped).length = 128 := by
  simp only [Bool.and_eq_true, decide_eq_true_eq] at h
  obtain ⟨⟨⟨⟨a, b⟩, c⟩, d⟩, e⟩ := h
  exact ⟨by rw [readFlit_mkFlit l ty seq payload stomped a, b, c, d, e]; rfl, mkFlit_length ..⟩

theorem chunks (n : Nat) (bs : List Byte) : ((List.range n).flatMap fun b => (bs.drop (8 * b)).take 8) = bs.take (8 * n) := by
  induction n with
  | zero => rfl
  | succ n ih => rw [List.range_succ, List.flatMap_append, ih, Nat.mul_succ, List.take_add]; simp
/-- With all sixteen wavelengths the beats arrive in the order of the flit. -/
theorem reassemble_full {bs : List Byte} (h : bs.length = 128) : reassemble 0xFFFF 0 bs = bs := by
  have ha : arrivals 0xFFFF 0 = List.range 16 := by decide +kernel
  have hb : reassemble 0xFFFF 0 bs = (List.range 16).flatMap fun b => (bs.drop (8 * b)).take 8 := by
    unfold reassemble
    rw [ha]
    rfl
  rw [hb, chunks, List.take_of_length_le (by omega)]
/-- Whether a link expects no other lane map than all sixteen wavelengths, and stands at a MARKER. -/
def allWaves (l : Link) : Bool := l.expects.all (· == 0xFFFF) && l.rx.map == 0xFFFF && l.rxBeat == 0
theorem receives_full {l : Link} {bs : List Byte} (hl : allWaves l = true) (h : bs.length = 128) : l.receives bs = readFlit bs := by
  simp only [allWaves, Bool.and_eq_true, beq_iff_eq, List.all_eq_true] at hl
  obtain ⟨⟨he, hm⟩, hb⟩ := hl
  unfold Link.receives
  dsimp only
  split
  · next m hf => rw [he m (List.mem_of_find?_eq_some hf), reassemble_full h]
  · rw [hm, hb, reassemble_full h]

/-- A packet of no body: the first fourteen bytes of its header, and the whole with a check. -/
def head14 : List Byte := [1] ++ zeros 13
def aPacket (check : BitVec 16) : List Byte := head14 ++ leBytes 2 check.toNat
theorem badPacket_of (check : BitVec 16) : badPacket ((aPacket check ++ zeros 116).take 116) = if check = Config.headerCheck head14 then none else some 0 := by
  have hl : (leBytes 2 check.toNat).length = 2 := leBytes_length ..
  generalize hx : leBytes 2 check.toNat = x at hl
  have hv : leNat x = check.toNat := by rw [← hx, leNat_leBytes]; exact Nat.mod_eq_of_lt check.isLt
  obtain ⟨a, b, rfl⟩ : ∃ a b, x = [a, b] := by
    match x, hl with
    | [a, b], _ => exact ⟨a, b, rfl⟩
  have hp : (aPacket check ++ zeros 116).take 116 = head14 ++ [a, b] ++ zeros 100 := by rw [aPacket, hx]; rfl
  have hk : headerOk ((head14 ++ [a, b] ++ zeros 100).take 16) = decide (check = Config.headerCheck head14) := by
    have h1 : (((head14 ++ [a, b] ++ zeros 100).take 16).drop 14).take 2 = [a, b] := rfl
    have h2 : ((head14 ++ [a, b] ++ zeros 100).take 16).take 14 = head14 := rfl
    rw [headerOk, h1, h2, hv]
    exact Bool.eq_iff_iff.2 (by rw [beq_iff_eq, decide_eq_true_eq, BitVec.toNat_inj])
  rw [hp, badPacket, show (head14 ++ [a, b] ++ zeros 100).length / 16 + 1 = 7 + 1 by simp [head14, zeros], badHeader, hk,
    show leNat (((head14 ++ [a, b] ++ zeros 100).drop 1).take 4) = 0 from rfl, if_neg (show ¬((head14 ++ [a, b] ++ zeros 100).getD 0 0 = 0 ∨ (head14 ++ [a, b] ++ zeros 100).length < 16) by simp [head14, zeros])]
  by_cases h : check = Config.headerCheck head14
  · simp only [h, decide_true, Bool.not_true, Bool.false_eq_true, if_false, if_true]
    rfl
  · simp only [h, decide_false, Bool.not_false, if_true, if_false]

theorem test_meets_FlitsArrive_packets :
    badPacket (upLink.held ++ (flitOf upLink.expSeq tyData none (aPacket (Config.headerCheck head14)) false).payload) = none ∧
    badPacket (upLink.held ++ (flitOf upLink.expSeq tyData none (aPacket (Config.headerCheck head14 ^^^ 1)) false).payload) = some 0 ∧
    (flitOf upLink.expSeq tyData none (aPacket (Config.headerCheck head14 ^^^ 1)) false).is tyData = true := by
  refine ⟨(badPacket_of _).trans (if_pos rfl), (badPacket_of _).trans (if_neg fun h => ?_), rfl⟩
  have h1 := congrArg (· ^^^ Config.headerCheck head14) h
  simp only [BitVec.xor_self, BitVec.xor_comm (Config.headerCheck head14) 1, BitVec.xor_assoc, BitVec.xor_zero] at h1
  exact absurd h1 (by decide)

theorem test_meets_FlitsArrive :
    (∀ bs : List Byte, bs.length = 128 → upLink.receives bs = readFlit bs) ∧
    ((prK upLink).stuck = none ∧ linkCount ≤ 520 ∧ 3 < linkCount ∧ 4 < linkCount ∧ 4 ≠ 3 ∧ (prK upLink).link 3 = upLink ∧ upLink.st.passes = true ∧ upLink.hunting = false ∧ upLink.backlog = [] ∧ (upLink.replay.any fun d => d.seq == 7) = true ∧
      (prK upLink).ringDrops = 0 ∧ (prK upLink).ring.length < 4096 ∧ ((prK upLink).link 4).st.passes = true ∧ ((prK upLink).link 4).replay.length < 4095) ∧
    (∀ b stomped, readFlit (mkFlit upLink tyData upLink.expSeq b stomped) = flitOf upLink.expSeq tyData none b stomped ∧ (mkFlit upLink tyData upLink.expSeq b stomped).length = 128) ∧
    (readFlit (mkFlit upLink tyData 6 [7] false) = flitOf 6 tyData none [7] false ∧ (mkFlit upLink tyData 6 [7] false).length = 128 ∧ (6 : BitVec 12) ≠ upLink.expSeq) ∧
    (flip.length = 128 ∧ (readFlit flip).crcOk = false ∧ (readFlit flip).stomped = false) ∧
    (readFlit (mkFlit upLink tyNak 7 [] false) = flitOf 7 tyNak none [] false ∧ (mkFlit upLink tyNak 7 [] false).length = 128) ∧
    (readFlit (mkFlit { upLink with expSeq := 8, heard := true } tyIdle 0 [] false) = flitOf 0 tyIdle (some 7) [] false ∧ (mkFlit { upLink with expSeq := 8, heard := true } tyIdle 0 [] false).length = 128) ∧
    (readFlit (mkFlit upLink tyMarker 9 [0xFF, 0x0F] false) = flitOf 9 tyMarker none [0xFF, 0x0F] false ∧ (mkFlit upLink tyMarker 9 [0xFF, 0x0F] false).length = 128) ∧
    (readFlit (mkFlit upLink 7 5 [] false) = flitOf 5 7 none [] false ∧ (mkFlit upLink 7 5 [] false).length = 128 ∧ (flitOf 5 7 none [] false).reserved = true) :=
  ⟨fun _ h => receives_full (by decide +kernel) h, by decide +kernel, fun _ stomped => flit_reads _ _ (by decide +kernel), ⟨(flit_reads _ _ (by decide +kernel)).1, mkFlit_length .., by decide +kernel⟩,
    ⟨by simp only [flip, List.length_append, leBytes_length, w64Bytes, zeros, List.length_replicate], readFlit_bad (by decide +kernel) (by decide +kernel)⟩,
    flit_reads _ _ (by decide +kernel), flit_reads _ _ (by decide +kernel), flit_reads _ _ (by decide +kernel), (flit_reads _ _ (by decide +kernel)).1, mkFlit_length .., by decide +kernel⟩

def aDir (map : BitVec 16) : LinkDir := { LinkDir.reset with map := map }
def aRec (map : BitVec 16) (epoch : Nat) : LprRec := { width := mapWidth map, map := map, speed := 0, epoch := epoch }

theorem take16 {b : List Byte} (h : b.length = 16) : ((b ++ zeros 116).take 116).take 16 = b := by
  rw [List.take_take]
  exact List.take_left' h
open Keccak in
theorem build_length (f : Nat → Nat → W64) : (build f).length = 25 := by simp only [build, List.length_map, List.length_range]
open Keccak in
theorem permute_length {a : Lanes} (h : a.length = 25) : (permute a).length = 25 := by
  unfold permute
  generalize constants = cs
  induction cs generalizing a with
  | nil => exact h
  | cons _ _ ih => exact ih (build_length _)
open Keccak in
theorem absorb_length (n : Nat) {a : Lanes} (b : List Byte) (h : a.length = 25) : (absorb n b a).length = 25 := by
  induction n generalizing a b with
  | zero => exact h
  | succ n ih => exact ih _ (permute_length (by simp only [List.length_map, List.length_zipIdx, h]))
theorem flatMap_bytes (l : List W64) : (l.flatMap w64Bytes).length = 8 * l.length := by
  induction l with
  | nil => rfl
  | cons _ _ ih => simp only [List.flatMap_cons, List.length_append, ih, w64Bytes, leBytes_length, List.length_cons]; omega
open Keccak in
theorem squeeze_length (n : Nat) {a : Lanes} (h : a.length = 25) : (squeeze n a).length = 136 * n := by
  induction n generalizing a with
  | zero => rfl
  | succ n ih => simp only [squeeze, List.length_append, flatMap_bytes, List.length_take, h, ih (permute_length h)]; omega
theorem digest_length (n : Nat) (l : List Byte) : (digest n l).length = n := by
  simp only [digest, List.length_take, squeeze_length _ (absorb_length _ _ List.length_replicate)]
  omega
theorem lpr_length (n : Nat) (o : Bool) (r : LprRec) : (r.bytes n o).length = 16 := by
  simp only [LprRec.bytes, LprRec.head, lprHash, List.length_append, digest_length, leBytes_length, List.length_cons, List.length_nil]

theorem sealed_bytes (n : Nat) (o : Bool) (r : LprRec) : sealed_ n o (r.bytes n o) = true := by
  have h : r.head.length = 8 := by simp only [LprRec.head, List.length_append, leBytes_length, List.length_cons, List.length_nil]
  rw [sealed_, LprRec.bytes, List.drop_left' h, List.take_left' h]
  exact beq_self_eq_true _

/-- The far end's record, as it is proposed, and another; and links that expect no lane map but all sixteen wavelengths. -/
theorem test_meets_LinksTrain_far :
    (∀ e ∈ [1, 2], let rec16 := (aRec 0xFFFF e).bytes 3 false
      (sealed_ 3 true rec16 && !sealed_ 3 false rec16) = false ∧ (readFlit (mkFlit upLink tyLpr 9 rec16 false)).payload.take 16 = rec16) ∧
    (aRec 0xFFFF 2).bytes 3 false ≠ (aRec 0xFFFF 1).bytes 3 false ∧
    ∀ l ∈ [upLink, { upLink with tx := { upLink.tx with wave := some 3 }, rx := { upLink.rx with wave := some 3 } }, { Link.reset with st := .training },
      { Link.reset with st := .training, rx := { LinkDir.reset with offer := some (aRec 0xFFFF 1) } }], allWaves l = true := by
  refine ⟨fun e _ => ⟨by simp only [sealed_bytes, Bool.not_true, Bool.and_false], ?_⟩, fun h => ?_, by decide +kernel⟩
  · rw [(flit_reads (l := upLink) (ty := tyLpr) (seq := 9) (ack := none) _ _ (by decide +kernel)).1]
    exact take16 (lpr_length 3 false _)
  · have := congrArg (·[5]?) h
    simp only [LprRec.bytes, LprRec.head, List.cons_append, List.nil_append, leBytes, List.getElem?_cons_succ, List.getElem?_cons_zero] at this
    revert this
    decide +kernel

theorem test_meets_LinksTrain :
    let late (t : Nat) : State := { prK { upLink with ackAt := 0, nakSent := some 0, unanswered := [{ ty := tyLoss, payload := [], sent := 0 }] } with hclk := t }
    let training : Link := { Link.reset with st := .training }
    let waving := { upLink with tx := { upLink.tx with wave := some 3 }, rx := { upLink.rx with wave := some 3 } }
    let agreed : Link := { training with tx := { LinkDir.reset with offer := some (aRec 0xFFFF 1) }, rx := { LinkDir.reset with done := true, agreed := aRec 0xFFFF 1 } }
    ((late 12000).stuck = none ∧ 3 < linkCount ∧ ((late 12000).link 3).replay ≠ [] ∧ ((late 12000).link 3).st.passes = true ∧ ((late 12000).link 3).ackAt + 12000 ≤ (late 12000).hclk ∧ (late 11999).hclk < 12000 ∧
      ((late 6000).link 3).nakSent = some 0 ∧ 0 + 6000 ≤ (late 6000).hclk ∧ (late 5999).hclk < 0 + 6000 ∧ ((late 3000).link 3).unanswered ≠ [] ∧ ((late 3000).link 3).st ≠ .down ∧ ((late 3000).link 3).st ≠ .failed) ∧
    (((prK training).link 3).st = .training ∧ training.trainAt + 150000000 ≤ { prK training with hclk := 150000000 }.hclk ∧ (prK training).hclk < 150000000) ∧
    (waving.st.passes = true ∧ waving.tx.wave.isSome ∧ waving.rx.wave.isSome ∧ waving.tx.since + 75000000 ≤ { prK waving with hclk := 75000000 }.hclk) ∧
    ((prK Link.reset).link 3 = Link.reset ∧ Link.reset.st = .down ∧ upLink.st ≠ .down) ∧
    ((1 : BitVec 16) &&& ~~~upLink.rx.dark ≠ 0 ∧ upLink.tx.wave = none ∧ lowWave (1 &&& ({ upLink.tx with dark := 1 } : LinkDir).dark) = some 0) ∧
    (upLink.thresholds.getD 3 42949 < 42950 ∧ 3 < 16 ∧ upLink.rx.map.getLsbD 3 = true ∧ upLink.rx.dark.getLsbD 3 = false ∧ upLink.rx.wave = none ∧ (upLink.unanswered.any fun x => x.ty == tyRetrain) = false) ∧
    (9 ≤ mapWidth upLink.tx.map ∧ mapWidth (aDir 0x00FF).map < 9 ∧ (aDir 0x00FF).map.getLsbD 3 = true ∧ waving.tx.wave = some 3 ∧ waving.tx.offer = none) ∧
    (training.rx.offer = none ∧ training.tx.offer = none ∧ training.rx.far = none ∧ training.tx.done = false ∧ training.rx.done = false ∧ training.rx.echo = none) ∧
    (let l := { training with rx := { training.rx with echo := some (zeros 16, [1]) } }; l.st = .training ∧ l.tx.offer = none ∧ l.rx.echo = some (zeros 16, [1])) ∧
    (agreed.st = .training ∧ agreed.tx.offer = some (aRec 0xFFFF 1) ∧ agreed.rx.done = true ∧ agreed.tx.done = false ∧ 4 ≤ mapWidth ((aRec 0xFFFF 1).map &&& ~~~agreed.tx.dark) ∧ 4 ≤ mapWidth (agreed.rx.agreed.map &&& ~~~agreed.rx.dark) ∧ agreed.rx.echo = none) := by decide +kernel

theorem test_meets_LinksTrain_flits :
    (∀ ty ∈ [tyLoss, tyRetrain, tyLpr], ∀ b ∈ ([[3, 0], [3, 1]] : List (List Byte)), (mkFlit upLink ty 9 b false).length = 128 ∧ readFlit (mkFlit upLink ty 9 b false) = flitOf 9 ty none b false ∧
      (flitOf 9 ty none b false).is ty = true) ∧
    ((flitOf 9 tyRetrain none [3, 0] false).payload.getD 1 0 = 0 ∧ ((flitOf 9 tyRetrain none [3, 0] false).payload.getD 0 0).toNat = 3 ∧ (flitOf 9 tyRetrain none [3, 1] false).payload.getD 1 0 ≠ 0) ∧
    (readFlit (mkFlit upLink tyLpr 9 ((aRec 0xFFFF 1).bytes 3 true) false)).payload.take 16 = (aRec 0xFFFF 1).bytes 3 true ∧
    (readFlit (mkFlit upLink tyLpr 9 [] false)).payload.take 16 ≠ (aRec 0xFFFF 1).bytes 3 true ∧
    (readFlit (mkFlit upLink tyLpr 9 [] false)).payload.take 16 = zeros 16 ∧ (readFlit (mkFlit upLink tyLpr 9 [] false)).ack = none := by
  refine ⟨fun ty h b _ => ⟨mkFlit_length .., (flit_reads b _ (by revert ty; decide +kernel)).1, ?_⟩, by decide +kernel, ?_, ?_, ?_, ?_⟩
  · simp only [Flit.is, flitOf, Flit.reserved, Bool.not_false, Bool.true_and, BEq.rfl, Bool.and_true, Bool.false_or]
    revert ty; decide +kernel
  · rw [(flit_reads (l := upLink) (ty := tyLpr) (seq := 9) (ack := none) _ _ (by decide +kernel)).1]
    exact take16 (lpr_length 3 true _)
  · rw [(flit_reads (l := upLink) (ty := tyLpr) (seq := 9) (ack := none) _ _ (by decide +kernel)).1]
    intro h
    have := congrArg (·.head?) h
    revert this
    simp only [LprRec.bytes, LprRec.head, List.cons_append, List.head?_cons, flitOf]
    decide +kernel
  all_goals
    rw [(flit_reads (l := upLink) (ty := tyLpr) (seq := 9) (ack := none) _ _ (by decide +kernel)).1]
    decide +kernel

/-- The package powered on: eight dies of 136 positions. -/
def allWork : List (List Byte) := List.replicate 8 (List.replicate 136 0x1F)
def aHarvest : List (List (BitVec 2)) := allWork.map (·.map harvestClass)
/-- The probe's boot at another stage. -/
def prBoot (b : Boot) : State := { pr with boot := b }

theorem test_meets_PackageRuns_reset : noStopRecords pr := by
  unfold noStopRecords
  decide +kernel

theorem test_meets_PackageRuns :
    let x : SampleC := { members := [⟨192, 0, 0, 0, 0, 1, 0⟩], pc := 0, word := 0, caused := false, mark := 9 }
    let sm : Sampling := { interval := 5, start := 0, issues := [x] }
    let s := { pr with sampling := [(0, sm)], cores := [(0, { pr.core 0 0 with clk := 5 })] }
    (s.stuck = none ∧ s.sampling.find (0 * 256 + 0) = some sm ∧ sm.start + sm.interval ≤ s.clk 0 0 ∧ sm.issues[7 % sm.issues.length]? = some x ∧ x.members[3 % x.members.length]? = some ⟨192, 0, 0, 0, 0, 1, 0⟩) ∧
    (pr.sampling.find (0 * 256 + 0) = none ∧ (pr.vdieOf 0 0).isSome) ∧ pr.boot = .ready ∧ (1000 < (pr.die 7).mhz) ∧
    (pr.contexts.find 0 = some probeContext ∧ probeContext.st = .running ∧ (probeContext.remap.any fun v => v.2 == 0) = true) ∧
    ([4056].foldl (· + ·) 0 + 144 ≤ 4200 ∧ 0 < 1750 ∧ (pr.resetDie 0).stuck = none) ∧ (((prBoot .loading).link 512).st = .down) ∧
    aHarvest = List.replicate 8 (List.replicate 136 0) ∧ harvestOk aHarvest (List.replicate 8 0) = true ∧ harvestOk [] [] = false ∧ (prBoot .loading).frozen = false ∧ (prBoot .loading).boot = .loading ∧
    (prBoot .romcheck).boot = .romcheck ∧ (prBoot .romcheck).frozen = false := by decide +kernel

/-! ## Mailbox commands -/

/-- A mailbox that is BUSY with a command, with bytes of ARGS from 0x10 and of PAYLOAD from 0x40. -/
def aBox (code : Nat) (args payload : List Byte) : Mbox := { cmd := 0, status := 1, args := cellsSet [] 0x10 args, payload := cellsSet [] 0x40 payload, run := BitVec.ofNat 32 code, begun := false, spoilt := false }
/-- Function 1 owns context 5, on die 0. -/
def ownCtx (st : CState) : Context := { sigCtx with vf := 1, st := st, xrecs := [(0, { root := probeRoot, qtbase := 0x50000000, stopbase := 0x51000000 })], qtlen := 16, stoplen := 640 }
def prM1 (fn : Nat) (m : Mbox) (st : CState) : State := { pr with mailboxes := [(fn, m)], contexts := [(5, ownCtx st)] }
def runsIn (s : State) (fn code : Nat) (m : Mbox) : Bool := decide (s.mbox fn = m) && m.busy && decide (m.code = code) && decide (s.boot = .ready) && decide (s.stuck = none)

theorem runs_of {s : State} {fn code : Nat} {m : Mbox} (h : runsIn s fn code m = true) : Runs s fn code m := by
  simp only [runsIn, Bool.and_eq_true, decide_eq_true_eq] at h
  obtain ⟨⟨⟨⟨a, b⟩, c⟩, d⟩, e⟩ := h
  exact ⟨a, b, c, d, e⟩

/-- ARGS of command 0x01: OP, CTX, QTLEN, STOPLEN, SIGWORDS and DIES. -/
def ctxArgs (op : Nat) : List Byte := [byteOf op, 5, 0, 0] ++ leBytes 4 16 ++ leBytes 4 640 ++ leBytes 4 8 ++ [1]
def ctxBox (op : Nat) : Mbox := aBox 1 (ctxArgs op) (List.replicate 8 0xFF)
def anyState : List CState := [.created, .running, .halting true, .halted, .saved, .resuming, .destroyed]
/-- A free slot for the context to be created, and the group of context 5 that stopped. -/
def prNew : State := { prM1 1 (ctxBox 0) .created with contexts := (List.range 5).map fun i => (i, ownCtx .created) }
def prRes (st : CState) (g : GState) : State := { prM1 1 (ctxBox 4) st with groups := [(2, { probeGroup 1 with ctx := 5, st := g })], igroups := [], threads := [(192, { probeThread 3 with st := .stopped 0 none })] }

theorem some_pair {α β : Type} {o : Option (α × β)} (h : o.isSome = true) : ∃ a b, o = some (a, b) := by
  cases o with
  | none => exact absurd h (by simp)
  | some p => exact ⟨p.1, p.2, rfl⟩

theorem test_meets_ContextCommands :
    (∀ op ∈ [0, 1, 2, 3, 4], ∀ st ∈ anyState, Runs (prM1 1 (ctxBox op) st) 1 1 (ctxBox op) ∧ (ctxBox op).arg 0x10 1 = op ∧ (ctxBox op).arg 0x11 1 = 5 ∧ (prM1 1 (ctxBox op) st).contexts.find 5 = some (ownCtx st)) ∧
    (Runs prNew 1 1 (ctxBox 0) ∧ (ctxBox 0).arg 0x18 4 % 64 = 0 ∧ prNew.sigTop + (ctxBox 0).arg 0x1C 4 ≤ 2 ^ 21 ∧ ((List.range 256).find? fun n => (prNew.contexts.find n).isNone) = some 5 ∧
      diesOk prNew (diesArg (ctxBox 0)) [0] = true ∧ coresOk prNew (bindDies (diesArg (ctxBox 0)) [0]) [(0, 3, 0)] = true ∧
      ∃ xs s1, newXrecs ((ctxBox 0).arg 0x14 4) ((ctxBox 0).arg 0x18 4) (bindDies (diesArg (ctxBox 0)) [0]) prNew = some (xs, s1)) ∧
    ((prM1 1 (ctxBox 1) .destroyed).queues.vals.any fun q => q.ctx == 5 && q.st == QState.resetting) = false ∧
    ({ prM1 1 (ctxBox 1) .destroyed with queues := [(0, { qu0 with ctx := 5, st := .resetting })] }.queues.vals.any fun q => q.ctx == 5 && q.st == QState.resetting) = true ∧
    (prM1 1 (ctxBox 1) .destroyed).quiet (((prM1 1 (ctxBox 1) .destroyed).groups.filter fun e => e.2.ctx == 5).map (·.1)) = true ∧
    ((ownCtx .halted).overflow = false ∧ (∃ s1, (prM1 1 (ctxBox 3) .halted).saveGroups false ((prM1 1 (ctxBox 3) .halted).unsaved 5 none) = (false, s1) ∧ s1.stuck = none ∧
      ((ownCtx .halted).remap.foldl (fun s v => s.writeStop 5 v.1 v.2) s1).stuck = none)) ∧
    ((ownCtx .halted).dieLost = false ∧ diesArg (ctxBox 4) = (ownCtx .halted).remap.keys ∧ (∀ v ∈ List.range 8, (((ctxBox 4).pay (0x40 + v) 1).getD 0 0).toNat = 0xFF)) ∧
    (Runs (prRes .resuming .stopped) 1 1 (ctxBox 4) ∧ ∃ s1, (prRes .resuming .stopped).restoreGroups (((prRes .resuming .stopped).groups.filter fun e => e.2.ctx == 5 && e.2.st == .stopped && e.2.slot.isSome).map (·.1)) = (false, s1) ∧
      (s1.contexts.find 5).map (·.st) = some .resuming ∧ (∀ x, s1.contexts.find 5 = some x → ∀ h ∈ x.halts, h.2.cause = none) ∧ s1.stuck = none ∧ ∃ g, s1.groups.find 2 = some g ∧ g.ctx = 5 ∧ g.st = .stopped ∧ g.slot = none) :=
  ⟨fun op h st k => ⟨runs_of (by revert st op; decide +kernel), by revert st op; decide +kernel⟩,
    ⟨runs_of (by decide +kernel), by decide +kernel, by decide +kernel, by decide +kernel, by decide +kernel, by decide +kernel, some_pair (by decide +kernel)⟩, by decide +kernel, by decide +kernel, by decide +kernel,
    ⟨by decide +kernel, pair2 (by decide +kernel) (by decide +kernel)⟩, by decide +kernel, runs_of (by decide +kernel), pair2 (by decide +kernel) (by decide +kernel)⟩

/-- Command 0x02, 0x03 (create, without and with LQ; delete) and 0x04 of function 1. -/
def pteBox (n : Nat) : Mbox := aBox 2 ([5, 0] ++ leBytes 2 n) []
def qBox (flags esize log window : Nat) : Mbox := aBox 3 ([0, 5, 0, byteOf esize, byteOf flags, byteOf log] ++ leBytes 2 window ++ leBytes 6 11 ++ leBytes 6 12 ++ leBytes 6 13) []
def delBox : Mbox := aBox 3 [1, 5, 0] []
def bindBox (n : Nat) : Mbox := aBox 4 ([5, 0] ++ leBytes 2 n) []
def prTabs (m : Mbox) (l : Tbl Queue) : State := { prM1 1 m .created with queues := l }

theorem test_meets_TableCommands :
    ((prTabs delBox []).contexts.find 5 = some (ownCtx .created) ∧ (ownCtx .created).st ≠ .destroyed ∧ (ownCtx .created).remap.find 0 = some 0 ∧
      (ownCtx .created).xrecs.find 0 = some { root := probeRoot, qtbase := 0x50000000, stopbase := 0x51000000 }) ∧
    (∀ n ∈ [1, 252], Runs (prTabs (pteBox n) []) 1 2 (pteBox n) ∧ (pteBox n).arg 0x10 1 = 5 ∧ (pteBox n).arg 0x11 1 = 0 ∧ (pteBox n).arg 0x12 2 = n) ∧
    (∀ n ∈ [1, 201], Runs (prTabs (bindBox n) []) 1 4 (bindBox n) ∧ (bindBox n).arg 0x10 1 = 5 ∧ (bindBox n).arg 0x11 1 = 0 ∧ (bindBox n).arg 0x12 2 = n) ∧
    (∀ m ∈ [qBox 0 0 0xFF 16, qBox 2 3 4 1], Runs (prTabs m []) 1 3 m ∧ m.arg 0x11 1 = 5 ∧ m.arg 0x12 1 = 0 ∧ m.arg 0x10 1 = 0 ∧ m.arg 0x13 1 ≤ 7 ∧ 1 ≤ m.arg 0x16 2 ∧ (m.arg 0x15 1 ≤ 32 ∨ m.arg 0x15 1 = 0xFF) ∧
      (bitOf (m.arg 0x14 1) 1 = true → m.arg 0x13 1 = 3 ∧ ((ownCtx .created).remap.find (m.arg 0x2C 1)).isSome ∧ ((prTabs m []).launchQs.filter fun x => !x.2.stopped || ((prTabs m []).queues.find x.1).any fun q => q.st != .free).length < 512) ∧
      ((prTabs m []).freeWindow 0 (m.arg 0x16 2 * elemSize (m.arg 0x13 1))).isSome ∧ (prTabs m []).queues.find (quKey 0 9) = none ∧
      State.rangeFree [] 0x3000000 64 (m.arg 0x16 2 * elemSize (m.arg 0x13 1)) = true ∧ 64 + 2 ^ 4 * 128 ≤ ((prTabs m []).die 0).fwTop ∧ ((prTabs m []).die 0).mapTop ≤ 64 ∧ m.spoilt = false ∧
      (prTabs m []).launchQs.find (quKey 0 9) = none) ∧
    (bitOf ((qBox 2 3 4 1).arg 0x14 1) 1 = true ∧ bitOf ((qBox 0 0 0xFF 16).arg 0x14 1) 1 = false) ∧
    (let q := { quA with ctx := 5 };
      Runs (prTabs delBox [(0, q)]) 1 3 delBox ∧ delBox.arg 0x11 1 = 5 ∧ delBox.arg 0x12 1 = 0 ∧ delBox.arg 0x10 1 = 1 ∧
        (prTabs delBox [(0, q)]).queues.find (quKey 0 ((ownCtx .created).slotOf 0 (delBox.arg 0x2A 2))) = some q ∧ q.st ≠ .free ∧ q.st ≠ .resetting ∧ q.ctx = 5) :=
  ⟨by decide +kernel, fun n h => ⟨runs_of (by revert n; decide +kernel), by revert n; decide +kernel⟩, fun n h => ⟨runs_of (by revert n; decide +kernel), by revert n; decide +kernel⟩,
    fun m h => ⟨runs_of (by revert m; decide +kernel), by revert m; decide +kernel⟩, by decide +kernel, runs_of (by decide +kernel), by decide +kernel⟩

theorem test_meets_ReadCommands :
    (∀ fn ∈ [1, 16], (∀ code ∈ [0, 5, 7, 0x0C], Runs (prM1 fn (aBox code [] []) .created) fn code (aBox code [] [])) ∧
      ∀ args ∈ ([[0, 0, 1], [0, 0, 0], [1], [2, 7], [3] ++ List.replicate 15 0 ++ leBytes 2 535, [4]] : List (List Byte)), Runs (prM1 fn (aBox 6 args []) .created) fn 6 (aBox 6 args [])) ∧
    ((aBox 6 [0, 0, 1] []).arg 0x12 1 % 2 = 1 ∧ (aBox 6 [0, 0, 0] []).arg 0x12 1 % 2 = 0 ∧ (aBox 6 [0, 0, 1] []).arg 0x10 1 = 0 ∧ (aBox 6 [1] []).arg 0x10 1 = 1 ∧ (aBox 6 [2, 7] []).arg 0x10 1 = 2 ∧
      (aBox 6 [2, 7] []).arg 0x11 1 = 7 ∧ (aBox 6 ([3] ++ List.replicate 15 0 ++ leBytes 2 535) []).arg 0x10 1 = 3 ∧ (aBox 6 ([3] ++ List.replicate 15 0 ++ leBytes 2 535) []).arg 0x20 2 = 535 ∧ 3 < (aBox 6 [4] []).arg 0x10 1) := by
  refine ⟨fun fn hf => ⟨fun code hc => runs_of ?_, fun args ha => runs_of ?_⟩, by decide +kernel⟩
  · revert fn code; decide +kernel
  · revert fn args; decide +kernel

/-- An authorisation under nonce zero, for a package identifier and a device digest. -/
def freezeBox (pkg dev : List Byte) : Mbox := { aBox 0x0A [] [] with payload := cellsSet (cellsSet [] 0x40 pkg) 0x68 dev }

theorem pay_out (m : List Host.Cell) (a off n : Nat) (bs : List Byte) (hm : Memory.wf m = true) (h : off + n ≤ a ∨ a + bs.length ≤ off) : cellsGet (cellsSet m a bs) off n = cellsGet m off n := by
  induction n generalizing off with
  | zero => rfl
  | succ n ih =>
    rw [cellsGet, cellsGet, cellGet_cellsSet_out m a off bs hm (by omega), ih (off + 1) (by omega)]

theorem freezeBox_reads {pkg dev : List Byte} (hp : pkg.length = 2) (hd : dev.length = 64) :
    (freezeBox pkg dev).pay 0x40 2 = pkg ∧ (freezeBox pkg dev).pay 0x68 64 = dev ∧ (freezeBox pkg dev).pay 0x48 32 = List.replicate 32 0 := by
  have h1 : Memory.wf (cellsSet [] 0x40 pkg) = true := cellsSet_wf _ _ _ rfl
  refine ⟨?_, ?_, ?_⟩
  · refine (pay_out _ 0x68 0x40 2 _ h1 (.inl (by decide))).trans ?_
    have := cellsGet_cellsSet [] 0x40 pkg rfl
    rwa [hp] at this
  · have := cellsGet_cellsSet _ 0x68 dev h1
    rwa [hd] at this
  · refine (pay_out _ 0x68 0x48 32 _ h1 (.inl (by decide))).trans ((pay_out _ 0x40 0x48 32 _ rfl (.inr ?_)).trans (by decide +kernel))
    rw [hp]; decide

def prF (pkg dev : List Byte) (nonce : Option (List Byte)) : State := { prM1 16 (freezeBox pkg dev) .created with nonce := nonce }

theorem freeze_meets {pkg dev : List Byte} (hp : pkg.length = 2) (hd : dev.length = 64) :
    (∀ nonce, Runs (prF pkg dev nonce) 16 0x0A (freezeBox pkg dev)) ∧ (freezeBox pkg dev).pay 0x40 2 = pkg ∧ (freezeBox pkg dev).pay 0x68 64 = dev ∧
      (prF pkg dev (some (List.replicate 32 0))).nonce = some ((freezeBox pkg dev).pay 0x48 32) ∧ (prF pkg dev none).nonce ≠ some ((freezeBox pkg dev).pay 0x48 32) :=
  have h := freezeBox_reads hp hd
  ⟨fun _ => ⟨rfl, (by decide : (aBox 0x0A [] []).busy = true), (by decide : (aBox 0x0A [] []).code = 0x0A), rfl, rfl⟩, h.1, h.2.1, by rw [h.2.2]; rfl, by simp [prF]⟩

theorem pkg2_length : (pkgBytes.take 2).length = 2 := by rw [pkgBytes, List.length_take, leBytes_length]; rfl

theorem test_meets_PhysicalCommands :
    (∀ flags ∈ [0, 1, 2, 3], let m := aBox 8 (leBytes 4 (2 ^ 25 - 4032) ++ leBytes 2 4032 ++ [byteOf flags]) [1, 2, 3]; Runs (prM1 16 m .created) 16 8 m ∧ m.arg 0x10 4 % 8 = 0 ∧ m.arg 0x14 2 = 4032 ∧ m.arg 0x10 4 + m.arg 0x14 2 ≤ 2 ^ 25) ∧
    (∀ w ∈ [1499, 1500, 4200, 4201], Runs (prM1 16 (aBox 9 (leBytes 2 w) []) .created) 16 9 (aBox 9 (leBytes 2 w) []) ∧ (aBox 9 (leBytes 2 w) []).arg 0x10 2 = w) ∧
    (∃ dev, dev = digest 64 devicePub ∧ let m := freezeBox (pkgBytes.take 2) dev
      (∀ nonce, Runs (prF (pkgBytes.take 2) dev nonce) 16 0x0A m) ∧ m.pay 0x40 2 = pkgBytes.take 2 ∧ m.pay 0x68 64 = dev ∧
        (prF (pkgBytes.take 2) dev (some (List.replicate 32 0))).nonce = some (m.pay 0x48 32) ∧ (prF (pkgBytes.take 2) dev none).nonce ≠ some (m.pay 0x48 32)) ∧
    (∀ b, let m := { aBox 0x0B [7] [] with begun := b }; Runs (prM1 16 m .created) 16 0x0B m ∧ m.arg 0x10 1 = 7 ∧ ((prM1 16 m .created).die 7).inReset = false ∧ (((prM1 16 m .created).setMbox 16 { m with begun := true }).resetDie 7).stuck = none) ∧
    (∀ code ∈ [8, 9, 0x0A, 0x0B], Runs (prM1 1 (aBox code [] []) .created) 1 code (aBox code [] [])) :=
  ⟨fun f h => ⟨runs_of (by revert f; decide +kernel), by revert f; decide +kernel⟩, fun w h => ⟨runs_of (by revert w; decide +kernel), by revert w; decide +kernel⟩,
    ⟨_, rfl, freeze_meets pkg2_length (digest_length _ _)⟩,
    fun b => ⟨runs_of (by revert b; decide +kernel), by revert b; decide +kernel⟩, fun code h => runs_of (by revert code; decide +kernel)⟩

/-! ## Slots, steps and safe states -/

/-- The probe whose register 4 is EMPTY. -/
def hollow (t : Thread) : Thread := { t with empty := [4] }
/-- Unguarded controls with policy 1 for the sources, and controls whose guard, predicate 3, is clear. -/
def qa : Ctl := { q with fa := true }
def qb : Ctl := { q with fb := true }
def qg : Ctl := { q with g1 := 3 }

theorem test_meets_SlotChecks :
    (∀ i ∈ ([.iadd qg (.g 4) (.g 5) (.g 6) 0, .ld qg (.g 4) (.g 8) 64 6 1 true, .st qg (.g 4) (.g 8) 64 6 true, .trap qg 1, .exit qg] : List Instr), pm.t.guardOk i.ctl = false) ∧
    (SlotOf pr pig ∧ pig.members = [pm.k] ∧ pr.self pm.k = some pm ∧ pm.t.st ≠ .exited ∧ pm.t.deferred = []) ∧
    (SlotOf (prT hollow) pig ∧ pig.members = [(pmT hollow).k] ∧ (prT hollow).self 192 = some (pmT hollow) ∧ (pmT hollow).t.st ≠ .exited ∧ (pmT hollow).t.deferred = []) ∧
    ((pmT hollow).t.empty.contains 4 ∧ (pmT hollow).t.firstEmpty (.g 5) 1 = none ∧ (pmT hollow).l.trapTab = 0 ∧ ((prT hollow).contexts.find 0).map (·.st) = some .running) ∧
    ((pmT hollow).t.guardOk q = true ∧ (pmT hollow).t.guardOk qa = true ∧ (pmT hollow).t.guardOk qb = true ∧ q.fa = false ∧ q.fb = false ∧ qa.fa = true ∧ qb.fb = true) :=
  ⟨by decide +kernel, ⟨slot_of (by decide +kernel), by decide +kernel⟩, ⟨slot_of (by decide +kernel), by decide +kernel⟩, by decide +kernel, by decide +kernel⟩

theorem off_of {p : Trans × State} {size va : Nat} (leaf : W64) (pa : Nat) (h : p.1 = .hit leaf pa) (h2 : p.2.stuck = none ∧ va % size ≠ 0) :
    ∃ leaf pa s1, p = (.hit leaf pa, s1) ∧ s1.stuck = none ∧ va % size ≠ 0 := ⟨leaf, pa, p.2, by rw [← h], h2⟩

theorem test_meets_FaultsStopThreads :
    let rs := regs [(8, 1)]
    let s := { (prM 0).setThread 192 (rs (probeThread 3)) with contexts := [(0, probeContext)] }
    (∀ i ∈ ([.rth q, .sread q (.g 4) 0x1C, .swrite q 0xFF (.g 4)] : List Instr), Alone i pr pig pm) ∧ pm.t.handler = none ∧ pr.contexts.find pm.g.ctx = some probeContext ∧ probeContext.st = .running ∧
    (∀ i ∈ ([.ld q (.g 4) (.g 8) 8 6 1 true, .st q (.g 4) (.g 8) 8 5 true, .atom q (.g 4) (.g 8) (.g 6) 9 true 3, .acas q (.g 4) (.g 8) (.g 6) (.g 10) false 2, .acas q (.g 4) (.g 8) (.g 6) (.g 10) true 1] : List Instr), Alone i s pig (pmT rs)) ∧
    s.fenceOk (pmT rs).k (pmT rs).g.die 2 2 = true ∧ (1 : BitVec 2).getLsbD 1 = false ∧
    (∀ x ∈ [(kindLoad, 9, 16), (kindStore, 9, 8)], ∃ leaf pa s1, s.translate (pmT rs) (s.src64 (pmT rs) (.g 8) + (8 : BitVec 16).signExtend 64) x.1 = (.hit leaf pa, s1) ∧ s1.stuck = none ∧ x.2.1 % x.2.2 ≠ 0) ∧
    (s.src64 (pmT rs) (.g 8) + (8 : BitVec 16).signExtend 64).toNat = 9 ∧
    (∀ n ∈ [4, 8], ∃ leaf pa s1, s.translate (pmT rs) (s.src64 (pmT rs) (.g 8)) kindAtomic = (.hit leaf pa, s1) ∧ s1.stuck = none ∧ 1 % n ≠ 0) := by
  refine ⟨all_alone _ _ _ (by decide +kernel), by decide +kernel, by decide +kernel, by decide +kernel, all_alone _ _ _ (by decide +kernel), by decide +kernel, by decide +kernel, fun x hx => off_of (leaf 0) 9 ?_ ?_, by decide +kernel,
    fun n hn => off_of (leaf 0) 1 ?_ ?_⟩
  · revert x; decide +kernel
  · revert x; decide +kernel
  · decide +kernel
  · revert n; decide +kernel

/-- The machine whose next turn, in the agenda or not, is the slot of that word. -/
def fetched (w : Nat) (turns : List Turn) : State := { State.reset.withFetchWord 64 w with agenda := turns, igroups := [(4, pig)] }
def atSlot (s : State) : State := { s with agenda := [] }.setCore 0 0 { s.core 0 0 with issuedNow := [1] }

theorem word_of {p : Fetched × Option Byte × State} {w : W64} (h : p.1 = .word w) (h2 : p.2.1 = none) : ∃ s1, p = (.word w, none, s1) := ⟨p.2.2, by rw [← h, ← h2]⟩

theorem decodes {w : W64} {i : Instr} (h : (match decodeWord w with | .ok j => j == i | .error _ => false) = true) : decodeWord w = .ok i := by
  cases e : decodeWord w with
  | ok j => simp only [e, beq_iff_eq] at h; rw [h]
  | error _ => simp [e] at h
theorem refuses {w : W64} (h : (match decodeWord w with | .ok _ => false | .error _ => true) = true) (i : Instr) : decodeWord w ≠ .ok i := by
  intro e
  simp [e] at h

theorem test_meets_StepRunsDecoded :
    let words := [0x00FF3FFFFFFFC000, 0xFFFF3FFFFFFFC000, 0xB2FF3FFFFFFFC080]
    (∀ turns ∈ [[Turn.slot 4], []], ∀ w ∈ words, let s := fetched w turns
      s.frozen = false ∧ s.agenda = turns ∧ s.igroups.find 4 = some pig ∧ pig.members = 192 :: [] ∧ s.self 192 = some pm ∧ (s.core 0 0).issuedNow = [] ∧
        (if (s.core pig.die pig.core).issuedNow.contains pig.launch then (s.core pig.die pig.core).issuedNow else pig.launch :: (s.core pig.die pig.core).issuedNow) = [1]) ∧
    (∀ turns ∈ [[Turn.slot 4], []], ∀ w ∈ words, ∃ s1, (atSlot (fetched w turns)).slotWord pm.site pm.l pig = (.word (BitVec.ofNat 64 w), none, s1)) ∧
    (decodeWord 0x00FF3FFFFFFFC000 = .ok (.nop q) ∧ codeOk pig pm.l 0 (.nop q) = true ∧ (∀ i, decodeWord 0xFFFF3FFFFFFFC000 = .ok i → codeOk pig pm.l 0 i = false) ∧ pr.classOf 0 0 = 0 ∧
      decodeWord 0xB2FF3FFFFFFFC080 = .ok (.cvrst q 2) ∧ codeOk pig pm.l 0 (.cvrst q 2) = true ∧ asksCv (.cvrst q 2) = true ∧ asksCv (.nop q) = false) ∧
    (∀ s1 : State, ∀ low, { s1.core 0 0 with cvLane := none }.cvLane = some low → False) ∧ ((fetched 0xB2FF3FFFFFFFC080 []).core 0 0).cvLane = none ∧ (groupLanes (fetched 0xB2FF3FFFFFFFC080 []) pig).min? = some 0 ∧
    { pr with agenda := [.act (.sliceEnd 0)] }.agenda = .act (.sliceEnd 0) :: [] ∧
    { pr with frozen := true, agenda := [.act (.powerOn [] [])] }.agenda = .act (.powerOn [] []) :: [] ∧ { pr with frozen := true }.frozen = true ∧ (∀ c sp, Instr.sliceEnd 0 ≠ .powerOn c sp) := by
  refine ⟨by decide +kernel, fun turns ht w hw => word_of ?_ ?_, ⟨decodes (by decide +kernel), by decide +kernel, fun i h => absurd h (refuses (by decide +kernel) i), by decide +kernel, decodes (by decide +kernel), by decide +kernel⟩,
    by simp, by decide +kernel, by decide +kernel, by decide +kernel, by decide +kernel, by decide +kernel, fun _ _ h => nomatch h⟩
  · revert turns w; decide +kernel
  · revert turns w; decide +kernel

theorem test_meets_EncodingsDecode : wellFormed (.mov q (.g 4) (.g 5) false) = true ∧ encode (.mov q (.g 4) (.g 5) false) = some 0x01FF01017FFFC000 := by decide +kernel
theorem test_meets_WordsReadOneWay : decodeWord 0x01FF01017FFFC000 = .ok (.mov q (.g 4) (.g 5) false) := decodes (by decide +kernel)

theorem next_of {o : Host.Outcome State Fault Refusal} (h : (match o with | .next _ => true | _ => false) = true) : ∃ t, o = .next t := by
  cases o with
  | next t => exact ⟨t, rfl⟩
  | fault f => exact absurd h (by simp)
  | refused r => exact absurd h (by simp)

theorem test_meets_StepKeepsSafe : (fetched 0x00FF3FFFFFFFC000 []).Safe ∧ ∃ t, step (fetched 0x00FF3FFFFFFFC000 []) = .next t :=
  ⟨⟨⟨by decide +kernel, by decide +kernel, by decide +kernel, by decide +kernel⟩, by decide +kernel⟩, next_of (by decide +kernel)⟩

end Sys2Proof.Tests
end

section
/-! PROOF. Home serves loads and accepts writes (R192, R195 to R197, R200, R202, R203). -/

namespace Sys2Proof.Machine

theorem exec_hLoadMiss (req : Nat) (s : State) : exec (.hLoadMiss req) s = execHLoadMiss req s := rfl
theorem exec_hWriteAccept (req : Nat) (s : State) : exec (.hWriteAccept req) s = execHWriteAccept req s := rfl

namespace State

/-! ## Room in the near cache leaves home's bytes as they are -/

theorem flushSector_mem (s : State) (die core sector : Nat) (drop : Bool) (cwbs cinvs : List Nat) :
    (s.flushSector die core sector drop cwbs cinvs).mem = s.mem := by
  simp only [flushSector]
  split
  · rfl
  · split <;> rfl

theorem pushPartial_mem (s : State) (die core line : Nat) : (s.pushPartial die core line).mem = s.mem := by
  simp only [pushPartial]
  split <;> rfl

theorem evict_mem (s : State) (die core sector : Nat) : (s.evict die core sector).mem = s.mem :=
  (flushSector_mem ..).trans (pushPartial_mem ..)

theorem replaceOne_mem (s : State) (die core pa n : Nat) : (s.replaceOne die core pa n).mem = s.mem := by
  simp only [replaceOne]
  split
  · rfl
  · split
    · exact evict_mem ..
    · rfl

theorem makeRoom_mem (s : State) (die core pa : Nat) : (s.makeRoom die core pa).mem = s.mem := by
  simp only [makeRoom]
  split
  · rfl
  · exact replaceOne_mem ..

@[simp] theorem makeRoom_memRead (s : State) (die core pa d a n : Nat) : (s.makeRoom die core pa).memRead d a n = s.memRead d a n := by
  simp only [memRead, makeRoom_mem]

/-! ## The parts of a load at home -/

/-- The loads that share a request take their own bytes (R200). -/
def answerSharers (s : State) (die : Nat) (l : List Sharer) : State :=
  l.foldl (fun s x => s.complete x.prod (loadWords x.sext (s.memRead die x.pa x.size))) s

/-- A request leaves home's list, and its loads are performed: its own, if it has one, and those that share it (R195, R200). -/
def answerLoads (s : State) (req : Nat) (r : HReq) (prod : Nat) (sext : Bool) : State :=
  let s1 := { s with hreqs := s.hreqs.del req }
  (if prod = 0 then s1 else s1.complete prod (loadWords sext (s.memRead r.die r.pa r.size))).answerSharers r.die r.also

/-- When a lease of the request's sector that is granted now ends (R195). -/
def leaseEnd (s : State) (r : HReq) (lease : Nat) : Nat :=
  match s.earliestW r.die r.pa with
  | some w => min (s.now r.die + lease) w
  | none => s.now r.die + lease

/-- Home records a lease on the request's sector; the largest expiry stands (R195). -/
def recordLease (s : State) (r : HReq) (e : Nat) : State :=
  { s with leases := s.leases.put (sectorKey r.die r.pa) (max e (s.leases.getD (sectorKey r.die r.pa) 0)) }

/-- The hint of a sector that the near cache holds, or `normal` (R199). -/
def heldHint (s : State) (key : Nat) : BitVec 2 :=
  match s.nc.find key with
  | some sec => sec.hint
  | none => 0

theorem heldHint_eq (s : State) (key : Nat) : s.heldHint key = ((s.nc.find key).map (·.hint)).getD 0 := by
  unfold heldHint
  cases s.nc.find key <;> rfl

/-- A copy of the request's sector under a lease is installed once the near cache has room (R25, R200). -/
def installCopy (s : State) (r : HReq) (e : Nat) : State :=
  let s1 := s.makeRoom r.die r.core r.pa
  { s1 with nc := s1.nc.put (ncKey r.die r.core r.pa) { ctx := r.ctx, bytes := (s1.memRead r.die (r.pa / 64 * 64) 64).zipIdx.map (fun (b : Byte × Nat) => (b.2, b.1)), dirty := [], expiry := some e, hint := hintOf (s1.heldHint (ncKey r.die r.core r.pa)) r.hint } }

/-- What home does for a load once it is performed: nothing without a lease; otherwise the lease, and a copy unless the core has a
partial of the line (R195, R200). -/
def grantLease (s : State) (r : HReq) (lease : Nat) (fill : Bool) : State :=
  if lease = 0 ∨ !fill then s
  else
    let s1 := s.recordLease r (s.leaseEnd r lease)
    if (s.partials.find (partKey r.die r.core r.pa)).isSome then s1 else s1.installCopy r (s.leaseEnd r lease)

theorem grantLease_none {s : State} {r : HReq} {lease : Nat} {fill : Bool} (h : lease = 0 ∨ fill = false) :
    s.grantLease r lease fill = s := if_pos (by simpa using h)
theorem grantLease_partial {s : State} {r : HReq} {lease : Nat} {fill : Bool} (hl : lease ≠ 0) (hf : fill = true)
    (hp : (s.partials.find (partKey r.die r.core r.pa)).isSome) :
    s.grantLease r lease fill = s.recordLease r (s.leaseEnd r lease) :=
  (if_neg (by simp [hl, hf])).trans (if_pos hp)
theorem grantLease_copy {s : State} {r : HReq} {lease : Nat} {fill : Bool} (hl : lease ≠ 0) (hf : fill = true)
    (hp : s.partials.find (partKey r.die r.core r.pa) = none) :
    s.grantLease r lease fill = (s.recordLease r (s.leaseEnd r lease)).installCopy r (s.leaseEnd r lease) :=
  (if_neg (by simp [hl, hf])).trans (if_neg (by simp [hp]))

theorem answerSharers_prods (s : State) (die : Nat) (l : List Sharer) : ∃ p, s.answerSharers die l = { s with prods := p } := by
  induction l generalizing s with
  | nil => exact ⟨s.prods, rfl⟩
  | cons x l ih => exact ih (s.complete x.prod (loadWords x.sext (s.memRead die x.pa x.size)))

/-- Performing the loads of a request changes the requests and the producers only. -/
theorem answerLoads_frame (s : State) (req : Nat) (r : HReq) (prod : Nat) (sext : Bool) :
    ∃ p, s.answerLoads req r prod sext = { s with hreqs := s.hreqs.del req, prods := p } := by
  by_cases h : prod = 0
  · simp only [answerLoads, if_pos h]
    exact answerSharers_prods _ r.die r.also
  · simp only [answerLoads, if_neg h]
    exact answerSharers_prods _ r.die r.also

section
variable (s : State) (req : Nat) (r : HReq) (prod : Nat) (sext : Bool)

@[simp] theorem answerLoads_memRead (d a n : Nat) : (s.answerLoads req r prod sext).memRead d a n = s.memRead d a n := by
  obtain ⟨p, h⟩ := s.answerLoads_frame req r prod sext
  rw [h]; rfl
@[simp] theorem answerLoads_leases : (s.answerLoads req r prod sext).leases = s.leases := by
  obtain ⟨p, h⟩ := s.answerLoads_frame req r prod sext
  rw [h]
@[simp] theorem answerLoads_partials : (s.answerLoads req r prod sext).partials = s.partials := by
  obtain ⟨p, h⟩ := s.answerLoads_frame req r prod sext
  rw [h]
@[simp] theorem answerLoads_leaseEnd (r' : HReq) (lease : Nat) :
    (s.answerLoads req r prod sext).leaseEnd r' lease = s.leaseEnd r' lease := by
  obtain ⟨p, h⟩ := s.answerLoads_frame req r prod sext
  rw [h]; rfl
@[simp] theorem answerLoads_stuck : (s.answerLoads req r prod sext).stuck = s.stuck := by
  obtain ⟨p, h⟩ := s.answerLoads_frame req r prod sext
  rw [h]
/-- The lease recorded after the loads is the largest of the expiries that stood before them. -/
theorem answerLoads_recordLease (e : Nat) :
    let s2 := s.answerLoads req r prod sext
    s2.recordLease r e = { s2 with leases := s2.leases.put (sectorKey r.die r.pa) (max e (s.leases.getD (sectorKey r.die r.pa) 0)) } := by
  simp only [recordLease, answerLoads_leases]
end

@[simp] theorem recordLease_memRead (s : State) (r : HReq) (e d a n : Nat) : (s.recordLease r e).memRead d a n = s.memRead d a n := rfl

end State

theorem recordLease_keeps (s : State) (r : HReq) (e : Nat) : Keeps s (s.recordLease r e) := Keeps.of
theorem installCopy_keeps (s : State) (r : HReq) (e : Nat) : Keeps s (s.installCopy r e) := (makeRoom_keeps ..).trans Keeps.of
theorem grantLease_keeps (s : State) (r : HReq) (lease : Nat) (fill : Bool) : Keeps s (s.grantLease r lease fill) :=
  Keeps.ite (Keeps.refl s) (Keeps.ite (recordLease_keeps ..) ((recordLease_keeps ..).trans (installCopy_keeps ..)))

/-- The end of a step at home: what waits for memory is tested again, and the HBM bursts are charged (R401). -/
theorem finish_served {s : State} (h : s.stuck = none) (die pa : Nat) (c : Option Nat) :
    finish (s.wakeMemory.chargeHbm die pa c) = .next (s.wakeMemory.chargeHbm die pa c) :=
  finish_next (((wakeMemory_keeps s).trans (chargeHbm_keeps ..)).sound h)

/-- A load whose turn has come is performed, and then its lease is granted. -/
theorem exec_hLoadMiss_ready {s : State} {req : Nat} {r : HReq} {lease prod n : Nat} {fill sext : Bool} (hs : s.stuck = none)
    (hf : s.hreqs.find req = some r) (hk : r.kind = .load lease fill prod sext n) (hr : s.homeReady req r = (true, s)) :
    exec (.hLoadMiss req) s =
      .next ((((s.answerLoads req r prod sext).grantLease r lease fill).wakeMemory).chargeHbm r.die r.pa (some r.ctx)) := by
  have hstuck : ((s.answerLoads req r prod sext).grantLease r lease fill).stuck = none :=
    (grantLease_keeps ..).sound (by simpa using hs)
  rw [exec_hLoadMiss, ← finish_served hstuck]
  simp only [execHLoadMiss, hf, hk, hr]
  rfl

/-- A write whose turn has come is accepted: in an H page it takes its completion time, elsewhere it is performed (R192, R196, R197). -/
theorem exec_hWriteAccept_ready {s : State} {req : Nat} {r : HReq} (hs : s.stuck = none) (hf : s.hreqs.find req = some r)
    (hw : State.isWrite r.kind = true) (hr : s.homeReady req r = (true, s)) :
    let s1 := { s with hreqs := s.hreqs.del req }
    exec (.hWriteAccept req) s = .next ((State.wakeMemory
      (if r.mode = modeH then s1.acceptH r.die r.pa r.size r.kind r.op r.thread.toList else s1.perform r.die r.pa r.size r.kind)).chargeHbm
      r.die r.pa (some r.ctx)) := by
  intro s1
  have hk : Keeps s1 (if r.mode = modeH then s1.acceptH r.die r.pa r.size r.kind r.op r.thread.toList else s1.perform r.die r.pa r.size r.kind) :=
    Keeps.ite (acceptH_keeps ..) (perform_keeps ..)
  rw [exec_hWriteAccept, ← finish_served (hk.sound hs)]
  simp only [execHWriteAccept, hf, hw, hr]
  rfl

/-- An H write of one thread becomes pending under a fresh number, with its completion time, and the thread's WCT rises (R196). -/
theorem State.acceptH_one {s : State} {k : Nat} {t : Thread} (ht : s.threads.find k = some t) (die pa size : Nat) (kind : HKind)
    (op : Option Nat) :
    let w := s.writeTime die pa
    s.acceptH die pa size kind op [k] =
      { s with
        nextId := s.nextId + 1
        pwrites := s.pwrites.put s.nextId { die := die, pa := pa, size := size, kind := kind, w := w, threads := [k], op := op }
        threads := s.threads.put k { t with wct := BitVec.ofNat 64 (if t.wctAway then w else max t.wct.toNat w), wctAway := false } } := by
  simp only [acceptH, newId, List.foldl_cons, List.foldl_nil, raiseWct, ht]
  rfl

/-- Settles O26: a load whose turn has come is performed and granted its lease, and a write is accepted with its completion time. -/
theorem homeServes : Obligations.HomeServes := by
  unfold Obligations.HomeServes
  refine ⟨?load, ?write, ?accept⟩
  case load =>
    intro s req r lease prod n fill sext hs hf hk hr s1 sole s2 e s3 done s4 old
    have hrun := exec_hLoadMiss_ready hs hf hk hr
    refine ⟨fun hno => ?none, fun hl hy hp => ?held, fun hl hy hp => ?copy⟩
    case none =>
      rw [State.grantLease_none hno] at hrun
      exact hrun
    case held =>
      rw [State.grantLease_partial hl hy (by simpa using hp), State.answerLoads_leaseEnd, State.answerLoads_recordLease] at hrun
      exact hrun
    case copy =>
      rw [State.grantLease_copy hl hy (by simpa using hp), State.answerLoads_leaseEnd] at hrun
      simp only [State.installCopy, State.makeRoom_memRead, State.recordLease_memRead, State.answerLoads_memRead, State.heldHint_eq] at hrun
      rw [State.answerLoads_recordLease] at hrun
      exact hrun
  case write =>
    intro s req r hs hf hw hr
    exact exec_hWriteAccept_ready hs hf hw hr
  case accept =>
    intro s die pa size k kind t ht expiry emax w u
    have hu : u = _ := State.acceptH_one ht die pa size kind none
    rw [hu]
    exact ⟨Tbl.find_put_self .., Tbl.find_put_self .., fun j hj => Tbl.find_put_ne _ _ hj, rfl, rfl⟩

end Sys2Proof.Machine
end

section
/-! PROOF. HDOT2: the exact sum of two products and `c`, rounded once (R61, R160). -/

namespace Sys2Proof.Machine

theorem exec_hdot2 (q : Ctl) (d a b c : Opd) (rm : Rm) (bf : Bool) (s : State) :
    exec (.hdot2 q d a b c rm bf) s =
      runAlu (.hdot2 q d a b c rm bf) (fun s m => m.t.writeF d (hdot2F rm bf (s.src m a) (s.src m b) (s.src m c))) s := rfl

theorem toNat_extractLsb'_eq_bitsOf {n : Nat} (x : BitVec n) (lo len : Nat) : (x.extractLsb' lo len).toNat = bitsOf x.toNat lo len := by
  rw [BitVec.extractLsb'_toNat, Nat.shiftRight_eq_div_pow, bitsOf]

/-- The value of half `i` of a word is the value that its format gives to those 16 bits. -/
theorem hv_eq_fval (bf : Bool) (x : W32) (i : Nat) : hv bf x i = fval (if bf then bf16 else f16) (x.extractLsb' (16 * i) 16).toNat := by
  rw [toNat_extractLsb'_eq_bitsOf]; rfl

/-- Settles O7: what HDOT2 computes is one exact sum of R61, read from the halves of its operands. -/
theorem dotProductResult : Obligations.DotProductResult := by
  unfold Obligations.DotProductResult
  intro q d a b c rm bf
  refine computes_of_alu (exec_hdot2 q d a b c rm bf) (fun s k x m => ?dep) (fun s m => ?frame) (fun s m => ?value)
  case dep => simp only [src_setThread]
  case frame => exact Thread.writeF_frame ..
  case value => simp only [hdot2F, hv_eq_fval, fw, nanF32, Nat.mul_zero, Nat.mul_one, if_true]

end Sys2Proof.Machine
end

section
/-! PROOF. The accumulator and the scratchpad as a matrix operation reads and writes them (R229, R271), and the end of a matrix
operation, which leaves both as the operation made them (R284). -/

namespace Sys2Proof.Tbl

variable {α : Type}

/-- The bound up to which a canonical table has no key. -/
def above (n : Nat) (t : Tbl α) : Prop := ∀ e ∈ t, n < e.1

theorem find_above {n j : Nat} {t : Tbl α} (h : above n t) (hj : j ≤ n) : find t j = none := by
  induction t with
  | nil => rfl
  | cons e t ih =>
    have he : n < e.1 := h e List.mem_cons_self
    rw [find, if_neg (by omega)]
    exact ih fun x hx => h x (List.mem_cons_of_mem _ hx)

theorem wf_cons (k : Nat) (v : α) (t : Tbl α) : wf ((k, v) :: t) = true ↔ above k t ∧ wf t = true := by
  induction t generalizing k v with
  | nil => simp [wf, above]
  | cons e t ih =>
    obtain ⟨k', v'⟩ := e
    simp only [wf, Bool.and_eq_true, decide_eq_true_eq]
    refine and_congr_left fun hw => ⟨fun hk x hx => ?_, fun h => h (k', v') List.mem_cons_self⟩
    rcases List.mem_cons.1 hx with rfl | hx
    · exact hk
    · exact Nat.lt_trans hk (((ih k' v').1 hw).1 x hx)

theorem above_put {n i : Nat} {t : Tbl α} (x : α) (h : above n t) (hi : n < i) : above n (put t i x) := by
  induction t with
  | nil => exact fun e he => by simp only [put, List.mem_singleton] at he; subst he; exact hi
  | cons e t ih =>
    have he : n < e.1 := h e List.mem_cons_self
    have ht : above n t := fun y hy => h y (List.mem_cons_of_mem _ hy)
    have hcons {k : Nat} {v : α} {u : Tbl α} (hk : n < k) (hu : above n u) : above n ((k, v) :: u) :=
      fun y hy => (List.mem_cons.1 hy).elim (fun e => e ▸ hk) (hu y)
    simp only [put]
    split
    · exact hcons hi h
    · split
      · exact hcons hi ht
      · exact hcons he (ih ht)

theorem del_subset (t : Tbl α) (i : Nat) : ∀ e ∈ del t i, e ∈ t := by
  induction t with
  | nil => exact fun e he => he
  | cons x t ih =>
    intro e he
    simp only [del] at he
    split at he
    · exact List.mem_cons_of_mem _ he
    · exact (List.mem_cons.1 he).elim (fun h => h ▸ List.mem_cons_self) fun h => List.mem_cons_of_mem _ (ih e h)

theorem wf_put (t : Tbl α) (i : Nat) (x : α) (h : wf t = true) : wf (put t i x) = true := by
  induction t with
  | nil => rfl
  | cons e t ih =>
    obtain ⟨k, v⟩ := e
    obtain ⟨hk, ht⟩ := (wf_cons k v t).1 h
    simp only [put]
    split
    · next hik =>
      refine (wf_cons ..).2 ⟨fun y hy => ?_, h⟩
      exact (List.mem_cons.1 hy).elim (fun e => e ▸ hik) fun hy => Nat.lt_trans hik (hk y hy)
    · split
      · next hik => exact (wf_cons ..).2 ⟨hik ▸ hk, ht⟩
      · exact (wf_cons ..).2 ⟨above_put x hk (by omega), ih ht⟩

theorem wf_del (t : Tbl α) (i : Nat) (h : wf t = true) : wf (del t i) = true := by
  induction t with
  | nil => rfl
  | cons e t ih =>
    obtain ⟨k, v⟩ := e
    obtain ⟨hk, ht⟩ := (wf_cons k v t).1 h
    simp only [del]
    split
    · exact ht
    · exact (wf_cons ..).2 ⟨fun y hy => hk y (del_subset t i y hy), ih ht⟩

theorem find_del_self (t : Tbl α) (i : Nat) (h : wf t = true) : find (del t i) i = none := by
  induction t with
  | nil => rfl
  | cons e t ih =>
    obtain ⟨k, v⟩ := e
    obtain ⟨hk, ht⟩ := (wf_cons k v t).1 h
    simp only [del]
    split
    · next hik => exact find_above hk (Nat.le_of_eq hik)
    · next hik => rw [find, if_neg hik, ih ht]

theorem wf_putD [DecidableEq α] (t : Tbl α) (i : Nat) (d x : α) (h : wf t = true) : wf (putD t i d x) = true := by
  rw [putD]
  split
  · exact wf_del t i h
  · exact wf_put t i x h

/-- Reading a canonical table after a write that lists no default. -/
theorem getD_putD [DecidableEq α] (t : Tbl α) (i j : Nat) (d x : α) (h : wf t = true) :
    getD (putD t i d x) j d = if j = i then x else getD t j d := by
  rw [putD]
  split
  · next hx =>
    by_cases hj : j = i
    · rw [getD, hj, find_del_self t i h, if_pos rfl, hx, Option.getD_none]
    · rw [getD, find_del_ne t hj, if_neg hj, getD]
  · exact getD_put t i j x d

/-- A change of every entry that keeps the keys. -/
theorem find_map (t : Tbl α) (f : Nat × α → Nat × α) (hf : ∀ e, (f e).1 = e.1) (k : Nat) :
    find (t.map f) k = (find t k).map fun x => (f (k, x)).2 := by
  induction t with
  | nil => rfl
  | cons e t ih =>
    obtain ⟨j, x⟩ := e
    have hj : f (j, x) = (j, (f (j, x)).2) := Prod.ext (hf _) rfl
    rw [List.map_cons, hj, find, find, ih]
    by_cases hk : k = j
    · simp [hk]
    · simp [hk]

theorem mem_of_find {t : Tbl α} {k : Nat} {x : α} (h : find t k = some x) : (k, x) ∈ t := by
  induction t with
  | nil => cases h
  | cons e t ih =>
    obtain ⟨j, y⟩ := e
    rw [find] at h
    split at h
    · next hk => cases h; exact hk ▸ List.mem_cons_self
    · exact List.mem_cons_of_mem _ (ih h)

/-- In a table that lists no key twice, each entry listed is the one found. -/
theorem find_of_mem {t : Tbl α} (hk : (t.map (·.1)).Nodup) {e : Nat × α} (h : e ∈ t) : find t e.1 = some e.2 := by
  induction t with
  | nil => cases h
  | cons x t ih =>
    obtain ⟨hx, ht⟩ := List.nodup_cons.1 hk
    rw [find]
    rcases List.mem_cons.1 h with rfl | h
    · exact if_pos rfl
    · rw [if_neg fun he => hx (List.mem_map.2 ⟨e, h, he⟩), ih ht h]

theorem find_ne_none_of_mem {t : Tbl α} {k : Nat} {x : α} (h : (k, x) ∈ t) : find t k ≠ none := by
  induction t with
  | nil => cases h
  | cons e t ih =>
    rw [find]
    split
    · exact nofun
    · next hk => exact ih ((List.mem_cons.1 h).resolve_left fun e => hk (congrArg Prod.fst e))

end Sys2Proof.Tbl

namespace Sys2Proof.Machine

open Host (Cell)

/-! ## Runs of steps -/

/-- What every step of a run keeps, the run keeps. -/
theorem foldl_eq_of_step {σ ι β : Type} {f : σ → ι → σ} (v : σ → β) (h : ∀ s x, v (f s x) = v s) (l : List ι) (s : σ) :
    v (l.foldl f s) = v s := by
  induction l generalizing s with
  | nil => rfl
  | cons x l ih => rw [List.foldl_cons, ih, h]

section
variable {σ ι β : Type} {f : σ → ι → σ} {inv : σ → Prop} {l : List ι}

theorem foldl_inv (hinv : ∀ s, inv s → ∀ y ∈ l, inv (f s y)) {s : σ} (hs : inv s) : inv (l.foldl f s) := by
  induction l generalizing s with
  | nil => exact hs
  | cons x l ih => exact ih (fun s h y hy => hinv s h y (List.mem_cons_of_mem _ hy)) (hinv s hs x List.mem_cons_self)

/-- A view that no step of a run changes, where an invariant holds. -/
theorem foldl_view_eq {v : σ → β} (hinv : ∀ s, inv s → ∀ y ∈ l, inv (f s y)) (hv : ∀ s, inv s → ∀ y ∈ l, v (f s y) = v s) {s : σ}
    (hs : inv s) : v (l.foldl f s) = v s :=
  (foldl_inv (inv := fun t => inv t ∧ v t = v s) (fun t ht y hy => ⟨hinv t ht.1 y hy, (hv t ht.1 y hy).trans ht.2⟩) ⟨hs, rfl⟩).2

/-- A view that only the step `x` of a run changes is, at the end, what that step makes of a state with the first view. -/
theorem foldl_view_visit {v : σ → β} {x : ι} (hx : x ∈ l) (hl : l.Nodup) (hinv : ∀ s, inv s → ∀ y ∈ l, inv (f s y))
    (hv : ∀ s, inv s → ∀ y ∈ l, y ≠ x → v (f s y) = v s) {s : σ} (hs : inv s) :
    ∃ t, inv t ∧ v t = v s ∧ v (l.foldl f s) = v (f t x) := by
  obtain ⟨l1, l2, rfl⟩ := List.append_of_mem hx
  obtain ⟨-, hl2, hd⟩ := List.nodup_append.1 hl
  have hm1 {y : ι} (hy : y ∈ l1) : y ∈ l1 ++ x :: l2 := List.mem_append_left _ hy
  have hm2 {y : ι} (hy : y ∈ l2) : y ∈ l1 ++ x :: l2 := List.mem_append_right _ (List.mem_cons_of_mem _ hy)
  have h1 : inv (l1.foldl f s) := foldl_inv (fun s h y hy => hinv s h y (hm1 hy)) hs
  refine ⟨l1.foldl f s, h1, ?before, ?after⟩
  case before =>
    exact foldl_view_eq (fun s h y hy => hinv s h y (hm1 hy))
      (fun s h y hy => hv s h y (hm1 hy) (hd y hy x List.mem_cons_self)) hs
  case after =>
    rw [List.foldl_append, List.foldl_cons]
    exact foldl_view_eq (fun s h y hy => hinv s h y (hm2 hy))
      (fun s h y hy => hv s h y (hm2 hy) fun e => (List.nodup_cons.1 hl2).1 (e ▸ hy)) (hinv _ h1 x hx)

end

/-- The pairs of two lists, those of the first element first. -/
def pairsOf {ι κ : Type} (l : List ι) (l' : List κ) : List (ι × κ) := l.flatMap fun x => l'.map fun y => (x, y)

section
variable {ι κ : Type} {l : List ι} {l' : List κ}

theorem pairsOf_cons (x : ι) : pairsOf (x :: l) l' = (l'.map fun y => (x, y)) ++ pairsOf l l' := List.flatMap_cons

theorem mem_pairsOf {p : ι × κ} : p ∈ pairsOf l l' ↔ p.1 ∈ l ∧ p.2 ∈ l' := by
  simp only [pairsOf, List.mem_flatMap, List.mem_map]
  constructor
  · rintro ⟨x, hx, y, hy, rfl⟩
    exact ⟨hx, hy⟩
  · exact fun h => ⟨p.1, h.1, p.2, h.2, rfl⟩

theorem nodup_pairsOf (hl : l.Nodup) (hl' : l'.Nodup) : (pairsOf l l').Nodup := by
  induction l with
  | nil => exact List.nodup_nil
  | cons x l ih =>
    obtain ⟨hx, hl⟩ := List.nodup_cons.1 hl
    rw [pairsOf_cons]
    refine List.nodup_append.2 ⟨List.pairwise_map.2 (hl'.imp fun hne e => hne (congrArg Prod.snd e)), ih hl, ?_⟩
    rintro p hp q hq rfl
    obtain ⟨y, -, rfl⟩ := List.mem_map.1 hp
    exact hx (mem_pairsOf.1 hq).1

end

/-- A run within a run is one run over the pairs. -/
theorem foldl_pairsOf {σ ι κ : Type} (f : σ → ι → κ → σ) (l : List ι) (l' : List κ) (s : σ) :
    (pairsOf l l').foldl (fun s p => f s p.1 p.2) s = l.foldl (fun s x => l'.foldl (fun s y => f s x y) s) s := by
  induction l generalizing s with
  | nil => rfl
  | cons x l ih => rw [pairsOf_cons, List.foldl_append, List.foldl_map, ih]; rfl

/-! ## Bytes -/

theorem cellsGet_congr {m m' : List Cell} {a n : Nat} (h : ∀ b, a ≤ b → b < a + n → cellGet m b = cellGet m' b) :
    cellsGet m a n = cellsGet m' a n := by
  induction n generalizing a with
  | zero => rfl
  | succ n ih => rw [cellsGet, cellsGet, h a (Nat.le_refl a) (by omega), ih fun b h1 h2 => h b (by omega) (by omega)]

theorem cellsGet_cellsSet_out (m : List Cell) (a b n : Nat) (bs : List Byte) (h : Memory.wf m = true)
    (hd : b + n ≤ a ∨ a + bs.length ≤ b) : cellsGet (cellsSet m a bs) b n = cellsGet m b n :=
  cellsGet_congr fun c _ _ => cellGet_cellsSet_out m a c bs h (by omega)

@[simp] theorem length_leBytes (n v : Nat) : (leBytes n v).length = n := by
  induction n generalizing v with
  | zero => rfl
  | succ n ih => rw [leBytes, List.length_cons, ih]

/-- A word whose halves are two codes has the bytes of the low code, then those of the high one (R4). -/
theorem w32Bytes_append (hi lo : BitVec 16) : w32Bytes (hi ++ lo) = leBytes 2 lo.toNat ++ leBytes 2 hi.toNat := by
  have hn : (hi ++ lo).toNat = hi.toNat * 65536 + lo.toNat := by
    rw [BitVec.toNat_append, ← Nat.shiftLeft_add_eq_or_of_lt lo.isLt, Nat.shiftLeft_eq]
  have hlo := lo.isLt
  simp only [w32Bytes, hn, leBytes, List.cons_append, List.nil_append, List.cons.injEq, and_true]
  refine ⟨?_, ?_, ?_, ?_⟩ <;> apply BitVec.eq_of_toNat_eq <;> simp only [BitVec.toNat_ofNat] <;> omega

namespace State

/-! ## The cells and the scratchpad of a group -/

/-- What a group's accumulator and scratchpad hold. -/
def store (s : State) (gid : Nat) : Option (Tbl W32 × List Cell) := (s.groups.find gid).map fun g => (g.acc, g.spad)

theorem accGet_eq_store (s : State) (gid r c : Nat) :
    s.accGet gid r c = match s.store gid with | some x => x.1.getD (cellKey r c) 0 | none => 0 := by
  rw [accGet, store]
  cases s.groups.find gid <;> rfl
theorem spadRead_eq_store (s : State) (gid a n : Nat) :
    s.spadRead gid a n = match s.store gid with | some x => cellsGet x.2 a n | none => List.replicate n 0 := by
  rw [spadRead, store]
  cases s.groups.find gid <;> rfl

theorem accGet_congr {s t : State} {gid : Nat} (h : s.store gid = t.store gid) (r c : Nat) : s.accGet gid r c = t.accGet gid r c := by
  rw [accGet_eq_store, accGet_eq_store, h]
theorem spadRead_congr {s t : State} {gid : Nat} (h : s.store gid = t.store gid) (a n : Nat) :
    s.spadRead gid a n = t.spadRead gid a n := by
  rw [spadRead_eq_store, spadRead_eq_store, h]
theorem store_of_groups {s t : State} (h : t.groups = s.groups) (gid : Nat) : t.store gid = s.store gid := by rw [store, h, store]

/-- A group that exists, with its cells and its scratchpad in canonical form, and with no access that waits for a word. -/
def Calm (gid : Nat) (s : State) : Prop :=
  ∃ g, s.groups.find gid = some g ∧ Tbl.wf g.acc = true ∧ Memory.wf g.spad = true ∧ g.tagWaits = []

theorem calm_updGroup {s : State} {gid : Nat} {f : Group → Group} (h : Calm gid s)
    (hacc : ∀ g, Tbl.wf g.acc = true → Tbl.wf (f g).acc = true) (hspad : ∀ g, Memory.wf g.spad = true → Memory.wf (f g).spad = true)
    (hw : ∀ g, (f g).tagWaits = g.tagWaits) : Calm gid (s.updGroup gid f) := by
  obtain ⟨g, hg, ha, hs, ht⟩ := h
  exact ⟨f g, by simp [hg], hacc g ha, hspad g hs, (hw g).trans ht⟩

/-! ### Cells -/

section
variable {s : State} {gid : Nat}

theorem accSet_calm (h : Calm gid s) (r c : Nat) (v : W32) : Calm gid (s.accSet gid r c v) :=
  calm_updGroup h (fun g hg => Tbl.wf_putD g.acc _ 0 v hg) (fun _ hg => hg) fun _ => rfl

theorem cellKey_inj {r r' c c' : Nat} (hc : c < 512) (hc' : c' < 512) : cellKey r' c' = cellKey r c ↔ r' = r ∧ c' = c := by
  simp only [cellKey]; omega

/-- Read after write of the accumulator (R271). -/
theorem accGet_accSet (h : Calm gid s) {c c' : Nat} (hc : c < 512) (hc' : c' < 512) (r r' : Nat) (v : W32) :
    (s.accSet gid r c v).accGet gid r' c' = if r' = r ∧ c' = c then v else s.accGet gid r' c' := by
  obtain ⟨g, hg, ha, -, -⟩ := h
  simp only [accGet, accSet, updGroup_groups, Tbl.find_upd_self, hg, Option.map_some, Tbl.getD_putD _ _ _ _ _ ha, cellKey_inj hc hc']

theorem accGet_accSet_self (h : Calm gid s) {c : Nat} (hc : c < 512) (r : Nat) (v : W32) :
    (s.accSet gid r c v).accGet gid r c = v := by
  rw [accGet_accSet h hc hc, if_pos ⟨rfl, rfl⟩]
theorem accGet_accSet_ne (h : Calm gid s) {r r' c c' : Nat} (hc : c < 512) (hc' : c' < 512) (hne : ¬ (r' = r ∧ c' = c)) (v : W32) :
    (s.accSet gid r c v).accGet gid r' c' = s.accGet gid r' c' := by
  rw [accGet_accSet h hc hc', if_neg hne]

@[simp] theorem spadRead_accSet (s : State) (gid r c : Nat) (v : W32) (a n : Nat) :
    (s.accSet gid r c v).spadRead gid a n = s.spadRead gid a n := by
  simp only [spadRead, accSet, updGroup_groups, Tbl.find_upd_self]
  cases s.groups.find gid <;> rfl

/-! ### Scratchpad bytes -/

/-- With no access that waits, a write of the scratchpad changes its bytes only. -/
theorem spadWrite_eq_updGroup (h : Calm gid s) (off : Nat) (bs : List Byte) :
    s.spadWrite gid off bs = s.updGroup gid fun g => { g with spad := cellsSet g.spad off bs } := by
  obtain ⟨g, hg, -, -, ht⟩ := h
  have hf : (s.updGroup gid fun g => { g with spad := cellsSet g.spad off bs }).groups.find gid =
      some { g with spad := cellsSet g.spad off bs } := by simp [hg]
  rw [spadWrite, settleWords]
  generalize (s.updGroup gid fun g => { g with spad := cellsSet g.spad off bs }) = t at hf ⊢
  induction wordsIn off bs.length with
  | nil => rfl
  | cons w ws ih => simpa [hf, ht] using ih

theorem spadWrite_calm (h : Calm gid s) (off : Nat) (bs : List Byte) : Calm gid (s.spadWrite gid off bs) := by
  rw [spadWrite_eq_updGroup h]
  exact calm_updGroup h (fun _ hg => hg) (fun g hg => cellsSet_wf g.spad off bs hg) fun _ => rfl

theorem accGet_spadWrite (h : Calm gid s) (off : Nat) (bs : List Byte) (r c : Nat) :
    (s.spadWrite gid off bs).accGet gid r c = s.accGet gid r c := by
  rw [spadWrite_eq_updGroup h]
  simp only [accGet, updGroup_groups, Tbl.find_upd_self]
  cases s.groups.find gid <;> rfl

theorem spadRead_spadWrite_self (h : Calm gid s) {off n : Nat} {bs : List Byte} (hn : bs.length = n) :
    (s.spadWrite gid off bs).spadRead gid off n = bs := by
  rw [spadWrite_eq_updGroup h]
  obtain ⟨g, hg, -, hs, -⟩ := h
  simp only [spadRead, updGroup_groups, Tbl.find_upd_self, hg, Option.map_some, ← hn, cellsGet_cellsSet _ _ _ hs]

theorem spadRead_spadWrite_out (h : Calm gid s) {off a n : Nat} {bs : List Byte} (hd : a + n ≤ off ∨ off + bs.length ≤ a) :
    (s.spadWrite gid off bs).spadRead gid a n = s.spadRead gid a n := by
  rw [spadWrite_eq_updGroup h]
  obtain ⟨g, hg, -, hs, -⟩ := h
  simp only [spadRead, updGroup_groups, Tbl.find_upd_self, hg, Option.map_some, cellsGet_cellsSet_out _ _ _ _ _ hs hd]

end

/-! ## What the end of an operation leaves of a group -/

section
variable (s : State)

@[simp] theorem ready_groups (k : Nat) : (s.ready k).groups = s.groups := rfl
@[simp] theorem wakeIf_groups (p : Wait → Bool) (k : Nat) : (s.wakeIf p k).groups = s.groups := by
  unfold wakeIf
  split
  · split
    · split <;> rfl
    · rfl
  · rfl
@[simp] theorem wakeAll_groups (p : Nat → Wait → Bool) : (s.wakeAll p).groups = s.groups :=
  foldl_eq_of_step State.groups (fun s k => wakeIf_groups s (p k) k) _ s
@[simp] theorem wakeScore_groups (die core : Nat) : (s.wakeScore die core).groups = s.groups := wakeAll_groups ..
@[simp] theorem wakeCounters_groups (wid : Nat) : (s.wakeCounters wid).groups = s.groups := by
  unfold wakeCounters
  split
  · rfl
  · exact foldl_eq_of_step State.groups (fun s _ => wakeIf_groups s _ _) _ s

@[simp] theorem grantWaiters_groups (die core kind : Nat) (free : State → Nat) (n : Nat) :
    (s.grantWaiters die core kind free n).groups = s.groups := by
  induction n generalizing s with
  | zero => rfl
  | succ n ih =>
    simp only [grantWaiters]
    split
    · rfl
    · split
      · rfl
      · rw [ih]
        exact foldl_eq_of_step State.groups (by intros; rfl) _ s
@[simp] theorem returnTile_groups (die core t : Nat) : (s.returnTile die core t).groups = s.groups := by
  unfold returnTile
  split
  · rfl
  · exact grantWaiters_groups ..

@[simp] theorem reportWarp_groups (wid : Nat) : (s.reportWarp wid).groups = s.groups := by
  simp only [reportWarp]
  split
  · rfl
  · split
    · rfl
    · rw [wakeAll_groups, wakeCounters_groups]
      exact foldl_eq_of_step State.groups (by intros; rfl) _ _
@[simp] theorem completeSeqs_groups (wid : Nat) (seqs : List Nat) (defer : List (Nat × Cause × W32)) :
    (s.completeSeqs wid seqs defer).groups = s.groups := reportWarp_groups ..

/-- An operation that ends its use of tiles changes handles, and no cell or byte of a group. -/
theorem endUser_store (die core op gid : Nat) : (s.endUser die core op).store gid = s.store gid := by
  refine foldl_eq_of_step (fun t => t.store gid) (fun s t => ?_) _ s
  rw [store_of_groups (wakeScore_groups ..), store_of_groups (returnTile_groups ..), store, store]
  dsimp only
  rw [Tbl.find_map _ _ fun e => by split <;> rfl, updTile]
  cases s.groups.find gid with
  | none => rfl
  | some g =>
    simp only [Option.map_some, Option.some.injEq]
    split <;> rfl

theorem charge_store (gid cls qty k : Nat) : (s.charge gid cls qty).store k = s.store k := by
  unfold charge
  cases hg : s.groups.find gid with
  | none => rfl
  | some g =>
    simp only [store, setGroup_groups, Tbl.find_put]
    split
    · next hk => rw [hk, hg]; rfl
    · rfl

end

/-- What a matrix operation leaves when it ends, and the flags that it raises (R284). -/
def matrixResult (s : State) (o : MOp) : State × Flags :=
  if o.op = 0xD3 then (s.runPhfin o, 0) else if o.op = 0xD4 then s.runQnt o else s.runSigned o

end State

theorem exec_matrixComplete (die core : Nat) (s : State) : exec (.matrixComplete die core) s = execMatrixComplete die core s := rfl

theorem charge_keeps (s : State) (gid cls qty : Nat) : Keeps s (s.charge gid cls qty) := by
  unfold State.charge
  split
  · exact Keeps.refl s
  · exact setGroup_keeps ..

section
variable {ι : Type} {f : State × Flags → ι → State × Flags}

theorem foldl_fst_keeps (hf : ∀ a x, Keeps a.1 (f a x).1) (l : List ι) (a : State × Flags) : Keeps a.1 (l.foldl f a).1 := by
  induction l generalizing a with
  | nil => exact Keeps.refl _
  | cons x l ih => exact (hf a x).trans (ih _)
end

theorem runSigned_keeps (s : State) (o : MOp) : Keeps s (s.runSigned o).1 := by
  refine foldl_fst_keeps (fun a e => foldl_fst_keeps (fun a c => ?_) _ a) _ (s, 0)
  dsimp only
  split
  · exact (accSet_keeps ..).trans (accSet_keeps ..)
  · exact accSet_keeps ..

theorem runPhfin_keeps (s : State) (o : MOp) : Keeps s (s.runPhfin o) := by
  refine Keeps.foldl (fun s r => Keeps.foldl (fun s c => ?_) _ s) _ s
  exact (Keeps.ite ((accSet_keeps ..).trans (accSet_keeps ..)) (Keeps.refl s)).trans (spadWrite_keeps ..)

theorem runQnt_keeps (s : State) (o : MOp) : Keeps s (s.runQnt o).1 := by
  refine foldl_fst_keeps (fun a r => foldl_fst_keeps (fun a b => ?_) _ a) _ (s, 0)
  exact ((Keeps.ite (Keeps.foldl (fun _ _ => accSet_keeps ..) _ _) (Keeps.refl _)).trans (spadWrite_keeps ..)).trans (spadWrite_keeps ..)

theorem matrixResult_keeps (s : State) (o : MOp) : Keeps s (s.matrixResult o).1 := by
  unfold State.matrixResult
  split
  · exact runPhfin_keeps s o
  · split
    · exact runQnt_keeps s o
    · exact runSigned_keeps s o

/-- The end of an operation past its results: its flags, its place in the queue, the use of its tile, its energy and its reports (R284). -/
def State.matrixEnd (die core id : Nat) (o : MOp) (r : State × Flags) : State :=
  let s := o.members.foldl (fun s k => s.updThread k fun t => t.orFlags r.2) r.1
  let s := { s with mops := s.mops.del id }.endUser die core o.user
  (s.charge o.group (energyClass o.op) (if o.op < 0xD3 then o.rows.length else coordRow o.extent * coordCol o.extent)).completeSeqs o.warp o.seqs []

section
variable (die core id : Nat) (o : MOp) (r : State × Flags)

theorem matrixEnd_keeps : Keeps r.1 (State.matrixEnd die core id o r) := by
  have hm : Keeps r.1 (o.members.foldl (fun s k => s.updThread k fun t => t.orFlags r.2) r.1) :=
    Keeps.foldl (fun _ _ => updThread_keeps ..) _ _
  have hd (s : State) : Keeps s { s with mops := s.mops.del id } := Keeps.of
  exact (hm.trans (hd _)).trans ((endUser_keeps ..).trans ((charge_keeps ..).trans (completeSeqs_keeps ..)))

theorem matrixEnd_store (gid : Nat) : (State.matrixEnd die core id o r).store gid = r.1.store gid := by
  have hm : (o.members.foldl (fun s k => s.updThread k fun t => t.orFlags r.2) r.1).groups = r.1.groups :=
    foldl_eq_of_step State.groups (by intros; rfl) _ _
  rw [State.matrixEnd, State.store_of_groups (State.completeSeqs_groups ..), State.charge_store, State.endUser_store]
  exact State.store_of_groups hm gid

end

/-- The running operation of an engine ends in a next state, whose cells and scratchpads are those that the operation leaves. -/
theorem exec_matrixComplete_running {s : State} {die core id : Nat} {o : MOp} (hs : s.stuck = none)
    (hf : (s.mops.find? fun e => e.2.die == die && e.2.core == core && e.2.running) = some (id, o)) :
    Goes (.matrixComplete die core) s fun u => ∀ gid, u.store gid = (s.matrixResult o).1.store gid := by
  have he : exec (.matrixComplete die core) s = finish (State.matrixEnd die core id o (s.matrixResult o)) := by
    rw [exec_matrixComplete, execMatrixComplete, hf]; rfl
  have hk := (matrixResult_keeps s o).trans (matrixEnd_keeps die core id o (s.matrixResult o))
  exact ⟨_, he.trans (finish_next (hk.sound hs)), matrixEnd_store die core id o _⟩

end Sys2Proof.Machine
end

section
/-! PROOF. The runs of a matrix operation over rows and columns: what each of their steps changes (R280, R290, R291). -/

namespace Sys2Proof.Machine

open Host (Cell)

/-! ## Places in row-major order -/

theorem rowMajor_lt {m n r i : Nat} (hr : r < m) (hi : i < n) : r * n + i < m * n :=
  calc r * n + i < r * n + n := by omega
    _ = (r + 1) * n := (Nat.succ_mul r n).symm
    _ ≤ m * n := Nat.mul_le_mul_right n hr

theorem rowMajor_inj {n r r' i i' : Nat} (hi : i < n) (hi' : i' < n) (h : r * n + i = r' * n + i') : r = r' ∧ i = i' := by
  have hn : 0 < n := by omega
  have key {q j : Nat} (hj : j < n) : (q * n + j) / n = q := by
    rw [Nat.add_comm, Nat.add_mul_div_right _ _ hn, Nat.div_eq_of_lt hj, Nat.zero_add]
  have hr : r = r' := by rw [← key (q := r) hi, h, key hi']
  exact ⟨hr, by subst hr; omega⟩

namespace State

theorem spadRead_eq_map (s : State) (gid a n : Nat) :
    s.spadRead gid a n = (List.range n).map fun i => (s.spadRead gid (a + i) 1).headD 0 := by
  rw [spadRead]
  cases hg : s.groups.find gid with
  | none => simp [spadRead, hg, List.map_const']
  | some g =>
    simp only [spadRead, hg, cellsGet, List.headD_cons]
    induction n generalizing a with
    | zero => rfl
    | succ n ih => simp [cellsGet, ih, List.range_succ_eq_map, Nat.add_comm, Nat.add_left_comm, Function.comp_def]

/-- A run of scratchpad bytes is given by its bytes. -/
theorem spadRead_eq_of_bytes {s t : State} {gid a n : Nat} (h : ∀ i, i < n → s.spadRead gid (a + i) 1 = t.spadRead gid (a + i) 1) :
    s.spadRead gid a n = t.spadRead gid a n := by
  rw [spadRead_eq_map, spadRead_eq_map t]
  exact List.map_congr_left fun i hi => by rw [h i (List.mem_range.1 hi)]

end State

/-! ## Runs of steps that each have places of their own -/

section
variable {σ ι : Type}

/-- A run `l` of steps on a group's cells and scratchpad: each keeps the group calm and changes at most the cells and the bytes that
are its own. -/
structure OwnPlaces (gid : Nat) (st : σ → State) (f : σ → ι → σ) (l : List ι) (cells : ι → Nat → Nat → Prop) (bytes : ι → Nat → Prop) :
    Prop where
  calm  : ∀ s, (st s).Calm gid → ∀ x ∈ l, (st (f s x)).Calm gid
  cells : ∀ s, (st s).Calm gid → ∀ x ∈ l, ∀ r c, c < 512 → ¬ cells x r c → (st (f s x)).accGet gid r c = (st s).accGet gid r c
  bytes : ∀ s, (st s).Calm gid → ∀ x ∈ l, ∀ a, ¬ bytes x a → (st (f s x)).spadRead gid a 1 = (st s).spadRead gid a 1

namespace OwnPlaces

variable {gid : Nat} {st : σ → State} {f : σ → ι → σ} {l : List ι} {cells : ι → Nat → Nat → Prop} {bytes : ι → Nat → Prop}
  (h : OwnPlaces gid st f l cells bytes) {s : σ} (hs : (st s).Calm gid)
include h hs

/-- A cell that is no step's own stays. -/
theorem cell_kept {r c : Nat} (hc : c < 512) (hn : ∀ x ∈ l, ¬ cells x r c) :
    (st (l.foldl f s)).accGet gid r c = (st s).accGet gid r c :=
  foldl_view_eq (inv := fun s => (st s).Calm gid) (v := fun s => (st s).accGet gid r c) h.calm
    (fun s hs x hx => h.cells s hs x hx r c hc (hn x hx)) hs

/-- A byte that is no step's own stays. -/
theorem byte_kept {a : Nat} (hn : ∀ x ∈ l, ¬ bytes x a) : (st (l.foldl f s)).spadRead gid a 1 = (st s).spadRead gid a 1 :=
  foldl_view_eq (inv := fun s => (st s).Calm gid) (v := fun s => (st s).spadRead gid a 1) h.calm
    (fun s hs x hx => h.bytes s hs x hx a (hn x hx)) hs

/-- A step whose cells and bytes are no other step's meets its cells as they were before the run, and leaves its cells and bytes
as they are after it. -/
theorem visit {x : ι} (hx : x ∈ l) (hl : l.Nodup) (hcells : ∀ y ∈ l, y ≠ x → ∀ r c, cells x r c → ¬ cells y r c)
    (hbytes : ∀ y ∈ l, y ≠ x → ∀ a, bytes x a → ¬ bytes y a) :
    ∃ t, (st t).Calm gid ∧ (∀ r c, c < 512 → cells x r c → (st t).accGet gid r c = (st s).accGet gid r c) ∧
      (∀ r c, c < 512 → cells x r c → (st (l.foldl f s)).accGet gid r c = (st (f t x)).accGet gid r c) ∧
      ∀ a, bytes x a → (st (l.foldl f s)).spadRead gid a 1 = (st (f t x)).spadRead gid a 1 := by
  obtain ⟨t, ht, h1, h2⟩ := foldl_view_visit (f := f) (inv := fun s => (st s).Calm gid)
    (v := fun s => (fun p : { p : Nat × Nat // p.2 < 512 ∧ cells x p.1 p.2 } => (st s).accGet gid p.1.1 p.1.2,
      fun a : { a // bytes x a } => (st s).spadRead gid a.1 1))
    hx hl h.calm (fun s hs y hy hne => Prod.ext
      (funext fun p => h.cells s hs y hy _ _ p.2.1 (hcells y hy hne _ _ p.2.2))
      (funext fun a => h.bytes s hs y hy _ (hbytes y hy hne _ a.2))) hs
  obtain ⟨b1, -⟩ := Prod.ext_iff.1 h1
  obtain ⟨a1, a2⟩ := Prod.ext_iff.1 h2
  exact ⟨t, ht, fun r c hc ho => congrFun b1 ⟨(r, c), hc, ho⟩, fun r c hc ho => congrFun a1 ⟨(r, c), hc, ho⟩,
    fun a ho => congrFun a2 ⟨a, ho⟩⟩

end OwnPlaces
end

/-! ## MMA, MMAL and PHMMA (R280) -/

/-- The cells that each column of an operation takes (R280). -/
def MOp.colCells (o : MOp) : Nat := if o.op = 0xD2 then 2 else 1

/-- The step of a signed operation for one A row and one column of the tile. -/
def signedStep (o : MOp) (tile : List Cell) (a : State × Flags) (e : Nat × BitVec 512) (c : Nat) : State × Flags :=
  let r := coordRow o.coord + e.1
  let col0 := coordCol o.coord
  if o.op = 0xD2 then
    let p := phmmaPair o tile e.2 c (a.1.accGet o.group r (col0 + 2 * c)) (a.1.accGet o.group r (col0 + 2 * c + 1))
    ((a.1.accSet o.group r (col0 + 2 * c) p.1).accSet o.group r (col0 + 2 * c + 1) p.2, a.2)
  else
    let cell := a.1.accGet o.group r (col0 + c)
    let v := if o.op = 0xD0 then mmaCell o tile e.2 c cell else mmalCell o tile e.2 c cell
    (a.1.accSet o.group r (col0 + c) v.1, a.2 ||| v.2)

/-- The cells of the step: those of its column, in the row of its lane. -/
def signedCells (o : MOp) (p : (Nat × BitVec 512) × Nat) (r c : Nat) : Prop :=
  r = coordRow o.coord + p.1.1 ∧ ∃ k, k < o.colCells ∧ c = coordCol o.coord + (p.2 * o.colCells + k)

/-- The steps of a signed operation: each row with each column. -/
def MOp.steps (o : MOp) : List ((Nat × BitVec 512) × Nat) := pairsOf o.rows (List.range (o.hrec.cols.toNat + 1))

theorem runSigned_eq_foldl (s : State) (o : MOp) :
    s.runSigned o = o.steps.foldl (fun a p => signedStep o (s.opTile o) a p.1 p.2) (s, 0) :=
  (foldl_pairsOf (signedStep o (s.opTile o)) o.rows (List.range (o.hrec.cols.toNat + 1)) (s, 0)).symm

theorem mem_steps {o : MOp} {p : (Nat × BitVec 512) × Nat} : p ∈ o.steps ↔ p.1 ∈ o.rows ∧ p.2 < o.hrec.cols.toNat + 1 :=
  mem_pairsOf.trans (and_congr_right fun _ => List.mem_range)

section
variable {o : MOp} {tile : List Cell} {a : State × Flags} {e : Nat × BitVec 512} {c : Nat}

theorem signedStep_pair (h : o.op = 0xD2) :
    let r := coordRow o.coord + e.1
    let c0 := coordCol o.coord + 2 * c
    let p := phmmaPair o tile e.2 c (a.1.accGet o.group r c0) (a.1.accGet o.group r (c0 + 1))
    signedStep o tile a e c = ((a.1.accSet o.group r c0 p.1).accSet o.group r (c0 + 1) p.2, a.2) := if_pos h
theorem signedStep_single (h : o.op ≠ 0xD2) :
    let r := coordRow o.coord + e.1
    let c0 := coordCol o.coord + c
    let v := if o.op = 0xD0 then mmaCell o tile e.2 c (a.1.accGet o.group r c0) else mmalCell o tile e.2 c (a.1.accGet o.group r c0)
    signedStep o tile a e c = (a.1.accSet o.group r c0 v.1, a.2 ||| v.2) := if_neg h

end

section
variable {o : MOp} (hfit : coordCol o.coord + (o.hrec.cols.toNat + 1) * o.colCells ≤ 512)
include hfit

/-- The columns of a step's cells lie in the accumulator. -/
theorem signedCells_lt {p : (Nat × BitVec 512) × Nat} (hp : p ∈ o.steps) {k : Nat} (hk : k < o.colCells) :
    coordCol o.coord + (p.2 * o.colCells + k) < 512 := by
  have := rowMajor_lt (mem_steps.1 hp).2 hk
  omega

theorem signed_ownPlaces (tile : List Cell) : OwnPlaces o.group Prod.fst (fun a p => signedStep o tile a p.1 p.2) o.steps
    (signedCells o) (fun _ _ => False) := by
  by_cases hop : o.op = 0xD2
  case pos =>
    have hw : o.colCells = 2 := if_pos hop
    refine ⟨fun a ha p hp => ?_, fun a ha p hp r c hc hn => ?_, fun a ha p hp b _ => ?_⟩ <;> rw [signedStep_pair hop]
    · exact State.accSet_calm (State.accSet_calm ha ..) ..
    · have h0 := signedCells_lt hfit hp (k := 0) (by omega)
      have h1 := signedCells_lt hfit hp (k := 1) (by omega)
      rw [hw] at h0 h1
      rw [State.accGet_accSet_ne (State.accSet_calm ha ..) (by omega) hc, State.accGet_accSet_ne ha (by omega) hc]
      · exact fun e => hn ⟨e.1, 0, by omega, by rw [hw]; omega⟩
      · exact fun e => hn ⟨e.1, 1, by omega, by rw [hw]; omega⟩
    · simp only [State.spadRead_accSet]
  case neg =>
    have hw : o.colCells = 1 := if_neg hop
    refine ⟨fun a ha p hp => ?_, fun a ha p hp r c hc hn => ?_, fun a ha p hp b _ => ?_⟩ <;> rw [signedStep_single hop]
    · exact State.accSet_calm ha ..
    · have h0 := signedCells_lt hfit hp (k := 0) (by omega)
      rw [hw] at h0
      exact State.accGet_accSet_ne ha (by omega) hc (fun e => hn ⟨e.1, 0, by omega, by rw [hw]; omega⟩) _
    · exact State.spadRead_accSet ..

/-- A signed operation leaves every cell outside its rows and columns. -/
theorem runSigned_others {s : State} (hs : s.Calm o.group) {r c : Nat} (hc : c < 512)
    (hn : r < coordRow o.coord ∨ o.rows.find (r - coordRow o.coord) = none ∨ c < coordCol o.coord ∨
      coordCol o.coord + (o.hrec.cols.toNat + 1) * o.colCells ≤ c) :
    (s.runSigned o).1.accGet o.group r c = s.accGet o.group r c := by
  rw [runSigned_eq_foldl]
  refine (signed_ownPlaces hfit _).cell_kept hs hc fun p hp hown => ?_
  obtain ⟨hr, k, hk, hck⟩ := hown
  have hrow : o.rows.find (r - coordRow o.coord) ≠ none := by
    rw [hr, Nat.add_sub_cancel_left]
    exact Tbl.find_ne_none_of_mem (mem_steps.1 hp).1
  have := rowMajor_lt (mem_steps.1 hp).2 hk
  rcases hn with h | h | h | h
  · omega
  · exact hrow h
  · omega
  · omega

/-- The cells of an A row and a column are, at the end of a signed operation, what its step makes of them as they were at its start. -/
theorem runSigned_visit {s : State} (hs : s.Calm o.group) (hrows : (o.rows.map (·.1)).Nodup) {i c : Nat} {row : BitVec 512}
    (hi : o.rows.find i = some row) (hc : c < o.hrec.cols.toNat + 1) :
    let r := coordRow o.coord + i
    let col (k : Nat) : Nat := coordCol o.coord + (c * o.colCells + k)
    ∃ a : State × Flags, a.1.Calm o.group ∧ (∀ k, k < o.colCells → a.1.accGet o.group r (col k) = s.accGet o.group r (col k)) ∧
      ∀ k, k < o.colCells → (s.runSigned o).1.accGet o.group r (col k) =
        (signedStep o (s.opTile o) a (i, row) c).1.accGet o.group r (col k) := by
  intro r col
  have hx : ((i, row), c) ∈ o.steps := mem_steps.2 ⟨Tbl.mem_of_find hi, hc⟩
  have hl : o.steps.Nodup := nodup_pairsOf (List.Pairwise.of_map (·.1) (fun _ _ hne e => hne (congrArg Prod.fst e)) hrows) List.nodup_range
  have hd : ∀ y ∈ o.steps, y ≠ ((i, row), c) → ∀ r c', signedCells o ((i, row), c) r c' → ¬ signedCells o y r c' := by
    rintro ⟨e, c2⟩ hy hne r c' ⟨hr, k, hk, hck⟩ ⟨hr', k', hk', hck'⟩
    dsimp only at hr hck hr' hck'
    have hlane : e.1 = i := by omega
    have hrow : some e.2 = some row := (Tbl.find_of_mem hrows (mem_steps.1 hy).1).symm.trans (hlane ▸ hi)
    have hcol : c2 = c := (rowMajor_inj hk' hk (by omega)).1
    exact hne (Prod.ext (Prod.ext hlane (Option.some.inj hrow)) hcol)
  obtain ⟨a, ha, hold, hnew, -⟩ := (signed_ownPlaces hfit (s.opTile o)).visit (s := (s, 0)) hs hx hl hd fun _ _ _ _ h => h.elim
  rw [← runSigned_eq_foldl] at hnew
  exact ⟨a, ha, fun k hk => hold _ _ (signedCells_lt hfit hx hk) ⟨rfl, k, hk, rfl⟩,
    fun k hk => hnew _ _ (signedCells_lt hfit hx hk) ⟨rfl, k, hk, rfl⟩⟩

end

/-- The cell of an A row and a column after MMA or MMAL. -/
theorem runSigned_cell {s : State} {o : MOp} (hop : o.op ≠ 0xD2) (hfit : coordCol o.coord + (o.hrec.cols.toNat + 1) ≤ 512)
    (hs : s.Calm o.group) (hrows : (o.rows.map (·.1)).Nodup) {i c : Nat} {row : BitVec 512} (hi : o.rows.find i = some row)
    (hc : c < o.hrec.cols.toNat + 1) :
    let old := s.accGet o.group (coordRow o.coord + i) (coordCol o.coord + c)
    (s.runSigned o).1.accGet o.group (coordRow o.coord + i) (coordCol o.coord + c) =
      (if o.op = 0xD0 then mmaCell o (s.opTile o) row c old else mmalCell o (s.opTile o) row c old).1 := by
  have hw : o.colCells = 1 := if_neg hop
  obtain ⟨a, ha, hold, hnew⟩ := runSigned_visit (by rw [hw]; omega) hs hrows hi hc
  have hold := hold 0 (by omega)
  have hnew := hnew 0 (by omega)
  simp only [hw, Nat.mul_one, Nat.add_zero] at hold hnew
  rw [hnew, signedStep_single hop, State.accGet_accSet_self ha (by omega), hold]

/-- The cells of an A row and a column after PHMMA. -/
theorem runSigned_pair {s : State} {o : MOp} (hop : o.op = 0xD2) (hfit : coordCol o.coord + 2 * (o.hrec.cols.toNat + 1) ≤ 512)
    (hs : s.Calm o.group) (hrows : (o.rows.map (·.1)).Nodup) {i c : Nat} {row : BitVec 512} (hi : o.rows.find i = some row)
    (hc : c < o.hrec.cols.toNat + 1) :
    let r := coordRow o.coord + i
    let c0 := coordCol o.coord + 2 * c
    ((s.runSigned o).1.accGet o.group r c0, (s.runSigned o).1.accGet o.group r (c0 + 1)) =
      phmmaPair o (s.opTile o) row c (s.accGet o.group r c0) (s.accGet o.group r (c0 + 1)) := by
  intro r c0
  have hw : o.colCells = 2 := if_pos hop
  obtain ⟨a, ha, hold, hnew⟩ := runSigned_visit (by rw [hw]; omega) hs hrows hi hc
  simp only [hw, Nat.mul_comm c 2] at hold hnew
  have hold0 := hold 0 (by omega)
  have hold1 := hold 1 (by omega)
  have hnew0 := hnew 0 (by omega)
  have hnew1 := hnew 1 (by omega)
  simp only [Nat.add_zero, ← Nat.add_assoc] at hold0 hold1 hnew0 hnew1
  rw [hnew0, hnew1, signedStep_pair hop, hold0, hold1]
  refine Prod.ext ?_ ?_ <;> dsimp only
  · rw [State.accGet_accSet_ne (State.accSet_calm ha ..) (by omega) (by omega) (by omega), State.accGet_accSet_self ha (by omega)]
  · rw [State.accGet_accSet_self (State.accSet_calm ha ..) (by omega)]

/-! ## Clearing and writing out: PHFIN and QNT (R290, R291) -/

namespace State

/-- With CLR, `n` cells of a row from a column up become zero. -/
def clearIf (clr : Bool) (s : State) (gid row col n : Nat) : State :=
  if clr then (List.range n).foldl (fun s i => s.accSet gid row (col + i) 0) s else s

section
variable {s : State} {gid : Nat} (clr : Bool) (row col n : Nat)

theorem clearRun_ownPlaces (hfit : col + n ≤ 512) : OwnPlaces gid (fun s : State => s) (fun s i => s.accSet gid row (col + i) 0)
    (List.range n) (fun i r c => r = row ∧ c = col + i) (fun _ _ => False) where
  calm _ hs _ _ := accSet_calm hs ..
  cells _ hs i hi r c hc hn := accGet_accSet_ne hs (by have := List.mem_range.1 hi; omega) hc hn 0
  bytes _ _ _ _ _ _ := spadRead_accSet ..

theorem clearIf_calm (hs : s.Calm gid) : (s.clearIf clr gid row col n).Calm gid := by
  cases clr
  · exact hs
  · exact foldl_inv (inv := Calm gid) (fun _ hs _ _ => accSet_calm hs ..) hs

theorem spadRead_clearIf (a k : Nat) : (s.clearIf clr gid row col n).spadRead gid a k = s.spadRead gid a k := by
  cases clr
  · rfl
  · exact foldl_eq_of_step (fun s => s.spadRead gid a k) (fun s _ => spadRead_accSet s ..) _ s

variable {n}

theorem accGet_clearIf_out (hs : s.Calm gid) (hfit : col + n ≤ 512) {r c : Nat} (hc : c < 512)
    (hn : ¬ (r = row ∧ ∃ k, k < n ∧ c = col + k)) : (s.clearIf clr gid row col n).accGet gid r c = s.accGet gid r c := by
  cases clr
  · rfl
  · exact (clearRun_ownPlaces row col n hfit).cell_kept hs hc fun k hk h => hn ⟨h.1, k, List.mem_range.1 hk, h.2⟩

theorem accGet_clearIf_in (hs : s.Calm gid) (hfit : col + n ≤ 512) {k : Nat} (hk : k < n) :
    (s.clearIf clr gid row col n).accGet gid row (col + k) = if clr then 0 else s.accGet gid row (col + k) := by
  cases clr
  · rfl
  · obtain ⟨t, ht, -, h, -⟩ := (clearRun_ownPlaces row col n hfit).visit hs (List.mem_range.2 hk) List.nodup_range
      (fun _ _ hne _ _ h h' => hne (by omega)) (fun _ _ _ _ h => h.elim)
    exact (h row (col + k) (by omega) ⟨rfl, rfl⟩).trans (accGet_accSet_self ht (by omega) ..)

end

end State

/-! ### PHFIN -/

/-- The step of PHFIN for one pair of cells. -/
def phfinStep (o : MOp) (s : State) (r c : Nat) : State :=
  let row := coordRow o.coord + r
  let c0 := coordCol o.coord + 2 * c
  let f := phFin (s.accGet o.group row c0) (s.accGet o.group row (c0 + 1)) o.cn
  (s.clearIf (o.ebits.getLsbD 0) o.group row c0 2).spadWrite o.group (o.dst + 4 * (r * coordCol o.extent + c)) (w32Bytes (f.2 ++ f.1))

/-- The pairs of an extent, row by row. -/
def MOp.pairs (o : MOp) : List (Nat × Nat) := pairsOf (List.range (coordRow o.extent)) (List.range (coordCol o.extent))

theorem runPhfin_eq_foldl (s : State) (o : MOp) : s.runPhfin o = o.pairs.foldl (fun s p => phfinStep o s p.1 p.2) s :=
  (foldl_pairsOf (phfinStep o) (List.range (coordRow o.extent)) (List.range (coordCol o.extent)) s).symm

theorem mem_pairs {o : MOp} {p : Nat × Nat} : p ∈ o.pairs ↔ p.1 < coordRow o.extent ∧ p.2 < coordCol o.extent :=
  mem_pairsOf.trans (and_congr List.mem_range List.mem_range)

/-- The two cells that a step of PHFIN reads. -/
def phfinCells (o : MOp) (p : Nat × Nat) (r c : Nat) : Prop :=
  r = coordRow o.coord + p.1 ∧ ∃ k, k < 2 ∧ c = coordCol o.coord + 2 * p.2 + k

/-- The four bytes that a step of PHFIN writes. -/
def phfinBytes (o : MOp) (p : Nat × Nat) (a : Nat) : Prop :=
  ∃ k, k < 4 ∧ a = o.dst + 4 * (p.1 * coordCol o.extent + p.2) + k

theorem phfinCells_disjoint {o : MOp} {p p' : Nat × Nat} (hne : p' ≠ p) {r c : Nat} (h : phfinCells o p r c) : ¬ phfinCells o p' r c := by
  rintro ⟨hr', k', hk', hc'⟩
  obtain ⟨hr, k, hk, hc⟩ := h
  exact hne (Prod.ext (by omega) (by omega))

theorem phfinBytes_disjoint {o : MOp} {p p' : Nat × Nat} (hp : p ∈ o.pairs) (hp' : p' ∈ o.pairs) (hne : p' ≠ p) {a : Nat}
    (h : phfinBytes o p a) : ¬ phfinBytes o p' a := by
  rintro ⟨k', hk', ha'⟩
  obtain ⟨k, hk, ha⟩ := h
  obtain ⟨h1, h2⟩ := rowMajor_inj (mem_pairs.1 hp').2 (mem_pairs.1 hp).2 (r := p'.1) (r' := p.1) (by omega)
  exact hne (Prod.ext h1 h2)

theorem length_w32Bytes (w : W32) : (w32Bytes w).length = 4 := length_leBytes 4 w.toNat

section
variable {o : MOp} (hfit : coordCol o.coord + 2 * coordCol o.extent ≤ 512)
include hfit

theorem phfin_ownPlaces : OwnPlaces o.group (fun s : State => s) (fun s p => phfinStep o s p.1 p.2) o.pairs (phfinCells o) (phfinBytes o) where
  calm _ hs _ _ := State.spadWrite_calm (State.clearIf_calm _ _ _ _ hs) ..
  cells _ hs p hp r c hc hn := by
    have := (mem_pairs.1 hp).2
    rw [phfinStep, State.accGet_spadWrite (State.clearIf_calm _ _ _ _ hs), State.accGet_clearIf_out _ _ _ hs (by omega) hc hn]
  bytes _ hs p hp a hn := by
    rw [phfinStep, State.spadRead_spadWrite_out (State.clearIf_calm _ _ _ _ hs), State.spadRead_clearIf]
    rw [length_w32Bytes]
    exact Decidable.byContradiction fun hin => hn ⟨a - (o.dst + 4 * (p.1 * coordCol o.extent + p.2)), by omega, by omega⟩

/-- The bytes outside the words of PHFIN stay. -/
theorem runPhfin_bytes {s : State} (hs : s.Calm o.group) {a : Nat}
    (ha : a < o.dst ∨ o.dst + 4 * coordRow o.extent * coordCol o.extent ≤ a) :
    (s.runPhfin o).spadRead o.group a 1 = s.spadRead o.group a 1 := by
  rw [runPhfin_eq_foldl]
  refine (phfin_ownPlaces hfit).byte_kept hs fun p hp hown => ?_
  obtain ⟨k, hk, hak⟩ := hown
  have := rowMajor_lt (mem_pairs.1 hp).1 (mem_pairs.1 hp).2
  rw [Nat.mul_assoc] at ha
  omega

/-- What PHFIN leaves for a pair of cells: the word in the scratchpad, and the cells, cleared with CLR. -/
theorem runPhfin_pair {s : State} (hs : s.Calm o.group) {r c : Nat} (hr : r < coordRow o.extent) (hc : c < coordCol o.extent) :
    let row := coordRow o.coord + r
    let c0 := coordCol o.coord + 2 * c
    let f := phFin (s.accGet o.group row c0) (s.accGet o.group row (c0 + 1)) o.cn
    (s.runPhfin o).spadRead o.group (o.dst + 4 * (r * coordCol o.extent + c)) 4 = w32Bytes (f.2 ++ f.1) ∧
    ((s.runPhfin o).accGet o.group row c0, (s.runPhfin o).accGet o.group row (c0 + 1)) =
      if o.ebits.getLsbD 0 then (0, 0) else (s.accGet o.group row c0, s.accGet o.group row (c0 + 1)) := by
  intro row c0 f
  have hx : (r, c) ∈ o.pairs := mem_pairs.2 ⟨hr, hc⟩
  obtain ⟨t, ht, hold, hnew, hspad⟩ := (phfin_ownPlaces hfit).visit hs hx (nodup_pairsOf List.nodup_range List.nodup_range)
    (fun _ _ hne _ _ => phfinCells_disjoint hne) (fun _ hy hne _ => phfinBytes_disjoint hx hy hne)
  rw [← runPhfin_eq_foldl] at hnew hspad
  have hcl : (t.clearIf (o.ebits.getLsbD 0) o.group row c0 2).Calm o.group := State.clearIf_calm _ _ _ _ ht
  have hold (k : Nat) (hk : k < 2) : t.accGet o.group row (c0 + k) = s.accGet o.group row (c0 + k) :=
    hold row _ (by omega) ⟨rfl, k, hk, rfl⟩
  have hnew (k : Nat) (hk : k < 2) : (s.runPhfin o).accGet o.group row (c0 + k) =
      if o.ebits.getLsbD 0 then 0 else s.accGet o.group row (c0 + k) := by
    rw [hnew row _ (by omega) ⟨rfl, k, hk, rfl⟩, ← hold k hk, phfinStep, State.accGet_spadWrite hcl]
    exact State.accGet_clearIf_in _ _ _ ht (by omega) hk
  have hold0 := hold 0 (by omega)
  have hnew0 := hnew 0 (by omega)
  rw [Nat.add_zero] at hold0 hnew0
  constructor
  · have hf : f = phFin (t.accGet o.group row c0) (t.accGet o.group row (c0 + 1)) o.cn := by rw [hold0, hold 1 (by omega)]
    rw [State.spadRead_eq_of_bytes fun i hi => hspad _ ⟨i, hi, rfl⟩, hf]
    exact State.spadRead_spadWrite_self hcl (length_w32Bytes _)
  · rw [hnew0, hnew 1 (by omega)]
    split <;> rfl

end

/-! ### QNT -/

namespace MOp

/-- Columns of a block (R291). -/
def qntLen (o : MOp) : Nat := blockLen (o.ebits.extractLsb' 2 2)
/-- Blocks of a row. -/
def qntRow (o : MOp) : Nat := qntBlocks (o.ebits.extractLsb' 2 2) (coordCol o.extent)
/-- Cells of a block: the last of a row may be short. -/
def qntCount (o : MOp) (b : Nat) : Nat := min ((b + 1) * o.qntLen) (coordCol o.extent) - b * o.qntLen
/-- What QNT makes of the cells of a block. -/
def qntOf (o : MOp) (cells : List W32) : Byte × List Byte × Flags :=
  qntBlock (o.ebits.extractLsb' 0 2) (cells.map fun w => if o.ebits.getLsbD 4 then FVal.ofInt w.toInt else fval f32 w.toNat)

/-- The blocks of an extent, row by row. -/
def blocks (o : MOp) : List (Nat × Nat) := pairsOf (List.range (coordRow o.extent)) (List.range o.qntRow)

end MOp

/-- The cells of a block. -/
def qntOld (o : MOp) (s : State) (r b : Nat) : List W32 :=
  (List.range (o.qntCount b)).map fun i => s.accGet o.group (coordRow o.coord + r) (coordCol o.coord + b * o.qntLen + i)

/-- The step of QNT for one block. -/
def qntStep (o : MOp) (a : State × Flags) (r b : Nat) : State × Flags :=
  let q := o.qntOf (qntOld o a.1 r b)
  let s := a.1.clearIf (o.ebits.getLsbD 5) o.group (coordRow o.coord + r) (coordCol o.coord + b * o.qntLen) (o.qntCount b)
  ((s.spadWrite o.group (o.cn.toNat + r * o.qntRow + b) [q.1]).spadWrite o.group (o.dst + r * coordCol o.extent + b * o.qntLen) q.2.1,
    a.2 ||| q.2.2)

theorem runQnt_eq_foldl (s : State) (o : MOp) : s.runQnt o = o.blocks.foldl (fun a p => qntStep o a p.1 p.2) (s, 0) :=
  (foldl_pairsOf (qntStep o) (List.range (coordRow o.extent)) (List.range o.qntRow) (s, 0)).symm

theorem mem_blocks {o : MOp} {p : Nat × Nat} : p ∈ o.blocks ↔ p.1 < coordRow o.extent ∧ p.2 < o.qntRow :=
  mem_pairsOf.trans (and_congr List.mem_range List.mem_range)

theorem length_qntBlock (fmt : BitVec 2) (xs : List FVal) : (qntBlock fmt xs).2.1.length = xs.length := by
  unfold qntBlock
  split
  · exact List.length_map ..
  · dsimp only
    split
    · exact List.length_map ..
    · simp only [List.length_map]

theorem length_qntOf (o : MOp) (s : State) (r b : Nat) : (o.qntOf (qntOld o s r b)).2.1.length = o.qntCount b := by
  rw [MOp.qntOf, length_qntBlock, List.length_map, qntOld, List.length_map, List.length_range]

/-- A cell of a block stands within its block and within its row. -/
theorem qntCount_lt {o : MOp} {b k : Nat} (hk : k < o.qntCount b) : k < o.qntLen ∧ b * o.qntLen + k < coordCol o.extent := by
  have he : (b + 1) * o.qntLen = b * o.qntLen + o.qntLen := Nat.succ_mul ..
  rw [MOp.qntCount, he] at hk
  omega

/-- The cells that a step of QNT reads. -/
def qntCells (o : MOp) (p : Nat × Nat) (r c : Nat) : Prop :=
  r = coordRow o.coord + p.1 ∧ ∃ k, k < o.qntCount p.2 ∧ c = coordCol o.coord + p.2 * o.qntLen + k

/-- The bytes that a step of QNT writes: a scale and the codes of its block. -/
def qntBytes (o : MOp) (p : Nat × Nat) (a : Nat) : Prop :=
  a = o.cn.toNat + p.1 * o.qntRow + p.2 ∨ ∃ k, k < o.qntCount p.2 ∧ a = o.dst + p.1 * coordCol o.extent + p.2 * o.qntLen + k

/-- Places of a row that agree belong to one block. -/
theorem qntBlock_unique {o : MOp} {b b' k k' : Nat} (hk : k < o.qntCount b) (hk' : k' < o.qntCount b')
    (h : b * o.qntLen + k = b' * o.qntLen + k') : b' = b :=
  (rowMajor_inj (qntCount_lt hk).1 (qntCount_lt hk').1 h).1.symm

theorem qntCells_disjoint {o : MOp} {p p' : Nat × Nat} (hne : p' ≠ p) {r c : Nat} (h : qntCells o p r c) : ¬ qntCells o p' r c := by
  rintro ⟨hr', k', hk', hc'⟩
  obtain ⟨hr, k, hk, hc⟩ := h
  exact hne (Prod.ext (by omega) (qntBlock_unique hk hk' (by omega)))

/-- Where the codes and the scales of QNT do not overlap, no two of its steps write one byte. -/
theorem qntBytes_disjoint {o : MOp} {p p' : Nat × Nat}
    (hdis : o.dst + coordRow o.extent * coordCol o.extent ≤ o.cn.toNat ∨ o.cn.toNat + coordRow o.extent * o.qntRow ≤ o.dst)
    (hp : p ∈ o.blocks) (hp' : p' ∈ o.blocks) (hne : p' ≠ p) {a : Nat} (h : qntBytes o p a) : ¬ qntBytes o p' a := by
  obtain ⟨hr, hb⟩ := mem_blocks.1 hp
  obtain ⟨hr', hb'⟩ := mem_blocks.1 hp'
  have hscale := rowMajor_lt hr hb
  have hscale' := rowMajor_lt hr' hb'
  intro h'
  rcases h with ha | ⟨k, hk, ha⟩ <;> rcases h' with ha' | ⟨k', hk', ha'⟩
  · obtain ⟨h1, h2⟩ := rowMajor_inj hb' hb (r := p'.1) (r' := p.1) (by omega)
    exact hne (Prod.ext h1 h2)
  · have hcode' := rowMajor_lt hr' (qntCount_lt hk').2
    omega
  · have hcode := rowMajor_lt hr (qntCount_lt hk).2
    omega
  · obtain ⟨h1, h2⟩ := rowMajor_inj (qntCount_lt hk').2 (qntCount_lt hk).2 (r := p'.1) (r' := p.1) (by omega)
    exact hne (Prod.ext h1 (qntBlock_unique hk hk' h2.symm))

theorem blockLen_pos (bl : BitVec 2) : 0 < blockLen bl := by
  unfold blockLen
  split <;> decide

/-- Every block of a row has a cell. -/
theorem qntCount_pos {o : MOp} {b : Nat} (hb : b < o.qntRow) : 0 < o.qntCount b := by
  have hl : 0 < o.qntLen := blockLen_pos _
  have hm : (b + 1) * o.qntLen ≤ coordCol o.extent + o.qntLen - 1 := (Nat.le_div_iff_mul_le hl).1 hb
  have he : (b + 1) * o.qntLen = b * o.qntLen + o.qntLen := Nat.succ_mul ..
  rw [MOp.qntCount]
  omega

section
variable {o : MOp} (hfit : coordCol o.coord + coordCol o.extent ≤ 512)
include hfit

/-- A block's cells stand in the accumulator. -/
theorem qntCol_le {b : Nat} (hb : b < o.qntRow) : coordCol o.coord + b * o.qntLen + o.qntCount b ≤ 512 := by
  have hp := qntCount_pos hb
  have := (qntCount_lt (o := o) (b := b) (k := o.qntCount b - 1) (by omega)).2
  omega

theorem qnt_ownPlaces : OwnPlaces o.group Prod.fst (fun a p => qntStep o a p.1 p.2) o.blocks (qntCells o) (qntBytes o) where
  calm _ ha _ _ := State.spadWrite_calm (State.spadWrite_calm (State.clearIf_calm _ _ _ _ ha) ..) ..
  cells _ ha p hp r c hc hn := by
    have hcl := State.clearIf_calm (o.ebits.getLsbD 5) (coordRow o.coord + p.1) (coordCol o.coord + p.2 * o.qntLen) (o.qntCount p.2) ha
    rw [qntStep, State.accGet_spadWrite (State.spadWrite_calm hcl ..), State.accGet_spadWrite hcl,
      State.accGet_clearIf_out _ _ _ ha (qntCol_le hfit (mem_blocks.1 hp).2) hc hn]
  bytes _ ha p hp a hn := by
    have hcl := State.clearIf_calm (o.ebits.getLsbD 5) (coordRow o.coord + p.1) (coordCol o.coord + p.2 * o.qntLen) (o.qntCount p.2) ha
    rw [qntStep, State.spadRead_spadWrite_out (State.spadWrite_calm hcl ..), State.spadRead_spadWrite_out hcl, State.spadRead_clearIf]
    · rw [List.length_singleton]
      exact Decidable.byContradiction fun hin => hn (Or.inl (by omega))
    · rw [length_qntOf]
      exact Decidable.byContradiction fun hin =>
        hn (Or.inr ⟨a - (o.dst + p.1 * coordCol o.extent + p.2 * o.qntLen), by omega, by omega⟩)

/-- The bytes outside the codes and the scales of QNT stay. -/
theorem runQnt_bytes {s : State} (hs : s.Calm o.group) {a : Nat}
    (hcode : a < o.dst ∨ o.dst + coordRow o.extent * coordCol o.extent ≤ a)
    (hscale : a < o.cn.toNat ∨ o.cn.toNat + coordRow o.extent * o.qntRow ≤ a) :
    (s.runQnt o).1.spadRead o.group a 1 = s.spadRead o.group a 1 := by
  rw [runQnt_eq_foldl]
  refine (qnt_ownPlaces hfit).byte_kept hs fun p hp hown => ?_
  obtain ⟨hr, hb⟩ := mem_blocks.1 hp
  rcases hown with h | ⟨k, hk, h⟩
  · have := rowMajor_lt hr hb
    omega
  · have := rowMajor_lt hr (qntCount_lt hk).2
    omega

/-- What QNT leaves for a block: its scale and its codes in the scratchpad, and its cells, cleared with CLR. -/
theorem runQnt_block {s : State} (hs : s.Calm o.group)
    (hdis : o.dst + coordRow o.extent * coordCol o.extent ≤ o.cn.toNat ∨ o.cn.toNat + coordRow o.extent * o.qntRow ≤ o.dst)
    {r b : Nat} (hr : r < coordRow o.extent) (hb : b < o.qntRow) :
    let q := o.qntOf (qntOld o s r b)
    (s.runQnt o).1.spadRead o.group (o.cn.toNat + r * o.qntRow + b) 1 = [q.1] ∧
    (s.runQnt o).1.spadRead o.group (o.dst + r * coordCol o.extent + b * o.qntLen) (o.qntCount b) = q.2.1 ∧
    ∀ k, k < o.qntCount b → (s.runQnt o).1.accGet o.group (coordRow o.coord + r) (coordCol o.coord + b * o.qntLen + k) =
      if o.ebits.getLsbD 5 then 0 else s.accGet o.group (coordRow o.coord + r) (coordCol o.coord + b * o.qntLen + k) := by
  intro q
  have hx : (r, b) ∈ o.blocks := mem_blocks.2 ⟨hr, hb⟩
  obtain ⟨a, ha, hold, hnew, hspad⟩ := (qnt_ownPlaces hfit).visit (s := (s, 0)) hs hx (nodup_pairsOf List.nodup_range List.nodup_range)
    (fun _ _ hne _ _ => qntCells_disjoint hne) (fun _ hy hne _ => qntBytes_disjoint hdis hx hy hne)
  rw [← runQnt_eq_foldl] at hnew hspad
  have hcol := qntCol_le hfit hb
  have hold (k : Nat) (hk : k < o.qntCount b) : a.1.accGet o.group (coordRow o.coord + r) (coordCol o.coord + b * o.qntLen + k) =
      s.accGet o.group (coordRow o.coord + r) (coordCol o.coord + b * o.qntLen + k) := hold _ _ (by omega) ⟨rfl, k, hk, rfl⟩
  have hq : q = o.qntOf (qntOld o a.1 r b) :=
    congrArg o.qntOf (List.map_congr_left fun k hk => (hold k (List.mem_range.1 hk)).symm)
  have hcl := State.clearIf_calm (o.ebits.getLsbD 5) (coordRow o.coord + r) (coordCol o.coord + b * o.qntLen) (o.qntCount b) ha
  have hlen := length_qntOf o a.1 r b
  refine ⟨?scale, ?codes, fun k hk => ?cells⟩
  case scale =>
    have hlt := rowMajor_lt hr hb
    have hlt' := rowMajor_lt hr (qntCount_lt (o := o) (b := b) (k := o.qntCount b - 1) (by have := qntCount_pos hb; omega)).2
    rw [hspad _ (Or.inl rfl), qntStep, State.spadRead_spadWrite_out (State.spadWrite_calm hcl ..) (by rw [hlen]; dsimp only; omega), hq]
    exact State.spadRead_spadWrite_self hcl rfl
  case codes =>
    rw [State.spadRead_eq_of_bytes fun i hi => hspad _ (Or.inr ⟨i, hi, rfl⟩), hq]
    exact State.spadRead_spadWrite_self (State.spadWrite_calm hcl ..) hlen
  case cells =>
    have hc : coordCol o.coord + b * o.qntLen + k < 512 := by omega
    rw [hnew _ _ hc ⟨rfl, k, hk, rfl⟩, ← hold k hk, qntStep, State.accGet_spadWrite (State.spadWrite_calm hcl ..),
      State.accGet_spadWrite hcl]
    exact State.accGet_clearIf_in _ _ _ ha hcol hk

end

end Sys2Proof.Machine
end

section
/-! PROOF. What each matrix operation computes (R58, R60, R280, R286 to R291). -/

namespace Sys2Proof.Machine

open Host (Cell)

theorem extractLsb'_row (c : W32) : (c.extractLsb' 16 16).toNat = coordRow c := toNat_extractLsb'_eq_bitsOf c 16 16
theorem extractLsb'_col (c : W32) : (c.extractLsb' 0 16).toNat = coordCol c := toNat_extractLsb'_eq_bitsOf c 0 16

/-! ## The value of a cell -/

/-- A cell that becomes the sum of itself and terms, rounded once to F32 (R60). -/
def roundedSum (old : W32) (terms : List FVal) : W32 :=
  let v := sumExact .rne (fval f32 old.toNat :: terms)
  if v.isNan then 0x7FC00000 else BitVec.ofNat 32 (roundFp f32 .rne v).1

theorem cellSum_fst (old : W32) (terms : List FVal) : (cellSum old terms).1 = roundedSum old terms := apply_ite Prod.fst ..

/-- A term under a block scale: scale 0 makes a zero, scale 255 a NaN, any other a power of two (R52, R60). -/
theorem scaledTerm_eq (bl : BitVec 2) (scale : Byte) (a v : FVal) :
    scaledTerm bl scale a v = if bl = 0 then a.mul v else if scale = 0 then a.byAbsent else if scale = 255 then .nan false
      else a.mul (v.mul (.fin false 1 (scale.toNat - 127))) := by
  unfold scaledTerm e8Val
  by_cases h0 : scale = 0
  · simp [h0]
  · by_cases h1 : scale = 255
    · simp [h1]
    · simp only [if_neg h0, if_neg h1]

theorem mmaCell_fst (o : MOp) (tile : List Cell) (row : BitVec 512) (c : Nat) (old : W32) :
    let h := o.hrec
    let wide := h.fmt = 1 ∨ h.fmt = 2
    let a (j : Nat) : FVal :=
      if wide then fval (if h.fmt = 2 then bf16 else f16) (rowHalf row j) else actVal (o.ebits.getLsbD 0) (rowByte row j)
    (mmaCell o tile row c old).1 = roundedSum old ((List.range (if wide then 32 else 64)).map fun j =>
      if h.rows.toNat < j then (a j).byAbsent
      else scaledTerm h.bl (o.scales.getD (j * rowScales h.bl h.cols + c / blockLen h.bl) 0) (a j)
        (tileVal h.fmt (rowBytes h.fmt h.cols) tile j c)) := by
  simp only [mmaCell, cellSum_fst, half16, Bool.or_eq_true, beq_iff_eq]

theorem mmalCell_fst (o : MOp) (tile : List Cell) (row : BitVec 512) (c : Nat) (old : W32) :
    let h := o.hrec
    let k := 64 * (o.ebits.extractLsb' 1 2).toNat
    let w (j : Nat) : Int := if h.rows.toNat < k + j then 0 else weightOf h.fmt (rowBytes h.fmt h.cols) tile (k + j) c
    (mmalCell o tile row c old).1 =
      if o.ebits.getLsbD 0 then old + BitVec.ofInt 32 ((List.range 64).map fun j => (rowByte row j).toInt * w j).sum
      else roundedSum old ((List.range 64).map fun j =>
        if h.rows.toNat < k + j then (actVal false (rowByte row j)).byAbsent else (actVal false (rowByte row j)).mul (FVal.ofInt (w j))) := by
  simp only [mmalCell, apply_ite Prod.fst, cellSum_fst, toNat_extractLsb'_eq_bitsOf, List.sum_eq_foldl, List.foldl_map]

/-- Adding entries of two tables to a pair of cells, one after another, adds their sums. -/
theorem foldl_add_pair {ι : Type} (f g : ι → Int) (l : List ι) (x y : W32) :
    l.foldl (fun p j => (p.1 + BitVec.ofInt 32 (f j), p.2 + BitVec.ofInt 32 (g j))) (x, y) =
      (x + BitVec.ofInt 32 (l.map f).sum, y + BitVec.ofInt 32 (l.map g).sum) := by
  induction l generalizing x y with
  | nil => simp
  | cons j l ih => simp only [List.foldl_cons, ih, List.map_cons, List.sum_cons, BitVec.ofInt_add, BitVec.add_assoc]

/-- The pair after PHMMA: each table's entries over the defined codes (R289). -/
theorem phmmaPair_eq (o : MOp) (tile : List Cell) (row : BitVec 512) (c : Nat) (x y : W32) :
    let a (j : Nat) : Nat := rowHalf row j
    let b (j : Nat) : Nat := leNat (cellsGet tile (j * rowBytes o.hrec.fmt o.hrec.cols + 2 * c) 2)
    let ang (j : Nat) : Nat := (if o.ebits.getLsbD 0 then a j / 2 + 32768 - b j / 2 else a j / 2 + b j / 2) % 32768
    let sum (table : Nat → Int) : W32 := BitVec.ofInt 32 ((List.range 32).map fun j =>
      if o.hrec.rows.toNat < j ∨ a j % 2 = 1 ∨ b j % 2 = 1 then 0 else table (ang j / 8)).sum
    phmmaPair o tile row c x y = (x + sum phTC, y + sum phTS) := by
  intro a b ang sum
  rw [← foldl_add_pair, phmmaPair]
  refine congrArg (fun step => (List.range 32).foldl step (x, y)) (funext fun p => funext fun j => ?_)
  by_cases hr : o.hrec.rows.toNat < j
  · simp only [hr, true_or, if_true, BitVec.ofInt_ofNat, BitVec.add_zero]
  · by_cases hab : a j % 2 = 1 ∨ b j % 2 = 1
    · rw [if_neg hr, if_pos hab, if_pos (Or.inr hab), if_pos (Or.inr hab)]
      exact Prod.ext (BitVec.add_zero _).symm (BitVec.add_zero _).symm
    · rw [if_neg hr, if_neg hab, if_neg (not_or.2 ⟨hr, hab⟩), if_neg (not_or.2 ⟨hr, hab⟩)]

/-- What QNT makes of a block, from the values of its cells (R291). -/
theorem qntOf_qntOld (o : MOp) (s : State) (r b : Nat) :
    let old (i : Nat) : W32 := s.accGet o.group (coordRow o.coord + r) (coordCol o.coord + b * o.qntLen + i)
    o.qntOf (qntOld o s r b) = qntBlock (o.ebits.extractLsb' 0 2) ((List.range (o.qntCount b)).map fun i =>
      if o.ebits.getLsbD 4 then FVal.ofInt (old i).toInt else fval f32 (old i).toNat) :=
  congrArg (qntBlock _) List.map_map

/-! ## The operations -/

theorem Goes.mono {i : Instr} {s : State} {p q : State → Prop} (h : Goes i s p) (hpq : ∀ u, p u → q u) : Goes i s q :=
  h.imp fun _ hu => ⟨hu.1, hpq _ hu.2⟩

section
variable {s : State} {die core id : Nat} {o : MOp} (hs : s.stuck = none)
  (hf : (s.mops.find? fun e => e.2.die == die && e.2.core == core && e.2.running) = some (id, o))
include hs hf

/-- The state in which an operation ends has the cells and the scratchpad bytes that its run leaves. -/
theorem matrixComplete_leaves {r : State} (hr : (s.matrixResult o).1 = r) {p : State → Prop}
    (hp : ∀ u : State, (∀ row col, u.accGet o.group row col = r.accGet o.group row col) →
      (∀ a n, u.spadRead o.group a n = r.spadRead o.group a n) → p u) : Goes (.matrixComplete die core) s p :=
  (exec_matrixComplete_running hs hf).mono fun u hu =>
    hp u (State.accGet_congr ((hu o.group).trans (by rw [hr]))) (State.spadRead_congr ((hu o.group).trans (by rw [hr])))

end

theorem matrixResult_signed (s : State) {o : MOp} (h : o.op < 0xD3) : (s.matrixResult o).1 = (s.runSigned o).1 := by
  rw [State.matrixResult, if_neg (by omega), if_neg (by omega)]
theorem matrixResult_phfin (s : State) {o : MOp} (h : o.op = 0xD3) : (s.matrixResult o).1 = s.runPhfin o := by
  rw [State.matrixResult, if_pos h]
theorem matrixResult_qnt (s : State) {o : MOp} (h : o.op = 0xD4) : (s.matrixResult o).1 = (s.runQnt o).1 := by
  rw [State.matrixResult, if_neg (by omega), if_pos h]

/-- A signed operation ends with its run's cells, and with every cell outside its rows and columns as it was. -/
theorem signedComplete_leaves {s : State} {die core id : Nat} {o : MOp} (hs : s.stuck = none)
    (hf : (s.mops.find? fun e => e.2.die == die && e.2.core == core && e.2.running) = some (id, o)) (hcalm : s.Calm o.group)
    (hop : o.op < 0xD3) {width : Nat} (hw : (o.hrec.cols.toNat + 1) * o.colCells = width) (hfit : coordCol o.coord + width ≤ 512)
    {p : State → Prop} (hp : ∀ u : State, (∀ row col, u.accGet o.group row col = (s.runSigned o).1.accGet o.group row col) → p u) :
    Goes (.matrixComplete die core) s fun u => (∀ r c, c < 512 → (r < coordRow o.coord ∨ o.rows.find (r - coordRow o.coord) = none ∨
      c < coordCol o.coord ∨ coordCol o.coord + width ≤ c) → u.accGet o.group r c = s.accGet o.group r c) ∧ p u := by
  subst hw
  exact matrixComplete_leaves hs hf (matrixResult_signed s hop) fun u hu _ =>
    ⟨fun r c hc hn => (hu r c).trans (runSigned_others hfit hcalm hc hn), hp u hu⟩

/-- Settles O35: each operation's run is a run of steps that each have their own cells and bytes, so each place is what one step makes
of the operation's first state. -/
theorem matrixResults : Obligations.MatrixResults := by
  unfold Obligations.MatrixResults
  intro s die core id o g hs hf hg hacc hspad hwaits row0 col0 nr nc h cols rb tile cell half act rounded others spadKept
  have hcalm : s.Calm o.group := ⟨g, hg, hacc, hspad, hwaits⟩
  have erow : row0 = coordRow o.coord := extractLsb'_row _
  have ecol : col0 = coordCol o.coord := extractLsb'_col _
  have enr : nr = coordRow o.extent := extractLsb'_row _
  have enc : nc = coordCol o.extent := extractLsb'_col _
  clear_value row0 col0 nr nc
  subst erow ecol enr enc
  refine ⟨fun hop hrows hfit => ?mma, fun hop hrows hfit => ?mmal, fun hop hrows hfit => ?phmma, fun hop hfit => ?phfin,
    fun hop hfit => ?qnt⟩
  case mma =>
    have hw : cols * o.colCells = cols := by rw [MOp.colCells, if_neg (by omega), Nat.mul_one]
    refine signedComplete_leaves hs hf hcalm (by omega) hw hfit fun u hu i row c hi hc => ?_
    refine (hu ..).trans ((runSigned_cell (by omega) hfit hcalm hrows hi hc).trans ?_)
    rw [if_pos hop, mmaCell_fst]
    simp only [scaledTerm_eq]
    rfl
  case mmal =>
    have hw : cols * o.colCells = cols := by rw [MOp.colCells, if_neg (by omega), Nat.mul_one]
    refine signedComplete_leaves hs hf hcalm (by omega) hw hfit fun u hu i row c hi hc => ?_
    refine (hu ..).trans ((runSigned_cell (by omega) hfit hcalm hrows hi hc).trans ?_)
    rw [if_neg (by omega), mmalCell_fst]
    rfl
  case phmma =>
    have hw : cols * o.colCells = 2 * cols := by rw [MOp.colCells, if_pos hop, Nat.mul_comm]
    refine signedComplete_leaves hs hf hcalm (by omega) hw hfit fun u hu i row c hi hc => ?_
    have hp := (runSigned_pair hop hfit hcalm hrows hi hc).trans (phmmaPair_eq ..)
    exact ⟨(hu ..).trans (congrArg Prod.fst hp), (hu ..).trans (congrArg Prod.snd hp)⟩
  case phfin =>
    refine matrixComplete_leaves hs hf (matrixResult_phfin s hop) fun u hu hb => ⟨fun a ha => ?kept, fun r c hr hc => ?new⟩
    case kept => exact (hb a 1).trans (runPhfin_bytes hfit hcalm (ha _ List.mem_cons_self))
    case new =>
      obtain ⟨hword, hcells⟩ := runPhfin_pair hfit hcalm hr hc
      refine ⟨(hb ..).trans (hword.trans (w32Bytes_append ..)), ?_⟩
      simp only [cell, hu]
      exact hcells
  case qnt =>
    intro len nb hdis
    refine matrixComplete_leaves hs hf (matrixResult_qnt s hop) fun u hu hb => ⟨fun a ha => ?kept, fun r b hr hbl => ?new⟩
    case kept =>
      exact (hb a 1).trans (runQnt_bytes hfit hcalm (ha _ List.mem_cons_self) (ha _ (List.mem_cons_of_mem _ List.mem_cons_self)))
    case new =>
      obtain ⟨hscale, hcodes, hcell⟩ := runQnt_block hfit hcalm hdis hr hbl
      rw [qntOf_qntOld] at hscale hcodes
      exact ⟨(hb ..).trans hscale, (hb ..).trans hcodes, fun k hk => (hu ..).trans (hcell k hk)⟩

end Sys2Proof.Machine
end

section
/-! PROOF. What an instruction computes that writes one result to its destination (R74, R134), and the results of moves, selections,
minima, maxima, shifts and rotations (R138, R142, R143, R152). -/

namespace Sys2Proof.Machine

/-! ## Instructions that write one result

Each of them is settled by its arm of `exec` and by the equality of two values; that its operands do not depend on the members that
went before it is the default of `hdep`. -/

section
variable {i : Instr} {d : Opd}

theorem computes_words {f g : State → Self → List W32} (he : ∀ s, exec i s = runAlu i (fun s m => m.t.write d (f s m)) s)
    (hv : ∀ s m, f s m = g s m)
    (hdep : ∀ s k x m, f (s.setThread k x) m = f s m := by intros; simp only [src_setThread, src64_setThread])
    (hx : badSpecial i = false := by rfl) : Computes i fun s m => m.t.write d (g s m) :=
  computes_of_alu he (fun s k x m => congrArg (m.t.write d) (hdep s k x m)) (fun _ _ => Thread.write_frame ..)
    (fun s m => congrArg (m.t.write d) (hv s m)) hx

theorem computes_word {f g : State → Self → W32} (he : ∀ s, exec i s = runAlu i (fun s m => m.t.write d [f s m]) s)
    (hv : ∀ s m, f s m = g s m)
    (hdep : ∀ s k x m, f (s.setThread k x) m = f s m := by intros; simp only [src_setThread, src64_setThread])
    (hx : badSpecial i = false := by rfl) : Computes i fun s m => m.t.write d [g s m] :=
  computes_words he (fun s m => congrArg (fun w => [w]) (hv s m)) (fun s k x m => congrArg (fun w => [w]) (hdep s k x m)) hx

theorem computes_pair {f g : State → Self → W64}
    (he : ∀ s, exec i s = runAlu i (fun s m => m.t.write d (pairWords (f s m))) s) (hv : ∀ s m, f s m = g s m)
    (hdep : ∀ s k x m, f (s.setThread k x) m = f s m := by intros; simp only [src_setThread, src64_setThread])
    (hx : badSpecial i = false := by rfl) : Computes i fun s m => m.t.write d (pairWords (g s m)) :=
  computes_words he (fun s m => congrArg pairWords (hv s m)) (fun s k x m => congrArg pairWords (hdep s k x m)) hx

theorem computes_writeF {f g : State → Self → W32 × Flags}
    (he : ∀ s, exec i s = runAlu i (fun s m => m.t.writeF d (f s m)) s) (hv : ∀ s m, f s m = g s m)
    (hdep : ∀ s k x m, f (s.setThread k x) m = f s m := by intros; simp only [src_setThread, src64_setThread])
    (hx : badSpecial i = false := by rfl) : Computes i fun s m => m.t.writeF d (g s m) :=
  computes_of_alu he (fun s k x m => congrArg (m.t.writeF d) (hdep s k x m)) (fun _ _ => Thread.writeF_frame ..)
    (fun s m => congrArg (m.t.writeF d) (hv s m)) hx

end

/-! ## Values -/

/-- What is read from the selected operand is selected from what is read (R152). -/
theorem sel_read {α : Type} (f : Opd → α) (p n : Bool) (a b : Opd) :
    f (if p != n then a else b) = if p ≠ n then f a else f b := by
  rw [apply_ite f]; simp only [bne_iff_ne]

@[simp] theorem asInt_true {w : Nat} (x : BitVec w) : asInt true x = x.toNat := rfl
@[simp] theorem asInt_false {w : Nat} (x : BitVec w) : asInt false x = x.toInt := rfl

theorem ofInt_asInt {w : Nat} (uns : Bool) (x : BitVec w) : BitVec.ofInt w (asInt uns x) = x := by
  cases uns
  · exact BitVec.ofInt_toInt
  · simp only [asInt_true, BitVec.ofInt_natCast, BitVec.ofNat_toNat, BitVec.setWidth_eq]

/-- The word of the smaller number is the one of two words that is read as the smaller (R142). -/
theorem min_asInt (uns : Bool) (x y : W32) :
    (if asInt uns x ≤ asInt uns y then x else y) = BitVec.ofInt 32 (min (asInt uns x) (asInt uns y)) := by
  rw [Int.min_def, apply_ite (BitVec.ofInt 32), ofInt_asInt, ofInt_asInt]
theorem max_asInt (uns : Bool) (x y : W32) :
    (if asInt uns x ≤ asInt uns y then y else x) = BitVec.ofInt 32 (max (asInt uns x) (asInt uns y)) := by
  rw [Int.max_def, apply_ite (BitVec.ofInt 32), ofInt_asInt, ofInt_asInt]

/-- A shift by at least the width shifts everything out, so the model's test of the amount decides nothing (R143). -/
theorem shl_guard {w : Nat} (x : BitVec w) (n : Nat) : (if n < w then x <<< n else 0) = x <<< n := by
  split
  · rfl
  · next h => exact (BitVec.shiftLeft_eq_zero (Nat.le_of_not_lt h)).symm
theorem shrBy_logical {w : Nat} (x : BitVec w) (n : Nat) : shrBy false x n = x >>> n := by
  simp only [shrBy, Bool.false_eq_true, if_false]
  split
  · rfl
  · next h => exact (BitVec.ushiftRight_eq_zero (Nat.le_of_not_lt h)).symm

/-- An arithmetic shift by at least the width gives what one by the width less 1 gives: the sign in every bit (R143). -/
theorem shrBy_arithmetic {w : Nat} (x : BitVec w) (n : Nat) : shrBy true x n = x.sshiftRight n := by
  simp only [shrBy, if_true]
  by_cases hn : n < w
  · rw [Nat.min_eq_left (Nat.le_sub_one_of_lt hn)]
  · refine BitVec.eq_of_getLsbD_eq fun i hi => ?_
    have hmin : min n (w - 1) = w - 1 := by omega
    have hout : ¬ n + i < w := by omega
    rw [hmin, BitVec.getLsbD_sshiftRight, BitVec.getLsbD_sshiftRight, if_neg hout]
    by_cases h0 : i = 0
    · rw [if_pos (by omega), h0, Nat.add_zero, BitVec.msb_eq_getLsbD_last]
    · rw [if_neg (by omega)]

/-- Settles O1, each instruction by the value that its arm of `exec` writes. -/
theorem movesAndShiftsResult : Obligations.MovesAndShiftsResult := by
  unfold Obligations.MovesAndShiftsResult
  refine ⟨⟨fun q => ?nop, fun q d a => ?mov, fun q d a => ?mov64, fun q d imm => ?movi, fun q d imm => ?movk,
      fun q d a b ps ns => ?sel, fun q d a b ps ns => ?sel64⟩,
    fun q d a b => ?iminU, fun q d a b => ?iminS, fun q d a b => ?imaxU, fun q d a b => ?imaxS, fun q d a b => ?shl,
    fun q d a b => ?shr, fun q d a b => ?sar, fun q d a b => ?rotl, fun q d a b => ?rotr, fun q d a b => ?shl64,
    fun q d a b => ?shr64, fun q d a b => ?sar64⟩
  case nop => exact computes_of_alu (fun _ => rfl) (fun _ _ _ _ => rfl) (fun _ _ => rfl) (fun _ _ => rfl)
  case mov | rotl | rotr => exact computes_word (fun _ => rfl) (fun _ _ => rfl)
  case mov64 => exact computes_pair (fun _ => rfl) (fun _ _ => rfl)
  case movi | movk => exact computes_word (fun _ => rfl) (fun _ _ => rfl) (fun _ _ _ _ => rfl)
  case sel => exact computes_word (fun _ => rfl) (fun s m => sel_read (s.src m) ..)
  case sel64 => exact computes_pair (fun _ => rfl) (fun s m => sel_read (s.src64 m) ..)
  case iminU =>
    refine computes_word (fun _ => rfl) fun s m => (min_asInt ..).trans ?_
    rw [asInt_true, asInt_true, ← BitVec.ofInt_natCast]
    congr 1; omega
  case iminS => exact computes_word (fun _ => rfl) (fun _ _ => min_asInt ..)
  case imaxU =>
    refine computes_word (fun _ => rfl) fun s m => (max_asInt ..).trans ?_
    rw [asInt_true, asInt_true, ← BitVec.ofInt_natCast]
    congr 1; omega
  case imaxS => exact computes_word (fun _ => rfl) (fun _ _ => max_asInt ..)
  case shl => exact computes_word (fun _ => rfl) (fun _ _ => shl_guard ..)
  case shr => exact computes_word (fun _ => rfl) (fun _ _ => shrBy_logical ..)
  case sar => exact computes_word (fun _ => rfl) (fun _ _ => shrBy_arithmetic ..)
  case shl64 => exact computes_pair (fun _ => rfl) (fun _ _ => shl_guard ..)
  case shr64 => exact computes_pair (fun _ => rfl) (fun _ _ => shrBy_logical ..)
  case sar64 => exact computes_pair (fun _ => rfl) (fun _ _ => shrBy_arithmetic ..)

end Sys2Proof.Machine
end

section
/-! PROOF. The results of integer sums and products (R139, R140, R142, R143): each is the model's exact integer, narrowed once. -/

namespace Sys2Proof.Machine

/-! ## Sums and differences (R139) -/

/-- Narrowing forgets only multiples of 2^32, so a sum of words wraps whichever way they are read. -/
theorem addSat_wraps (x y : W32) : addSat 0 x y = x + y := by
  show BitVec.ofInt 32 (x.toInt + y.toInt) = x + y
  rw [BitVec.ofInt_add, BitVec.ofInt_toInt, BitVec.ofInt_toInt]
theorem subSat_wraps (x y : W32) : subSat 0 x y = x - y := by
  show BitVec.ofInt 32 (x.toInt - y.toInt) = x - y
  rw [Int.sub_eq_add_neg, BitVec.ofInt_add, BitVec.ofInt_neg, BitVec.ofInt_toInt, BitVec.ofInt_toInt, BitVec.sub_eq_add_neg]

/-- Two numbers that are not negative have a sum that only the upper limit of n32 clamps. -/
theorem addSat_unsigned (x y : W32) : addSat 2 x y = BitVec.ofNat 32 (min (2 ^ 32 - 1) (x.toNat + y.toNat)) := by
  show BitVec.ofInt 32 (max 0 (min 4294967295 ((x.toNat : Int) + y.toNat))) = _
  rw [← BitVec.ofInt_natCast]
  congr 1; omega
/-- The difference of two numbers of n32 is below the upper limit, and the subtraction of `Nat` clamps it at 0. -/
theorem subSat_unsigned (x y : W32) : subSat 2 x y = BitVec.ofNat 32 (x.toNat - y.toNat) := by
  show BitVec.ofInt 32 (max 0 (min 4294967295 ((x.toNat : Int) - y.toNat))) = _
  rw [← BitVec.ofInt_natCast]
  have hx := x.isLt
  congr 1; omega

/-! ## Magnitudes (R142) -/

/-- Only the most negative word has a negative whose number is 2^31. -/
theorem neg_toInt_eq_top (x : W32) : -x.toInt = 2147483648 ↔ x = 0x80000000 := by
  rw [← BitVec.toInt_inj]
  have h : (0x80000000 : W32).toInt = -2147483648 := by decide
  omega

theorem narrowMag_neg (sat : Bool) (x : W32) :
    narrowMag sat (-x.toInt) = if sat ∧ x = 0x80000000 then 0x7FFFFFFF else -x := by
  simp only [narrowMag, neg_toInt_eq_top, Bool.and_eq_true, decide_eq_true_eq, BitVec.ofInt_neg, BitVec.ofInt_toInt]
theorem narrowMag_abs (sat : Bool) (x : W32) : narrowMag sat x.toInt.natAbs =
    if x.toInt < 0 then (if sat ∧ x = 0x80000000 then 0x7FFFFFFF else -x) else x := by
  split
  · next hneg => rw [Int.ofNat_natAbs_of_nonpos (by omega), narrowMag_neg]
  · next hpos =>
    have hlt : x.toInt ≠ 2147483648 := by have := BitVec.toInt_lt (x := x); omega
    rw [Int.natAbs_of_nonneg (by omega), narrowMag, decide_eq_false hlt, Bool.and_false, if_neg Bool.false_ne_true,
      BitVec.ofInt_toInt]

/-! ## Products (R140) -/

/-- TY gives each factor its reading, and the product is exact. -/
theorem mulTy_eq (ty : BitVec 2) (x y : W32) : mulTy ty x y =
    (if ty = 1 then (x.toNat : Int) else x.toInt) * (if ty = 0 then y.toInt else (y.toNat : Int)) := by
  simp only [mulTy, asInt, beq_iff_eq, bne_iff_ne, ite_not]

/-- Settles O2: the wrapping results are narrowed sums of the words, the others the clamped or exact numbers that the model
computes with. -/
theorem sumsAndProductsResult : Obligations.SumsAndProductsResult := by
  unfold Obligations.SumsAndProductsResult
  refine ⟨⟨fun q d a b => ?add, fun q d a b => ?addS, fun q d a b => ?addU, fun q d a b => ?sub, fun q d a b => ?subS,
      fun q d a b => ?subU, fun q d a imm => ?addi, fun q d a sat => ?neg, fun q d a sat => ?abs, fun q d a b => ?add64,
      fun q d a b => ?sub64⟩,
    fun q d a b => ?mul, fun q d a b ty => ?mulh, fun q d a b c => ?mad, fun q d a b c ty => ?madw⟩
  case add => exact computes_word (fun _ => rfl) (fun _ _ => addSat_wraps ..)
  case addS | subS | addi | mul | mad => exact computes_word (fun _ => rfl) (fun _ _ => rfl)
  case addU => exact computes_word (fun _ => rfl) (fun _ _ => addSat_unsigned ..)
  case sub => exact computes_word (fun _ => rfl) (fun _ _ => subSat_wraps ..)
  case subU => exact computes_word (fun _ => rfl) (fun _ _ => subSat_unsigned ..)
  case neg => exact computes_word (fun _ => rfl) (fun _ _ => narrowMag_neg ..)
  case abs => exact computes_word (fun _ => rfl) (fun _ _ => narrowMag_abs ..)
  case add64 | sub64 => exact computes_pair (fun _ => rfl) (fun _ _ => rfl)
  case mulh => exact computes_word (fun _ => rfl) (fun _ _ => congrArg (fun p => BitVec.ofInt 32 (p / 2 ^ 32)) (mulTy_eq ..))
  case madw => exact computes_pair (fun _ => rfl) (fun s m => congrArg (fun p => BitVec.ofInt 64 p + s.src64 m c) (mulTy_eq ..))

end Sys2Proof.Machine
end

section
/-! PROOF. The results of the bit instructions, bit by bit (R144 to R147). -/

namespace Sys2Proof.Machine

/-! ## Fields of a number -/

theorem testBit_bitsOf (x lo n i : Nat) : (bitsOf x lo n).testBit i = (decide (i < n) && x.testBit (lo + i)) := by
  rw [bitsOf, Nat.testBit_mod_two_pow, Nat.testBit_div_two_pow, Nat.add_comm]

theorem bitOf_eq_testBit (x i : Nat) : bitOf x i = x.testBit i := by
  rw [bitOf, Nat.testBit_eq_decide_div_mod_eq]; rfl

theorem bitsOf_toNat_lt {w : Nat} (x : BitVec w) (lo n : Nat) : bitsOf x.toNat lo n < 2 ^ n := Nat.mod_lt _ (Nat.two_pow_pos n)

/-- A field of a word as a word of its own width. -/
theorem ofNat_bitsOf {w : Nat} (x : BitVec w) (lo n : Nat) : BitVec.ofNat n (bitsOf x.toNat lo n) = x.extractLsb' lo n := by
  rw [← toNat_extractLsb'_eq_bitsOf, BitVec.ofNat_toNat, BitVec.setWidth_eq]

/-! ## LOP3 (R144) -/

/-- The number whose bit `i` below `n` is `p i`. -/
def sumBits (p : Nat → Bool) (n : Nat) : Nat := (List.range n).foldl (fun x i => x + (p i).toNat * 2 ^ i) 0

theorem sumBits_succ (p : Nat → Bool) (n : Nat) : sumBits p (n + 1) = 2 ^ n * (p n).toNat + sumBits p n := by
  rw [sumBits, List.range_succ, List.foldl_append, Nat.add_comm, Nat.mul_comm]; rfl

theorem sumBits_lt (p : Nat → Bool) (n : Nat) : sumBits p n < 2 ^ n := by
  induction n with
  | zero => exact Nat.one_pos
  | succ n ih =>
    have hp : 2 ^ n * (p n).toNat ≤ 2 ^ n * 1 := Nat.mul_le_mul_left _ (Bool.toNat_le _)
    rw [sumBits_succ, Nat.pow_succ]; omega

theorem testBit_sumBits (p : Nat → Bool) (n i : Nat) : (sumBits p n).testBit i = (decide (i < n) && p i) := by
  induction n with
  | zero => simp [sumBits]
  | succ n ih =>
    rw [sumBits_succ, Nat.testBit_two_pow_mul_add _ (sumBits_lt p n), ih]
    rcases Nat.lt_trichotomy i n with h | rfl | h
    · simp [h, Nat.lt_succ_of_lt h]
    · rw [if_neg (Nat.lt_irrefl i), Nat.sub_self, decide_eq_true (Nat.lt_succ_self i), Bool.true_and]
      cases p i <;> rfl
    · obtain ⟨k, rfl⟩ := Nat.exists_eq_add_of_lt h
      have hlow : ¬ n + k + 1 < n := by omega
      have hhigh : ¬ n + k + 1 < n + 1 := by omega
      have hk : n + k + 1 - n = k + 1 := by omega
      have htop : (p n).toNat / 2 = 0 := Nat.div_eq_of_lt (Bool.toNat_lt _)
      rw [if_neg hlow, hk, Nat.testBit_succ, htop, Nat.zero_testBit, decide_eq_false hhigh, Bool.false_and]

theorem getLsbD_lop3 (lut : Byte) (a b c : W32) {i : Nat} (hi : i < 32) : (lop3 lut a b c).getLsbD i =
    lut.getLsbD ((a.getLsbD i).toNat + 2 * (b.getLsbD i).toNat + 4 * (c.getLsbD i).toNat) := by
  show (BitVec.ofNat 32 (sumBits (fun i => lutBit lut (a.getLsbD i) (b.getLsbD i) (c.getLsbD i)) 32)).getLsbD i = _
  rw [BitVec.getLsbD_ofNat, testBit_sumBits, decide_eq_true hi, Bool.true_and, Bool.true_and]; rfl

/-! ## BFX and BFI (R145) -/

theorem fieldOf_eq (b : W32) : fieldOf b =
    let pos := min (b.extractLsb' 0 8).toNat 32
    (pos, min (b.extractLsb' 8 8).toNat (32 - pos)) := by
  simp only [fieldOf, toNat_extractLsb'_eq_bitsOf, Nat.min_comm]

/-- An unsigned field is padded with zeros. -/
theorem bfx_unsigned (a b : W32) : bfx false a b = (a.extractLsb' (fieldOf b).1 (fieldOf b).2).setWidth 32 := by
  simp only [bfx, ← toNat_extractLsb'_eq_bitsOf, Bool.false_and, if_neg Bool.false_ne_true, BitVec.ofNat_toNat]

/-- A field whose top bit is set, less 2 to its length, is the field read as a signed number. -/
theorem bfx_signed (a b : W32) : bfx true a b = (a.extractLsb' (fieldOf b).1 (fieldOf b).2).signExtend 32 := by
  have hmsb (x : BitVec (fieldOf b).2) : (decide (0 < (fieldOf b).2) && bitOf x.toNat ((fieldOf b).2 - 1)) = x.msb := by
    rw [bitOf_eq_testBit]; rfl
  simp only [bfx, ← toNat_extractLsb'_eq_bitsOf, Bool.true_and, hmsb, BitVec.signExtend, BitVec.toInt_eq_msb_cond,
    apply_ite (BitVec.ofInt 32), BitVec.ofInt_natCast, Int.natCast_pow, Int.cast_ofNat_Int]

theorem getLsbD_bfx_unsigned (a b : W32) (i : Nat) : (bfx false a b).getLsbD i =
    (decide (i < (b.extractLsb' 8 8).toNat) && a.getLsbD ((b.extractLsb' 0 8).toNat + i)) := by
  rw [bfx_unsigned, fieldOf_eq, BitVec.getLsbD_setWidth, BitVec.getLsbD_extractLsb']
  generalize (b.extractLsb' 0 8).toNat = pos
  generalize (b.extractLsb' 8 8).toNat = len
  by_cases hin : pos + i < 32
  · have hpos : min pos 32 = pos := by omega
    have hlen : i < min len (32 - pos) ↔ i < len := by omega
    have hi : i < 32 := by omega
    simp only [hpos, hlen, hi, decide_true, Bool.true_and]
  · have hlen : ¬ i < min len (32 - min pos 32) := by omega
    simp only [hlen, decide_false, Bool.false_and, Bool.and_false, BitVec.getLsbD_of_ge a _ (Nat.le_of_not_lt hin)]

theorem getLsbD_bfx_signed (a b : W32) {i : Nat} (hi : i < 32) :
    let pos := min (b.extractLsb' 0 8).toNat 32
    let len := min (b.extractLsb' 8 8).toNat (32 - pos)
    (bfx true a b).getLsbD i = (decide (0 < len) && a.getLsbD (pos + min i (len - 1))) := by
  intro pos len
  rw [bfx_signed, fieldOf_eq, BitVec.getLsbD_signExtend, decide_eq_true hi, Bool.true_and]
  show (if i < len then (a.extractLsb' pos len).getLsbD i else (a.extractLsb' pos len).msb) = _
  rw [BitVec.msb_eq_getLsbD_last, BitVec.getLsbD_extractLsb', BitVec.getLsbD_extractLsb']
  split
  · next h => rw [decide_eq_true h, decide_eq_true (Nat.zero_lt_of_lt h), Nat.min_eq_left (Nat.le_sub_one_of_lt h)]
  · next h =>
    have htop : len - 1 < len ↔ 0 < len := by omega
    rw [decide_eq_decide.2 htop, Nat.min_eq_right (by omega)]

/-- The mask of BFI has the bits of the field. -/
theorem getLsbD_fieldMask (len pos : Nat) {i : Nat} (hi : i < 32) :
    (BitVec.ofNat 32 ((2 ^ len - 1) * 2 ^ pos)).getLsbD i = decide (pos ≤ i ∧ i < pos + len) := by
  have hsub : pos ≤ i → (i - pos < len ↔ i < pos + len) := by omega
  rw [BitVec.getLsbD_ofNat, Nat.testBit_mul_two_pow, Nat.testBit_two_pow_sub_one, decide_eq_true hi, Bool.true_and,
    ← Bool.decide_and]
  exact decide_eq_decide.2 (and_congr_right hsub)

theorem getLsbD_bfi (a b c : W32) {i : Nat} (hi : i < 32) : (bfi a b c).getLsbD i =
    if (b.extractLsb' 0 8).toNat ≤ i ∧ i < (b.extractLsb' 0 8).toNat + (b.extractLsb' 8 8).toNat
    then c.getLsbD (i - (b.extractLsb' 0 8).toNat) else a.getLsbD i := by
  simp only [bfi, BitVec.getLsbD_or, BitVec.getLsbD_and, BitVec.getLsbD_not, BitVec.getLsbD_shiftLeft,
    getLsbD_fieldMask _ _ hi, hi, decide_true, Bool.true_and, fieldOf_eq]
  generalize (b.extractLsb' 0 8).toNat = pos
  generalize (b.extractLsb' 8 8).toNat = len
  have hclip : min pos 32 ≤ i ∧ i < min pos 32 + min len (32 - min pos 32) ↔ pos ≤ i ∧ i < pos + len := by omega
  simp only [hclip]
  split
  · next h =>
    have hpos : min pos 32 = pos := by omega
    have hge : ¬ i < pos := by omega
    simp only [h, hpos, hge, and_self, decide_true, decide_false, Bool.not_true, Bool.not_false, Bool.and_false, Bool.and_true,
      Bool.true_and, Bool.false_or]
  · next h => simp only [h, decide_false, Bool.not_false, Bool.and_true, Bool.and_false, Bool.or_false]

/-! ## CLZ (R146) -/

/-- The first set bit from the top is the one that the logarithm names. -/
theorem leadingZeros (x : W32) : (if x = 0 then 32 else 31 - x.toNat.log2) =
    ((List.range 32).find? fun i => x.getLsbD (31 - i)).getD 32 := by
  split
  · next h => subst h; decide
  · next h =>
    have hx : x.toNat ≠ 0 := fun h0 => h (BitVec.eq_of_toNat_eq h0)
    have hlt : x.toNat.log2 < 32 := (Nat.log2_lt hx).2 x.isLt
    have hfirst : (List.range 32).find? (fun i => x.getLsbD (31 - i)) = some (31 - x.toNat.log2) := by
      refine List.find?_range_eq_some.2 ⟨?_, List.mem_range.2 (by omega), fun j hj => ?_⟩
      · rw [Nat.sub_sub_self (by omega)]
        exact Nat.testBit_log2 hx
      · have hbelow : x.toNat < 2 ^ (31 - j) := (Nat.log2_lt hx).1 (by omega)
        rw [← BitVec.testBit_toNat, Nat.testBit_lt_two_pow hbelow, Bool.not_false]
    rw [hfirst, Option.getD_some]

/-! ## PRMT (R147) -/

theorem prmtByte_eq (ba : W64) (sel : Byte) : prmtByte ba sel =
    let b := ba.extractLsb' (8 * (sel.extractLsb' 0 3).toNat) 8
    if sel.extractLsb' 3 2 = 0 then b else if sel.extractLsb' 3 2 = 1 then 0
    else if sel.extractLsb' 3 2 = 2 then (if b.getLsbD 7 then 0xFF else 0) else ~~~b := by
  simp only [prmtByte, ← toNat_extractLsb'_eq_bitsOf]
  generalize sel.extractLsb' 3 2 = mode
  have h : mode = 0 ∨ mode = 1 ∨ mode = 2 ∨ mode = 3 := by decide +revert
  rcases h with rfl | rfl | rfl | rfl <;> rfl

/-- Settles O3: the fields, counts and bytes of the results, each by the bits of the model's own function. -/
theorem bitsResult : Obligations.BitsResult := by
  unfold Obligations.BitsResult
  refine ⟨fun q d a b c lut => ?lop3, fun lut a b c i hi => getLsbD_lop3 lut a b c hi, fun q d a b sx => ?bfx,
    getLsbD_bfx_unsigned, fun a b i hi => getLsbD_bfx_signed a b hi, fun q d a b c => ?bfi,
    fun a b c i hi => getLsbD_bfi a b c hi, fun q d a => ?brev, fun q d a => ?popc, fun q d a => ?clz, fun q d a => ?ctz,
    fun q d a b c => ?prmt, prmtByte_eq⟩
  case lop3 | bfx | bfi | brev | popc | ctz | prmt => exact computes_word (fun _ => rfl) (fun _ _ => rfl)
  case clz => exact computes_word (fun _ => rfl) (fun _ _ => congrArg (BitVec.ofNat 32) (leadingZeros _))

end Sys2Proof.Machine
end

section
/-! PROOF. The results of comparisons and predicate logic (R148 to R151, R153, R169): predicates and flags, and no register but
PTOG's. -/

namespace Sys2Proof.Machine

@[simp] theorem Thread.setPreds_frame (t : Thread) (pd pq : PredNo) (r : Bool) : (t.setPreds pd pq r).frame = t.frame := by
  simp only [setPreds, setPred_frame]

/-- Writing some of the predicates, one after another, touches predicates only (R153). -/
theorem foldl_setPred_frame (l : List Nat) (p : Nat → PredNo) (chosen v : Nat → Bool) (t : Thread) :
    (l.foldl (fun t i => if chosen i then t.setPred (p i) (v i) else t) t).frame = t.frame := by
  induction l generalizing t with
  | nil => rfl
  | cons i l ih =>
    rw [List.foldl_cons, ih]
    split
    · exact Thread.setPred_frame ..
    · rfl

/-- An instruction that writes a truth value and its complement (R148). -/
theorem computes_preds {i : Instr} {pd pq : PredNo} {f g : State → Self → Bool}
    (he : ∀ s, exec i s = runAlu i (fun s m => m.t.setPreds pd pq (f s m)) s) (hv : ∀ s m, f s m = g s m)
    (hdep : ∀ s k x m, f (s.setThread k x) m = f s m := by intros; simp only [src_setThread, src64_setThread])
    (hx : badSpecial i = false := by rfl) : Computes i fun s m => (m.t.setPred pd (g s m)).setPred pq (!g s m) :=
  computes_of_alu he (fun s k x m => congrArg (m.t.setPreds pd pq) (hdep s k x m)) (fun _ _ => Thread.setPreds_frame ..)
    (fun s m => congrArg (m.t.setPreds pd pq) (hv s m)) hx

/-- Settles O4: the two predicates take a value and its complement, or two values; the comparisons of numbers OR their flags. -/
theorem comparesResult : Obligations.ComparesResult := by
  unfold Obligations.ComparesResult
  refine ⟨fun q pd pq a b cc uns => ?icmp, fun q pd pq a b cc uns => ?icmp64, fun q pd pq a imm cc uns => ?icmpi,
    fun q pd pq a imm cc uns => ?icmpi64, fun q pd pq a b cc => ?fcmp, fun q plo phi a b cc bf => ?hcmp2,
    fun q pd pq pa pb pc lut => ?plop3, fun q d => ?ptog, fun q a b => ?gtop, fun q pp po a b => ?phcmp⟩
  case icmp | icmp64 | icmpi | icmpi64 => exact computes_preds (fun _ => rfl) (fun _ _ => rfl)
  case fcmp =>
    refine computes_of_alu (fun _ => rfl) (fun s k x m => ?_) (fun s m => ?_) (fun _ _ => rfl)
    · simp only [src_setThread]
    · simp only [Thread.orFlags_frame, Thread.setPreds_frame]
  case hcmp2 =>
    refine computes_of_alu (fun _ => rfl) (fun s k x m => ?_) (fun s m => ?_) (fun _ _ => rfl)
    · simp only [src_setThread]
    · simp only [Thread.orFlags_frame, Thread.setPred_frame]
  case plop3 => exact computes_preds (fun _ => rfl) (fun _ _ => rfl) (fun _ _ _ _ => rfl)
  case ptog => exact computes_word (fun _ => rfl) (fun _ _ => rfl) (fun _ _ _ _ => rfl)
  case gtop =>
    refine computes_of_alu (fun _ => rfl) (fun s k x m => ?_) (fun s m => ?_) (fun _ _ => rfl)
    · simp only [src_setThread]
    · exact foldl_setPred_frame ..
  case phcmp =>
    refine computes_of_alu (fun _ => rfl) (fun s k x m => ?_) (fun s m => ?_) (fun _ _ => rfl)
    · simp only [src_setThread]
    · simp only [Thread.setPred_frame]

end Sys2Proof.Machine
end

section
/-! PROOF. The results of the FP32 instructions (R154 to R158), the packed halves and the conversions (R159 to R165): one rounding of
each result, and all flags ORed into FPSTAT (R40). -/

namespace Sys2Proof.Machine

/-- An instruction whose result of one or more words comes with flags (R158, R165). -/
theorem computes_flagged {i : Instr} {d : Opd} {f : State → Self → List W32} {h g : State → Self → Flags}
    (he : ∀ s, exec i s = runAlu i (fun s m => (m.t.write d (f s m)).orFlags (h s m)) s) (hv : ∀ s m, h s m = g s m)
    (hdep : ∀ s k x m, (f (s.setThread k x) m, h (s.setThread k x) m) = (f s m, h s m) := by intros; simp only [src_setThread])
    (hx : badSpecial i = false := by rfl) : Computes i fun s m => (m.t.write d (f s m)).orFlags (g s m) :=
  computes_of_alu he (fun s k x m => congrArg (fun r => (m.t.write d r.1).orFlags r.2) (hdep s k x m))
    (fun _ _ => (Thread.orFlags_frame ..).trans (Thread.write_frame ..)) (fun s m => congrArg (Thread.orFlags _) (hv s m)) hx

/-- Settles O5: each result and its flags are the value that the arm of `exec` writes with `writeF`; the forms with and without SAT
are the two branches of one function. -/
theorem floatResult : Obligations.FloatResult := by
  unfold Obligations.FloatResult
  refine ⟨fun q d a b rm na nb => ?fadd, fun q d a b rm na nb => ?faddSat, fun q d a b rm na nb sat => ?fsub,
    fun q d a b rm na nb => ?fmul, fun q d a b rm na nb => ?fmulSat, fun q d a b c rm np nc => ?ffma,
    fun q d a b c rm np nc => ?ffmaSat, fun q d a b => ?fmin, fun q d a b => ?fmax, fun q d a fmt => ?fclass,
    fun q d a b rm => ?fscale, fun q d a rm ex => ?frnd, fun q d a rm ty => ?f2i, fun q d a rm ty => ?i2f⟩
  case fadd | faddSat | fsub | fmul | fmulSat | ffma | ffmaSat | fmin | fmax | fscale | frnd | i2f =>
    exact computes_writeF (fun _ => rfl) (fun _ _ => rfl)
  case fclass => exact computes_word (fun _ => rfl) (fun _ _ => rfl)
  case f2i => exact computes_flagged (fun _ => rfl) (fun _ _ => rfl)

/-- The flags of four elements, ORed (R165). -/
theorem foldl_or_range_four (f : Nat → Flags) : (List.range 4).foldl (fun x i => x ||| f i) 0 = f 0 ||| f 1 ||| f 2 ||| f 3 := by
  show 0#5 ||| f 0 ||| f 1 ||| f 2 ||| f 3 = _
  rw [BitVec.zero_or]

/-- Settles O6: each element is the value that the arm of `exec` makes of its own part of the sources. -/
theorem packedResult : Obligations.PackedResult := by
  unfold Obligations.PackedResult
  refine ⟨fun q d a b rm bf nb => ?hadd2, fun q d a b rm bf nb => ?hmul2, fun q d a b c rm bf nb nc => ?hfma2,
    fun q d a b bf => ?hmin2, fun q d a b bf => ?hmax2, fun q d a b c rm bf => ?hdot2, fun q d a srcF dstF rm elt => ?cvt,
    fun q d a b rm bf => ?cvtpk, fun q d a i8 bf => ?cvtx4Narrow, fun q d a i8 bf => ?cvtx4Wide, fun q d a b c dt6 => ?qdt,
    fun q d a b dt6 bf rm => ?dqdt⟩
  case hadd2 | hmul2 | hfma2 | hmin2 | hmax2 | cvt | cvtpk | cvtx4Narrow | qdt =>
    exact computes_writeF (fun _ => rfl) (fun _ _ => rfl)
  case hdot2 => exact computes_writeF (exec_hdot2 q d a b c rm bf) (fun _ _ => rfl)
  case cvtx4Wide => exact computes_words (fun _ => rfl) (fun _ _ => rfl)
  case dqdt => exact computes_flagged (fun _ => rfl) (fun _ _ => foldl_or_range_four _)

end Sys2Proof.Machine
end
